-- ==== Sys2Proof/Word.lean ====
section
/-! DEFINITION. Word types of the ZQ4512 model.

The spec gives most quantities as integers with a width and an LSB (00 R7); they are held as `Nat` or `Int` and
narrowed where the spec writes them into a field. Bytes in memories are bit vectors. -/

namespace Sys2Proof

/-- One byte of host, stack or core memory (little-endian fields, 00 R10). -/
abbrev Byte := BitVec 8

/-- A byte string, lowest address first. -/
abbrev Bytes := List Byte

/-- The byte with value `n` mod 256. -/
def byteOf (n : Nat) : Byte := BitVec.ofNat 8 n

end Sys2Proof
end

