-- ==== Sys2Proof/Machine/Scene.lean ====
section
/-! DEFINITION. The data of a scene and of candidates: bricks, primitives, forecast sets, the flacon (03), bodies (04), candidates, verdicts
and list entries. The state holds the flacon in force; an Accord's golden sets hold scenes of their own (15 R451). -/

namespace Sys2Proof.Machine

/-- A voxel record (03 R77). -/
structure Vox where
  dist : Int := 32767
  weight : Nat := 0
  occ : Bool := false
  cls : Nat := 0
  fidx : Nat := 0
deriving DecidableEq, Repr

/-- A brick key (03 R71). -/
structure Key where
  x : Int
  y : Int
  z : Int
deriving DecidableEq, Repr

/-- A brick index entry (03 R81, R82). -/
structure IdxEntry where
  key : Key
  ptrA : Nat := 0
  ptrB : Nat := 0
  tag : Nat := 0
  validA : Bool := false
  validB : Bool := false
  sealedB : Bool := false
  isOpen : Bool := false
  del : Bool := false
  tomb : Bool := false
  occ : Bool := false
  fresh : Bool := false
  coarse : Int := 0
deriving DecidableEq, Repr

/-- A base-note primitive (03 R86, R87): positions are S15.16 raw, radii in 1/32 mm, FP32 fields as bits. -/
structure Prim where
  id : Nat
  kind : Nat
  cls : Nat
  cx : Int
  cy : Int
  cz : Int
  boundR : Nat := 0
  radius : Nat := 0
  ax : Int := 0
  ay : Int := 0
  az : Int := 0
  hx : Nat := 0
  hy : Nat := 0
  hz : Nat := 0
  quat : List Nat := []
  faces : List (List Nat × Int) := []
  bytes : Nat := 32
deriving DecidableEq, Repr

/-- One forecast slice (03 R108): non-zero probabilities by absolute cell, and the cells that were hard when the set was
written (04 R136). -/
structure FSlice where
  prob : List ((Int × Int) × Nat) := []
  hard : List (Int × Int) := []
deriving DecidableEq, Repr

/-- A forecast set (03 R108, R111): reference time, step in ms, slices; the rectangle [x0, x1) × [y0, y1) of absolute cells
that have stayed inside the window since the set was written. -/
structure FSet where
  tRef : Nat
  stepMs : Nat
  slices : List FSlice
  x0 : Int
  x1 : Int
  y0 : Int
  y1 : Int
deriving DecidableEq, Repr

/-- A sealed snapshot, the flacon (03 R101, R103): index and pool as they stood at the seal, primitives, window origin in
cells of 128 mm, forecast set, resident set with map-cache brick numbers. -/
structure Flacon where
  epoch : Nat := 0
  blocking : Bool := true
  index : List (Nat × IdxEntry) := []
  pool : List (Nat × List Vox) := []
  prims : List Prim := []
  ox : Int := 0
  oy : Int := 0
  oz : Int := -4
  fset : Option FSet := none
  resident : List (Key × Nat) := []
deriving DecidableEq, Repr

/-- A joint (04 R122): FP32 fields as bits. -/
structure Joint where
  parent : Nat
  type : Nat
  axis : List Nat
  originT : List Nat
  originQ : List Nat
deriving DecidableEq, Repr

/-- A query sphere: link, radius in 1/32 mm, centre in the link frame as FP32 bits (04 R123, R124). -/
structure Sph where
  link : Nat
  radius : Nat
  c : List Nat
deriving DecidableEq, Repr

/-- A body in force (04 R120 to R125): query spheres in their numbering are `spheres`, `cover`, `payload`. -/
structure Body where
  baseKind : Nat
  joints : List Joint
  spheres : List Sph
  cover : List Sph
  payload : List Sph
  id : Nat
deriving DecidableEq, Repr

/-- A verdict record (04 R150); `lo` and `hi` as written (int32). -/
structure VRec where
  verdict : Nat := 3
  vflags : Nat := 0
  ws : Nat := 0
  wsph : Nat := 0
  lo : Int := 0
  hi : Int := 0
  cost : Nat := 0
deriving DecidableEq, Repr

/-- An entry of a partial or ranked list (07 R248, R255). -/
structure PEntry where
  u : Nat
  index : Nat
  pos : Nat := 0
  key : Nat
  lo : Int := 0
  ws : Nat := 0
  vflags : Nat := 0
  wsph : Nat := 0
deriving DecidableEq, Repr

/-- A pose: base in S15.16 (x, y, z), yaw, quaternion bits, joint bits; `none` when non-finite. -/
structure Knot where
  x : Int
  y : Int
  z : Int
  yaw : Int
  quat : List Nat
  joints : List Nat
deriving DecidableEq, Repr

/-- A candidate after phase 1: start DT, knot step, samples, knots (`none`: non-finite), base cost; `none` in place of a
candidate is a void position or a malformed record. -/
structure Cand where
  startDt : Nat
  dk : Nat
  samples : Nat
  knots : List (Option Knot)
  cost : Nat
deriving DecidableEq, Repr

end Sys2Proof.Machine
end

