-- ==== Sys2Proof/Syntax.lean ====
section
/-! DEFINITION. The commands of the block: `Instr`, one constructor per row of spec/opcode_table.json, and the operand
types they carry.

Every time-driven command carries `t`, the DT in ns (16 R475) at which it happens. A command that makes the device read
host memory carries a `View`: what the host wrote before it. The table gives the rows no operands; they are read off
the rules each row names (DESIGN CHOICE, notes/assumptions/1.md and 2.md). -/

namespace Sys2Proof

/-- The fields of configuration space that the host writes (09 R295, R309, R322): AtomicOp Requester Enable, MSI-X Enable and Function Mask, Max
Payload Size and Max Read Request Size in bytes, ECRC generation and checking, the mask of AER's uncorrectable errors. -/
structure CfgBits where
  atomicReq : Bool := false
  msixEn : Bool := false
  msixMask : Bool := false
  maxPayload : Nat := 128
  maxReadReq : Nat := 512
  ecrcGen : Bool := false
  ecrcChk : Bool := false
  aerMask : Nat := 0
deriving DecidableEq, Repr

/-- What the host did, before a command, to what the device can see over PCIe: its stores to its own memory, its
configuration-space writes, the ones it writes to AER's uncorrectable-error status, and the ranges [lo, hi) whose device reads end with a PCIe error (09 R309, R324, R554). -/
structure View where
  stores : List (Nat × Bytes) := []
  cfg : Option CfgBits := none
  aerClear : Nat := 0
  bad : List (Nat × Nat) := []
deriving DecidableEq, Repr

/-- A descriptor taken from a context (09 R310): context number, descriptor number since enable, acceptance DT
(09 R311), and its 64 bytes (09 R314). -/
structure Taken where
  ctx : Nat
  num : Nat
  dt : Nat
  desc : Bytes
deriving DecidableEq, Repr

/-- Sampling map of a problem class (05 R192): state entries that hold the base, the yaw or quaternion, the joints, the
rate entries, and the sample count. -/
structure SamplingMap where
  baseX : Nat := 0
  baseY : Nat := 1
  baseZ : Nat := 2
  yaw : Option Nat := none
  quat : List Nat := []
  joints : List Nat := []
  rates : List Nat := []
  samples : Nat := 1
deriving DecidableEq, Repr

/-- Elementwise operations of the vector engine (05 R165, 06 R213), FP32. -/
inductive VecOp where
  | add | sub | mul | div | max | min | sqrt | sin | cos | abs | neg | exp | tanh | erf
  | relu | relu6 | leaky | sigmoid | gelu | silu | hardSigmoid | select | clamp
deriving DecidableEq, Repr

/-- A step of a kernel (05 R164, R165): an FP32 constant, or a vector-engine operation on the values numbered so far. -/
inductive KStep where
  | const (bits : Nat)
  | op (o : VecOp) (a b c : Nat)
deriving DecidableEq, Repr

/-- A kernel of a problem class (05 R164): a vector-engine schedule. Values are numbered from 0: state, input, runtime parameters, goal, weights,
then one per step. `value`, the rows of the Jacobian over state and input, and the rows of the Hessian approximation name values. -/
structure Kernel where
  steps : List KStep := []
  value : List Nat := []
  jac : List (List Nat) := []
  hess : List (List Nat) := []
deriving DecidableEq, Repr

/-- A problem class (05 R162 to R166). Real parameters are binary64 bit patterns; entry scales, bounds, stage limits and weights binary32.
The kernels are dynamics, stage cost, terminal cost, stage constraints, terminal constraints. `sparsity` is the constraint sparsity pattern,
`schedule` the identity of the factorisation schedule. -/
structure PClass where
  h : Nat
  nx : Nat
  nu : Nat
  nc : Nat := 0
  nt : Nat := 0
  np : Nat := 0
  dk : Nat
  outerCap : Nat := 6
  innerCap : Nat := 24
  tol : Nat := 0x3F1A36E2EB1C432D
  thetaInf : Nat := 0x3F847AE147AE147B
  merit : Nat := 0x4059000000000000
  delta0 : Nat := 0x3E112E0BE826D695
  tauPiv : Nat := 0x3DDB7CDFD9D7BDBB
  frame : Bool := true
  solve : Bool := false
  checkMargin : Nat := 0
  entryScale : List Nat := []
  smap : SamplingMap := {}
  sparsity : List (Nat × Nat) := []
  schedule : Nat := 0
  kDyn : Kernel := {}
  kCost : Kernel := {}
  kTermCost : Kernel := {}
  kStage : Kernel := {}
  kTerm : Kernel := {}
  weights : List Nat := []
  xLo : List Nat := []
  xHi : List Nat := []
  uLo : List Nat := []
  uHi : List Nat := []
  stageLo : List (List Nat) := []
  stageHi : List (List Nat) := []
deriving DecidableEq, Repr

/-- An entry of the perturbation table (05 R191). -/
structure Perturb where
  sigma : Nat
  lateral : Nat
  ramp : Nat
  jointRow : Nat
  startOffset : Nat
  cost : Nat
  reserved : Bool := false
deriving DecidableEq, Repr

/-- Role of a network (06 R214). -/
inductive NetRole where
  | forecast | proposal | cost | general
deriving DecidableEq, Repr

/-- A declared network input or output: source code (06 R216), format code (06 R202), shape. -/
structure TensorDecl where
  source : Nat
  fmt : Nat
  shape : List Nat
deriving DecidableEq, Repr

/-- Constants of a layer: format, output channels (rows), reduction length (columns), row by row. A 2:4 structured-sparse tensor (06 R211) holds
two values per group of four reduction indices, and the position of each in its group. -/
structure Weights where
  fmt : Nat
  rows : Nat
  cols : Nat
  sparse : Bool := false
  vals : List Nat
  pos : List Nat := []
deriving DecidableEq, Repr

/-- One axis of a CONV or POOL window (06 R213): extent, stride, dilation, padding before the first element. -/
structure WinAxis where
  kernel : Nat
  stride : Nat := 1
  dilation : Nat := 1
  pad : Nat := 0
deriving DecidableEq, Repr

/-- How an accumulator becomes an output (06 R209): per-channel scale (none: 1) and zero point (none: 0), and the per-channel bias of R206 and
R207 (none: 0), as bits. -/
structure OutStep where
  bias : List Nat := []
  scale : List Nat := []
  zero : List Int := []
deriving DecidableEq, Repr

/-- The operators (06 R213). Axes count from 0; FP32 parameters are bits, `eps` is binary64, `z` is the zero point of an integer input tensor. -/
inductive LayerOp where
  | conv (axes : List WinAxis) (groups : Nat) (w : Weights) (z : Int) (out : OutStep)
  | matmul (w : Option Weights) (transB : Bool) (out : OutStep)
  | attention (heads : Nat) (masked : Bool) (scaleS : List Nat) (out : OutStep)
  | softmax (axis : Nat)
  | norm (rms : Bool) (trail : Nat) (gamma beta : List Nat) (eps : Nat)
  | scaleShift (axis : Nat) (a b : List Nat)
  | activation (op : VecOp) (alpha : Nat) (table : List Nat)
  | pool (avg isGlobal : Bool) (axes : List WinAxis)
  | gather (axis : Nat) (z : Int)
  | scatter (axis : Nat) (acc : Bool)
  | elementwise (op : VecOp)
  | cast
  | resizeNearest
  | resizeBilinear (idx w : List (List Nat))
  | reshape
  | transpose (perm : List Nat)
  | concat (axis : Nat)
  | slice (start step : List Nat)
  | pad (before : List Nat) (z : Int)
deriving DecidableEq, Repr

/-- A layer (06 R214): its operator, the tensors it reads, the format and shape of its output. Tensors are numbered from 0: the network's inputs,
then one per layer. -/
structure LayerDecl where
  op : LayerOp
  ins : List Nat
  fmt : Nat
  shape : List Nat
deriving DecidableEq, Repr

/-- The feature groups of a COST network's input (06 R227). -/
inductive FeatGroup where
  | tau | base | joints | clear | forecast | baseCost
deriving DecidableEq, Repr

/-- A tile of a layer (06 R208, R214): the layer, the logical core position that runs it, and the reduction indices [lo, hi) that it sums. -/
structure Tile where
  layer : Nat
  core : Nat
  lo : Nat
  hi : Nat
deriving DecidableEq, Repr

/-- A network declaration (06 R214). `outIdx` gives the tensor of each output, `stateOut` the output marked STATE, `tiles` the tile order. -/
structure NetDecl where
  role : NetRole
  safety : Bool
  tr : Bool
  layers : List LayerDecl
  weightBytes : Nat := 0
  inputs : List TensorDecl
  outputs : List TensorDecl
  outIdx : List Nat
  stateOut : Option Nat := none
  features : List FeatGroup := []
  heads : Nat := 1
  headDim : Nat := 1
  seqLen : Nat := 1
  clusters : List Nat := []
  cores : List Nat := []
  tiles : List Tile := []
  nProp : Nat := 0
  cCost : Nat := 0
deriving DecidableEq, Repr

/-- A golden set (15 R451): scene and body, the candidates with the margin, forecast weight and k of their batch, and the expected verdict array,
ranked list and golden digest. -/
structure Golden where
  scene : Machine.Flacon := {}
  body : Machine.Body := { baseKind := 0, joints := [], spheres := [], cover := [], payload := [], id := 0 }
  margin : Nat := 0
  wf : Nat := 0
  k : Nat := 1
  cands : List (Option Machine.Cand) := []
  verdicts : List Machine.VRec := []
  ranked : List Machine.PEntry := []
  digest : Nat := 0
deriving DecidableEq, Repr

/-- One engine operation (11 R362, 06 R205 to R213, 05 R177, R178). Addresses are byte offsets in the issuing core's own memory; `n` counts
elements. `tensor` sums `k` products of one output element: with `pos` the second operand is 2:4 (values at `b`, 2-bit positions at `pos`, 06 R211),
`carry` is where an earlier tile left the accumulator, and without an output format the accumulator goes to `dst` for the next tile (R208). `layer`
runs a whole operator on tensors given as offset, format and shape. -/
inductive EngineOp where
  | vector (op : VecOp) (n a b c dst : Nat)
  | intVector (op : VecOp) (fmt n a b c dst : Nat)
  | table (n fmt a lut dst : Nat)
  | dot (n a b dst : Nat)
  | ldlt (n m delta tau dst : Nat)
  | tensor (fmtA fmtB k a b : Nat) (pos carry : Option Nat) (bias : Option Nat) (scale : Option Nat) (zero : Int) (outFmt : Option Nat) (dst : Nat)
  | layer (d : LayerDecl) (ins : List (Nat × Nat × List Nat)) (dst : Nat)
  | softmax (n a dst : Nat)
  | layernorm (rms : Bool) (n a gamma beta eps dst : Nat)
  | scaleShift (n a scale shift dst : Nat)
  | pool (avg : Bool) (n a : Nat) (valid : List Bool) (dst : Nat)
  | gather (n a idx m dst : Nat)
  | scatter (acc : Bool) (n a idx m dst : Nat)
  | resizeNearest (n out a dst : Nat)
  | resizeBilinear (idx : List (List Nat)) (w : List (List Nat)) (a dst : Nat)
  | layout (perm : List Nat) (width a dst : Nat)
  | cast (fmtA fmtB n a dst : Nat)
  | select (keyType order k n a dst : Nat)
  | fetch (kx ky kz : Int) (engine slot : Nat)
  | geometry (x y z : Int) (radius dt margin dst : Nat)
deriving DecidableEq, Repr

/-- A step of a schedule (11 R362). LOOP stands at the end of its block, which begins at `start`, and RETRY branches back to `mark`; `code` is that of
the remote operations (Machine/Cores.lean). -/
inductive SStep where
  | engine (mask : List Bool) (op : EngineOp)
  | remote (code addr v c n local_ : Nat)
  | fence
  | waitSignal (w thr : Nat)
  | loop (start count : Nat)
  | deadline
  | retry (mark : Nat)
deriving DecidableEq, Repr

/-- A customer kernel (11 R364): its class and which of the five kernels of R164 it stands for, its schedule, its input and output ranges in the
working area, and its cycle count. -/
structure CustomKernel where
  cls : Nat
  kind : Nat
  steps : List SStep
  ins : List (Nat × Nat)
  outs : List (Nat × Nat)
  cycles : Nat
deriving DecidableEq, Repr

/-- A factorisation schedule (05 R176, R178): its class, its steps, and its cycles for one inner iteration without and with the retries. -/
structure FactSched where
  cls : Nat
  steps : List SStep
  cycles : Nat
  retryCycles : Nat
deriving DecidableEq, Repr

/-- A protection window (11 R360). -/
structure PWindow where
  base : Nat
  size : Nat
  rd : Bool
  wr : Bool
  atomic : Bool
deriving DecidableEq, Repr

/-- Logical core: compute die 0 to 3, cluster 0 to 15, logical position 0 to 7 (01 R13, 11 R347). -/
structure CoreId where
  die : Nat
  cluster : Nat
  core : Nat
deriving DecidableEq, Repr

/-- An Accord image as the device reads it (11 R366, R367). The spec gives the header and the directory byte for byte, and they are read from the image's
bytes; it names the content of the sections without a layout, so that is structured data (DESIGN CHOICE, notes/assumptions/5.md). -/
structure Accord where
  magic : Nat := 0x44524F434341515A
  format : Nat := 1
  minFirmware : Nat := 0
  imageBytes : Nat := 65536
  sectionCount : Nat := 6
  manifestBytes : Nat := 4096
  hash : Bytes := []
  hash64 : Nat := 0
  minPeriodUs : Nat := 500
  planPeriodUs : Nat := 1000
  planLimitW : Nat := 180
  fPlanMhz : Nat := 1400
  w0 : Nat := 120000
  window : Nat := 800000
  goldenSlot : Nat := 0
  refineBand : Nat := 256
  baseKind : Nat := 1
  nJoints : Nat := 0
  maxQuerySpheres : Nat := 64
  fetchDistance : Nat := 8
  solveStarts : Nat := 0
  tensorStarts : Nat := 0
  selectStarts : Nat := 0
  reservedOk : Bool := true
  sections : List (Nat × Nat × Nat) := []
  topNoteAt : Nat := 0x300000000
  classes : List PClass := []
  perturb : List Perturb := []
  jointOffsets : List (List Nat) := []
  nets : List NetDecl := []
  reducedNets : List NetDecl := []
  scheds : List (CoreId × List SStep) := []
  schedCycles : List (CoreId × Nat) := []
  facts : List FactSched := []
  custom : List CustomKernel := []
  windows : List (CoreId × List PWindow) := []
  goldens : List Golden := [{}]
  forecastWeight : Nat := 0
  drawTable : List (Nat × Nat) := []
  seedCore : List Nat := []
  seedPos : List Nat := []
  soloCores : List Nat := []
  soloClusters : List Nat := []
  certCores : List CoreId := []
deriving DecidableEq, Repr

/-- A firmware image as the boot ROM reads it from a flash slot (16 R490, R491): its bytes, header and both stages, and whether the ROM's check of the
header and stage 1 alone passes, which R491 names and does not state (notes/assumptions/127.md). The flash is a part outside the package. -/
structure BootImg where
  bytes : Bytes
  auth1 : Bool
deriving DecidableEq, Repr

/-- A unit that Carousel tests (15 R455). -/
inductive CUnit where
  | core (q phys : Nat)
  | mapCache (q : Nat)
  | fabric (q : Nat)
  | pair (p : Nat)
deriving DecidableEq, Repr

/-- An instance of a checker that frame-start injection exercises (15 R453), by kind in the table's order: a Sillage decoder by number, a lockstep
comparator (pairs 0 to 7, Net bank 8, streamer 9, Ringmaster 10, Juggler 11), a digest comparator (networks 0, certification 1), the golden
comparator, a timer (firmware watchdog 0, host 1, drives 2 and 3, certification 4), a rail, a clock (in the order of sources 68 to 74), a die's
sensor, a source index. -/
inductive InjChecker where
  | sillage (n : Nat)
  | lockstep (n : Nat)
  | digest (n : Nat)
  | golden
  | timer (n : Nat)
  | supply (rail : Nat)
  | clock (n : Nat)
  | temp (die : Nat)
  | source (i : Nat)
deriving DecidableEq, Repr

/-- A block that a block reset acts on (14 R430); a hub block by the lowest index of its sources. -/
inductive Blk where
  | cluster (q : Nat)
  | link (l : Nat)
  | port (p : Nat)
  | netChannel (c : Nat)
  | pair (p : Nat)
  | hub (k : Nat)
deriving DecidableEq, Repr

/-- The issuer of a remote operation (11 R352): a core's sequencer, a control-core pair, DIAG or the self-test
controller. -/
inductive OpSrc where
  | core (c : CoreId)
  | pair (p : Nat)
  | diag
  | selfTest
deriving DecidableEq, Repr

/-- A descriptor as the units name it to one another: its context, its number there and its acceptance DT (DESIGN CHOICE,
notes/assumptions/109.md). -/
abbrev DescId := Nat × Nat × Nat

/-- What a chain flit carries: a remote operation (11 R350; code 0 PUT, 1 GET, 2 ATOMIC_ADD, 3 ATOMIC_MAX unsigned, 4 signed,
5 ATOMIC_CAS, 6 SIGNAL) with its issuer, its issuer's unit and a tag, and the reply to that unit with the tag and address and whether it is an address
error; result, digest-log and completion bytes and MSI-X
messages (10 R343), a forwarded descriptor with its context's class and client (R343), enumeration (R333, R335), the tick
announcement (R340), a register access and its answer (R344), a fault report (R345), work beyond a unit lost with a status (R343, 14 R430), a replay request
(R332), a timestamp that asks and one that answers (R339). A reply's data has the ranges (offset, length, source) that are poisoned (14 R435). -/
inductive FlitMsg where
  | op (src : OpSrc) (unit tag code addr v c n : Nat) (data : Bytes) (poison : List (Nat × Nat × Nat))
  | reply (src : OpSrc) (unit tag code addr : Nat) (err : Bool) (data : Bytes) (poison : List (Nat × Nat × Nat))
  | hostWrite (id : DescId) (addr : Nat) (bytes : Bytes)
  | logWrite (addr : Nat) (bytes : Bytes)
  | completion (id : DescId) (bytes : Bytes)
  | msix (vector : Nat)
  | descriptor (unit ctx num dt prio client : Nat) (bytes : Bytes)
  | startFlit (gen : Nat)
  | report (addr : Nat) (last overflow : Bool) (grade fw : Nat)
  | announce (tickDt frame period : Nat)
  | racc (unit off : Nat) (val : Option Nat)
  | raccReply (val : Option Nat)
  | remoteFault (unit : Nat) (low : Bool)
  | lost (unit status src : Nat)
  | replayFrom (seq : Nat)
  | tsRequest (t1 : Nat)
  | tsReply (t1 t2 t3 : Nat)
deriving DecidableEq, Repr

/-- The flit type of a message (10 R329; the coding is a DESIGN CHOICE, notes/assumptions/68.md). -/
def flitType : FlitMsg → Nat
  | .op .. => 0
  | .reply .. => 1
  | .hostWrite .. => 2
  | .logWrite .. => 3
  | .completion .. => 4
  | .msix _ => 5
  | .descriptor .. => 6
  | .startFlit _ => 7
  | .report .. => 8
  | .announce .. => 9
  | .racc .. => 10
  | .raccReply _ => 11
  | .remoteFault .. => 12
  | .lost .. => 13
  | .replayFrom _ => 14
  | .tsRequest _ => 15
  | .tsReply .. => 15

/-- The 8-bit header of a flit (10 R329): the low four bits of its link sequence number, and its type. -/
def flitHeader (seq : Nat) (m : FlitMsg) : Nat := seq % 16 + 16 * flitType m

/-- The commands, in the order of spec/opcode_table.json. Each docstring names the row's rule. -/
inductive Instr where
  /-- POLL_INSTANT_WALK (R307). -/
  | pollInstantWalk (t : Nat) (v : View) (atomicOk : Bool)
  /-- MAP_INGEST (R96). -/
  | mapIngest (d : Taken) (v : View)
  /-- MAP_PRIMITIVES (R107). -/
  | mapPrimitives (d : Taken) (v : View)
  /-- MAP_HAZARD (R114); `commit` is the DT at which the hub commits the late adds (R115). -/
  | mapHazard (d : Taken) (v : View) (commit : Nat)
  /-- BODY_LOAD (R126). -/
  | bodyLoad (d : Taken) (v : View)
  /-- ACCORD_LOAD (R369), with the image found at `image_addr`. -/
  | accordLoad (d : Taken) (v : View) (img : Accord)
  /-- FRAME_RUN (R41). -/
  | frameRun (d : Taken) (v : View)
  /-- SOLVE (R197). -/
  | solve (d : Taken) (v : View)
  /-- CHECK (R155). -/
  | check (d : Taken) (v : View)
  /-- SELECT (R258). -/
  | select (d : Taken) (v : View)
  /-- TENSOR_RUN (R234). -/
  | tensorRun (d : Taken) (v : View)
  /-- NET_CONTROL CONFIGURE (R292). -/
  | configure (d : Taken) (v : View)
  /-- NET_CONTROL FIRE (R280). -/
  | fire (d : Taken) (v : View)
  /-- NET_CONTROL RELEASE (R286). -/
  | release (d : Taken) (v : View)
  /-- NET_CONTROL HEARTBEAT (R284). -/
  | heartbeat (d : Taken) (v : View)
  /-- UNIT_CONTROL DISABLE (R438). -/
  | unitDisable (d : Taken) (v : View)
  /-- UNIT_CONTROL FENCE (R440). -/
  | unitFence (d : Taken) (v : View)
  /-- UNIT_CONTROL RESTORE (R440). -/
  | unitRestore (d : Taken) (v : View)
  /-- DIAG READ (R317). -/
  | diagRead (d : Taken) (v : View) (errs : List (Nat × Bytes))
  /-- DIAG WRITE (R317). -/
  | diagWrite (d : Taken) (v : View) (errs : List (Nat × Bytes))
  /-- DIAG SNAPSHOT (R317). -/
  | diagSnapshot (d : Taken) (v : View)
  /-- IRQ_DELAY_EXPIRY (R322). -/
  | irqDelayExpiry (t : Nat) (ctx : Nat)
  /-- CTX_WRITE (R302); `dur` is how long BUSY stays set. -/
  | ctxWrite (t dur : Nat)
  /-- CTX_READ (R302). -/
  | ctxRead (t dur : Nat)
  /-- CTX_ENABLE (R302). -/
  | ctxEnable (t dur : Nat)
  /-- CTX_DISABLE (R302). -/
  | ctxDisable (t dur : Nat)
  /-- CTX_INVALID_COMMAND (R302). -/
  | ctxInvalidCommand (t code : Nat)
  /-- CTX_DRAIN_END (R302). -/
  | ctxDrainEnd (t ctx : Nat)
  /-- POLL_EN_WRITE (R514). -/
  | pollEnWrite (t : Nat) (on : Bool)
  /-- BAR0_UNSUPPORTED_ACCESS (R296): byte address, size in bytes, write. -/
  | bar0UnsupportedAccess (t addr size : Nat) (isWrite : Bool)
  /-- BAR2_READ (R297): window offset, bytes, and the bits that errors have flipped in the granules read. -/
  | bar2Read (t off n : Nat) (errs : List (Nat × Bytes))
  /-- BAR2_WRITE (R297). -/
  | bar2Write (t off : Nat) (data : Bytes) (errs : List (Nat × Bytes))
  /-- PERST_N (R299). -/
  | perstN (t : Nat)
  /-- HOT_RESET (R299). -/
  | hotReset (t : Nat)
  /-- FUNCTION_LEVEL_RESET (R299). -/
  | functionLevelReset (t : Nat)
  /-- REGISTER_WRITE (R11). -/
  | registerWrite (t off val : Nat)
  /-- REGISTER_READ_CLEAR (R11). -/
  | registerReadClear (t off : Nat)
  /-- PAIR_LO_READ (R504). -/
  | pairLoRead (t off : Nat)
  /-- PAIR_HI_WRITE (R504). -/
  | pairHiWrite (t off val : Nat)
  /-- FRAME_PERIOD_WRITE (R37). -/
  | framePeriodWrite (t val : Nat)
  /-- MAP_WINDOW_Z_WRITE (R519). -/
  | mapWindowZWrite (t val : Nat)
  /-- MAP_FORECAST_WRITE (R519). -/
  | mapForecastWrite (t val : Nat)
  /-- PWR_RAIL_THR_WRITE (R511). -/
  | pwrRailThrWrite (t rail val : Nat)
  /-- LIMIT_W_WRITE (R479). -/
  | limitWWrite (t val : Nat)
  /-- DORMANT_REQ (R498); `othersAtRest`: every other unit's Net is in NO_NET or STANDSTILL. -/
  | dormantReq (t : Nat) (othersAtRest : Bool)
  /-- DORMANT_ENTRY (R499). -/
  | dormantEntry (t : Nat)
  /-- WAKE (R501). -/
  | wake (t : Nat)
  /-- I3C_WAKE (R501). -/
  | i3cWake (t : Nat)
  /-- WAKE_COMPLETE (R501): firmware re-verified; the units that failed the wake rotation, with their failed slices. -/
  | wakeComplete (t : Nat) (fwOk : Bool) (failed : List (CUnit × Nat))
  /-- GO (R509). -/
  | go (t : Nat)
  /-- CHIP_RESET_REQUEST (R487). -/
  | chipResetRequest (t : Nat)
  /-- COMMIT_ROLLBACK (R491). -/
  | commitRollback (t : Nat)
  /-- STRAP_SAMPLE (R489): BOOT_SRC and CHAIN_HEAD as strapped. -/
  | strapSample (t src : Nat) (chainHead : Bool)
  /-- SECURE_BOOT (R491): the images found, with slot code 0 A, 1 B, 2 host. -/
  | secureBoot (t : Nat) (images : List (Nat × BootImg))
  /-- PWR_OK_RISE (R338): rails below their reset threshold at that moment (R538). -/
  | pwrOkRise (t : Nat) (lowRails : List Nat)
  /-- PWR_OK_FALL (R472). -/
  | pwrOkFall (t : Nat)
  /-- SUPPLY_RESET (R459). -/
  | supplyReset (t rail : Nat)
  /-- RAIL_WARNING_CROSSING (R460). -/
  | railWarningCrossing (t rail : Nat)
  /-- RAIL_RECOVERED (R459). -/
  | railRecovered (t rail : Nat)
  /-- SUPPLY_ESCALATION (R460). -/
  | supplyEscalation (t rail : Nat)
  /-- AVS_TIMEOUT (R470). -/
  | avsTimeout (t port : Nat)
  /-- GOVERNOR_TRIM (R477): mean draw over the last 100 us, LSB 0.1 W. -/
  | governorTrim (t draw : Nat)
  /-- GOVERNOR_CALIBRATE (R477): rail currents read over AVSBus, in mA. -/
  | governorCalibrate (t : Nat) (currents : List Nat)
  /-- TEMP_SAMPLE (R481): die 0 H, 1 to 4 C0 to C3, 5 to 8 M0 to M3; LSB 1/16 degree. -/
  | tempSample (t die : Nat) (temp : Int)
  /-- CLOCK_MONITOR_WINDOW (R458): clock 0 reference, 1 REFCLK, 2 to 5 C0 to C3, 6 hub; measured over nominal (or over
  maximum) in parts per million, 0 for no edge. -/
  | clockMonitorWindow (t clk ppm : Nat)
  /-- SCRUB_PASS_END (R449). -/
  | scrubPassEnd (t stack : Nat) (finished : Bool)
  /-- FRAME_TICK (R39); runs of a TENSOR_RUN that start at the tick read their input sets (R234). -/
  | frameTick (t : Nat) (v : View)
  /-- INJECTION_TIMEOUT (R454). -/
  | injectionTimeout (t : Nat) (checker : InjChecker)
  /-- SEAL (R103). -/
  | sealStart (t : Nat)
  /-- SEAL_COMPLETE (R104). -/
  | sealComplete (t : Nat)
  /-- FULL_SEAL_COMPLETE (R105). -/
  | fullSealComplete (t : Nat)
  /-- ATOMISER_GROUP (R97). -/
  | atomiserGroup (t : Nat) (v : View)
  /-- ATOMISER_OVERRUN (R97). -/
  | atomiserOverrun (t : Nat)
  /-- BATCH_SLOT_BOUNDARY (R49); `upset`: a position of the golden batch whose result a fault of the hardware altered. -/
  | batchSlotBoundary (t : Nat) (upset : Option Nat) (v : View)
  /-- JUGGLER_MERGE (R250). -/
  | jugglerMerge (t : Nat)
  /-- NET_CERTIFICATION (R270); `upset`: what a fault of the hardware changed in copy B's digest (R444), 0 without one. -/
  | netCertification (t upset : Nat)
  /-- NET_BANK (R272). -/
  | netBank (t : Nat)
  /-- CERTIFICATION_OVERRUN (R271). -/
  | certificationOverrun (t : Nat)
  /-- NET_RECERTIFICATION (R276). -/
  | netRecertification (t upset : Nat)
  /-- IMMEDIATE_RECERTIFICATION (R278). -/
  | immediateRecertification (t upset : Nat)
  /-- PUBLISH (R63). -/
  | publish (t : Nat)
  /-- OPTIMISATION_START (R168): work item, seed slot or problem. -/
  | optimisationStart (t wid idx : Nat)
  /-- OUTER_COMMIT (R183): the end of an outer iteration, with the DT of the comparison before its flip, or before the block step that ended its
  QP (R181). -/
  | outerCommit (t wid idx cmp : Nat)
  /-- DEADLINE_CUT (R184): how many inner iterations of the outer iteration in progress were complete, and how many retries of the next one's
  factorisation had begun. -/
  | deadlineCut (t wid idx inner tries : Nat)
  /-- SOLVE_PROBLEM_STOP (R200). -/
  | solveProblemStop (t wid idx : Nat)
  /-- LAYER_DIGEST_COMPARE (R230): work item (0 for the frame's networks), run (the frame for those), network, layer, copy B, and what a fault
  in that copy changed in the digest (0: nothing). -/
  | layerDigestCompare (t wid run net layer : Nat) (copyB : Bool) (upset : Nat)
  /-- FORECAST_SET_WRITE (R222). -/
  | forecastSetWrite (t : Nat)
  /-- PROPOSAL_READY (R225). -/
  | proposalReady (t : Nat)
  /-- NETWORK_OVERRUN (R223). -/
  | networkOverrun (t : Nat)
  /-- TENSOR_RUN_END (R237). -/
  | tensorRunEnd (t wid run : Nat)
  /-- SELECT_ROW_END (R260). -/
  | selectRowEnd (t wid row : Nat) (v : View)
  /-- ACCORD_COPY_DONE (R370). -/
  | accordCopyDone (t : Nat) (pcieError : Bool)
  /-- ACCORD_CORES_LOADED (R372). -/
  | accordCoresLoaded (t : Nat)
  /-- NET_COMES_INTO_FORCE (R274). -/
  | netComesIntoForce (t : Nat)
  /-- NET_EXPIRY (R280). -/
  | netExpiry (t : Nat)
  /-- HOST_HEARTBEAT_TIMEOUT (R284). -/
  | hostHeartbeatTimeout (t : Nat)
  /-- DRIVE_REQUEST (R280): the filtered levels of DRV_REQ_A and DRV_REQ_B. -/
  | driveRequest (t : Nat) (a b : Bool)
  /-- DRIVE_HEARTBEAT_EDGE (R285). -/
  | driveHeartbeatEdge (t ch : Nat)
  /-- DRIVE_HEARTBEAT_TIMEOUT (R285). -/
  | driveHeartbeatTimeout (t ch : Nat)
  /-- SETPOINT_FRAME (R288): the drives' replies. -/
  | setpointFrame (t : Nat) (replyA replyB : Bytes)
  /-- NET_STANDSTILL (R279). -/
  | netStandstill (t : Nat)
  /-- SAFE_STOP_MISMATCH (R283): channel and the level read back. -/
  | safeStopMismatch (t ch : Nat) (level : Bool)
  /-- STREAMER_MISMATCH (R283). -/
  | streamerMismatch (t : Nat)
  /-- FAULT_EVENT (R422). -/
  | faultEvent (t src addr syn : Nat)
  /-- LEVEL_SOURCE_BEGIN (R423): `ended` are the level sources whose condition has ended before. -/
  | levelSourceBegin (t src addr syn : Nat) (ended : List Nat)
  /-- BLOCK_RESET_DONE (R430). -/
  | blockResetDone (t : Nat) (b : Blk)
  /-- SPARE_LOAD_DONE (R18). -/
  | spareLoadDone (t q : Nat)
  /-- FAULT_STICKY_CLEAR (R441): word and value written. -/
  | faultStickyClear (t word val : Nat)
  /-- FFL_CLEAR (R441). -/
  | fflClear (t : Nat)
  /-- FAULT_SRC_CFG_WRITE (R524). -/
  | faultSrcCfgWrite (t val : Nat)
  /-- FUNCTION_DRAIN_END (R438). -/
  | functionDrainEnd (t f : Nat)
  /-- RESTORE_ROTATION_DONE (R440): the cluster; which of its units passed is what Carousel's slices have left. -/
  | restoreRotationDone (t q : Nat)
  /-- CAROUSEL_RUN (R457). -/
  | carouselRun (t : Nat)
  /-- CAROUSEL_SLICE_DONE (R455). -/
  | carouselSliceDone (t : Nat) (u : CUnit) (slice : Nat) (pass : Bool)
  /-- RINGMASTER_TICK (R389); a slice of a unit, with its length in us, that the Carousel controller passes for admission. -/
  | ringmasterTick (t : Nat) (slice : Option (CUnit × Nat))
  /-- EVENT_WORD_CHANGE (R391). -/
  | eventWordChange (t w : Nat)
  /-- SAFETY_THREAD_LATENCY (R393). -/
  | safetyThreadLatency (t e : Nat)
  /-- CREATE (R383): pair, RM_ARG0, RM_ARG1. -/
  | create (t p a0 a1 : Nat)
  /-- RESUME (R383). -/
  | resume (t p a0 a1 : Nat)
  /-- SUSPEND (R383). -/
  | suspend (t p a0 a1 : Nat)
  /-- DELETE (R383). -/
  | delete (t p a0 a1 : Nat)
  /-- SWITCH (R384). -/
  | switch (t p a0 a1 : Nat)
  /-- SET_PRIO (R383). -/
  | setPrio (t p a0 a1 : Nat)
  /-- SET_PAIR (R383). -/
  | setPair (t p a0 a1 : Nat)
  /-- WAKE_THREAD: the Ringmaster command WAKE (R383). -/
  | wakeThread (t p a0 a1 : Nat)
  /-- READ_ENTRY (R383). -/
  | readEntry (t p a0 a1 : Nat)
  /-- LOCKSTEP_MISMATCH (R376). -/
  | lockstepMismatch (t p : Nat)
  /-- PUT (R350). -/
  | put (t : Nat) (src : OpSrc) (addr n local_ : Nat) (data : Bytes) (lerrs errs : List (Nat × Bytes))
  /-- GET (R350): `local_` is the offset in the issuer's core memory; `errs`: the bits that errors have flipped in the granules read. -/
  | get (t : Nat) (src : OpSrc) (addr n local_ : Nat) (errs : List (Nat × Bytes))
  /-- ATOMIC_ADD (R350). -/
  | atomicAdd (t : Nat) (src : OpSrc) (addr v local_ : Nat) (errs : List (Nat × Bytes))
  /-- ATOMIC_MAX (R350). -/
  | atomicMax (t : Nat) (src : OpSrc) (addr v local_ : Nat) (isSigned : Bool) (errs : List (Nat × Bytes))
  /-- ATOMIC_CAS (R350). -/
  | atomicCas (t : Nat) (src : OpSrc) (addr c v local_ : Nat) (errs : List (Nat × Bytes))
  /-- SIGNAL (R353). -/
  | signal (t : Nat) (src : OpSrc) (addr v : Nat) (errs : List (Nat × Bytes))
  /-- FENCE (R355). -/
  | fence (t : Nat) (c : CoreId)
  /-- WAIT_SIGNAL (R355): signal word index and threshold. -/
  | waitSignal (t : Nat) (c : CoreId) (w thr : Nat)
  /-- ENGINE (R362). -/
  | engine (t : Nat) (c : CoreId) (mask : List Bool) (op : EngineOp) (errs : List (Nat × Bytes))
  /-- LOOP (R362): first step of the block and the count. -/
  | loop (t : Nat) (c : CoreId) (start count : Nat)
  /-- DEADLINE (R362), with what DEADLINE_CUT tells of an outer iteration in progress. -/
  | deadline (t : Nat) (c : CoreId) (inner tries : Nat)
  /-- RETRY (R178): the marked step. -/
  | retry (t : Nat) (c : CoreId) (mark inner : Nat)
  /-- RING_LINK_FAILOVER (R31): ring link 4 to 7; for the direction from its lower-numbered end in the order C0, C1, C2, C3, C0 and for the other,
  the sequence numbers of the flits that had not arrived. -/
  | ringLinkFailover (t link : Nat) (lostA lostB : List Nat)
  /-- ENUM_START (R333). -/
  | enumStart (t : Nat)
  /-- ENUMERATION_START_FLIT (R333). -/
  | enumerationStartFlit (t gen : Nat)
  /-- ENUM_TOKEN (R335). -/
  | enumToken (t byte : Nat)
  /-- ENUM_REPORT (R336). -/
  | enumReport (t addr : Nat) (last overflow : Bool) (grade fw : Nat)
  /-- ENUMERATION_TIMEOUT (R336). -/
  | enumerationTimeout (t : Nat)
  /-- TIME_SYNC_EXCHANGE (R339): the request leaves; with the answer, when it has come, the DTs at which the neighbour received the request and
  answered it, by its own clock, and the DT at which the answer arrived. -/
  | timeSyncExchange (t : Nat) (answer : Option (Nat × Nat × Nat))
  /-- TICK_ANNOUNCE (R340): DT, frame number and period in us of the next tick. -/
  | tickAnnounce (t tickDt frame period : Nat)
  /-- TICK_IN_PULSE (R341). -/
  | tickInPulse (t : Nat)
  /-- LINK_TRAINING (R330): port 0 CHN_UP, 1 CHN_DN; the state entered. -/
  | linkTraining (t port state : Nat)
  /-- CHAIN_FLIT_RECEIVE (R331): port, 8-bit header, the 36-byte codeword as received, what it carries. -/
  | chainFlitReceive (t port hdr : Nat) (code : Bytes) (msg : FlitMsg) (errs : List (Nat × Bytes))
  /-- REPLAY_REQUEST (R332). -/
  | replayRequest (t port seq : Nat)
  /-- RACC_READ (R344); `answer` is the downstream unit's answer when it came. -/
  | raccRead (t : Nat) (answer : Option Nat)
  /-- RACC_WRITE (R344). -/
  | raccWrite (t : Nat) (answered : Bool)
  /-- RACC_TIMEOUT (R516). -/
  | raccTimeout (t : Nat)
  /-- LOG_EN_WRITE (R528). -/
  | logEnWrite (t : Nat) (on : Bool)
  /-- REGULATOR_SETTLED (R471). -/
  | regulatorSettled (t die : Nat)
  /-- PERST_N_RELEASE (R458). -/
  | perstNRelease (t : Nat)
  /-- STACK_TRAINING_COMPLETE (R493): full rate or the first, slow rate. -/
  | stackTrainingComplete (t : Nat) (full : Bool)
deriving DecidableEq, Repr

end Sys2Proof
end

