-- ==== Sys2Proof/Machine/Num.lean ====
section
/-! DEFINITION. Integer helpers: little-endian fields (00 R10), rounding and saturation (00 R8, R9), exact integer
square roots (04 R131), sign extension, and the two CRCs (03 R83, 13 R409). -/

namespace Sys2Proof.Machine

/-- `lo ≤ x ≤ hi`. -/
def inN (lo x hi : Nat) : Bool := decide (lo ≤ x) && decide (x ≤ hi)

/-- `k` bytes of `n`, little-endian (00 R10). -/
def leBytes : Nat → Nat → Bytes
  | 0, _ => []
  | k + 1, n => byteOf (n % 256) :: leBytes k (n / 256)

/-- The unsigned value of a little-endian byte string (00 R10). -/
def leNat : Bytes → Nat
  | [] => 0
  | b :: bs => b.toNat + 256 * leNat bs

/-- Field of `k` bytes at offset `o` of a byte string; bytes past the end read 0. -/
def fieldN (bs : Bytes) (o k : Nat) : Nat := leNat ((bs.drop o).take k)

/-- Two's complement value of the low `w` bits of `n`. -/
def signed (w n : Nat) : Int :=
  let m := n % 2 ^ w
  if m < 2 ^ (w - 1) then (m : Int) else (m : Int) - ((2 ^ w : Nat) : Int)

/-- The low `w` bits of an integer, as an unsigned value. -/
def unsignedOf (w : Nat) (x : Int) : Nat := (x % ((2 ^ w : Nat) : Int)).toNat

/-- Signed field of `k` bytes. -/
def fieldI (bs : Bytes) (o k : Nat) : Int := signed (8 * k) (fieldN bs o k)

/-- Bit `i` of `n`. -/
def bitOf (n i : Nat) : Bool := n.testBit i

/-- Bits `[lo + w - 1 : lo]` of `n`. -/
def bitsOf (n lo w : Nat) : Nat := (n >>> lo) % 2 ^ w

/-- 1 for true, 0 for false. -/
def b2n (b : Bool) : Nat := if b then 1 else 0

/-- `ceil(a / b)` on naturals (0 when `b` is 0). -/
def ceilDiv (a b : Nat) : Nat := if b = 0 then 0 else (a + b - 1) / b

/-- Quotient rounded to nearest, ties to even (00 R8). -/
def roundDiv (n : Int) (d : Nat) : Int :=
  let q := n / (d : Int)
  let r := n % (d : Int)
  if 2 * r < (d : Int) then q
  else if 2 * r > (d : Int) then q + 1
  else if q % 2 = 0 then q else q + 1

/-- Saturation to `[lo, hi]` (00 R9). -/
def clampI (lo hi x : Int) : Int := if x < lo then lo else if x > hi then hi else x

/-- Saturation of an integer to int16. -/
def satI16 (x : Int) : Int := clampI (-32768) 32767 x

/-- Saturation of an integer to int32, the range of an S15.16 position (00 R7). -/
def satI32 (x : Int) : Int := clampI (-2147483648) 2147483647 x

/-- Within int32. -/
def inI32 (x : Int) : Bool := decide (-2147483648 ≤ x) && decide (x ≤ 2147483647)

/-- Bitwise integer square root from bit `i` downward: the greatest `r` with `r * r ≤ n`. -/
def isqrtGo (n : Nat) : Nat → Nat → Nat
  | 0, r => r
  | i + 1, r => let r' := r + 2 ^ i; if r' * r' ≤ n then isqrtGo n i r' else isqrtGo n i r

/-- Exact integer square root rounded down (04 R131), for any `n`. -/
def floorSqrt (n : Nat) : Nat := isqrtGo n (n.log2 / 2 + 1) 0

/-- Exact integer square root rounded up (04 R131). -/
def ceilSqrt (n : Nat) : Nat := let r := floorSqrt n; if r * r = n then r else r + 1

/-- One bit step of a reflected CRC with reflected polynomial `poly`. -/
def crcBit (poly c : Nat) : Nat := if c % 2 = 1 then (c >>> 1) ^^^ poly else c >>> 1

/-- One byte step of a reflected CRC. -/
def crcByte (poly c : Nat) (b : Byte) : Nat :=
  let c := c ^^^ b.toNat
  crcBit poly (crcBit poly (crcBit poly (crcBit poly (crcBit poly (crcBit poly (crcBit poly (crcBit poly c)))))))

/-- CRC-32C of the brick key and of Net port frames: initial value and final XOR 0xFFFF_FFFF (03 R83). -/
def crc32c (bs : Bytes) : Nat := (bs.foldl (crcByte 0x82F63B78) 0xFFFFFFFF) ^^^ 0xFFFFFFFF

/-- CRC-64 (ECMA-182 polynomial 0x42F0_E1EB_A9EA_3693, reflected), the digest of every record (13 R409). -/
def crc64 (bs : Bytes) : Nat :=
  (bs.foldl (crcByte 0xC96C5795D7870F42) 0xFFFFFFFFFFFFFFFF) ^^^ 0xFFFFFFFFFFFFFFFF

/-- Fold of a sequence of digests: CRC-64 of their little-endian concatenation (13 R410). -/
def foldDigests (ds : List Nat) : Nat := crc64 (ds.flatMap (leBytes 8))


/-- Overwrite bytes from offset `o`. -/
def patchAt (bs : Bytes) (o : Nat) (p : Bytes) : Bytes := bs.take o ++ p ++ bs.drop (o + p.length)

/-- `n` zero bytes. -/
def zeros (n : Nat) : Bytes := List.replicate n 0

/-- Pad a byte string with zeros to a multiple of `m`. -/
def padTo (m : Nat) (bs : Bytes) : Bytes := bs ++ zeros (ceilDiv bs.length m * m - bs.length)


/-- Insert into a list kept in the order of `le`, after every element that is not greater. -/
def insertBy {α : Type} (le : α → α → Bool) (x : α) : List α → List α
  | [] => [x]
  | y :: ys => if le y x then y :: insertBy le x ys else x :: y :: ys

/-- Stable insertion sort by `le`. -/
def sortBy {α : Type} (le : α → α → Bool) (l : List α) : List α := l.foldl (fun acc x => insertBy le x acc) []

/-- Modify the element at index `i` of a list (no change past the end). -/
def modifyAt {α : Type} (f : α → α) : Nat → List α → List α
  | _, [] => []
  | 0, x :: xs => f x :: xs
  | i + 1, x :: xs => x :: modifyAt f i xs

/-- Value of a sparse table keyed by naturals. -/
def lookupD {α : Type} (d : α) (k : Nat) : List (Nat × α) → α
  | [] => d
  | (k', v) :: r => if k' = k then v else lookupD d k r

/-- Entry of a sparse table, if any. -/
def lookupO {α : Type} (k : Nat) : List (Nat × α) → Option α
  | [] => none
  | (k', v) :: r => if k' = k then some v else lookupO k r

/-- Integers from `lo`, `n` of them. -/
def intRange (lo : Int) (n : Nat) : List Int := (List.range n).map (fun (i : Nat) => lo + (i : Int))

/-- Integers from `lo` to `hi`, ends included. -/
def intSpan (lo hi : Int) : List Int := intRange lo (hi - lo + 1).toNat

/-- The `j`-th number, from 0, that an ascending list does not hold. -/
def kthFree (used : List Nat) (j : Nat) : Nat := used.foldl (fun k u => if u ≤ k then k + 1 else k) j

/-- Write an entry of a sparse table kept in ascending key order. -/
def insertKey {α : Type} (k : Nat) (v : α) : List (Nat × α) → List (Nat × α)
  | [] => [(k, v)]
  | (k', v') :: r => if k' < k then (k', v') :: insertKey k v r else if k' = k then (k, v) :: r else (k, v) :: (k', v') :: r

/-- Remove an entry of a sparse table. -/
def eraseKey {α : Type} (k : Nat) (l : List (Nat × α)) : List (Nat × α) := l.filter (fun p => p.1 != k)

end Sys2Proof.Machine
end

