-- ==== Sys2Proof/Machine/Flags.lean ====
section
/-! DEFINITION. Completion flags (09 R320): bit 0 TRUNC, 1 FEWER, 2 TIE_AT_K, 3 DUP_MERGED, 4 WARM_IGNORED, 5 HAZARD_LATE, 6
SUPPLY_SUSPECT, 7 NET_FIRED, 8 DEGRADED, 9 GOLDEN_FAIL, 10 TIMING_CHOICE, 11 DEFERRED. -/

namespace Sys2Proof.Machine

/-- Flag bit `i` when `b`. -/
def flagIf (b : Bool) (i : Nat) : Nat := if b then 2 ^ i else 0


end Sys2Proof.Machine
end

