-- ==== Sys2Proof/Config.lean ====
section
/-! DEFINITION. What the spec leaves open: values fixed per part or not stated at all, as opaque constants (free values).
Nothing in Lean can evaluate them, so a statement about them holds for every value. -/

namespace Sys2Proof

/-- Free value: which of the free pool slots of a stack an insertion or an open copy takes (03 R85 names the stack only).
Applied to the model's counter `State.fresh`. notes/assumptions/10.md -/
opaque Config.poolPick : Nat → Nat

/-- Free value: which of the free map-cache brick numbers an entering brick takes (03 R80). notes/assumptions/10.md -/
opaque Config.cachePick : Nat → Nat

/-- Free value: the plane value that a cell reads after it entered the window by a scroll (03 R111, 04 R136 do not
state it): slice, absolute cell x and y. notes/assumptions/11.md -/
opaque Config.enteringPlane : Nat → Int → Int → Int

/-- Free value: by how much the derivation of a polytope's boundary in FP64 moves a distance to it, in U; the model uses it within the 2^-16 m that 04
R141 allows: polytope record values, point. notes/assumptions/12.md -/
opaque Config.polyBoundary : List Int → Int → Int → Int → Int

/-- Free value: the lowest AVSBus set point, in steps of 5 mV above 0.60 V, that supports a clock in units of 25 MHz on a
compute die (16 R470 gives the rule, not the table). notes/assumptions/16.md -/
opaque Config.vsetFor : Nat → Nat

/-- Free value: word `i` of a setpoint whose interpolated pose is not finite (08 R288 does not state it), applied to the model's
counter. notes/assumptions/19.md -/
opaque Config.setpointWord : Nat → Nat → Nat

/-- Free value: the bytes of a class's structure record (05 R163 gives what it holds, not its layout): horizon, sizes, knot step, sparsity
pattern, sampling map and schedule identity, as numbers. notes/assumptions/20.md -/
opaque Config.structureRecord : List Nat → Bytes

/-- Free value: an integer elementwise division (06 R213 calls integer operations exact and states no rounding of a quotient): dividend,
divisor. notes/assumptions/21.md -/
opaque Config.intDiv : Int → Int → Int

/-- Free value: the maximum, and the mean of integers, of a pooling window with no element (06 R213 does not state it).
notes/assumptions/21.md -/
opaque Config.emptyMax : Nat

/-- Free value: what the running firmware reports of its placement in the stacks (01 R27, 17 R513, R518: fixed for a firmware version):
version, item (0 brick pool, 1 index, 2 context table, 3 staging base, 4 staging size, 5 and 6 Accord regions). notes/assumptions/24.md -/
opaque Config.placement : Nat → Nat → Nat

/-- Free value: how long HOSTQ_CTX_STATUS.BUSY stays set after a command written as a plain register write (09 R302 does not state it),
applied to the model's counter. notes/assumptions/25.md -/
opaque Config.busyNs : Nat → Nat

/-- Free value: every other unit's Net is in NO_NET or STANDSTILL when DORMANT_REQ is written as a plain register write (16 R498), applied to
the model's counter; this model holds one unit. notes/assumptions/25.md -/
opaque Config.othersAtRest : Nat → Bool

/-- Free value: a place of the FEATURES input that no sample or column of a candidate fills (06 R227 gives one row per sample of the candidate, the
network one shape): row, column. notes/assumptions/50.md -/
opaque Config.featurePad : Nat → Nat → Nat

/-- Fused identity words: vendor, subsystem, stepping, serial (17 R507, R551). notes/assumptions/13.md -/
opaque Config.idVendor : Nat
opaque Config.idSubsysVendor : Nat
opaque Config.idSubsys : Nat
opaque Config.idStepping : Nat
opaque Config.idSerial : Nat

/-- Free value: a byte of a core's schedule store (11 R358, R363: the sequencer streams the schedule through it; the coding of a step is not stated):
the running Accord's hash64, the core, the step, the offset. notes/assumptions/103.md -/
opaque Config.schedByte : Nat → Nat → Nat → Nat → BitVec 8

end Sys2Proof
end

