-- ==== Sys2Proof/Machine/State.lean ====
section
/-! DEFINITION. The state of the block, as plain data, and its value at reset.

One sub-structure per register block or unit of the spec; the default value of a field is its reset value. A field whose
reset value the spec does not give has a log entry (INVENTORY.md names it). -/

namespace Sys2Proof.Machine

/-- Why a command stops with a fault. No command of this model does: every effect of the spec is a next state. -/
inductive Fault where
  /-- Raised by no command; kept so that the type is inhabited. Safe. -/
  | none
deriving DecidableEq, Repr

/-- Why a command has no meaning. -/
inductive Refusal where
  /-- Raised by the arm of a command that has not got its meaning yet. Safe. -/
  | notModelled (mnemonic : String)
deriving DecidableEq, Repr

/-! ## World model (03) -/

/-- One change of the primitive version: op 1 add or replace, 2 remove, 3 remove all (03 R86). -/
structure PrimRec where
  op : Nat
  prim : Prim
deriving DecidableEq, Repr

/-- A hazard (03 R113 to R117); `ord` numbers adds in acceptance and record order; `lateFrame` is the
frame at whose slot boundary a late add took effect (04 R152). -/
structure Haz where
  id : Nat
  cx : Int
  cy : Int
  cz : Int
  r : Nat
  expire : Nat
  ord : Nat
  lateFrame : Option Nat := none
deriving DecidableEq, Repr

/-- A hazard change that has not taken effect (03 R115 to R117), with its acceptance DT; a late add has the DT at which the
hub commits it and whether it has. -/
structure HazChange where
  wid : Nat
  op : Nat
  haz : Haz
  accept : Nat
  late : Bool := false
  commit : Nat := 0
  committed : Bool := false
deriving DecidableEq, Repr

/-- An integration group (03 R96): its work item, kind code (0 points or pixels, 1 eviction, 2 forecast), first element,
elements and scheduled completion. -/
structure Group where
  wid : Nat
  kind : Nat
  first : Nat
  count : Nat
  c : Nat
  last : Bool
deriving DecidableEq, Repr

/-- A seal in progress: the flacon it makes, and whether it is a full seal (03 R103, R105). -/
structure Sealing where
  full : Bool
  next : Flacon
deriving DecidableEq, Repr

/-- Map state (03, 17 R518). `fcastOwed` holds frame, t_ref, step, slices and threshold of each forecast set that a frame's network has still to
write, oldest first (06 R222, R223), `fcastLate` the last tick at which one was late; `fsetLater` is a set that belongs to the epoch after the
seal that is still wanted (02 R46). -/
structure World where
  fl : Flacon := {}
  openEpoch : Nat := 1
  index : List (Nat × IdxEntry) := []
  pool : List (Nat × List Vox) := []
  dirty : List Key := []
  prims : List Prim := []
  primsChanged : Nat := 0
  fsetOpen : Option FSet := none
  fsetLater : Option FSet := none
  fcastOwed : List (Nat × Nat × Nat × Nat × Nat) := []
  fcastLate : Nat := 0
  pbx : Int := 0
  pby : Int := 0
  sealedOnce : Bool := false
  sealWanted : Option Nat := none
  sealing : Option Sealing := none
  ingestSeals : List Nat := []
  groups : List Group := []
  lastC : Nat := 0
  overrunDone : List (Nat × Nat) := []
  windowZWritten : Bool := false
  windowZ : Int := -4
  zErr : Bool := false
  stepMs : Nat := 50
  slices : Nat := 16
  hard : Nat := 128
  fcastNext : Option (Nat × Nat × Nat) := none
  fcastErr : Bool := false
  poolAt : Nat := 0
  indexAt : Nat := 128
  hazards : List Haz := []
  hazChanges : List HazChange := []
deriving DecidableEq, Repr

/-! ## Body (04) -/

/-! ## Work items (09 R310, R313) -/

/-- A measurement block (05 R170). -/
structure Meas where
  startDt : Nat
  ax : Int
  ay : Int
  az : Int
  yaw : Int
  x0 : List Nat
  goal : List Nat
  params : List Nat
deriving DecidableEq, Repr

/-- A trajectory: states and inputs, knot by knot, FP32 bits (05 R164). -/
abbrev Traj := List Nat

/-- A partial list (07 R248). -/
structure PList where
  entries : List PEntry := []
  eqBeyond : Nat := 0
  nan : Nat := 0
deriving DecidableEq, Repr

/-- A merged list with its counts (07 R250, R253). -/
structure Merged where
  entries : List PEntry := []
  tie : Nat := 0
  dup : Nat := 0
  nan : Nat := 0
deriving DecidableEq, Repr

structure FrWork where
  target : Nat
  resultAddr : Nat
  nWarm : Nat
  nProp : Nat
  k : Nat
  optClass : Nat
  sealReq : Bool
  meas : Meas
  people : List Bytes
deriving DecidableEq, Repr

structure CkWork where
  target : Nat
  candAddr : Nat
  candCount : Nat
  stride : Nat
  resultAddr : Nat
  weight : Nat
  margin : Nat
  k : Nat
  learned : Bool
  todo : List Nat
  carried : Bool := false
  verdicts : List (Nat × List VRec) := []
  running : Merged := {}
  ranMerge : Bool := false
  frames : List Nat := []
  firstEpoch : Nat := 0
  lastEpoch : Nat := 0
  flags : Nat := 0
deriving DecidableEq, Repr

/-- A SOLVE problem record (05 R198). -/
structure Prob where
  meas : Meas
  warm : Option (Nat × Nat × Traj)
deriving DecidableEq, Repr

/-- The result of a stopped optimisation (05 R200). -/
structure OptRes where
  stop : Nat
  valid : Bool
  outer : Nat
  retries : Nat
  inner : Nat
  residual : Nat
  merit : Nat
  traj : Traj
  digests : List Nat
deriving DecidableEq, Repr

structure SvWork where
  target : Nat
  cls : Nat
  probs : List Prob
  resultAddr : Nat
  budget : Nat
  todo : List Nat
  results : List (Nat × OptRes) := []
  running : List Nat := []
  firstFrame : Option Nat := none
  lastFrame : Nat := 0
  deferred : Bool := false
  warmIgnored : Nat := 0
  timing : Nat := 0
  degraded : Bool := false
deriving DecidableEq, Repr

structure SlWork where
  target : Nat
  keyType : Nat
  order : Nat
  explicitIdx : Bool
  k : Nat
  rowCount : Nat
  rowLen : Nat
  rowStride : Nat
  keyAddr : Nat
  idxAddr : Nat
  resultAddr : Nat
  todo : List Nat
  running : List (Nat × Nat) := []
  results : List (Nat × PList) := []
  firstFrame : Option Nat := none
  lastFrame : Nat := 0
  deferred : Bool := false
  degraded : Bool := false
deriving DecidableEq, Repr

/-- The result of a TENSOR_RUN run (06 R237). -/
structure RunRes where
  status : Nat
  mismatch : Nat
  sat : Nat
  range : Nat
  nan : Nat
  startDt : Nat
  outputs : List Bytes
  digests : List Nat
deriving DecidableEq, Repr

structure TrWork where
  target : Nat
  net : Nat
  writeDigests : Bool
  runCount : Nat
  inAddr : Nat
  outAddr : Nat
  todo : List Nat
  running : List (Nat × Nat) := []
  results : List (Nat × RunRes) := []
  firstFrame : Option Nat := none
  lastFrame : Nat := 0
  deferred : Bool := false
  degraded : Bool := false
deriving DecidableEq, Repr

structure IgWork where
  bufAddr : Nat
  hdr : Bytes
  box : List Int := []
  integrated : Nat := 0
  invalid : Nat := 0
  dropped : Nat := 0
  refused : Nat := 0
  firstEpoch : Option Nat := none
  lastEpoch : Nat := 0
  touched : List Key := []
deriving DecidableEq, Repr

/-- The settings of NET_CONTROL CONFIGURE (08 R291). -/
structure NetCfg where
  advisory : Bool := false
  strict : Bool := false
  stopMargin : Nat := 320
  validityUs : Nat := 20000
  stopTimeUs : Nat := 400000
  sampleStepUs : Nat := 2000
  leadUs : Nat := 1000
  spiDiv : Nat := 2
  chanA : Bool := true
  chanB : Bool := true
  hostHbUs : Nat := 0
  drvHbUs : Nat := 0
deriving DecidableEq, Repr

/-- Where an ACCORD_LOAD stands (11 R370 to R372). -/
inductive AlPhase where
  | held | copying | passed (dt : Nat) | loading (frame : Nat)
deriving DecidableEq, Repr

/-- What an accepted descriptor does; a DIAG is kept while another unit answers it. An ACCORD_LOAD's `src` is where
it copies from: true and the offset in the staging region, or false and the host address. -/
inductive WorkItem where
  | ingest (w : IgWork)
  | prims (recs : List PrimRec) (held : Bool)
  | hazard (changes : Nat) (late : Bool)
  | body (op : Nat) (b : Body)
  | accord (img : Accord) (expect : Nat) (phase : AlPhase) (src : Bool × Nat)
  | frameRun (w : FrWork)
  | solve (w : SvWork)
  | check (w : CkWork)
  | select (w : SlWork)
  | tensorRun (w : TrWork)
  | configure (c : NetCfg)
  | unitDisable (f : Nat)
  | unitRestoreFn (f : Nat)
  | unitFence (q : Nat)
  | unitGeo (q core engine : Nat)
  | unitRestore (q : Nat)
  | diag (write : Bool) (buf unit : Nat)
deriving DecidableEq, Repr

/-- An accepted descriptor that has not completed (09 R313): the model's number for it, its context, header fields, class,
acceptance DT and bound frame. -/
structure Work where
  wid : Nat
  ctx : Nat
  num : Nat
  tag : Nat
  seq : Nat
  kind : Nat
  irq : Bool
  prio : Nat
  client : Nat
  accept : Nat
  bound : Nat
  item : WorkItem
deriving DecidableEq, Repr

/-! ## The running frame (02) -/

/-- An optimisation (05 R172, R182): a frame's seed or a SOLVE problem; `pos` is its place in the order of its core (05 R168). -/
structure Opt where
  wid : Nat
  idx : Nat
  core : Nat
  start : Traj
  pos : Nat := 0
  fromProposal : Bool := false
  started : Bool := false
  startDt : Nat := 0
  deadline : Option Nat
  cur : Traj
  merit : Nat := 0
  valid : Bool := false
  outer : Nat := 0
  inner : Nat := 0
  retries : Nat := 0
  r1 : Nat := 0
  resid : Nat := 0
  digests : List Nat := []
  stop : Option Nat := none
  stopFrame : Nat := 0
deriving DecidableEq, Repr

/-- One admitted batch: its slot, work item and batch number. -/
structure Adm where
  slot : Nat
  wid : Nat
  batch : Nat
deriving DecidableEq, Repr

/-- A batch in the pipeline after phase 1 or with its verdicts (04 R153). -/
structure BatchRes where
  slot : Nat
  wid : Nat
  batch : Nat
  cands : List (Option Cand)
  verdicts : Option (List VRec) := none
  lateSeen : Bool := false
deriving DecidableEq, Repr

/-- What kind of frame a tick started. -/
inductive FrameKind where
  | run | idle | changeover | service | fullSeal
deriving DecidableEq, Repr

/-- A certified Net (08 R273), with the base kind and joint count of the body that its setpoints are for (R288). -/
structure NetRec where
  netId : Nat
  p0 : Nat
  e : Nat
  certFrame : Nat
  stopTimeUs : Nat
  stopMargin : Nat
  stepUs : Nat
  nSamples : Nat
  clearance : Int
  epoch : Nat
  ax : Int
  ay : Int
  az : Int
  yaw : Int
  dk : Nat
  nx : Nat
  nu : Nat
  slot : Nat
  pert : Nat
  traj : Traj
  knots : List (Option Knot)
  boxes : List (List Int)
  hazTested : List Haz
  kind : Nat := 0
  nj : Nat := 0
deriving DecidableEq, Repr

/-- The frame in progress (02 R45), with the body and the NET_CONTROL settings in force at its tick (04 R126, 08 R292); `haz` is its own hazard list
once a skipped tick has changed the unit's (02 R62, 03 R115). -/
structure Frame where
  number : Nat
  tickDt : Nat
  kind : FrameKind
  reduced : Bool := false
  fr : Option Nat := none
  periodUs : Nat
  fMhz : Nat := 1400
  tb : Nat := 2000
  q : Nat := 512
  slots : Nat := 0
  w0 : Nat := 0
  clusters : List Nat := []
  geo : List (Nat × List Nat) := []
  adm : List Adm := []
  goldenSlot : Option Nat := none
  goldenEn : Bool := true
  boundary : Nat := 0
  batches : List BatchRes := []
  lists : List (Nat × Nat × PList) := []
  retired : Bool := false
  merged : List (Nat × Merged) := []
  mergeDone : Bool := false
  deferredBatches : Nat := 0
  timing : Nat := 0
  hazLate : Nat := 0
  warmIgnored : Nat := 0
  netFired : Bool := false
  goldenResult : Nat := 2
  faultClusters : List Nat := []
  faultFrame : Bool := false
  degraded : Bool := false
  netResult : Option Nat := none
  certOverrun : Bool := false
  certFail : Bool := false
  cert : Option NetRec := none
  certDone : Bool := false
  recertDone : Bool := false
  published : Bool := false
  tSealEnd : Int := 0
  tWindowOpen : Int := 0
  tLastRetire : Int := 0
  clear : Nat := 0
  hit : Nat := 0
  unsure : Nat := 0
  checked : Nat := 0
  verdictDigests : List (Nat × Nat) := []
  proposalState : Nat := 0
  proposals : List Traj := []
  netDigests : List (Nat × Nat × Nat) := []
  mapDigest : Nat := 0
  body : Option Body := none
  cfg : NetCfg := {}
  haz : Option (List Haz) := none
deriving DecidableEq, Repr

/-- A warm-store entry (05 R187). -/
structure Warm where
  fingerprint : Nat
  startDt : Nat
  dk : Nat
  traj : Traj
deriving DecidableEq, Repr

/-- A network run in progress (06 R216, R229, R230): work item (0 for the frame's own), run (the frame for those), network, frame of its start,
the window origin of the flacon that it reads, its inputs (`none`: not there yet), digests of copies A and B so far, layers final, mismatch layer;
once every layer is final its outputs, saturations and range counts. -/
structure NetRun where
  wid : Nat
  run : Nat
  net : Nat
  frame : Nat
  dual : Bool
  clusters : List Nat
  cores : List Nat
  ox : Int := 0
  oy : Int := 0
  ins : List (Option (List Nat)) := []
  outs : List (List Nat) := []
  sat : Nat := 0
  range : Nat := 0
  digA : List (Nat × Nat) := []
  digB : List (Nat × Nat) := []
  final : Nat := 0
  mismatch : Option Nat := none
  tag : Nat := 0
  client : Nat := 0
deriving DecidableEq, Repr

/-! ## Host interface (09, 17 R513) -/

/-- A queue context (09 R300), with the device's own count of reserved completion slots (R310) and unsignalled
completions (R322). -/
structure Ctx where
  sqBase : Nat := 0
  cqBase : Nat := 0
  sqTailAddr : Nat := 0
  cqHeadAddr : Nat := 0
  sqLog2 : Nat := 0
  cqLog2 : Nat := 0
  prio : Nat := 0
  unit : Nat := 0
  client : Nat := 0
  vector : Nat := 0
  flags : Nat := 0
  irqCount : Nat := 0
  rsv : Nat := 0
  irqUs : Nat := 0
  seqBase : Nat := 0
  sqHead : Nat := 0
  cqTail : Nat := 0
  state : Nat := 0
  phase : Nat := 0
  reserved : Nat := 0
  unsignalled : Nat := 0
  firstUnsig : Nat := 0
  inFlight : List Nat := []
deriving DecidableEq, Repr

structure HostQ where
  pollEn : Bool := false
  noAtomic : Bool := false
  badTail : Nat := 0
  badHead : Nat := 0
  bar2Drop : Nat := 0
  ctxIndex : Nat := 0
  overrun : Bool := false
  refused : Bool := false
  busyUntil : Nat := 0
  data : List Nat := List.replicate 16 0
  dbLeaf : Nat := 0
  dbMid : Nat := 0
  dbTop : Nat := 0
  bar2Base : Nat := 0
  stageBase : Nat := 0
  stageSize : Nat := 0
  ctxTable : Nat := 0
  ctxs : List (Nat × Ctx) := []
  waiting : List Nat := []
  taken : List Taken := []
deriving DecidableEq, Repr

/-- The PCIe side: PERST_N, configuration space with AER's uncorrectable-error status (09 R295), MSI-X table words and pending bits, messages sent,
last read data. -/
structure Pcie where
  perst : Bool := false
  cfg : CfgBits := {}
  aer : Nat := 0
  msixTable : List (Nat × Nat) := []
  msixPending : List Nat := []
  msixOut : List Nat := []
  readData : List Nat := []
  readOk : Bool := true
  poisoned : Bool := false
deriving DecidableEq, Repr

/-! ## Net (08) -/

/-- A firing Net: the Net, t_f, T in ns, and the DT of its first setpoint frame. -/
structure Firing where
  net : NetRec
  tf : Nat
  stopNs : Nat
  first : Option Nat := none
deriving DecidableEq, Repr

/-- One channel of the Net port (08 R287 to R289): `hbRaw` is the last edge on DRV_HB, recognised or not (18 R542), `pad` the level of a SAFE_STOP pad that
does not follow its command (08 R283). -/
structure Chan where
  seq : Nat := 0
  sent : Bool := false
  lastSent : Nat := 0
  drvStatus : Nat := 0
  drvState : Nat := 0
  req : Bool := false
  hbLast : Nat := 0
  hbLapsed : Bool := false
  hbRaw : Option Nat := none
  pad : Option Bool := none
  reset : Bool := false
  out : List Bytes := []
deriving DecidableEq, Repr

/-- The Net block. `vHeld` is the validity window in ns that a FRAME_PERIOD has raised (08 R277). -/
structure Net where
  cfg : Option NetCfg := none
  state : Nat := 0
  newest : Option NetRec := none
  previous : Option NetRec := none
  firing : Option Firing := none
  vRaised : Bool := false
  vHeld : Option Nat := none
  lastSource : Nat := 0
  refire : Nat := 0
  fireDt : Nat := 0
  padA : Bool := true
  padB : Bool := true
  streamerStopped : Bool := false
  hbStart : Nat := 0
  hbArmed : Bool := false
  recertTodo : List Nat := []
  chA : Chan := {}
  chB : Chan := {}
deriving DecidableEq, Repr

/-! ## Faults (14) -/

/-- One source of the collector (14 R418). `lastDt` dates its last event; `was` is its `sticky` before the events of that hub cycle (R441). -/
structure Src where
  sticky : Bool := false
  severe : Bool := false
  pin : Bool := false
  count : Nat := 0
  winStart : Nat := 0
  total : Nat := 0
  en : Bool := true
  latch : Bool := true
  n : Nat := 1
  w : Nat := 0
  minor : Nat := 0
  sev : Nat := 0
  lastDt : Option Nat := none
  was : Bool := false
deriving DecidableEq, Repr

/-- A fault record (14 R426). -/
structure FRec where
  dt : Nat
  addr : Nat
  syn : Nat
  src : Nat
  reactions : Nat
  entry : Nat
  frame : Nat
deriving DecidableEq, Repr

/-- Reaction bits (14 R427). -/
def rI : Nat := 1
def rM : Nat := 2
def rB : Nat := 4
def rC : Nat := 8
def rP : Nat := 16
def rF : Nat := 32
def rN : Nat := 64

/-- Default N, w, MINOR and SEVERE of each named source (14 R420); `none` for a reserved index. -/
def srcDefault (i : Nat) : Option (Nat × Nat × Nat × Nat) :=
  let one (sev : Nat) : Option (Nat × Nat × Nat × Nat) := some (1, 0, 0, sev)
  if i ≤ 7 then one (rM + rP + rI)
  else if i = 8 then one (rN + rP + rI)
  else if i = 9 then one (rN + rP + rM + rI)
  else if i = 10 then some (4, 10, rI, rN + rP + rI)
  else if i = 11 then one (rM + rP + rI)
  else if i = 12 then some (16, 20, 0, rI)
  else if i < 16 then none
  else if i = 16 ∨ i = 17 ∨ i = 18 ∨ i = 20 then one (rN + rP + rI)
  else if i = 19 ∨ i = 21 then some (16, 20, 0, rI)
  else if i ≤ 24 then one (rP + rI)
  else if i < 32 then none
  else if i = 32 then some (10, 14, rI, rP + rI)
  else if i = 33 then one (rP + rI)
  else if i = 34 then one (rC + rP)
  else if i = 35 then one (rP + rI)
  else if i = 36 ∨ i = 37 then one (rN + rP + rI)
  else if i = 38 then one (rP + rI)
  else if i = 39 ∨ i = 40 then one (rN + rP + rI)
  else if i = 41 ∨ i = 42 then some (3, 12, rI, rN + rP + rI)
  else if i < 48 then none
  else if i ≤ 57 then some (8, 20, rI, rN + rP + rI)
  else if i ≤ 66 then some (255, 24, rI, rP + rI)
  else if i = 67 then none
  else if i = 68 then one (rN + rP + rI)
  else if i = 69 then one (rP + rI)
  else if i ≤ 74 then one (rN + rP + rI)
  else if i < 80 then none
  else if i = 80 then some (2, 14, rI, rN + rP + rI)
  else if i = 81 then one (rN + rP + rI)
  else if i = 82 then some (2, 14, rI, rN + rP + rI)
  else if i = 83 then one (rP + rI)
  else if i = 84 then one (rF + rP + rI)
  else if i < 96 then none
  else if i = 96 then some (3, 12, rI, rN + rP + rI)
  else if i = 97 ∨ i = 98 then some (3, 12, rI, rP + rI)
  else if i = 99 then some (16, 20, rI, rP + rI)
  else if i = 100 then one (rP + rI)
  else if i = 101 then one (rN + rP + rI)
  else if i < 112 then none
  else if i < 128 then
    (match (i - 112) % 4 with
    | 0 => some (64, 22, 0, rI)
    | 1 => one (rP + rI)
    | 2 => one (rN + rP + rI)
    | _ => one (rP + rI))
  else if i < 144 then
    (if i % 2 = 0 then some (64, 20, 0, rI) else if i < 136 then one (rN + rP + rI) else one (rP + rI))
  else if i = 144 ∨ i = 145 ∨ i = 147 ∨ i = 148 then some (64, 20, 0, rI)
  else if i = 146 ∨ i = 149 then one (rP + rI)
  else if i = 150 ∨ i = 151 then one rI
  else if i = 152 ∨ i = 153 then one (rP + rI)
  else if i = 154 then one rI
  else if i = 155 ∨ i = 156 then one (rP + rI)
  else if i < 160 then none
  else if i < 416 then (if i % 4 = 3 then some (16, 20, 0, rF + rI) else one (rF + rI))
  else none

/-- Kind L of the source table (14 R420): level sources. Every other named source is an event source. -/
def srcLevel (i : Nat) : Bool :=
  (decide (48 ≤ i) && decide (i ≤ 66)) || (decide (68 ≤ i) && decide (i ≤ 74)) || (decide (112 ≤ i) && decide (i < 128) && i % 4 == 2) ||
  i == 146 || i == 149 || i == 154

/-- Sources whose LATCH resets to 0 (14 R418): the corrected-error sources. -/
def srcCorrected (i : Nat) : Bool :=
  i == 12 || i == 19 || i == 21 || i == 144 || i == 145 || i == 147 || i == 148 ||
  (decide (112 ≤ i) && decide (i < 128) && i % 4 == 0) || (decide (128 ≤ i) && decide (i < 144) && i % 2 == 0) ||
  (decide (160 ≤ i) && decide (i < 416) && i % 4 == 3)

/-- The configuration defaults that every reset loads (14 R418, R420). -/
def Src.reset (i : Nat) : Src :=
  match srcDefault i with
  | some (n, w, mi, se) => { latch := !srcCorrected i, n := n, w := w, minor := mi, sev := se }
  | none => { en := false, latch := false, n := 0, w := 0 }

structure FaultC where
  srcs : List Src := (List.range 416).map Src.reset
  sel : Nat := 0
  nmiPairs : Nat := 3
  minorVec : Nat := 2046
  severeVec : Nat := 2047
  evtVec : Nat := 2045
  evtEn : Bool := false
  cfgErr : Bool := false
  latch : Option FRec := none
  overflow : Bool := false
  log : List FRec := []
  logCount : Nat := 0
  levels : List Nat := []
  stackLost : Option Nat := none
  nmiCause : List (Nat × Nat) := []
  blockReset : List Blk := []
  prev : Option (Nat × Nat × Src) := none
deriving DecidableEq, Repr

/-! ## Units (14 R432, 17 R529) -/

/-- A change of the disabled-unit map or of substitution that takes effect at a tick (13 R403, 01 R18, 17 R529): an unused spare that failed, and the
layout that a recovery found (14 R440), among them. -/
inductive MapChange where
  | fence (q : Nat)
  | geo (q core engine : Nat)
  | restore (q : Nat)
  | spare (q pos phys : Nat)
  | backFromReset (q : Nat)
  | spareFail (q : Nat)
  | relay (q : Nat) (passed : List Nat)
deriving DecidableEq, Repr

/-- The spare of a cluster (01 R15 to R18). -/
inductive Spare where
  | unused | loading (pos phys : Nat) | loaded (pos phys : Nat) | used (pos : Nat) | failed
deriving DecidableEq, Repr

/-- An entry of the substitution log (13 R404). -/
structure SubRec where
  q : Nat
  phys : Nat
  pos : Nat
  frame : Nat
deriving DecidableEq, Repr

/-- Units out of service or on the way. `outPos` are logical cores whose spare loads; `calm` the removals (frame, cluster, core or the whole cluster)
in frames that run nothing of the plan, after which the next frame is no fault frame (14 R433). -/
structure Units where
  disabledFn : List Nat := []
  draining : List (Nat × Nat) := []
  heldRestores : List Nat := []
  fenced : List Nat := []
  geoDisabled : List (Nat × Nat × Nat) := []
  spares : List (Nat × Spare) := []
  layout : List (Nat × List Nat) := []
  subLog : List SubRec := []
  changes : List MapChange := []
  isolated : List Nat := []
  outPos : List (Nat × Nat) := []
  restoring : List (Nat × Nat) := []
  calm : List (Nat × Nat × Option Nat) := []
deriving DecidableEq, Repr

/-! ## Safety (15 R462, R463, 17 R526) -/

/-- SAFETY_CTRL (15 R462). -/
structure SafetyCtrl where
  goldenEn : Bool := true
  dualNetworks : Bool := true
  injectEn : Bool := true
  scrubEn : Bool := true
  certDual : Bool := true
deriving DecidableEq, Repr

/-- Safety state. `prog` counts the slices that a unit has passed and `failed` the units that failed, in the rotations in progress (15 R456);
`spareSliced` the clusters whose spare had its slice in this frame; `injecting` dates the tick whose injection runs (R453). -/
structure Safety where
  ctrl : SafetyCtrl := {}
  next : SafetyCtrl := {}
  suspect : Bool := false
  startupDone : Bool := false
  refused : Bool := false
  pairsOut : List Nat := []
  testRotation : Bool := false
  testWanted : Bool := false
  prog : List (CUnit × Nat) := []
  failed : List CUnit := []
  spareSliced : List Nat := []
  startDone : List Nat := []
  testDone : List Nat := []
  goldenResult : Nat := 2
  goldenSet : Nat := 0
  firstDiff : Nat := 0
  injecting : Option Nat := none
  injFailed : List InjChecker := []
  suspectRecovered : Nat := 0
deriving DecidableEq, Repr

/-! ## Power, clocks, temperature, boot (16, 17) -/

/-- Thresholds and state of one rail (15 R459, 17 R510, R511); `level` is a VCORE threshold's set point in steps. -/
structure Rail where
  warnPct : Nat := 92
  resetPct : Nat := 85
  err : Bool := false
  held : Option (Nat × Nat) := none
  low : Bool := false
  since : Nat := 0
  escalated : Bool := false
  under : Bool := false
deriving DecidableEq, Repr

structure Pwr where
  limit : Nat := 180
  limitNext : Nat := 180
  belowPlan : Bool := false
  overLimit : Bool := false
  limitErr : Bool := false
  refused : Bool := false
  service : Nat := 0
  fFrame : Nat := 0
  draw : Nat := 0
  peak : Nat := 0
  vset : List Nat := [40, 40, 40, 40]
  vsetAt : List Nat := [0, 0, 0, 0]
  vsetWant : List (Option Nat) := [none, none, none, none]
  thr : List Nat := [40, 40, 40, 40]
  thrNext : List (Option (Nat × Nat)) := [none, none, none, none]
  raised : List Bool := [false, false, false, false]
  rails : List Rail := List.replicate 10 {}
  clock : Nat := 0
  currents : List Nat := []
  pwrOk : Bool := true
  heldReset : Bool := false
  supplyHeld : Bool := false
  dormantWanted : Bool := false
deriving DecidableEq, Repr

structure Clk where
  hubLock : Bool := false
  ref25 : Bool := false
  refclk : Bool := false
  dieLock : Nat := 0
  die : List Nat := [0, 0, 0, 0]
  refclkMon : Bool := true
deriving DecidableEq, Repr

structure TempB where
  temps : List Int := List.replicate 9 (-32768)
  warn : List Bool := List.replicate 9 false
  lim : List Bool := List.replicate 9 false
  trip : List Bool := List.replicate 9 false
  fcap : List Nat := [56, 56, 56, 56]
  tripped : Bool := false
deriving DecidableEq, Repr

structure Boot where
  resetCause : Nat := 0
  authFail : Bool := false
  strapErr : Bool := false
  slot : Nat := 3
  stage2 : Bool := false
  bootSrc : Nat := 0
  sampled : Bool := false
  imgErr : Bool := false
  imgRollback : Nat := 0
  otpRollback : Nat := 0
  otpKeyHash : Bytes := List.replicate 48 0
  imgAddr : Nat := 0
  imgLen : Nat := 0
  hostWaiting : Bool := false
  hostGo : Bool := false
  fwVersion : Nat := 0
  retainedFw : Nat := 0
  stacksTrained : Bool := false
  stacksFull : Bool := false
  releaseDt : Nat := 0
deriving DecidableEq, Repr

/-! ## Chain (10, 17 R515) -/

structure Port where
  state : Nat := 0
  fails : Nat := 0
  rxNext : Nat := 0
  txNext : Nat := 0
  replays : Nat := 0
  replaySeq : Nat := 0
  txBuf : List (Nat × FlitMsg) := []
  resent : List (Nat × FlitMsg) := []
  rx : List (Bytes × FlitMsg) := []
  dropping : Bool := false
deriving DecidableEq, Repr

/-- A unit's report (10 R335). -/
structure UnitReport where
  addr : Nat
  last : Bool
  overflow : Bool
  grade : Nat
  fw : Nat
deriving DecidableEq, Repr

/-- The chain block. `pulse` dates the last TICK_IN pulse that no tick has used, and `pulses` and `delta` are the measured offsets of SYNCING and
16 δ (10 R340); `flitsOut` is what left: port, header, message. -/
structure Chain where
  head : Bool := true
  addressed : Bool := true
  unit : Nat := 0
  state : Nat := 0
  refused : Bool := false
  overflow : Bool := false
  unitCount : Nat := 1
  gen : Nat := 0
  remoteFault : List Nat := []
  up : Port := {}
  dn : Port := {}
  reports : List UnitReport := []
  tokensOut : List Nat := []
  reportsUp : List UnitReport := []
  enumPending : Bool := false
  enumStart : Nat := 0
  syncing : Bool := false
  syncTicks : Nat := 0
  raccOffset : Nat := 0
  raccUnit : Nat := 0
  raccData : Nat := 0
  raccBusy : Bool := false
  raccErr : Bool := false
  raccStart : Nat := 0
  announce : Option (Nat × Nat × Nat) := none
  pulse : Option Nat := none
  pulses : List Int := []
  delta : Int := 0
  aligned : Bool := false
  tickOut : List Nat := []
  fwd : List Taken := []
  flitsOut : List (Nat × Nat × FlitMsg) := []
deriving DecidableEq, Repr

/-! ## Frame block (17 R517) -/

/-- The frame block; `wakeTick` is the DT of the first tick after a wake, still to come (16 R501). -/
structure FrameB where
  period : Nat := 1000
  periodNext : Nat := 1000
  sealAuto : Bool := false
  sealAutoNext : Bool := false
  periodErr : Bool := false
  planShort : Bool := false
  ticking : Bool := false
  overruns : Nat := 0
  number : Nat := 0
  tickDt : Nat := 0
  cur : Option Frame := none
  wakeTick : Option Nat := none
deriving DecidableEq, Repr

/-! ## Determinism (13, 17 R527) -/

structure Det where
  logEn : Bool := false
  level : Nat := 1
  levelNext : Nat := 1
  dropped : Nat := 0
  droppedSince : Nat := 0
  logSize : Nat := 8
  logBase : Nat := 0
  headAddr : Nat := 0
  written : Nat := 0
  tcTotal : Nat := 0
  tcHazard : Nat := 0
  tcDeadline : Nat := 0
  tcDefer : Nat := 0
  tcSupply : Nat := 0
deriving DecidableEq, Repr

/-! ## Ringmaster (12) -/

/-- A thread entry (12 R377); `releasedAt` dates the last release of a SAFETY thread (R393). -/
structure Thread where
  state : Nat := 0
  prio : Nat := 0
  pair : Nat := 0
  fallback : Nat := 0
  safety : Bool := false
  timed : Bool := false
  wakeReason : Nat := 0
  eventWord : Nat := 0xFFFF
  threshold : Nat := 0
  wakeUs : Nat := 0
  latencyUs : Nat := 0
  releaseSeq : Nat := 0
  releasedAt : Option Nat := none
deriving DecidableEq, Repr

/-- A kernel-port command (12 R383, R384). -/
inductive KCmd where
  | create | resume | suspend | delete | switch | setPrio | setPair | wake | read
deriving DecidableEq, Repr

/-- An event that reaches Ringmaster (12 R392): a tick of that many microseconds, a change of an event word to a value, the loss of a pair, a command of a
pair with its operands. -/
inductive REvent where
  | tick (us : Nat)
  | word (w v : Nat)
  | lost (p : Nat)
  | cmd (p : Nat) (c : KCmd) (a0 a1 : Nat)
deriving DecidableEq, Repr

/-- The events of one hub cycle in their order, and what they act on as it was before the first of them (12 R392). -/
structure RingCycle where
  cycle : Nat
  events : List REvent
  threads : List (Nat × Thread)
  ready : List Nat
  seqCtr : Nat
  late : Nat
  args : List (Nat × Nat × Nat)
  results : List (Nat × Nat × Nat)
deriving DecidableEq, Repr

/-- Ringmaster and the control cores; `slice` is the Carousel slice that waits for admission (unit, length in us) and `sliceRunning` those admitted
(unit, slice number) (R394, 15 R455); `mem` is control-core memory, 512 KiB for each pair (01 R24), where what a pair's operation returns lands; `cyc` are the
events of the last hub cycle that had any (R392). -/
structure Ringm where
  threads : List (Nat × Thread) := []
  ready : List Nat := []
  words : List (Nat × Nat) := []
  seqCtr : Nat := 0
  late : Nat := 0
  deferrals : Nat := 0
  slice : Option (CUnit × Nat) := none
  starved : Bool := false
  sliceRunning : List (CUnit × Nat) := []
  args : List (Nat × Nat × Nat) := []
  results : List (Nat × Nat × Nat) := []
  running : Bool := false
  mem : List Host.Cell := []
  cyc : Option RingCycle := none
deriving DecidableEq, Repr

/-! ## Cores (11) -/

/-- A core's sequencer (11 R355, R362); `out` counts its operations for other units that are outstanding (R354, R356). -/
structure CoreSt where
  pos : Nat := 0
  stopped : Bool := false
  waiting : Bool := false
  loops : List (Nat × Nat) := []
  pivotFailed : Bool := false
  retries : Nat := 0
  staged : List (Nat × Nat × Key) := []
  sat : Nat := 0
  range : Nat := 0
  out : Nat := 0
deriving DecidableEq, Repr

/-- One direction of a ring link (01 R31): the next sequence number, the flits not acknowledged (number, DT of sending, address that the operation
names), the next number that the receiving die fabric delivers, and the flits that it holds ahead of a missing one. -/
structure RingDir where
  txNext : Nat := 0
  unacked : List (Nat × Nat × Nat) := []
  rxNext : Nat := 0
  held : List (Nat × Nat) := []
deriving DecidableEq, Repr

/-- Core memories, map caches and stacks by address (11 R346), poisoned words, sequencers, ring links by 2 × link + direction, the ring links whose
traffic takes the hub route, what that route delivered of the flits sent again (01 R31), the sources of the PUTs and atomics to other units that are
not answered (11 R353), what schedules wrote into residency directories since the last seal (11 R358), the places of the two Accord regions in the stack
pool with the number of the one in force (11 R370), and the schedules loaded into the cores (R363, R372). -/
structure Cores where
  mem : List Host.Cell := []
  poison : List (Nat × Nat) := []
  st : List (Nat × CoreSt) := []
  ring : List (Nat × RingDir) := []
  hubRoute : List Nat := []
  delivered : List (Nat × List Nat) := []
  outW : List OpSrc := []
  dirMem : List (Nat × Byte) := []
  regionAt : Nat × Nat := (0, 0)
  region : Nat := 0
  sched : List (Nat × List SStep) := []
deriving DecidableEq, Repr

/-! ## The whole unit -/

/-- The state of one unit. `fresh` counts the model's free values, `lo` holds writes of X_LO that wait for X_HI and `hi` captured X_HI
halves, by offset (17 R504). -/
structure State where
  pending : List Instr := []
  dt : Nat := 0
  fresh : Nat := 0
  nextWid : Nat := 1
  grade : Nat := 0
  hostMem : List Host.Cell := []
  pcie : Pcie := {}
  hostq : HostQ := {}
  work : List Work := []
  frame : FrameB := {}
  world : World := {}
  body : Option Body := none
  accord : Option Accord := none
  opts : List Opt := []
  warm : List (Nat × Warm) := []
  netRuns : List NetRun := []
  recurrentZero : Bool := true
  recurrent : List (Nat × List Nat) := []
  net : Net := {}
  fault : FaultC := {}
  units : Units := {}
  safety : Safety := {}
  pwr : Pwr := {}
  clk : Clk := {}
  temp : TempB := {}
  boot : Boot := {}
  chain : Chain := {}
  det : Det := {}
  ringm : Ringm := {}
  cores : Cores := {}
  lo : List (Nat × Nat) := []
  hi : List (Nat × Nat) := []
deriving DecidableEq, Repr

/-- The unit right after power-on reset: every field at its reset value, nothing pending, no memory listed. -/
def State.reset : State := {}

end Sys2Proof.Machine
end

