-- ==== Sys2Proof/WellFormed.lean ====
section
/-! DEFINITION. Well-formed commands: operands that the rule of their row can name. The meanings are total and do not ask for it; a
sender of well-formed commands names only units, registers and words that exist. -/

namespace Sys2Proof

/-- A 32-bit register value (00 R11). -/
def word32 (v : Nat) : Bool := decide (v < 2 ^ 32)

/-- A 64-bit word. -/
def word64 (v : Nat) : Bool := decide (v < 2 ^ 64)

/-- A BAR0 offset: 16 MiB, 32-bit aligned (09 R296). -/
def regWf (off : Nat) : Bool := off % 4 == 0 && decide (off < 2 ^ 24)

/-- A taken descriptor (09 R300, R314): 64 bytes, from one of 1,048,576 contexts. -/
def takenWf (d : Taken) : Bool := decide (d.desc.length = 64) && decide (d.ctx < 2 ^ 20) && decide (d.num < 2 ^ 32)

/-- Payload and read-request sizes that the endpoint supports (09 R295). -/
def cfgWf (c : CfgBits) : Bool :=
  [128, 256, 512].contains c.maxPayload && [128, 256, 512, 1024, 2048, 4096].contains c.maxReadReq && decide (c.aerMask < 2 ^ 32)

/-- The failing ranges of a view are ranges, and its configuration is one that the endpoint supports. -/
def viewWf (v : View) : Bool := v.bad.all (fun r => decide (r.1 < r.2)) && v.cfg.all cfgWf && decide (v.aerClear < 2 ^ 32)

/-- A logical core (01 R13). -/
def coreWf (c : CoreId) : Bool := decide (c.die < 4) && decide (c.cluster < 16) && decide (c.core < 8)

/-- An issuer that exists (11 R352, 01 R9). -/
def srcWf : OpSrc → Bool
  | .core c => coreWf c
  | .pair p => decide (p < 8)
  | .diag => true
  | .selfTest => true

/-- A unit that Carousel tests (15 R455). -/
def unitWf : CUnit → Bool
  | .core q phys => decide (q < 64) && decide (phys < 9)
  | .mapCache q => decide (q < 64)
  | .fabric q => decide (q < 64)
  | .pair p => decide (p < 8)

/-- A checker of the table of 15 R453; the spec does not number the Sillage decoders. -/
def injWf : InjChecker → Bool
  | .sillage _ => true
  | .lockstep n => decide (n < 12)
  | .digest n => decide (n < 2)
  | .golden => true
  | .timer n => decide (n < 5)
  | .supply n => decide (n < 10)
  | .clock n => decide (n < 7)
  | .temp n => decide (n < 9)
  | .source i => decide (i < 416)

/-- A block that a block reset names (14 R430). -/
def blkWf : Blk → Bool
  | .cluster q => decide (q < 64)
  | .link l => decide (l < 8)
  | .port p => decide (p < 2)
  | .netChannel c => decide (c < 2)
  | .pair p => decide (p < 8)
  | .hub _ => true

/-- Bits flipped by errors (01 R25): masks for 32-byte granules, named by number. -/
def errsWf (es : List (Nat × Bytes)) : Bool := es.all (fun e => decide (e.2.length = 36))

/-- The command's operands name things that exist. -/
def Instr.wf : Instr → Bool
  | .pollInstantWalk _ v _ => viewWf v
  | .mapIngest d v => takenWf d && viewWf v
  | .mapPrimitives d v => takenWf d && viewWf v
  | .mapHazard d v _ => takenWf d && viewWf v
  | .bodyLoad d v => takenWf d && viewWf v
  | .accordLoad d v _ => takenWf d && viewWf v
  | .frameRun d v => takenWf d && viewWf v
  | .solve d v => takenWf d && viewWf v
  | .check d v => takenWf d && viewWf v
  | .select d v => takenWf d && viewWf v
  | .tensorRun d v => takenWf d && viewWf v
  | .configure d v => takenWf d && viewWf v
  | .fire d v => takenWf d && viewWf v
  | .release d v => takenWf d && viewWf v
  | .heartbeat d v => takenWf d && viewWf v
  | .unitDisable d v => takenWf d && viewWf v
  | .unitFence d v => takenWf d && viewWf v
  | .unitRestore d v => takenWf d && viewWf v
  | .diagRead d v errs => takenWf d && viewWf v && errsWf errs
  | .diagWrite d v errs => takenWf d && viewWf v && errsWf errs
  | .diagSnapshot d v => takenWf d && viewWf v
  | .irqDelayExpiry _ ctx => decide (ctx < 2 ^ 20)
  | .ctxWrite _ _ => true
  | .ctxRead _ _ => true
  | .ctxEnable _ _ => true
  | .ctxDisable _ _ => true
  | .ctxInvalidCommand _ code => (code == 0 || decide (4 < code))
  | .ctxDrainEnd _ ctx => decide (ctx < 2 ^ 20)
  | .pollEnWrite _ _ => true
  | .bar0UnsupportedAccess _ _ _ _ => true
  | .bar2Read _ off _ errs => decide (off < 2 ^ 28) && errsWf errs
  | .bar2Write _ off _ errs => decide (off < 2 ^ 28) && errsWf errs
  | .perstN _ => true
  | .hotReset _ => true
  | .functionLevelReset _ => true
  | .registerWrite _ off val => regWf off && word32 val
  | .registerReadClear _ off => regWf off
  | .pairLoRead _ off => regWf off
  | .pairHiWrite _ off val => regWf off && word32 val
  | .framePeriodWrite _ val => word32 val
  | .mapWindowZWrite _ val => word32 val
  | .mapForecastWrite _ val => word32 val
  | .pwrRailThrWrite _ rail val => decide (rail < 10) && word32 val
  | .limitWWrite _ val => word32 val
  | .dormantReq _ _ => true
  | .dormantEntry _ => true
  | .wake _ => true
  | .i3cWake _ => true
  | .wakeComplete _ _ _ => true
  | .go _ => true
  | .chipResetRequest _ => true
  | .commitRollback _ => true
  | .strapSample _ src _ => decide (src < 4)
  | .secureBoot _ _ => true
  | .pwrOkRise _ _ => true
  | .pwrOkFall _ => true
  | .supplyReset _ rail => decide (rail < 10)
  | .railWarningCrossing _ rail => decide (rail < 10)
  | .railRecovered _ rail => decide (rail < 10)
  | .supplyEscalation _ rail => decide (rail < 10)
  | .avsTimeout _ port => decide (port < 4)
  | .governorTrim _ _ => true
  | .governorCalibrate _ _ => true
  | .tempSample _ die _ => decide (die < 9)
  | .clockMonitorWindow _ clk _ => decide (clk < 7)
  | .scrubPassEnd _ stack _ => decide (stack < 4)
  | .frameTick _ v => viewWf v
  | .injectionTimeout _ c => injWf c
  | .sealStart _ => true
  | .sealComplete _ => true
  | .fullSealComplete _ => true
  | .atomiserGroup _ v => viewWf v
  | .atomiserOverrun _ => true
  | .batchSlotBoundary _ _ v => viewWf v
  | .jugglerMerge _ => true
  | .netCertification _ u => word64 u
  | .netBank _ => true
  | .certificationOverrun _ => true
  | .netRecertification _ u => word64 u
  | .immediateRecertification _ u => word64 u
  | .publish _ => true
  | .optimisationStart _ _ _ => true
  | .outerCommit _ _ _ _ => true
  | .deadlineCut _ _ _ _ _ => true
  | .solveProblemStop _ _ _ => true
  | .layerDigestCompare _ _ _ _ _ _ u => word64 u
  | .forecastSetWrite _ => true
  | .proposalReady _ => true
  | .networkOverrun _ => true
  | .tensorRunEnd _ _ _ => true
  | .selectRowEnd _ _ _ v => viewWf v
  | .accordCopyDone _ _ => true
  | .accordCoresLoaded _ => true
  | .netComesIntoForce _ => true
  | .netExpiry _ => true
  | .hostHeartbeatTimeout _ => true
  | .driveRequest _ _ _ => true
  | .driveHeartbeatEdge _ ch => decide (ch < 2)
  | .driveHeartbeatTimeout _ ch => decide (ch < 2)
  | .setpointFrame _ _ _ => true
  | .netStandstill _ => true
  | .safeStopMismatch _ ch _ => decide (ch < 2)
  | .streamerMismatch _ => true
  | .faultEvent _ src addr _ => decide (src < 416) && word64 addr
  | .levelSourceBegin _ src addr _ _ => decide (src < 416) && word64 addr
  | .blockResetDone _ b => blkWf b
  | .spareLoadDone _ q => decide (q < 64)
  | .faultStickyClear _ word val => decide (word < 13) && word32 val
  | .fflClear _ => true
  | .faultSrcCfgWrite _ val => word32 val
  | .functionDrainEnd _ _ => true
  | .restoreRotationDone _ q => decide (q < 64)
  | .carouselRun _ => true
  | .carouselSliceDone _ u _ _ => unitWf u
  | .ringmasterTick _ slice => slice.all (fun x => unitWf x.1)
  | .eventWordChange _ w => decide (w < 512)
  | .safetyThreadLatency _ e => decide (e < 4096)
  | .create _ p a0 a1 => decide (p < 8) && word64 a0 && word64 a1
  | .resume _ p a0 a1 => decide (p < 8) && word64 a0 && word64 a1
  | .suspend _ p a0 a1 => decide (p < 8) && word64 a0 && word64 a1
  | .delete _ p a0 a1 => decide (p < 8) && word64 a0 && word64 a1
  | .switch _ p a0 a1 => decide (p < 8) && word64 a0 && word64 a1
  | .setPrio _ p a0 a1 => decide (p < 8) && word64 a0 && word64 a1
  | .setPair _ p a0 a1 => decide (p < 8) && word64 a0 && word64 a1
  | .wakeThread _ p a0 a1 => decide (p < 8) && word64 a0 && word64 a1
  | .readEntry _ p a0 a1 => decide (p < 8) && word64 a0 && word64 a1
  | .lockstepMismatch _ p => decide (p < 8)
  | .put _ src addr _ _ _ lerrs errs => srcWf src && word64 addr && errsWf lerrs && errsWf errs
  | .get _ src addr _ _ errs => srcWf src && word64 addr && errsWf errs
  | .atomicAdd _ src addr v _ errs => srcWf src && word64 addr && word64 v && errsWf errs
  | .atomicMax _ src addr v _ _ errs => srcWf src && word64 addr && word64 v && errsWf errs
  | .atomicCas _ src addr c v _ errs => srcWf src && word64 addr && word64 c && word64 v && errsWf errs
  | .signal _ src addr v errs => srcWf src && word64 addr && word64 v && errsWf errs
  | .fence _ c => coreWf c
  | .waitSignal _ c w _ => coreWf c && decide (w < 512)
  | .engine _ c _ _ errs => coreWf c && errsWf errs
  | .loop _ c _ _ => coreWf c
  | .deadline _ c _ _ => coreWf c
  | .retry _ c _ _ => coreWf c
  | .ringLinkFailover _ link _ _ => decide (4 ≤ link) && decide (link < 8)
  | .enumStart _ => true
  | .enumerationStartFlit _ gen => decide (gen < 8)
  | .enumToken _ byte => decide (byte < 256)
  | .enumReport _ addr _ _ _ _ => decide (addr < 8)
  | .enumerationTimeout _ => true
  | .timeSyncExchange _ _ => true
  | .tickAnnounce _ _ _ _ => true
  | .tickInPulse _ => true
  | .linkTraining _ port state => decide (port < 2) && decide (state < 5)
  | .chainFlitReceive _ port hdr code _ errs => decide (port < 2) && decide (hdr < 256) && decide (code.length = 36) && errsWf errs
  | .replayRequest _ port _ => decide (port < 2)
  | .raccRead _ _ => true
  | .raccWrite _ _ => true
  | .raccTimeout _ => true
  | .logEnWrite _ _ => true
  | .regulatorSettled _ die => decide (die < 4)
  | .perstNRelease _ => true
  | .stackTrainingComplete _ _ => true

end Sys2Proof
end

