-- ==== Sys2Proof/Machine/Ops.lean ====
section
/-! DEFINITION. Named operations that every family shares: running a command at its DT, byte memory in canonical form,
host reads and writes, MSI-X messages, completions and their interrupts (09 R318 to R322), the digest log (13 R413 to
R416), timing-dependent choices (13 R407), the disabled-unit map (13 R403) and the unit's service (02 R48). -/

namespace Sys2Proof.Machine

/-- The outcome type of a meaning. -/
abbrev Out := Host.Outcome State Fault Refusal

/-- A change of the VCORE set point of die `k` to `want`, in force from `t` (16 R470, R471): the thresholds of a lowered one go down first; they
follow a raised one once the regulator has settled. -/
def setVset (k want t : Nat) (p : Pwr) : Pwr :=
  let lvl := min (p.thr.getD k 40) want
  { p with vset := modifyAt (fun _ => want) k p.vset, vsetAt := modifyAt (fun _ => t) k p.vsetAt,
           vsetWant := modifyAt (fun _ => none) k p.vsetWant, thr := modifyAt (fun _ => lvl) k p.thr,
           thrNext := modifyAt (fun _ => none) k p.thrNext, raised := modifyAt (fun _ => decide (lvl < want)) k p.raised }

/-- What the power manager has done for die `k` by `t`: raised thresholds in force 20 us after the regulator settled (16 R471), and a set-point
change that waited for 100 us since the last one (R470), in the order of their times. -/
def avsDie (t k : Nat) (p : Pwr) : Pwr :=
  let due := if (p.vsetWant.getD k none).isSome then min t (p.vsetAt.getD k 0 + 100000) else t
  let p := match p.thrNext.getD k none with
    | some (lvl, at_) => if at_ ≤ due then { p with thr := modifyAt (fun _ => lvl) k p.thr, thrNext := modifyAt (fun _ => none) k p.thrNext } else p
    | none => p
  match p.vsetWant.getD k none with
  | some want => if p.vsetAt.getD k 0 + 100000 ≤ t then setVset k want (p.vsetAt.getD k 0 + 100000) p else p
  | none => p

/-- The power manager's changes on every die by `t`. -/
def avsDue (t : Nat) (p : Pwr) : Pwr :=
  let q := (List.range 4).foldl (fun p k => avsDie t k p) p
  { p with vset := q.vset, vsetAt := q.vsetAt, vsetWant := q.vsetWant, thr := q.thr, thrNext := q.thrNext, raised := q.raised }

/-- The DT moves on to the DT of a command (16 R475), and with it the set points that wait for their time; it never runs backwards. -/
def atDt (t : Nat) (s : State) : State := { s with dt := max s.dt t, pwr := avsDue (max s.dt t) s.pwr }

/-- Run the effect of a command at its DT. While a power-on or supply reset is held (16 R472, 18 R538)
nothing else happens. -/
def runAt (t : Nat) (s : State) (f : State → State) : Out :=
  if s.pwr.heldReset || s.pwr.supplyHeld then .next s else .next (f (atDt t s))

/-! ## Flits sent -/

/-- Send a flit on a chain port (0 CHN_UP, 1 CHN_DN), kept in the replay buffer of 512 (10 R332). -/
def sendFlit (port : Nat) (m : FlitMsg) (s : State) : State :=
  let c := s.chain
  let upd (p : Port) : Port := { p with txNext := p.txNext + 1, txBuf := (p.txBuf ++ [(p.txNext, m)]).drop (p.txBuf.length + 1 - 512) }
  let seq := if port = 0 then c.up.txNext else c.dn.txNext
  let c := { c with flitsOut := c.flitsOut ++ [(port, flitHeader seq m, m)] }
  { s with chain := if port = 0 then { c with up := upd c.up } else { c with dn := upd c.dn } }

/-! ## Byte memories -/

/-- The byte at an address; an unlisted byte reads 0 (notes/assumptions/4.md). -/
def memRead : List Host.Cell → Nat → Byte
  | [], _ => 0
  | (a', b) :: r, a => if a' = a then b else memRead r a

/-- Write one byte, keeping the addresses rising and no entry equal to 0. -/
def memSet : List Host.Cell → Nat → Byte → List Host.Cell
  | [], a, b => if b = 0 then [] else [(a, b)]
  | (a', b') :: r, a, b =>
    if a' < a then (a', b') :: memSet r a b
    else if a' = a then (if b = 0 then r else (a, b) :: r)
    else (if b = 0 then (a', b') :: r else (a, b) :: (a', b') :: r)

/-- Read `n` bytes. -/
def memReads (m : List Host.Cell) (a n : Nat) : Bytes := (List.range n).map (fun i => memRead m (a + i))

/-- Write a byte string. -/
def memWrites (m : List Host.Cell) (a : Nat) : Bytes → List Host.Cell
  | [] => m
  | b :: bs => memWrites (memSet m a b) (a + 1) bs

/-- Every address of the list lies above `lo`, addresses rise strictly, and no entry is 0. -/
def memWfFrom : Option Nat → List Host.Cell → Bool
  | _, [] => true
  | lo, (a, b) :: r => (match lo with | some l => decide (l < a) | none => true) && b != 0 && memWfFrom (some a) r

/-- The canonical form of a byte memory. -/
def Memory.wf (m : List Host.Cell) : Bool := memWfFrom none m

/-! ## Host memory as the device reaches it -/

/-- The device read of [a, a + n) ends with a PCIe error (09 R324, R554); there is no read of no bytes. -/
def badRead (v : View) (a n : Nat) : Bool := v.bad.any (fun r => decide (0 < n) && decide (r.1 < a + n) && decide (a < r.2))

/-- A device read of host memory; `none` on a PCIe error. -/
def hostRead (v : View) (s : State) (a n : Nat) : Option Bytes :=
  if badRead v a n then none else some (memReads s.hostMem a n)

/-- A device write of a descriptor's result to host memory. A downstream unit returns the bytes to unit 0 (10 R343). -/
def hostWrite (id : DescId) (s : State) (a : Nat) (bs : Bytes) : State :=
  if s.chain.head then { s with hostMem := memWrites s.hostMem a bs }
  else sendFlit 0 (.hostWrite id a bs) s

/-- An entry of the digest log goes to host memory (13 R413); a downstream unit returns it to unit 0 (10 R343). -/
def hostLog (s : State) (a : Nat) (bs : Bytes) : State :=
  if s.chain.head then { s with hostMem := memWrites s.hostMem a bs }
  else sendFlit 0 (.logWrite a bs) s

/-! ## MSI-X -/

/-- Vector control word of MSI-X table entry `v`; masked after a reset of the interface (PRESUMED,
notes/assumptions/14.md). -/
def msixMasked (s : State) (v : Nat) : Bool := bitOf (lookupD 1 (4 * v + 3) s.pcie.msixTable) 0

/-- Send the message of a vector; a masked vector keeps it pending (09 R322, 14 R428). A downstream unit's message travels through unit
0 (10 R343). -/
def sendMsix (v : Nat) (s : State) : State :=
  if !s.chain.head then (if s.chain.addressed then sendFlit 0 (.msix v) s else s)
  else if !s.pcie.cfg.msixEn then s
  else if s.pcie.cfg.msixMask || msixMasked s v then
    (if s.pcie.msixPending.contains v then s
     else { s with pcie := { s.pcie with msixPending := s.pcie.msixPending ++ [v] } })
  else { s with pcie := { s.pcie with msixOut := s.pcie.msixOut ++ [v] } }

/-- Pending messages of vectors that are not masked are sent (09 R322). -/
def flushMsix (s : State) : State :=
  if !s.pcie.cfg.msixEn || s.pcie.cfg.msixMask then s else
  let go := s.pcie.msixPending.filter (fun v => !msixMasked s v)
  { s with pcie := { s.pcie with msixPending := s.pcie.msixPending.filter (msixMasked s), msixOut := s.pcie.msixOut ++ go } }

/-- What the host did before a command becomes visible. AER's status clears by ones (09 R295), and messages that the function mask kept are sent once
it is clear (R322). -/
def applyView (v : View) (s : State) : State :=
  let s := { s with hostMem := v.stores.foldl (fun m st => memWrites m st.1 st.2) s.hostMem,
                    pcie := { s.pcie with aer := s.pcie.aer &&& (2 ^ 32 - 1 - v.aerClear % 2 ^ 32) } }
  match v.cfg with
  | some c => if cfgWf c then flushMsix { s with pcie := { s.pcie with cfg := c } } else s
  | none => s

/-- A device event (17 R525). -/
def deviceEvent (s : State) : State := if s.fault.evtEn then sendMsix s.fault.evtVec s else s

/-- Change of `PWR_STATUS.SERVICE` (16 R480) with its device event (17 R525). -/
def setService (n : Nat) (s : State) : State :=
  if s.pwr.service = n then s else deviceEvent { s with pwr := { s.pwr with service := n } }

/-! ## The host's heartbeat -/

/-- A host heartbeat of DT `t` (08 R284): the timer restarts. -/
def hostHeartbeat (t : Nat) (s : State) : State :=
  { s with net := { s.net with hbStart := max s.net.hbStart t, hbArmed := decide ((s.net.cfg.getD {}).hostHbUs ≠ 0) } }

/-- The descriptor is a NET_CONTROL with op HEARTBEAT or a FRAME_RUN: its acceptance is a heartbeat, whatever its checks then say (08 R284, 09
R311, R313). -/
def isHeartbeat (b : Bytes) : Bool := fieldN b 0 1 == 6 || (fieldN b 0 1 == 0x0B && fieldN b 0x20 1 == 3)

/-! ## Completions -/

/-- What a completion echoes of its descriptor (09 R318). -/
structure Hdr where
  ctx : Nat
  num : Nat
  dt : Nat
  tag : Nat
  seq : Nat
  kind : Nat
  irq : Bool
deriving DecidableEq, Repr

def Work.hdr (w : Work) : Hdr := { ctx := w.ctx, num := w.num, dt := w.accept, tag := w.tag, seq := w.seq, kind := w.kind, irq := w.irq }

def Work.id (w : Work) : DescId := (w.ctx, w.num, w.accept)

def takenId (d : Taken) : DescId := (d.ctx, d.num, d.dt)

/-- The context record of number `c`, if it was ever written. -/
def ctxOf (s : State) (c : Nat) : Ctx := lookupD {} c s.hostq.ctxs

def setCtx (s : State) (c : Nat) (x : Ctx) : State :=
  { s with hostq := { s.hostq with ctxs := insertKey c x s.hostq.ctxs } }

/-- The 32 bytes of a completion (09 R318). -/
def completionBytes (h : Hdr) (unit status flags aux0 aux1 frameLo phase : Nat) : Bytes :=
  leBytes 4 h.tag ++ leBytes 2 h.seq ++ leBytes 1 h.kind ++ leBytes 1 status ++ leBytes 2 flags ++ leBytes 2 0 ++
  leBytes 4 (h.ctx + 2 ^ 20 * unit) ++ leBytes 4 aux0 ++ leBytes 4 aux1 ++ leBytes 4 frameLo ++ leBytes 3 0 ++ leBytes 1 phase

/-- The interrupt decision after a completion of context `c` (09 R322). -/
def ctxIrq (c : Nat) (force : Bool) (s : State) : State :=
  let x := ctxOf s c
  if !bitOf x.flags 0 then s else
  let x := { x with unsignalled := x.unsignalled + 1, firstUnsig := if x.unsignalled = 0 then s.dt else x.firstUnsig }
  if force || decide (x.irqCount ≤ x.unsignalled) || x.irqUs == 0 then
    sendMsix x.vector (setCtx s c { x with unsignalled := 0 })
  else setCtx s c x

/-- Unit 0 writes completion bytes to the next CQ slot of a context (09 R318): one 32-byte write, `cq_tail` advances, the phase
inverts at the end of a pass. -/
def putCompletion (c num : Nat) (force : Bool) (mk : Nat → Bytes) (s : State) : State :=
  let x := ctxOf s c
  if x.state = 0 then s else
  let slot := x.cqTail % 2 ^ x.cqLog2
  let s := { s with hostMem := memWrites s.hostMem (x.cqBase + 32 * slot) (mk x.phase) }
  let tail := (x.cqTail + 1) % 2 ^ 32
  let x := { x with cqTail := tail, phase := if tail % 2 ^ x.cqLog2 = 0 then 1 - x.phase else x.phase,
                    reserved := x.reserved - 1, inFlight := x.inFlight.erase num }
  ctxIrq c force (setCtx s c x)

/-- Complete a descriptor (09 R313, R318). A status of 0x10 or above carries flags 0 (R320). `frameLo` none is
0xFFFF_FFFF. A downstream unit returns the completion to unit 0 (10 R343). -/
def complete (h : Hdr) (status flags aux0 aux1 : Nat) (frame : Option Nat) (s : State) : State :=
  let fl := if status ≥ 0x10 then 0 else flags % 4096
  let fr := match frame with | some n => n % 2 ^ 32 | none => 0xFFFFFFFF
  if s.chain.head then
    let x := ctxOf s h.ctx
    putCompletion h.ctx h.num h.irq (fun ph => completionBytes h x.unit status fl aux0 aux1 fr ph) s
  else
    sendFlit 0 (.completion (h.ctx, h.num, h.dt) (completionBytes h s.chain.unit status fl aux0 aux1 fr 0)) s

/-! ## Work items -/

/-- Add an accepted work item (09 R313). -/
def addWork (w : Work) (s : State) : State := { s with work := s.work ++ [w], nextWid := s.nextWid + 1 }

def findWork (s : State) (wid : Nat) : Option Work := s.work.find? (fun w => w.wid == wid)

def dropWork (wid : Nat) (s : State) : State := { s with work := s.work.filter (fun w => w.wid != wid) }

def setItem (wid : Nat) (it : WorkItem) (s : State) : State :=
  { s with work := s.work.map (fun w => if w.wid = wid then { w with item := it } else w) }

/-- The frame that an aborted item's completion names (09 R318): only work bound to a frame has one. -/
def Work.frameOf (w : Work) : Option Nat :=
  match w.item with
  | .frameRun _ => some w.bound
  | .check _ => some w.bound
  | .solve _ => some w.bound
  | .select _ => some w.bound
  | .tensorRun _ => some w.bound
  | _ => none

/-- Complete and drop a work item. -/
def finishWork (w : Work) (status flags aux0 aux1 : Nat) (frame : Option Nat) (s : State) : State :=
  dropWork w.wid (complete w.hdr status flags aux0 aux1 frame s)

/-! ## Digest log -/

/-- The 32 bytes of a log entry (13 R414). -/
def logBytes (digest frame tag object sub client dkind unit phase : Nat) : Bytes :=
  leBytes 8 digest ++ leBytes 8 frame ++ leBytes 4 tag ++ leBytes 4 object ++ leBytes 2 sub ++ leBytes 2 client ++
  leBytes 1 dkind ++ leBytes 1 unit ++ [0] ++ leBytes 1 phase

/-- Entries of the ring that the host has not consumed (13 R416). -/
def logFill (s : State) : Nat :=
  let head := leNat (memReads s.hostMem s.det.headAddr 4)
  (s.det.written + 2 ^ 32 - head) % 2 ^ 32

/-- Write one entry to the ring (13 R413). -/
def logPut (digest frame tag object sub client dkind : Nat) (s : State) : State :=
  let n := 2 ^ s.det.logSize
  let phase := 1 - (s.det.written / n) % 2
  let s' := hostLog s (s.det.logBase + 32 * (s.det.written % n)) (logBytes digest frame tag object sub client dkind s.chain.unit phase)
  { s' with det := { s'.det with written := (s'.det.written + 1) % 2 ^ 32 } }

/-- An entry of the given level (13 R415): written, or dropped and counted when the ring is full; when space returns a
DROPPED entry comes first (R416). -/
def logEntry (level digest frame tag object sub client dkind : Nat) (s : State) : State :=
  if !s.det.logEn || decide (s.det.level < level) then s else
  let full (s : State) : Bool := decide (logFill s ≥ 2 ^ s.det.logSize)
  let drop (s : State) : State :=
    { s with det := { s.det with dropped := min (s.det.dropped + 1) (2 ^ 24 - 1), droppedSince := s.det.droppedSince + 1 } }
  if full s then drop s else
  let s := if s.det.droppedSince = 0 then s else
    let s' := logPut 0 s.frame.number 0 s.det.droppedSince 0 0 11 s
    { s' with det := { s'.det with droppedSince := 0 } }
  if full s then drop s else logPut digest frame tag object sub client dkind s

/-- A log entry that belongs to a work item. -/
def logWork (w : Work) (level digest frame object sub dkind : Nat) (s : State) : State :=
  logEntry level digest frame w.tag object sub w.client dkind s

/-- Cumulative counters of a timing-dependent choice (13 R407) and its log entry (R415). -/
def timingChoice (code object frame tag client : Nat) (s : State) : State :=
  let d := s.det
  let d := { d with tcTotal := (d.tcTotal + 1) % 2 ^ 64 }
  let sat (n : Nat) : Nat := min (n + 1) (2 ^ 32 - 1)
  let d := match code with
    | 0 => { d with tcHazard := sat d.tcHazard }
    | 1 => { d with tcDeadline := sat d.tcDeadline }
    | 2 => { d with tcDefer := sat d.tcDefer }
    | _ => { d with tcSupply := sat d.tcSupply }
  logEntry 1 0 frame tag object code client 10 { s with det := d }

/-! ## Units in service -/

/-- A bit set as a number. -/
def bitSet (l : List Nat) : Nat := l.foldl (fun n i => n ||| 2 ^ i) 0

/-- The 520 bytes of the disabled-unit map (13 R403). -/
def unitMapBytes (fenced : List Nat) (geo : List (Nat × Nat × Nat)) : Bytes :=
  leBytes 8 (bitSet fenced) ++
  (List.range 64).flatMap (fun q => leBytes 8 (bitSet ((geo.filter (fun g => g.1 == q)).map (fun g => 8 * g.2.1 + g.2.2))))

def unitMapDigest (s : State) : Nat := crc64 (unitMapBytes s.units.fenced s.units.geoDisabled)

/-- The disabled-unit map is not empty (02 R67 DEGRADED). -/
def degraded (s : State) : Bool := !s.units.fenced.isEmpty || !s.units.geoDisabled.isEmpty

/-- Clusters that the map leaves in service: placement is a function of the Accord and the map alone (02 R48). -/
def clustersUp (s : State) : List Nat := (List.range 64).filter (fun q => !s.units.fenced.contains q)

/-- The cluster list of a frame (02 R48): all clusters in service, or C0 cluster 0 alone in reduced service (02 R59). -/
def frameClusters (s : State) : List Nat := if s.pwr.service = 2 then (clustersUp s).filter (fun q => q == 0) else clustersUp s

/-- Clusters that networks may use: C0 cluster 0 alone in reduced service (06 R215, R229). -/
def netClusters (s : State) : List Nat := frameClusters s

/-- A placement cluster, replaced by the first cluster in service after it when it is fenced (06 R229). -/
def placeCluster (s : State) (q : Nat) : Nat :=
  let up := clustersUp s
  if up.contains q then q else (((List.range 64).map (fun i => (q + i) % 64)).find? (fun x => up.contains x)).getD q

/-- The partner of a cluster (06 R229 partner): the cluster and the offset of its logical cores. -/
def partner (s : State) (q : Nat) : Nat × Nat :=
  let up := netClusters s
  let d := q / 16
  let c := q % 16
  let dies := [(d + 2) % 4, (d + 1) % 4, (d + 3) % 4]
  match (dies.flatMap (fun e => (List.range 16).map (fun i => 16 * e + (c + i) % 16))).find? (fun x => up.contains x) with
  | some x => (x, 0)
  | none =>
    match (((List.range 15).map (fun i => 16 * d + (c + i + 1) % 16))).find? (fun x => up.contains x) with
    | some x => (x, 0)
    | none => (q, 4)

/-- Geometry engines that the map leaves in service in a cluster, as 8 × core + engine, ascending (02 R48). -/
def geoEngines (s : State) (q : Nat) : List Nat :=
  (List.range 64).filter (fun e => !s.units.geoDisabled.contains (q, e / 8, e % 8))

/-- Physical cores at logical positions 0 to 7, then the spare if there is one (01 R15, 14 R440). -/
def layoutOf (s : State) (q : Nat) : List Nat := lookupD (List.range 9) q s.units.layout

def spareOf (s : State) (q : Nat) : Spare := lookupD .unused q s.units.spares

def setSpare (q : Nat) (x : Spare) (s : State) : State :=
  { s with units := { s.units with spares := insertKey q x s.units.spares } }

/-! ## Core memories and sequencers -/

/-- The address, without unit, of an offset in a core's memory. -/
def coreAddr (c : CoreId) (off : Nat) : Nat := 2 ^ 58 * (c.die + 1) + 2 ^ 54 * c.cluster + 2 ^ 50 * c.core + off

/-- The offset lies in the residency directory (11 R358). -/
def inDirectory (off : Nat) : Bool := decide (131072 ≤ off) && decide (off < 262144)

/-- The key is that of a residency directory's byte. -/
def dirKey (k : Nat) : Bool := inN 1 (bitsOf k 58 3) 4 && decide (bitsOf k 50 4 ≤ 8) && inDirectory (bitsOf k 0 50)

/-- What a schedule writes into a residency directory stands until the next seal fills it again. -/
def dirWrites (k : Nat) (b : Bytes) (d : List (Nat × Byte)) : List (Nat × Byte) :=
  (b.zipIdx.filter (fun x => dirKey (k + x.2))).foldl (fun d x => insertKey (k + x.2) x.1 d) d

/-- Write bytes at a memory key; poison that they cover entirely goes. -/
def keyWrite (s : State) (k : Nat) (b : Bytes) : State :=
  { s with cores := { s.cores with mem := memWrites s.cores.mem k b, dirMem := dirWrites k b s.cores.dirMem,
                                   poison := s.cores.poison.filter (fun p => !(decide (k ≤ p.1) && decide (p.1 + 8 ≤ k + b.length))) } }

/-- Mark `n` bytes from a memory key as poisoned by a source, word by word (14 R435). -/
def addPoison (s : State) (k n src : Nat) : State :=
  { s with cores := { s.cores with poison := s.cores.poison ++ (List.range (n / 8)).map (fun i => (k + 8 * i, src)) } }

/-- The source that poisoned a byte range of a core's memory. -/
def poisonIn (s : State) (k n : Nat) : Option Nat :=
  (s.cores.poison.find? (fun p => decide (p.1 < k + n) && decide (k < p.1 + 8))).map (fun p => p.2)

def coreIndex (c : CoreId) : Nat := 8 * (16 * c.die + c.cluster) + c.core

def coreSt (s : State) (c : CoreId) : CoreSt := lookupD {} (coreIndex c) s.cores.st

def setCore (c : CoreId) (x : CoreSt) (s : State) : State :=
  { s with cores := { s.cores with st := insertKey (coreIndex c) x s.cores.st } }

/-- The cells of `n` bytes at a key. -/
def cellsIn (m : List Host.Cell) (a n : Nat) : List Host.Cell := m.filter (fun c => decide (a ≤ c.1) && decide (c.1 < a + n))

/-- The spare's memory answers for logical position `pos` of cluster `q`, whose sequencer starts anew (01 R17, R18, 11 R347): what the failed core
held is no longer reached. -/
def moveSpare (q pos : Nat) (c : Cores) : Cores :=
  let core : CoreId := { die := q / 16, cluster := q % 16, core := pos }
  let a := coreAddr core 0
  let b := coreAddr { core with core := 8 } 0
  let out (x : Nat) : Bool := !(decide (a ≤ x) && decide (x < a + 786432)) && !(decide (b ≤ x) && decide (x < b + 786432))
  { c with
    mem := (cellsIn c.mem b 786432).foldl (fun m x => memSet m (a + (x.1 - b)) x.2) (c.mem.filter (fun x => out x.1)),
    poison := c.poison.filter (fun p => out p.1) ++
      ((c.poison.filter (fun p => decide (b ≤ p.1) && decide (p.1 < b + 786432))).map (fun p => (a + (p.1 - b), p.2))),
    st := insertKey (coreIndex core) {} c.st,
    dirMem := c.dirMem.filter (fun x => out x.1) }

/-! ## Time of frames -/

/-- The frame in progress has not written its completion (02 R62). -/
def frameRunning (s : State) : Bool := match s.frame.cur with | some f => !f.published | none => false

/-- Change the frame in progress. -/
def modFrame (f : Frame → Frame) (s : State) : State :=
  match s.frame.cur with
  | some x => { s with frame := { s.frame with cur := some (f x) } }
  | none => s

/-- The frame in progress is a service-change frame (16 R495). -/
def serviceFrame (s : State) : Bool := match s.frame.cur with | some f => f.kind == .service | none => false

/-- The frame period in force, in ns (02 R37; 10 ms in reduced service and in the service-change frame, 16 R494, R495). -/
def periodNs (s : State) : Nat := if s.pwr.service = 2 ∨ serviceFrame s then 10000000 else s.frame.period * 1000

/-- A fresh value index: the model's counter for free values. -/
def bumpFresh (s : State) : State := { s with fresh := s.fresh + 1 }

end Sys2Proof.Machine
end

