-- ==== Sys2Proof/Machine/Fault.lean ====
section
/-! DEFINITION. The fault collector as shared operations: taking an event (14 R422), its reactions (R428), firing the Net
(08 R280 to R282), fencing (14 R432), fault frames (R433), block and chip resets (R430, R431), clearing (R441); and the
meanings of the rows that report, clear and configure faults. -/

namespace Sys2Proof.Machine

/-! ## FAULT_N -/

/-- FAULT_N is low exactly while a source has `pin` set (14 R429). -/
def faultN (s : State) : Bool := s.fault.srcs.any (fun x => x.pin)

/-- A downstream unit reports a change of its FAULT_N to unit 0 (10 R345). -/
def reportFaultN (old : Bool) (s : State) : State :=
  if s.chain.head || !s.chain.addressed || faultN s == old then s
  else sendFlit 0 (.remoteFault s.chain.unit (faultN s)) s

/-! ## The Net in force and firing -/

/-- A banked Net is in force at `t` (08 R274). -/
def inForceAt (n : NetRec) (t : Nat) : Bool := decide (n.p0 ≤ t) && decide (t < n.e)

/-- The Net in force at DT `t` (08 R274). -/
def netInForce (s : State) (t : Nat) : Option NetRec :=
  match s.net.newest with
  | some n => if inForceAt n t then some n else
      (match s.net.previous with | some p => if inForceAt p t then some p else none | none => none)
  | none => (match s.net.previous with | some p => if inForceAt p t then some p else none | none => none)

/-- SAFE_STOP_A and SAFE_STOP_B asserted: the pads follow at once. -/
def assertSafeStop (s : State) : State := { s with net := { s.net with padA := true, padB := true } }

/-- Fire the given Net: state FIRING, SAFE_STOP asserted, stop time T, source and t_f recorded (08 R280, R282, R521). -/
def fireWith (src : Nat) (n : NetRec) (s : State) : State :=
  let s := assertSafeStop s
  let s := { s with net := { s.net with
      state := 2, firing := some { net := n, tf := s.dt, stopNs := 1000 * n.stopTimeUs },
      lastSource := src, refire := 0, fireDt := s.dt } }
  modFrame (fun f => { f with netFired := true }) s

/-- A firing event (08 R280, R281): fires the Net in force in ARMED; is counted in FIRING and STANDSTILL; asserts nothing
new in NO_NET. -/
def fireNet (src : Nat) (s : State) : State :=
  if s.net.state = 1 then
    (match netInForce s s.dt with
    | some n => fireWith src n s
    | none => (match s.net.newest with | some n => fireWith src n s | none => s))
  else if s.net.state = 0 then s
  else { s with net := { s.net with refire := min (s.net.refire + 1) 65535 } }

/-! ## Optimisations cut and work aborted -/

/-- The deadline cut of one optimisation (05 R184): stop reason DEADLINE and one timing-dependent choice. -/
def cutOpt (wid idx : Nat) (s : State) : State :=
  match s.opts.find? (fun o => o.wid == wid && o.idx == idx) with
  | none => s
  | some o =>
    if o.stop.isSome then s else
    let s := { s with opts := s.opts.map (fun x => if x.wid = wid ∧ x.idx = idx then { x with stop := some 2, stopFrame := s.frame.number } else x) }
    match findWork s wid with
    | none => s
    | some w =>
      match w.item with
      | .solve sv => timingChoice 1 idx w.bound w.tag w.client (setItem wid (.solve { sv with timing := sv.timing + 1 }) s)
      | _ => timingChoice 1 idx w.bound w.tag w.client (modFrame (fun f => { f with timing := f.timing + 1 }) s)

/-- The frame's FRAME_RUN is aborted: it completes, writes no record, and the frame runs on as an idle frame (02 R65, 14
R435, R438). -/
def abortFrameRun (status aux0 : Nat) (s : State) : State :=
  match s.frame.cur with
  | none => s
  | some f =>
    match f.fr with
    | none => s
    | some wid =>
      let s := match findWork s wid with
        | some w => finishWork w status 0 aux0 0 (some f.number) s
        | none => s
      let s := { s with opts := s.opts.filter (fun o => o.wid != wid), netRuns := s.netRuns.filter (fun n => !(n.wid == 0 && n.frame == f.number)),
                        world := { s.world with fcastOwed := s.world.fcastOwed.filter (fun o => o.1 != f.number) } }
      modFrame (fun f => { f with
        proposals := [], fr := none, kind := if f.kind = .run then .idle else f.kind, cert := none,
        adm := f.adm.filter (fun a => a.wid != wid), batches := f.batches.filter (fun b => b.wid != wid),
        lists := f.lists.filter (fun l => l.1 != wid) }) s

/-! ## Fault frames -/

/-- A unit removed from service (01 R21). -/
inductive RemUnit where
  | engine (q p : Nat)
  | core (q p : Nat)
  | cluster (q : Nat)
deriving DecidableEq, Repr

def RemUnit.cl : RemUnit → Nat
  | .engine q _ => q
  | .core q _ => q
  | .cluster q => q

/-- Logical core `p` of cluster `q` is on the removed unit; a geometry engine is no core. -/
def RemUnit.has (r : RemUnit) (q p : Nat) : Bool :=
  match r with
  | .engine _ _ => false
  | .core q' p' => q == q' && p == p'
  | .cluster q' => q == q'

/-- A certification on logical core `p` of cluster `q` uses the removed unit: its core's geometry engines answer its queries (08 R268). -/
def RemUnit.certHas (r : RemUnit) (q p : Nat) : Bool :=
  match r with
  | .engine q' p' => q == q' && p == p'
  | r => r.has q p

/-- A network run has a tile on the removed unit. -/
def netRunOn (r : RemUnit) (n : NetRun) : Bool := n.clusters.any (fun q => n.cores.any (fun p => r.has q p))

/-- The outcome of a stopped frame network for its role (06 R231). -/
def netOutcome (n : NetRun) (s : State) : State :=
  match s.accord with
  | none => s
  | some a =>
    match (if s.pwr.service = 2 then a.reducedNets else a.nets)[n.net]? with
    | some d =>
      (match d.role with
      | .forecast => { s with world := { s.world with fcastOwed := s.world.fcastOwed.filter (fun o => o.1 != n.frame) } }
      | .proposal => modFrame (fun f => if f.number = n.frame then { f with proposalState := 2, proposals := [] } else f) s
      | _ => s)
    | none => s

/-- Insert an index in ascending order. -/
def insertIdx (i : Nat) (l : List Nat) : List Nat := insertBy (fun a b => decide (a ≤ b)) i l

/-- Standalone work on the removed unit restarts at the next start opportunity (14 R433, 07 R260). -/
def restartSolo (r : RemUnit) (s : State) : State :=
  let lostOpt (o : Opt) : Bool := o.stop.isNone && r.has (o.core / 8) (o.core % 8)
  let lost (wid idx : Nat) : Bool := s.opts.any (fun o => o.wid == wid && o.idx == idx && lostOpt o)
  let lostRun (wid run : Nat) : Bool := s.netRuns.any (fun n => n.wid == wid && n.run == run && netRunOn r n)
  let fix (w : Work) : Work := match w.item with
    | .solve sv => { w with item := .solve { sv with
        todo := (sv.running.filter (lost w.wid)).foldl (fun l i => insertIdx i l) sv.todo,
        running := sv.running.filter (fun i => !lost w.wid i) } }
    | .tensorRun tr => { w with item := .tensorRun { tr with
        todo := (tr.running.filter (fun p => lostRun w.wid p.1)).foldl (fun l p => insertIdx p.1 l) tr.todo,
        running := tr.running.filter (fun p => !lostRun w.wid p.1) } }
    | .select sl => { w with item := .select { sl with
        todo := (sl.running.filter (fun p => r == .cluster p.2)).foldl (fun l p => insertIdx p.1 l) sl.todo,
        running := sl.running.filter (fun p => r != .cluster p.2) } }
    | _ => w
  let isSolve (wid : Nat) : Bool := s.work.any (fun w => w.wid == wid && (match w.item with | .solve _ => true | _ => false))
  { s with work := s.work.map fix,
           opts := s.opts.filter (fun o => !(isSolve o.wid && lostOpt o)),
           netRuns := s.netRuns.filter (fun n => !(n.wid != 0 && netRunOn r n)) }

/-- Network runs with a tile on the removed unit stop, with the outcome of their role (06 R231, 14 R433). -/
def stopNets (r : RemUnit) (s : State) : State :=
  let hit := s.netRuns.filter (fun n => n.wid == 0 && netRunOn r n)
  let s := hit.foldl (fun s n => netOutcome n s) s
  { s with netRuns := s.netRuns.filter (fun n => !(n.wid == 0 && netRunOn r n)) }

/-- The clusters and logical cores that certifications run on: those of the Accord, each on the cluster that serves for a fenced one (06 R229), and
their partners while two copies run (15 R444). -/
def certUnits (s : State) (a : Accord) : List (Nat × Nat) :=
  let own := a.certCores.map (fun c => (placeCluster s (16 * c.die + c.cluster), c.core))
  if s.safety.ctrl.certDual then
    own ++ own.map (fun x => let p := partner s x.1; (p.1, (x.2 + p.2) % 8))
  else own

/-- The removal as `Units.calm` keeps it; an engine is out at the next tick. -/
def RemUnit.calmKey (r : RemUnit) : Nat × Option Nat :=
  match r with
  | .engine q p => (q, some p)
  | .core q p => (q, some p)
  | .cluster q => (q, none)

/-- The consequences of a fault frame for the removed unit (14 R433, 07 R254). A frame that has published its record keeps the condition for the
CHECKs that it carries on (04 R160). -/
def faultFrame (r : RemUnit) (s : State) : State :=
  let s := restartSolo r s
  match s.frame.cur with
  | none => stopNets r s
  | some f =>
    let normal := f.kind == .run || f.kind == .idle
    let certOn := match s.accord with
      | some a => (certUnits s a).any (fun x => r.certHas x.1 x.2)
      | none => false
    let s := modFrame (fun f => { f with certFail := f.certFail || certOn }) s
    let s := if !normal then { s with units := { s.units with calm := s.units.calm ++ [(f.number, r.calmKey.1, r.calmKey.2)] } } else
      let s := modFrame (fun f => { f with
        faultFrame := true, goldenResult := 1,
        faultClusters := if f.faultClusters.contains r.cl then f.faultClusters else f.faultClusters ++ [r.cl],
        lists := f.lists.filter (fun l => l.2.1 != r.cl) }) s
      { s with safety := { s.safety with goldenResult := 1 } }
    let cuts := s.opts.filter (fun o => some o.wid == f.fr && o.started && o.stop.isNone && r.has (o.core / 8) (o.core % 8))
    stopNets r (cuts.foldl (fun s o => cutOpt o.wid o.idx s) s)

/-! ## Fault log -/

/-- Append a record to the fault log, a ring of 512 (14 R426). -/
def logFault (r : FRec) (s : State) : State :=
  { s with fault := { s.fault with log := (s.fault.log ++ [r]).drop (s.fault.log.length + 1 - 512), logCount := s.fault.logCount + 1 } }

/-- An entry for an action: kind 2 clear, 3 fence, 4 disable or drain end, 5 restore. -/
def logAction (kind src syn : Nat) (s : State) : State :=
  logFault { dt := s.dt, addr := 0, syn := syn, src := src, reactions := 0, entry := kind, frame := s.frame.number % 2 ^ 32 } s

/-! ## Fencing -/

/-- A cluster is out of service, or will be at the next tick. -/
def clusterOut (s : State) (q : Nat) : Bool :=
  s.units.fenced.contains q || s.units.isolated.contains q || s.units.changes.contains (.fence q)

/-- FENCE of a whole cluster by a fault: isolated at once, in the map from the next tick (14 R428, R432). -/
def fenceCluster (q src : Nat) (s : State) : State :=
  if s.units.fenced.contains q || s.units.isolated.contains q then s else
  let s := { s with units := { s.units with
      isolated := s.units.isolated ++ [q], changes := s.units.changes ++ [.fence q],
      outPos := s.units.outPos.filter (fun p => p.1 != q) } }
  let s := match spareOf s q with
    | .loading _ _ => setSpare q .unused s
    | .loaded _ _ => setSpare q .unused s
    | _ => s
  faultFrame (.cluster q) (logAction 3 src q s)

/-- FENCE of a logical core: spare substitution, or the whole cluster when the spare cannot serve (01 R17, 14 R432). -/
def fenceCore (q p src : Nat) (s : State) : State :=
  if s.units.fenced.contains q || s.units.isolated.contains q then s else
  match spareOf s q, (layoutOf s q)[8]?, s.units.changes.contains (.spareFail q) with
  | .unused, some _, false =>
    let phys := (layoutOf s q).getD p p
    let s := setSpare q (.loading p phys) s
    let s := { s with units := { s.units with outPos := s.units.outPos ++ [(q, p)] } }
    faultFrame (.core q p) (logAction 3 src (8 * q + p) s)
  | _, _, _ => fenceCluster q src s

/-- FENCE of a geometry engine: it enters the map at the next tick (14 R432). -/
def fenceEngine (q p g src : Nat) (s : State) : State :=
  if s.units.geoDisabled.contains (q, p, g) || decide ((s.work.filter (fun w => w.item == .unitGeo q p g)).length < s.units.changes.count (.geo q p g)) then s else
  let s := { s with units := { s.units with changes := s.units.changes ++ [.geo q p g] } }
  faultFrame (.engine q p) (logAction 3 src (64 * q + 8 * p + g) s)

/-- Syndrome of a Carousel slice: slice [7:0], physical core [15:8], cluster or pair [23:16], kind [31:24]. The spec calls a
syndrome source-specific (14 R426); the coding is the model's (DESIGN CHOICE, notes/assumptions/15.md). -/
def carouselSyn (u : CUnit) (slice : Nat) : Nat :=
  match u with
  | .core q phys => slice + 2 ^ 8 * phys + 2 ^ 16 * q
  | .mapCache q => slice + 2 ^ 16 * q + 2 ^ 24
  | .fabric q => slice + 2 ^ 16 * q + 2 * 2 ^ 24
  | .pair p => slice + 2 ^ 16 * p + 3 * 2 ^ 24

/-- The unused spare of a cluster has failed: the next tick's map says so (17 R529). -/
def spareBroken (q i syn : Nat) (s : State) : State :=
  if spareOf s q = .unused ∧ (layoutOf s q)[8]?.isSome ∧ !s.units.changes.contains (.spareFail q) then
    logAction 3 i syn { s with units := { s.units with changes := s.units.changes ++ [.spareFail q] } }
  else s

/-- FENCE of the unit under test (14 R432): the unused spare of a cluster in service is marked failed at the next tick (17 R529), a core of the test
rotation is fenced as a core, and a start-up rotation fences its cluster (15 R456). -/
def fenceTested (q phys i syn : Nat) (s : State) : State :=
  let l := layoutOf s q
  if !s.safety.startupDone || s.units.fenced.contains q then fenceCluster q i s
  else if l[8]? = some phys ∧ spareOf s q = .unused then spareBroken q i syn s
  else match (l.take 8).findIdx? (fun c => c == phys) with
    | some p => fenceCore q p i s
    | none => s

/-- The FENCE reaction (14 R432): the smallest unit that the source names; a source that names none removes nothing. R420 names a logical core, which an
unused spare is not: the model's number for it is 8, and an error in its own memory removes the spare alone (DESIGN CHOICE,
notes/assumptions/105.md). -/
def applyFence (i syn : Nat) (s : State) : State :=
  if 160 ≤ i ∧ i < 416 then
    let q := (i - 160) / 4
    if (i - 160) % 4 = 0 then (if syn % 16 = 8 then spareBroken q i syn s else fenceCore q (syn % 8) i s)
    else if (i - 160) % 4 = 1 then fenceEngine q (syn / 8 % 8) (syn % 8) i s
    else fenceCluster q i s
  else if i = 84 then
    let q := bitsOf syn 16 8
    let phys := bitsOf syn 8 8
    let kind := bitsOf syn 24 8
    if kind = 3 then s
    else if kind = 0 then fenceTested q phys i syn s
    else fenceCluster q i s
  else s

/-! ## Work that aborts -/

/-- What a work item has put into the machine and an abort takes out (09 R313, 14 R438). -/
def dropTraces (wid : Nat) (s : State) : State :=
  modFrame (fun f => { f with adm := f.adm.filter (fun a => a.wid != wid), batches := f.batches.filter (fun b => b.wid != wid),
                              lists := f.lists.filter (fun l => l.1 != wid) })
    { s with opts := s.opts.filter (fun o => o.wid != wid), netRuns := s.netRuns.filter (fun n => n.wid != wid),
             world := { s.world with groups := s.world.groups.filter (fun g => g.wid != wid),
                                     hazChanges := s.world.hazChanges.filter (fun h => h.wid != wid) } }

/-- Work aborts: it completes with the status and writes no record. -/
def abortWork (status aux0 : Nat) (s : State) (w : Work) : State := dropTraces w.wid (finishWork w status 0 aux0 0 w.frameOf s)

/-- Every work item that is not kept aborts. -/
def abortAll (status aux0 : Nat) (keep : Work → Bool) (s : State) : State :=
  (s.work.filter (fun w => !keep w)).foldl (abortWork status aux0) s

/-! ## Block reset -/

/-- The block of a source (14 R430); `none` for the classes in which BLOCK_RESET is ignored. Which sources of the hub share a block is the model's
reading (notes/assumptions/108.md). -/
def blockOf (i : Nat) : Option Blk :=
  if i < 8 then some (.pair i)
  else if i = 12 then some (.hub 11)
  else if i = 19 then some (.hub 18)
  else if i = 21 then some (.hub 20)
  else if i < 32 then some (.hub i)
  else if i < 48 then
    (if i = 39 ∨ i = 41 then some (.netChannel 0) else if i = 40 ∨ i = 42 then some (.netChannel 1) else some (.hub 32))
  else if i < 128 then none
  else if i < 144 then some (.link ((i - 128) / 2))
  else if i < 147 then some (.port 0)
  else if i < 150 then some (.port 1)
  else if i < 155 then some (.hub 150)
  else if i < 160 then some (.hub 155)
  else if i < 416 then some (.cluster ((i - 160) / 4))
  else none

/-- DIAGs of this unit that wait for a unit out of reach complete with the given status (10 R343, R345). -/
def abortDiags (gone : Nat → Bool) (status aux0 : Nat) (s : State) : State :=
  s.work.foldl (fun s w => match w.item with
    | .diag _ _ u => if gone u then finishWork w status 0 aux0 0 none s else s
    | _ => s) s

/-- Work in flight to units beyond `unit` completes with the given status (10 R343, 14 R430). -/
def abortForwarded (unit status aux0 : Nat) (s : State) : State :=
  let gone (d : Taken) : Bool := decide (unit < (ctxOf s d.ctx).unit)
  let l := s.chain.fwd.filter gone
  let kept := s.chain.fwd.filter (fun d => !gone d)
  let s := l.foldl (fun s d =>
    complete { ctx := d.ctx, num := d.num, dt := d.dt, tag := fieldN d.desc 4 4, seq := fieldN d.desc 2 2, kind := fieldN d.desc 0 1,
               irq := bitOf (fieldN d.desc 1 1) 0 } status 0 aux0 0 none s) s
  let s := abortDiags (fun u => decide (unit < u)) status aux0 s
  { s with chain := { s.chain with fwd := kept } }

/-- The units beyond this one's CHN_DN are lost (10 R343, 14 R430): unit 0 holds the descriptors, and another unit tells it. -/
def loseBeyond (status src : Nat) (s : State) : State :=
  if s.chain.head then abortForwarded s.chain.unit status src s
  else if s.chain.addressed then sendFlit 0 (.lost s.chain.unit status src) (abortDiags (fun u => decide (s.chain.unit < u)) status src s)
  else s

/-- The merge of the frame in progress is due, and the CHECK has a list in it (02 R61, 07 R250). -/
def merging (s : State) (w : Work) : Bool :=
  match s.frame.cur, w.item with
  | some f, .check c => f.retired && !f.mergeDone && c.k != 0 && f.adm.any (fun a => a.wid == w.wid)
  | _, _ => false

/-- Work that runs in a hub block (14 R430; which work that is: DEDUCED, notes/assumptions/108.md): the Juggler's merges, the ingests that pass
through the crossbar and the hub SRAM (01 R36, 03 R119), the recovery rotations of the Carousel controller, and the copies and DIAGs that wait for the
host interface. -/
def runsIn (k : Nat) (s : State) (w : Work) : Bool :=
  match w.item with
  | .check _ => k == 17 && merging s w
  | .ingest _ => k == 18 || k == 20
  | .unitRestore _ => k == 24
  | .accord _ _ .copying _ => k == 155
  | .diag .. => k == 155
  | _ => false

/-- BLOCK_RESET begins (14 R430): a cluster's frame is a fault frame for it, a Net port channel sends no frames, and work that a
chain port or a hub block runs completes with ABORTED_RESET. The reset is the unit's last one (16 R485; notes/assumptions/17.md). -/
def beginBlockReset (i : Nat) (s : State) : State :=
  match blockOf i with
  | none => s
  | some b =>
    if s.fault.blockReset.contains b then s else
    let s := { s with fault := { s.fault with blockReset := s.fault.blockReset ++ [b] }, boot := { s.boot with resetCause := 6 } }
    match b with
    | .cluster q => faultFrame (.cluster q) s
    | .netChannel c =>
      { s with net := if c = 0 then { s.net with chA := { s.net.chA with reset := true } }
                      else { s.net with chB := { s.net.chB with reset := true } } }
    | .port 1 => loseBeyond 0x22 0 s
    | .hub k =>
      let s := abortAll 0x22 0 (fun w => !runsIn k s w) s
      let s := if k = 24 then { s with units := { s.units with restoring := [] } } else s
      (match s.frame.cur with
      | some f => if k = 17 && f.retired && !f.mergeDone then abortFrameRun 0x22 0 s else s
      | none => s)
    | _ => s

/-! ## Resets of chip scope -/

/-- What a chip reset does to the collector: configuration to its defaults, state kept (14 R431, 17 R523). -/
def resetFaultC (f : FaultC) : FaultC :=
  { srcs := List.zipWith (fun i (x : Src) =>
      let d := Src.reset i
      { d with sticky := x.sticky, severe := x.severe, pin := x.pin, count := x.count, winStart := x.winStart, total := x.total })
      (List.range 416) f.srcs,
    latch := f.latch, overflow := f.overflow, log := f.log, logCount := f.logCount,
    levels := f.levels.filter (fun i => !(decide (112 ≤ i) && decide (i < 160))) }

/-- A reset of chip scope with its cause (16 R485): everything but the always-on domain returns to its reset value; DT, fault
state, straps, fuses and what has already left the package stay. SAFE_STOP is asserted, no setpoint frame is sent. -/
def chipReset (cause : Nat) (s : State) : State :=
  let d := State.reset
  { d with
    pending := s.pending, dt := s.dt, fresh := s.fresh, nextWid := s.nextWid, grade := s.grade, hostMem := s.hostMem,
    pcie := { d.pcie with perst := s.pcie.perst, msixOut := s.pcie.msixOut, readData := s.pcie.readData, readOk := s.pcie.readOk,
                          poisoned := s.pcie.poisoned },
    hostq := { d.hostq with stageBase := s.hostq.stageBase, stageSize := s.hostq.stageSize, ctxTable := s.hostq.ctxTable },
    fault := resetFaultC s.fault,
    net := { d.net with chA := { out := s.net.chA.out }, chB := { out := s.net.chB.out } },
    pwr := { d.pwr with service := if cause = 4 then 7 else 0,
                        rails := s.pwr.rails.map (fun r => { low := r.low, since := r.since, under := r.under }) },
    clk := { d.clk with refclkMon := !s.pcie.perst },
    temp := { d.temp with tripped := cause == 4 },
    boot := { d.boot with resetCause := cause, bootSrc := s.boot.bootSrc, otpRollback := s.boot.otpRollback,
                          otpKeyHash := s.boot.otpKeyHash, releaseDt := s.dt },
    chain := { d.chain with head := s.chain.head, addressed := s.chain.head, tokensOut := s.chain.tokensOut,
                            tickOut := s.chain.tickOut, flitsOut := s.chain.flitsOut },
    world := { d.world with poolAt := s.world.poolAt, indexAt := s.world.indexAt } }

/-! ## Taking an event -/

/-- The sources that are not in use (15 R553): they raise no event. -/
def inUse (s : State) (i : Nat) : Bool :=
  let c := s.net.cfg.getD {}
  let chA := c.chanA
  let chB := c.chanB
  if i = 39 ∨ i = 41 then chA
  else if i = 40 ∨ i = 42 then chB
  else if i = 69 then s.chain.head
  else if 144 ≤ i ∧ i ≤ 146 then !(s.chain.addressed && s.chain.unit == 0)
  else if 147 ≤ i ∧ i ≤ 149 then !(s.chain.addressed && s.chain.unit + 1 == s.chain.unitCount)
  else if i = 152 then !(s.chain.addressed && s.chain.unit == 0)
  else true

/-- A source that raises no event: reserved, not in use, of an isolated or fenced cluster, or of a block in reset (14 R418,
R421, 15 R553). -/
def silent (s : State) (i : Nat) : Bool :=
  (srcDefault i).isNone || !inUse s i ||
  (decide (160 ≤ i) && (s.units.isolated.contains ((i - 160) / 4) || s.units.fenced.contains ((i - 160) / 4))) ||
  (match blockOf i with | some b => s.fault.blockReset.contains b | none => false)

def srcOf (s : State) (i : Nat) : Src := s.fault.srcs.getD i {}

def setSrc (i : Nat) (x : Src) (s : State) : State :=
  { s with fault := { s.fault with srcs := modifyAt (fun _ => x) i s.fault.srcs } }

/-- Hub cycle of a DT (800 MHz, 01 R33). -/
def hubCycle (t : Nat) : Nat := 4 * t / 5

/-- The first DT of the next hub cycle. -/
def nextHubCycle (t : Nat) : Nat := (5 * (hubCycle t + 1) + 3) / 4

/-- The source's last event was in the hub cycle of a DT. -/
def sameCycle (x : Src) (t : Nat) : Bool := match x.lastDt with | some l => hubCycle l == hubCycle t | none => false

/-- Apply a reaction set in the order NET, FENCE, FAULT_N, NMI, IRQ, BLOCK_RESET, CHIP_RESET (14 R428). FAULT_N follows
`pin`. -/
def react (r i syn : Nat) (severe : Bool) (s : State) : State :=
  let s := if bitOf r 6 then fireNet 2 s else s
  let s := if bitOf r 5 then applyFence i syn s else s
  let s := if bitOf r 1 then
      { s with fault := { s.fault with
          nmiCause := (List.range 8).foldl (fun l p => if bitOf s.fault.nmiPairs p then insertKey p i l else l) s.fault.nmiCause } }
    else s
  let s := if bitOf r 0 then sendMsix (if severe then s.fault.severeVec else s.fault.minorVec) s else s
  let s := if bitOf r 2 then beginBlockReset i s else s
  if bitOf r 3 then chipReset 2 s else s

/-- First-fault latch (14 R425). -/
def latchEvent (canLatch : Bool) (r : FRec) (s : State) : State :=
  match s.fault.latch with
  | some _ => { s with fault := { s.fault with overflow := true } }
  | none => if canLatch then { s with fault := { s.fault with latch := some r } } else s

/-- Take one event of source `i` (14 R422). Failed reads and Swaps of the host interface come here directly: 09 R323 and R554 count each of them, also
several in one hub cycle, which R421 would merge (DEDUCED, notes/assumptions/137.md). -/
def takeEvent (i addr syn : Nat) (s : State) : State :=
  let x := srcOf s i
  let cfg := match s.fault.prev with
    | some (t, j, old) => if j = i ∧ hubCycle t = hubCycle s.dt then old else x
    | none => x
  if silent s i || !cfg.en then s else
  let total := min (x.total + 1) 65535
  let opened := x.count = 0 ∨ s.dt ≥ x.winStart + 1000 * 2 ^ cfg.w
  let win := if opened then s.dt else x.winStart
  let count := if opened then 1 else min (x.count + 1) 255
  let severe := x.severe || (decide (count ≥ cfg.n) && !(decide (58 ≤ i) && decide (i ≤ 66)))
  let r := if severe then cfg.sev else cfg.minor
  let old := faultN s
  let s := setSrc i { x with total := total, winStart := win, count := count, severe := severe, sticky := true,
                             pin := x.pin || bitOf r 4, lastDt := some s.dt, was := if sameCycle x s.dt then x.was else x.sticky } s
  let rec_ : FRec := { dt := s.dt, addr := addr, syn := syn, src := i, reactions := r, entry := b2n severe, frame := s.frame.number % 2 ^ 32 }
  let s := latchEvent cfg.latch rec_ s
  let s := if r = 0 then s else logFault rec_ s
  react r i syn severe (reportFaultN old s)

/-- Reports of one source within one hub cycle count as one event (14 R421). -/
def raise (i addr syn : Nat) (s : State) : State := if sameCycle (srcOf s i) s.dt then s else takeEvent i addr syn s

/-- Stack-unreachable (14 R420): 114 + 4k. -/
def isStackLost (i : Nat) : Bool := i == 114 || i == 118 || i == 122 || i == 126

/-- A level source's condition begins: one event, and none while it lasts (14 R423). Stack-unreachable stays in effect until a chip reset
(R436). -/
def raiseLevel (i addr syn : Nat) (s : State) : State :=
  if s.fault.levels.contains i then s
  else raise i addr syn { s with fault := { s.fault with
      levels := s.fault.levels ++ [i], stackLost := if isStackLost i then some (s.fault.stackLost.getD i) else s.fault.stackLost } }

/-- A level source's condition ends. -/
def endLevel (i : Nat) (s : State) : State :=
  { s with fault := { s.fault with levels := s.fault.levels.filter (fun j => j != i) } }

/-- Escalation without an event (14 R426, R552, 15 R460): `severe` set, one SEVERE entry, the SEVERE set applied. -/
def escalate (i syn : Nat) (s : State) : State :=
  let x := srcOf s i
  if silent s i || !x.en || x.severe then s else
  let old := faultN s
  let s := setSrc i { x with severe := true, pin := x.pin || bitOf x.sev 4 } s
  let s := logFault { dt := s.dt, addr := 0, syn := syn, src := i, reactions := x.sev, entry := 1, frame := s.frame.number % 2 ^ 32 } s
  react x.sev i syn true (reportFaultN old s)

/-- Clear a source whose event came in the clear's own hub cycle: the event is taken after the clear and opens a new window (14 R441). Its record,
latch and reactions stand as they were (notes/assumptions/136.md). -/
def clearBefore (i : Nat) (x : Src) (s : State) : State :=
  let severe := decide (x.n ≤ 1) && !(decide (58 ≤ i) && decide (i ≤ 66))
  let s := setSrc i { x with severe := severe, pin := bitOf (if severe then x.sev else x.minor) 4, count := 1, winStart := s.dt, was := false } s
  if x.was then logAction 2 i 0 s else s

/-- A level source cleared while its condition lasts: a new event in the hub cycle after the clear (14 R423). Its reactions may reset the chip, and
with it DT (R431). -/
def levelAgain (i : Nat) (s : State) : State :=
  let u := takeEvent i 0 0 { s with dt := nextHubCycle s.dt }
  if u.dt = nextHubCycle s.dt then { u with dt := s.dt } else u

/-- Clear one source (14 R441); a level source whose condition lasts raises a new event in the hub cycle after (R423). -/
def clearSource (i : Nat) (s : State) : State :=
  let x := srcOf s i
  if !x.sticky then s else
  let old := faultN s
  if sameCycle x s.dt then reportFaultN old (clearBefore i x s) else
  let s := setSrc i { x with sticky := false, severe := false, pin := false, count := 0 } s
  let s := reportFaultN old (logAction 2 i 0 s)
  if s.fault.levels.contains i then levelAgain i s else s

/-- Clear the sources named by the ones of a sticky word (14 R441). -/
def clearWord (word val : Nat) (s : State) : State :=
  (List.range 32).foldl (fun s b => if bitOf val b && decide (32 * word + b < 416) then clearSource (32 * word + b) s else s) s

/-! ## Ring links -/

/-- The receiving die fabric takes a flit (number, address) of a direction and delivers in sequence (01 R31): one that it has delivered or holds is
discarded, one ahead of a missing flit is held, and the missing one lets those behind it go. -/
def ringTake (x : RingDir × List Nat) (f : Nat × Nat) : RingDir × List Nat :=
  let (d, out) := x
  if f.1 < d.rxNext ∨ d.held.any (fun h => h.1 == f.1) then x
  else if f.1 ≠ d.rxNext then ({ d with held := d.held ++ [f] }, out)
  else ringDrain d.held.length ({ d with rxNext := d.rxNext + 1 }, out ++ [f.2])
where
  ringDrain : Nat → RingDir × List Nat → RingDir × List Nat
    | 0, x => x
    | k + 1, (d, out) =>
      match lookupO d.rxNext d.held with
      | some a => ringDrain k ({ d with rxNext := d.rxNext + 1, held := eraseKey d.rxNext d.held }, out ++ [a])
      | none => (d, out)

/-- Flits of a direction that are still unacknowledged: an acknowledgement returns within 200 ns (01 R31); the model takes 200 ns
(notes/assumptions/104.md). -/
def ringUnacked (now : Nat) (d : RingDir) : List (Nat × Nat × Nat) := d.unacked.filter (fun u => decide (now < u.2.1 + 200))

/-- A flit enters a direction of a ring link (01 R31). -/
def ringSend (dir a : Nat) (s : State) : State :=
  let d := lookupD {} dir s.cores.ring
  let d := { d with txNext := d.txNext + 1, unacked := ringUnacked s.dt d ++ [(d.txNext, s.dt, a)], rxNext := d.txNext + 1 }
  { s with cores := { s.cores with ring := insertKey dir d s.cores.ring } }

/-- `k` flits of an operation enter a direction. -/
def ringSends (dir a k : Nat) (s : State) : State := (List.range k).foldl (fun s _ => ringSend dir a s) s

/-- A direction of a failed ring link sends every unacknowledged flit again, through the hub and in order. The receiver had got those that are not in
`lost`, and held what arrived ahead of a lost one. -/
def ringResend (dir : Nat) (lost : List Nat) (s : State) : State :=
  let d := lookupD {} dir s.cores.ring
  let un := (ringUnacked s.dt d).map (fun u => (u.1, u.2.2))
  let got := un.filter (fun u => !lost.contains u.1)
  let next := ((un.filter (fun u => lost.contains u.1)).head?.map (fun u => u.1)).getD d.txNext
  let (d, out) := un.foldl ringTake ((got.foldl ringTake ({ d with rxNext := next, held := [] }, [])).1, [])
  { s with cores := { s.cores with ring := insertKey dir { d with unacked := [] } s.cores.ring, delivered := insertKey dir out s.cores.delivered } }

/-- A ring link fails (01 R31): until the next reset of chip scope its traffic takes the route through the hub. -/
def ringFail (link : Nat) (lostA lostB : List Nat) (s : State) : State :=
  if link < 4 ∨ link > 7 ∨ s.cores.hubRoute.contains link then s else
  let s := ringResend (2 * link + 1) lostB (ringResend (2 * link) lostA s)
  { s with cores := { s.cores with hubRoute := s.cores.hubRoute ++ [link] } }

/-- The ring link of a Midway-uncorrectable source (14 R420). -/
def ringOfSource (i : Nat) : Option Nat := if 137 ≤ i ∧ i ≤ 143 ∧ i % 2 = 1 then some ((i - 129) / 2) else none

/-- A flit that Sillage-288 cannot correct is the failure of its ring link (01 R31): the last one sent in the direction that bit 0 of the syndrome
names has not arrived (notes/assumptions/104.md). -/
def ringReport (i syn : Nat) (s : State) : State :=
  match ringOfSource i with
  | some l =>
    let lost (dir : Nat) : List Nat := if dir = syn % 2 then [(lookupD {} (2 * l + dir) s.cores.ring).txNext - 1] else []
    ringFail l (lost 0) (lost 1) s
  | none => s

/-! ## Meanings -/

/-- A stack-unreachable source is in effect (14 R436). -/
def stackLost (s : State) : Bool := s.fault.stackLost.isSome

/-- The index of the stack-unreachable source in effect, for `aux0` (14 R436). -/
def stackLostSrc (s : State) : Nat := s.fault.stackLost.getD 114

/-- A report from source `i` (14 R420, R423): a level source's condition begins, an event source's event is taken. A flit that no ring link can
correct is that link's failure (01 R31), and a stack-unreachable condition aborts what was accepted (14 R436). -/
def report (i addr syn : Nat) (s : State) : State :=
  if !srcLevel i then raise i addr syn (ringReport i syn s) else
  let s := raiseLevel i addr syn s
  if isStackLost i then
    abortAll 0x21 i (fun w => match w.item with | .configure _ => true | .diag .. => true | _ => false) (abortFrameRun 0x21 i s)
  else s

/-- FAULT_EVENT (14 R422): a report of any source. -/
def execFaultEvent (t src addr syn : Nat) (s : State) : Out := runAt t s (report src addr syn)

/-- LEVEL_SOURCE_BEGIN (14 R423): the condition begins, after those of `ended` have ended; stack-unreachable never ends but by a chip reset (R436). -/
def execLevelSourceBegin (t src addr syn : Nat) (ended : List Nat) (s : State) : Out :=
  runAt t s fun s =>
    report src addr syn ((ended.filter (fun i => !(decide (112 ≤ i) && decide (i < 128)))).foldl (fun s i => endLevel i s) s)

/-- BLOCK_RESET_DONE (14 R430): the block leaves reset; a cluster returns to service at the next tick. -/
def execBlockResetDone (t : Nat) (b : Blk) (s : State) : Out :=
  runAt t s fun s =>
    if !s.fault.blockReset.contains b then s else
    match b with
    | .cluster q => { s with units := { s.units with changes := s.units.changes ++ [.backFromReset q] } }
    | _ =>
      let s := { s with fault := { s.fault with blockReset := s.fault.blockReset.filter (fun x => x != b) } }
      (match b with
      | .netChannel c =>
        { s with net := if c = 0 then { s.net with chA := { s.net.chA with reset := false } }
                        else { s.net with chB := { s.net.chB with reset := false } } }
      | _ => s)

/-- SPARE_LOAD_DONE (01 R18): the spare of cluster `q` is loaded and takes over at the next tick. -/
def execSpareLoadDone (t q : Nat) (s : State) : Out :=
  runAt t s fun s =>
    match spareOf s q with
    | .loading pos phys => { setSpare q (.loaded pos phys) s with
        units := { (setSpare q (.loaded pos phys) s).units with changes := s.units.changes ++ [.spare q pos phys] } }
    | _ => s

/-- FAULT_STICKY_CLEAR (14 R441). -/
def execFaultStickyClear (t word val : Nat) (s : State) : Out := runAt t s (clearWord word val)

/-- Empty the first-fault latch (14 R441). -/
def clearLatch (s : State) : State := { s with fault := { s.fault with latch := none, overflow := false } }

/-- FFL_CLEAR (14 R441). -/
def execFflClear (t : Nat) (s : State) : Out := runAt t s clearLatch

/-- A write of FAULT_SRC_CFG (17 R524, R552): refused as a whole with CFG_ERR, or applied from the next event (14 R424). -/
def writeSrcCfg (val : Nat) (s : State) : State :=
  let i := s.fault.sel
  let temp := decide (58 ≤ i) && decide (i ≤ 66)
  let n := bitsOf val 2 8
  let w := bitsOf val 10 5
  let minor := bitsOf val 15 7
  match srcDefault i with
  | none => { s with fault := { s.fault with cfgErr := true } }
  | some (dn, _, _, _) =>
    if (!temp && (n == 0 || decide (w > 24))) || (dn == 1 && minor != 0) then { s with fault := { s.fault with cfgErr := true } }
    else
      let x := srcOf s i
      let y := { x with en := bitOf val 0, latch := bitOf val 1, n := if temp then x.n else n, w := if temp then x.w else w,
                        minor := minor, sev := bitsOf val 22 7 }
      let s := setSrc i y s
      { s with fault := { s.fault with prev := some (s.dt, i, x) } }

/-- FAULT_SRC_CFG_WRITE (17 R524). -/
def execFaultSrcCfgWrite (t val : Nat) (s : State) : Out := runAt t s (writeSrcCfg val)

end Sys2Proof.Machine
end

