-- ==== Sys2Proof/Machine/Host.lean ====
section
/-! DEFINITION. Queue contexts, the doorbell poller and the take step (09 R300 to R312, R554), interrupt delay, and the
resets of the host interface (09 R299, 16 R486). -/

namespace Sys2Proof.Machine

/-! ## Contexts -/

/-- The 64 bytes of a context (09 R300); its reserved bytes read as 0 (00 R12). -/
def ctxBytes (x : Ctx) : Bytes :=
  leBytes 8 x.sqBase ++ leBytes 8 x.cqBase ++ leBytes 8 x.sqTailAddr ++ leBytes 8 x.cqHeadAddr ++
  leBytes 1 x.sqLog2 ++ leBytes 1 x.cqLog2 ++ leBytes 1 x.prio ++ leBytes 1 x.unit ++ leBytes 2 x.client ++ leBytes 2 x.vector ++
  leBytes 2 x.flags ++ leBytes 1 x.irqCount ++ leBytes 1 0 ++ leBytes 2 x.irqUs ++ leBytes 2 x.seqBase ++
  leBytes 4 x.sqHead ++ leBytes 4 x.cqTail ++ leBytes 1 x.state ++ leBytes 1 x.phase ++ zeros 6

/-- The host-written bytes 0x00 to 0x2F over a context (09 R300, R302). -/
def ctxOfBytes (x : Ctx) (b : Bytes) : Ctx :=
  { x with
    sqBase := fieldN b 0 8, cqBase := fieldN b 8 8, sqTailAddr := fieldN b 0x10 8, cqHeadAddr := fieldN b 0x18 8,
    sqLog2 := fieldN b 0x20 1, cqLog2 := fieldN b 0x21 1, prio := fieldN b 0x22 1, unit := fieldN b 0x23 1,
    client := fieldN b 0x24 2, vector := fieldN b 0x26 2, flags := fieldN b 0x28 2, irqCount := fieldN b 0x2A 1,
    rsv := fieldN b 0x2B 1, irqUs := fieldN b 0x2C 2, seqBase := fieldN b 0x2E 2 }

/-- Every field of a context within R300; a unit beyond the chain is refused too (10 R343). -/
def ctxOk (s : State) (x : Ctx) : Bool :=
  x.sqBase % 64 == 0 && x.cqBase % 64 == 0 && x.sqTailAddr % 4 == 0 && x.cqHeadAddr % 4 == 0 &&
  decide (4 ≤ x.sqLog2) && decide (x.sqLog2 ≤ 16) && decide (4 ≤ x.cqLog2) && decide (x.cqLog2 ≤ 16) &&
  decide (x.prio ≤ 7) && decide (x.unit < s.chain.unitCount) && decide (x.vector < 2048) && decide (x.flags < 4) &&
  decide (1 ≤ x.irqCount) && x.rsv == 0 && decide (x.irqUs ≤ 1000)

def setRefused (b : Bool) (s : State) : State := { s with hostq := { s.hostq with refused := b } }

/-- A context command (09 R302): ignored with OVERRUN while BUSY; else REFUSED is cleared and BUSY lasts `dur`. Contexts are held on unit 0 (R305);
a unit other than that ignores the write (17 R506). The table is ready once the stacks have trained (16 R493 step 8); what a command does before is the
model's choice: it is refused (DESIGN CHOICE, notes/assumptions/130.md). -/
def ctxCommand (dur : Nat) (f : Nat → Ctx → State → State) (s : State) : State :=
  if !s.chain.head then s
  else if !s.boot.stacksTrained then { s with hostq := { s.hostq with refused := true } }
  else if s.dt < s.hostq.busyUntil then { s with hostq := { s.hostq with overrun := true } }
  else
    let s := { s with hostq := { s.hostq with refused := false, busyUntil := s.dt + dur } }
    f s.hostq.ctxIndex (ctxOf s s.hostq.ctxIndex) s

/-- WRITE (09 R302): in DISABLED only. -/
def ctxDoWrite (i : Nat) (x : Ctx) (s : State) : State :=
  if x.state ≠ 0 then setRefused true s else setCtx s i (ctxOfBytes x (s.hostq.data.flatMap (leBytes 4)))

/-- READ (09 R302). -/
def ctxDoRead (_i : Nat) (x : Ctx) (s : State) : State :=
  { s with hostq := { s.hostq with data := (List.range 16).map (fun k => fieldN (ctxBytes x) (4 * k) 4) } }

/-- ENABLE (09 R302): from DISABLED only. -/
def ctxDoEnable (i : Nat) (x : Ctx) (s : State) : State :=
  if x.state ≠ 0 then setRefused true s else
  let x := { x with sqHead := 0, cqTail := 0, phase := 1, reserved := 0, unsignalled := 0, inFlight := [] }
  if ctxOk s x then setCtx s i { x with state := 1 } else setRefused true (setCtx s i x)

/-- DISABLE (09 R302): from ENABLED; acceptance stops at once. -/
def ctxDoDisable (i : Nat) (x : Ctx) (s : State) : State :=
  if x.state ≠ 1 then setRefused true s else
  let s := setCtx s i { x with state := 2 }
  { s with hostq := { s.hostq with waiting := s.hostq.waiting.filter (fun q => q != i) } }

/-- CTX_WRITE (09 R302). -/
def execCtxWrite (t dur : Nat) (s : State) : Out := runAt t s (ctxCommand dur ctxDoWrite)

/-- CTX_READ (09 R302). -/
def execCtxRead (t dur : Nat) (s : State) : Out := runAt t s (ctxCommand dur ctxDoRead)

/-- CTX_ENABLE (09 R302). -/
def execCtxEnable (t dur : Nat) (s : State) : Out := runAt t s (ctxCommand dur ctxDoEnable)

/-- CTX_DISABLE (09 R302). -/
def execCtxDisable (t dur : Nat) (s : State) : Out := runAt t s (ctxCommand dur ctxDoDisable)

/-- A write of a code that is no command (09 R302). -/
def ctxBadCommand (s : State) : State :=
  if !s.chain.head then s else if s.dt < s.hostq.busyUntil then { s with hostq := { s.hostq with overrun := true } } else setRefused true s

/-- CTX_INVALID_COMMAND (09 R302). -/
def execCtxInvalidCommand (t code : Nat) (s : State) : Out :=
  runAt t s fun s => if 1 ≤ code ∧ code ≤ 4 then s else ctxBadCommand s

/-- CTX_DRAIN_END (09 R302): a DRAINING context whose last completion has been written becomes DISABLED. -/
def execCtxDrainEnd (t ctx : Nat) (s : State) : Out :=
  runAt t s fun s =>
    let x := ctxOf s ctx
    if x.state = 2 ∧ x.inFlight = [] then setCtx s ctx { x with state := 0 } else s

/-- IRQ_DELAY_EXPIRY (09 R322). -/
def execIrqDelayExpiry (t ctx : Nat) (s : State) : Out :=
  runAt t s fun s =>
    let x := ctxOf s ctx
    if bitOf x.flags 0 && decide (x.unsignalled > 0) && decide (x.firstUnsig + 1000 * x.irqUs ≤ s.dt) then
      sendMsix x.vector (setCtx s ctx { x with unsignalled := 0 })
    else s

/-- A write of POLL_EN (17 R514, R506). -/
def writePollEn (on : Bool) (s : State) : State :=
  if !s.chain.head then s else
  let q := s.hostq
  let ok (a : Nat) : Bool := a != 0 && a % 64 == 0
  if on then { s with hostq := { q with pollEn := q.pollEn || (ok q.dbLeaf && ok q.dbMid && ok q.dbTop) } }
  else { s with hostq := { q with pollEn := false } }

/-- POLL_EN_WRITE (17 R514). -/
def execPollEnWrite (t : Nat) (on : Bool) (s : State) : Out := runAt t s (writePollEn on)

/-! ## The walk -/

/-- State of a walk: the queues found, and whether an Unsupported Request has stopped it (09 R309). -/
structure Walk where
  st : State
  found : List Nat
  stopped : Bool

/-- Set bits of a 64-bit word, ascending. -/
def setBits (w : Nat) : List Nat := (List.range 64).filter (fun b => bitOf w b)

/-- A Swap with 0 (09 R307): an Unsupported Request stops the walk and sets NO_ATOMIC (R309); any other error reads as all
bits set (R554). -/
def swapWord (v : View) (atomicOk : Bool) (a : Nat) (w : Walk) : Nat × Walk :=
  if w.stopped then (0, w)
  else if !atomicOk then
    (0, { w with st := takeEvent 155 a 0 { w.st with hostq := { w.st.hostq with noAtomic := true } }, stopped := true })
  else match hostRead v w.st a 8 with
    | none => (2 ^ 64 - 1, { w with st := takeEvent 155 a 0 w.st })
    | some b => (leNat b, { w with st := { w.st with hostMem := memWrites w.st.hostMem a (zeros 8) } })

/-- Take one leaf word. -/
def walkLeaf (v : View) (ok : Bool) (w : Walk) (lw : Nat) : Walk :=
  let (l, w) := swapWord v ok (w.st.hostq.dbLeaf + 8 * lw) w
  { w with found := w.found ++ (setBits l).map (fun d => lw * 64 + d) }

/-- Take one middle word, then the leaf words beneath it (09 R308). -/
def walkMid (v : View) (ok : Bool) (w : Walk) (mw : Nat) : Walk :=
  let (m, w) := swapWord v ok (w.st.hostq.dbMid + 8 * mw) w
  ((setBits m).map (fun c => mw * 64 + c)).foldl (walkLeaf v ok) w

/-- Take one top word that the read showed non-zero. -/
def walkTop (v : View) (ok : Bool) (tops : Bytes) (w : Walk) (i : Nat) : Walk :=
  if fieldN tops (8 * i) 8 = 0 then w else
  let (tw, w) := swapWord v ok (w.st.hostq.dbTop + 8 * i) w
  ((setBits tw).map (fun b => i * 64 + b)).foldl (walkMid v ok) w

/-- The walk of the doorbell tree (09 R307). -/
def walkTree (v : View) (ok : Bool) (s : State) : Walk :=
  match hostRead v s s.hostq.dbTop 32 with
  | none => (List.range 4).foldl (walkTop v ok (List.replicate 32 255)) { st := takeEvent 155 s.hostq.dbTop 0 s, found := [], stopped := false }
  | some b => (List.range 4).foldl (walkTop v ok b) { st := s, found := [], stopped := false }

/-! ## Taking descriptors -/

/-- The header fields of a descriptor (09 R314) as its completion echoes them. -/
def takenHdr (d : Taken) : Hdr :=
  { ctx := d.ctx, num := d.num, dt := d.dt, tag := fieldN d.desc 4 4, seq := fieldN d.desc 2 2, kind := fieldN d.desc 0 1,
    irq := bitOf (fieldN d.desc 1 1) 0 }

/-- Descriptors that only a context with CONTROL may submit (09 R304). -/
def needsControl (b : Bytes) : Bool :=
  let k := fieldN b 0 1
  k == 5 || k == 4 || k == 0x0B || k == 0x0C || (k == 0x0D && fieldN b 0x1C 1 == 1)

/-- A kind that R315 does not list. -/
def unknownKind (b : Bytes) : Bool := fieldN b 0 1 == 0 || decide (fieldN b 0 1 > 0x0D)

/-- A descriptor for another unit leaves through CHN_DN (10 R343); the link being down, it completes with ABORTED_FAULT. -/
def forwardDesc (d : Taken) (x : Ctx) (s : State) : State :=
  if s.chain.dn.state ≠ 2 ∧ s.chain.dn.state ≠ 3 then complete (takenHdr d) 0x21 0 149 0 none s
  else sendFlit 1 (.descriptor x.unit d.ctx d.num d.dt x.prio x.client d.desc) { s with chain := { s.chain with fwd := s.chain.fwd ++ [d] } }

/-- Accept one descriptor (09 R310, R311, R316, R323 steps 1 to 3): an unreadable one, a wrong `seq` and an unknown kind
complete at once; one for another unit is forwarded (10 R343). Acceptance is what the heartbeat counts (08 R284). -/
def acceptOne (c : Nat) (desc : Option Bytes) (s : State) : State :=
  let x := ctxOf s c
  let num := x.sqHead
  let s := setCtx s c { x with sqHead := (num + 1) % 2 ^ 32, reserved := x.reserved + 1, inFlight := x.inFlight ++ [num] }
  match desc with
  | none =>
    let s := takeEvent 155 (x.sqBase + 64 * (num % 2 ^ x.sqLog2)) 0 s
    complete { ctx := c, num := num, dt := s.dt, tag := 0xFFFFFFFF, seq := 0, kind := 0, irq := false } 0x21 0 155 0 none s
  | some b =>
    let d : Taken := { ctx := c, num := num, dt := s.dt, desc := b }
    let want := (x.seqBase + num) % 65536
    let s := if x.unit = s.chain.unit ∧ isHeartbeat b then hostHeartbeat s.dt s else s
    if fieldN b 2 2 ≠ want then complete (takenHdr d) 0x12 0 want 0 none s
    else if unknownKind b then complete (takenHdr d) 0x10 0 0 0xFFFFFFFF none s
    else if x.unit ≠ s.chain.unit then
      if needsControl b && !bitOf x.flags 1 then
        complete (takenHdr d) 0x10 0 (b2n (decide (fieldN b 1 1 ≥ 4))) 0xFFFFFFFF none s
      else forwardDesc d x s
    else { s with hostq := { s.hostq with taken := s.hostq.taken ++ [d] } }

/-- Take up to `k` descriptors of context `c` while its limits hold; answers whether any is left (09 R310, R314). -/
def takeGo (v : View) (c tail used : Nat) : Nat → State → Bool × State
  | 0, s => (decide (tail ≠ (ctxOf s c).sqHead), s)
  | k + 1, s =>
    let x := ctxOf s c
    if tail = x.sqHead then (false, s)
    else if x.reserved + used ≥ 2 ^ x.cqLog2 then (true, s)
    else
      let desc := hostRead v s (x.sqBase + 64 * (x.sqHead % 2 ^ x.sqLog2)) 64
      let ordered := match desc with | some b => bitOf (fieldN b 1 1) 1 | none => false
      if ordered && !x.inFlight.isEmpty then (true, s)
      else
        let done := x.cqTail
        let s := acceptOne c desc s
        let wrote := ((ctxOf s c).cqTail + 2 ^ 32 - done) % 2 ^ 32
        takeGo v c tail (used + wrote) k s

/-- Take from one context of the pending set (09 R310, R312, R554); answers whether it stays pending. -/
def takeFrom (v : View) (c : Nat) (s : State) : Bool × State :=
  let x := ctxOf s c
  if x.state ≠ 1 then (false, s) else
  match hostRead v s x.sqTailAddr 4 with
  | none => (true, takeEvent 155 x.sqTailAddr 0 s)
  | some tb =>
    let tail := leNat tb
    let n := (tail + 2 ^ 32 - x.sqHead) % 2 ^ 32
    if n = 0 then (false, s)
    else if n > 2 ^ x.sqLog2 then (true, { s with hostq := { s.hostq with badTail := min (s.hostq.badTail + 1) 255 } })
    else match hostRead v s x.cqHeadAddr 4 with
      | none => (true, takeEvent 155 x.cqHeadAddr 0 s)
      | some hb =>
        let used := (x.cqTail + 2 ^ 32 - leNat hb) % 2 ^ 32
        if used > 2 ^ x.cqLog2 then (true, { s with hostq := { s.hostq with badHead := min (s.hostq.badHead + 1) 255 } })
        else takeGo v c tail used 64 s

/-- The pending set in the order of the take step: ascending priority class, then queue number (09 R310). -/
def pendingOrder (s : State) (l : List Nat) : List Nat :=
  sortBy (fun a b => decide ((ctxOf s a).prio < (ctxOf s b).prio) || ((ctxOf s a).prio == (ctxOf s b).prio && decide (a ≤ b))) l

/-- The take step after a walk (09 R310). -/
def takeStep (v : View) (found : List Nat) (s : State) : State :=
  let set := s.hostq.waiting ++ (found.filter (fun q => !s.hostq.waiting.contains q)).eraseDups
  let (left, s) := (pendingOrder s set).foldl (fun (acc : List Nat × State) c =>
    let (stay, s) := takeFrom v c acc.2
    (if stay then acc.1 ++ [c] else acc.1, s)) ([], { s with hostq := { s.hostq with waiting := [] } })
  { s with hostq := { s.hostq with waiting := left } }

/-- POLL_INSTANT_WALK (09 R307): at a whole multiple of 2,000 ns, while POLL_EN and AtomicOp Requester Enable are set (R309). -/
def execPollInstantWalk (t : Nat) (v : View) (atomicOk : Bool) (s : State) : Out :=
  runAt t s fun s =>
    let s := applyView v s
    if t % 2000 ≠ 0 ∨ !s.hostq.pollEn ∨ !s.pcie.cfg.atomicReq ∨ s.pcie.perst then s else
    let w := walkTree v atomicOk s
    takeStep v w.found w.st

/-! ## BAR0 errors and resets of the interface -/

/-- The host reaches the endpoint: that of a unit with CHAIN_HEAD low trains no link (10 R328), nor does one under PERST_N. -/
def endpointUp (s : State) : Bool := s.chain.head && !s.pcie.perst

/-- BAR0_UNSUPPORTED_ACCESS (09 R296): an access that is not a naturally aligned 32-bit one completes as Unsupported
Request, which AER records (bit 20 of its status: PRESUMED, notes/assumptions/110.md). -/
def execBar0UnsupportedAccess (t addr size : Nat) (isWrite : Bool) (s : State) : Out :=
  runAt t s fun s =>
    if !endpointUp s ∨ (size = 4 ∧ addr % 4 = 0) then s
    else { s with pcie := { s.pcie with readOk := false, readData := if isWrite then s.pcie.readData else [], aer := s.pcie.aer ||| 2 ^ 20 } }

/-- The changes of units that a UNIT_CONTROL has asked for and that no tick has made: a fault's fence, which isolates the cluster, stands. -/
def unitChanges (s : State) (w : Work) : List MapChange :=
  match w.item with
  | .unitFence q => if s.units.isolated.contains q then [] else [.fence q]
  | .unitGeo q p g => [.geo q p g]
  | .unitRestore q => .restore q :: (if s.units.isolated.contains q then [] else [.fence q])
  | _ => []

/-- A reset of the host interface (09 R299, 16 R485, R486): the HOSTQ block and configuration space return to their reset
values, every context is disabled, work from descriptors is discarded, the rest keeps its state. -/
def hostIfReset (s : State) : State :=
  let d : HostQ := {}
  let s := { s with
    hostq := { d with ctxs := s.hostq.ctxs.map (fun c => (c.1, { c.2 with state := 0, inFlight := [], reserved := 0, unsignalled := 0 })),
                      stageBase := s.hostq.stageBase, stageSize := s.hostq.stageSize, ctxTable := s.hostq.ctxTable },
    lo := s.lo.filter (fun x => x.1 / 65536 != 4), hi := s.hi.filter (fun x => x.1 / 65536 != 4),
    pcie := { perst := s.pcie.perst, msixOut := s.pcie.msixOut },
    boot := { s.boot with resetCause := 5 },
    temp := { s.temp with tripped := false },
    chain := { s.chain with fwd := [] },
    work := [], opts := [], netRuns := [],
    units := { s.units with heldRestores := [], restoring := [], draining := [],
                            changes := ((s.work.flatMap (unitChanges s)).foldl (fun l c => l.erase c) s.units.changes).filter (fun c =>
                              match c with | .relay _ _ => false | _ => true) },
    world := { s.world with groups := [], ingestSeals := [], fcastOwed := [],
                            hazChanges := s.world.hazChanges.filter (fun h => h.late && h.committed) } }
  modFrame (fun f => { f with
    proposals := [], fr := none, kind := if f.kind = .run then .idle else f.kind, cert := none,
    adm := [], batches := f.batches.filter (fun b => b.wid == 0), lists := f.lists.filter (fun l => l.1 == 0) }) s

/-- A reset that reaches the endpoint; that of a unit with CHAIN_HEAD low is held in reset and has none to take (10 R328). -/
def endpointReset (s : State) : State := if s.chain.head then hostIfReset s else s

/-- PERST_N (09 R299): asserted; the REFCLK monitor is off meanwhile (15 R458). -/
def execPerstN (t : Nat) (s : State) : Out :=
  runAt t s fun s =>
    let s := endpointReset s
    { s with pcie := { s.pcie with perst := true }, clk := { s.clk with refclkMon := false } }

/-- HOT_RESET (09 R299). -/
def execHotReset (t : Nat) (s : State) : Out := runAt t s endpointReset

/-- FUNCTION_LEVEL_RESET (09 R299). -/
def execFunctionLevelReset (t : Nat) (s : State) : Out := runAt t s endpointReset

/-- PERST_N_RELEASE (15 R458): the link trains and, on the unit with the endpoint, the REFCLK monitor starts. -/
def execPerstNRelease (t : Nat) (s : State) : Out :=
  runAt t s fun s => { s with pcie := { s.pcie with perst := false }, clk := { s.clk with refclkMon := s.chain.head, refclk := s.chain.head } }

end Sys2Proof.Machine
end

