-- ==== Sys2Proof/Machine/Desc.lean ====
section
/-! DEFINITION. What every descriptor goes through at acceptance (09 R323), and the binding of work to frames (02 R41). -/

namespace Sys2Proof.Machine

/-- A failed check: status, `aux0`, `aux1` (09 R319, R321). -/
structure Fail where
  status : Nat
  aux0 : Nat
  aux1 : Nat
deriving DecidableEq, Repr

/-- INVALID_DESCRIPTOR that names the descriptor field at byte offset `o`. -/
def badField (o : Nat) : Fail := { status := 0x10, aux0 := o, aux1 := 0xFFFFFFFF }

/-- INVALID_DESCRIPTOR for a fault in a buffer, in record `i`. -/
def badRecord (i : Nat) : Fail := { status := 0x10, aux0 := 0xFFFFFFFF, aux1 := i }

/-- INVALID_DESCRIPTOR for a fault in a buffer or in the whole result, in no single record. -/
def badWhole : Fail := { status := 0x10, aux0 := 0xFFFFFFFF, aux1 := 0xFFFFFFFF }

def mismatchFail : Fail := { status := 0x13, aux0 := 0, aux1 := 0 }
def unsupportedFail : Fail := { status := 0x14, aux0 := 0, aux1 := 0 }
def tooSmall (n : Nat) : Fail := { status := 0x11, aux0 := n, aux1 := 0 }

/-- The first check that fails. -/
def firstFail (l : List (Bool × Fail)) : Option Fail := (l.find? (fun c => c.1)).map (fun c => c.2)

/-- Field of the descriptor. -/
def fld (d : Taken) (o k : Nat) : Nat := fieldN d.desc o k

/-- The first byte of the body, from 0x08, that no named field covers and that is not 0 (09 R317). -/
def reservedByte (d : Taken) (named : List (Nat × Nat)) : Option Nat :=
  (List.range 64).find? (fun o => decide (8 ≤ o) && !named.any (fun f => decide (f.1 ≤ o) && decide (o < f.1 + f.2)) && fld d o 1 != 0)

/-- The check of the reserved bytes as a list entry. -/
def reservedCheck (d : Taken) (named : List (Nat × Nat)) : Bool × Fail :=
  match reservedByte d named with | some o => (true, badField o) | none => (false, badWhole)

/-- Complete a descriptor that a check refused. -/
def refuse (d : Taken) (f : Fail) (s : State) : State := complete (takenHdr d) f.status 0 f.aux0 f.aux1 none s

/-- A failed device read at acceptance (09 R323): ABORTED_FAULT, and the host-interface source once. -/
def refuseRead (d : Taken) (a : Nat) (s : State) : State :=
  refuse d { status := 0x21, aux0 := 155, aux1 := 0 } (takeEvent 155 a 0 s)

/-- Run the rest of a descriptor's acceptance with the bytes of a buffer. -/
def withRead (d : Taken) (v : View) (a n : Nat) (s : State) (k : Bytes → State → State) : State :=
  match hostRead v s a n with
  | none => refuseRead d a s
  | some b => k b s

/-- Continue when no check fails. -/
def withChecks (d : Taken) (l : List (Bool × Fail)) (s : State) (k : State → State) : State :=
  match firstFail l with
  | some f => refuse d f s
  | none => k s

/-- What acceptance asks of a kind: its code, CONTROL needed (09 R304), accepted while a stack is unreachable (14 R436),
accepted in reduced service (09 R323). -/
structure KindRule where
  code : Nat
  control : Bool := false
  anyStack : Bool := false
  reduced : Bool := true

/-- Steps 3 to 5 of acceptance (09 R323) for a taken descriptor of the row's kind, then the kind's own steps. Descriptors are dealt with in the order
in which they were taken, each once (R311, R313): only the one at the front. -/
def acceptDesc (d : Taken) (v : View) (r : KindRule) (s : State) (k : State → State) : Out :=
  runAt d.dt s fun s =>
    if fld d 0 1 ≠ r.code ∨ s.hostq.taken.head? ≠ some d then s else
    let s := applyView v { s with hostq := { s.hostq with taken := s.hostq.taken.tail } }
    if stackLost s && !r.anyStack then refuse d { status := 0x21, aux0 := stackLostSrc s, aux1 := 0 } s
    else if fld d 1 1 ≥ 4 then refuse d (badField 1) s
    else if r.control && s.chain.head && !bitOf (ctxOf s d.ctx).flags 1 then refuse d (badField 0) s
    else if !r.reduced && s.pwr.service == 2 then refuse d unsupportedFail s
    else if s.units.disabledFn.contains r.code || s.units.draining.any (fun x => x.1 == r.code) then
      refuse d { status := 0x20, aux0 := 0, aux1 := 0 } s
    else k s

/-- The work item of an accepted descriptor. -/
def mkWork (d : Taken) (bound : Nat) (it : WorkItem) (s : State) : Work :=
  { wid := s.nextWid, ctx := d.ctx, num := d.num, tag := fld d 4 4, seq := fld d 2 2, kind := fld d 0 1, irq := bitOf (fld d 1 1) 0,
    prio := (ctxOf s d.ctx).prio, client := (ctxOf s d.ctx).client, accept := d.dt, bound := bound, item := it }

/-! ## Ticks ahead -/

/-- Ticks run: in reduced and full service (16 R480), downstream from the first announcement on (10 R340). -/
def tickKnown (s : State) : Bool :=
  (s.pwr.service == 2 || s.pwr.service == 3) && (s.frame.ticking || s.chain.head || s.chain.announce.isSome)

/-- The DT of the next tick: a period after the last one, a whole multiple of 1 ms after a wake (16 R501), an announced DT, or a whole multiple of
10 ms (R493). Where no tick is due yet, the first at which one could come. -/
def nextTick (s : State) : Nat :=
  match s.frame.wakeTick, s.chain.announce, s.frame.ticking && tickKnown s with
  | some w, _, _ => w
  | none, _, true => s.frame.tickDt + periodNs s
  | none, some (td, _, _), false => td
  | none, none, false => if s.frame.ticking then (s.dt / 1000000 + 1) * 1000000 else (s.dt / 10000000 + 1) * 10000000

/-- The number of the next tick (02 R39). -/
def nextNumber (s : State) : Nat := if s.frame.ticking then s.frame.number + 1 else 0

/-- Less than 20 us before the next tick, or before the first DT at which one could come. -/
def closeToTick (s : State) (a : Nat) : Bool := decide (nextTick s < a + 20000)

/-- Less than 20 us before the next tick. -/
def lateForTick (s : State) (a : Nat) : Bool := tickKnown s && closeToTick s a

/-- The frame to which work accepted at `a` with target 0 binds (02 R41). -/
def bindFrame (s : State) (a : Nat) : Nat := nextNumber s + b2n (lateForTick s a)

/-- The DT at which unit 0 ticks (02 R37, 16 R493, R494, R501). -/
def tickDue (t : Nat) (s : State) : Bool :=
  (s.pwr.service == 2 || s.pwr.service == 3) &&
  (if s.frame.ticking then t == nextTick s else t % 10000000 == 0)

/-- The supply rule holds for what is written now (15 R460). -/
def suspectNow (s : State) : Bool := s.safety.suspect

/-- Conditions of a frame that a FRAME_RUN and a CHECK report alike (02 R67, 04 R160). -/
def frameFlags (s : State) (f : Frame) : Nat :=
  flagIf (f.hazLate > 0) 5 + flagIf (suspectNow s) 6 + flagIf f.netFired 7 + flagIf f.degraded 8 + flagIf (f.goldenResult == 1) 9 +
  flagIf (f.timing > 0) 10

end Sys2Proof.Machine
end

