-- ==== Sys2Proof/Machine/Sillage.lean ====
section
/-! DEFINITION. Sillage-288 (15 R446, R447): a Reed-Solomon code of 36 symbols over GF(2^8), polynomial 0x11D, α = 2. -/

namespace Sys2Proof.Machine

/-- Multiply by x in GF(2^8). -/
def gfX (a : Nat) : Nat := let b := 2 * a; if b ≥ 256 then (b ^^^ 0x11D) else b

def gfMulGo : Nat → Nat → Nat → Nat
  | 0, _, _ => 0
  | k + 1, a, b => (if b % 2 = 1 then a else 0) ^^^ gfMulGo k (gfX a) (b / 2)

/-- Product in GF(2^8). -/
def gfMul (a b : Nat) : Nat := gfMulGo 8 a b

/-- α^n. -/
def gfPow : Nat → Nat
  | 0 => 1
  | n + 1 => gfX (gfPow n)

/-- Syndrome S_j of a codeword given as 36 symbols, highest power first: Horner's rule at α^j. -/
def syndromeOf (c : List Nat) (j : Nat) : Nat := c.foldl (fun acc x => gfMul acc (gfPow j) ^^^ x) 0

/-- One step of the division by g(x): the remainder p₀..p₃ after taking in symbol `d`. g(x) = x⁴ + 15x³ + 54x² + 120x + 64. -/
def sillageStep (r : Nat × Nat × Nat × Nat) (d : Nat) : Nat × Nat × Nat × Nat :=
  let f := d ^^^ r.1
  (r.2.1 ^^^ gfMul f 15, r.2.2.1 ^^^ gfMul f 54, r.2.2.2 ^^^ gfMul f 120, gfMul f 64)

/-- The four check bytes of 32 data bytes (15 R446). -/
def sillageCheck (d : Bytes) : Bytes :=
  let r := d.foldl (fun r b => sillageStep r b.toNat) (0, 0, 0, 0)
  [byteOf r.1, byteOf r.2.1, byteOf r.2.2.1, byteOf r.2.2.2]

/-- Outcome of the decoder (15 R447). -/
inductive SillageOut where
  | clean
  | corrected (data : Bytes)
  | uncorrectable
deriving DecidableEq, Repr

/-- The decoder (15 R447): all syndromes 0, or one byte m with S₁ = α^m S₀, S₂ = α^m S₁, S₃ = α^m S₂. -/
def sillageDecode (code : Bytes) : SillageOut :=
  let c := code.map (fun b => b.toNat)
  if code.length ≠ 36 then .uncorrectable else
  let s0 := syndromeOf c 0
  let s1 := syndromeOf c 1
  let s2 := syndromeOf c 2
  let s3 := syndromeOf c 3
  if s0 = 0 ∧ s1 = 0 ∧ s2 = 0 ∧ s3 = 0 then .clean
  else if s0 = 0 then .uncorrectable
  else
    match (List.range 36).find? (fun m => gfMul s0 (gfPow m) == s1 && gfMul s1 (gfPow m) == s2 && gfMul s2 (gfPow m) == s3) with
    | some m => .corrected ((modifyAt (fun b => byteOf (b.toNat ^^^ s0)) (35 - m) code).take 32)
    | none => .uncorrectable

end Sys2Proof.Machine
end

