-- ==== Sys2Proof/Machine/Chain.lean ====
section
/-! DEFINITION. The Ibaroux chain (10): ports, replay, enumeration, time and tick alignment. -/

namespace Sys2Proof.Machine

def portOf (s : State) (p : Nat) : Port := if p = 0 then s.chain.up else s.chain.dn

def setPort (p : Nat) (x : Port) (s : State) : State :=
  { s with chain := if p = 0 then { s.chain with up := x } else { s.chain with dn := x } }

/-- The port's link sources (14 R420): corrected, replay, down. -/
def portSrc (p k : Nat) : Nat := 144 + 3 * p + k

/-- Enter a link state (10 R330): leaving UP or HALF for DOWN or FAILED begins chain-link-down, and work in flight to units
beyond CHN_DN completes with ABORTED_FAULT (R343). -/
def enterLink (p st : Nat) (s : State) : State :=
  let x := portOf s p
  let was := x.state == 2 || x.state == 3
  let fails := if st = 2 ∨ st = 3 then 0 else if x.state = 1 ∧ st = 0 then x.fails + 1 else x.fails
  let st := if fails ≥ 3 then 4 else st
  let s := setPort p { x with state := st, fails := fails } s
  if st = 2 ∨ st = 3 then endLevel (portSrc p 2) s
  else if was && (st == 0 || st == 4) then
    let s := raiseLevel (portSrc p 2) 0 0 s
    if p = 1 then loseBeyond 0x21 (portSrc p 2) s else abortDiags (fun u => decide (u < s.chain.unit)) 0x21 (portSrc p 2) s
  else s

/-- CHN_UP of unit 0 is unused, and its inputs are ignored (10 R328). -/
def portUsed (s : State) (port : Nat) : Bool := decide (port ≤ 1) && !(s.chain.head && port == 0)

/-- LINK_TRAINING (10 R330). -/
def execLinkTraining (t port state : Nat) (s : State) : Out :=
  runAt t s fun s => if portUsed s port ∧ state ≤ 4 then enterLink port state s else s

/-- REPLAY_REQUEST (10 R332): the transmitter resends from the requested flit onward in the original order; each replay is
one event; a flit that still fails after eight replays takes the port to FAILED. -/
def execReplayRequest (t port seq : Nat) (s : State) : Out :=
  runAt t s fun s =>
    if !portUsed s port then s else
    let x := portOf s port
    let n := if x.replaySeq = seq then x.replays + 1 else 1
    if n > 8 then enterLink port 4 (setPort port { x with replays := n, replaySeq := seq } s)
    else
      let again := x.txBuf.filter (fun f => decide (seq ≤ f.1))
      let s := setPort port { x with replays := n, replaySeq := seq, resent := again } s
      let s := { s with chain := { s.chain with flitsOut := s.chain.flitsOut ++ again.map (fun f => (port, flitHeader f.1 f.2, f.2)) } }
      raise (portSrc port 1) 0 seq s

/-! ## Enumeration -/

/-- The token byte (10 R334): address, generation, odd parity. -/
def tokenByte (addr gen : Nat) : Nat :=
  let b := addr % 16 + 16 * (gen % 8)
  let ones := (List.range 7).foldl (fun n i => n + b2n (bitOf b i)) 0
  b + 128 * (if ones % 2 = 0 then 1 else 0)

/-- A token with odd parity and the expected generation (10 R334). -/
def tokenOk (b gen : Nat) : Bool := decide (b < 256) && b == tokenByte (b % 16) (bitsOf b 4 3) && bitsOf b 4 3 == gen

/-- The reports that unit 0 holds from addresses 0 upwards with no gap (10 R336). -/
def reportPrefix (r : List UnitReport) : Nat :=
  (List.range 8).foldl (fun n i => if n = i && r.any (fun x => x.addr == i) then i + 1 else n) 0

/-- Enumeration ends when the gap-free prefix ends with `last` (10 R336): UNIT_COUNT, SYNCING; a chain of one is
READY at once (10 R337). -/
def enumCheck (s : State) : State :=
  let r := s.chain.reports
  let n := reportPrefix r
  if s.chain.state ≠ 1 then s
  else if r.any (fun x => x.addr + 1 == n && x.last) then
    deviceEvent { s with chain := { s.chain with unitCount := n, state := if n = 1 then 3 else 2, syncing := decide (n ≠ 1), syncTicks := 0 } }
  else s

/-- Unit 0 takes a report (10 R336): unit 7's `overflow` sets OVERFLOW and raises chain-overflow, whether or not a report is missing before it. -/
def collectReport (x : UnitReport) (s : State) : State :=
  let s := { s with chain := { s.chain with reports := s.chain.reports ++ [x] } }
  enumCheck (if x.overflow && x.addr == 7 then raise 150 0 0 { s with chain := { s.chain with overflow := true } } else s)

/-- Unit 0 takes address 0, reports, sends the start flit down and its token (10 R333, R335). -/
def beginEnum (s : State) : State :=
  let gen := (s.chain.gen + 1) % 8
  let last := s.chain.dn.state == 0 || s.chain.dn.state == 4
  let s := { s with chain := { s.chain with
    gen := gen, state := 1, enumStart := s.dt, enumPending := false, aligned := true, syncing := false,
    reports := [{ addr := 0, last := last, overflow := false, grade := s.grade, fw := s.boot.fwVersion }], tokensOut := s.chain.tokensOut ++ [tokenByte 0 gen] } }
  enumCheck (sendFlit 1 (.startFlit gen) s)

/-- A write of CHAIN_CTRL.ENUM_START (10 R333, 17 R506): refused with a live context of another unit or while enumerating
or syncing; else it waits for the frame in progress to publish. -/
def writeEnumStart (s : State) : State :=
  if !s.chain.head then s
  else if s.chain.state = 1 ∨ s.chain.state = 2 ∨ s.hostq.ctxs.any (fun c => c.2.unit != 0 && c.2.state != 0) then
    { s with chain := { s.chain with refused := true } }
  else
    let s := { s with chain := { s.chain with overflow := false } }
    if frameRunning s then { s with chain := { s.chain with enumPending := true } } else beginEnum s

/-- ENUM_START (10 R333). -/
def execEnumStart (t : Nat) (s : State) : Out := runAt t s writeEnumStart

/-- A downstream unit drops its address (10 R333) and passes the flit on. -/
def takeStartFlit (gen : Nat) (s : State) : State :=
  if s.chain.head then s else
  sendFlit 1 (.startFlit gen) { s with chain := { s.chain with
    addressed := false, unit := 0, unitCount := 1, gen := gen % 8, state := 1, aligned := false, pulses := [], announce := none, pulse := none } }

/-- ENUMERATION_START_FLIT (10 R333). -/
def execEnumerationStartFlit (t gen : Nat) (s : State) : Out := runAt t s (takeStartFlit gen)

/-- ENUM_TOKEN (10 R334, R335). A unit with an address tells unit 0 whether it has recorded a fault (R345). -/
def execEnumToken (t byte : Nat) (s : State) : Out :=
  runAt t s fun s =>
    if s.chain.head ∨ s.chain.addressed ∨ s.chain.state ≠ 1 ∨ !tokenOk byte s.chain.gen then s else
    let a := byte % 16 + 1
    if a > 7 then s else
    let down := s.chain.dn.state == 0 || s.chain.dn.state == 4
    let last := a == 7 || down
    let ovf := a == 7 && (s.chain.dn.state == 2 || s.chain.dn.state == 3)
    let s := { s with chain := { s.chain with
      unit := a, addressed := true, state := 2, tokensOut := s.chain.tokensOut ++ [tokenByte a s.chain.gen],
      reportsUp := s.chain.reportsUp ++ [{ addr := a, last := last, overflow := ovf, grade := s.grade, fw := s.boot.fwVersion }],
      unitCount := a + 1 } }
    sendFlit 0 (.remoteFault a (faultN s)) (sendFlit 0 (.report a last ovf s.grade s.boot.fwVersion) s)

/-- A report reaches unit 0, which collects it, or a unit on the way, which passes it up (10 R336) and knows from it that there is such a unit (R342;
DEDUCED, notes/assumptions/117.md). -/
def takeReport (addr : Nat) (last overflow : Bool) (grade fw : Nat) (s : State) : State :=
  if !s.chain.head then
    (if s.chain.addressed then
      sendFlit 0 (.report addr last overflow grade fw) { s with chain := { s.chain with
        reportsUp := s.chain.reportsUp ++ [{ addr := addr, last := last, overflow := overflow, grade := grade, fw := fw }],
        unitCount := max s.chain.unitCount (addr + 1) } }
     else s)
  else if s.chain.state ≠ 1 ∨ s.chain.reports.any (fun x => x.addr == addr) then s
  else collectReport { addr := addr, last := last, overflow := overflow, grade := grade, fw := fw } s

/-- ENUM_REPORT (10 R336). -/
def execEnumReport (t addr : Nat) (last overflow : Bool) (grade fw : Nat) (s : State) : Out :=
  runAt t s (takeReport addr last overflow grade fw)

/-- ENUMERATION_TIMEOUT (10 R336): FAILED after 1 ms, with the gap-free prefix. -/
def execEnumerationTimeout (t : Nat) (s : State) : Out :=
  runAt t s fun s =>
    if !s.chain.head ∨ s.chain.state ≠ 1 ∨ s.dt < s.chain.enumStart + 1000000 then s else
    let n := reportPrefix s.chain.reports
    deviceEvent (raise 151 0 0 { s with chain := { s.chain with unitCount := n, state := 4, syncing := decide (n > 1), syncTicks := 0 } })

/-! ## Time and tick -/

/-- The end of an exchange (10 R339): the unit's DT moves by the offset that equal delays both ways give. -/
def takeTimestamp (t1 t2 t3 : Nat) (s : State) : State :=
  if s.chain.head ∨ !s.chain.addressed then s
  else { s with dt := ((s.dt : Int) + roundDiv (((t2 : Int) - t1) + ((t3 : Int) - s.dt)) 2).toNat }

/-- TIME_SYNC_EXCHANGE (10 R339): a downstream unit sends a timestamp flit to its upstream neighbour; the answer ends the exchange, here or as the flit
that brings it. -/
def execTimeSyncExchange (t : Nat) (answer : Option (Nat × Nat × Nat)) (s : State) : Out :=
  runAt t s fun s =>
    if s.chain.head ∨ !s.chain.addressed then s else
    let t1 := s.dt
    let s := sendFlit 0 (.tsRequest t1) s
    match answer with
    | some (t2, t3, t4) => takeTimestamp t1 t2 t3 (atDt t4 s)
    | none => s

/-- The tick announcement as a downstream unit takes it and passes it on (10 R340, R38). -/
def takeAnnounce (tickDt frame period : Nat) (s : State) : State :=
  if s.chain.head ∨ !s.chain.addressed then s else
  sendFlit 1 (.announce tickDt frame period) { s with
    chain := { s.chain with announce := some (tickDt, frame, period) }, frame := { s.frame with periodNext := period } }

/-- TICK_ANNOUNCE (10 R340): unit 0 sends it at least 10 us in advance and drives TICK_OUT 2,000 ns before the tick. Unit 0 decides the tick (02
R38): what goes down the chain is its own next tick, frame number and FRAME_PERIOD; the operands are what a downstream unit receives. -/
def execTickAnnounce (t tickDt frame period : Nat) (s : State) : Out :=
  runAt t s fun s =>
    if s.chain.head then
      (if s.dt + 10000 ≤ tickDt ∧ tickDue tickDt s then
        sendFlit 1 (.announce tickDt (nextNumber s) s.frame.periodNext) { s with chain := { s.chain with
          announce := some (tickDt, nextNumber s, s.frame.periodNext), tickOut := s.chain.tickOut ++ [tickDt - 2000] } }
       else s)
    else takeAnnounce tickDt frame period s

/-- TICK_IN_PULSE (10 R340, R341): repeated on TICK_OUT; the unit's next tick uses it. -/
def execTickInPulse (t : Nat) (s : State) : Out :=
  runAt t s fun s =>
    if s.chain.head then s else
    { s with chain := { s.chain with tickOut := s.chain.tickOut ++ [t], pulse := if s.chain.addressed then some t else none } }

/-- How far a pulse is from 2,000 ns before the tick (10 R340). -/
def pulseDev (p td : Nat) : Int := (p : Int) - td + 2000

/-- The pulse came within 50 ns of its due time (10 R341). -/
def pulseInTime (s : State) (td : Nat) : Bool :=
  match s.chain.pulse with
  | some p => decide ((16 * pulseDev p td - s.chain.delta).natAbs ≤ 800)
  | none => false

/-- A tick of SYNCING (10 R340): the pulse offset enters the mean, and after 16 of them the unit is aligned. -/
def measurePulse (td : Nat) (s : State) : State :=
  match s.chain.aligned, s.chain.pulse with
  | false, some p =>
    let l := s.chain.pulses ++ [pulseDev p td]
    if l.length ≥ 16 then { s with chain := { s.chain with pulses := [], delta := l.foldl (· + ·) 0, aligned := true, state := 3 } }
    else { s with chain := { s.chain with pulses := l } }
  | _, _ => s

end Sys2Proof.Machine
end

