-- ==== Sys2Proof/Machine/Fp.lean ====
section
/-! DEFINITION. Floating-point arithmetic of the vector and tensor engines: IEEE 754 formats held as bit patterns, every
operation exact and then rounded once to nearest even (04 R129, 05 R165, 06 R202 to R204), correctly rounded square
root, sine, cosine, exponential, tanh and erf. -/

namespace Sys2Proof.Machine

/-- A binary floating-point format: exponent bits, fraction bits, and whether the top exponent codes infinities
(06 R202). FP8_E4M3 has no infinity: its top exponent holds finite values and one NaN. -/
structure Fmt where
  eb : Nat
  mb : Nat
  hasInf : Bool
deriving DecidableEq, Repr

def fp32 : Fmt := ⟨8, 23, true⟩
def fp64 : Fmt := ⟨11, 52, true⟩
def fp16 : Fmt := ⟨5, 10, true⟩
def bf16 : Fmt := ⟨8, 7, true⟩
def fp8e5m2 : Fmt := ⟨5, 2, true⟩
def fp8e4m3 : Fmt := ⟨4, 3, false⟩

/-- A decoded value: NaN, an infinity, or ±m × 2^e. -/
inductive FVal where
  | nan
  | inf (neg : Bool)
  | fin (neg : Bool) (m : Nat) (e : Int)
deriving DecidableEq, Repr

namespace Fmt

/-- Total width in bits. -/
def width (f : Fmt) : Nat := 1 + f.eb + f.mb

/-- Exponent of the least significant bit of a subnormal. -/
def qmin (f : Fmt) : Int := 2 - (2 ^ (f.eb - 1) : Nat) - (f.mb : Int)

/-- The bit pattern of the greatest exponent with a zero fraction. -/
def topBits (f : Fmt) : Nat := (2 ^ f.eb - 1) * 2 ^ f.mb

/-- The largest finite magnitude, as bits. -/
def maxFinite (f : Fmt) : Nat := if f.hasInf then f.topBits - 1 else f.topBits + 2 ^ f.mb - 2

/-- The canonical NaN of the format (06 R202). -/
def nanBits (f : Fmt) : Nat :=
  if f.hasInf then (if f.eb = 5 ∧ f.mb = 2 then 0x7F else f.topBits + 2 ^ (f.mb - 1)) else f.topBits + 2 ^ f.mb - 1

/-- Decode a bit pattern. -/
def decode (f : Fmt) (b : Nat) : FVal :=
  let neg := bitOf b (f.eb + f.mb)
  let ex := bitsOf b f.mb f.eb
  let fr := b % 2 ^ f.mb
  if f.hasInf && ex == 2 ^ f.eb - 1 then (if fr = 0 then .inf neg else .nan)
  else if !f.hasInf && ex == 2 ^ f.eb - 1 && fr == 2 ^ f.mb - 1 then .nan
  else if ex = 0 then .fin neg fr f.qmin
  else .fin neg (fr + 2 ^ f.mb) (f.qmin + (ex : Int) - 1)

def signBit (f : Fmt) (neg : Bool) : Nat := if neg then 2 ^ (f.eb + f.mb) else 0

/-- Round ±m × 2^e to the format's magnitude bits, to nearest even; the result may exceed `maxFinite`. -/
def roundMag (f : Fmt) (m : Nat) (e : Int) : Nat :=
  if m = 0 then 0 else
  let top := e + (m.log2 : Int)
  let q := max (top - (f.mb : Int)) f.qmin
  let mant : Nat := if q ≤ e then m * 2 ^ (e - q).toNat else (roundDiv (m : Int) (2 ^ (q - e).toNat)).toNat
  (q - f.qmin).toNat * 2 ^ f.mb + mant

/-- Encode a value, rounding to nearest even; overflow gives an infinity (IEEE 754), or saturates where the format has
none. -/
def encode (f : Fmt) (v : FVal) : Nat :=
  match v with
  | .nan => f.nanBits
  | .inf s => f.signBit s + (if f.hasInf then f.topBits else f.maxFinite)
  | .fin s m e =>
    let r := f.roundMag m e
    f.signBit s + (if r > f.maxFinite then (if f.hasInf then f.topBits else f.maxFinite) else r)

/-- Encode with saturation of finite values to the largest finite one (tensor conversions, 06 R204). -/
def encodeSat (f : Fmt) (v : FVal) : Nat :=
  match v with
  | .fin s m e => f.signBit s + min (f.roundMag m e) f.maxFinite
  | v => f.encode v

/-- The encoding of `v` saturates under `encodeSat`. -/
def saturates (f : Fmt) (v : FVal) : Bool :=
  match v with
  | .fin _ m e => decide (f.roundMag m e > f.maxFinite)
  | _ => false

def isNan (f : Fmt) (b : Nat) : Bool := f.decode b == .nan
def isFinite (f : Fmt) (b : Nat) : Bool := match f.decode b with | .fin .. => true | _ => false

end Fmt

namespace FVal

/-- Signed mantissa of a finite value at exponent `q ≤ e`. -/
def scaled (neg : Bool) (m : Nat) (e q : Int) : Int :=
  let x : Int := (m * 2 ^ (e - q).toNat : Nat)
  if neg then -x else x

/-- A finite value from a signed mantissa; an exact zero takes the sign `zneg`. -/
def ofInt (zneg : Bool) (x e : Int) : FVal :=
  if x = 0 then .fin zneg 0 0 else .fin (decide (x < 0)) x.natAbs e

def neg : FVal → FVal
  | .nan => .nan
  | .inf s => .inf (!s)
  | .fin s m e => .fin (!s) m e

def abs : FVal → FVal
  | .nan => .nan
  | .inf _ => .inf false
  | .fin _ m e => .fin false m e

/-- Exact sum. An exact zero is +0 unless both operands are −0. -/
def add (a b : FVal) : FVal :=
  match a, b with
  | .nan, _ => .nan
  | _, .nan => .nan
  | .inf s, .inf t => if s = t then .inf s else .nan
  | .inf s, _ => .inf s
  | _, .inf t => .inf t
  | .fin s m e, .fin t n g =>
    let q := min e g
    ofInt (s && t && m == 0 && n == 0) (scaled s m e q + scaled t n g q) q

/-- Exact product. -/
def mul (a b : FVal) : FVal :=
  match a, b with
  | .nan, _ => .nan
  | _, .nan => .nan
  | .inf s, .inf t => .inf (s != t)
  | .inf s, .fin t n _ => if n = 0 then .nan else .inf (s != t)
  | .fin s m _, .inf t => if m = 0 then .nan else .inf (s != t)
  | .fin s m e, .fin t n g => .fin (s != t) (m * n) (e + g)

/-- Quotient with enough bits and a sticky bit for one correct rounding to any format of at most 53 bits. -/
def div (a b : FVal) : FVal :=
  match a, b with
  | .nan, _ => .nan
  | _, .nan => .nan
  | .inf _, .inf _ => .nan
  | .inf s, .fin t _ _ => .inf (s != t)
  | .fin s _ _, .inf t => .fin (s != t) 0 0
  | .fin s m e, .fin t n g =>
    if n = 0 then (if m = 0 then .nan else .inf (s != t))
    else
      let k := 64 + n.log2 + 1
      let num := m * 2 ^ k
      .fin (s != t) (2 * (num / n) + (if num % n = 0 then 0 else 1)) (e - g - (k : Int) - 1)

/-- Square root with enough bits and a sticky bit; −0 gives −0, a negative value NaN. -/
def sqrt (a : FVal) : FVal :=
  match a with
  | .nan => .nan
  | .inf s => if s then .nan else .inf false
  | .fin s m e =>
    if m = 0 then .fin s 0 0 else if s then .nan else
      let k : Nat := if e % 2 = 0 then 128 else 129
      let x := m * 2 ^ k
      let r := floorSqrt x
      .fin false (2 * r + (if r * r = x then 0 else 1)) ((e - (k : Int)) / 2 - 1)

/-- Exact comparison; `none` when an operand is NaN. -/
def cmp (a b : FVal) : Option Ordering :=
  match a, b with
  | .nan, _ => none
  | _, .nan => none
  | .inf s, .inf t => some (if s = t then .eq else if s then .lt else .gt)
  | .inf s, .fin .. => some (if s then .lt else .gt)
  | .fin .., .inf t => some (if t then .gt else .lt)
  | .fin s m e, .fin t n g => let q := min e g; some (compare (scaled s m e q) (scaled t n g q))

def lt (a b : FVal) : Bool := cmp a b == some .lt
def le (a b : FVal) : Bool := cmp a b == some .lt || cmp a b == some .eq

/-- Exact value of an integer. -/
def ofI (x : Int) : FVal := ofInt false x 0

/-- Nearest integer, ties to even; `none` for NaN and infinities. -/
def toIntRound : FVal → Option Int
  | .fin s m e => some <| if e ≥ 0 then scaled s m e 0
      else roundDiv (if s then -(m : Int) else (m : Int)) (2 ^ (-e).toNat)
  | _ => none

/-- Greatest integer not above the value. -/
def floor : FVal → Option Int
  | .fin s m e => some <| if e ≥ 0 then scaled s m e 0 else (if s then -(m : Int) else (m : Int)) / ((2 ^ (-e).toNat : Nat) : Int)
  | _ => none

def isFin : FVal → Bool
  | .fin .. => true
  | _ => false

end FVal

/-- Fractional bits of the fixed-point evaluation of transcendental functions. -/
def fxBits : Nat := 320
/-- floor(π × 2^320). -/
def fxPi : Int := 0x3243f6a8885a308d313198a2e03707344a4093822299f31d0082efa98ec4e6c89452821e638d01377
/-- floor(ln 2 × 2^320). -/
def fxLn2 : Int := 0xb17217f7d1cf79abc9e3b39803f2f6af40f343267298b62d8a0d175b8baafa2be7b876206debac98
/-- floor(2/√π × 2^320). -/
def fxTwoOverSqrtPi : Int := 0x120dd750429b6d11ae3a914fed7fd8688281341d7587cea2e7342b06199cc416180eb39f0b24e1e22

def fxOne : Int := (2 ^ fxBits : Nat)
def fxMul (a b : Int) : Int := a * b / fxOne

/-- Fixed-point image of a finite value (exact when its exponent is at least −320). -/
def fxOf : FVal → Int
  | .fin s m e => let x : Int := if e + (fxBits : Int) ≥ 0 then (m * 2 ^ (e + (fxBits : Int)).toNat : Nat)
      else (m / 2 ^ (-(e + (fxBits : Int))).toNat : Nat)
    if s then -x else x
  | _ => 0

/-- An irrational fixed-point result, with a sticky bit so that it is never taken for a tie. -/
def ofFx (x : Int) : FVal := .fin (decide (x < 0)) (2 * x.natAbs + 1) (-(fxBits : Int) - 1)

/-- Taylor sum `t + t·x²/(k(k+1))·…` with alternating or constant sign. -/
def taylorGo (x2 : Int) (sg : Int) : Nat → Nat → Int → Int → Int
  | 0, _, _, acc => acc
  | n + 1, k, t, acc => let t' := sg * fxMul t x2 / ((k * (k + 1) : Nat) : Int); taylorGo x2 sg n (k + 2) t' (acc + t')

def fxSinSmall (r : Int) : Int := taylorGo (fxMul r r) (-1) 48 2 r r
def fxCosSmall (r : Int) : Int := taylorGo (fxMul r r) (-1) 48 1 fxOne fxOne

/-- (sin, cos) of a fixed-point angle, reduced by multiples of π/2. -/
def fxSinCos (x : Int) : Int × Int :=
  let h := fxPi / 2
  let n := (x + h / 2) / h
  let r := x - n * fxPi / 2
  let s := fxSinSmall r
  let c := fxCosSmall r
  match (n % 4).toNat with
  | 0 => (s, c)
  | 1 => (c, -s)
  | 2 => (-s, -c)
  | _ => (-c, s)

/-- Sine (05 R165, correctly rounded by the encoding that follows). -/
def fvSin : FVal → FVal
  | .fin s m e => if m = 0 then .fin s 0 0 else ofFx (fxSinCos (fxOf (.fin s m e))).1
  | _ => .nan

/-- Cosine. -/
def fvCos : FVal → FVal
  | .fin s m e => if m = 0 then .fin false 1 0 else ofFx (fxSinCos (fxOf (.fin s m e))).2
  | _ => .nan

def expGo (r : Int) : Nat → Nat → Int → Int → Int
  | 0, _, _, acc => acc
  | n + 1, k, t, acc => let t' := fxMul t r / (k : Int); expGo r n (k + 1) t' (acc + t')

/-- exp of a fixed-point value as (mantissa, binary exponent): exp(x) = (fst / 2^320) × 2^snd. -/
def fxExp (x : Int) : Int × Int :=
  let k := x / fxLn2
  (expGo (x - k * fxLn2) 90 1 fxOne fxOne, k)

/-- Exponential; arguments beyond ±1,024 give the limit values. -/
def fvExp : FVal → FVal
  | .nan => .nan
  | .inf s => if s then .fin false 0 0 else .inf false
  | .fin s m e =>
    if m = 0 then .fin false 1 0
    else if e + (m.log2 : Int) ≥ 11 then (if s then .fin false 1 (-4096) else .fin false 1 4096)
    else let (v, k) := fxExp (fxOf (.fin s m e)); .fin false (2 * v.natAbs + 1) (k - (fxBits : Int) - 1)

/-- Hyperbolic tangent. -/
def fvTanh : FVal → FVal
  | .nan => .nan
  | .inf s => .fin s 1 0
  | .fin s m e =>
    if m = 0 then .fin s 0 0
    else if e + (m.log2 : Int) ≥ 6 then .fin s (2 ^ 200 - 1) (-200)
    else if e + (m.log2 : Int) < -100 then .fin s (m * 2 ^ 200 - 1) (e - 200)
    else
      let (v, k) := fxExp (-(2 * fxOf (.fin false m e)))
      let q : Int := if k ≥ 0 then v * (2 ^ k.toNat : Nat) else v / (2 ^ (-k).toNat : Nat)
      let r := (fxOne - q) * fxOne / (fxOne + q)
      .fin s (2 * r.natAbs + 1) (-(fxBits : Int) - 1)

def erfGo (x2 : Int) : Nat → Nat → Int → Int → Int
  | 0, _, _, acc => acc
  | n + 1, k, t, acc => let t' := -(fxMul t x2 / (k : Int)); erfGo x2 n (k + 1) t' (acc + t' / ((2 * k + 1 : Nat) : Int))

/-- Error function. -/
def fvErf : FVal → FVal
  | .nan => .nan
  | .inf s => .fin s 1 0
  | .fin s m e =>
    if m = 0 then .fin s 0 0
    else if e + (m.log2 : Int) ≥ 3 then .fin s (2 ^ 200 - 1) (-200)
    else
      let x := fxOf (.fin false m e)
      let r := fxMul fxTwoOverSqrtPi (erfGo (fxMul x x) 400 1 x x)
      .fin s (2 * r.natAbs + 1) (-(fxBits : Int) - 1)

/-- One rounded binary32 operation on bit patterns (04 R129). -/
def f32 (v : FVal) : Nat := fp32.encode v
def d32 (b : Nat) : FVal := fp32.decode b
def fadd (a b : Nat) : Nat := f32 ((d32 a).add (d32 b))
def fsub (a b : Nat) : Nat := f32 ((d32 a).add (d32 b).neg)
def fmul (a b : Nat) : Nat := f32 ((d32 a).mul (d32 b))
def fdiv (a b : Nat) : Nat := f32 ((d32 a).div (d32 b))
def fsqrt (a : Nat) : Nat := f32 (d32 a).sqrt
def fneg (a : Nat) : Nat := f32 (d32 a).neg
def fofInt (x : Int) : Nat := f32 (FVal.ofI x)
def fsin (a : Nat) : Nat := f32 (fvSin (d32 a))
def fcos (a : Nat) : Nat := f32 (fvCos (d32 a))
def ffin (a : Nat) : Bool := fp32.isFinite a
def fone : Nat := 0x3F800000
def ftwo : Nat := 0x40000000
/-- FP32(2π × 2^-32), the LSB of a yaw in radians (04 R130). -/
def fYawLsb : Nat := 0x30C90FDB

/-- One rounded binary64 operation on bit patterns. -/
def f64 (v : FVal) : Nat := fp64.encode v
def d64 (b : Nat) : FVal := fp64.decode b
def dadd (a b : Nat) : Nat := f64 ((d64 a).add (d64 b))
def dsub (a b : Nat) : Nat := f64 ((d64 a).add (d64 b).neg)
def dmul (a b : Nat) : Nat := f64 ((d64 a).mul (d64 b))
def ddiv (a b : Nat) : Nat := f64 ((d64 a).div (d64 b))
def dsqrt (a : Nat) : Nat := f64 (d64 a).sqrt
def dofInt (x : Int) : Nat := f64 (FVal.ofI x)
/-- FP32 to FP64, exact. -/
def f2d (a : Nat) : Nat := f64 (d32 a)
def d2f (a : Nat) : Nat := f32 (d64 a)
def dlt (a b : Nat) : Bool := (d64 a).lt (d64 b)
def dle (a b : Nat) : Bool := (d64 a).le (d64 b)

/-- Metres (a decoded value) to S15.16, round to nearest even, before any range test (00 R8). -/
def toS1516 (v : FVal) : Option Int := (v.mul (.fin false 1 16)).toIntRound

end Sys2Proof.Machine
end

