-- ==== Sys2Proof/Machine/Poly.lean ====
section
/-! DEFINITION. The derived boundary of a polytope (04 R141), in exact rational arithmetic: its vertices, whether its faces close, and the distance
from a point to its boundary. Coordinates are relative to the record's centre, in U. -/

namespace Sys2Proof.Machine

/-- A binary32 value in units of 2^-149, exact. -/
def dyadic (b : Nat) : Int := match fp32.decode b with | .fin s m e => FVal.scaled s m e (-149) | _ => 0

/-- A vector of integers. -/
abbrev V3 := Int × Int × Int

def vdot (a b : V3) : Int := a.1 * b.1 + a.2.1 * b.2.1 + a.2.2 * b.2.2
def vcrossI (a b : V3) : V3 := (a.2.1 * b.2.2 - a.2.2 * b.2.1, a.2.2 * b.1 - a.1 * b.2.2, a.1 * b.2.1 - a.2.1 * b.1)
def vaddI (a b : V3) : V3 := (a.1 + b.1, a.2.1 + b.2.1, a.2.2 + b.2.2)
def vmulI (k : Int) (a : V3) : V3 := (k * a.1, k * a.2.1, k * a.2.2)

/-- A face plane: n · x ≤ d with n in units of 2^-149 and d scaled alike (03 R87). -/
structure FPlane where
  n : V3
  d : Int

def planeOf (f : List Nat × Int) : FPlane :=
  { n := (dyadic (f.1.getD 0 0), dyadic (f.1.getD 1 0), dyadic (f.1.getD 2 0)), d := 1000 * f.2 * ((2 ^ 149 : Nat) : Int) }

/-- A point as a numerator over a positive denominator. -/
abbrev QPoint := V3 × Int

/-- The same point with a positive denominator; none for denominator 0. -/
def qpoint (x : V3) (d : Int) : Option QPoint := if d = 0 then none else if d < 0 then some (vmulI (-1) x, -d) else some (x, d)

/-- The point lies in every half space. -/
def inPlanes (l : List FPlane) (x : QPoint) : Bool := l.all (fun f => decide (vdot f.n x.1 ≤ f.d * x.2))

/-- The common point of three planes. -/
def meet3 (a b c : FPlane) : Option QPoint :=
  qpoint (vaddI (vmulI a.d (vcrossI b.n c.n)) (vaddI (vmulI b.d (vcrossI c.n a.n)) (vmulI c.d (vcrossI a.n b.n)))) (vdot a.n (vcrossI b.n c.n))

/-- The point of the common line of two planes that is nearest to `p`. -/
def near2 (p : V3) (a b : FPlane) : Option QPoint :=
  let u := vcrossI a.n b.n
  qpoint (vaddI (vaddI (vmulI a.d (vcrossI b.n u)) (vmulI b.d (vcrossI u a.n))) (vmulI (vdot p u) u)) (vdot u u)

/-- The point of a plane that is nearest to `p`. -/
def near1 (p : V3) (a : FPlane) : Option QPoint :=
  qpoint (vaddI (vmulI (vdot a.n a.n) p) (vmulI (a.d - vdot a.n p) a.n)) (vdot a.n a.n)

/-- Pairs of distinct places of a list, in order. -/
def pairsOf {α : Type} : List α → List (α × α)
  | [] => []
  | x :: r => r.map (fun y => (x, y)) ++ pairsOf r

/-- Triples of distinct places. -/
def triplesOf {α : Type} : List α → List (α × α × α)
  | [] => []
  | x :: r => (pairsOf r).map (fun y => (x, y.1, y.2)) ++ triplesOf r

/-- The vertices (04 R141). -/
def polyVertices (l : List FPlane) : List QPoint := ((triplesOf l).filterMap (fun t => meet3 t.1 t.2.1 t.2.2)).filter (inPlanes l)

/-- The faces close: there is a vertex, and no edge runs to infinity (04 R141). -/
def facesClose (l : List FPlane) : Bool :=
  let away (u : V3) : Bool := u != (0, 0, 0) && l.all (fun f => decide (vdot f.n u ≤ 0))
  !(polyVertices l).isEmpty && !(pairsOf l).any (fun x => let u := vcrossI x.1.n x.2.n; away u || away (vmulI (-1) u))

/-- The polytope is ball-cut (04 R141): its faces do not close, or a vertex lies beyond `bound_r`. -/
def ballCut (l : List FPlane) (boundR : Nat) : Bool :=
  !facesClose l || (polyVertices l).any (fun v => decide (vdot v.1 v.1 > ((2048 * boundR : Nat) : Int) * ((2048 * boundR : Nat) : Int) * v.2 * v.2))

/-- Points of the boundary, the nearest to `p` among them: on each face, each edge, each vertex. -/
def boundaryPoints (l : List FPlane) (p : V3) : List QPoint :=
  ((l.filterMap (near1 p)) ++ (pairsOf l).filterMap (fun x => near2 p x.1 x.2)).filter (inPlanes l) ++ polyVertices l

/-- Squared distance from `p` to a point, as a quotient. -/
def qdist (p : V3) (x : QPoint) : Nat × Nat :=
  let v := vaddI x.1 (vmulI (-x.2) p)
  ((vdot v v).natAbs, (x.2 * x.2).natAbs)

/-- The least squared distance to the boundary. -/
def boundarySq (l : List FPlane) (p : V3) : Option (Nat × Nat) :=
  (boundaryPoints l p).foldl (fun m x => let d := qdist p x
    match m with | none => some d | some y => if d.1 * y.2 < y.1 * d.2 then some d else some y) none

/-- Distance to the nearest point of the derived boundary, rounded up; none for a ball-cut polytope (04 R140, R141). -/
def polyBoundary (faces : List (List Nat × Int)) (boundR : Nat) (p : V3) : Option Int :=
  let l := faces.map planeOf
  if ballCut l boundR then none else (boundarySq l p).map (fun d => ((ceilSqrt (ceilDiv d.1 d.2) : Nat) : Int))

/-- The greatest face-plane distance of a point, rounded down and up (04 R140). -/
def planeEnds (faces : List (List Nat × Int)) (p : V3) : Int × Int :=
  let m : Int := ((2 ^ 149 : Nat) : Int)
  match faces.map (fun f => let q := planeOf f; vdot q.n p - q.d) with
  | [] => (0, 0)
  | x :: r => let t := r.foldl max x; (t / m, -((-t) / m))

/-- a + b √q ≤ 0, exactly. -/
def leRoot (a b : Int) (q : Nat) : Bool :=
  if a ≤ 0 ∧ b ≤ 0 then true
  else if 0 < a ∧ 0 ≤ b then false
  else if a ≤ 0 then decide (b * b * (q : Int) ≤ a * a)
  else decide (a * a ≤ b * b * (q : Int))

/-- Among the points at distance `rad` from the centre on a flat, given by its points `c` and `m` nearest to the centre and to `p`: the one nearest to `p`
lies in every half space and within `r` of `p`. -/
def rimMeets (l : List FPlane) (rad r : Int) (p : V3) (c m : QPoint) : Bool :=
  let den := c.2 * m.2
  let cc := vmulI m.2 c.1
  let v := vaddI (vmulI c.2 m.1) (vmulI (-1) cc)
  let w := vaddI (vmulI den p) (vmulI (-c.2) m.1)
  let rim := rad * rad * den * den - vdot cc cc
  let vv := vdot v v
  let root := (vv * rim).natAbs
  decide (0 ≤ rim) && (decide (0 < vv) || rim == 0) && leRoot (vdot w w + vv + rim - r * r * den * den) (-2) root &&
  (if vv = 0 then inPlanes l c else l.all (fun f => leRoot ((vdot f.n cc - f.d * den) * vv) (vdot f.n v) root))

/-- A polytope, the part of its half spaces inside the ball of radius `bound_r` about its centre (03 R87), meets the ball of radius `r` about `p` (04
R139), decided exactly. The polytope's point nearest to `p` is the half spaces' own nearest point, where that lies in the bounding ball; else it lies on
that ball, and is the nearest to `p` of the ball's points on the whole space, on one face plane or on the line of two. -/
def polyMeets (faces : List (List Nat × Int)) (boundR : Nat) (p : V3) (r : Int) : Bool :=
  let l := faces.map planeOf
  let rad : Int := ((2048 * boundR : Nat) : Int)
  let own := (if inPlanes l (p, 1) then [((p, 1) : QPoint)] else []) ++ boundaryPoints l p
  let flats : List (Option QPoint × Option QPoint) :=
    [(some ((0, 0, 0), 1), some (p, 1))] ++ l.map (fun f => (near1 (0, 0, 0) f, near1 p f)) ++
    (pairsOf l).map (fun x => (near2 (0, 0, 0) x.1 x.2, near2 p x.1 x.2))
  own.any (fun x => let d := qdist p x
    decide (vdot x.1 x.1 ≤ rad * rad * x.2 * x.2) && decide ((d.1 : Int) ≤ r * r * (d.2 : Int))) ||
  flats.any (fun x => match x with | (some c, some m) => rimMeets l rad r p c m | _ => false)

end Sys2Proof.Machine
end

