-- ==== Sys2Proof/Machine/Vector.lean ====
section
/-! DEFINITION. The vector engine's arithmetic: FP32 lanes (05 R165, 06 R213), sums of products (05 R177) and the block LDLᵀ with its pivot
test (05 R176 to R178). -/

namespace Sys2Proof.Machine

/-! ## FP32 operations -/

def fNan : Nat := 0x7FC00000
def fHalf : Nat := 0x3F000000

/-- MAX and MIN (06 R213): NaN propagates; MAX(−0, +0) is +0 and MIN(−0, +0) is −0. -/
def fpick (isMax : Bool) (a b : Nat) : Nat :=
  if fp32.isNan a || fp32.isNan b then fNan
  else match (d32 a).cmp (d32 b) with
    | some .lt => if isMax then b else a
    | some .gt => if isMax then a else b
    | _ => if isMax then (if bitOf a 31 then b else a) else (if bitOf a 31 then a else b)

def fexp (a : Nat) : Nat := f32 (fvExp (d32 a))

/-- SIGMOID (06 R213). -/
def fsigmoid (a : Nat) : Nat := fdiv fone (fadd fone (fexp (fneg a)))

/-- Clamp to [lo, hi]. -/
def fclamp (lo hi x : Nat) : Nat := fpick false (fpick true x lo) hi

/-- One lane of the vector engine (06 R213). The third operand is SELECT's second source and CLAMP's upper end. -/
def vecLane (op : VecOp) (a b c : Nat) : Nat :=
  match op with
  | .add => fadd a b
  | .sub => fsub a b
  | .mul => fmul a b
  | .div => fdiv a b
  | .max => fpick true a b
  | .min => fpick false a b
  | .sqrt => fsqrt a
  | .sin => fsin a
  | .cos => fcos a
  | .abs => if fp32.isNan a then fNan else a % 2 ^ 31
  | .neg => if fp32.isNan a then fNan else a ^^^ 2 ^ 31
  | .exp => fexp a
  | .tanh => f32 (fvTanh (d32 a))
  | .erf => f32 (fvErf (d32 a))
  | .relu => fpick true a 0
  | .relu6 => fclamp 0 0x40C00000 a
  | .leaky => if (FVal.fin false 0 0).le (d32 a) then a else fmul b a
  | .sigmoid => fsigmoid a
  | .gelu => fmul (fmul a fHalf) (fadd fone (f32 (fvErf (d32 (fmul a 0x3F3504F3)))))
  | .silu => fmul a (fsigmoid a)
  | .hardSigmoid => fclamp 0 fone (fadd (fdiv a 0x40C00000) fHalf)
  | .select => if a % 2 ^ 31 = 0 then c else b
  | .clamp => fclamp b c a

/-! ## Sums of products -/

/-- Sum in FP64 in ascending index. -/
def dsum (l : List Nat) : Nat := l.foldl dadd 0

/-- A dot product (05 R177): FP64 in ascending index, rounded to FP32 once. -/
def dotF (a b : List Nat) : Nat := d2f ((List.zipWith (fun x y => dmul (f2d x) (f2d y)) a b).foldl dadd 0)

/-! ## Factorisation -/

/-- State of a block LDLᵀ: rows of L so far, pivots (binary64), and whether a pivot has failed. -/
structure Ldlt where
  l : List (List Nat) := []
  d : List Nat := []
  bad : Bool := false

/-- Row `i` of an LDLᵀ (05 R177, R178): entries L_ij in FP32, the pivot in FP64, every sum in FP64 in ascending index. -/
def ldltRow (n : Nat) (m : List Nat) (delta tau : Nat) (x : Ldlt) (i : Nat) : Ldlt :=
  if x.bad then x else
  let at_ (r c : Nat) : Nat := m.getD (r * n + c) 0
  let row := (List.range i).foldl (fun (r : List Nat) j =>
    let lj := x.l.getD j []
    let t := (List.range j).foldl (fun t k => dsub t (dmul (dmul (f2d (r.getD k 0)) (x.d.getD k 0)) (f2d (lj.getD k 0)))) (f2d (at_ i j))
    r ++ [d2f (ddiv t (x.d.getD j 0))]) []
  let mii := f2d (d2f (dadd (f2d (at_ i i)) delta))
  let d := (List.range i).foldl (fun t k => dsub t (dmul (dmul (f2d (row.getD k 0)) (x.d.getD k 0)) (f2d (row.getD k 0)))) mii
  let lim := dmul tau (if dlt (dofInt 1) (mii % 2 ^ 63) then mii % 2 ^ 63 else dofInt 1)
  { l := x.l ++ [row ++ [fone]], d := x.d ++ [d], bad := !dlt lim d }

/-- Block LDLᵀ of an n × n matrix, row-major (05 R176 FACTOR). -/
def ldltOf (n : Nat) (m : List Nat) (delta tau : Nat) : Ldlt := (List.range n).foldl (ldltRow n m delta tau) {}

end Sys2Proof.Machine
end

