-- ==== Sys2Proof/Machine/World.lean ====
section
/-! DEFINITION. The world model (03): brick index and pool, the Atomiser's integration, distances, primitives, the seal,
the window and the resident set; and the meanings of the map rows but hazards. -/

namespace Sys2Proof.Machine

/-! ## Keys and the index -/

/-- The six bytes of a key (03 R83). -/
def keyBytes (k : Key) : Bytes := leBytes 2 (unsignedOf 16 k.x) ++ leBytes 2 (unsignedOf 16 k.y) ++ leBytes 2 (unsignedOf 16 k.z)

def keyHash (k : Key) : Nat := crc32c (keyBytes k)

/-- Home entry (03 R83). -/
def keyHome (k : Key) : Nat := keyHash k % 2 ^ 24

/-- Stack that holds a brick's slots (03 R85). -/
def keyStack (k : Key) : Nat := keyHash k % 4

/-- A key in the range of R71. -/
def keyInRange (k : Key) : Bool :=
  let ok (a : Int) : Bool := decide (-32768 ≤ a) && decide (a ≤ 32767)
  ok k.x && ok k.y && ok k.z

/-- Canonical order (03 R72): ascending z, then y, then x. -/
def canonLe (a b : Key) : Bool :=
  decide (a.z < b.z) || (a.z == b.z && (decide (a.y < b.y) || (a.y == b.y && decide (a.x ≤ b.x))))

/-- Sealed pointer of an entry, when valid (03 R83). -/
def sealedPtr (e : IdxEntry) : Option Nat :=
  if e.sealedB then (if e.validB then some e.ptrB else none) else (if e.validA then some e.ptrA else none)

/-- The other pointer, which holds the open copy (03 R82). -/
def openPtr (e : IdxEntry) : Nat := if e.sealedB then e.ptrA else e.ptrB

/-- A probe from step `n` on (03 R83): the entry with the key that decides the look-up, and the entries visited. -/
def probeGo (idx : List (Nat × IdxEntry)) (flac : Bool) (k : Key) (home : Nat) : Nat → Nat → Option (Nat × IdxEntry) × Nat
  | 0, n => (none, n)
  | f + 1, n =>
    let p := (home + n) % 2 ^ 24
    match lookupO p idx with
    | none => (none, n + 1)
    | some e =>
      if flac && e.fresh then (none, n + 1)
      else if e.tomb || e.key != k || (flac && (sealedPtr e).isNone) then probeGo idx flac k home f (n + 1)
      else (some (p, e), n + 1)

/-- A probe of up to 256 entries (03 R83). -/
def probe (idx : List (Nat × IdxEntry)) (flac : Bool) (k : Key) : Option (Nat × IdxEntry) × Nat := probeGo idx flac k (keyHome k) 256 0

/-- Slot of a found entry in a view (03 R83 view_slot). -/
def viewSlot (flac : Bool) (e : IdxEntry) : Option Nat :=
  if flac then sealedPtr e
  else if e.del then none
  else if e.isOpen then some (openPtr e)
  else sealedPtr e

/-- The content of a brick in the open view (03 R83). -/
def openBrick (w : World) (k : Key) : Option (List Vox) :=
  match (probe w.index false k).1 with
  | none => none
  | some (_, e) => (viewSlot false e).bind (fun s => lookupO s w.pool)

/-- Keys of the bricks present in the open view, in canonical order. -/
def openKeys (w : World) : List Key :=
  sortBy canonLe ((w.index.filter (fun p => !p.2.tomb && (viewSlot false p.2).isSome)).map (fun p => p.2.key))

/-- Free slots of one stack (01 R27, 03 R85): slot s lies on stack s mod 4. -/
def usedOf (w : World) (st : Nat) : List Nat := ((w.pool.filter (fun p => p.1 % 4 == st)).map (fun p => p.1 / 4))

/-- A slot of stack `st`; which one is a free value (notes/assumptions/10.md). -/
def takeSlot (w : World) (fresh st : Nat) : Option Nat :=
  let used := usedOf w st
  if used.length ≥ 4194304 then none
  else some (4 * kthFree used (Config.poolPick fresh % (4194304 - used.length)) + st)

/-- The first empty or TOMB entry on the key's probe (03 R85), and whether it is empty. -/
def freeEntry (idx : List (Nat × IdxEntry)) (k : Key) : Option (Nat × Bool) :=
  ((List.range 256).map (fun n => (keyHome k + n) % 2 ^ 24)).findSome? (fun p =>
    match lookupO p idx with
    | none => some (p, true)
    | some e => if e.tomb then some (p, false) else none)

/-- A new brick's voxels (03 R95). -/
def freshBrick : List Vox := List.replicate 512 {}

/-- A change of the world that may draw free values: the world and the counter. -/
structure WS where
  w : World
  fresh : Nat

def addDirty (k : Key) (w : World) : World := if w.dirty.contains k then w else { w with dirty := w.dirty ++ [k] }

/-- Give an entry an open copy in slot `s` (03 R102 step 3). -/
def entryOpen (e : IdxEntry) (s : Nat) : IdxEntry :=
  let e := { e with isOpen := true, del := false }
  if e.sealedB then { e with ptrA := s, validA := true } else { e with ptrB := s, validB := true }

/-- Write the open copy of a brick, made at its first change (03 R85, R102); `none` when the capacity of R85 is met. An entry
marked DELETE in this epoch is taken again for its key. -/
def writeBrick (k : Key) (vs : List Vox) (x : WS) : Option WS :=
  match (probe x.w.index false k).1 with
  | some (p, e) =>
    if e.isOpen then
      some { x with w := addDirty k { x.w with
        index := insertKey p { e with del := false } x.w.index, pool := insertKey (openPtr e) vs x.w.pool } }
    else
      (takeSlot x.w x.fresh (keyStack k)).map (fun s =>
        { w := addDirty k { x.w with index := insertKey p (entryOpen e s) x.w.index, pool := insertKey s vs x.w.pool },
          fresh := x.fresh + 1 })
  | none =>
    match freeEntry x.w.index k, takeSlot x.w x.fresh (keyStack k) with
    | some (p, empty), some s =>
      some { w := addDirty k { x.w with index := insertKey p (entryOpen { key := k, fresh := empty } s) x.w.index,
                                        pool := insertKey s vs x.w.pool },
             fresh := x.fresh + 1 }
    | _, _ => none

/-- Mark a brick DELETE in the open epoch (03 R90 EVICT). -/
def deleteBrick (w : World) (k : Key) : World :=
  match (probe w.index false k).1 with
  | some (p, e) => if (viewSlot false e).isSome then addDirty k { w with index := insertKey p { e with del := true } w.index } else w
  | none => w

/-! ## Distances -/

/-- Absolute voxel indices. -/
abbrev VIdx := Int × Int × Int

def voxAt (k : Key) (v : Nat) : VIdx := (8 * k.x + ((v % 8 : Nat) : Int), 8 * k.y + ((v / 8 % 8 : Nat) : Int), 8 * k.z + ((v / 64 : Nat) : Int))

def voxKey (p : VIdx) : Key := { x := p.1 / 8, y := p.2.1 / 8, z := p.2.2 / 8 }

def voxNo (p : VIdx) : Nat := (p.1 % 8 + 8 * (p.2.1 % 8) + 64 * (p.2.2 % 8)).toNat

/-- Squared distance from a voxel centre to another voxel's cube, in (4 mm)². -/
def cubeSq (a b : VIdx) : Nat :=
  let t (x y : Int) : Nat := let g := (x - y).natAbs; if g = 0 then 0 else (2 * g - 1) * (2 * g - 1)
  t a.1 b.1 + t a.2.1 b.2.1 + t a.2.2 b.2.2

/-- The least squared distance to a list of cubes. -/
def leastSq (a : VIdx) (l : List VIdx) : Option Nat :=
  l.foldl (fun m b => let d := cubeSq a b; match m with | none => some d | some x => some (min x d)) none

/-- `dist` of a voxel centre (03 R78): positive to the occupied cubes, negative to the free cubes next to them. -/
def voxDist (occ shell : List VIdx) (a : VIdx) (isOcc : Bool) : Int :=
  if isOcc then
    match leastSq a shell with
    | some d => satI16 (-(ceilSqrt (16384 * d) : Nat))
    | none => -32768
  else
    match leastSq a occ with
    | some d => satI16 ((floorSqrt (16384 * d) : Nat) : Int)
    | none => 32767

/-- The free cubes that share a face with an occupied one; the nearest free cube to an occupied voxel is among them. -/
def freeShell (occ : List VIdx) : List VIdx :=
  (occ.flatMap (fun (x, y, z) => [(x + 1, y, z), (x - 1, y, z), (x, y + 1, z), (x, y - 1, z), (x, y, z + 1), (x, y, z - 1)])).filter
    (fun p => !occ.contains p)

/-- Occupied voxels of a brick. -/
def brickOcc (k : Key) (vs : List Vox) : List VIdx :=
  (vs.zipIdx.filter (fun x => x.1.occ)).map (fun x => voxAt k x.2)

/-- A brick with its distances computed anew. -/
def redist (occ shell : List VIdx) (k : Key) (vs : List Vox) : List Vox :=
  vs.zipIdx.map (fun x => { x.1 with dist := voxDist occ shell (voxAt k x.2) x.1.occ })

/-- The bricks of the open view with the given ones in place, in canonical order. -/
def withChanges (w : World) (ovr : List (Key × List Vox)) (gone : List Key) : List (Key × List Vox) :=
  let keys := sortBy canonLe ((openKeys w ++ (ovr.map (fun o => o.1)).filter (fun k => (openBrick w k).isNone)).filter (fun k => !gone.contains k))
  keys.map (fun k => match ovr.find? (fun o => o.1 == k) with
    | some o => o
    | none => (k, (openBrick w k).getD freshBrick))

/-- The bricks whose content changes once distances hold again (03 R78, R95): the changed ones in their order, then others in
canonical order. -/
def settled (w : World) (ovr : List (Key × List Vox)) (gone : List Key) : List (Key × List Vox) :=
  let all := withChanges w ovr gone
  let occ := all.flatMap (fun b => brickOcc b.1 b.2)
  let shell := freeShell occ
  let done := all.map (fun b => (b.1, redist occ shell b.1 b.2))
  let first := ovr.filterMap (fun o => done.find? (fun b => b.1 == o.1))
  let rest := done.filter (fun b => !ovr.any (fun o => o.1 == b.1))
  (first ++ rest).filter (fun b => openBrick w b.1 != some b.2)

/-- Apply a group's changes: deletions, then the changed bricks. `none` when the limit of 3,072 touched bricks (03 R98) or the
capacity of R85 refuses it; the flag says that R85 did. -/
def applyChanges (ovr : List (Key × List Vox)) (gone : List Key) (x : WS) : Except Bool WS :=
  let w := gone.foldl deleteBrick x.w
  let ch := settled x.w ovr gone
  let r := ch.foldl (fun (acc : Option WS) b => acc.bind (writeBrick b.1 b.2)) (some { x with w := w })
  match r with
  | none => .error true
  | some y => if y.w.dirty.length > 3072 then .error false else .ok y

/-! ## Rays -/

/-- rot(q, v) in FP64, left to right (03 R92). -/
def rotD (q : List Nat) (v : Nat × Nat × Nat) : Nat × Nat × Nat :=
  let w := q.getD 0 0; let a := q.getD 1 0; let b := q.getD 2 0; let c := q.getD 3 0
  let two := dofInt 2
  let cross (p q r x y z : Nat) : Nat × Nat × Nat :=
    (dsub (dmul q z) (dmul r y), dsub (dmul r x) (dmul p z), dsub (dmul p y) (dmul q x))
  let u := cross a b c v.1 v.2.1 v.2.2
  let w2 := dmul two w
  let d := cross (dmul two a) (dmul two b) (dmul two c) u.1 u.2.1 u.2.2
  (dadd (dadd v.1 (dmul w2 u.1)) d.1, dadd (dadd v.2.1 (dmul w2 u.2.1)) d.2.1, dadd (dadd v.2.2 (dmul w2 u.2.2)) d.2.2)

/-- Sum of squares minus (1 ± 2^-20)² of binary32 values: the length differs from 1 by at most 2^-20 (03 R88), exactly. -/
def unitLength (l : List Nat) : Bool :=
  l.all ffin &&
  let sq := l.foldl (fun acc b => acc.add ((d32 b).mul (d32 b))) (FVal.fin false 0 0)
  let lo := FVal.fin false ((2 ^ 20 - 1) ^ 2) (-40)
  let hi := FVal.fin false ((2 ^ 20 + 1) ^ 2) (-40)
  lo.le sq && sq.le hi

/-- Header fields of an ingest (03 R91). -/
def hSource (h : Bytes) : Nat := fieldN h 0 1
def hCount (h : Bytes) : Nat := if hSource h < 2 then fieldN h 4 2 * fieldN h 6 2 else fieldN h 8 4
def hTau (h : Bytes) : Nat := if fieldN h 0xC 2 = 0 then 64 else fieldN h 0xC 2
def hMaxRange (h : Bytes) : Nat := if fieldN h 0xE 2 = 0 then 65535 else fieldN h 0xE 2
def hRot (h : Bytes) : List Nat := (List.range 4).map (fun i => fieldN h (0x20 + 4 * i) 4)
def hF32 (h : Bytes) (o : Nat) : Nat := f2d (fieldN h o 4)

/-- A sensor-frame point in FP64 metres with its class and forecast index. -/
structure RawPt where
  x : Nat
  y : Nat
  z : Nat
  cls : Nat
  fi : Nat

/-- Millimetres, of τ or of a voxel centre, in FP64 metres: one rounded division by 1,000 (DESIGN CHOICE, notes/assumptions/134.md; 03 R93 gives no
conversion). -/
def mmD (n : Int) : Nat := ddiv (dofInt n) (dofInt 1000)

/-- The sensor-frame point of a pixel (03 R92): ((u + 0.5 − cx) × z / fx, …). -/
def pixelPt (h : Bytes) (i z : Nat) : RawPt :=
  let wd := fieldN h 4 2
  let half := f64 (FVal.fin false 1 (-1))
  let at_ (n c f : Nat) : Nat := ddiv (dmul (dsub (dadd (dofInt (n : Int)) half) c) z) f
  { x := at_ (i % wd) (hF32 h 0x38) (hF32 h 0x30), y := at_ (i / wd) (hF32 h 0x3C) (hF32 h 0x34), z := z, cls := fieldN h 1 1, fi := 0 }

/-- Element `i` of the data, given its bytes; `none` when it has no return or a field that R557 calls invalid. -/
def rawPt (h : Bytes) (i : Nat) (b : Bytes) : Option RawPt :=
  match hSource h with
  | 0 => if leNat b = 0 then none else some (pixelPt h i (mmD ((leNat b : Nat) : Int)))
  | 1 => let f := leNat b
         if !ffin f || f % 2 ^ 31 == 0 then none else some (pixelPt h i (f2d f))
  | 2 => let c := (List.range 3).map (fun j => fieldN b (4 * j) 4)
         if c.all ffin then some { x := f2d (c.getD 0 0), y := f2d (c.getD 1 0), z := f2d (c.getD 2 0), cls := fieldN h 1 1, fi := 0 } else none
  | _ => let c := (List.range 3).map (fun j => fieldN b (4 * j) 4)
         if c.all ffin && decide (fieldN b 12 1 ≤ 63) && decide (fieldN b 13 1 ≤ 7) && fieldN b 14 2 == 0 then
           some { x := f2d (c.getD 0 0), y := f2d (c.getD 1 0), z := f2d (c.getD 2 0), cls := fieldN b 12 1, fi := fieldN b 13 1 }
         else none

/-- Bytes of one element (03 R90). -/
def elemBytes (src : Nat) : Nat := match src with | 0 => 2 | 1 => 4 | 2 => 12 | 3 => 16 | 4 => 12 | _ => 65536

/-- A ray in the map frame: point, range, direction, sensor origin (FP64), class and forecast index. -/
structure Ray where
  q : Nat × Nat × Nat
  o : Nat × Nat × Nat
  r : Nat
  u : Nat × Nat × Nat
  cls : Nat
  fi : Nat

/-- Millimetre cell of an FP64 coordinate: floor(x / 8 mm), exactly. -/
def voxelOf (x : Nat) : Int := (((d64 x).mul (FVal.ofI 125)).floor).getD 0

/-- The ray of a point (03 R92, R93), or `none` when R557 makes it invalid. R557 gives no conversion for the comparison of r, in FP64 metres, with the
limits in mm: the model compares the exact product r × 1000 (DESIGN CHOICE, notes/assumptions/112.md). -/
def rayOf (h : Bytes) (p : RawPt) : Option Ray :=
  let o1 (k : Nat) : Nat := f64 ((FVal.ofI (fieldI h (0x14 + 4 * k) 4)).mul (FVal.fin false 1 (-16)))
  let o := (o1 0, o1 1, o1 2)
  let m := rotD ((hRot h).map f2d) (p.x, p.y, p.z)
  let q := (dadd m.1 o.1, dadd m.2.1 o.2.1, dadd m.2.2 o.2.2)
  let d := (dsub q.1 o.1, dsub q.2.1 o.2.1, dsub q.2.2 o.2.2)
  let r := dsqrt (dadd (dadd (dmul d.1 d.1) (dmul d.2.1 d.2.1)) (dmul d.2.2 d.2.2))
  let rmm := (d64 r).mul (FVal.ofI 1000)
  let key := voxKey (voxelOf q.1, voxelOf q.2.1, voxelOf q.2.2)
  if !(d64 q.1).isFin || !(d64 q.2.1).isFin || !(d64 q.2.2).isFin || !(d64 r).isFin then none
  else if rmm.lt (FVal.ofI (fieldN h 0x10 2 : Nat)) || (FVal.ofI (hMaxRange h : Nat)).lt rmm then none
  else if rmm.le (FVal.ofI 0) then none
  else if !keyInRange key then none
  else some { q := q, o := o, r := r, u := (ddiv d.1 r, ddiv d.2.1 r, ddiv d.2.2 r), cls := p.cls, fi := p.fi }

/-- A ratio with a positive denominator. -/
abbrev Ratio := Int × Nat

def ratioLe (a b : Ratio) : Bool := decide (a.1 * (b.2 : Int) ≤ b.1 * (a.2 : Int))
def ratioMax (a b : Ratio) : Ratio := if ratioLe a b then b else a
def ratioMin (a b : Ratio) : Ratio := if ratioLe a b then a else b

/-- The part of [t0, t1] in which a + t d lies in [lo, hi] (closed), exactly. -/
def clipAxis (a d lo hi : Int) (t : Ratio × Ratio) : Option (Ratio × Ratio) :=
  if d = 0 then (if lo ≤ a ∧ a ≤ hi then some t else none)
  else
    let (e, x) : Ratio × Ratio := if d > 0 then ((lo - a, d.natAbs), (hi - a, d.natAbs)) else ((a - hi, d.natAbs), (a - lo, d.natAbs))
    let e := ratioMax t.1 e
    let x := ratioMin t.2 x
    if ratioLe e x then some (e, x) else none

/-- Exponent of a decoded value, 0 when it is 0. -/
def expOf (v : FVal) : Int := match v with | .fin _ m e => if m = 0 then 0 else e | _ => 0

/-- A finite value times 125 × 2^k as an integer (exact for k large enough). -/
def scaleTo (k : Nat) (v : FVal) : Int :=
  match v with
  | .fin s m e => 125 * (if m = 0 then 0 else FVal.scaled s m (e + (k : Int)) 0)
  | _ => 0

/-- The voxels whose closed cube meets the segment a–b (FP64 metres), in order of entry, then canonical order (03 R93). -/
def segVoxels (a b : Nat × Nat × Nat) : List VIdx :=
  let vs := [d64 a.1, d64 a.2.1, d64 a.2.2, d64 b.1, d64 b.2.1, d64 b.2.2]
  let k := vs.foldl (fun m v => max m (-(expOf v)).toNat) 0
  let g : Int := (2 ^ k : Nat)
  let p (i : Nat) : Int := scaleTo k (vs.getD i .nan)
  let axis (i : Nat) : List Int :=
    let lo := min (p i) (p (i + 3)); let hi := max (p i) (p (i + 3))
    intSpan (lo / g - 1) (hi / g)
  let clip (i : Nat) (c : Int) (t : Ratio × Ratio) : Option (Ratio × Ratio) := clipAxis (p i) (p (i + 3) - p i) (c * g) ((c + 1) * g) t
  let full : Ratio × Ratio := ((0, 1), (1, 1))
  let hits := (axis 0).flatMap (fun x =>
    match clip 0 x full with
    | none => []
    | some tx => (axis 1).flatMap (fun y =>
      match clip 1 y tx with
      | none => []
      | some ty => (axis 2).filterMap (fun z => (clip 2 z ty).map (fun tz => (tz.1, ((x, y, z) : VIdx))))))
  let le (u v : Ratio × VIdx) : Bool :=
    if !ratioLe v.1 u.1 then true
    else if !ratioLe u.1 v.1 then false
    else
      let ku := voxKey u.2; let kv := voxKey v.2
      if ku = kv then decide (voxNo u.2 ≤ voxNo v.2) else canonLe ku kv
  (sortBy le hits).map (fun x => x.2)

/-- The voxel update (03 R94). -/
def updateVox (v : Vox) (obsOcc : Bool) (cls fi : Nat) : Vox :=
  let v := if obsOcc = v.occ then { v with weight := min (v.weight + 1) 63 }
           else if v.weight ≥ 1 then { v with weight := v.weight - 1 }
           else { v with occ := obsOcc, weight := 1 }
  if v.occ then { v with cls := cls, fidx := fi } else v

/-- The observation of a voxel is occupied: r − u · (c − o) ≤ 0 in FP64 (03 R93, R94). -/
def obsOccupied (y : Ray) (p : VIdx) : Bool :=
  let c (i : Int) : Nat := mmD (8 * i + 4)
  let t (u c o : Nat) : Nat := dmul u (dsub c o)
  let dot := dadd (dadd (t y.u.1 (c p.1) y.o.1) (t y.u.2.1 (c p.2.1) y.o.2.1)) (t y.u.2.2 (c p.2.2) y.o.2.2)
  dle (dsub y.r dot) 0

/-- Apply one ray to the changed bricks (03 R93 to R95). Voxels beyond the key range of R71 have no brick. -/
def applyRay (w : World) (tau : Nat) (ovr : List (Key × List Vox)) (y : Ray) : List (Key × List Vox) :=
  let t := mmD ((tau : Nat) : Int)
  let off (f : Nat → Nat → Nat) : Nat × Nat × Nat := (f y.q.1 (dmul t y.u.1), f y.q.2.1 (dmul t y.u.2.1), f y.q.2.2 (dmul t y.u.2.2))
  ((segVoxels (off dsub) (off dadd)).filter (fun p => keyInRange (voxKey p))).foldl (fun ovr p =>
    let k := voxKey p
    let upd (vs : List Vox) : List Vox := modifyAt (fun v => updateVox v (obsOccupied y p) y.cls y.fi) (voxNo p) vs
    if ovr.any (fun o => o.1 == k) then ovr.map (fun o => if o.1 = k then (k, upd o.2) else o)
    else ovr ++ [(k, upd ((openBrick w k).getD freshBrick))]) ovr

/-- The key at index `i` of a box in canonical order (03 R96). -/
def boxKey (b : List Int) (i : Nat) : Key :=
  let g (k : Nat) : Int := b.getD k 0
  let nx := (g 3 - g 0 + 1).toNat
  let ny := (g 4 - g 1 + 1).toNat
  { x := g 0 + ((i % nx : Nat) : Int), y := g 1 + ((i / nx % ny : Nat) : Int), z := g 2 + ((i / nx / ny : Nat) : Int) }

/-- Key positions of a box. -/
def boxCount (b : List Int) : Nat := ((List.range 3).map (fun k => (b.getD (k + 3) 0 - b.getD k 0 + 1).toNat)).foldl (· * ·) 1

/-- A forecast set of uint8 slices placed against a flacon's window (03 R108 to R111, 04 R136). -/
def makeFSet (fl : Flacon) (hard tRef stepMs : Nat) (slices : List (List (Nat × Nat))) : FSet :=
  let cell (i : Nat) : Int × Int := (fl.ox + ((i % 256 : Nat) : Int), fl.oy + ((i / 256 : Nat) : Int))
  { tRef := tRef, stepMs := stepMs, x0 := fl.ox, x1 := fl.ox + 256, y0 := fl.oy, y1 := fl.oy + 256,
    slices := slices.map (fun sl =>
      { prob := (sl.filter (fun c => c.2 != 0)).map (fun c => (cell c.1, c.2)),
        hard := (sl.filter (fun c => decide (c.2 > hard))).map (fun c => cell c.1) }) }

/-- Non-zero bytes of a slice with their cell numbers. -/
def sparseSlice (b : Bytes) : List (Nat × Nat) := (b.zipIdx.filter (fun x => x.1 != 0)).map (fun x => (x.2, x.1.toNat))

/-! ## MAP_INGEST -/

/-- The header check of an ingest (03 R556, R119): INVALID_DESCRIPTOR when it fails. -/
def ingestHeaderOk (h : Bytes) : Bool :=
  let src := hSource h
  let img := decide (src < 2)
  let pts := src == 2 || src == 3
  let tau := fieldN h 0xC 2
  decide (src ≤ 5) && decide (fieldN h 2 2 < 2) && fieldN h 0x12 2 == 0 && fieldN h 0x4A 6 == 0 && fieldN h 0x6C 20 == 0 &&
  (!(img || src == 2) || decide (fieldN h 1 1 ≤ 63)) &&
  (!img || (decide (1 ≤ fieldN h 4 2) && decide (fieldN h 4 2 ≤ 4096) && decide (1 ≤ fieldN h 6 2) && decide (fieldN h 6 2 ≤ 4096) &&
    decide (hCount h ≤ 4194304) && ffin (fieldN h 0x30 4) && ffin (fieldN h 0x34 4) && ffin (fieldN h 0x38 4) && ffin (fieldN h 0x3C 4) &&
    fieldN h 0x30 4 % 2 ^ 31 != 0 && fieldN h 0x34 4 % 2 ^ 31 != 0)) &&
  (!(img || pts) || ((tau == 0 || (decide (16 ≤ tau) && decide (tau ≤ 256))) && unitLength (hRot h))) &&
  (!pts || (decide (1 ≤ hCount h) && decide (hCount h ≤ 4194304))) &&
  (!(src == 4) || hCount h == 1) &&
  (!(src == 5) || (decide (1 ≤ hCount h) && decide (hCount h ≤ 16) && decide (10 ≤ fieldN h 0x48 2) && decide (fieldN h 0x48 2 ≤ 200)))

/-- Elements of an ingest in its groups: points, pixels, key positions, or one forecast set (03 R96). -/
def ingestTotal (h : Bytes) (box : List Int) : Nat := match hSource h with | 4 => boxCount box | 5 => 1 | _ => hCount h

/-- The groups of an ingest (03 R96), scheduled after `c`. -/
def makeGroups (wid kind total : Nat) : Nat → Nat → Nat → List Group
  | 0, _, _ => []
  | f + 1, g, c =>
    let first := g * 4096
    if first ≥ total then [] else
    let n := min 4096 (total - first)
    let c := c + (if kind = 2 then 20480 else 5 * n)
    { wid := wid, kind := kind, first := first, count := n, c := c, last := decide (first + n = total) } :: makeGroups wid kind total f (g + 1) c

/-- A forecast network is loaded (03 R112). -/
def forecastLoaded (s : State) : Bool := match s.accord with | some a => a.nets.any (fun n => n.role == .forecast) | none => false

/-- Schedule an accepted ingest (03 R96, R99, R100). -/
def scheduleIngest (d : Taken) (h : Bytes) (box : List Int) (s : State) : State :=
  let src := hSource h
  let kind := if src = 4 then 1 else if src = 5 then 2 else 0
  let total := ingestTotal h box
  let start := max d.dt s.world.lastC
  if kind ≠ 2 ∧ start + 5 * total > d.dt + 50000000 then refuse d badWhole s
  else if kind = 2 ∧ start + 20480 > d.dt + 50000000 then refuse d badWhole s
  else
    let gs := makeGroups s.nextWid kind total (total / 4096 + 1) 0 start
    let last := gs.foldl (fun _ g => g.c) start
    let w := mkWork d 0 (.ingest { bufAddr := fld d 8 8, hdr := h, box := box }) s
    let s := addWork w s
    { s with world := { s.world with
      groups := s.world.groups ++ gs, lastC := last,
      ingestSeals := if bitOf (fieldN h 2 2) 0 then s.world.ingestSeals ++ [last] else s.world.ingestSeals } }

/-- MAP_INGEST (03 R96, R119): header and box are read and validated at acceptance. -/
def execMapIngest (d : Taken) (v : View) (s : State) : Out :=
  acceptDesc d v { code := 1 } s fun s =>
    let buf := fld d 8 8
    let n := fld d 0x10 4
    withChecks d [(buf % 64 != 0, badField 8), (decide (n < 0x80), badField 0x10), reservedCheck d [(8, 8), (0x10, 4)]] s fun s =>
    withRead d v buf 0x80 s fun h s =>
    withChecks d [(!ingestHeaderOk h, badWhole), (decide (n < 0x80 + elemBytes (hSource h) * hCount h), badField 0x10)] s fun s =>
    if hSource h = 4 then
      withRead d v (buf + 0x80) 12 s fun b s =>
      let box := (List.range 6).map (fun k => fieldI b (2 * k) 2)
      withChecks d [((List.range 3).any (fun k => decide (box.getD k 0 > box.getD (k + 3) 0)), badWhole)] s fun s =>
      scheduleIngest d h box s
    else if hSource h = 5 && forecastLoaded s then refuse d unsupportedFail s
    else scheduleIngest d h [] s

/-! ## The Atomiser -/

/-- A seal is pending at the coming tick `n` of DT `t` (02 R44, 03 R100). -/
def sealRequested (s : State) (n t : Nat) : Bool :=
  s.frame.sealAutoNext || s.world.ingestSeals.any (fun c => decide (c + 20000 ≤ t)) ||
  s.work.any (fun w => match w.item with
    | .frameRun f => f.sealReq && decide (w.bound ≤ n) && decide (w.accept + 20000 ≤ t)
    | _ => false)

/-- The tick whose cut is the next to pass (03 R96). -/
def cutTick (s : State) : Nat :=
  if s.dt + 20000 < nextTick s then nextTick s else nextTick s + (if s.pwr.service = 3 then 1000 * s.frame.periodNext else 10000000)

/-- The Atomiser holds a group (03 R97, R550): a cut before its c_g has still to pass, or the tick of the latest such cut has a seal pending that
has not completed. -/
def groupHeld (s : State) (g : Group) : Bool :=
  s.world.sealing.isSome ||
  (match s.world.sealWanted with | some t => decide (g.c + 20000 > t) | none => false) ||
  decide (g.c + 20000 > cutTick s) ||
  (decide (s.dt ≤ nextTick s) && decide (g.c + 20000 > nextTick s) && sealRequested s (nextNumber s) (nextTick s))

/-- Result fields and completion of an ingest whose last group is done (03 R91, R98, 09 R321). -/
def finishIngest (w : Work) (i : IgWork) (s : State) : State :=
  let res := leBytes 4 i.integrated ++ leBytes 4 i.invalid ++ leBytes 4 i.dropped ++ leBytes 4 i.refused ++
    leBytes 4 (i.firstEpoch.getD 0) ++ leBytes 4 i.lastEpoch ++ leBytes 4 i.touched.length
  let s := hostWrite w.id s (i.bufAddr + 0x50) res
  finishWork w (if i.refused = 0 then 0 else 1) (flagIf (suspectNow s) 6) i.refused i.lastEpoch none s

/-- After a group: its work item is finished with its last group. -/
def groupDone (g : Group) (w : Work) (i : IgWork) (s : State) : State :=
  let s := { s with world := { s.world with groups := s.world.groups.drop 1 } }
  if g.last then finishIngest w i s else setItem w.wid (.ingest i) s

/-- OPEN and DELETE of a key's entry. -/
def openDel (idx : List (Nat × IdxEntry)) (k : Key) : Bool × Bool :=
  match (probe idx false k).1 with | some (_, e) => (e.isOpen, e.del) | none => (false, false)

/-- Bricks that gained OPEN or DELETE between two states of the open epoch (03 R91). -/
def gainedKeys (old new : World) : List Key :=
  new.dirty.filter (fun k => let o := openDel old.index k; let n := openDel new.index k; (n.1 && !o.1) || (n.2 && !o.2))

/-- A group applied to the open epoch. A brick that gains a mark more than once in one ingest counts once in `bricks_touched`, of which 03 R91 does not speak
(DESIGN CHOICE, notes/assumptions/134.md). -/
def groupApplied (g : Group) (w : Work) (i : IgWork) (x : WS) (good bad : Nat) (s : State) : State :=
  let gained := gainedKeys s.world x.w
  let e := s.world.openEpoch
  groupDone g w { i with integrated := i.integrated + good, invalid := i.invalid + bad,
                         touched := i.touched ++ gained.filter (fun k => !i.touched.contains k),
                         firstEpoch := some (i.firstEpoch.getD e), lastEpoch := e } { s with world := x.w, fresh := x.fresh }

/-- A refused group (03 R98, R85). -/
def groupRefused (g : Group) (w : Work) (i : IgWork) (capacity : Bool) (good bad : Nat) (s : State) : State :=
  let s := if capacity then raise 99 0 0 s else s
  groupDone g w { i with invalid := i.invalid + bad, dropped := i.dropped + good, refused := i.refused + 1 } s

/-- Apply the group at the head of the Atomiser's queue (03 R92 to R98). -/
def runGroup (v : View) (g : Group) (w : Work) (i : IgWork) (s : State) : State :=
  let x : WS := { w := s.world, fresh := s.fresh }
  if g.kind = 1 then
    let gone := ((List.range g.count).map (fun j => boxKey i.box (g.first + j))).filter (fun k => (openBrick s.world k).isSome)
    match applyChanges [] gone x with
    | .ok y => groupApplied g w i y 0 0 s
    | .error c => groupRefused g w i c 0 0 s
  else
    let sz := elemBytes (hSource i.hdr)
    let n := if g.kind = 2 then hCount i.hdr else g.count
    let at_ := i.bufAddr + 0x80 + sz * g.first
    match hostRead v s at_ (sz * n) with
    | none =>
      let s := raise 155 at_ 0 s
      finishWork w 0x21 0 155 0 none { s with world := { s.world with groups := s.world.groups.filter (fun y => y.wid != w.wid) } }
    | some b =>
      if g.kind = 2 then
        let sl := (List.range n).map (fun k => sparseSlice ((b.drop (65536 * k)).take 65536))
        let fs := makeFSet s.world.fl s.world.hard (fieldN i.hdr 0x40 8) (fieldN i.hdr 0x48 2) sl
        groupApplied g w i { x with w := { x.w with fsetOpen := some fs } } 0 0 s
      else
        let rays := (List.range n).filterMap (fun j => (rawPt i.hdr (g.first + j) ((b.drop (sz * j)).take sz)).bind (rayOf i.hdr))
        let ovr := rays.foldl (applyRay s.world (hTau i.hdr)) []
        let bad := n - rays.length
        match applyChanges ovr [] x with
        | .ok y => groupApplied g w i y rays.length bad s
        | .error c => groupRefused g w i c rays.length bad s

/-- ATOMISER_GROUP (03 R97): the group at the head starts and is applied or refused, unless R97 or R550 holds it. -/
def execAtomiserGroup (t : Nat) (v : View) (s : State) : Out :=
  runAt t s fun s =>
    let s := applyView v s
    match s.world.groups with
    | [] => s
    | g :: _ =>
      if groupHeld s g then s else
      match findWork s g.wid with
      | some w => (match w.item with | .ingest i => runGroup v g w i s | _ => s)
      | none => { s with world := { s.world with groups := s.world.groups.drop 1 } }

/-- ATOMISER_OVERRUN (03 R97): a group not finished by c_g + 100 us, once for each group. -/
def execAtomiserOverrun (t : Nat) (s : State) : Out :=
  runAt t s fun s =>
    match s.world.groups.find? (fun g => decide (g.c + 100000 < s.dt) && !s.world.overrunDone.contains (g.wid, g.first)) with
    | some g => raise 97 0 0 { s with world := { s.world with overrunDone := s.world.overrunDone ++ [(g.wid, g.first)] } }
    | none => s

/-! ## Primitives -/

/-- The body length of a primitive (03 R86, R87), padded to 16 bytes. -/
def primBodyBytes (kind faces : Nat) : Nat := match kind with | 1 => 16 | 2 => 16 | 3 => 32 | _ => 16 * faces

/-- Bounding radius of a sphere, capsule or box in 1/32 mm, rounded up (03 R88). -/
def boundR (p : Prim) : Nat :=
  match p.kind with
  | 1 => p.radius
  | 2 => p.radius + ceilDiv (ceilSqrt ((125 * p.ax).natAbs ^ 2 + (125 * p.ay).natAbs ^ 2 + (125 * p.az).natAbs ^ 2)) 256
  | 3 => ceilSqrt (p.hx ^ 2 + p.hy ^ 2 + p.hz ^ 2)
  | _ => p.boundR

/-- A record without its body: op 2 and 3. -/
def blankPrim (id : Nat) : Prim := { id := id, kind := 0, cls := 0, cx := 0, cy := 0, cz := 0 }

/-- The length of a record by its header (03 R86, R87). -/
def primLen (h : Bytes) : Nat := if fieldN h 6 1 = 1 then 32 + primBodyBytes (fieldN h 4 1) (fieldN h 5 1) else 32

/-- The header of a record is valid (03 R86, R87): a remove ignores every field but `prim_id`. -/
def primHeadOk (h : Bytes) : Bool :=
  let op := fieldN h 6 1
  let kind := fieldN h 4 1
  let faces := fieldN h 5 1
  fieldN h 0x18 8 == 0 && (op == 2 || op == 3 ||
    (op == 1 && decide (fieldN h 7 1 ≤ 63) &&
      (if kind = 4 then decide (1 ≤ faces) && decide (faces ≤ 64)
       else (kind == 1 || kind == 2 || kind == 3) && faces == 0 && fieldN h 0x14 4 == 0)))

/-- A record whose header is valid, from all its bytes; `none` when its body is not (03 R87). -/
def parsePrim (b : Bytes) : Option PrimRec :=
  if fieldN b 6 1 ≠ 1 then some { op := fieldN b 6 1, prim := blankPrim (fieldN b 0 4) } else
  let kind := fieldN b 4 1
  let p : Prim := { id := fieldN b 0 4, kind := kind, cls := fieldN b 7 1, cx := fieldI b 8 4, cy := fieldI b 12 4, cz := fieldI b 16 4,
                    boundR := fieldN b 0x14 4, bytes := primLen b }
  let add (q : Prim) : Option PrimRec := some { op := 1, prim := { q with boundR := boundR q } }
  match kind with
  | 1 => add { p with radius := fieldN b 32 4 }
  | 2 => add { p with ax := fieldI b 32 4, ay := fieldI b 36 4, az := fieldI b 40 4, radius := fieldN b 44 4 }
  | 3 => let quat := (List.range 4).map (fun i => fieldN b (48 + 4 * i) 4)
         if !unitLength quat then none
         else add { p with hx := fieldN b 32 4, hy := fieldN b 36 4, hz := fieldN b 40 4, quat := quat }
  | _ => let fs := (List.range (fieldN b 5 1)).map (fun i => ((List.range 3).map (fun j => fieldN b (32 + 16 * i + 4 * j) 4), fieldI b (44 + 16 * i) 4))
         if fs.any (fun f => !unitLength f.1) then none else add { p with faces := fs }

/-- Why the records of a MAP_PRIMITIVES stop: a read of an address that failed, too few bytes, a bad record. -/
inductive PrimStop where
  | bus (a : Nat)
  | short
  | bad (i : Nat)

/-- Read `n` records from address `a`, with `left` bytes, from record `i` on; bytes beyond them are not read (03 R86, R107). -/
def readPrims (v : View) (s : State) : Nat → Nat → Nat → Nat → Except PrimStop (List PrimRec)
  | 0, _, _, _ => .ok []
  | n + 1, a, left, i =>
    if left < 32 then .error .short else
    match hostRead v s a 32 with
    | none => .error (.bus a)
    | some h =>
      if !primHeadOk h then .error (.bad i)
      else if left < primLen h then .error .short
      else match hostRead v s a (primLen h) with
        | none => .error (.bus a)
        | some b => match parsePrim b, readPrims v s n (a + primLen h) (left - primLen h) (i + 1) with
          | none, _ => .error (.bad i)
          | some r, .ok l => .ok (r :: l)
          | some _, .error e => .error e

/-- One record applied to a version (03 R107). -/
def applyPrim (l : List Prim) (r : PrimRec) : List Prim :=
  match r.op with
  | 1 => l.filter (fun p => p.id != r.prim.id) ++ [r.prim]
  | 2 => l.filter (fun p => p.id != r.prim.id)
  | _ => []

/-- A cell of 128 mm by absolute index. -/
abbrev Cell := Int × Int × Int

/-- Side of a cell in U (04 R131). -/
def cellU : Int := 8388608

/-- Squared distance in U² from a point to the closed box of a cell. -/
def cellSq (x y z : Int) (c : Cell) : Nat :=
  let t (a k : Int) : Nat := let lo := k * cellU; let hi := lo + cellU
    if a < lo then (lo - a).natAbs ^ 2 else if a > hi then (a - hi).natAbs ^ 2 else 0
  t x c.1 + t y c.2.1 + t z c.2.2

/-- A primitive touches a cell (03 R89). -/
def primTouches (p : Prim) (c : Cell) : Bool := decide (cellSq (1000 * p.cx) (1000 * p.cy) (1000 * p.cz) c ≤ (2048 * p.boundR) ^ 2)

/-- The cells that a primitive touches. -/
def primCells (p : Prim) : List Cell :=
  let span (a : Int) : List Int := let r : Int := ((2048 * p.boundR : Nat) : Int); intSpan ((1000 * a - r) / cellU - 1) ((1000 * a + r) / cellU)
  ((span p.cx).flatMap (fun x => (span p.cy).flatMap (fun y => (span p.cz).map (fun z => (x, y, z))))).filter (primTouches p)

/-- The limits of R89 on a version: count, bytes, and primitives on one cell. -/
def primsOk (l : List Prim) : Bool :=
  decide (l.length ≤ 16384) && decide (l.foldl (fun n p => n + p.bytes) 0 ≤ 8388608) &&
  (decide (l.length ≤ 16) || l.all (fun p => (primCells p).all (fun c => decide ((l.filter (fun q => primTouches q c)).length ≤ 16))))

/-- Apply a descriptor to the open version and complete it (03 R107, R119). -/
def applyPrims (w : Work) (recs : List PrimRec) (held : Bool) (s : State) : State :=
  let l := recs.foldl applyPrim s.world.prims
  let sus := flagIf (suspectNow s) 6
  if primsOk l then
    finishWork w 0 (sus + flagIf held 11) 0 0 none { s with world := { s.world with prims := l, primsChanged := s.world.primsChanged + recs.length } }
  else finishWork w 0x10 0 0xFFFFFFFF 0xFFFFFFFF none s

/-- Mark every waiting descriptor as held (03 R107). -/
def holdPrims (s : State) : State :=
  { s with work := s.work.map (fun w => match w.item with | .prims r _ => { w with item := .prims r true } | _ => w) }

/-- Apply waiting descriptors in acceptance order, as many as fit within 256 changed records (03 R107). Held ones wait for a
new epoch. -/
def runPrims (newEpoch : Bool) : List Work → State → State
  | [], s => s
  | w :: rest, s =>
    match w.item with
    | .prims recs held =>
      if held && !newEpoch then holdPrims s
      else if s.world.primsChanged + recs.length > 256 then holdPrims s
      else runPrims newEpoch rest (applyPrims w recs held s)
    | _ => runPrims newEpoch rest s

/-- Waiting descriptors act at a tick (03 R107): those accepted after the cut of a seal that is still to be built belong to the epoch after it. -/
def tickPrims (s : State) : State := if s.world.sealWanted.isSome then s else runPrims false s.work s

/-- MAP_PRIMITIVES waiting for a tick or an epoch. -/
def primsWaiting (s : State) : Bool := s.work.any (fun w => match w.item with | .prims .. => true | _ => false)

/-- MAP_PRIMITIVES (03 R107, R119). -/
def execMapPrimitives (d : Taken) (v : View) (s : State) : Out :=
  acceptDesc d v { code := 2 } s fun s =>
    let a := fld d 8 8
    let nb := fld d 0x10 4
    let n := fld d 0x14 2
    withChecks d [(a % 16 != 0, badField 8), (decide (nb > 270336), badField 0x10), (n == 0 || decide (n > 256), badField 0x14),
                  reservedCheck d [(8, 8), (0x10, 4), (0x14, 2)]] s fun s =>
    match readPrims v s n a nb 0 with
    | .error (.bus x) => refuseRead d x s
    | .error .short => refuse d (badField 0x10) s
    | .error (.bad i) => refuse d (badRecord i) s
    | .ok recs =>
      let w := mkWork d 0 (.prims recs false) s
      let wait := closeToTick s d.dt || s.world.sealWanted.isSome || primsWaiting s
      let s := addWork w s
      if wait then (if s.work.any (fun w => match w.item with | .prims _ h => h | _ => false) then holdPrims s else s)
      else runPrims false [w] s

/-! ## The seal -/

/-- The seal of one entry (03 R103 seal_entry), with the pool after it. -/
def sealEntry (e : Nat) (w : World) (k : Key) : World :=
  match (probe w.index false k).1 with
  | none => w
  | some (p, b) =>
    let free (v : Bool) (s : Nat) (pool : List (Nat × List Vox)) : List (Nat × List Vox) := if v then eraseKey s pool else pool
    if b.del then
      { w with index := insertKey p { b with validA := false, validB := false, sealedB := false, isOpen := false, del := false, tomb := true, occ := false, fresh := false } w.index, pool := free b.validB b.ptrB (free b.validA b.ptrA w.pool) }
    else if b.isOpen then
      let pool := if b.sealedB then free b.validB b.ptrB w.pool else free b.validA b.ptrA w.pool
      let b := if b.sealedB then { b with validB := false } else { b with validA := false }
      let vs := ((lookupO (openPtr b) w.pool)).getD freshBrick
      let m := vs.foldl (fun (m : Int) v => min m v.dist) 32767
      { w with pool := pool, index := insertKey p { b with
          sealedB := !b.sealedB, isOpen := false, fresh := false, occ := vs.any (fun v => v.occ), tag := e % 256,
          coarse := if m = -32768 then -32768 else m / 32 - 7 } w.index }
    else w

/-- The origin after a seal (03 R74), on one axis: current origin and p_b raw. -/
def scrollAxis (first : Bool) (o pb : Int) : Int :=
  let t := pb * 1000 / cellU - 128
  if first then t else if (t - o).natAbs ≥ 8 then (if t > o then o + 1 else o - 1) else o

/-- The window's origin after the seal that a tick with the current p_b asks for (03 R73, R74). -/
def sealOrigin (full : Bool) (w : World) : Int × Int × Int := (scrollAxis full w.fl.ox w.pbx, scrollAxis full w.fl.oy w.pby, w.windowZ)

/-- Brick column of p_b (03 R80). -/
def brickOfPos (raw : Int) : Int := raw * 1000 / 4194304

/-- Nearer in the order of R80: Chebyshev distance over x and y, then canonical order. -/
def rankLe (bx bY : Int) (a b : Key) : Bool :=
  let d (k : Key) : Nat := max (k.x - bx).natAbs (k.y - bY).natAbs
  decide (d a < d b) || (d a == d b && canonLe a b)

/-- One brick enters the resident set (03 R80 step 3): a free number, else it displaces the farthest brick outside the target. -/
def enterResident (bx bY : Int) (target : List Key) (acc : List (Key × Nat) × Nat) (k : Key) : List (Key × Nat) × Nat :=
  let (res, fresh) := acc
  if res.length < 12288 then
    let used := sortBy (fun a b => decide (a ≤ b)) (res.map (fun r => r.2))
    (res ++ [(k, kthFree used (Config.cachePick fresh % (12288 - res.length)))], fresh + 1)
  else
    match (res.filter (fun r => !target.contains r.1)).foldl (fun (m : Option (Key × Nat)) r =>
        match m with | none => some r | some x => if rankLe bx bY x.1 r.1 then some r else some x) none with
    | some far => (res.filter (fun r => r.1 != far.1) ++ [(k, far.2)], fresh)
    | none => (res, fresh)

/-- The resident set after a seal (03 R80, R105). -/
def newResident (full : Bool) (bx bY : Int) (old : List (Key × Nat)) (alloc : List Key) (fresh : Nat) : List (Key × Nat) × Nat :=
  let target := (sortBy (rankLe bx bY) alloc).take 12288
  let kept := old.filter (fun r => alloc.contains r.1)
  let enter := target.filter (fun k => !kept.any (fun r => r.1 == k))
  (if full then enter else enter.take 1024).foldl (enterResident bx bY target) (kept, fresh)

/-- A forecast set shifted with the window (03 R111): cells that leave are gone for good. -/
def shiftFSet (ox oy : Int) (f : FSet) : FSet :=
  { f with x0 := max f.x0 ox, x1 := min f.x1 (ox + 256), y0 := max f.y0 oy, y1 := min f.y1 (oy + 256) }

/-- Turn the open epoch into the next flacon (03 R103). -/
def buildSeal (full : Bool) (s : State) : State :=
  let w := s.world
  let e := w.openEpoch
  let keys := sortBy canonLe w.dirty
  let w1 := keys.foldl (sealEntry e) w
  let (ox, oy, oz) := sealOrigin full w
  let alloc := (w1.index.filter (fun p => !p.2.tomb && (sealedPtr p.2).isSome)).map (fun p => p.2.key)
  let (res, fresh) := newResident full (brickOfPos w.pbx) (brickOfPos w.pby) w.fl.resident alloc s.fresh
  let fs := match w.fsetOpen with | some f => some f | none => w.fl.fset
  let next : Flacon := { epoch := e, blocking := false, index := w1.index, pool := w1.pool, prims := w.prims,
                         ox := ox, oy := oy, oz := oz, fset := fs.map (shiftFSet ox oy), resident := res }
  { s with fresh := fresh,
           world := { w1 with openEpoch := (e + 1) % 2 ^ 32, dirty := [], fsetOpen := w.fsetLater, fsetLater := none, sealedOnce := true,
                              sealing := some { full := full, next := next }, sealWanted := none, primsChanged := 0 } }

end Sys2Proof.Machine
end

