-- ==== Sys2Proof/Machine/Query.lean ====
section
/-! DEFINITION. From a candidate to its verdict (04 R127 to R154): sampling, forward kinematics, the query of phase 2, narrow
phase, the work budget, and the reduction to a verdict record. -/

namespace Sys2Proof.Machine

/-! ## Poses in binary32 -/

abbrev Vec3 := Nat × Nat × Nat
abbrev Quat := Nat × Nat × Nat × Nat

def quatOf (l : List Nat) : Quat := (l.getD 0 fone, l.getD 1 0, l.getD 2 0, l.getD 3 0)
def vecOf (l : List Nat) : Vec3 := (l.getD 0 0, l.getD 1 0, l.getD 2 0)
def quatId : Quat := (fone, 0, 0, 0)
def vfin (v : Vec3) : Bool := ffin v.1 && ffin v.2.1 && ffin v.2.2
def qfin (q : Quat) : Bool := ffin q.1 && ffin q.2.1 && ffin q.2.2.1 && ffin q.2.2.2
def vadd (a b : Vec3) : Vec3 := (fadd a.1 b.1, fadd a.2.1 b.2.1, fadd a.2.2 b.2.2)
def vscale (k : Nat) (a : Vec3) : Vec3 := (fmul k a.1, fmul k a.2.1, fmul k a.2.2)
def vcross (a b : Vec3) : Vec3 :=
  (fsub (fmul a.2.1 b.2.2) (fmul a.2.2 b.2.1), fsub (fmul a.2.2 b.1) (fmul a.1 b.2.2), fsub (fmul a.1 b.2.1) (fmul a.2.1 b.1))

/-- rot(q, v) = v + 2w(u × v) + 2u × (u × v), left to right (04 R129). -/
def rotF (q : Quat) (v : Vec3) : Vec3 :=
  let u : Vec3 := (q.2.1, q.2.2.1, q.2.2.2)
  let c := vcross u v
  vadd (vadd v (vscale (fmul ftwo q.1) c)) (vcross (vscale ftwo u) c)

/-- q1 ⊗ q2: each component the sum of its four products in the order w, x, y, z of q1 (04 R129). -/
def qmul (p q : Quat) : Quat :=
  let (w1, x1, y1, z1) := p
  let (w2, x2, y2, z2) := q
  (fsub (fsub (fsub (fmul w1 w2) (fmul x1 x2)) (fmul y1 y2)) (fmul z1 z2),
   fsub (fadd (fadd (fmul w1 x2) (fmul x1 w2)) (fmul y1 z2)) (fmul z1 y2),
   fadd (fadd (fsub (fmul w1 y2) (fmul x1 z2)) (fmul y1 w2)) (fmul z1 x2),
   fadd (fsub (fadd (fmul w1 z2) (fmul x1 y2)) (fmul y1 x2)) (fmul z1 w2))

abbrev Pose := Quat × Vec3

/-- Composition of poses (04 R129). -/
def compose (a b : Pose) : Pose := (qmul a.1 b.1, vadd a.2 (rotF a.1 b.2))

/-- M_j of a joint at a value (04 R129). -/
def jointPose (j : Joint) (v : Nat) : Pose :=
  let ax := vecOf j.axis
  match j.type with
  | 1 => let h := fdiv v ftwo
         let sn := fsin h
         ((fcos h, fmul sn ax.1, fmul sn ax.2.1, fmul sn ax.2.2), (0, 0, 0))
  | 2 => (quatId, vscale v ax)
  | _ => (quatId, (0, 0, 0))

/-- The poses of links 0 to n, in ascending joint order (04 R129). -/
def linkPoses (b : Body) (vals : List Nat) : List Pose :=
  b.joints.zipIdx.foldl (fun ps x =>
    let j := x.1
    ps ++ [compose (compose (ps.getD j.parent (quatId, (0, 0, 0))) (quatOf j.originQ, vecOf j.originT)) (jointPose j (vals.getD x.2 0))])
    [(quatId, (0, 0, 0))]

/-- All query spheres in their numbering (04 R124). -/
def Body.query (b : Body) : List Sph := b.spheres ++ b.cover ++ b.payload

/-- A planar heading in radians: FP32(yaw) × FP32(2π × 2^-32) (04 R130). -/
def yawRad (yaw : Int) : Nat := fmul (fofInt yaw) fYawLsb

/-- Base rotation of a pose (04 R130). -/
def baseQuat (kind : Nat) (k : Knot) : Quat :=
  match kind with
  | 1 => let h := fdiv (yawRad k.yaw) ftwo; (fcos h, 0, 0, fsin h)
  | 2 => quatOf k.quat
  | _ => quatId

/-- A point as S15.16 raw coordinates. -/
abbrev P3 := Int × Int × Int

/-- The map-frame centre of a query sphere (04 R130); `none` when non-finite. -/
def sphereCentre (kind : Nat) (k : Knot) (ps : List Pose) (sp : Sph) : Option P3 :=
  let pose := ps.getD sp.link (quatId, (0, 0, 0))
  let cb := vadd (rotF pose.1 (vecOf sp.c)) pose.2
  let bq := baseQuat kind k
  let r := rotF bq cb
  if !(qfin pose.1 && vfin pose.2 && vfin cb && qfin bq && vfin r) then none else
  match toS1516 (d32 r.1), toS1516 (d32 r.2.1), toS1516 (d32 r.2.2) with
  | some x, some y, some z =>
    let base : P3 := match kind with | 1 => (k.x, k.y, 0) | 2 => (k.x, k.y, k.z) | _ => (0, 0, 0)
    let p : P3 := (base.1 + x, base.2.1 + y, base.2.2 + z)
    if [x, y, z, p.1, p.2.1, p.2.2].all inI32 then some p else none
  | _, _, _ => none

/-! ## Samples -/

/-- τ_s (04 R127). -/
def sampleTau (knots dk samples s : Nat) : Nat :=
  if samples ≤ 1 ∨ knots ≤ 1 then 0 else s * (knots - 1) * dk / (samples - 1)

/-- Wrap to int32. -/
def wrap32 (x : Int) : Int := signed 32 (unsignedOf 32 x)

/-- The interpolated quaternion (04 R128); a value that is not finite on the way makes it NaN, so that no pose formed from it is finite (R130). -/
def lerpQuat (u : Nat) (p q : List Nat) : List Nat :=
  let sum (l : List Nat) : Nat := match l with | [] => 0 | x :: r => r.foldl fadd x
  let q := if (d32 (sum (List.zipWith fmul p q))).lt (FVal.ofI 0) then q.map fneg else q
  let l := List.zipWith (fun v w => fadd v (fmul u (fsub w v))) p q
  let n := fsqrt (sum (l.map (fun x => fmul x x)))
  let r := l.map (fun x => fdiv x n)
  if ffin n && l.all ffin && r.all ffin then r else List.replicate 4 fNan

/-- Interpolation between two knots at `a` of `dk` ns (04 R128). A joint value that is not finite stays with its joint. -/
def lerpKnot (kind dk a : Nat) (p q : Knot) : Knot :=
  let c (x y : Int) : Int := x + roundDiv ((a : Int) * (y - x)) dk
  let u := fdiv (fofInt a) (fofInt dk)
  { x := c p.x q.x, y := c p.y q.y, z := c p.z q.z, yaw := wrap32 (p.yaw + roundDiv ((a : Int) * wrap32 (q.yaw - p.yaw)) dk),
    quat := if kind = 2 then lerpQuat u p.quat q.quat else [],
    joints := List.zipWith (fun v w => fadd v (fmul u (fsub w v))) p.joints q.joints }

/-- The pose of sample `s` (04 R127, R128); `none` when non-finite. -/
def samplePose (kind : Nat) (knots : List (Option Knot)) (dk samples s : Nat) : Option Knot :=
  if samples ≤ 1 ∨ knots.length ≤ 1 then (knots.getD 0 none)
  else
    let tau := sampleTau knots.length dk samples s
    let k := min (tau / dk) (knots.length - 2)
    match knots.getD k none, knots.getD (k + 1) none with
    | some p, some q => some (lerpKnot kind dk (tau - k * dk) p q)
    | _, _ => none

/-- The centres of all query spheres at a pose. -/
def poseCentres (b : Body) (k : Option Knot) : List (Option P3) :=
  match k with
  | none => b.query.map (fun _ => none)
  | some k => let ps := linkPoses b k.joints; b.query.map (sphereCentre b.baseKind k ps)

/-! ## Interval ends -/

/-- A lower end: `none` is lo_none, below every value (04 R132). -/
abbrev LoEnd := Option Int
/-- An upper end: `none` is hi_none, above every value. -/
abbrev HiEnd := Option Int

def loMin (a b : LoEnd) : LoEnd := match a, b with | some x, some y => some (min x y) | _, _ => none
def loMax (a b : LoEnd) : LoEnd := match a, b with | some x, some y => some (max x y) | some x, none => some x | none, b => b
def hiMin (a b : HiEnd) : HiEnd := match a, b with | some x, some y => some (min x y) | some x, none => some x | none, b => b
def endAdd (a : Option Int) (d : Int) : Option Int := a.map (fun x => x + d)
def loLt (a : LoEnd) (e : Int) : Bool := match a with | some x => decide (x < e) | none => true
def loGe (a : LoEnd) (e : Int) : Bool := !loLt a e
def hiNeg (a : HiEnd) : Bool := match a with | some x => decide (x < 0) | none => false

/-- U to 1/32 mm toward −∞, clamped (04 R132, R150). -/
def lo32 (a : LoEnd) : Int := match a with | some x => clampI (-2147483647) 2147483646 (x / 2048) | none => -2147483648
/-- U to 1/32 mm toward +∞. -/
def hi32 (a : HiEnd) : Int := match a with | some x => clampI (-2147483647) 2147483646 (-((-x) / 2048)) | none => 2147483647

/-! ## Top-note and forecast -/

/-- floor(128 × √(Σ max(0, |Δ| − 1)²)) mm over the given cell differences (03 R75, 04 R136). -/
def boxMm (ds : List Int) : Int :=
  ((floorSqrt (16384 * (ds.map (fun d => (d.natAbs - 1) ^ 2)).foldl (· + ·) 0) : Nat) : Int)

/-- The source cells of a flacon with their own values (03 R75). -/
def topSources (fl : Flacon) : List (Cell × Int) :=
  let bricks := (fl.index.filter (fun p => !p.2.tomb && (sealedPtr p.2).isSome)).map (fun p => p.2)
  let cellOf (k : Key) : Cell := (k.x / 2, k.y / 2, k.z / 2)
  let cells := ((bricks.filter (fun e => e.occ)).map (fun e => cellOf e.key)).eraseDups
  let own (c : Cell) : Int :=
    let l := bricks.filter (fun e => cellOf e.key == c)
    let m := l.foldl (fun (m : Int) e => min m e.coarse) 32767
    if l.length < 8 then min m 0 else m
  let pc := (fl.prims.flatMap primCells).eraseDups
  (cells.filter (fun c => !pc.contains c)).map (fun c => (c, own c)) ++ pc.map (fun c => (c, -32768))

/-- The cell lies in the window (03 R73, R76). -/
def inWindow (fl : Flacon) (c : Cell) : Bool :=
  decide (fl.ox ≤ c.1) && decide (c.1 < fl.ox + 256) && decide (fl.oy ≤ c.2.1) && decide (c.2.1 < fl.oy + 256) &&
  decide (fl.oz ≤ c.2.2) && decide (c.2.2 < fl.oz + 32)

/-- The top-note value of an absolute cell (03 R75, R76, R101). -/
def topNote (fl : Flacon) (src : List (Cell × Int)) (c : Cell) : Int :=
  if fl.blocking || !inWindow fl c then -32768 else
  satI16 (src.foldl (fun (m : Int) s =>
    min m (if s.1 = c then s.2 else boxMm [s.1.1 - c.1, s.1.2.1 - c.2.1, s.1.2.2 - c.2.2])) 32767)

/-- The absolute cell of a point in U. -/
def cellOfU (p : P3) : Cell := (p.1 / cellU, p.2.1 / cellU, p.2.2 / cellU)

/-! ## The residency directory -/

/-- The directory entries that a probe for a key visits: its home and those after it, 256 in all (03 R80, R83). -/
def dirVisits (k : Key) : List Nat := (List.range 256).map (fun n => (keyHash k + n) % 16384)

/-- Where a brick goes in the directory: the first free entry that a probe visits; nothing is placed beyond (03 R80, R83). -/
def dirPlace (d : List (Nat × (Key × Nat))) (r : Key × Nat) : List (Nat × (Key × Nat)) :=
  match (dirVisits r.1).find? (fun p => (lookupO p d).isNone) with
  | some p => insertKey p r d
  | none => d

/-- The residency directory that every core memory holds (03 R80). The rule gives the entries and the probe; that the resident bricks are placed in
the order of their entering, and that an empty entry holds brick number 0xFFFF, is the model's (DESIGN CHOICE, notes/assumptions/103.md). -/
def directory (fl : Flacon) : List (Nat × (Key × Nat)) := fl.resident.foldl dirPlace []

/-- A probe of the directory finds the key: an empty entry ends it (03 R80, R83). -/
def dirHit (d : List (Nat × (Key × Nat))) (k : Key) : Bool :=
  match (dirVisits k).find? (fun p => (lookupO p d).elim true (fun r => r.1 == k)) with
  | some p => (lookupO p d).isSome
  | none => false

/-- A byte of the directory: key, then map-cache brick number. -/
def dirByte (d : List (Nat × (Key × Nat))) (off : Nat) : Byte :=
  match lookupO (off / 8) d with
  | some r => (keyBytes r.1 ++ leBytes 2 r.2).getD (off % 8) 0
  | none => (zeros 6 ++ leBytes 2 0xFFFF).getD (off % 8) 0

/-- The offset lies in the schedule store (11 R358). -/
def inSchedule (off : Nat) : Bool := decide (262144 ≤ off) && decide (off < 327680)

/-- A byte of core `i`'s memory, `key` its address: the directory as the seal left it and schedules changed it since, a schedule's streamed bytes while
an Accord is loaded, memory (11 R358, R363; notes/assumptions/103.md). -/
def coreByte (s : State) (dir : List (Nat × (Key × Nat))) (i key off : Nat) : Byte :=
  if inDirectory off then (lookupO key s.cores.dirMem).getD (dirByte dir off)
  else if inSchedule off then
    (match s.accord with
    | some a => Config.schedByte a.hash64 i (lookupD {} i s.cores.st).pos off
    | none => memRead s.cores.mem key)
  else memRead s.cores.mem key

/-- Bytes of a core's memory as its engines read them. -/
def coreReads (s : State) (c : CoreId) (off n : Nat) : Bytes :=
  if off + n ≤ 131072 ∨ 327680 ≤ off then memReads s.cores.mem (coreAddr c off) n
  else
    let d := directory s.world.fl
    (List.range n).map (fun i => coreByte s d (coreIndex c) (coreAddr c (off + i)) (off + i))

/-- A ball about p lies wholly inside the window (04 R133). -/
def ballInside (fl : Flacon) (p : P3) (r : Int) : Bool :=
  let ok (a o : Int) (n : Int) : Bool := decide (o * cellU ≤ a - r) && decide (a + r < (o + n) * cellU)
  ok p.1 fl.ox 256 && ok p.2.1 fl.oy 256 && ok p.2.2 fl.oz 32

/-- The slice that a DT reads (03 R109). -/
def sliceAt (f : FSet) (t : Nat) : Nat :=
  let k := ((t : Int) - (f.tRef : Int)) / ((f.stepMs * 1000000 : Nat) : Int)
  (clampI 0 ((f.slices.length : Int) - 1) k).toNat

/-- The slices that [t, t + span] reads. -/
def slicesOver (f : Option FSet) (t span : Nat) : List Nat :=
  match f with
  | none => []
  | some f => let a := sliceAt f t; (List.range (sliceAt f (t + span) - a + 1)).map (fun i => a + i)

def fsetHas (f : FSet) (x y : Int) : Bool := decide (f.x0 ≤ x) && decide (x < f.x1) && decide (f.y0 ≤ y) && decide (y < f.y1)

/-- Plane value and hardness of a cell in a slice (04 R136). A cell that entered by a scroll is not hard; its plane value is free below the bound that
the set's hard cells give, so that the shifted plane remains a lower bound (notes/assumptions/11.md). -/
def planeAt (f : FSet) (k : Nat) (x y : Int) : Int × Bool :=
  let sl := f.slices.getD k {}
  let bound := sl.hard.foldl (fun (m : Int) h => min m (boxMm [h.1 - x, h.2 - y])) 32767
  if !fsetHas f x y then (clampI (-32768) bound (Config.enteringPlane k x y), false)
  else if sl.hard.contains (x, y) then (0, true)
  else (bound, false)

/-- Forecast probability of a cell in a slice (03 R108, R111). -/
def probAt (f : FSet) (k : Nat) (x y : Int) : Nat :=
  if fsetHas f x y then ((f.slices.getD k {}).prob.find? (fun c => c.1 == (x, y))).elim 0 (fun c => c.2) else 0

/-! ## Work charges -/

/-- Remaining units of an engine in a phase; `none` is no budget (certification, 08 R269). -/
abbrev Budget := Option Int

/-- Take a step of cost `n`; `none` when it is shed (04 R147). Always-charged issue can drive the remainder below 0, of which the rule says nothing: a
step of cost 0 is then shed too (DESIGN CHOICE, notes/assumptions/115.md). -/
def charge (b : Budget) (n : Nat) : Option Budget :=
  match b with
  | none => some none
  | some x => if (n : Int) > x then none else some (some (x - n))

/-- Query issue is always charged (04 R147). -/
def issue (b : Budget) : Budget := b.map (fun x => x - 1)

/-- Units of an index probe that visited `n` entries (04 R146): 256-bit granules hold two entries. -/
def probeUnits (k : Key) (n : Nat) : Nat :=
  let h := keyHome k
  16 + 4 * ((h + (n - 1)) / 2 - h / 2)

/-! ## The query of phase 2 -/

/-- What all queries of a candidate share: flacon and its top-note sources, margin m and escalation level E in U, reduced
service, near hazards and `cand.g` (04 R137). -/
structure QEnv where
  fl : Flacon
  src : List (Cell × Int)
  m : Int
  e : Int
  reduced : Bool
  near : List Haz
  g : HiEnd

/-- A query's result. `by_` is the component that set lo (04 R152): 1 hazard, 2 forecast, 0 the map; `pre` is the lower end after phase 2 (06
R227), `brick` the key of a brick that phase 2 read (04 R144). -/
structure QRes where
  lo : LoEnd := none
  hi : HiEnd := none
  by_ : Nat := 0
  narrowed : Bool := false
  shed : Bool := false
  outside : Bool := false
  nonfinite : Bool := false
  verdict : Nat := 1
  prob : Nat := 0
  pre : LoEnd := none
  brick : Option Key := none

def sq3 (a b : P3) : Nat := ((a.1 - b.1).natAbs) ^ 2 + ((a.2.1 - b.2.1).natAbs) ^ 2 + ((a.2.2 - b.2.2).natAbs) ^ 2

def toU (p : P3) : P3 := (1000 * p.1, 1000 * p.2.1, 1000 * p.2.2)
def hazU (h : Haz) : P3 := (1000 * h.cx, 1000 * h.cy, 1000 * h.cz)
def hazR (h : Haz) : Int := ((2048 * h.r : Nat) : Int)
def primU (q : Prim) : P3 := (1000 * q.cx, 1000 * q.cy, 1000 * q.cz)

/-- Outcome of the brick step (04 R134). -/
inductive BrickStep where
  | shed
  | absent
  | coarse (v : Int)
  | brick (vs : List Vox)

/-- The brick step for a key (04 R134, R146): the directory's probe, index probe, `coarse_lo`, brick read. -/
def brickStep (fl : Flacon) (k : Key) (b : Budget) (skip : Int → Bool) : BrickStep × Budget :=
  let found := probe fl.index true k
  let content (e : IdxEntry) : List Vox := ((sealedPtr e).bind (fun s => lookupO s fl.pool)).getD freshBrick
  if dirHit (directory fl) k then
    match charge b 2, found.1 with
    | none, _ => (.shed, b)
    | some b, some (_, e) => (.brick (content e), b)
    | some b, none => (.absent, b)
  else
    match charge b (probeUnits k found.2) with
    | none => (.shed, b)
    | some b =>
      match found.1 with
      | none => (.absent, b)
      | some (_, e) =>
        if skip e.coarse then (.coarse e.coarse, b) else
        match charge b 32 with
        | none => (.shed, b)
        | some b => (.brick (content e), b)

/-- Brick key of a point in U. -/
def keyOfU (p : P3) : Key := { x := p.1 / 4194304, y := p.2.1 / 4194304, z := p.2.2 / 4194304 }

/-- Exact distance from p to the boundary of its cell's box. -/
def cellEdge (c : Cell) (p : P3) : Int :=
  let t (a k : Int) : Int := min (a - k * cellU) ((k + 1) * cellU - a)
  min (t p.1 c.1) (min (t p.2.1 c.2.1) (t p.2.2 c.2.2))

/-- Phase 2 of one query (04 R134): interval, component, shed, budget. -/
def tierEval (q : QEnv) (p : P3) (rho : Int) (slices : List Nat) (b : Budget) : LoEnd × HiEnd × Nat × Bool × Budget :=
  let c := cellOfU p
  let v := topNote q.fl q.src c * 65536
  let hz : Option (LoEnd × HiEnd × Budget) := (charge b ((q.near.length + 3) / 4)).map (fun b =>
    q.near.foldl (fun acc h =>
      let dd := sq3 p (hazU h)
      (hiMin acc.1 (some ((floorSqrt dd : Nat) - hazR h - rho)), hiMin acc.2.1 (some ((ceilSqrt dd : Nat) - hazR h - rho)), acc.2.2))
      ((endAdd q.g (-rho), none, b) : HiEnd × HiEnd × Budget))
  let shed1 := hz.isNone
  let (loZ, hiZ, b) := hz.getD (none, none, b)
  let loZ : Option (Option Int) := if shed1 then some none else loZ.map some
  let planes := match q.fl.fset with
    | none => []
    | some f => slices.map (fun k => planeAt f k c.1 c.2.1)
  let plane := planes.foldl (fun (m : Int) x => min m x.1) 32767
  let loF : Int := plane * 65536 - rho
  let hiF : HiEnd := if planes.any (fun x => x.2) then some (-rho) else none
  let bin := q.fl.prims.filter (fun x => primTouches x c)
  let pb := bin.foldl (fun (m : Int) x => min m ((floorSqrt (sq3 p (primU x)) : Nat) - ((2048 * x.boundR : Nat) : Int))) (cellEdge c p)
  let loP : Int := max v pb - rho
  let (loH, hiH, shed2, b) : LoEnd × HiEnd × Bool × Budget :=
    if q.reduced || decide (v - rho ≥ q.e) then (some (v - rho), none, false, b)
    else
      match brickStep q.fl (keyOfU p) b (fun cl => decide (max v (cl * 65536) - rho ≥ q.e)) with
      | (.shed, b) => (some (v - rho), none, true, b)
      | (.absent, b) => (some (max v 0 - rho), none, false, b)
      | (.coarse cl, b) => (some (max v (cl * 65536) - rho), none, false, b)
      | (.brick vs, b) =>
        let vi : VIdx := (p.1 / 524288, p.2.1 / 524288, p.2.2 / 524288)
        let d := (vs.getD (voxNo vi) {}).dist
        let centre : P3 := (vi.1 * 524288 + 262144, vi.2.1 * 524288 + 262144, vi.2.2 * 524288 + 262144)
        let dl : Int := ((ceilSqrt (sq3 p centre) : Nat) : Int)
        let hl : LoEnd := if d = -32768 then none else some (d * 2048 - dl)
        let hh : HiEnd := if d = 32767 then none else some ((d + 1) * 2048 + dl)
        (endAdd (loMax (some v) hl) (-rho), endAdd hh (-rho), false, b)
  let loMap := loMin loH (some loP)
  let lo : LoEnd := match loZ with | some z => loMin z (loMin loMap (some loF)) | none => loMin loMap (some loF)
  let by_ := match loZ with
    | some z => if z = lo then 1 else if some loF = lo then 2 else 0
    | none => if some loF = lo then 2 else 0
  (lo, hiMin hiH (hiMin hiF hiZ), by_, shed1 || shed2, b)

/-! ## Primitive distances -/

/-- An element's interval in U, whether p certainly lies in it, and its component. -/
structure Elem where
  lo : Int
  hi : HiEnd
  inside : Bool
  by_ : Nat
  grouped : Bool

/-- floor and ceiling of √(n / d). -/
def floorSqrtQ (n d : Nat) : Nat := floorSqrt (n / d)
def ceilSqrtQ (n d : Nat) : Nat := ceilSqrt (ceilDiv n d)

/-- ε of kinds 3 and 4 (04 R140). -/
def primEps (q : Prim) (p : P3) : Int := ((ceilDiv (ceilSqrt (sq3 p (primU q)) + 2048 * q.boundR) (2 ^ 20) : Nat) : Int)

/-- Squared distance from a point to a capsule's segment as a quotient (04 R140), both relative to its centre. -/
def capsuleSq (h d : P3) : Nat × Nat :=
  let hh := (h.1 * h.1 + h.2.1 * h.2.1 + h.2.2 * h.2.2).natAbs
  let n := clampI (-(hh : Int)) hh (d.1 * h.1 + d.2.1 * h.2.1 + d.2.2 * h.2.2)
  let den := if hh = 0 then 1 else hh
  let t (a b : Int) : Nat := ((a * (den : Int) - (if hh = 0 then 0 else n) * b).natAbs) ^ 2
  (t d.1 h.1 + t d.2.1 h.2.1 + t d.2.2 h.2.2, den * den)

/-- rot(q*, d) of 03 R87, exact: coordinates in units of 2^-298 U. -/
def boxFrame (quat : List Nat) (d : P3) : P3 :=
  let g (i : Nat) : Int := dyadic (quat.getD i 0)
  let w := g 0
  let u : P3 := (-(g 1), -(g 2), -(g 3))
  let cross (a b : P3) : P3 := (a.2.1 * b.2.2 - a.2.2 * b.2.1, a.2.2 * b.1 - a.1 * b.2.2, a.1 * b.2.1 - a.2.1 * b.1)
  let c := cross u d
  let e := cross u c
  let one : Int := ((2 ^ 298 : Nat) : Int)
  (one * d.1 + 2 * w * c.1 + 2 * e.1, one * d.2.1 + 2 * w * c.2.1 + 2 * e.2.1, one * d.2.2 + 2 * w * c.2.2 + 2 * e.2.2)

/-- Least and greatest |b| of a coordinate held to 2^-30 U, rounded outward (04 R131, R140). -/
def held (b : Int) : Int × Int :=
  let m : Int := ((2 ^ 268 : Nat) : Int)
  let lo := b / m
  let hi := -((-b) / m)
  (if lo ≤ 0 ∧ 0 ≤ hi then 0 else min (lo.natAbs : Int) hi.natAbs, max (lo.natAbs : Int) hi.natAbs)

/-- A box's signed distance end from the excess of each axis, in units of 2^-30 U: outside by the root, inside by the greatest. -/
def boxEnd (up : Bool) (e : List Int) : Int :=
  let m : Int := ((2 ^ 30 : Nat) : Int)
  let top := e.foldl max (e.headD 0)
  if top > 0 then
    let num := (e.map (fun x => x.toNat ^ 2)).sum
    (if up then (ceilSqrtQ num (2 ^ 60) : Nat) else (floorSqrtQ num (2 ^ 60) : Nat) : Int)
  else if up then -((-top) / m) else top / m

/-- A primitive meets the ball of radius `r` about `p` (04 R139), decided exactly. -/
def primMeets (q : Prim) (p : P3) (r : Int) : Bool :=
  let c := primU q
  let d : P3 := (p.1 - c.1, p.2.1 - c.2.1, p.2.2 - c.2.2)
  let reach : Int := ((2048 * q.radius : Nat) : Int) + r
  match q.kind with
  | 1 => decide (0 ≤ reach) && decide ((sq3 p c : Int) ≤ reach * reach)
  | 2 => let (n, m) := capsuleSq (1000 * q.ax, 1000 * q.ay, 1000 * q.az) d
         decide (0 ≤ reach) && decide ((n : Int) ≤ reach * reach * (m : Int))
  | 3 =>
    let one : Int := ((2 ^ 298 : Nat) : Int)
    let b := boxFrame q.quat d
    let ex (x : Int) (h : Nat) : Nat := ((x.natAbs : Int) - one * ((2048 * h : Nat) : Int)).toNat
    decide (((ex b.1 q.hx ^ 2 + ex b.2.1 q.hy ^ 2 + ex b.2.2 q.hz ^ 2 : Nat) : Int) ≤ r * r * one * one)
  | _ => polyMeets q.faces q.boundR d r

/-- The interval of a primitive from a point (04 R139 to R141). -/
def primElem (q : Prim) (p : P3) : Elem :=
  let c := primU q
  let d : P3 := (p.1 - c.1, p.2.1 - c.2.1, p.2.2 - c.2.2)
  let r : Int := ((2048 * q.radius : Nat) : Int)
  match q.kind with
  | 1 =>
    let dd := sq3 p c
    { lo := (floorSqrt dd : Nat) - r, hi := some ((ceilSqrt dd : Nat) - r), inside := decide ((dd : Int) < r * r), by_ := 0, grouped := true }
  | 2 =>
    let (n, m) := capsuleSq (1000 * q.ax, 1000 * q.ay, 1000 * q.az) d
    { lo := (floorSqrtQ n m : Nat) - r, hi := some ((ceilSqrtQ n m : Nat) - r), inside := decide ((n : Int) < r * r * (m : Int)), by_ := 0, grouped := true }
  | 3 =>
    let b := boxFrame q.quat d
    let h := [(b.1, q.hx), (b.2.1, q.hy), (b.2.2, q.hz)]
    let half (x : Nat) : Int := ((2048 * 2 ^ 30 * x : Nat) : Int)
    let eps := primEps q p
    let hi := boxEnd true (h.map (fun x => (held x.1).2 - half x.2)) + eps
    { lo := boxEnd false (h.map (fun x => (held x.1).1 - half x.2)) - eps, hi := some hi, inside := decide (hi < 0), by_ := 0, grouped := false }
  | _ =>
    let eps := primEps q p
    let ball := (floorSqrt (sq3 p c) : Nat) - ((2048 * q.boundR : Nat) : Int)
    let (fl, ce) := planeEnds q.faces d
    let rec_ : List Int := [q.cx, q.cy, q.cz, q.boundR] ++ q.faces.flatMap (fun f => f.1.map (fun (b : Nat) => (b : Int)) ++ [f.2])
    { lo := max fl ball - eps,
      hi := (polyBoundary q.faces q.boundR d).map (fun x => x + clampI (-1000) 1000 (Config.polyBoundary rec_ p.1 p.2.1 p.2.2) + 1000 + eps),
      inside := decide (ce + eps < 0) && decide ((ceilSqrt (sq3 p c) : Nat) - ((2048 * q.boundR : Nat) : Int) + eps < 0), by_ := 0, grouped := false }

/-! ## Narrow phase -/

/-- Progress of narrow phase: bounds found so far, elements counted in groups of 4, and how it ended. -/
structure Narrow where
  fl : HiEnd := none
  by_ : Nat := 0
  fh : HiEnd := none
  n : Nat := 0
  budget : Budget
  shed : Bool := false
  inside : Bool := false

/-- Narrow phase has ended early. -/
def Narrow.stop (x : Narrow) : Bool := x.shed || x.inside

/-- One element that meets the narrow ball (04 R139, R146). -/
def takeElem (x : Narrow) (e : Elem) : Narrow :=
  if x.stop then x else
  let cost := if e.grouped then (if x.n % 4 = 0 then 1 else 0) else 4
  match charge x.budget cost with
  | none => { x with shed := true }
  | some b =>
    let x := { x with budget := b, n := if e.grouped then x.n + 1 else x.n }
    if e.inside then { x with inside := true }
    else
      let better := match x.fl with | none => true | some y => decide (e.lo < y) || (e.lo == y && e.by_ != 0 && (x.by_ == 0 || e.by_ == 1))
      { x with fl := hiMin x.fl (some e.lo), by_ := if better then e.by_ else x.by_, fh := hiMin x.fh e.hi }

/-- Squared distance to a closed box [lo, lo + n) per axis. -/
def boxSqU (p lo : P3) (n : Int) : Nat :=
  let t (a l : Int) : Nat := if a < l then (l - a).natAbs ^ 2 else if a > l + n then (a - l - n).natAbs ^ 2 else 0
  t p.1 lo.1 + t p.2.1 lo.2.1 + t p.2.2 lo.2.2

/-- The boundary voxels of one brick (04 R135, R140 order 1). -/
def narrowBrick (fl : Flacon) (p : P3) (r : Int) (x : Narrow) (k : Key) : Narrow :=
  if x.stop then x else
  match brickStep fl k x.budget (fun _ => false) with
  | (.shed, b) => { x with shed := true, budget := b }
  | (.brick vs, b) =>
    (vs.zipIdx.filter (fun v => decide (-224 ≤ v.1.dist) && decide (v.1.dist < 0))).foldl (fun x v =>
      let a := voxAt k v.2
      let dd := boxSqU p (a.1 * 524288, a.2.1 * 524288, a.2.2 * 524288) 524288
      if (dd : Int) ≤ r * r then
        takeElem x { lo := (floorSqrt dd : Nat), hi := some ((ceilSqrt dd : Nat) : Int), inside := dd == 0, by_ := 0, grouped := true }
      else x) { x with budget := b }
  | (_, b) => { x with budget := b }

/-- Narrow phase of one query (04 R139, R140). The rule gives no order of primitives inside a bin: the model takes that of the sealed version's record
list (DESIGN CHOICE, notes/assumptions/114.md). -/
def narrowEval (q : QEnv) (p : P3) (rho : Int) (slices : List Nat) (b : Budget) (lo : LoEnd) (hi : HiEnd) (by_ : Nat) :
    LoEnd × HiEnd × Nat × Bool × Budget :=
  match charge b 8 with
  | none => (lo, hi, by_, true, b)
  | some b =>
    let r := rho + q.e
    let span (a u : Int) : List Int := intSpan ((a - r) / u) ((a + r) / u)
    let keys := (span p.2.2 4194304).flatMap (fun z => (span p.2.1 4194304).flatMap (fun y => (span p.1 4194304).map (fun x => ({ x := x, y := y, z := z } : Key))))
    let keys := keys.filter (fun k => decide ((boxSqU p (k.x * 4194304, k.y * 4194304, k.z * 4194304) 4194304 : Int) ≤ r * r))
    let x := keys.foldl (narrowBrick q.fl p r) { budget := b }
    let binned := q.fl.prims.filter (fun pr => (primCells pr).any (fun c => inWindow q.fl c && decide ((cellSq p.1 p.2.1 p.2.2 c : Int) ≤ r * r)))
    let x := [1, 2, 3, 4].foldl (fun x kd => (binned.filter (fun pr => pr.kind == kd)).foldl (fun x pr =>
      if primMeets pr p r then takeElem x (primElem pr p) else x) x) x
    let cols := match q.fl.fset with
      | none => []
      | some f => (slices.flatMap (fun k => ((f.slices.getD k {}).hard.filter (fun c => fsetHas f c.1 c.2)))).eraseDups
    let cols := sortBy (fun (a b : Int × Int) => decide (a.2 < b.2) || (a.2 == b.2 && decide (a.1 ≤ b.1))) cols
    let x := cols.foldl (fun x c =>
      let t (a k : Int) : Nat := let l := k * cellU; if a < l then (l - a).natAbs ^ 2 else if a > l + cellU then (a - l - cellU).natAbs ^ 2 else 0
      let dd := t p.1 c.1 + t p.2.1 c.2
      if (dd : Int) ≤ r * r then
        takeElem x { lo := (floorSqrt dd : Nat), hi := some ((ceilSqrt dd : Nat) : Int), inside := dd == 0, by_ := 2, grouped := true }
      else x) x
    let x := q.near.foldl (fun x h =>
      let dd := sq3 p (hazU h)
      if (dd : Int) ≤ (hazR h + r) * (hazR h + r) then
        takeElem x { lo := (floorSqrt dd : Nat) - hazR h, hi := some ((ceilSqrt dd : Nat) - hazR h),
                     inside := decide ((dd : Int) < hazR h * hazR h), by_ := 1, grouped := true }
      else x) x
    if x.shed then (lo, hi, by_, true, x.budget)
    else if x.inside then (lo, hiMin hi (some (-rho)), by_, false, x.budget)
    else
      let up : Int := match x.fl with | some f => min (f - rho) q.e | none => q.e
      let rises := loLt lo up && !q.fl.blocking
      let by2 := match x.fl with | some f => if f - rho ≤ q.e then x.by_ else 0 | none => 0
      (if rises then some up else lo, hiMin hi (endAdd x.fh (-rho)), if rises then by2 else by_, false, x.budget)

/-- The brick whose data phase 2 of a query needs (04 R134, R144): the run-ahead fetch performs that brick step, with the budget that the step has in
phase 2, so that a step that is shed stages nothing (11 R365). -/
def brickRead (q : QEnv) (p : P3) (rho : Int) (b : Budget) : Option Key :=
  let b := (charge b ((q.near.length + 3) / 4)).getD b
  let v := topNote q.fl q.src (cellOfU p) * 65536
  if q.reduced || decide (v - rho ≥ q.e) then none else
  match (brickStep q.fl (keyOfU p) b (fun cl => decide (max v (cl * 65536) - rho ≥ q.e))).1 with
  | .brick _ => some (keyOfU p)
  | _ => none

/-- One query: issue, phase 2, escalation (04 R130, R133, R134, R138, R154). `b2` and `b3` are the engine's budgets. -/
def evalQuery (q : QEnv) (p : Option P3) (rho32 t span : Nat) (b2 b3 : Budget) : QRes × Budget × Budget :=
  let b2 := issue b2
  match p with
  | none => ({ nonfinite := true }, b2, b3)
  | some p =>
    let p := toU p
    let rho : Int := ((2048 * rho32 : Nat) : Int)
    let c := cellOfU p
    let prob := if inWindow q.fl c then (match q.fl.fset with | some f => probAt f (sliceAt f t) c.1 c.2.1 | none => 0) else 0
    if !ballInside q.fl p (rho + q.e) then ({ outside := true, prob := prob }, b2, b3) else
    let slices := slicesOver q.fl.fset t span
    let brick := brickRead q p rho b2
    let (lo, hi, by_, sh, b2) := tierEval q p rho slices b2
    let pre := lo
    let esc := !q.reduced && loLt lo q.e && !hiNeg hi
    let (lo, hi, by_, sh3, b3) := if esc then narrowEval q p rho slices b3 lo hi by_ else (lo, hi, by_, false, b3)
    let need := if q.reduced then q.m + 64 * 65536 else q.m
    ({ lo := lo, hi := hi, by_ := by_, narrowed := esc, shed := sh || sh3, prob := prob, pre := pre,
       brick := brick,
       verdict := if loGe lo need then 0 else if hiNeg hi then 2 else 1 }, b2, b3)

/-! ## Candidates -/

/-- Near hazards and `cand.g` (04 R137) for the finite query centres (U) of a candidate. -/
def nearHazards (hs : List Haz) (pts : List P3) (rhoMax e : Int) : List Haz × HiEnd :=
  match pts with
  | [] => ([], none)
  | p :: ps =>
    let lo := ps.foldl (fun (m : P3) x => (min m.1 x.1, min m.2.1 x.2.1, min m.2.2 x.2.2)) p
    let hi := ps.foldl (fun (m : P3) x => (max m.1 x.1, max m.2.1 x.2.1, max m.2.2 x.2.2)) p
    let g (h : Haz) : Int :=
      let c := hazU h
      let t (a l u : Int) : Nat := if a < l then (l - a).natAbs ^ 2 else if a > u then (a - u).natAbs ^ 2 else 0
      ((floorSqrt (t c.1 lo.1 hi.1 + t c.2.1 lo.2.1 hi.2.1 + t c.2.2 lo.2.2 hi.2.2) : Nat) : Int) - hazR h
    (hs.filter (fun h => decide (g h - rhoMax < e)),
     (hs.filter (fun h => !decide (g h - rhoMax < e))).foldl (fun m h => hiMin m (some (g h))) none)

/-- Reduction of the queries, in sample and sphere order, to a verdict record without its cost (04 R148, R151, R152). -/
def reduceQueries (l : List (Nat × Nat × QRes)) (lateSeen : Bool) : VRec :=
  let verdict := l.foldl (fun m x => let v := x.2.2.verdict; if v = 2 then 2 else max m v) 0
  let worst := l.foldl (fun (w : Option (Nat × Nat × QRes)) x =>
    match w with
    | none => some x
    | some y => (match x.2.2.lo, y.2.2.lo with
      | none, some _ => some x
      | some a, some b => if a < b then some x else some y
      | _, none => some y)) none
  let hi := l.foldl (fun (m : HiEnd) x => hiMin m x.2.2.hi) none
  let any (f : QRes → Bool) : Bool := l.any (fun x => f x.2.2)
  match worst with
  | none => {}
  | some (s, sp, w) =>
    { verdict := verdict,
      vflags := flagIf (any (fun r => r.narrowed)) 0 + flagIf (any (fun r => r.shed)) 1 + flagIf (any (fun r => r.outside)) 2 +
        flagIf (any (fun r => r.nonfinite)) 3 + flagIf (w.by_ == 1) 4 + flagIf (w.by_ == 2) 5 + flagIf lateSeen 6,
      ws := s, wsph := sp, lo := lo32 w.lo, hi := hi32 hi }

/-- forecast_cost (04 R149): over samples in ascending order, FP32(P_s) / 255 × w_f. -/
def forecastCost (ps : List Nat) (wf : Nat) : Nat :=
  ps.foldl (fun acc (p : Nat) => fadd acc (fmul (fdiv (fofInt p) (fofInt 255)) wf)) 0

/-- What the features of one sample are formed from (06 R227): τ_s, its pose, its least phase 2 lower end, its forecast probability. -/
structure SampleFeat where
  tau : Nat
  pose : Option Knot
  lo : LoEnd
  prob : Nat

/-- The engines of one cluster in a batch (04 R144 to R147): budgets by engine, the queries dealt so far, and what run-ahead staged: engine, query
number on that engine, brick. -/
structure Deal where
  cl : Nat
  engines : List (Int × Int)
  n : Nat := 0
  staged : List (Nat × Nat × Key) := []

/-- A batch's parameters: body, hazards, margin and refine band in 1/32 mm, forecast weight, whether late hazards are seen,
reduced service. -/
structure BatchEnv where
  fl : Flacon
  src : List (Cell × Int)
  body : Body
  haz : List Haz
  margin : Nat
  band : Nat
  wf : Nat
  late : Bool
  reduced : Bool

/-- A candidate's record, its cost without the learned part, and what its learned cost is formed from. -/
structure CandOut where
  out : VRec := {}
  feats : List SampleFeat := []

/-- One query of a candidate on the engine that it is dealt to (02 R48, 04 R147). -/
def dealQuery (q : QEnv) (p : Option P3) (rho32 t : Nat) (d : Deal) : QRes × Deal :=
  let m := d.engines.length
  let i := if m = 0 then 0 else d.n % m
  let b := d.engines.getD i (0, 0)
  let (r, b2, b3) := evalQuery q p rho32 t 0 (some b.1) (some b.2)
  (r, { d with n := d.n + 1, engines := modifyAt (fun _ => (b2.getD 0, b3.getD 0)) i d.engines,
               staged := d.staged ++ (r.brick.map (fun k => (i, d.n / max 1 m, k))).toList })

/-- Evaluate one candidate on a cluster's engines (04 R137, R148 to R152). -/
def evalCand (e : BatchEnv) (c : Cand) (d : Deal) : CandOut × Deal :=
  let n := c.knots.length
  let sph := e.body.query
  let samples := (List.range c.samples).map (fun s =>
    let pose := samplePose e.body.baseKind c.knots c.dk c.samples s
    (sampleTau n c.dk c.samples s, pose, poseCentres e.body pose))
  let pts := (samples.flatMap (fun x => x.2.2.filterMap id)).map toU
  let rhoMax := sph.foldl (fun m x => max m x.radius) 0
  let el : Int := ((2048 * (e.margin + e.band) : Nat) : Int)
  let (near, g) := nearHazards e.haz pts ((2048 * rhoMax : Nat) : Int) el
  let q : QEnv := { fl := e.fl, src := e.src, m := ((2048 * e.margin : Nat) : Int), e := el, reduced := e.reduced, near := near, g := g }
  let all := samples.zipIdx.flatMap (fun x => x.1.2.2.zipIdx.map (fun y => (x.2, y.2, c.startDt + x.1.1, y.1)))
  let (out, d) := all.foldl (fun (acc : List (Nat × Nat × QRes) × Deal) x =>
    let (r, d) := dealQuery q x.2.2.2 (sph.getD x.2.1 { link := 0, radius := 0, c := [] }).radius x.2.2.1 acc.2
    (acc.1 ++ [(x.1, x.2.1, r)], d)) ([], d)
  let feats := samples.zipIdx.map (fun x =>
    let mine := (out.filter (fun y => y.1 == x.2)).map (fun y => y.2.2)
    { tau := x.1.1, pose := x.1.2.1, lo := mine.tail.foldl (fun m r => loMin m r.pre) ((mine.head?.map (fun r => r.pre)).getD none),
      prob := mine.foldl (fun m r => max m r.prob) 0 : SampleFeat })
  ({ out := { reduceQueries out e.late with cost := fadd c.cost (forecastCost (feats.map (fun x => x.prob)) e.wf) }, feats := feats }, d)

/-- Evaluate a batch (04 R153): position m goes to cluster m mod N of the frame's list; void and malformed positions are NONE. -/
def evalBatch (e : BatchEnv) (clusters : List Nat) (geo : List (Nat × List Nat)) (q : Nat) (cands : List (Option Cand)) :
    List CandOut × List Deal :=
  let ub : Int := ((2800 * q / 512 : Nat) : Int)
  let deals : List Deal := clusters.map (fun c => { cl := c, engines := (lookupD [] c geo).map (fun _ => (ub, ub)) })
  cands.zipIdx.foldl (fun (acc : List CandOut × List Deal) x =>
    match x.1 with
    | none => (acc.1 ++ [{}], acc.2)
    | some c =>
      let i := x.2 % clusters.length
      let (r, d) := evalCand e c (acc.2.getD i { cl := 0, engines := [] })
      (acc.1 ++ [r], modifyAt (fun _ => d) i acc.2)) ([], deals)

/-- The 512 distances of a check brick (03 R79); none when the flacon does not hold it. -/
def checkBrick (fl : Flacon) (k : Key) : Option Bytes :=
  (((probe fl.index true k).1.bind (fun e => viewSlot true e.2)).bind (fun sl => lookupO sl fl.pool)).map (fun vs =>
    (List.range 512).flatMap (fun i => leBytes 2 (unsignedOf 16 (vs.getD i {}).dist)))

/-- Staging area of a run-ahead slot (04 R144, 11 R358). -/
def slotOffset (engine slot : Nat) : Nat := 1024 * (16 * (engine % 8) + slot % 16)

/-- The home core of position `m` of a batch (02 R48): its cluster and logical position, with `n` clusters in service. -/
def homeCore (clusters : List Nat) (m : Nat) : Nat × Nat := (clusters.getD (m % clusters.length) 0, m / clusters.length % 8)

/-- The 24 bytes of a verdict record (04 R150). -/
def vrecBytes (r : VRec) : Bytes :=
  leBytes 1 r.verdict ++ leBytes 1 r.vflags ++ leBytes 1 r.ws ++ [0] ++ leBytes 2 r.wsph ++ zeros 2 ++
  leBytes 4 (unsignedOf 32 r.lo) ++ leBytes 4 (unsignedOf 32 r.hi) ++ leBytes 4 r.cost ++ zeros 4

end Sys2Proof.Machine
end

