-- ==== Sys2Proof/Machine/Hazard.lean ====
section
/-! DEFINITION. The hazard list (03 R113 to R119): MAP_HAZARD, late adds, the changes that a tick makes, and the test of a late
hazard against the Net bank (08 R278). -/

namespace Sys2Proof.Machine

/-! ## The Net bank against a hazard -/

/-- A sample box (S15.16 corners) comes nearer to a hazard's centre than its radius plus the stop margin (08 R278), exactly. -/
def boxHit (box : List Int) (h : Haz) (margin : Nat) : Bool :=
  let t (i : Nat) (c : Int) : Nat :=
    let lo := 1000 * box.getD i 0
    let hi := 1000 * box.getD (i + 3) 0
    if c < lo then (lo - c).natAbs ^ 2 else if c > hi then (c - hi).natAbs ^ 2 else 0
  let c := hazU h
  decide (t 0 c.1 + t 1 c.2.1 + t 2 c.2.2 < (2048 * (h.r + margin)) ^ 2)

/-- A hazard hits a Net's cover. -/
def netHit (n : NetRec) (h : Haz) : Bool := n.boxes.any (fun b => boxHit b h n.stopMargin)

/-- Banked Nets, NEWEST first (08 R273). -/
def banked (s : State) : List NetRec := s.net.newest.toList ++ s.net.previous.toList

/-- A late hazard commits: each banked Net with e in the future that it hits awaits its immediate recertification (08 R278). -/
def lateCommit (at_ : Nat) (h : Haz) (s : State) : State :=
  let hit := ((banked s).filter (fun n => decide (at_ < n.e) && netHit n h)).map (fun n => n.netId)
  { s with net := { s.net with recertTodo := s.net.recertTodo ++ hit.filter (fun i => !s.net.recertTodo.contains i) } }

/-- Count a late add in the frame in which it commits (03 R118). -/
def countLate (c : HazChange) (s : State) : State :=
  let (tag, client) := match findWork s c.wid with | some w => (w.tag, w.client) | none => (0, 0)
  let s := timingChoice 0 c.haz.id s.frame.number tag client s
  let s := modFrame (fun f => { f with hazLate := f.hazLate + 1, timing := f.timing + 1 }) s
  lateCommit c.commit c.haz s

/-! ## Taking effect -/

/-- Insert in list order (03 R114). -/
def insertHaz (h : Haz) (l : List Haz) : List Haz := insertBy (fun a b => decide (a.ord ≤ b.ord)) h l

/-- The slot boundary at which a late add takes effect in the current frame (03 R116), if the frame has one left. -/
def lateBoundary (s : State) (commit : Nat) : Option Nat :=
  match s.frame.cur with
  | none => none
  | some f =>
    if f.slots = 0 ∨ commit < f.tickDt then none else
    let base := f.tickDt + f.w0
    let b := base + ceilDiv (commit + 1000 - base) f.tb * f.tb
    if b < nextTick s then some b else none

/-- The descriptor's changes have all taken effect: none waits, and no hazard it replaces is still in effect (03 R119). -/
def hazSettled (s : State) (wid : Nat) : Bool :=
  !s.world.hazChanges.any (fun c => c.wid == wid) &&
  !s.world.hazards.any (fun h => h.ord / 256 == wid && s.world.hazards.any (fun g => g.id == h.id && decide (g.ord < h.ord)))

/-- A MAP_HAZARD whose last change has taken effect completes (03 R119). -/
def completeHaz1 (late : Bool) (w : Work) (s : State) : State :=
  if hazSettled s w.wid then
    finishWork w 0 (flagIf late 5 + flagIf (suspectNow s) 6 + flagIf late 10) 0 0 (some s.frame.number) s
  else s

/-- Every MAP_HAZARD whose changes have all taken effect completes. -/
def completeHaz (s : State) : State :=
  s.work.foldl (fun s w => match w.item with | .hazard _ late => completeHaz1 late w s | _ => s) s

/-- The hazards that the queries of the frame in progress test: its own list once a skipped tick has changed the unit's (02 R62, 03 R115). -/
def frameHaz (s : State) : List Haz := (s.frame.cur.bind (fun f => f.haz)).getD s.world.hazards

/-- Late adds whose slot boundary has come take effect (03 R116). -/
def applyLate (s : State) : State :=
  let due (c : HazChange) : Bool := c.late && c.committed && (match lateBoundary s c.commit with | some b => decide (b ≤ s.dt) | none => false)
  let now := s.world.hazChanges.filter due
  if now.isEmpty then s else
  let n := match s.frame.cur with | some f => f.number | none => 0
  let add (l : List Haz) : List Haz := now.foldl (fun l c => insertHaz { c.haz with lateFrame := some n } l) l
  completeHaz (modFrame (fun f => { f with haz := f.haz.map add }) { s with world := { s.world with
    hazards := add s.world.hazards, hazChanges := s.world.hazChanges.filter (fun c => !due c) } })

/-- One change at a tick (03 R115, R117): an add enters, a remove acts on the hazards of earlier records. -/
def tickChange (l : List Haz) (c : HazChange) : List Haz :=
  match c.op with
  | 1 => insertHaz c.haz l
  | 2 => l.filter (fun h => !(h.id == c.haz.id && decide (h.ord < c.haz.ord)))
  | _ => l.filter (fun h => !decide (h.ord < c.haz.ord))

/-- The hazard list at a tick of DT `t` (03 R115 to R117): due changes in order, then one hazard for each id, then expiries.
A late add that commits after the tick waits for a slot boundary of the frame that it starts. -/
def hazardTick (t : Nat) (s : State) : State :=
  let due (c : HazChange) : Bool := if c.late then c.committed else decide (c.accept + 20000 ≤ t)
  let l := (s.world.hazChanges.filter due).foldl tickChange s.world.hazards
  let l := l.filter (fun h => !l.any (fun g => g.id == h.id && decide (h.ord < g.ord)))
  let l := l.filter (fun h => !(h.expire != 0 && decide (h.expire < t)))
  { s with world := { s.world with hazards := l.map (fun h => { h with lateFrame := none }),
                                   hazChanges := s.world.hazChanges.filter (fun c => !due c) } }

/-- Adds that the tick of DT `t` shows to be late (03 R115), because no tick was due when they were accepted: those that have committed are counted
now. -/
def lateFound (t : Nat) (s : State) : State :=
  let found (c : HazChange) : Bool := c.op == 1 && !c.late && decide (t < c.accept + 20000)
  let hit := (s.world.hazChanges.filter found).filter (fun c => decide (c.commit < t))
  let s := { s with world := { s.world with hazChanges := s.world.hazChanges.map (fun c =>
    if found c then { c with late := true, committed := decide (c.commit < t) } else c) } }
  hit.foldl (fun s c => countLate c s) s

/-- Late adds that commit in the frame that the tick has started (03 R118). -/
def commitLate (s : State) : State :=
  let todo := s.world.hazChanges.filter (fun c => c.late && !c.committed)
  let s := { s with world := { s.world with hazChanges := s.world.hazChanges.map (fun c => if c.late then { c with committed := true } else c) } }
  todo.foldl (fun s c => countLate c s) s

/-! ## MAP_HAZARD -/

/-- One record (03 R113, R114); `none` when a field that it reads is out of range or a reserved byte is not 0. -/
def parseHaz (ord : Nat) (b : Bytes) : Option (Nat × Haz) :=
  let op := fieldN b 0 1
  let r := fieldN b 16 4
  if fieldN b 1 1 ≠ 0 ∨ fieldN b 0x1C 4 ≠ 0 then none
  else if op = 1 then
    (if r < 1 ∨ r > 262144 then none
     else some (1, { id := fieldN b 2 2, cx := fieldI b 4 4, cy := fieldI b 8 4, cz := fieldI b 12 4, r := r, expire := fieldN b 0x14 8, ord := ord }))
  else if op = 2 ∨ op = 3 then some (op, { id := fieldN b 2 2, cx := 0, cy := 0, cz := 0, r := 0, expire := 0, ord := ord })
  else none

/-- The ids that the list holds after a change (03 R114). -/
def hazIds (ids : List Nat) (op id : Nat) : List Nat :=
  match op with
  | 1 => if ids.contains id then ids else ids ++ [id]
  | 2 => ids.filter (fun i => i != id)
  | _ => []

/-- MAP_HAZARD (03 R113 to R119). R114 does not say whether the limit of 256 counts changes that are accepted and not yet in effect, or how a
descriptor's own removes and adds count: the model takes all of them, in acceptance and record order (DESIGN CHOICE, notes/assumptions/113.md). -/
def execMapHazard (d : Taken) (v : View) (commit : Nat) (s : State) : Out :=
  acceptDesc d v { code := 3 } s fun s =>
    let a := fld d 8 8
    let n := fld d 0x10 2
    withChecks d [(a % 8 != 0, badField 8), (n == 0 || decide (n > 256), badField 0x10), reservedCheck d [(8, 8), (0x10, 2)]] s fun s =>
    withRead d v a (32 * n) s fun b s =>
    let recs := (List.range n).map (fun i => (i, parseHaz (256 * s.nextWid + i) ((b.drop (32 * i)).take 32)))
    match recs.find? (fun r => r.2.isNone) with
    | some (i, _) => refuse d (badRecord i) s
    | none =>
      let ch := recs.filterMap (fun r => r.2)
      let ids := s.world.hazChanges.foldl (fun l c => hazIds l c.op c.haz.id) ((s.world.hazards.map (fun h => h.id)).eraseDups)
      if (ch.foldl (fun l c => hazIds l c.1 c.2.id) ids).length > 256 then refuse d badWhole s else
      let late := lateForTick s d.dt
      let at_ := max d.dt (min commit (d.dt + 2000))
      let mk (c : Nat × Haz) : HazChange :=
        { wid := s.nextWid, op := c.1, haz := c.2, accept := d.dt, late := late && c.1 == 1, commit := at_,
          committed := late && decide (at_ < nextTick s) }
      let changes := ch.map mk
      let s := addWork (mkWork d 0 (.hazard n (changes.any (fun c => c.late))) s) s
      let s := { s with world := { s.world with hazChanges := s.world.hazChanges ++ changes } }
      (changes.filter (fun c => c.late && c.committed)).foldl (fun s c => countLate c s) s

end Sys2Proof.Machine
end

