-- ==== Sys2Proof/Machine/Qp.lean ====
section
/-! DEFINITION. The numerics of one outer iteration of the optimiser (05): kernels (R164, R165), the assembler (R166, R167), the inner
predictor-corrector loop (R174, R175) over its factorisation schedule (R176 to R178), the line search and the merit (R173), and the
residual (R180). Blocks are FP32; sums of products run in FP64 in ascending index and are rounded once (R177). What the rules leave open
of the method is in notes/assumptions/51.md. -/

namespace Sys2Proof.Machine

abbrev Vec := List Nat
abbrev Mat := List (List Nat)

/-! ## Block arithmetic (05 R177) -/

/-- A sum of products of FP32 values in FP64, in ascending index, from a binary64 start. -/
def sop (init : Nat) (x y : Vec) : Nat := (List.zipWith (fun a b => dmul (f2d a) (f2d b)) x y).foldl dadd init

/-- Columns of a matrix with `n` columns. -/
def colsOf (n : Nat) (m : Mat) : Mat := (List.range n).map (fun j => m.map (fun r => r.getD j 0))

/-- C + A B, with B given by its columns; one rounding an entry. -/
def mulAdd (c a bCols : Mat) : Mat :=
  List.zipWith (fun cr ar => List.zipWith (fun x col => d2f (sop (f2d x) ar col)) cr bCols) c a

/-- c + A x. -/
def mvAdd (c : Vec) (a : Mat) (x : Vec) : Vec := List.zipWith (fun y r => d2f (sop (f2d y) r x)) c a

def zeroMat (r c : Nat) : Mat := List.replicate r (List.replicate c 0)

/-- The greater of two binary64 values; NaN when one is. -/
def dmaxN (a b : Nat) : Nat := if fp64.isNan a then a else if fp64.isNan b then b else if dlt a b then b else a

/-- Infinity norm of binary64 values. -/
def infNorm (l : List Nat) : Nat := l.foldl (fun m x => dmaxN m (x % 2 ^ 63)) 0

/-- FP64 1. -/
def dOne : Nat := 0x3FF0000000000000

/-! ## Kernels (05 R164, R165) -/

/-- Values of a kernel: its inputs, then one value per step, in the order that the Accord records. -/
def kernelVals (steps : List KStep) (inp : Vec) : Vec :=
  steps.foldl (fun vs st => vs ++ [match st with
    | .const b => b
    | .op o a b c => vecLane o (vs.getD a 0) (vs.getD b 0) (vs.getD c 0)]) inp

/-- What a kernel returns: value, Jacobian, and the Hessian approximation of a cost kernel. -/
structure KOut where
  value : Vec
  jac : Mat
  hess : Mat

def runKernel (k : Kernel) (inp : Vec) : KOut :=
  let vs := kernelVals k.steps inp
  let pick (l : List Nat) : Vec := l.map (fun i => vs.getD i 0)
  { value := pick k.value, jac := k.jac.map pick, hess := k.hess.map pick }

/-! ## The assembler (05 R166, R167) -/

/-- One inequality of a knot, `ax · dx + au · du + r ≥ 0`: coefficients, slack at the iterate, entry scale; `on` is false for an infinite
limit, whose multiplier is 0. -/
structure Ineq where
  ax : Vec
  au : Vec
  r : Nat
  scale : Nat
  on : Bool

/-- The QP blocks of one knot (05 R167). -/
structure QBlk where
  a : Mat := []
  b : Mat := []
  c : Vec := []
  hxx : Mat := []
  hux : Mat := []
  huu : Mat := []
  gx : Vec := []
  gu : Vec := []
  ineqs : List Ineq := []
  cost : Nat := 0

/-- The QP blocks of an iterate: knots ascending, and the terminal Jacobian and residual. -/
structure Blocks where
  knots : List QBlk
  e : Mat
  ev : Vec

/-- Kernel inputs after state and input: runtime parameters, goal, weights (05 R164, R166). -/
structure QIn where
  x0 : Vec
  tail : Vec

/-- Entry scale `i`: states and inputs, then stage rows, then terminal rows (notes/assumptions/51.md). -/
def scaleAt (c : PClass) (i : Nat) : Nat := c.entryScale.getD i fone

def unitVec (n i v : Nat) : Vec := (List.range n).map (fun j => if j = i then v else 0)

def fnegOne : Nat := 0xBF800000

/-- State and input of knot `k`. -/
def stateOf (c : PClass) (z : Vec) (k : Nat) : Vec := (z.drop (k * (c.nx + c.nu))).take c.nx
def inputOf (c : PClass) (z : Vec) (k : Nat) : Vec := (z.drop (k * (c.nx + c.nu) + c.nx)).take c.nu

/-- Lower and upper bound of one entry: a pair of inequalities. -/
def boundPair (ex eu : Nat → Vec) (v lo hi scale : Nat) : List Ineq :=
  [{ ax := ex fone, au := eu fone, r := fsub v lo, scale := scale, on := ffin lo },
   { ax := ex fnegOne, au := eu fnegOne, r := fsub hi v, scale := scale, on := ffin hi }]

/-- The inequalities of knot `k` in the order of R196: bounds of the free states and inputs, then the stage rows, each lower then upper
(05 R164). -/
def ineqsOf (c : PClass) (k : Nat) (x u gv : Vec) (gj : Mat) : List Ineq :=
  let zx : Vec := List.replicate c.nx 0
  let zu : Vec := List.replicate c.nu 0
  let st := if k = 0 then [] else (List.range c.nx).flatMap (fun i =>
    boundPair (unitVec c.nx i) (fun _ => zu) (x.getD i 0) (c.xLo.getD i 0xFF800000) (c.xHi.getD i 0x7F800000) (scaleAt c i))
  let inp := if k + 1 = c.h then [] else (List.range c.nu).flatMap (fun i =>
    boundPair (fun _ => zx) (unitVec c.nu i) (u.getD i 0) (c.uLo.getD i 0xFF800000) (c.uHi.getD i 0x7F800000) (scaleAt c (c.nx + i)))
  let stage := (List.range c.nc).flatMap (fun i =>
    let row := gj.getD i []
    let sg (v : Nat) (l : Vec) : Vec := if v = fone then l else l.map fneg
    boundPair (fun v => sg v (row.take c.nx)) (fun v => sg v (row.drop c.nx)) (gv.getD i 0) ((c.stageLo.getD k []).getD i 0xFF800000)
      ((c.stageHi.getD k []).getD i 0x7F800000) (scaleAt c (c.nx + c.nu + i)))
  st ++ inp ++ stage

/-- The blocks of knot `k` at iterate `z`. -/
def assembleKnot (c : PClass) (q : QIn) (z : Vec) (k : Nat) : QBlk :=
  let x := stateOf c z k
  let u := inputOf c z k
  let inp := x ++ u ++ q.tail
  let g := runKernel c.kStage inp
  let iq := ineqsOf c k x u g.value g.jac
  if k + 1 = c.h then
    let l := runKernel c.kTermCost inp
    { hxx := (l.hess.take c.nx).map (fun r => r.take c.nx), gx := (l.jac.getD 0 []).take c.nx, ineqs := iq, cost := l.value.getD 0 0 }
  else
    let f := runKernel c.kDyn inp
    let l := runKernel c.kCost inp
    let grad := l.jac.getD 0 []
    { a := f.jac.map (fun r => r.take c.nx), b := f.jac.map (fun r => r.drop c.nx),
      c := List.zipWith fsub f.value (stateOf c z (k + 1)),
      hxx := (l.hess.take c.nx).map (fun r => r.take c.nx), hux := (l.hess.drop c.nx).map (fun r => r.take c.nx),
      huu := (l.hess.drop c.nx).map (fun r => r.drop c.nx), gx := grad.take c.nx, gu := grad.drop c.nx, ineqs := iq,
      cost := l.value.getD 0 0 }

/-- The assembler (05 R167): knots ascending. -/
def assemble (c : PClass) (q : QIn) (z : Vec) : Blocks :=
  let e := runKernel c.kTerm (stateOf c z (c.h - 1) ++ List.replicate c.nu 0 ++ q.tail)
  { knots := (List.range c.h).map (assembleKnot c q z), e := e.jac.map (fun r => r.take c.nx), ev := e.value }

/-! ## Violations, merit, residual (05 R173, R180) -/

/-- A step of the QP: state and input parts, knot by knot. -/
structure Step where
  dx : Mat
  du : Mat

def zeroStep (c : PClass) : Step :=
  { dx := List.replicate c.h (List.replicate c.nx 0), du := List.replicate c.h (List.replicate c.nu 0) }

/-- `a · d + r` of an inequality in FP64. -/
def ineqVal (i : Ineq) (dx du : Vec) : Nat := sop (sop (f2d i.r) i.ax dx) i.au du

/-- A magnitude over its entry scale, in FP64. -/
def scaled64 (v scale : Nat) : Nat := ddiv (v % 2 ^ 63) (f2d scale)

/-- The violation of an inequality whose left side is `v`. -/
def violOf (i : Ineq) (v : Nat) : Nat :=
  if !i.on then 0 else if fp64.isNan v then v else if dlt v 0 then scaled64 v i.scale else 0

/-- Every violation of the QP at a step, each over its entry scale: defects, bounds and stage rows by knot, terminal rows. With the zero
step these are the violations of the iterate itself. -/
def violations (c : PClass) (bl : Blocks) (d : Step) : List Nat :=
  let kn := bl.knots.zipIdx
  let row (k : Nat) : Vec := d.dx.getD k []
  let defects := (kn.take (c.h - 1)).flatMap (fun b =>
    (List.range c.nx).map (fun i =>
      scaled64 (dsub (sop (sop (f2d (b.1.c.getD i 0)) (b.1.a.getD i []) (row b.2)) (b.1.b.getD i []) (d.du.getD b.2 []))
        (f2d ((row (b.2 + 1)).getD i 0))) (scaleAt c i)))
  let iq := kn.flatMap (fun b => b.1.ineqs.map (fun i => violOf i (ineqVal i (row b.2) (d.du.getD b.2 []))))
  let term := (List.zipWith (fun r v => sop (f2d v) r (row (c.h - 1))) bl.e bl.ev).zipIdx.map (fun v =>
    scaled64 v.1 (scaleAt c (c.nx + c.nu + c.nc + v.2)))
  defects ++ iq ++ term

/-- The merit φ (05 R173), in FP64. -/
def meritOf (c : PClass) (q : QIn) (z : Vec) : Nat :=
  let bl := assemble c q z
  let j := (bl.knots.map (fun b => f2d b.cost)).foldl dadd 0
  dadd j (dmul c.merit ((violations c bl (zeroStep c)).foldl dadd 0))

/-- Multipliers: inequalities by knot, dynamics by knot, terminal rows; and the slacks. -/
structure Mults where
  s : Mat
  lam : Mat
  pi : Mat
  nu : Vec

/-- Gradient of the cost at a step, in FP64: state part and input part of a knot. -/
def costGrad (b : QBlk) (dx du : Vec) : List Nat × List Nat :=
  ((b.gx.zipIdx.map (fun g => sop (sop (f2d g.1) (b.hxx.getD g.2 []) dx) (b.hux.map (fun r => r.getD g.2 0)) du)),
   (b.gu.zipIdx.map (fun g => sop (sop (f2d g.1) (b.hux.getD g.2 []) dx) (b.huu.getD g.2 []) du)))

/-- The residual of R180 at a step of the QP: primal, dual and complementarity, all in FP64. -/
structure Kkt where
  primal : Nat
  dual : Nat
  comp : Nat

def kktOf (c : PClass) (bl : Blocks) (d : Step) (m : Mults) : Kkt :=
  let last := c.h - 1
  let grads := bl.knots.zipIdx.map (fun b => costGrad b.1 (d.dx.getD b.2 []) (d.du.getD b.2 []))
  let parts := bl.knots.zipIdx.map (fun b =>
    let k := b.2
    let g := grads.getD k ([], [])
    let lam := m.lam.getD k []
    let pik := m.pi.getD k []
    let lx := if k = 0 then [] else g.1.zipIdx.map (fun x =>
      let t := if k = last then sop x.1 (bl.e.map (fun r => r.getD x.2 0)) m.nu else sop x.1 (b.1.a.map (fun r => r.getD x.2 0)) pik
      let t := dsub t (f2d ((m.pi.getD (k - 1) []).getD x.2 0))
      dsub t (sop 0 (b.1.ineqs.map (fun i => i.ax.getD x.2 0)) lam))
    let lu := if k = last then [] else g.2.zipIdx.map (fun x =>
      dsub (sop x.1 (b.1.b.map (fun r => r.getD x.2 0)) pik) (sop 0 (b.1.ineqs.map (fun i => i.au.getD x.2 0)) lam))
    (lx ++ lu, (if k = 0 then [] else g.1) ++ (if k = last then [] else g.2)))
  let cg := infNorm (parts.flatMap (fun p => p.2))
  { primal := infNorm (violations c bl d), dual := ddiv (infNorm (parts.flatMap (fun p => p.1))) (dmaxN dOne cg),
    comp := (List.zipWith (fun s l => List.zipWith (fun x y => dmul (f2d x) (f2d y)) s l) m.s m.lam).flatten.foldl dmaxN 0 }

/-- The residual: the maximum of its three terms. -/
def Kkt.max (k : Kkt) : Nat := dmaxN (dmaxN k.primal k.dual) k.comp

/-! ## The factorisation schedule (05 R176, R178) -/

/-- Barrier weights λ / s of a knot. -/
def weightsOf (iq : List Ineq) (s lam : Vec) : Vec :=
  iq.zipIdx.map (fun i => if i.1.on then fdiv (lam.getD i.2 0) (s.getD i.2 fone) else 0)

/-- CONDENSE, a Hessian block: H + Σ w a aᵀ over the inequalities, ascending. -/
def condenseMat (h : Mat) (l r : Mat) (w : Vec) : Mat :=
  h.zipIdx.map (fun row => row.1.zipIdx.map (fun x =>
    d2f ((w.zipIdx).foldl (fun acc w =>
      dadd acc (dmul (dmul (f2d w.1) (f2d ((l.getD w.2 []).getD row.2 0))) (f2d ((r.getD w.2 []).getD x.2 0)))) (f2d x.1))))

/-- CONDENSE, a gradient block: g + Σ t a. -/
def condenseVec (g : Vec) (a : Mat) (t : Vec) : Vec :=
  g.zipIdx.map (fun x => d2f (sop (f2d x.1) t (a.map (fun r => r.getD x.2 0))))

/-- Triangular solves with L and D (05 R177): entries FP32, sums and divisions by a pivot FP64, rounded once. -/
def ldltSolve (n : Nat) (f : Ldlt) (b : Vec) : Vec :=
  let lij (i j : Nat) : Nat := f2d ((f.l.getD i []).getD j 0)
  let y := (List.range n).foldl (fun (y : Vec) i =>
    y ++ [d2f ((List.range i).foldl (fun t j => dsub t (dmul (lij i j) (f2d (y.getD j 0)))) (f2d (b.getD i 0)))]) []
  let z := y.zipIdx.map (fun v => d2f (ddiv (f2d v.1) (f.d.getD v.2 dOne)))
  (List.range n).reverse.foldl (fun (x : Vec) i =>
    d2f (x.zipIdx.foldl (fun t v => dsub t (dmul (lij (i + 1 + v.2) i) (f2d v.1))) (f2d (z.getD i 0))) :: x) []

/-- What the backward pass keeps of a knot: P of the next knot, the factors of M, N and K. -/
structure KFac where
  p : Mat
  f : Ldlt
  n : Mat
  k : Mat

/-- PROJECT, FACTOR, GAIN and COST_TO_GO of one knot with the condensed blocks; none when a pivot fails. δ joins the FP64 sum of its entry of M, which is
rounded once; on an ENGINE step that holds M as a block already, it is added with a rounding of its own (`ldltRow`): the rule does not say which of the two
(DESIGN CHOICE, notes/assumptions/51.md). -/
def factorKnot (c : PClass) (delta : Nat) (hxx hux huu : Mat) (b : QBlk) (p : Mat) : Option (KFac × Mat) :=
  let aC := colsOf c.nx b.a
  let bC := colsOf c.nu b.b
  let pa := mulAdd (zeroMat c.nx c.nx) p aC
  let pb := mulAdd (zeroMat c.nx c.nu) p bC
  let paC := colsOf c.nx pa
  let m := huu.zipIdx.map (fun row => row.1.zipIdx.map (fun x =>
    let t := sop (f2d x.1) (bC.getD row.2 []) (pb.map (fun r => r.getD x.2 0))
    d2f (if row.2 = x.2 then dadd t delta else t)))
  let n := mulAdd hux bC paC
  let f := ldltOf c.nu m.flatten 0 c.tauPiv
  if f.bad then none else
  let nC := colsOf c.nx n
  let kC := nC.map (fun col => (ldltSolve c.nu f col).map fneg)
  let p' := hxx.zipIdx.map (fun row => row.1.zipIdx.map (fun x =>
    d2f (sop (sop (f2d x.1) (aC.getD row.2 []) (paC.getD x.2 [])) (nC.getD row.2 []) (kC.getD x.2 []))))
  some ({ p := p, f := f, n := n, k := colsOf c.nu kC }, p')

/-- The backward pass over condensed knots, last first. -/
def factorBack (c : PClass) (delta : Nat) (pEnd : Mat) : List (QBlk × Mat × Mat × Mat) → Option (List KFac × Mat)
  | [] => some ([], pEnd)
  | (b, hxx, hux, huu) :: r =>
    (factorBack c delta pEnd r).bind (fun x => (factorKnot c delta hxx hux huu b x.2).map (fun y => (y.1 :: x.1, y.2)))

/-- 10⁻¹² in binary64. -/
def dTiny : Nat := 0x3D719799812DEA11

/-- The regularisations that a factorisation tries (05 R178): δ₀, then 100 and 10,000 times it, 10⁻¹² standing for 0 in the retries. -/
def deltasOf (c : PClass) : List Nat :=
  let d := if c.delta0 % 2 ^ 63 = 0 then dTiny else c.delta0
  [c.delta0, dmul (dofInt 100) d, dmul (dofInt 10000) d]

/-! ## A solve (05 R176) -/

/-- The backward pass of the gradients: q of the next knot and the feed-forward k of every knot, and q of this knot. -/
def gradBack (c : PClass) (qEnd : Vec) : List (QBlk × KFac × Vec × Vec) → List (Vec × Vec) × Vec
  | [] => ([], qEnd)
  | (b, f, gx, gu) :: r =>
    let (rest, q) := gradBack c qEnd r
    let t := mvAdd q f.p b.c
    let m := mvAdd gu (colsOf c.nu b.b) t
    let k := (ldltSolve c.nu f.f m).map fneg
    let aC := colsOf c.nx b.a
    let nC := colsOf c.nx f.n
    let q' := gx.zipIdx.map (fun x => d2f (sop (sop (f2d x.1) (aC.getD x.2 []) t) (nC.getD x.2 []) k))
    ((q, k) :: rest, q')

/-- ROLL_OUT: states, inputs and dynamics multipliers from knot 0 forward. -/
def rollOut : Vec → List (QBlk × KFac × Vec × Vec) → Mat × Mat × Mat
  | x, [] => ([x], [], [])
  | x, (b, f, q, k) :: r =>
    let u := mvAdd k f.k x
    let x' := List.zipWith (fun v i => d2f (sop (sop (f2d v) (b.a.getD i []) x) (b.b.getD i []) u)) b.c (List.range b.c.length)
    let pi := mvAdd q f.p x'
    let (xs, us, ps) := rollOut x' r
    (x :: xs, u :: us, pi :: ps)

/-- The backward and the forward pass of a solve from gradient `qEnd` at knot H − 1: states, inputs, dynamics multipliers. -/
def pass (c : PClass) (bl : List QBlk) (ks : List KFac) (gs : List (Vec × Vec)) (qEnd : Vec) : Mat × Mat × Mat :=
  let (qk, _) := gradBack c qEnd (List.zipWith (fun b x => (b, x.1, x.2.1, x.2.2)) bl (ks.zip gs))
  rollOut (List.replicate c.nx 0) (List.zipWith (fun b x => (b, x.1, x.2.1, x.2.2)) bl (ks.zip qk))

/-- Where the state of knot H − 1 goes for a gradient there alone: no other gradient and no defect. -/
def respond (c : PClass) (bl : List QBlk) (ks : List KFac) (q : Vec) : Vec :=
  let zero (n : Nat) : Vec := List.replicate n 0
  ((pass c (bl.map (fun b => { b with c := zero c.nx })) ks (bl.map (fun _ => (zero c.nx, zero c.nu))) q).1).getLastD []

/-- TERMINAL (05 R176), with the factorisation: the block −E S of the n_t terminal rows, S the response of the last state to each row's gradient, and its
LDLᵀ, every pivot of which is above 0. The rule gives no formula: the model takes the multipliers with which the step meets the rows (DESIGN CHOICE,
notes/assumptions/51.md). -/
def terminalFactor (c : PClass) (bl : Blocks) (ks : List KFac) : Ldlt :=
  let n := bl.e.length
  let cols := bl.e.map (respond c bl.knots ks)
  ldltOf n (bl.e.flatMap (fun r => cols.map (fun x => fneg (d2f (sop 0 r x))))) 0 0

/-- A factorisation: the knots' factors, and the factors of the terminal rows' block. -/
structure Fact where
  ks : List KFac
  rows : Ldlt

/-- Factorise the condensed QP with one δ; P starts from the terminal cost (05 R176). -/
def factorWith (c : PClass) (bl : Blocks) (w : Mat) (delta : Nat) : Option Fact :=
  let cond (k : Nat) (b : QBlk) : QBlk × Mat × Mat × Mat :=
    let ax := b.ineqs.map (fun i => i.ax)
    let au := b.ineqs.map (fun i => i.au)
    let wk := w.getD k []
    (b, condenseMat b.hxx ax ax wk, condenseMat b.hux au ax wk, condenseMat b.huu au au wk)
  let ks := bl.knots.zipIdx.map (fun b => cond b.2 b.1)
  match ks.getLast? with
  | none => none
  | some l => (factorBack c delta l.2.1 ks.dropLast).bind (fun x =>
    let f := terminalFactor c bl x.1
    if f.bad then none else some { ks := x.1, rows := f })

/-- A factorisation with its retries (05 R178): how many were taken, and the factors unless the third test failed too. -/
def factorise (c : PClass) (bl : Blocks) (w : Mat) : Nat × Option Fact :=
  (deltasOf c).zipIdx.foldl (fun r d => match r.2 with
    | some _ => r
    | none => (d.2, factorWith c bl w d.1)) (0, none)

/-- The blocks at a point `d` of the QP: gradients, defects and terminal residuals taken there, Hessians and Jacobians as they are. -/
def blocksAt (c : PClass) (bl : Blocks) (d : Step) : Blocks :=
  let dx (k : Nat) : Vec := d.dx.getD k []
  { bl with
    knots := bl.knots.zipIdx.map (fun b =>
      let g := costGrad b.1 (dx b.2) (d.du.getD b.2 [])
      { b.1 with
        gx := g.1.map d2f, gu := g.2.map d2f,
        c := b.1.c.zipIdx.map (fun v => d2f (dsub (sop (sop (f2d v.1) (b.1.a.getD v.2 []) (dx b.2)) (b.1.b.getD v.2 []) (d.du.getD b.2 []))
          (f2d ((dx (b.2 + 1)).getD v.2 0)))) }),
    ev := mvAdd bl.ev bl.e (dx (c.h - 1)) }

/-- The step of the QP from the point whose blocks are `bl`, for the given gradient terms `t` of the inequalities, with the multipliers of
dynamics and terminal rows at its end: those of the rows are eliminated before the backward pass that gives the step (05 R176 TERMINAL). -/
def solveQp (c : PClass) (bl : Blocks) (fa : Fact) (t : Mat) : Step × Mat × Vec :=
  let gs := bl.knots.zipIdx.map (fun b =>
    let tk := t.getD b.2 []
    (condenseVec b.1.gx (b.1.ineqs.map (fun i => i.ax)) tk, condenseVec b.1.gu (b.1.ineqs.map (fun i => i.au)) tk))
  let q := (gs.getLastD ([], [])).1
  let nu := if bl.e.isEmpty then [] else
    ldltSolve bl.e.length fa.rows (mvAdd bl.ev bl.e (((pass c bl.knots fa.ks gs q).1).getLastD []))
  let qEnd := if bl.e.isEmpty then q else mvAdd q (colsOf c.nx bl.e) nu
  let (xs, us, ps) := pass c bl.knots fa.ks gs qEnd
  ({ dx := xs, du := us ++ [List.replicate c.nu 0] }, ps, nu)

/-! ## The inner loop (05 R174, R175) -/

/-- The inner loop so far: the step, slacks and multipliers, retries of each completed inner iteration, and how it ended. -/
inductive QpEnd where
  | running | converged | capped | infeasible | factorFail
deriving DecidableEq, Repr

structure Ipm where
  d : Step
  m : Mults
  trace : List Nat := []
  stop : QpEnd := .running
  tries : Nat := 0

/-- Slacks start at max(1, |slack|), their multipliers at 1 (05 R174); a missing limit has multiplier 0. The multipliers of the dynamics and terminal rows,
which have no slack, start at 0: every solve gives them anew (DESIGN CHOICE, notes/assumptions/51.md). -/
def ipmStart (c : PClass) (bl : Blocks) : Ipm :=
  { d := zeroStep c,
    m := { s := bl.knots.map (fun b => b.ineqs.map (fun i => if i.on then fpick true fone (i.r % 2 ^ 31) else fone)),
           lam := bl.knots.map (fun b => b.ineqs.map (fun i => if i.on then fone else 0)),
           pi := List.replicate (c.h - 1) (List.replicate c.nx 0), nu := bl.ev.map (fun _ => 0) } }

/-- Apply `f` to every inequality that has a limit, with its slack, its multiplier and two more values of its own. -/
def mapIneq (bl : Blocks) (m : Mults) (v w : Mat) (f : Ineq → Nat → Nat → Nat → Nat → Nat) : Mat :=
  let at_ (m : Mat) (k i d : Nat) : Nat := (m.getD k []).getD i d
  bl.knots.zipIdx.map (fun b => b.1.ineqs.zipIdx.map (fun i =>
    if !i.1.on then 0 else f i.1 (at_ m.s b.2 i.2 fone) (at_ m.lam b.2 i.2 0) (at_ v b.2 i.2 0) (at_ w b.2 i.2 0)))

/-- One solve of an inner iteration for a target `tgt` of (σμ − correction) / s: the step with the multipliers at its end, and the changes of
slacks and their multipliers. -/
structure Newton where
  d : Step
  pi : Mat
  nu : Vec
  ds : Mat
  dl : Mat

/-- The Newton step at the point whose blocks are `bl`; `rp` are the inequalities' primal residuals there. -/
def newton (c : PClass) (bl : Blocks) (fa : Fact) (m : Mults) (rp tgt : Mat) : Newton :=
  let t := mapIneq bl m rp tgt (fun _ s l p g => d2f (dsub (dmul (f2d (fdiv l s)) (f2d p)) (f2d g)))
  let (d, pi, nu) := solveQp c bl fa t
  let step := bl.knots.zipIdx.map (fun b => b.1.ineqs.map (fun i =>
    d2f (sop (sop 0 i.ax (d.dx.getD b.2 [])) i.au (d.du.getD b.2 []))))
  let ds := mapIneq bl m step rp (fun _ _ _ a p => fadd a p)
  let dl := mapIneq bl m tgt ds (fun _ s l g x => d2f (dsub (dsub (f2d g) (f2d l)) (dmul (f2d (fdiv l s)) (f2d x))))
  { d := d, pi := pi, nu := nu, ds := ds, dl := dl }

/-- 0.995 in binary64. -/
def dFraction : Nat := 0x3FEFD70A3D70A3D7

/-- The greatest step length, at most 1, that leaves `frac` of the way to the boundary (05 R174). -/
def stepLen (frac : Nat) (v dv : Mat) : Nat :=
  (v.flatten.zip dv.flatten).foldl (fun a x =>
    if dlt (f2d x.2) 0 then
      let r := dmul frac (ddiv (f2d x.1) (f2d x.2 ^^^ 2 ^ 63))
      if dlt r a then r else a
    else a) dOne

/-- `x + α (y − x)` entry by entry. -/
def toward (al : Nat) (x y : Mat) : Mat :=
  List.zipWith (List.zipWith (fun a b => d2f (dadd (f2d a) (dmul al (dsub (f2d b) (f2d a)))))) x y

/-- `x + α d` entry by entry. -/
def along (al : Nat) (x d : Mat) : Mat := List.zipWith (List.zipWith (fun a b => d2f (dadd (f2d a) (dmul al (f2d b))))) x d

/-- Mean complementarity of slacks and multipliers. -/
def muOf (n : Nat) (s l : Mat) : Nat :=
  if n = 0 then 0
  else ddiv ((List.zipWith (fun x y => dmul (f2d x) (f2d y)) s.flatten l.flatten).foldl dadd 0) (dofInt (n : Int))

/-- One inner iteration (05 R174): condense and factorise once, solve for the predictor and for the corrector, step. -/
def innerIter (c : PClass) (bl : Blocks) (st : Ipm) : Ipm :=
  let w := bl.knots.zipIdx.map (fun b => weightsOf b.1.ineqs (st.m.s.getD b.2 []) (st.m.lam.getD b.2 []))
  match factorise c bl w with
  | (tries, none) => { st with stop := .factorFail, tries := tries }
  | (tries, some fa) =>
    let here := blocksAt c bl st.d
    let n := (bl.knots.map (fun b => (b.ineqs.filter (fun i => i.on)).length)).sum
    let val := bl.knots.zipIdx.map (fun b => b.1.ineqs.map (fun i => d2f (ineqVal i (st.d.dx.getD b.2 []) (st.d.du.getD b.2 []))))
    let rp := mapIneq bl st.m val [] (fun _ s _ v _ => fsub v s)
    let aff := newton c here fa st.m rp []
    let sA := along (stepLen dOne st.m.s aff.ds) st.m.s aff.ds
    let lA := along (stepLen dOne st.m.lam aff.dl) st.m.lam aff.dl
    let on (v : Mat) : Mat := mapIneq bl st.m v [] (fun _ _ _ x _ => x)
    let mu := muOf n (on st.m.s) (on st.m.lam)
    let r := ddiv (muOf n (on sA) (on lA)) mu
    let smu := if n = 0 then 0 else dmul (dmul (dmul r r) r) mu
    let tgt := mapIneq bl st.m aff.ds aff.dl (fun _ s _ x y => d2f (ddiv (dsub smu (dmul (f2d x) (f2d y))) (f2d s)))
    let nw := newton c here fa st.m rp tgt
    let ap := stepLen dFraction st.m.s nw.ds
    let ad := stepLen dFraction st.m.lam nw.dl
    let d : Step := { dx := along ap st.d.dx nw.d.dx, du := along ap st.d.du nw.d.du }
    let m : Mults := { s := along ap st.m.s nw.ds, lam := along ad st.m.lam nw.dl, pi := toward ad st.m.pi nw.pi,
                       nu := (toward ad [st.m.nu] [nw.nu]).flatten }
    let k := kktOf c bl d m
    let trace := st.trace ++ [tries]
    let tenth := dmul 0x3FB999999999999A c.tol
    { d := d, m := m, trace := trace,
      stop := if dle k.max tenth then .converged
              else if trace.length < c.innerCap then .running
              else if dlt c.thetaInf k.primal then .infeasible else .capped }

/-- The inner loop, at most `n` more iterations. -/
def innerLoop (c : PClass) (bl : Blocks) : Nat → Ipm → Ipm
  | 0, st => st
  | n + 1, st => if st.stop = .running then innerLoop c bl n (innerIter c bl st) else st

/-! ## The line search (05 R173) -/

/-- The iterate `committed + α d`. -/
def trialOf (z : Vec) (d : Step) (al : Nat) : Vec :=
  (along al [z] [(List.zipWith (fun x u => x ++ u) d.dx d.du).flatten]).flatten

/-- α = 1, 1/2, 1/4, 1/8: the first that lowers φ, else 1/8. -/
def lineSearch (c : PClass) (q : QIn) (z : Vec) (d : Step) : Vec :=
  let phi := meritOf c q z
  let eighth := trialOf z d 0x3FC0000000000000
  (([dOne, 0x3FE0000000000000, 0x3FD0000000000000].map (trialOf z d)).find? (fun y => dlt (meritOf c q y) phi)).getD eighth

/-! ## One outer iteration -/

/-- Multipliers in constraint order (05 R196): dynamics, bounds by knot, stage rows by knot, terminal rows. -/
def multOrder (c : PClass) (m : Mults) : Vec :=
  let nb (k : Nat) : Nat := 2 * ((if k = 0 then 0 else c.nx) + (if k + 1 = c.h then 0 else c.nu))
  m.pi.flatten ++ m.lam.zipIdx.flatMap (fun l => l.1.take (nb l.2)) ++ m.lam.zipIdx.flatMap (fun l => l.1.drop (nb l.2)) ++ m.nu

/-- What one outer iteration computes (05 R172 to R180): inner iterations, retries of each, the QP's end, the line-searched iterate (binary32
states and inputs), its multipliers, residual and merit (binary64). -/
structure OuterResult where
  inner : Nat
  retries : Nat
  factorFail : Bool
  infeasible : Bool
  z : Vec
  mult : Vec
  residual : Nat
  merit : Nat
  trace : List Nat := []
deriving DecidableEq, Repr

/-- One outer iteration from the committed iterate `z` (05 R172): assemble, inner loop, line search, residual. Complementarity (R180) takes the slack
variables and the multipliers that the inner loop left, not the slacks of the constraints at the line-searched iterate, which the rule could mean too
(DESIGN CHOICE, notes/assumptions/51.md). -/
def outerIter (c : PClass) (q : QIn) (z : Vec) : OuterResult :=
  let bl := assemble c q z
  let ip := innerLoop c bl c.innerCap (ipmStart c bl)
  let y := lineSearch c q z ip.d
  { inner := ip.trace.length, retries := ip.trace.sum + ip.tries, factorFail := ip.stop == .factorFail, infeasible := ip.stop == .infeasible,
    z := y, mult := multOrder c ip.m, residual := (kktOf c (assemble c q y) (zeroStep c) ip.m).max, merit := meritOf c q y,
    trace := ip.trace ++ (if ip.stop == .factorFail then [ip.tries] else []) }

end Sys2Proof.Machine
end

