-- ==== Sys2Proof/Machine/Opt.lean ====
section
/-! DEFINITION. The trajectory optimiser (05): measurement blocks, warm starts, variants, the commit and stop rules, the deadline
cut, and SOLVE. What an outer iteration computes is in Sys2Proof/Machine/Qp.lean. -/

namespace Sys2Proof.Machine

/-! ## Measurements -/

/-- Entries of a knot: n_x + n_u. -/
def clsEntries (c : PClass) : Nat := c.nx + c.nu

/-- A measurement block (05 R170). -/
def parseMeas (b : Bytes) : Meas :=
  let l (o n : Nat) : List Nat := (List.range n).map (fun i => fieldN b (o + 4 * i) 4)
  { startDt := fieldN b 0 8, ax := fieldI b 8 4, ay := fieldI b 12 4, az := fieldI b 16 4, yaw := fieldI b 20 4,
    x0 := l 0x20 24, goal := l 0x80 24, params := l 0xE0 32 }

/-- The checks of R170 and R201: finite, reserved bytes 0, and entries beyond the class's n_x and n_p 0. -/
def measOk (c : Option PClass) (b : Bytes) : Bool :=
  let m := parseMeas b
  fieldN b 0x18 8 == 0 && m.x0.all ffin && m.goal.all ffin && m.params.all ffin &&
  (match c with
  | some c => (m.x0.drop c.nx).all (fun x => x == 0) && (m.goal.drop c.nx).all (fun x => x == 0) && (m.params.drop c.np).all (fun x => x == 0)
  | none => true)

/-- A class of the loaded Accord. -/
def classOf (s : State) (i : Nat) : Option PClass := s.accord.bind (fun a => a.classes[i]?)

/-- The structure fingerprint of a class (05 R163): the CRC-64 of its structure record. Weights, bounds, tolerances and caps are no part of
it. -/
def fingerprintOf (c : PClass) : Nat :=
  let m := c.smap
  crc64 (Config.structureRecord ([c.h, c.nx, c.nu, c.nc, c.nt, c.dk, c.schedule, m.baseX, m.baseY, m.baseZ, m.samples,
      (match m.yaw with | some i => i + 1 | none => 0), m.quat.length] ++ m.quat ++ [m.joints.length] ++ m.joints ++ [m.rates.length] ++ m.rates ++
    c.sparsity.flatMap (fun p => [p.1, p.2])))

/-- The inputs of the assembler (05 R166) besides the class and the iterate. -/
def qinOf (c : PClass) (m : Meas) : QIn := { x0 := m.x0.take c.nx, tail := m.params.take c.np ++ m.goal.take c.nx ++ c.weights }

/-! ## Start iterates -/

/-- Knot `k` of a trajectory. -/
def knotOf (c : PClass) (z : Traj) (k : Nat) : List Nat := (z.drop (k * (clsEntries c))).take (clsEntries c)

/-- x₀ at knot 0 and zero inputs at knot H − 1 (05 R164, R188). -/
def pinEnds (c : PClass) (x0 : List Nat) (ks : List (List Nat)) : Traj :=
  (ks.zipIdx.flatMap (fun x =>
    let st := if x.2 = 0 then x0.take c.nx else x.1.take c.nx
    let inp := if x.2 + 1 = c.h then List.replicate c.nu 0 else x.1.drop c.nx
    st ++ inp))

/-- The hold start (05 R186): x₀ at every knot and zero inputs. -/
def holdStart (c : PClass) (x0 : List Nat) : Traj :=
  (List.range c.h).flatMap (fun _ => x0.take c.nx ++ List.replicate c.nu 0)

/-- A stored trajectory shifted and resampled onto the class's knots (05 R188). -/
def resample (c : PClass) (e : Warm) (startDt : Nat) (x0 : List Nat) : Traj :=
  let s : Int := (startDt : Int) - e.startDt
  let last := c.h - 1
  let at_ (k : Nat) : List Nat :=
    let t : Int := (k * c.dk : Nat) + s
    if t < 0 then knotOf c e.traj 0
    else if t > (last * e.dk : Nat) then knotOf c e.traj last
    else
      let t := t.toNat
      let j := min (t / e.dk) (c.h - 2)
      let u := fdiv (fofInt ((t - j * e.dk : Nat) : Int)) (fofInt (e.dk : Int))
      List.zipWith (fun v w => fadd v (fmul u (fsub w v))) (knotOf c e.traj j) (knotOf c e.traj (j + 1))
  pinEnds c x0 ((List.range c.h).map at_)

/-- Outcome of `warm_accept` for a seed slot (05 R188): a start iterate, or proposal number `p` when the networks deliver it;
and whether a fingerprint was refused. -/
structure Accepted where
  start : Traj
  proposal : Option Nat
  ignored : Bool

def warmFallback (c : PClass) (x0 : List Nat) (nProp j : Nat) (ignored : Bool) : Accepted :=
  { start := holdStart c x0, proposal := if nProp > 0 then some (j % nProp) else none, ignored := ignored }

def warmAccept (store : List (Nat × Warm)) (c : PClass) (m : Meas) (nProp j : Nat) : Accepted :=
  match lookupO j store with
  | none => warmFallback c m.x0 nProp j false
  | some e =>
    if e.fingerprint ≠ fingerprintOf c then warmFallback c m.x0 nProp j true
    else { start := resample c e m.startDt m.x0, proposal := none, ignored := false }

/-! ## Variants -/

/-- One knot of a variant (05 R193): base, yaw or quaternion, joints, rates; inputs unchanged. -/
def variantKnot (a : Accord) (c : PClass) (m : Meas) (p : Perturb) (k : Nat) (z : List Nat) : List Nat :=
  let mp := c.smap
  let w := if p.ramp = 0 then fone else
    let q := fdiv (fofInt (k : Int)) (fofInt (p.ramp : Int))
    if (d32 fone).lt (d32 q) then fone else q
  let get (z : List Nat) (i : Nat) : Nat := z.getD i 0
  let put (z : List Nat) (i v : Nat) : List Nat := modifyAt (fun _ => v) i z
  let dw := fmul p.lateral w
  let z := match a.baseKind with
    | 1 =>
      let th := fadd (yawRad m.yaw) (match mp.yaw with | some i => get z i | none => 0)
      let z := put z mp.baseX (fadd (get z mp.baseX) (fmul (fneg (fsin th)) dw))
      put z mp.baseY (fadd (get z mp.baseY) (fmul (fcos th) dw))
    | 2 =>
      let v := rotF (quatOf (mp.quat.map (get z))) (0, fone, 0)
      let n := fsqrt (fadd (fmul v.1 v.1) (fmul v.2.1 v.2.1))
      if (d32 n).lt (FVal.fin false 1 (-10)) then z
      else
        let z := put z mp.baseX (fadd (get z mp.baseX) (fmul (fdiv v.1 n) dw))
        put z mp.baseY (fadd (get z mp.baseY) (fmul (fdiv v.2.1 n) dw))
    | _ => z
  let row := if p.jointRow = 255 then none else some (a.jointOffsets.getD p.jointRow [])
  let z := match row with
    | none => z
    | some r => mp.joints.zipIdx.foldl (fun z x => put z x.1 (fadd (get z x.1) (fmul w (r.getD x.2 0)))) z
  let inv := fdiv fone p.sigma
  mp.rates.foldl (fun z i => put z i (fmul (get z i) inv)) z

/-- The variant's states and inputs (05 R193). -/
def variantTraj (a : Accord) (c : PClass) (m : Meas) (p : Perturb) (z : Traj) : Traj :=
  (List.range c.h).flatMap (fun k => variantKnot a c m p k (knotOf c z k))

/-- Its knot step: σ × Δk in FP64, to the nearest ns (05 R193). -/
def variantDk (c : PClass) (p : Perturb) : Nat := (((d64 (dmul (f2d p.sigma) (dofInt (c.dk : Int)))).toIntRound).getD 0).toNat

/-- FP64(2π). -/
def dTwoPi : Nat := 0x401921FB54442D18

/-- A candidate knot from a variant's state (05 R194); `none` when non-finite. -/
def variantCandKnot (a : Accord) (c : PClass) (m : Meas) (z : List Nat) : Option Knot :=
  let mp := c.smap
  let get (i : Nat) : Nat := z.getD i 0
  let base (anchor : Int) (i : Nat) : Option Int :=
    (toS1516 (d32 (get i))).bind (fun o => if inI32 (anchor + o) then some (anchor + o) else none)
  let joints := mp.joints.map get
  if !joints.all ffin then none else
  match a.baseKind with
  | 1 =>
    let psi := match mp.yaw with | some i => get i | none => 0
    match base m.ax mp.baseX, base m.ay mp.baseY, (d64 (ddiv (dmul (f2d psi) (dofInt (2 ^ 32))) dTwoPi)).toIntRound with
    | some x, some y, some yw => some { x := x, y := y, z := 0, yaw := wrap32 (m.yaw + yw), quat := [], joints := joints }
    | _, _, _ => none
  | 2 =>
    let q := mp.quat.map get
    match base m.ax mp.baseX, base m.ay mp.baseY, base m.az mp.baseZ with
    | some x, some y, some zz => if q.all ffin then some { x := x, y := y, z := zz, yaw := 0, quat := q, joints := joints } else none
    | _, _, _ => none
  | _ => some { x := 0, y := 0, z := 0, yaw := 0, quat := [], joints := joints }

/-- The candidate knots of a variant's trajectory. -/
def variantKnots (a : Accord) (c : PClass) (m : Meas) (vt : Traj) : List (Option Knot) :=
  (List.range c.h).map (fun k => variantCandKnot a c m (knotOf c vt k))

/-- Variant `p` of a returned trajectory with its merit (05 R193 to R195). -/
def variantCand (a : Accord) (c : PClass) (m : Meas) (p : Perturb) (z : Traj) (merit : Nat) : Cand :=
  { startDt := m.startDt + p.startOffset, dk := variantDk c p, samples := c.smap.samples,
    knots := variantKnots a c m (variantTraj a c m p z), cost := f32 ((d64 merit).add (d32 p.cost)) }

/-! ## Optimisations -/

def findOpt (s : State) (wid idx : Nat) : Option Opt := s.opts.find? (fun o => o.wid == wid && o.idx == idx)

def setOpt (o : Opt) (s : State) : State :=
  { s with opts := s.opts.map (fun x => if x.wid = o.wid ∧ x.idx = o.idx then o else x) }

/-- The class of an optimisation's work item. -/
def optClass (s : State) (wid : Nat) : Option PClass :=
  (findWork s wid).bind (fun w => match w.item with
    | .frameRun f => classOf s f.optClass
    | .solve v => classOf s v.cls
    | _ => none)

/-- The deadline of an optimisation has passed (05 R183). -/
def deadlinePassed (o : Opt) (t : Nat) : Bool := match o.deadline with | some d => decide (d ≤ t) | none => false

/-- The inputs of an optimisation's assembler: the measurement of its FRAME_RUN or of its problem record (05 R166). -/
def optIn (c : PClass) (s : State) (wid idx : Nat) : Option QIn :=
  (findWork s wid).bind (fun w => match w.item with
    | .frameRun f => some (qinOf c f.meas)
    | .solve v => (v.probs[idx]?).map (fun p => qinOf c p.meas)
    | _ => none)

/-- The merit φ of an iterate of an optimisation (05 R173). -/
def optMerit (s : State) (o : Opt) (z : Traj) : Nat :=
  match optClass s o.wid with
  | some c => (match optIn c s o.wid o.idx with | some q => meritOf c q z | none => 0)
  | none => 0

/-- One optimisation comes before another in the order of their core (05 R168): by position, and seeds that a fence or reduced service brings onto one
core with the same position, of which the rule does not speak, by seed slot (DESIGN CHOICE, notes/assumptions/132.md). -/
def optBefore (x o : Opt) : Bool := decide (x.pos < o.pos) || (x.pos == o.pos && decide (x.idx < o.idx))

/-- An optimisation has to wait for its core or its turn (05 R168, R199): its core runs another one, or one before it in the order, on its core
for a seed, among the problems for a SOLVE, has neither started nor stopped. -/
def mustWait (s : State) (w : Work) (o : Opt) : Bool :=
  s.opts.any (fun x => !(x.wid == o.wid && x.idx == o.idx) && x.stop.isNone &&
    ((x.core == o.core && x.started) ||
     (x.wid == o.wid && optBefore x o && !x.started && (x.core == o.core || (match w.item with | .solve _ => true | _ => false)))))

/-- OPTIMISATION_START (05 R168, R172, R199): a core starts one optimisation at a time, in its order; a seed from a proposal waits for it. -/
def execOptimisationStart (t wid idx : Nat) (s : State) : Out :=
  runAt t s fun s =>
    match findOpt s wid idx, findWork s wid with
    | some o, some w =>
      let waits := o.fromProposal && (match s.frame.cur with | some f => f.proposalState == 0 | none => false)
      if o.started || o.stop.isSome || mustWait s w o || waits || deadlinePassed o s.dt then s else
      let dl := match w.item with
        | .solve v => if v.budget = 0 then none else some (s.dt + v.budget)
        | _ => o.deadline
      setOpt { o with started := true, startDt := s.dt, merit := optMerit s o o.cur, deadline := dl } s
    | _, _ => s

/-- An entry exceeds 10⁶ times its class entry scale (05 R172). -/
def exceedsMagnitude (c : PClass) (z : Traj) : Bool :=
  z.zipIdx.any (fun x =>
    let sc := d32 (c.entryScale.getD (x.2 % (clsEntries c)) fone)
    (sc.mul (FVal.ofI 1000000)).lt (d32 x.1).abs)

/-- Digest of an iterate set (05 R196). -/
def iterateDigest (z mult : List Nat) : Nat := crc64 ((z ++ mult).flatMap (leBytes 4))

/-- The end of one outer iteration (05 R172): a failed QP stops; a runaway step stops; else the iterate commits and the stop tests
run in order. -/
def outerStep (c : PClass) (o : Opt) (r : OuterResult) : Opt :=
  let o := { o with inner := o.inner + r.inner, retries := o.retries + r.retries }
  if r.factorFail then { o with stop := some 5 }
  else if r.infeasible then { o with stop := some 4 }
  else
    let n := o.outer + 1
    if !r.z.all ffin || exceedsMagnitude c r.z then { o with stop := some 3 }
    else if decide (n ≥ 2) && dlt (dmul (dofInt 1000) o.r1) r.residual then { o with stop := some 3 }
    else
      { o with outer := n, valid := true, cur := r.z, merit := r.merit, resid := r.residual, r1 := if n = 1 then r.residual else o.r1,
               digests := o.digests ++ [iterateDigest r.z r.mult],
               stop := if dle r.residual c.tol then some 0 else if n = c.outerCap then some 1 else none }

/-- OUTER_COMMIT (05 R172, R181, R183): the outer iteration in progress ends. `cmp` is the DT of the comparison before its flip, or before the
block step that ended its QP; at or past the deadline that comparison cuts the optimisation instead. -/
def execOuterCommit (t wid idx cmp : Nat) (s : State) : Out :=
  runAt t s fun s =>
    match findOpt s wid idx, optClass s wid, findWork s wid with
    | some o, some c, some w =>
      (match optIn c s wid idx with
      | none => s
      | some q =>
        if !o.started || o.stop.isSome || decide (s.dt < cmp) || deadlinePassed o cmp then s else
        let o' := outerStep c o (outerIter c q o.cur)
        let s := setOpt { o' with stopFrame := s.frame.number } s
        if o'.outer = o.outer then s else logWork w 2 (o'.digests.getLastD 0) w.bound idx o'.outer 3 s)
    | _, _, _ => s

/-- What the abandoned outer iteration adds to the counts of an optimisation (05 R184, R200): `inner` completed inner iterations with their
retries, and `tries` retries of the factorisation in progress. -/
def cutCounts (s : State) (o : Opt) (inner tries : Nat) : Nat × Nat :=
  match optClass s o.wid with
  | none => (0, 0)
  | some c =>
    match optIn c s o.wid o.idx with
    | none => (0, 0)
    | some q =>
      let r := outerIter c q o.cur
      let i := min inner r.inner
      (i, (r.trace.take i).sum + min tries (r.trace.getD i 0))

/-- The optimisation as the cut leaves it (05 R184): a started one keeps what it counted; one that never started has the merit of its start
iterate. -/
def atCut (s : State) (o : Opt) (inner tries : Nat) : Opt :=
  if o.started then
    let c := cutCounts s o inner tries
    { o with inner := o.inner + c.1, retries := o.retries + c.2 }
  else { o with merit := optMerit s o o.cur }

/-- DEADLINE_CUT (05 R184). -/
def execDeadlineCut (t wid idx inner tries : Nat) (s : State) : Out :=
  runAt t s fun s =>
    match findOpt s wid idx with
    | some o =>
      if o.stop.isSome || !deadlinePassed o s.dt then s
      else cutOpt wid idx (setOpt (atCut s o inner tries) s)
    | none => s

/-! ## SOLVE -/

/-- Bytes of one problem result, rounded up to a multiple of 8 (05 R200). -/
def solveResultBytes (c : PClass) : Nat := 8 * ceilDiv (32 + 4 * c.h * (clsEntries c)) 8

/-- Bytes of a problem record (05 R198). -/
def probBytes (warm : Bool) (c : Option PClass) : Nat :=
  352 + (if warm then 16 + (match c with | some c => 4 * c.h * (clsEntries c) | none => 0) else 0)

/-- A problem record. -/
def parseProb (warm : Bool) (c : Option PClass) (b : Bytes) : Prob :=
  { meas := parseMeas b,
    warm := if warm then some (fieldN b 352 8, fieldN b 360 8,
        (List.range ((probBytes warm c - 368) / 4)).map (fun i => fieldN b (368 + 4 * i) 4)) else none }

/-- A problem record without fault (05 R201). -/
def probOk (warm : Bool) (c : Option PClass) (b : Bytes) : Bool :=
  measOk c b && (match (parseProb warm c b).warm with | some (_, _, z) => z.all ffin | none => true)

/-- Frame bound by a target (02 R41): 0 binds by acceptance time. -/
def boundOf (s : State) (d : Taken) : Nat := if fld d 8 8 = 0 then bindFrame s d.dt else fld d 8 8

/-- A non-zero target frame that has been admitted already (02 R41). -/
def targetPast (s : State) (d : Taken) : Bool := fld d 8 8 != 0 && s.frame.ticking && decide (fld d 8 8 ≤ s.frame.number)

/-- The Accord has a section of a type (11 R367). -/
def hasSection (s : State) (code : Nat) : Bool := match s.accord with | some a => a.sections.any (fun x => x.1 == code) | none => false

/-- SOLVE (05 R197 to R201). -/
def execSolve (d : Taken) (v : View) (s : State) : Out :=
  acceptDesc d v { code := 7, reduced := false } s fun s =>
    let stride := fld d 0x20 4
    let budget := fld d 0x28 4
    let n := fld d 0x2C 2
    let cls := classOf s (fld d 0x2E 1)
    let warm := bitOf (fld d 0x2F 1) 0
    let rb := probBytes warm cls
    withChecks d [(targetPast s d, badField 8), (fld d 0x10 8 % 8 != 0, badField 0x10), (fld d 0x18 8 % 8 != 0, badField 0x18),
      (stride % 8 != 0 || decide (stride < rb), badField 0x20), (budget != 0 && (decide (budget < 1000) || decide (budget > 10000000)), badField 0x28),
      (n == 0 || decide (n > 4096), badField 0x2C), (decide (fld d 0x2F 1 > 1), badField 0x2F), reservedCheck d [(8, 0x28)]] s fun s =>
    let recs := (List.range n).map (fun i => (i, hostRead v s (fld d 0x10 8 + stride * i) rb))
    let failed := recs.filter (fun r => r.2.isNone)
    let s := failed.foldl (fun s r => takeEvent 155 (fld d 0x10 8 + stride * r.1) 0 s) s
    if !failed.isEmpty then refuse d { status := 0x21, aux0 := 155, aux1 := 0 } s else
    let bytes := recs.map (fun r => (r.1, r.2.getD []))
    match bytes.find? (fun r => !probOk warm cls r.2) with
    | some (i, _) => refuse d (badRecord i) s
    | none =>
      match cls, s.accord with
      | some c, some a =>
        if !c.solve || a.solveStarts == 0 || !hasSection s 9 then refuse d mismatchFail s else
        let need := 0x40 + n * solveResultBytes c
        if fld d 0x24 4 < need then refuse d (tooSmall need) s else
        addWork (mkWork d (boundOf s d) (.solve {
          target := fld d 8 8, cls := fld d 0x2E 1, probs := bytes.map (fun r => parseProb warm cls r.2),
          resultAddr := fld d 0x18 8, budget := budget, todo := List.range n }) s) s
      | _, _ => refuse d mismatchFail s

/-- Start problem `i` of a SOLVE (05 R189, R199), on the core that the plan names or, for a core of a fenced cluster, on the cluster's replacement: its
optimisation is set up; a warm start with another fingerprint is ignored. A problem that restarts after a fence counts that refusal again in
`warm_ignored`, of which the rule does not speak (DESIGN CHOICE, notes/assumptions/132.md). -/
def startProblem (w : Work) (sv : SvWork) (i : Nat) (s : State) : State :=
  match classOf s sv.cls, sv.probs[i]?, s.accord with
  | some c, some p, some a =>
    let (start, ign) := match p.warm with
      | none => (holdStart c p.meas.x0, 0)
      | some (fp, sdt, z) =>
        if fp = fingerprintOf c then (resample c { fingerprint := fp, startDt := sdt, dk := c.dk, traj := z } p.meas.startDt p.meas.x0, 0)
        else (holdStart c p.meas.x0, 1)
    let c0 := a.soloCores.getD (i % a.soloCores.length) 0
    let core := 8 * placeCluster s (c0 / 8) + c0 % 8
    let sv := { sv with todo := sv.todo.filter (fun j => j != i), running := sv.running ++ [i], warmIgnored := sv.warmIgnored + ign,
                        firstFrame := some (sv.firstFrame.getD s.frame.number), deferred := sv.deferred || decide (s.frame.number > w.bound) }
    let s := { s with opts := s.opts ++ [{ wid := w.wid, idx := i, core := core, pos := i, start := start, deadline := none, cur := start }] }
    setItem w.wid (.solve sv) s
  | _, _, _ => s

/-- The bytes of one problem result (05 R200). -/
def solveResult (c : PClass) (p : Prob) (r : OptRes) : Bytes :=
  padTo 8 (leBytes 1 r.stop ++ leBytes 1 (b2n r.valid) ++ leBytes 1 r.outer ++ leBytes 1 r.retries ++ leBytes 2 r.inner ++ zeros 2 ++
    leBytes 4 (if r.valid then d2f r.residual else fp32.topBits) ++ leBytes 4 (d2f r.merit) ++ leBytes 8 (fingerprintOf c) ++
    leBytes 8 p.meas.startDt ++ r.traj.flatMap (leBytes 4))

/-- Flags of a SOLVE (05 R199 to R201, 09 R320). -/
def solveFlags (s : State) (sv : SvWork) : Nat :=
  flagIf (sv.results.any (fun r => r.2.stop == 2)) 0 + flagIf (sv.warmIgnored > 0) 4 + flagIf (suspectNow s) 6 +
  flagIf (sv.degraded || degraded s) 8 + flagIf (sv.timing > 0) 10 + flagIf sv.deferred 11

/-- The SOLVE record (05 R200). -/
def solveRecord (c : PClass) (sv : SvWork) (status flags : Nat) : Bytes :=
  let res := (List.range sv.probs.length).filterMap (fun i => lookupO i sv.results)
  let count (f : Nat → Bool) : Nat := (res.filter (fun r => f r.stop)).length
  let body := (List.zipWith (solveResult c) sv.probs res).flatMap id
  let b := leBytes 4 (0x40 + body.length) ++ leBytes 2 3 ++ leBytes 1 status ++ [0] ++ leBytes 4 flags ++ leBytes 4 sv.probs.length ++
    leBytes 8 (sv.firstFrame.getD 0) ++ leBytes 8 sv.lastFrame ++ leBytes 2 (count (fun x => x == 0)) ++ leBytes 2 (count (fun x => x == 1)) ++
    leBytes 2 (count (fun x => x == 2)) ++ leBytes 2 (count (fun x => decide (3 ≤ x))) ++ leBytes 2 sv.warmIgnored ++ leBytes 2 sv.timing ++
    zeros 4 ++ leBytes 8 (foldDigests (res.flatMap (fun r => r.digests))) ++ zeros 8 ++ body
  patchAt b 0x38 (leBytes 8 (crc64 b))

/-- Complete a SOLVE whose problems have all stopped. -/
def finishSolve (w : Work) (c : PClass) (sv : SvWork) (s : State) : State :=
  let ok := sv.results.all (fun r => r.2.stop == 0)
  let flags := solveFlags s sv
  let rec_ := solveRecord c sv (b2n (!ok)) flags
  let s := hostWrite w.id s sv.resultAddr rec_
  let s := logWork w 1 (fieldN rec_ 0x38 8) w.bound 3 0 7 s
  finishWork w (b2n (!ok)) flags 0 0 (some w.bound) s

/-- SOLVE_PROBLEM_STOP (05 R200): the result of a stopped problem; with the last one the record and the completion. -/
def execSolveProblemStop (t wid idx : Nat) (s : State) : Out :=
  runAt t s fun s =>
    match findOpt s wid idx, findWork s wid with
    | some o, some w =>
      (match o.stop, w.item with
      | some reason, .solve sv =>
        (match classOf s sv.cls with
        | none => s
        | some c =>
          let r : OptRes := { stop := reason, valid := o.valid, outer := o.outer, retries := o.retries, inner := o.inner,
                              residual := o.resid, merit := o.merit, traj := o.cur, digests := o.digests }
          let sv := { sv with running := sv.running.filter (fun i => i != idx), results := insertKey idx r sv.results, lastFrame := max sv.lastFrame o.stopFrame }
          let s := setItem wid (.solve sv) { s with opts := s.opts.filter (fun x => !(x.wid == wid && x.idx == idx)) }
          if sv.results.length = sv.probs.length then finishSolve w c sv s else s)
      | _, _ => s)
    | _, _ => s

end Sys2Proof.Machine
end

