-- ==== Sys2Proof/Machine/Net.lean ====
section
/-! DEFINITION. The Net (08): settings, certification, the bank, firing, heartbeats and drive requests, and the Net port. -/

namespace Sys2Proof.Machine

/-! ## Settings -/

/-- The settings in force; the defaults of R291 before any CONFIGURE. -/
def netCfg (s : State) : NetCfg := s.net.cfg.getD {}

/-- V in force, in ns: that of the CONFIGURE in effect, or what a FRAME_PERIOD has raised it to until a CONFIGURE restores the relation (08 R277). -/
def vInForce (s : State) : Nat := s.net.vHeld.getD (1000 * (netCfg s).validityUs)

/-- The window that a certification uses, in ns: never below three periods (08 R277, 16 R494). -/
def validityNs (s : State) : Nat := max (vInForce s) (3 * periodNs s)

/-- V in force is too short for the period. -/
def vShort (s : State) : Bool := decide (vInForce s < 3 * periodNs s)

/-- The supply flag of a completion (15 R460). -/
def susFlag (s : State) : Nat := flagIf (suspectNow s) 6

/-! ## States of the Net block -/

/-- A Net comes into force: NO_NET becomes ARMED and SAFE_STOP is deasserted (08 R279). -/
def armNet (s : State) : State :=
  if s.net.state = 0 ∧ (netInForce s s.dt).isSome then { s with net := { s.net with state := 1, padA := false, padB := false } } else s

/-- ARMED with no Net in force left by a change of the bank: NO_NET (08 R279). -/
def settleForce (s : State) : State :=
  if s.net.state = 1 ∧ (netInForce s s.dt).isNone then assertSafeStop { s with net := { s.net with state := 0 } } else s

/-- NET_COMES_INTO_FORCE (08 R274, R279). -/
def execNetComesIntoForce (t : Nat) (s : State) : Out := runAt t s armNet

/-- The Net whose validity ended last. -/
def lastExpired (s : State) : Option NetRec :=
  ((banked s).filter (fun n => decide (n.e ≤ s.dt) && decide (n.p0 < n.e))).foldl (fun (m : Option NetRec) n =>
    match m with | none => some n | some x => if x.e < n.e then some n else some x) none

/-- NET_EXPIRY (08 R280): DT reaches e of the Net in force and no other is in force. -/
def execNetExpiry (t : Nat) (s : State) : Out :=
  runAt t s fun s =>
    if s.net.state = 1 ∧ (netInForce s s.dt).isNone then
      match lastExpired s with
      | some n => fireWith 7 n s
      | none => s
    else s

/-- NET_STANDSTILL (08 R279): FIRING becomes STANDSTILL at t_f + T. -/
def execNetStandstill (t : Nat) (s : State) : Out :=
  runAt t s fun s =>
    match s.net.firing with
    | some f => if s.net.state = 2 ∧ f.tf + f.stopNs ≤ s.dt then { s with net := { s.net with state := 3 } } else s
    | none => s

/-! ## Heartbeats and drive requests -/

/-- HOST_HEARTBEAT_TIMEOUT (08 R284). -/
def execHostHeartbeatTimeout (t : Nat) (s : State) : Out :=
  runAt t s fun s =>
    if s.net.hbArmed && decide (s.net.hbStart + 1000 * (netCfg s).hostHbUs ≤ s.dt) then
      fireNet 3 (raise 38 0 0 { s with net := { s.net with hbArmed := false } })
    else s

def chanOf (s : State) (c : Nat) : Chan := if c = 0 then s.net.chA else s.net.chB

def setChan (c : Nat) (x : Chan) (s : State) : State :=
  { s with net := if c = 0 then { s.net with chA := x } else { s.net with chB := x } }

/-- Channel `c` is enabled (08 R291). -/
def chanOn (s : State) (c : Nat) : Bool := if c = 0 then (netCfg s).chanA else (netCfg s).chanB

/-- DRIVE_REQUEST (08 R280, 17 R521): a filtered request that rises fires the Net; both in one decision are one event. -/
def execDriveRequest (t : Nat) (a b : Bool) (s : State) : Out :=
  runAt t s fun s =>
    let ra := a && !s.net.chA.req
    let rb := b && !s.net.chB.req
    let s := { s with net := { s.net with chA := { s.net.chA with req := a }, chB := { s.net.chB with req := b } } }
    if ra then fireNet 4 s else if rb then fireNet 5 s else s

/-- The input has held its level for the 200 ns that the recognition of an edge takes (18 R542). -/
def hbHeld (s : State) (ch : Nat) : Bool := match (chanOf s ch).hbRaw with | some e => decide (e + 200 ≤ s.dt) | none => true

/-- DRIVE_HEARTBEAT_EDGE (08 R285, 18 R542): an edge of the pin; a recognised one restarts the timer. -/
def execDriveHeartbeatEdge (t ch : Nat) (s : State) : Out :=
  runAt t s fun s =>
    if ch < 2 then
      let x := { chanOf s ch with hbRaw := some s.dt }
      setChan ch (if hbHeld s ch then { x with hbLast := s.dt, hbLapsed := false } else x) s
    else s

/-- DRIVE_HEARTBEAT_TIMEOUT (08 R285): once for each lapse. -/
def execDriveHeartbeatTimeout (t ch : Nat) (s : State) : Out :=
  runAt t s fun s =>
    let x := chanOf s ch
    let d := (netCfg s).drvHbUs
    if ch < 2 && chanOn s ch && d != 0 && s.net.cfg.isSome && !x.hbLapsed && decide (x.hbLast + 1000 * d ≤ s.dt) then
      raise (39 + ch) 0 0 (setChan ch { x with hbLapsed := true } s)
    else s

/-! ## NET_CONTROL -/

/-- Bytes of the largest frame of the loaded body, or of the Accord's body (08 R288, R290). -/
def largestFrame (s : State) : Nat :=
  let (kind, joints) := match s.body, s.accord with
    | some b, _ => (b.baseKind, b.joints.length)
    | none, some a => (a.baseKind, a.nJoints)
    | none, none => (0, 0)
  let base := match kind with | 1 => 3 | 2 => 7 | _ => 0
  0x18 + 4 * (base + joints) + 4

/-- The duration of a transaction in ns (08 R287, R289). -/
def frameNs (bytes div : Nat) : Nat := 8 * max bytes 16 * 10 * div

/-- The settings that a CONFIGURE carries (08 R291, 09 R317). -/
def cfgOf (d : Taken) : NetCfg :=
  { advisory := bitOf (fld d 0x21 1) 0, strict := bitOf (fld d 0x21 1) 1, stopMargin := fld d 0x1C 2, validityUs := fld d 8 4,
    stopTimeUs := fld d 0x0C 4, sampleStepUs := fld d 0x10 4, leadUs := fld d 0x1E 2, spiDiv := fld d 0x22 1,
    chanA := bitOf (fld d 0x23 1) 0, chanB := bitOf (fld d 0x23 1) 1, hostHbUs := fld d 0x14 4, drvHbUs := fld d 0x18 4 }

/-- A field out of its closed range. -/
def outside (x lo hi : Nat) : Bool := decide (x < lo) || decide (x > hi)

/-- The checks of a CONFIGURE (08 R290, R291, R293). -/
def cfgChecks (s : State) (d : Taken) : List (Bool × Fail) :=
  let c := cfgOf d
  [(outside c.validityUs 2000 100000 || decide (1000 * c.validityUs < 3 * periodNs s), badField 8),
   (outside c.stopTimeUs 10000 4000000, badField 0x0C), (outside c.sampleStepUs 100 10000, badField 0x10),
   (c.hostHbUs != 0 && outside c.hostHbUs 1000 100000, badField 0x14), (c.drvHbUs != 0 && outside c.drvHbUs 100 100000, badField 0x18),
   (decide (c.stopMargin > 8192), badField 0x1C), (decide (c.leadUs > 5000), badField 0x1E), (decide (fld d 0x21 1 > 3), badField 0x21),
   (outside c.spiDiv 2 20 || decide (frameNs (largestFrame s) c.spiDiv > 500000), badField 0x22),
   (fld d 0x23 1 == 0 || decide (fld d 0x23 1 > 3), badField 0x23), reservedCheck d [(8, 0x1C)]]

/-- The row of a NET_CONTROL: its `op`. Only `op` is read of the others (08 R291); an unknown one fails as CONFIGURE's row. -/
def netControl (d : Taken) (v : View) (op : Nat) (s : State) (k : State → State) : Out :=
  if fld d 0 1 = 0x0B ∧ fld d 0x20 1 ≠ op ∧ ¬ (op = 0 ∧ fld d 0x20 1 > 3) then runAt d.dt s id
  else acceptDesc d v { code := 0x0B, control := true, anyStack := true } s fun s =>
    if fld d 0x20 1 > 3 then refuse d (badField 0x20) s else k s

/-- Complete an accepted NET_CONTROL at acceptance. -/
def netDone (d : Taken) (flags : Nat) (s : State) : State := complete (takenHdr d) 0 (flags + susFlag s) 0 0 none s

/-- NET_CONTROL CONFIGURE (08 R292, R293): it waits for its tick. -/
def execConfigure (d : Taken) (v : View) (s : State) : Out :=
  netControl d v 0 s fun s => withChecks d (cfgChecks s d) s fun s => addWork (mkWork d 0 (.configure (cfgOf d)) s) s

/-- NET_CONTROL FIRE (08 R280, R292, R293). -/
def execFire (d : Taken) (v : View) (s : State) : Out :=
  netControl d v 1 s fun s =>
    let s' := fireNet 1 s
    netDone d (flagIf (s.net.state != s'.net.state) 7) s'

/-- NET_CONTROL RELEASE (08 R286, R293). -/
def execRelease (d : Taken) (v : View) (s : State) : Out :=
  netControl d v 2 s fun s =>
    if s.net.state ≠ 3 ∨ s.net.chA.req ∨ s.net.chB.req then refuse d (badField 0x20) s
    else netDone d 0 { s with net := { s.net with state := 0, newest := none, previous := none, firing := none, recertTodo := [] } }

/-- NET_CONTROL HEARTBEAT (08 R284). -/
def execHeartbeat (d : Taken) (v : View) (s : State) : Out :=
  netControl d v 3 s fun s => netDone d 0 (hostHeartbeat d.dt s)

/-- CONFIGUREs due at a tick of DT `t` take effect in acceptance order and complete (08 R292). -/
def configTick (t : Nat) (c : NetCfg) (w : Work) (s : State) : State :=
  if w.accept + 20000 ≤ t then
    let s := { s with net := { s.net with
      cfg := some c, hbStart := t, hbArmed := decide (c.hostHbUs ≠ 0), vHeld := none,
      chA := { s.net.chA with hbLast := t, hbLapsed := false }, chB := { s.net.chB with hbLast := t, hbLapsed := false } } }
    let s := { s with net := { s.net with vRaised := vShort s } }
    finishWork w 0 (susFlag s) 0 0 (some s.frame.number) s
  else s

/-- V at a tick (08 R277, 16 R494): a period that breaks the relation raises V; in reduced service V_RAISED only says that the window differs. -/
def vRaisedTick (s : State) : State :=
  if s.pwr.service = 2 then { s with net := { s.net with vRaised := s.net.vHeld.isSome || vShort s } }
  else
    let held := if vShort s then some (3 * periodNs s) else s.net.vHeld
    { s with net := { s.net with vHeld := held, vRaised := held.isSome } }

/-! ## Certification -/

/-- round(T / 2), in ns. -/
def halfStop (n : NetRec) : Int := roundDiv ((1000 * n.stopTimeUs : Nat) : Int) 2

/-- Ceiling of an integer quotient. -/
def ceilI (a : Int) (b : Nat) : Int := -((-a) / (b : Int))

/-- validity_end (08 R268). -/
def validityEnd (s : State) (n : NetRec) (tick : Nat) : Option Nat :=
  let half := halfStop n
  let step := 1000 * n.stepUs
  let pEnd : Int := ((n.p0 + (n.knots.length - 1) * n.dk : Nat) : Int)
  let e := min ((tick + validityNs s : Nat) : Int) (pEnd - half)
  let e := if ceilI (e + half - n.p0) step + 1 > 256 then (n.p0 : Int) + 255 * step - half else e
  if e < ((tick + 3 * periodNs s : Nat) : Int) ∨ e ≤ n.p0 then none else some e.toNat

/-- The pose of a path at `tau` ns from its start (08 R265). -/
def pathPose (kind : Nat) (knots : List (Option Knot)) (dk : Nat) (tau : Int) : Option Knot :=
  let last := (knots.length - 1) * dk
  let tau := (clampI 0 last tau).toNat
  if knots.length ≤ 1 then knots.getD 0 none else
  let k := min (tau / dk) (knots.length - 2)
  match knots.getD k none, knots.getD (k + 1) none with
  | some p, some q => some (lerpKnot kind dk (tau - k * dk) p q)
  | _, _ => none

/-- Path times of the samples of a cover (08 R269). -/
def coverTimes (n : NetRec) (e : Nat) : List Nat :=
  let cEnd := ((e : Int) + halfStop n).toNat
  let step := 1000 * n.stepUs
  let cnt := ceilDiv (cEnd - n.p0) step + 1
  (List.range (cnt - 1)).map (fun i => n.p0 + i * step) ++ [cEnd]

/-- Outcome of a certification's queries. -/
structure CertRes where
  ok : Bool
  hit : Bool
  lo : LoEnd
  boxes : List (List Int)
  tested : List Haz
  digest : Nat

/-- The axis-aligned box of one sample's centres, enlarged by the largest radius (08 R272), in S15.16 with saturation (00 R8, R9). -/
def sampleBox (rr : Int) (cs : List (Option P3)) : List Int :=
  match cs.filterMap id with
  | [] => [0, 0, 0, 0, 0, 0]
  | c :: r =>
    let lo := r.foldl (fun (m : P3) x => (min m.1 x.1, min m.2.1 x.2.1, min m.2.2 x.2.2)) c
    let hi := r.foldl (fun (m : P3) x => (max m.1 x.1, max m.2.1 x.2.1, max m.2.2 x.2.2)) c
    [lo.1 - rr, lo.2.1 - rr, lo.2.2 - rr, hi.1 + rr, hi.2.1 + rr, hi.2.2 + rr].map satI32

/-- The body that the queries of the frame in progress use (04 R126). -/
def frameBody (s : State) : Option Body := match s.frame.cur with | some f => f.body | none => s.body

/-- Certify a path up to validity end `e` against hazards `hs` (08 R269, R270): no budget, nothing shed. Without a body or an Accord nothing
certifies. -/
def certEval (n : NetRec) (e : Nat) (hs : List Haz) (s : State) : Option CertRes :=
  match frameBody s, s.accord with
  | some b, some a =>
    let sph := b.query
    let samples := (coverTimes n e).map (fun (p : Nat) => (p, poseCentres b (pathPose b.baseKind n.knots n.dk ((p : Int) - n.p0))))
    let pts := (samples.flatMap (fun x => x.2.filterMap id)).map toU
    let rhoMax := sph.foldl (fun m x => max m x.radius) 0
    let el : Int := ((2048 * (n.stopMargin + a.refineBand) : Nat) : Int)
    let (near, g) := nearHazards hs pts ((2048 * rhoMax : Nat) : Int) el
    let q : QEnv := { fl := s.world.fl, src := topSources s.world.fl, m := ((2048 * n.stopMargin : Nat) : Int), e := el,
                      reduced := s.pwr.service == 2, near := near, g := g }
    let res := samples.flatMap (fun x => x.2.zipIdx.map (fun y =>
      (evalQuery q y.1 (sph.getD y.2 { link := 0, radius := 0, c := [] }).radius x.1 (1000 * n.stopTimeUs) none none).1))
    some { ok := res.all (fun r => r.verdict == 0 && !r.outside && !r.nonfinite), hit := res.any (fun r => r.verdict == 2),
           lo := res.foldl (fun (m : HiEnd) r => match r.lo with | some x => hiMin m (some x) | none => m) none,
           boxes := samples.map (fun x => sampleBox (roundDiv ((2048 * rhoMax : Nat) : Int) 1000) x.2), tested := hs,
           digest := crc64 (res.flatMap (fun r => leBytes 4 (unsignedOf 32 (lo32 r.lo)) ++ leBytes 4 (unsignedOf 32 (hi32 r.hi)))) }
  | _, _ => none

/-- A Net with the values of a passing certification (08 R273, R276). -/
def withCert (s : State) (frame e : Nat) (r : CertRes) (n : NetRec) : NetRec :=
  { n with e := e, certFrame := frame, nSamples := r.boxes.length, clearance := lo32 r.lo, epoch := s.world.fl.epoch, boxes := r.boxes,
           hazTested := r.tested }

/-- The bytes of a Net bank record (08 R273). -/
def netBytes (n : NetRec) : Bytes :=
  leBytes 8 n.netId ++ leBytes 8 n.p0 ++ leBytes 8 n.e ++ leBytes 8 n.certFrame ++ leBytes 4 n.stopTimeUs ++ leBytes 2 n.stopMargin ++
  leBytes 2 n.nSamples ++ leBytes 4 (unsignedOf 32 n.clearance) ++ leBytes 4 n.epoch ++
  leBytes 4 (unsignedOf 32 n.ax) ++ leBytes 4 (unsignedOf 32 n.ay) ++ leBytes 4 (unsignedOf 32 n.az) ++ leBytes 4 (unsignedOf 32 n.yaw) ++
  leBytes 2 n.knots.length ++ leBytes 1 n.nx ++ leBytes 1 n.nu ++ leBytes 4 n.dk ++ leBytes 4 n.slot ++ leBytes 4 n.pert ++
  n.traj.flatMap (leBytes 4) ++ n.boxes.flatMap (fun b => b.flatMap (fun x => leBytes 4 (unsignedOf 32 x)))

/-- The NET entry of the digest log (13 R415): sub 0 banked, 1 recertified. -/
def logNet (n : NetRec) (sub : Nat) (s : State) : State :=
  logEntry 1 (crc64 (netBytes n)) s.frame.number 0 (n.netId % 2 ^ 32) sub 0 8 s

/-- The committed path of rank 0 (08 R265): the Net to certify, with the settings of its frame (R292). -/
def derivedNet (s : State) (f : Frame) : Option NetRec :=
  match f.fr.bind (fun wid => (findWork s wid).bind (fun w => match w.item with | .frameRun r => some (wid, r) | _ => none)), s.accord with
  | some (wid, r), some a =>
    (match classOf s r.optClass, ((lookupO wid f.merged).bind (fun m => m.entries.head?)) with
    | some c, some best =>
      let np := a.perturb.length
      let j := best.index / np
      let p := best.index % np
      (match findOpt s wid j, a.perturb[p]? with
      | some o, some pt =>
        let vt := variantTraj a c r.meas pt o.cur
        let cfg := f.cfg
        some { netId := f.number, p0 := r.meas.startDt + pt.startOffset, e := 0, certFrame := f.number, stopTimeUs := cfg.stopTimeUs,
               stopMargin := cfg.stopMargin, stepUs := cfg.sampleStepUs, nSamples := 0, clearance := 0, epoch := 0, ax := r.meas.ax,
               ay := r.meas.ay, az := r.meas.az, yaw := r.meas.yaw, dk := variantDk c pt, nx := c.nx, nu := c.nu, slot := j, pert := p,
               traj := vt, knots := variantKnots a c r.meas vt, boxes := [], hazTested := [],
               kind := (f.body.map (fun b => b.baseKind)).getD a.baseKind, nj := (f.body.map (fun b => b.joints.length)).getD a.nJoints }
      | _, _ => none)
    | _, _ => none)
  | _, _ => none

/-- The allowance for a frame's certification ends this long after the last batch retires (02 R58, R59): merge, then the
certification. -/
def certAllowance (s : State) : Nat := if s.pwr.service = 2 then 310000 else 40000

/-- Firing or at standstill: certification is skipped (08 R271). -/
def netBusy (s : State) (f : Frame) : Bool := s.net.state == 2 || s.net.state == 3 || f.netFired

/-- A failed certification of the frame (08 R271). -/
def certFailed (s : State) : State := raise 32 0 0 (modFrame (fun f => { f with netResult := some 1, certDone := true, cert := none }) s)

/-- Copy B's digest of the query intervals: that of the same inputs in the same order, altered by what a fault of the hardware changed. -/
def digestB (upset : Nat) (r : CertRes) : Nat := r.digest ^^^ upset % 2 ^ 64

/-- The digests of the two copies agree, or only one copy runs (15 R444). -/
def copiesOk (s : State) (upset : Nat) (r : CertRes) : Bool := !s.safety.ctrl.certDual || r.digest == digestB upset r

/-- Certify the frame's Net (08 R268 to R271). -/
def certifyFrame (upset : Nat) (f : Frame) (s : State) : State :=
  if netBusy s f then modFrame (fun f => { f with netResult := some 3, certDone := true }) s
  else if f.goldenResult = 1 then modFrame (fun f => { f with netResult := some 2, certDone := true, cert := none }) s
  else match derivedNet s f with
    | none => certFailed s
    | some n =>
      if suspectNow s || f.certFail then certFailed s
      else match validityEnd s n f.tickDt with
        | none => certFailed s
        | some e =>
          match certEval n e (frameHaz s) s with
          | some r =>
            if r.ok && copiesOk s upset r then modFrame (fun x => { x with cert := some (withCert s f.number e r n), certDone := true }) s
            else certFailed s
          | none => certFailed s

/-- NET_CERTIFICATION (08 R270): in a FRAME_RUN frame, after the merge. -/
def execNetCertification (t : Nat) (upset : Nat) (s : State) : Out :=
  runAt t s fun s =>
    match s.frame.cur with
    | some f => if f.published || f.certDone || !f.mergeDone || f.fr.isNone then s else certifyFrame upset f (applyLate s)
    | none => s

/-- Put a certified Net into NEWEST (08 R273). -/
def bankNet (n : NetRec) (s : State) : State :=
  settleForce (logNet n 0 { s with net := { s.net with newest := some n, previous := s.net.newest } })

/-- NET_BANK (08 R272), not in a frame whose golden batch has failed meanwhile (02 R68): a hit on a hazard in effect that the certification did not test makes it count as failed. -/
def execNetBank (t : Nat) (s : State) : Out :=
  runAt t s fun s =>
    let s := applyLate s
    match s.frame.cur with
    | some f =>
      (match f.cert with
      | some n =>
        if f.published then s
        else if netBusy s f then modFrame (fun f => { f with netResult := some 3, cert := none }) s
        else if f.goldenResult = 1 then modFrame (fun f => { f with netResult := some 2, cert := none }) s
        else if s.world.hazards.any (fun h => !(n.hazTested.any (fun g => g.ord == h.ord)) && netHit n h) then certFailed s
        else bankNet n (modFrame (fun f => { f with netResult := some 0, cert := none }) s)
      | none => s)
    | none => s

/-- CERTIFICATION_OVERRUN (08 R271): a certification that is skipped, or that a failed golden batch ends, evaluates no query and overruns nothing. -/
def execCertificationOverrun (t : Nat) (s : State) : Out :=
  runAt t s fun s =>
    match s.frame.cur with
    | some f =>
      if f.published || f.certDone || f.certOverrun || f.fr.isNone || !f.retired ||
          decide ((s.dt : Int) < f.tickDt + f.tLastRetire + certAllowance s) then s
      else if netBusy s f then modFrame (fun f => { f with netResult := some 3, certDone := true }) s
      else if f.goldenResult = 1 then modFrame (fun f => { f with netResult := some 2, certDone := true }) s
      else raise 33 0 0 (certFailed (modFrame (fun f => { f with certOverrun := true }) s))
    | none => s

/-! ## Recertification -/

/-- Replace a banked Net in its slot. -/
def replaceNet (n : NetRec) (s : State) : State :=
  let f (x : Option NetRec) : Option NetRec := x.map (fun y => if y.netId = n.netId then n else y)
  { s with net := { s.net with newest := f s.net.newest, previous := f s.net.previous } }

/-- A Net that a recertification has refused: it fires when in force, else it leaves its slot (08 R276, R278). -/
def strikeNet (n : NetRec) (s : State) : State :=
  if (netInForce s s.dt).any (fun x => x.netId == n.netId) then fireNet 8 s
  else
    let f (x : Option NetRec) : Option NetRec := x.filter (fun y => y.netId != n.netId)
    settleForce { s with net := { s.net with newest := f s.net.newest, previous := f s.net.previous } }

/-- Recertify one banked Net in a frame (08 R276, R271). -/
def recertify (upset : Nat) (f : Frame) (s : State) (n : NetRec) : State :=
  let e? := if suspectNow s || f.certFail || f.goldenResult == 1 then none else validityEnd s n f.tickDt
  match e?, e?.bind (fun e => certEval n e (frameHaz s) s) with
  | some e, some r =>
    if r.ok && copiesOk s upset r then
      let n := withCert s f.number e r n
      logNet n 1 (replaceNet n s)
    else
      let s := raise 32 0 0 s
      if (netCfg s).strict && r.hit then strikeNet n s else s
  | _, _ => if f.goldenResult = 1 then s else raise 32 0 0 s

/-- A FRAME_RUN frame that returned nothing. -/
def frameEmpty (f : Frame) : Bool := match f.fr with | some wid => (lookupD {} wid f.merged).entries.isEmpty | none => true

/-- NET_RECERTIFICATION (08 R276): in an idle frame, or a FRAME_RUN frame with n = 0, every banked Net whose e lies beyond the next
tick. -/
def execNetRecertification (t : Nat) (upset : Nat) (s : State) : Out :=
  runAt t s fun s =>
    match s.frame.cur with
    | some f =>
      if f.published || f.recertDone || !f.mergeDone || !frameEmpty f || (f.fr.isSome && !f.certDone) || netBusy s f then s
      else
        let s := applyLate (modFrame (fun f => { f with recertDone := true }) s)
        ((banked s).filter (fun n => decide (n.e > nextTick s))).foldl (recertify upset f) s
    | none => s

/-- A unit that certifications run on has left service in this frame: none that runs there passes (14 R433). -/
def certUnitLost (s : State) : Bool := s.frame.cur.any (fun f => f.certFail)

/-- IMMEDIATE_RECERTIFICATION (08 R278): of the Net that a late hazard has hit, with every hazard in effect; it keeps its e. -/
def execImmediateRecertification (t : Nat) (upset : Nat) (s : State) : Out :=
  runAt t s fun s =>
    match s.net.recertTodo with
    | [] => s
    | i :: rest =>
      let s := applyLate { s with net := { s.net with recertTodo := rest } }
      if s.net.state = 2 ∨ s.net.state = 3 then s else
      match (banked s).find? (fun n => n.netId == i) with
      | none => s
      | some n =>
        let hs := s.world.hazards ++ (s.world.hazChanges.filter (fun c => c.late && c.committed)).map (fun c => c.haz)
        match (if certUnitLost s then none else certEval n n.e hs s) with
        | some r =>
          if r.ok && copiesOk s upset r then
            let n := withCert s s.frame.number n.e r n
            logNet n 1 (replaceNet n s)
          else strikeNet n (raise 32 0 0 s)
        | none => strikeNet n (raise 32 0 0 s)

/-! ## The Net port -/

/-- P(t) of a firing (08 R266). -/
def brakePath (f : Firing) (t : Nat) : Int :=
  let tau : Int := (t : Int) - f.tf
  if t < f.tf + f.stopNs then f.tf + tau - roundDiv (tau * tau) (2 * f.stopNs) else f.tf + roundDiv (f.stopNs : Int) 2

/-- Words of a setpoint (08 R288): base, yaw or quaternion, joints, by the Net's own base kind. A pose that is not finite gives free words
(notes/assumptions/19.md). -/
def setpointWords (s : State) (f : Firing) (target : Nat) : List Nat :=
  match pathPose f.net.kind f.net.knots f.net.dk (brakePath f target - f.net.p0) with
  | some k =>
    let u (x : Int) : Nat := unsignedOf 32 x
    (match f.net.kind with | 1 => [u k.x, u k.y, u k.yaw] | 2 => [u k.x, u k.y, u k.z] ++ k.quat | _ => []) ++ k.joints
  | none => (List.range ((match f.net.kind with | 1 => 3 | 2 => 7 | _ => 0) + f.net.nj)).map (fun i => Config.setpointWord s.fresh i % 2 ^ 32)

/-- The bytes of a device frame (08 R288). -/
def deviceFrame (s : State) (c : Nat) : Bytes :=
  let target := s.dt + 1000 * (netCfg s).leadUs
  let run := s.net.state == 2 || s.net.state == 3
  let (words, id) := match run, s.net.firing with
    | true, some f => (setpointWords s f target, f.net.netId % 2 ^ 32)
    | _, _ => ([], 0)
  let pad := if c = 0 then s.net.padA else s.net.padB
  let b := leBytes 4 0xA55A0C3E ++ leBytes 2 (chanOf s c).seq ++ leBytes 1 s.net.state ++ leBytes 1 words.length ++ leBytes 8 target ++
    leBytes 4 id ++ leBytes 4 (c + 2 * b2n pad) ++ words.flatMap (leBytes 4)
  b ++ leBytes 4 (crc32c b)

/-- A setpoint frame is due (08 R282, R288): every 1 ms from the first of a firing, which comes within 10 us of the decision; else at
whole milliseconds. None while the streamer has stopped, and none outside ISLAND to ENTERING (16 R493, R499). -/
def frameDue (s : State) : Bool :=
  !s.net.streamerStopped && decide (1 ≤ s.pwr.service) && decide (s.pwr.service ≤ 4) &&
  (match s.net.state == 2 || s.net.state == 3, s.net.firing with
  | true, some f => (match f.first with
    | none => decide (f.tf ≤ s.dt) && decide (s.dt ≤ f.tf + 10000)
    | some x => decide (x < s.dt) && (s.dt - x) % 1000000 == 0)
  | true, none => false
  | false, _ => s.dt % 1000000 == 0)

/-- A reply without error (08 R289): its CRC, and `echo_seq` that of the previous frame. -/
def replyOk (x : Chan) (b : Bytes) : Bool :=
  b.length == 16 && fieldN b 12 4 == crc32c (b.take 12) && (!x.sent || fieldN b 0 2 == (x.seq + 65535) % 65536)

/-- Channel `c` takes part in the frame: enabled, not in reset, and not yet sent at this DT. -/
def sends (s : State) (c : Nat) : Bool :=
  let x := chanOf s c
  chanOn s c && !x.reset && !(x.sent && x.lastSent == s.dt)

/-- One transaction on a channel (08 R287 to R289): the frame goes out; a reply without error is logged. -/
def transact (c : Nat) (reply : Bytes) (s : State) : State :=
  let x := chanOf s c
  if !sends s c then s else
  let ok := replyOk x reply
  setChan c { x with seq := (x.seq + 1) % 65536, sent := true, lastSent := s.dt, out := x.out ++ [deviceFrame s c],
                     drvState := if ok then fieldN reply 2 1 else x.drvState,
                     drvStatus := if ok then fieldN reply 4 4 else x.drvStatus } s

/-- The reply of a channel that takes part has an error (08 R289). -/
def replyBad (c : Nat) (reply : Bytes) (s : State) : Bool := sends s c && !replyOk (chanOf s c) reply

/-- The first setpoint frame of a firing has gone out (08 R282). -/
def markFirst (s : State) : State :=
  let mark (f : Firing) : Firing := { f with first := some (f.first.getD s.dt) }
  { s with net := { s.net with firing := if s.net.state = 2 ∨ s.net.state = 3 then s.net.firing.map mark else s.net.firing } }

/-- SETPOINT_FRAME (08 R288, R289): both frames go out before either reply is judged. -/
def execSetpointFrame (t : Nat) (replyA replyB : Bytes) (s : State) : Out :=
  runAt t s fun s =>
    if !frameDue s then s else
    let sent := bumpFresh (markFirst (transact 1 replyB (transact 0 replyA s)))
    let a := if replyBad 0 replyA s then raise 41 0 0 sent else sent
    if replyBad 1 replyB s then raise 42 0 0 a else a

/-- The level that a channel's SAFE_STOP pad is commanded to. -/
def padOf (s : State) (ch : Nat) : Bool := if ch = 0 then s.net.padA else s.net.padB

/-- SAFE_STOP_MISMATCH (08 R283): a pad has been read back at `level` for 2 us; NET_IO shows it (17 R520). A level that is the commanded one says that
the pad follows again. -/
def execSafeStopMismatch (t ch : Nat) (level : Bool) (s : State) : Out :=
  runAt t s fun s =>
    if ch ≥ 2 then s
    else if level = padOf s ch then setChan ch { chanOf s ch with pad := none } s
    else raise (36 + ch) 0 0 (setChan ch { chanOf s ch with pad := some level } s)

/-- STREAMER_MISMATCH (08 R283). -/
def execStreamerMismatch (t : Nat) (s : State) : Out :=
  runAt t s fun s => raise 35 0 0 (assertSafeStop { s with net := { s.net with streamerStopped := true } })

end Sys2Proof.Machine
end

