-- ==== Sys2Proof/Machine/Body.lean ====
section
/-! DEFINITION. The body model (04 R120 to R126): BODY_LOAD, capsule covers, the body in force at a tick. -/

namespace Sys2Proof.Machine

/-- `n` FP32 fields of a record. -/
def floats (b : Bytes) (o n : Nat) : List Nat := (List.range n).map (fun i => fieldN b (o + 4 * i) 4)

/-- Joint record `j` (04 R122, R123). -/
def parseJoint (j : Nat) (b : Bytes) : Option Joint :=
  let x : Joint := { parent := fieldN b 0 1, type := fieldN b 1 1, axis := floats b 4 3, originT := floats b 0x10 3, originQ := floats b 0x1C 4 }
  if x.parent > j ∨ x.type > 2 ∨ fieldN b 2 2 ≠ 0 ∨ fieldN b 0x2C 4 ≠ 0 ∨ !unitLength x.originQ ∨ !x.originT.all ffin ∨
      (x.type ≠ 0 ∧ !unitLength x.axis) then none
  else some x

/-- A sphere or capsule radius in range (04 R120). -/
def radiusOk (r : Nat) : Bool := decide (1 ≤ r) && decide (r ≤ 16384)

/-- A sphere record on a body of `joints` joints (04 R123). -/
def parseSphere (joints : Nat) (b : Bytes) : Option Sph :=
  let x : Sph := { link := fieldN b 0 1, radius := fieldN b 2 2, c := floats b 4 3 }
  if x.link > joints ∨ fieldN b 1 1 ≠ 0 ∨ !radiusOk x.radius ∨ !x.c.all ffin then none else some x

/-- Exact ceiling of √(r² + (s / 2)²) in 1/32 mm, for r in 1/32 mm and s in FP64 metres (04 R124). -/
def coverRadius (r s : Nat) : Nat :=
  match (d64 s).mul (FVal.ofI 16000) with
  | .fin _ m e =>
    let k := (-e).toNat
    let m := m * 2 ^ e.toNat
    ceilSqrtQ (r * r * 2 ^ (2 * k) + m * m) (2 ^ (2 * k))
  | _ => r

/-- The cover spheres of a capsule (04 R124); `none` when n > 8. -/
def capsuleCover (link r : Nat) (a b : List Nat) : Option (List Sph) :=
  let d := List.zipWith (fun x y => dsub (f2d y) (f2d x)) a b
  let sq := d.map (fun x => dmul x x)
  let len := dsqrt (dadd (dadd (sq.getD 0 0) (sq.getD 1 0)) (sq.getD 2 0))
  let rm := ddiv (dofInt (r : Int)) (dofInt 32000)
  if dle len 0 then some [{ link := link, radius := r, c := a }]
  else
    let q := ((d64 (ddiv len rm)).neg.floor).getD (-9)
    let n := (-q).toNat + 1
    if n > 8 then none else
    let s := ddiv len (dofInt ((n - 1 : Nat) : Int))
    let rad := coverRadius r s
    some ((List.range n).map (fun (i : Nat) =>
      let f := ddiv (dofInt (i : Int)) (dofInt ((n - 1 : Nat) : Int))
      { link := link, radius := rad, c := List.zipWith (fun x dx => d2f (dadd (f2d x) (dmul f dx))) a d }))

/-- A capsule record (04 R123, R124): its cover. -/
def parseCapsule (joints : Nat) (b : Bytes) : Option (List Sph) :=
  let e1 := floats b 4 3
  let e2 := floats b 16 3
  if fieldN b 0 1 > joints ∨ fieldN b 1 1 ≠ 0 ∨ fieldN b 28 4 ≠ 0 ∨ !radiusOk (fieldN b 2 2) ∨ !e1.all ffin ∨ !e2.all ffin then none
  else capsuleCover (fieldN b 0 1) (fieldN b 2 2) e1 e2

/-- `n` records of `sz` bytes from offset `o`: all of them, or the index of the first invalid one, counted from `base`. -/
def parseAll {α : Type} (f : Nat → Bytes → Option α) (b : Bytes) (o sz base : Nat) (n : Nat) : Except Nat (List α) :=
  (List.range n).foldl (fun acc i => match acc with
    | .error e => .error e
    | .ok l => (match f i ((b.drop (o + sz * i)).take sz) with | some x => .ok (l ++ [x]) | none => .error (base + i))) (.ok [])

/-- The body of an `op` 1 buffer from its records (04 R121 to R124): the body, or the failed check. -/
def buildBody (h b : Bytes) : Except Fail Body :=
  let nj := fieldN h 2 1
  let nc := fieldN h 3 1
  let ns := fieldN h 4 2
  match parseAll parseJoint b 0 48 0 nj with
  | .error i => .error (badRecord i)
  | .ok js =>
    match parseAll (fun _ => parseSphere nj) b (48 * nj) 16 nj ns with
    | .error i => .error (badRecord i)
    | .ok ss =>
      match parseAll (fun _ => parseCapsule nj) b (48 * nj + 16 * ns) 32 (nj + ns) nc with
      | .error i => .error (badRecord i)
      | .ok cs =>
        let body : Body := { baseKind := fieldN h 1 1, joints := js, spheres := ss, cover := cs.flatMap id, payload := [], id := fieldN h 8 4 }
        if body.query.length < 1 ∨ body.query.length > 768 then .error badWhole else .ok body

/-- A body meets the Accord (04 R126). -/
def bodyFits (a : Accord) (b : Body) : Bool :=
  b.baseKind == a.baseKind && b.joints.length == a.nJoints && decide (b.query.length ≤ a.maxQuerySpheres)

/-- The body meets the loaded Accord. With none loaded, of which 04 R126 and R161 do not speak, nothing meets it and a BODY_LOAD ends with ACCORD_MISMATCH
(DESIGN CHOICE, notes/assumptions/135.md). -/
def bodyFitsNow (s : State) (b : Body) : Bool := match s.accord with | some a => bodyFits a b | none => false

/-- The body after a load, an attach or a detach (04 R121, R125). A load drops an attached payload, the model's choice
(notes/assumptions/65.md). -/
def applyBody (op : Nat) (b : Body) (old : Option Body) : Option Body :=
  match op with
  | 1 => some b
  | _ => old.map (fun o => { o with payload := if op = 2 then b.payload else [] })

/-- A payload of `l` on body `b` keeps the totals of R125. -/
def payloadFits (b : Body) (l : List Sph) : Bool :=
  decide (b.spheres.length + l.length ≤ 256) && decide (b.spheres.length + b.cover.length + l.length ≤ 768)

/-- A work item of a BODY_LOAD that passed validation. An `op` 3 with no body in force is accepted and changes nothing at its tick, the model's choice
(notes/assumptions/65.md). -/
def queueBody (d : Taken) (op : Nat) (b : Body) (s : State) : State :=
  match applyBody op b s.body with
  | some x => if bodyFitsNow s x then addWork (mkWork d 0 (.body op b) s) s else refuse d mismatchFail s
  | none => addWork (mkWork d 0 (.body op b) s) s

/-- A body that holds nothing but an identity and a payload: `op` 2 and 3. -/
def payloadBody (id : Nat) (p : List Sph) : Body := { baseKind := 0, joints := [], spheres := [], cover := [], payload := p, id := id }

/-- BODY_LOAD (04 R121 to R126, R161). A payload sphere whose own `link` differs from the header's `payload_link` is range-checked by its own and carried by
`payload_link`: the rules give both and do not say (DESIGN CHOICE, notes/assumptions/135.md). -/
def execBodyLoad (d : Taken) (v : View) (s : State) : Out :=
  acceptDesc d v { code := 4, control := true } s fun s =>
    let a := fld d 8 8
    let n := fld d 0x10 4
    withChecks d [(a % 8 != 0, badField 8), (decide (n < 16), badField 0x10), reservedCheck d [(8, 8), (0x10, 4)]] s fun s =>
    withRead d v a 16 s fun h s =>
    let op := fieldN h 0 1
    let nj := fieldN h 2 1
    let nc := fieldN h 3 1
    let ns := fieldN h 4 2
    let size := 16 + 48 * nj + 16 * ns + 32 * nc
    withChecks d [(op == 0 || decide (op > 3) || fieldN h 7 1 != 0 || fieldN h 0xC 4 != 0, badWhole),
      (decide (nj > 48) || decide (nc > 64) || (op == 1 && (decide (fieldN h 1 1 > 2) || decide (ns > 256))), badWhole),
      (op == 2 && (decide (ns > 32) || (match s.body with | some b => decide (fieldN h 6 1 > b.joints.length) | none => true)), badWhole),
      (op == 3 && ns != 0, badWhole), (decide (n < size), badField 0x10)] s fun s =>
    withRead d v (a + 16) (size - 16) s fun b s =>
    match op with
    | 1 => (match buildBody h b with
      | .error f => refuse d f s
      | .ok body => queueBody d 1 body s)
    | 2 => (match parseAll (fun _ => parseSphere ((s.body.map (fun x => x.joints.length)).getD 0)) b (48 * nj) 16 nj ns with
      | .error i => refuse d (badRecord i) s
      | .ok l =>
        let p := payloadBody (fieldN h 8 4) (l.map (fun x => { x with link := fieldN h 6 1 }))
        if !(match s.body with | some o => payloadFits o l | none => false) then refuse d badWhole s else queueBody d 2 p s)
    | _ => queueBody d 3 (payloadBody (fieldN h 8 4) []) s

/-- What a payload attached at a tick meets there (04 R125, R126): the body then in force may come from a load that was accepted before it. -/
def attachFail (s : State) (p : List Sph) : Option Fail :=
  match s.body with
  | none => some mismatchFail
  | some o =>
    if !payloadFits o p || p.any (fun x => decide (x.link > o.joints.length)) then some badWhole
    else if !bodyFitsNow s { o with payload := p } then some mismatchFail
    else none

/-- BODY_LOADs due at a tick of DT `t` take effect in acceptance order and complete (04 R126). A payload is checked again against the body that
it meets (notes/assumptions/65.md). -/
def bodyTick (t op : Nat) (b : Body) (w : Work) (s : State) : State :=
  if w.accept + 20000 ≤ t then
    match (if op = 2 then attachFail s b.payload else none) with
    | some f => finishWork w f.status 0 f.aux0 f.aux1 none s
    | none => finishWork w 0 (susFlag s) b.id 0 (some s.frame.number) { s with body := applyBody op b s.body }
  else s

/-- The DT of the tick of frame `n`, as far as it is known. -/
def tickOf (s : State) (n : Nat) : Option Nat :=
  if tickKnown s then some (nextTick s + (n - nextNumber s) * periodNs s) else none

/-- A body will be in force at the tick of frame `n` (04 R126). -/
def bodyReady (s : State) (n : Nat) : Bool :=
  s.body.isSome || s.work.any (fun w => match w.item with
    | .body 1 _ => (match tickOf s n with | some t => decide (w.accept + 20000 ≤ t) | none => true)
    | _ => false)

/-- At a changeover the body is kept when it meets the new Accord, else dropped; waiting loads are checked again (11 R373, R374). -/
def bodyChangeover (s : State) : State :=
  let s := { s with body := s.body.filter (bodyFitsNow s) }
  s.work.foldl (fun s w => match w.item with
    | .body op b =>
      (match applyBody op b s.body with
      | some x => if bodyFitsNow s x then s else finishWork w 0x13 0 0 0 none s
      | none => s)
    | _ => s) s

end Sys2Proof.Machine
end

