-- ==== Sys2Proof/Machine/Operands.lean ====
section
/-! DEFINITION. Operand forms of tensor data: the formats of 06 R202, and conversion between them (06 R204). -/

namespace Sys2Proof.Machine

/-- A decoded element: an exact value of any format. -/
abbrev Elt := FVal

/-- Operands of a vector operation. -/
def vecArity : VecOp → Nat
  | .add | .sub | .mul | .div | .max | .min | .leaky => 2
  | .select | .clamp => 3
  | _ => 1

/-- Width of a format in bits (06 R202). -/
def fmtBits (f : Nat) : Nat :=
  match f with | 0 => 4 | 1 => 8 | 2 => 8 | 3 => 8 | 4 => 8 | 5 => 16 | 6 => 16 | _ => 32

/-- The floating-point format of a code, if it is one. -/
def fmtFloat (f : Nat) : Option Fmt :=
  match f with | 3 => some fp8e4m3 | 4 => some fp8e5m2 | 5 => some fp16 | 6 => some bf16 | 7 => some fp32 | _ => none

/-- The finite range of an integer format. -/
def fmtRange (f : Nat) : Int × Int :=
  match f with | 0 => (-8, 7) | 1 => (-128, 127) | 2 => (0, 255) | _ => (-2147483648, 2147483647)

/-- The value of an element's bits. -/
def fmtDecode (f bits : Nat) : Elt :=
  match fmtFloat f with
  | some x => x.decode bits
  | none => if f = 2 then FVal.ofI ((bits % 256 : Nat) : Int) else FVal.ofI (signed (fmtBits f) bits)

/-- Bits of a value in a format, rounded and saturated (06 R204). -/
def fmtEncode (f : Nat) (v : Elt) : Nat :=
  match fmtFloat f with
  | some x => x.encodeSat v
  | none =>
    let (lo, hi) := fmtRange f
    let r : Int := match v with
      | .nan => 0
      | .inf neg => if neg then lo else hi
      | v => clampI lo hi ((v.toIntRound).getD 0)
    unsignedOf (fmtBits f) r

/-- A finite value saturates in a format (06 R204). -/
def fmtSaturates (f : Nat) (v : Elt) : Bool :=
  match fmtFloat f with
  | some x => x.saturates v
  | none =>
    let (lo, hi) := fmtRange f
    match v with
    | .fin .. => let r := (v.toIntRound).getD 0; decide (r < lo) || decide (r > hi)
    | _ => false

/-- An element of a packed byte string; INT4 takes two to a byte, the lower-indexed in bits [3:0]. -/
def eltAt (f : Nat) (b : Bytes) (i : Nat) : Nat :=
  if f = 0 then bitsOf (fieldN b (i / 2) 1) (4 * (i % 2)) 4 else fieldN b (fmtBits f / 8 * i) (fmtBits f / 8)

/-- Bytes of `n` elements of a format. -/
def eltBytes (f n : Nat) : Nat := (n * fmtBits f + 7) / 8

/-- Elements packed into bytes. -/
def packElts (f : Nat) : List Nat → Bytes
  | [] => []
  | [x] => if f = 0 then [byteOf (x % 16)] else leBytes (fmtBits f / 8) x
  | x :: y :: r => if f = 0 then byteOf (x % 16 + 16 * (y % 16)) :: packElts f r
                   else leBytes (fmtBits f / 8) x ++ leBytes (fmtBits f / 8) y ++ packElts f r

/-- Elements of a declared tensor. -/
def tensorElems (d : TensorDecl) : Nat := d.shape.foldl (· * ·) 1

end Sys2Proof.Machine
end

