-- ==== Sys2Proof/Machine/Nets.lean ====
section
/-! DEFINITION. The tensor engine and the operators of compiled networks (06 R202 to R213): products and accumulation, output conversion, 2:4
weights, every operator on tensors in row-major order, the layers of a network and their digests. How an operator lays out its tensors (batch, then
channels, then space; rows of weights by output channel) is the model's choice (notes/assumptions/23.md). -/

namespace Sys2Proof.Machine

/-! ## Tensors -/

/-- A tensor: format code, shape, elements as bits in row-major order. -/
structure Tensor where
  fmt : Nat
  shape : List Nat
  data : List Nat
deriving DecidableEq, Repr

/-- Product of dimensions. -/
def dims (l : List Nat) : Nat := l.foldl (· * ·) 1

/-- Indices of element `i` of a shape. -/
def unravel : List Nat → Nat → List Nat
  | [], _ => []
  | _ :: r, i => (i / dims r) :: unravel r (i % dims r)

/-- Element number of indices in a shape. -/
def ravel : List Nat → List Nat → Nat
  | _ :: r, x :: xs => x * dims r + ravel r xs
  | _, _ => 0

/-- Element `i`, as bits. -/
def Tensor.bits (t : Tensor) (i : Nat) : Nat := t.data.getD i 0

/-- Element `i`, exact. -/
def Tensor.val (t : Tensor) (i : Nat) : FVal := fmtDecode t.fmt (t.bits i)

/-- Element `i` in FP32; exact for every narrower format (06 R213). -/
def Tensor.f32At (t : Tensor) (i : Nat) : Nat := f32 (t.val i)

/-- An integer format. -/
def isIntFmt (f : Nat) : Bool := (fmtFloat f).isNone

/-- Element `i` of an integer tensor. -/
def Tensor.intAt (t : Tensor) (i : Nat) : Int := ((t.val i).toIntRound).getD 0

/-- A padding element: the zero point for an integer tensor, +0 otherwise (06 R213). -/
def padBits (f : Nat) (z : Int) : Nat := if isIntFmt f then unsignedOf (fmtBits f) z else 0

/-- What a layer produces: elements, saturations (06 R204), indices out of range (06 R213). -/
structure LOut where
  data : List Nat
  sat : Nat := 0
  range : Nat := 0
deriving DecidableEq, Repr

/-- Exact or FP32 results converted to the output format (06 R204, R213). -/
def putVals (f : Nat) (l : List FVal) : LOut := { data := l.map (fmtEncode f), sat := (l.filter (fmtSaturates f)).length }

/-- FP32 results converted to the output format. -/
def putF32 (f : Nat) (l : List Nat) : LOut := putVals f (l.map d32)

/-! ## Products and accumulation -/

/-- Values cut into groups of 32 (06 R207). -/
def groups32 (l : List FVal) : Nat → List (List FVal)
  | 0 => []
  | k + 1 => if l.isEmpty then [] else l.take 32 :: groups32 (l.drop 32) k

/-- Floating-point accumulation (06 R207) from `start`. -/
def accF (prods : List FVal) (start : Nat) : Nat :=
  (groups32 prods (prods.length / 32 + 1)).foldl (fun acc g => fadd acc (f32 (match g with | [] => .fin false 0 0 | x :: r => r.foldl FVal.add x))) start

/-- An accumulator: exact for integers (06 R206), FP32 otherwise (06 R207). -/
inductive Acc where
  | int (v : Int)
  | fp (bits : Nat)
deriving DecidableEq, Repr

/-- The accumulator before the first product: the bias, or zero. -/
def accStart (isInt : Bool) (bias : Option Nat) : Acc :=
  if isInt then .int (match bias with | some w => signed 32 w | none => 0) else .fp (bias.getD 0)

/-- A run of products added to an accumulator: a layer's whole reduction, or one tile of it (06 R205 to R208). -/
def accMore (fa fb : Nat) (a b : List Nat) (s : Acc) : Acc :=
  let pr := List.zipWith (fun x y => (fmtDecode fa x).mul (fmtDecode fb y)) a b
  match s with
  | .int v => .int (pr.foldl (fun (t : Int) p => t + (p.toIntRound).getD 0) v)
  | .fp w => .fp (accF pr w)

/-- Output of an accumulator (06 R206, R209), with whether it saturated (R204). -/
def accOut (s : Acc) (scale : Option Nat) (zero : Int) (f : Nat) : Nat × Bool :=
  let (acc, clipped) : Int × Bool := match s with | .int v => (satI32 v, satI32 v != v) | .fp _ => (0, false)
  let v := match s with | .int _ => fofInt acc | .fp w => w
  let p := match scale with | some sc => fmul v sc | none => v
  let (y, sat) : Nat × Bool :=
    if f = 8 then (match s with | .int _ => (unsignedOf 32 acc, false) | .fp w => (fmtEncode 8 (d32 w), fmtSaturates 8 (d32 w)))
    else match fmtFloat f with
      | some _ => (fmtEncode f (d32 p), fmtSaturates f (d32 p))
      | none =>
        let (lo, hi) := fmtRange f
        match (d32 p).toIntRound with
        | some r => (unsignedOf (fmtBits f) (clampI lo hi (r + zero)), decide (r + zero < lo) || decide (r + zero > hi))
        | none => (fmtEncode f (d32 p), false)
  (y, sat || clipped)

/-- One output element of a layer (06 R205 to R209). -/
def tensorOp (fa fb : Nat) (a b : List Nat) (bias scale : Option Nat) (zero : Int) (f : Nat) : Nat × Bool :=
  accOut (accMore fa fb a b (accStart (isIntFmt fa) bias)) scale zero f

/-! ## 2:4 weights -/

/-- A 2:4 row as a dense one of `n` elements (06 R211, R212): the absent weights are zeros. -/
def expand24 (n : Nat) (vals pos : List Nat) : List Nat :=
  (List.range n).map (fun i =>
    let g := i / 4
    if pos.getD (2 * g) 0 % 4 = i % 4 then vals.getD (2 * g) 0
    else if pos.getD (2 * g + 1) 0 % 4 = i % 4 then vals.getD (2 * g + 1) 0
    else 0)

/-- Row `r` of a layer's weights. -/
def weightRow (w : Weights) (r : Nat) : List Nat :=
  if w.sparse then
    let n := 2 * ceilDiv w.cols 4
    expand24 w.cols ((w.vals.drop (r * n)).take n) ((w.pos.drop (r * n)).take n)
  else (w.vals.drop (r * w.cols)).take w.cols

/-! ## Rows and windows -/

/-- SOFTMAX of a row (06 R213). -/
def softmaxRow (x : List Nat) : List Nat :=
  if x.any fp32.isNan then x.map (fun _ => fNan)
  else
    let m := x.foldl (fpick true) 0xFF800000
    if m = 0xFF800000 then x.map (fun _ => 0)
    else
      let e := x.map (fun v => fexp (fsub v m))
      let sum := d2f (dsum (e.map f2d))
      e.map (fun v => fdiv v sum)

/-- LAYERNORM and RMSNORM of a row (06 R213); `eps` is binary64. -/
def normRow (rms : Bool) (x gamma beta : List Nat) (eps : Nat) : List Nat :=
  let n := dofInt (x.length : Int)
  let mu := if rms then 0 else ddiv (dsum (x.map f2d)) n
  let var := ddiv (dsum (x.map (fun v => let d := dsub (f2d v) mu; dmul d d))) n
  let r := d2f (ddiv (dofInt 1) (dsqrt (dadd var eps)))
  let m := d2f mu
  x.zipIdx.map (fun v =>
    let y := fmul (fmul (fsub v.1 m) r) (gamma.getD v.2 fone)
    if rms then y else fadd y (beta.getD v.2 0))

/-- POOL over the elements of one window that are not padding (06 R213), in FP32. The mean is the FP64 sum divided by the count and rounded once. -/
def poolWindow (avg : Bool) (x : List Nat) (valid : List Bool) : Nat :=
  let l := (x.zipIdx.filter (fun v => valid.getD v.2 true)).map (fun v => v.1)
  if avg then f32 ((d64 (dsum (l.map f2d))).div (FVal.ofI (l.length : Int)))
  else match l with
    | [] => Config.emptyMax % 2 ^ 32
    | y :: r => r.foldl (fpick true) y

/-- POOL over integers (06 R213): the sum is exact, the quotient rounded once, to an integer for an integer output and to FP32 for another. -/
def poolInt (avg toInt : Bool) (l : List Int) : FVal :=
  match l with
  | [] => fmtDecode 8 (Config.emptyMax % 2 ^ 32)
  | y :: r =>
    let n := r.foldl (· + ·) y
    if !avg then FVal.ofI (r.foldl max y)
    else if toInt then FVal.ofI (roundDiv n l.length)
    else d32 (f32 ((FVal.ofI n).div (FVal.ofI (l.length : Int))))

/-- One element of a RESIZE with weights: the terms in ascending source index (06 R213). -/
def resizeElem (x : List Nat) (idx w : List Nat) : Nat :=
  let t := sortBy (fun (a b : Nat × Nat) => decide (a.1 ≤ b.1)) (idx.zip w)
  match t.map (fun p => fmul (x.getD p.1 0) p.2) with
  | [] => 0
  | y :: r => r.foldl fadd y

/-- SCATTER into `dst` (06 R213): REPLACE keeps the last write, ADD sums in FP64 in ascending source index and rounds once. -/
def scatterRow (acc : Bool) (dst src : List Nat) (idx : List Int) : List Nat :=
  dst.zipIdx.map (fun d =>
    let hits := ((src.zip idx).filter (fun x => x.2 == ((d.2 : Nat) : Int))).map (fun x => x.1)
    if hits.isEmpty then d.1
    else if acc then d2f (dsum ((d.1 :: hits).map f2d)) else hits.getLastD d.1)

/-- One integer element (06 R213): exact, saturated by the caller; none for an operation that integers do not have. -/
def intLane (op : VecOp) (a b c : Int) : Option Int :=
  match op with
  | .add => some (a + b)
  | .sub => some (a - b)
  | .mul => some (a * b)
  | .max => some (max a b)
  | .min => some (min a b)
  | .abs => some ((a.natAbs : Nat) : Int)
  | .neg => some (-a)
  | .div => some (if b = 0 ∨ a % b ≠ 0 then Config.intDiv a b else a / b)
  | .relu => some (max a 0)
  | .relu6 => some (clampI 0 6 a)
  | .leaky => some (if a ≥ 0 then a else a * b)
  | .select => some (if a = 0 then c else b)
  | .clamp => some (min (max a b) c)
  | _ => none

/-- A signed INT32 of a word. -/
def idxOf (w : Nat) : Int := signed 32 w

/-- An index inside `n`. -/
def idxIn (n : Nat) (j : Int) : Bool := decide (0 ≤ j) && decide (j < (n : Int))

/-! ## Layers -/

/-- Rows of a tensor along an axis, each with the elements in ascending index: `outer * inner` of them. -/
def axisRows (shape : List Nat) (axis : Nat) : List (List Nat) :=
  let n := shape.getD axis 1
  let inner := dims (shape.drop (axis + 1))
  (List.range (dims (shape.take axis))).flatMap (fun o => (List.range inner).map (fun i => (List.range n).map (fun j => (o * n + j) * inner + i)))

/-- The row and the place in it of element `i`, for `axisRows`. -/
def rowOf (shape : List Nat) (axis i : Nat) : Nat × Nat :=
  let n := shape.getD axis 1
  let inner := dims (shape.drop (axis + 1))
  (i / (n * inner) * inner + i % inner, i / inner % n)

/-- A row function applied along an axis, in FP32. -/
def alongAxis (axis : Nat) (g : List Nat → List Nat) (t : Tensor) : List Nat :=
  let rows := (axisRows t.shape axis).map (fun r => g (r.map t.f32At))
  (List.range (dims t.shape)).map (fun i => let p := rowOf t.shape axis i; (rows.getD p.1 []).getD p.2 0)

/-- The element numbers that a window reads at an output place, `none` for padding. `lead` are the leading indices of the input, `ax` the axes. -/
def windowAt (shape : List Nat) (ax : List WinAxis) (lead place : List Nat) : List (Option Nat) :=
  let ks := ax.map (fun a => a.kernel)
  (List.range (dims ks)).map (fun r =>
    let off := unravel ks r
    let at_ := (ax.zip (place.zip off)).map (fun x => ((x.2.1 * x.1.stride + x.2.2 * x.1.dilation : Nat) : Int) - (x.1.pad : Int))
    let space := shape.drop lead.length
    if (at_.zip space).all (fun x => idxIn x.2 x.1) then some (ravel shape (lead ++ at_.map Int.toNat)) else none)

/-- Per-channel entry of a table that may be empty. -/
def perChannel (l : List Nat) (c : Nat) : Option Nat := if l.isEmpty then none else some (l.getD c 0)

/-- Elements of a tensor-engine layer, from each one's products (06 R205 to R209); `ch` is its output channel. -/
def tensorElemsOut (fa fb f : Nat) (o : OutStep) (l : List (Nat × List Nat × List Nat)) : LOut :=
  let r := l.map (fun x => tensorOp fa fb x.2.1 x.2.2 (perChannel o.bias x.1) (perChannel o.scale x.1) (o.zero.getD x.1 0) f)
  { data := r.map (fun x => x.1), sat := (r.filter (fun x => x.2)).length }

/-- CONV (06 R213): input [batch, channels, space], weights by output channel with the reduction over the group's channels, then the kernel. -/
def convOut (ax : List WinAxis) (groups : Nat) (w : Weights) (z : Int) (o : OutStep) (f : Nat) (shape : List Nat) (x : Tensor) : LOut :=
  let cg := x.shape.getD 1 1 / groups
  let og := w.rows / groups
  tensorElemsOut x.fmt w.fmt f o ((List.range (dims shape)).map (fun i =>
    let ix := unravel shape i
    let oc := ix.getD 1 0
    let a := (List.range cg).flatMap (fun c =>
      (windowAt x.shape ax [ix.getD 0 0, oc / og * cg + c] (ix.drop 2)).map (fun p => match p with | some j => x.bits j | none => padBits x.fmt z))
    (oc, a, weightRow w oc)))

/-- Element number in an operand whose leading dimensions broadcast against those of the output. -/
def broadcastIdx (shape ix : List Nat) : Nat :=
  ravel shape ((shape.zip (ix.drop (ix.length - shape.length))).map (fun x => if x.1 = 1 then 0 else x.2))

/-- The reduction of a MATMUL's second operand for output element `ix`: column n of [K, N], or row n when it is stored transposed. -/
def matCol (b : Tensor) (transB : Bool) (k : Nat) (ix : List Nat) : List Nat :=
  let lead := ix.take (ix.length - 2)
  let n := ix.getLastD 0
  let shape := b.shape
  (List.range k).map (fun j =>
    b.bits (broadcastIdx shape (lead ++ (if transB then [n, j] else [j, n]))))

/-- MATMUL (06 R213): rows of the first operand by weights, or by columns of the second. -/
def matmulOut (w : Option Weights) (transB : Bool) (o : OutStep) (f : Nat) (shape : List Nat) (a : Tensor) (b : Option Tensor) : LOut :=
  let k := a.shape.getLastD 1
  let row (ix : List Nat) : List Nat :=
    let base := broadcastIdx a.shape ((ix.take (ix.length - 1)) ++ [0])
    (List.range k).map (fun j => a.bits (base + j))
  match w, b with
  | some w, _ => tensorElemsOut a.fmt w.fmt f o ((List.range (dims shape)).map (fun i => let ix := unravel shape i; (ix.getLastD 0, row ix, weightRow w (ix.getLastD 0))))
  | none, some b => tensorElemsOut a.fmt b.fmt f o ((List.range (dims shape)).map (fun i => let ix := unravel shape i; (ix.getLastD 0, row ix, matCol b transB k ix)))
  | none, none => { data := [] }

/-- FP32(1/√d), correctly rounded (06 R213). -/
def invSqrt (d : Nat) : Nat :=
  let x := 2 ^ 160 / d
  let r := floorSqrt x
  f32 (.fin false (2 * r + (if r * r * d = 2 ^ 160 then 0 else 1)) (-81))

/-- ATTENTION (06 R213): Q, K and V [batch…, length, heads × d], the optional FP32 mask [queries, keys]. -/
def attentionOut (heads : Nat) (scaleS : List Nat) (o : OutStep) (f : Nat) (shape : List Nat) (q k v : Tensor) (mask : Option Tensor) : LOut :=
  let d := q.shape.getLastD 1 / heads
  let dv := v.shape.getLastD 1 / heads
  let lq := q.shape.getD (q.shape.length - 2) 1
  let lk := k.shape.getD (k.shape.length - 2) 1
  let inv := invSqrt d
  let rowsOf (t : Tensor) (n l : Nat) (b i h w : Nat) : List Nat := (List.range w).map (fun j => t.bits ((b * l + i) * n + h * w + j))
  let lead := dims (shape.take (shape.length - 2))
  let probs : List (List (List (List Nat × Nat))) := (List.range lead).map (fun b => (List.range heads).map (fun h => (List.range lq).map (fun i =>
    let s := (List.range lk).map (fun j =>
      let x := (tensorOp q.fmt k.fmt (rowsOf q (heads * d) lq b i h d) (rowsOf k (heads * d) lk b j h d) none (perChannel scaleS h) 0 7).1
      let x := fmul x inv
      match mask with | some m => fadd x (m.f32At (i * lk + j)) | none => x)
    let p := putF32 v.fmt (softmaxRow s)
    (p.data, p.sat))))
  let out := tensorElemsOut v.fmt v.fmt f o ((List.range (dims shape)).map (fun e =>
    let c := e % (heads * dv)
    let i := e / (heads * dv) % lq
    let b := e / (heads * dv) / lq
    let h := c / dv
    (c, (((probs.getD b []).getD h []).getD i ([], 0)).1, (List.range lk).map (fun j => v.bits ((b * lk + j) * (heads * dv) + c)))))
  { out with sat := out.sat + (probs.flatMap (fun x => x.flatMap id)).foldl (fun n x => n + x.2) 0 }

/-- NORM over the last `trail` dimensions (06 R213). -/
def normOut (rms : Bool) (trail : Nat) (gamma beta : List Nat) (eps f : Nat) (t : Tensor) : LOut :=
  let n := dims (t.shape.drop (t.shape.length - trail))
  putF32 f ((List.range (dims t.shape / n)).flatMap (fun r => normRow rms ((List.range n).map (fun j => t.f32At (r * n + j))) gamma beta eps))

/-- SCALE_SHIFT per channel of an axis (06 R213). -/
def scaleShiftOut (axis : Nat) (a b : List Nat) (f : Nat) (t : Tensor) : LOut :=
  putF32 f ((List.range (dims t.shape)).map (fun i => let c := (rowOf t.shape axis i).2; fadd (fmul (t.f32At i) (a.getD c fone)) (b.getD c 0)))

/-- ACTIVATION (06 R213): a table for the narrow integer formats, else FP32. -/
def activationOut (op : VecOp) (alpha : Nat) (table : List Nat) (f : Nat) (t : Tensor) : LOut :=
  if isIntFmt t.fmt && !table.isEmpty then { data := (List.range (dims t.shape)).map (fun i => table.getD (t.bits i) 0) }
  else putF32 f ((List.range (dims t.shape)).map (fun i => vecLane op (t.f32At i) alpha 0))

/-- POOL (06 R213) on [batch, channels, space]; GLOBAL takes every element of a channel. -/
def poolOut (avg isGlobal : Bool) (ax : List WinAxis) (f : Nat) (shape : List Nat) (x : Tensor) : LOut :=
  let ax := if isGlobal then (x.shape.drop 2).map (fun n => ({ kernel := n } : WinAxis)) else ax
  let els (i : Nat) : List Nat :=
    let ix := unravel shape i
    let place := if isGlobal then ax.map (fun _ => 0) else ix.drop 2
    (windowAt x.shape ax (ix.take 2) place).filterMap id
  if isIntFmt x.fmt then putVals f ((List.range (dims shape)).map (fun i => poolInt avg (isIntFmt f) ((els i).map x.intAt)))
  else putF32 f ((List.range (dims shape)).map (fun i => poolWindow avg ((els i).map x.f32At) []))

/-- Elements that an operator moves, each with its format: bits as they are, or converted to the output format (06 R204, R213). -/
def moved (f : Nat) (l : List (Nat × Nat)) : LOut :=
  { data := l.map (fun x => if x.1 = f then x.2 else fmtEncode f (fmtDecode x.1 x.2)),
    sat := (l.filter (fun x => x.1 != f && fmtSaturates f (fmtDecode x.1 x.2))).length }

/-- GATHER along an axis (06 R213). -/
def gatherOut (axis : Nat) (z : Int) (f : Nat) (shape : List Nat) (x idx : Tensor) : LOut :=
  let n := x.shape.getD axis 1
  let ni := idx.shape.length
  { moved f ((List.range (dims shape)).map (fun i =>
      let ix := unravel shape i
      let j := idxOf (idx.bits (ravel idx.shape ((ix.drop axis).take ni)))
      (x.fmt, if idxIn n j then x.bits (ravel x.shape (ix.take axis ++ [j.toNat] ++ ix.drop (axis + ni))) else padBits x.fmt z))) with
    range := ((List.range (dims idx.shape)).filter (fun i => !idxIn n (idxOf (idx.bits i)))).length }

/-- SCATTER along an axis (06 R213): destination, indices, sources. -/
def scatterOut (axis : Nat) (acc : Bool) (f : Nat) (dst idx src : Tensor) : LOut :=
  let n := dst.shape.getD axis 1
  let ix := (List.range (dims idx.shape)).map (fun i => idxOf (idx.bits i))
  let srcs (i : Nat) : List Nat :=
    let p := unravel dst.shape i
    let here : Int := ((p.getD axis 0 : Nat) : Int)
    (ix.zipIdx.filter (fun x => x.1 == here)).map (fun x => ravel src.shape (p.take axis ++ [x.2] ++ p.drop (axis + 1)))
  let r := (List.range (dims dst.shape)).map (fun i =>
    let h := srcs i
    if h.isEmpty then dst.val i
    else if acc then
      (if isIntFmt dst.fmt then FVal.ofI ((h.map src.intAt).foldl (· + ·) (dst.intAt i))
       else d64 (dsum (f64 (dst.val i) :: h.map (fun j => f64 (src.val j)))))
    else src.val (h.getLastD 0))
  { putVals f r with range := (ix.filter (fun j => !idxIn n j)).length }

/-- ELEMENTWISE with broadcasting (06 R213): exact on integers, one FP32 rounding otherwise. -/
def elementwiseOut (op : VecOp) (f : Nat) (shape : List Nat) (ins : List Tensor) : LOut :=
  let at_ (ix : List Nat) (k : Nat) : Nat × Tensor := let t := ins.getD k { fmt := 7, shape := [], data := [] }; (broadcastIdx t.shape ix, t)
  if ins.all (fun t => isIntFmt t.fmt) then
    putVals f ((List.range (dims shape)).map (fun i =>
      let ix := unravel shape i
      let v (k : Nat) : Int := (at_ ix k).2.intAt (at_ ix k).1
      match intLane op (v 0) (v 1) (v 2) with | some y => FVal.ofI y | none => .nan))
  else
    putF32 f ((List.range (dims shape)).map (fun i =>
      let ix := unravel shape i
      let v (k : Nat) : Nat := (at_ ix k).2.f32At (at_ ix k).1
      vecLane op (v 0) (v 1) (v 2)))

/-- RESIZE NEAREST: floor((i + 0.5) × in/out) on every axis (06 R213). -/
def nearestOut (f : Nat) (shape : List Nat) (x : Tensor) : LOut :=
  moved f ((List.range (dims shape)).map (fun i => (x.fmt,
    x.bits (ravel x.shape ((List.zipWith (fun (p : Nat × Nat) (n : Nat) => (2 * p.1 + 1) * n / (2 * p.2)) ((unravel shape i).zip shape) x.shape))))))

/-- RESIZE BILINEAR over the last two dimensions: source places and FP32 weights of each output place, from the Accord. -/
def bilinearOut (idx w : List (List Nat)) (f : Nat) (shape : List Nat) (x : Tensor) : LOut :=
  let m := dims (x.shape.drop (x.shape.length - 2))
  putF32 f ((List.range (dims (shape.take (shape.length - 2)))).flatMap (fun b =>
    List.zipWith (resizeElem ((List.range m).map (fun j => x.f32At (b * m + j)))) idx w))

/-- The tensor of a CONCAT that holds place `j` of the axis, and the place in it. -/
def concatPart (axis : Nat) : List Tensor → Nat → Option (Tensor × Nat)
  | [], _ => none
  | t :: r, j => let n := t.shape.getD axis 1; if j < n then some (t, j) else concatPart axis r (j - n)

/-- LAYOUT operators (06 R213): where each output element comes from. -/
def layoutOut (op : LayerOp) (f : Nat) (shape : List Nat) (ins : List Tensor) : LOut :=
  let x := ins.headD { fmt := f, shape := [], data := [] }
  moved f ((List.range (dims shape)).map (fun i =>
    let ix := unravel shape i
    match op with
    | .transpose perm => (x.fmt, x.bits (ravel x.shape ((List.range x.shape.length).map (fun a => ix.getD ((perm.findIdx? (· == a)).getD a) 0))))
    | .concat axis =>
      (match concatPart axis ins (ix.getD axis 0) with
      | some (t, j) => (t.fmt, t.bits (ravel t.shape (ix.take axis ++ [j] ++ ix.drop (axis + 1))))
      | none => (f, 0))
    | .slice start step => (x.fmt, x.bits (ravel x.shape (ix.zipIdx.map (fun p => start.getD p.2 0 + p.1 * step.getD p.2 1))))
    | .pad before z =>
      let at_ := ix.zipIdx.map (fun p => (p.1 : Int) - ((before.getD p.2 0 : Nat) : Int))
      (x.fmt, if (at_.zip x.shape).all (fun p => idxIn p.2 p.1) then x.bits (ravel x.shape (at_.map Int.toNat)) else padBits x.fmt z)
    | _ => (x.fmt, x.bits i)))

/-- One layer (06 R213) on the tensors it reads. -/
def layerOut (l : LayerDecl) (ins : List Tensor) : LOut :=
  let x := ins.headD { fmt := l.fmt, shape := [], data := [] }
  let y := ins.getD 1 { fmt := 8, shape := [], data := [] }
  match l.op with
  | .conv ax g w z o => convOut ax g w z o l.fmt l.shape x
  | .matmul w tb o => matmulOut w tb o l.fmt l.shape x ins[1]?
  | .attention h m sc o => attentionOut h sc o l.fmt l.shape x y (ins.getD 2 y) (if m then ins[3]? else none)
  | .softmax axis => putF32 l.fmt (alongAxis axis softmaxRow x)
  | .norm rms n gm bt eps => normOut rms n gm bt eps l.fmt x
  | .scaleShift axis a b => scaleShiftOut axis a b l.fmt x
  | .activation op al tb => activationOut op al tb l.fmt x
  | .pool avg gl ax => poolOut avg gl ax l.fmt l.shape x
  | .gather axis z => gatherOut axis z l.fmt l.shape x y
  | .scatter axis acc => scatterOut axis acc l.fmt x y (ins.getD 2 y)
  | .elementwise op => elementwiseOut op l.fmt l.shape ins
  | .cast => putVals l.fmt ((List.range (dims x.shape)).map x.val)
  | .resizeNearest => nearestOut l.fmt l.shape x
  | .resizeBilinear idx w => bilinearOut idx w l.fmt l.shape x
  | .reshape => layoutOut .reshape l.fmt l.shape ins
  | .transpose p => layoutOut (.transpose p) l.fmt l.shape ins
  | .concat a => layoutOut (.concat a) l.fmt l.shape ins
  | .slice a b => layoutOut (.slice a b) l.fmt l.shape ins
  | .pad a b => layoutOut (.pad a b) l.fmt l.shape ins

/-- The layers of a network in order (06 R214) from the tensors so far; a layer with an input that is not there yet has no result. -/
def evalLayers : List LayerDecl → List (Option Tensor) → List (Option LOut)
  | [], _ => []
  | l :: r, ts =>
    let o := (l.ins.mapM (fun i => ts.getD i none)).map (layerOut l)
    o :: evalLayers r (ts ++ [o.map (fun y => { fmt := l.fmt, shape := l.shape, data := y.data })])

/-- The layers of a network on its inputs; `none` is an input that is not ready. -/
def evalNet (d : NetDecl) (ins : List (Option (List Nat))) : List (Option LOut) :=
  evalLayers d.layers (List.zipWith (fun (t : TensorDecl) x => x.map (fun l => { fmt := t.fmt, shape := t.shape, data := l })) d.inputs ins)

/-- The layer digest (06 R232): CRC-64 of the output tensor's packed elements. -/
def layerDigest (l : LayerDecl) (o : LOut) : Nat := crc64 (packElts l.fmt o.data)

/-- Elements of output `i` of a network (06 R214): a layer's result, or an input passed on. -/
def outputData (d : NetDecl) (ins : List (Option (List Nat))) (res : List (Option LOut)) (i : Nat) : List Nat :=
  let n := d.outIdx.getD i 0
  if n < d.inputs.length then (ins.getD n none).getD [] else ((res.getD (n - d.inputs.length) none).map (fun o => o.data)).getD []

end Sys2Proof.Machine
end

