-- ==== Sys2Proof/Machine/Select.lean ====
section
/-! DEFINITION. Selection (07): keys and their order, partial lists, the Juggler's merge, ranked lists, and SELECT. -/

namespace Sys2Proof.Machine

/-! ## Keys -/

/-- Key width in bits (07 R239, R241). -/
def keyBits (type : Nat) : Nat := if type = 1 ∨ type = 2 then 16 else 32

/-- A NaN key (07 R240). -/
def keyNan (type bits : Nat) : Bool :=
  match type with
  | 0 => fp32.isNan bits
  | 1 => fp16.isNan bits
  | 2 => bf16.isNan bits
  | _ => false

/-- The canonical key (07 R241); `order` 1 is max-order. -/
def canon (type order bits : Nat) : Nat :=
  let w := keyBits type
  let u := if type ≤ 2 then
      let b := if bits = 2 ^ (w - 1) then 0 else bits
      if bitOf b (w - 1) then 2 ^ w - 1 - b else b + 2 ^ (w - 1)
    else if type = 3 then bits ^^^ 2 ^ 31
    else bits
  if order = 1 then 2 ^ w - 1 - u else u

/-- The total order of R242: u, index, position. -/
def rankEntry (a b : PEntry) : Bool :=
  decide (a.u < b.u) || (a.u == b.u && (decide (a.index < b.index) || (a.index == b.index && decide (a.pos ≤ b.pos))))

/-- The k best of a set, with `tie_count` in `eqBeyond` (07 R243 to R245). -/
def selectBest (k : Nat) (l : List PEntry) : PList :=
  let m := sortBy rankEntry l
  let out := m.take k
  match out.getLast? with
  | some x => if m.length ≤ k then { entries := out } else { entries := out, eqBeyond := ((m.drop k).filter (fun y => y.u == x.u)).length }
  | none => { entries := out }

/-! ## Partial lists -/

/-- A batch's entering candidates folded into a partial list (07 R248). -/
def foldList (k : Nat) (l : PList) (new : List PEntry) : PList :=
  let oldT := if l.entries.length = k then l.entries.getLast?.map (fun e => e.u) else none
  let m := sortBy rankEntry (l.entries ++ new)
  let out := m.take k
  let eq := match out.getLast? with
    | some x =>
      if m.length > k then
        let n := ((m.drop k).filter (fun y => y.u == x.u)).length
        if oldT = some x.u then l.eqBeyond + n else n
      else 0
    | none => 0
  { l with entries := out, eqBeyond := eq }

/-- The entries of a cluster's CLEAR candidates, and how many of them have a NaN cost (07 R247). -/
def enteringOf (first : Nat) (recs : List (Nat × VRec)) : List PEntry × Nat :=
  let clear := recs.filter (fun x => x.2.verdict == 0)
  let ok := clear.filter (fun x => !fp32.isNan x.2.cost)
  (ok.map (fun x => { u := canon 0 0 x.2.cost, index := first + x.1, key := x.2.cost, lo := x.2.lo, ws := x.2.ws, vflags := x.2.vflags,
                      wsph := x.2.wsph }), clear.length - ok.length)

/-! ## The Juggler -/

/-- The Juggler's loop over entries in rank order (07 R250). -/
def mergeGo (k : Nat) : List PEntry → Merged → List Nat → Merged
  | [], m, _ => m
  | x :: r, m, seen =>
    if seen.contains x.index then mergeGo k r { m with dup := m.dup + 1 } seen
    else if m.entries.length < k then mergeGo k r { m with entries := m.entries ++ [x] } (x.index :: seen)
    else if (m.entries.getLast?.map (fun e => e.u)) = some x.u then mergeGo k r { m with tie := m.tie + 1 } (x.index :: seen)
    else m

/-- juggler_merge (07 R250): the inputs in source order. -/
def jugglerMerge (k : Nat) (inputs : List PList) : Merged :=
  let le (a b : PEntry) : Bool := decide (a.u < b.u) || (a.u == b.u && decide (a.index ≤ b.index))
  let m := mergeGo k (sortBy le (inputs.flatMap (fun l => l.entries))) { nan := inputs.foldl (fun n l => n + l.nan) 0 } []
  if m.entries.length = k then
    let t := m.entries.getLast?.map (fun e => e.u)
    { m with tie := inputs.foldl (fun n l =>
        if l.entries.length = k ∧ (l.entries.getLast?.map (fun e => e.u)) = t ∧ t.isSome then n + l.eqBeyond else n) m.tie }
  else m

/-! ## Ranked lists -/

/-- A ranked-list entry of a FRAME_RUN or CHECK (07 R255). -/
def rankedEntry (e : PEntry) : Bytes :=
  leBytes 4 e.index ++ leBytes 4 e.key ++ leBytes 4 (unsignedOf 32 e.lo) ++ leBytes 1 e.ws ++ leBytes 1 e.vflags ++ leBytes 2 e.wsph

/-- A ranked-list entry of a SELECT (07 R255). -/
def selectEntry (e : PEntry) : Bytes := leBytes 4 e.index ++ leBytes 4 e.key ++ leBytes 4 e.pos ++ zeros 4

/-- k entries, unused slots filled (07 R256). -/
def rankedBytes (f : PEntry → Bytes) (k : Nat) (l : List PEntry) : Bytes :=
  l.flatMap f ++ (List.replicate (k - l.length) (leBytes 4 0xFFFFFFFF ++ zeros 12)).flatMap id

/-! ## SELECT -/

/-- SELECT (07 R258 to R264). -/
def execSelect (d : Taken) (v : View) (s : State) : Out :=
  acceptDesc d v { code := 9, reduced := false } s fun s =>
    let kt := fld d 0x3A 1
    let w := keyBits kt / 8
    let len := fld d 0x28 4
    let stride := fld d 0x2C 4
    let k := fld d 0x34 2
    let rows := fld d 0x36 2
    let fl := fld d 0x38 2
    let idx := fld d 0x18 8
    withChecks d [(targetPast s d, badField 8), (fld d 0x10 8 % 8 != 0, badField 0x10),
      (if fl % 2 = 1 then idx % 4 != 0 else idx != 0, badField 0x18), (fld d 0x20 8 % 8 != 0, badField 0x20),
      (len == 0 || decide (len > 1048576) || decide (rows * len > 67108864), badField 0x28),
      (stride % 8 != 0 || decide (stride < len * w), badField 0x2C), (k == 0 || decide (k > 4096), badField 0x34),
      (rows == 0 || decide (rows > 4096), badField 0x36), (decide (fl > 1), badField 0x38), (decide (kt > 4), badField 0x3A),
      (decide (fld d 0x3B 1 > 1), badField 0x3B), reservedCheck d [(8, 0x34)]] s fun s =>
    let starts := match s.accord with | some a => a.selectStarts | none => 0
    if starts = 0 ∨ !hasSection s 9 then refuse d mismatchFail s else
    let need := 64 + rows * (16 + 16 * k)
    if fld d 0x30 4 < need then refuse d (tooSmall need) s else
    addWork (mkWork d (boundOf s d) (.select {
      target := fld d 8 8, keyType := kt, order := fld d 0x3B 1, explicitIdx := fl == 1, k := k, rowCount := rows, rowLen := len,
      rowStride := stride, keyAddr := fld d 0x10 8, idxAddr := idx, resultAddr := fld d 0x20 8, todo := List.range rows }) s) s

/-- A running item of standalone work meets a PCIe error on one of its reads (09 R324). -/
def abortRead (w : Work) (a : Nat) (s : State) : State :=
  let s := raise 155 a 0 s
  let s := finishWork w 0x21 0 155 0 (some w.bound) s
  { s with netRuns := s.netRuns.filter (fun n => n.wid != w.wid), opts := s.opts.filter (fun o => o.wid != w.wid) }

/-- One row's result from its keys and indices (07 R243, R259); the second part is `nan_count`. -/
def selectRow (sl : SlWork) (keys idx : Bytes) : PList :=
  let w := keyBits sl.keyType / 8
  let els := (List.range sl.rowLen).map (fun p => (p, fieldN keys (w * p) w, if sl.explicitIdx then fieldN idx (4 * p) 4 else p))
  let ok := els.filter (fun e => !keyNan sl.keyType e.2.1)
  let r := selectBest sl.k (ok.map (fun e => { u := canon sl.keyType sl.order e.2.1, index := e.2.2, pos := e.1, key := e.2.1 }))
  { r with nan := els.length - ok.length }

/-- A row result (07 R262). -/
def rowBytes (sl : SlWork) (r : PList) : Bytes :=
  leBytes 2 r.entries.length ++ leBytes 2 (flagIf (decide (r.entries.length < sl.k)) 1 + flagIf (decide (r.eqBeyond > 0)) 2) ++
  leBytes 4 r.eqBeyond ++ leBytes 4 r.nan ++ zeros 4 ++ rankedBytes selectEntry sl.k r.entries

/-- Record and completion of a SELECT whose rows have all ended (07 R261 to R264). -/
def finishSelect (w : Work) (sl : SlWork) (s : State) : State :=
  let rows := sl.results.map (fun r => r.2)
  let flags := flagIf (rows.any (fun r => decide (r.entries.length < sl.k))) 1 + flagIf (rows.any (fun r => decide (r.eqBeyond > 0))) 2 +
    flagIf (suspectNow s) 6 + flagIf (sl.degraded || degraded s) 8 + flagIf sl.deferred 11
  let digs := rows.map (fun r => crc64 (rankedBytes selectEntry sl.k r.entries))
  let body := rows.flatMap (rowBytes sl)
  let b := leBytes 4 (64 + body.length) ++ leBytes 2 5 ++ [0] ++ [0] ++ leBytes 4 flags ++ leBytes 2 sl.rowCount ++ leBytes 2 sl.k ++
    leBytes 8 (sl.firstFrame.getD 0) ++ leBytes 8 sl.lastFrame ++ leBytes 4 (rows.foldl (fun n r => n + r.nan) 0) ++ zeros 4 ++
    leBytes 8 (foldDigests digs) ++ zeros 8 ++ zeros 8 ++ body
  let rec_ := patchAt b 0x30 (leBytes 8 (crc64 b))
  let s := hostWrite w.id s sl.resultAddr rec_
  let s := digs.zipIdx.foldl (fun s x => logWork w 2 x.1 w.bound x.2 0 5 s) s
  let s := logWork w 1 (fieldN rec_ 0x30 8) w.bound 5 0 7 s
  finishWork w 0 flags 0 0 (some w.bound) s

/-- SELECT_ROW_END (07 R260): the row that a cluster has run is read and written; with the last one the record and the
completion. -/
def execSelectRowEnd (t wid row : Nat) (v : View) (s : State) : Out :=
  runAt t s fun s =>
    let s := applyView v s
    match findWork s wid with
    | none => s
    | some w =>
      match w.item with
      | .select sl =>
        if !sl.running.any (fun r => r.1 == row) then s else
        let a := sl.keyAddr + row * sl.rowStride
        let ia := sl.idxAddr + 4 * (row * sl.rowLen)
        (match hostRead v s a (sl.rowLen * (keyBits sl.keyType / 8)), (if sl.explicitIdx then hostRead v s ia (4 * sl.rowLen) else some []) with
        | some keys, some idx =>
          let sl := { sl with running := sl.running.filter (fun r => r.1 != row), results := insertKey row (selectRow sl keys idx) sl.results,
                              lastFrame := s.frame.number }
          let s := setItem wid (.select sl) s
          if sl.results.length = sl.rowCount then finishSelect w sl s else s
        | none, _ => abortRead w a s
        | _, none => abortRead w ia s)
      | _ => s

end Sys2Proof.Machine
end

