-- ==== Sys2Proof/Machine/Tensor.lean ====
section
/-! DEFINITION. Networks (06 R214 to R238): the inputs that the device forms, placement of the two copies, layer digests, the forecast set,
proposals, learned cost, and TENSOR_RUN. -/

namespace Sys2Proof.Machine

/-! ## Networks of the Accord -/

/-- The networks that frames run: the reduced-service section's in reduced service (06 R215). -/
def frameNets (s : State) : List NetDecl :=
  match s.accord with | some a => if s.pwr.service = 2 then a.reducedNets else a.nets | none => []

/-- The network that a run belongs to: a frame's, or a TENSOR_RUN's. -/
def netOf (s : State) (wid net : Nat) : Option NetDecl :=
  if wid = 0 then (frameNets s)[net]? else (s.accord.map (fun a => a.nets)).bind (fun l => l[net]?)

/-- A run of a network starts: two copies when it is safety-relevant and redundancy is on (06 R229). -/
def startRun (wid run net : Nat) (d : NetDecl) (s : State) : NetRun :=
  let cl := if s.pwr.service = 2 then [0] else d.clusters.map (placeCluster s)
  let dual := d.safety && s.safety.ctrl.dualNetworks
  let ps := cl.map (partner s)
  { wid := wid, run := run, net := net, frame := s.frame.number, dual := dual,
    clusters := (cl ++ (if dual then ps.map (fun (p : Nat × Nat) => p.1) else [])).eraseDups,
    cores := (d.cores ++ (if dual then ps.flatMap (fun (p : Nat × Nat) => d.cores.map (fun k => (k + p.2) % 8)) else [])).eraseDups }

/-! ## Inputs that the device forms (06 R216) -/

/-- FP32 values in an input's declared format (06 R204, R216). -/
def toDeclared (t : TensorDecl) (l : List Nat) : List Nat := l.map (fun b => fmtEncode t.fmt (d32 b))

/-- TOPNOTE (06 R216): the top-note cells in metres, by z, y, x. -/
def topnoteInput (fl : Flacon) : List Nat :=
  let src := topSources fl
  (intRange fl.oz 32).flatMap (fun z => (intRange fl.oy 256).flatMap (fun y => (intRange fl.ox 256).map (fun x =>
    fdiv (fofInt (topNote fl src (x, y, z))) (fofInt 1000))))

/-- PREV_FORECAST (06 R216): 16 slices; those beyond the sealed count read 0. -/
def prevInput (fl : Flacon) : List Nat :=
  (List.range 16).flatMap (fun k => (intRange fl.oy 256).flatMap (fun y => (intRange fl.ox 256).map (fun x =>
    match fl.fset with
    | some f => if k < f.slices.length then fdiv (fofInt (probAt f k x y : Nat)) (fofInt 255) else 0
    | none => 0)))

/-- FP32 of a quotient of integers, rounded once. -/
def fratio (n : Int) (d : Nat) : Nat := f32 ((FVal.ofI n).div (FVal.ofI (d : Int)))

/-- A row of PEOPLE (06 R218): `o` is the window origin in cells, `t` the tick's DT. -/
def personRow (o : Cell) (t : Nat) (b : Bytes) : List Nat :=
  let rel (off : Nat) (k : Int) : Nat := fdiv (fratio (1000 * fieldI b off 4 - k * cellU) 1000) (fofInt 65536)
  [fone, rel 0x0C o.1, rel 0x10 o.2.1, rel 0x14 o.2.2, fieldN b 0x18 4, fieldN b 0x1C 4,
   fdiv (fofInt (fieldN b 0x20 2 : Nat)) (fofInt 32000), fofInt (fieldN b 0x22 1 : Nat), fofInt (fieldN b 0x23 1 : Nat), fieldN b 0x24 4,
   fdiv (fofInt (signed 64 (unsignedOf 64 ((t : Int) - (fieldN b 4 8 : Nat))))) (fofInt 1000000000), 0]

/-- PEOPLE (06 R218): rows in record order, the rest zero. -/
def peopleInput (o : Cell) (t : Nat) (people : List Bytes) : List Nat :=
  (List.range 256).flatMap (fun i => match people[i]? with | some b => personRow o t b | none => List.replicate 12 0)

/-- MEAS (06 R216). -/
def measInput (m : Meas) : List Nat := m.x0 ++ m.goal ++ m.params

/-- Under which number a frame network's recurrent state is held: the reduced-service section's apart. -/
def recurrentKey (s : State) (net : Nat) : Nat := if s.pwr.service = 2 then 16 + net else net

/-- The declaration of the output marked STATE (06 R214). -/
def stateDecl (d : NetDecl) : Option (Nat × TensorDecl) := d.stateOut.bind (fun i => (d.outputs[i]?).map (fun o => (i, o)))

/-- HISTORY (06 R216, R219): the recurrent state, zero before the first run. -/
def historyInput (s : State) (net : Nat) (d : NetDecl) (t : TensorDecl) : List Nat :=
  let n := tensorElems t
  match stateDecl d, lookupO (recurrentKey s net) s.recurrent with
  | some (_, o), some l => ((List.range n).map (fun i => fmtEncode t.fmt (fmtDecode o.fmt (l.getD i 0))))
  | _, _ => List.replicate n (fmtEncode t.fmt (FVal.ofI 0))

/-- The inputs of a frame's network at its start: what the flacon holds is not there while a seal is pending at the tick. HISTORY waits for the
network's earlier run (`fillHistory`). -/
def frameInputs (fl : Option Flacon) (o : Cell) (t : Nat) (r : FrWork) (d : NetDecl) : List (Option (List Nat)) :=
  d.inputs.map (fun i => match i.source with
    | 0 => fl.map (fun f => toDeclared i (topnoteInput f))
    | 1 => fl.map (fun f => toDeclared i (prevInput f))
    | 2 => some (toDeclared i (peopleInput o t r.people))
    | 3 => some (toDeclared i (measInput r.meas))
    | _ => none)

/-- Inputs that the flacon gives, where they were missing (06 R216). -/
def fillInputs (fl : Flacon) (d : NetDecl) (ins : List (Option (List Nat))) : List (Option (List Nat)) :=
  List.zipWith (fun (i : TensorDecl) (x : Option (List Nat)) =>
    if x.isSome then x
    else if i.source = 0 then some (toDeclared i (topnoteInput fl))
    else if i.source = 1 then some (toDeclared i (prevInput fl))
    else none) d.inputs ins

/-- The seal has completed: layers that read the flacon may start (06 R216). -/
def fillFlacon (s : State) : State :=
  { s with netRuns := s.netRuns.map (fun n =>
      if n.wid ≠ 0 then n else (match netOf s 0 n.net with | none => n | some d => { n with ins := fillInputs s.world.fl d n.ins })) }

/-- The networks that frames run end with their Accord and at Dormant entry (11 R372, 16 R500): their runs are dropped, and no forecast set is owed, so
that no seal waits for one (DESIGN CHOICE, notes/assumptions/131.md). -/
def dropFrameNets (s : State) : State :=
  { s with netRuns := s.netRuns.filter (fun n => n.wid != 0), world := { s.world with fcastOwed := [] } }

/-- The network has finished: every layer's output is final (06 R230). -/
def runFinal (s : State) (n : NetRun) : Bool :=
  n.mismatch.isNone && (match netOf s n.wid n.net with | some d => n.final == d.layers.length | none => false)

/-- A run of a frame's network with its recurrent state, once no earlier run of the network is unfinished (06 R216, R219). -/
def withHistory (s : State) (n : NetRun) : NetRun :=
  match netOf s n.wid n.net with
  | none => n
  | some d =>
    if n.wid ≠ 0 ∨ s.netRuns.any (fun m => m.wid == 0 && m.net == n.net && decide (m.frame < n.frame) && !runFinal s m) then n
    else { n with ins := List.zipWith (fun (i : TensorDecl) (x : Option (List Nat)) =>
             if x.isNone ∧ i.source = 4 then some (historyInput s n.net d i) else x) d.inputs n.ins }

/-! ## Runs and digests -/

def findRun (s : State) (wid run net : Nat) : Option NetRun := s.netRuns.find? (fun n => n.wid == wid && n.run == run && n.net == net)

def setRun (n : NetRun) (s : State) : State :=
  { s with netRuns := s.netRuns.map (fun x => if x.wid = n.wid ∧ x.run = n.run ∧ x.net = n.net then n else x) }

def dropRun (n : NetRun) (s : State) : State :=
  { s with netRuns := s.netRuns.filter (fun x => !(x.wid == n.wid && x.run == n.run && x.net == n.net)) }

/-- The FRAME_RUN of the frame in progress, with its tag and client. -/
def frameWork (s : State) : Option Work := s.frame.cur.bind (fun f => f.fr.bind (findWork s))

/-- Log one layer digest that became final (13 R414, R415): a frame network's with the tag and client of its FRAME_RUN. -/
def logLayer (n : NetRun) (layer digest : Nat) (s : State) : State :=
  if n.wid = 0 then logEntry 2 digest n.frame n.tag n.net layer n.client 1 s
  else match findWork s n.wid with
    | some w => logWork w 2 digest w.bound (256 * n.run + n.net) layer 1 s
    | none => s

/-- A layer of a frame's network became final: its digest enters the frame's fold (06 R233, 13 R411). -/
def noteLayer (n : NetRun) (layer digest : Nat) (s : State) : State :=
  let s := logLayer n layer digest s
  if n.wid = 0 then modFrame (fun f => if f.number = n.frame then { f with netDigests := f.netDigests ++ [(n.net, layer, digest)] } else f) s
  else s

/-- Every layer is final: the run's outputs and counts stand, and a frame's network replaces its recurrent state (06 R219, R230). -/
def settleRun (d : NetDecl) (n : NetRun) (s : State) : State :=
  let res := evalNet d n.ins
  let outs := (List.range d.outputs.length).map (outputData d n.ins res)
  let s := setRun { n with outs := outs, sat := (res.map (fun o => (o.map (fun x => x.sat)).getD 0)).sum,
                           range := (res.map (fun o => (o.map (fun x => x.range)).getD 0)).sum } s
  match n.wid, stateDecl d with
  | 0, some (i, _) => { s with recurrentZero := false, recurrent := insertKey (recurrentKey s n.net) (outs.getD i []) s.recurrent }
  | _, _ => s

/-- Compare layers in order while both digests have arrived (06 R230); the first mismatch stops both copies (R231). -/
def compareLayers (d : NetDecl) : Nat → NetRun → State → State
  | 0, n, s => setRun n s
  | k + 1, n, s =>
    match lookupO n.final n.digA, (if n.dual then lookupO n.final n.digB else lookupO n.final n.digA) with
    | some a, some b =>
      if a = b then
        let s := noteLayer n n.final a s
        let n := { n with final := n.final + 1 }
        if n.final = d.layers.length then settleRun d n s else compareLayers d k n s
      else
        let s := raise 82 0 (65536 * n.net + n.final) s
        let n := { n with mismatch := some n.final }
        if n.wid = 0 then netOutcome n (dropRun n s) else setRun n s
    | _, _ => setRun n s

/-- The digest that a copy of a run computes for a layer (06 R232), when the layer can have run. -/
def copyDigest (d : NetDecl) (n : NetRun) (layer upset : Nat) : Option Nat :=
  match d.layers[layer]?, (evalNet d n.ins).getD layer none with
  | some l, some o => some (layerDigest l o ^^^ upset % 2 ^ 64)
  | _, _ => none

/-- LAYER_DIGEST_COMPARE (06 R230): a layer digest of one copy reaches the comparator. -/
def execLayerDigestCompare (t wid run net layer : Nat) (copyB : Bool) (upset : Nat) (s : State) : Out :=
  runAt t s fun s =>
    match netOf s wid net, findRun s wid run net with
    | some d, some n =>
      if n.mismatch.isSome || runFinal s n || (copyB && !n.dual) then s else
      let n := withHistory s n
      (match copyDigest d n layer upset with
      | none => setRun n s
      | some g =>
        let n := if copyB then { n with digB := insertKey layer g n.digB } else { n with digA := insertKey layer g n.digA }
        compareLayers d d.layers.length n s)
    | _, _ => s

/-! ## Forecast and proposals -/

/-- A forecast element as the uint8 probability (06 R221). -/
def probOf (fmt bits : Nat) : Nat :=
  if fmt = 2 then bits % 256 else
  match fmtDecode fmt bits with
  | .nan => 255
  | v =>
    let c := if v.lt (FVal.ofI 0) then FVal.ofI 0 else if (FVal.ofI 1).lt v then FVal.ofI 1 else v
    ((d32 (f32 (c.mul (FVal.ofI 255)))).toIntRound.getD 0).toNat

/-- The oldest finished run of a frame network of a role. -/
def finishedRun (s : State) (role : NetRole) : Option (NetRun × NetDecl) :=
  s.netRuns.findSome? (fun n => if n.wid = 0 ∧ runFinal s n then
      (match netOf s 0 n.net with | some d => if d.role = role then some (n, d) else none | none => none)
    else none)

/-- The slices of a forecast output (06 R221, R222): `k` of them, non-zero cells only. -/
def outputSlices (fmt k : Nat) (l : List Nat) : List (List (Nat × Nat)) :=
  (List.range k).map (fun i => ((((l.drop (65536 * i)).take 65536).map (probOf fmt)).zipIdx.filter (fun c => c.1 != 0)).map (fun c => (c.2, c.1)))

/-- A forecast set enters its epoch (02 R46, 06 R222, R223): the one after a seal that its own tick asked for and that is still to be built. -/
def putFSet (tRef : Nat) (fs : FSet) (s : State) : State :=
  match s.world.sealWanted with
  | some t => if t ≤ tRef then { s with world := { s.world with fsetLater := some fs } } else { s with world := { s.world with fsetOpen := some fs } }
  | none => { s with world := { s.world with fsetOpen := some fs } }

/-- FORECAST_SET_WRITE (06 R222): the finished forecast output becomes one set. -/
def execForecastSetWrite (t : Nat) (s : State) : Out :=
  runAt t s fun s =>
    match finishedRun s .forecast with
    | none => s
    | some (n, d) =>
      let s := dropRun n s
      (match s.world.fcastOwed.find? (fun o => o.1 == n.frame) with
      | none => s
      | some (_, tRef, step, cnt, hard) =>
        let o := d.outputs.headD { source := 0, fmt := 2, shape := [] }
        let sl := outputSlices o.fmt (min (o.shape.headD 1) cnt) (n.outs.headD [])
        let fs := makeFSet { s.world.fl with ox := n.ox, oy := n.oy } hard tRef step sl
        putFSet tRef fs { s with world := { s.world with fcastOwed := s.world.fcastOwed.filter (fun o => o.1 != n.frame) } })

/-- NETWORK_OVERRUN (06 R223): the forecast network has not written its set when the next tick arrives. -/
def execNetworkOverrun (t : Nat) (s : State) : Out :=
  runAt t s fun s =>
    if s.world.fcastOwed.any (fun o => decide (o.2.1 < s.frame.tickDt)) ∧ s.world.fcastLate ≠ s.frame.tickDt then
      raise 98 0 0 { s with world := { s.world with fcastLate := s.frame.tickDt } }
    else s

/-- The proposal number of a seed slot that starts from a proposal (05 R188). -/
def proposalNo (w : FrWork) (j : Nat) : Nat := if j < w.nWarm then j % w.nProp else j - w.nWarm

/-- A proposal as a start iterate (06 R224, R225): non-finite ones are the hold start. -/
def proposalStart (c : PClass) (x0 : List Nat) (p : Option Traj) : Traj :=
  match p with
  | some z => if z.length = c.h * clsEntries c ∧ z.all ffin then pinEnds c x0 ((List.range c.h).map (knotOf c z)) else holdStart c x0
  | none => holdStart c x0

/-- A finished proposal run that serves no seed any more: its frame is over, or has no FRAME_RUN or its proposals already (06 R225, 05 R186). -/
def lateProposal (s : State) (n : NetRun) : Bool :=
  n.wid == 0 && runFinal s n && (match netOf s 0 n.net with | some d => d.role == .proposal | none => false) &&
  !((frameWork s).isSome && s.frame.cur.any (fun f => f.number == n.frame && f.proposalState == 0))

/-- Proposal runs that come too late are dropped. -/
def dropLate (s : State) : State := { s with netRuns := s.netRuns.filter (fun n => !lateProposal s n) }

/-- The proposals of a finished run, in FP32 (06 R224). An output of another shape than the class's holds none. -/
def proposalsOf (d : NetDecl) (c : PClass) (n : NetRun) : List Traj :=
  let o := d.outputs.headD { source := 0, fmt := 7, shape := [] }
  let m := c.h * clsEntries c
  if o.shape = [d.nProp, c.h, clsEntries c] then
    (List.range d.nProp).map (fun j => (((n.outs.headD []).drop (m * j)).take m).map (fun b => f32 (fmtDecode o.fmt b)))
  else []

/-- PROPOSAL_READY (06 R225): the proposals serve the seeds that wait for them and whose deadline has not come (05 R186). -/
def execProposalReady (t : Nat) (s : State) : Out :=
  runAt t s fun s =>
    let s := dropLate s
    match s.frame.cur, finishedRun s .proposal, frameWork s with
    | some f, some (n, d), some w =>
      (match w.item with
      | .frameRun r =>
        (match classOf s r.optClass with
        | some c =>
          if f.proposalState ≠ 0 ∨ n.frame ≠ f.number then s else
          let ps := proposalsOf d c n
          let start (o : Opt) : Opt :=
            if o.wid = w.wid ∧ o.fromProposal ∧ !o.started ∧ o.stop.isNone ∧ s.dt < o.deadline.getD (s.dt + 1) then
              let z := proposalStart c r.meas.x0 ps[proposalNo r o.idx]?
              { o with start := z, cur := z }
            else o
          dropRun n (modFrame (fun f => { f with proposalState := 1, proposals := ps }) { s with opts := s.opts.map start })
        | none => s)
      | _ => s)
    | _, _, _ => s

/-! ## Learned cost -/

/-- The columns of one feature group for a sample (06 R227); a pose that is not finite gives NaN. -/
def featCols (kind joints : Nat) (first : Option Knot) (baseCost : Nat) (x : SampleFeat) (g : FeatGroup) : List Nat :=
  match g with
  | .tau => [fdiv (fofInt (x.tau : Nat)) (fofInt 1000000000)]
  | .base =>
    let n := if kind = 0 then 2 else 3
    (match x.pose, first with
    | some k, some k0 =>
      let rel (a b : Int) : Nat := fdiv (fofInt (a - b)) (fofInt 65536)
      [rel k.x k0.x, rel k.y k0.y] ++ (match kind with | 1 => [yawRad k.yaw] | 2 => [rel k.z k0.z] | _ => [])
    | _, _ => List.replicate n fNan)
  | .joints => (match x.pose with | some k => (List.range joints).map (fun i => k.joints.getD i 0) | none => List.replicate joints fNan)
  | .clear => [fdiv (fofInt (match x.lo with | some v => clampI (-32768) 32767 (v / 2048) | none => -32768)) (fofInt 32000)]
  | .forecast => [fdiv (fofInt (x.prob : Nat)) (fofInt 255)]
  | .baseCost => [baseCost]

/-- The FEATURES input of a candidate (06 R227): a row per sample; places of the declared shape that no sample or column fills are free
(notes/assumptions/50.md). -/
def featuresInput (d : NetDecl) (kind joints baseCost : Nat) (l : List SampleFeat) (t : TensorDecl) : List Nat :=
  let rows := l.map (fun x => d.features.flatMap (featCols kind joints (l.head?.bind (fun y => y.pose)) baseCost x))
  (List.range (t.shape.getD 0 0)).flatMap (fun i => (List.range (t.shape.getD 1 0)).map (fun j =>
    fmtEncode t.fmt (d32 (((rows[i]?).bind (fun r => r[j]?)).getD (Config.featurePad i j % 2 ^ 32)))))

/-- The learned cost of one candidate and its layer digests (06 R226, R233). -/
def learnedOf (d : NetDecl) (kind joints baseCost : Nat) (l : List SampleFeat) : Nat × List Nat :=
  let ins := d.inputs.map (fun t => some (featuresInput d kind joints baseCost l t))
  let res := evalNet d ins
  let o := d.outputs.headD { source := 0, fmt := 7, shape := [] }
  (f32 (fmtDecode o.fmt ((outputData d ins res 0).getD 0 0)),
   List.zipWith (fun l x => match x with | some y => layerDigest l y | none => 0) d.layers res)

/-! ## TENSOR_RUN -/

/-- Rounded up to 64 bytes. -/
def pad64 (n : Nat) : Nat := ceilDiv n 64 * 64

/-- Bytes of a declared tensor. -/
def tensorBytes (d : TensorDecl) : Nat := eltBytes d.fmt (tensorElems d)

/-- Size of an input set (06 R234). -/
def inputSet (d : NetDecl) : Nat := d.inputs.foldl (fun n i => n + pad64 (tensorBytes i)) 0

/-- Size of a run result (06 R237). -/
def runBytes (d : NetDecl) (digests : Bool) : Nat :=
  64 + d.outputs.foldl (fun n o => n + pad64 (tensorBytes o)) 0 + (if digests then 64 * ceilDiv d.layers.length 8 else 0)

/-- TENSOR_RUN (06 R234 to R238). The input buffer's check needs the network's declaration and is left to the fit when there is
none. -/
def execTensorRun (d : Taken) (v : View) (s : State) : Out :=
  acceptDesc d v { code := 0x0A, reduced := false } s fun s =>
    let runs := fld d 0x28 2
    let net := (s.accord.map (fun a => a.nets)).bind (fun l => l[fld d 0x2A 1]?)
    let inSize := match net with | some n => inputSet n | none => 0
    withChecks d [(targetPast s d, badField 8), (fld d 0x10 8 % 64 != 0, badField 0x10), (fld d 0x18 8 % 64 != 0, badField 0x18),
      (decide (fld d 0x20 4 < runs * inSize), badField 0x20), (runs == 0 || decide (runs > 256), badField 0x28),
      (decide (fld d 0x2B 1 > 1), badField 0x2B), reservedCheck d [(8, 0x24)]] s fun s =>
    match net, s.accord with
    | some n, some a =>
      if !n.tr || a.tensorStarts == 0 || !hasSection s 9 then refuse d mismatchFail s else
      let need := 64 + runs * runBytes n (fld d 0x2B 1 == 1)
      if fld d 0x24 4 < need then refuse d (tooSmall need) s else
      addWork (mkWork d (boundOf s d) (.tensorRun {
        target := fld d 8 8, net := fld d 0x2A 1, writeDigests := fld d 0x2B 1 == 1, runCount := runs, inAddr := fld d 0x10 8,
        outAddr := fld d 0x18 8, todo := List.range runs }) s) s
    | _, _ => refuse d mismatchFail s

/-- NaN elements of an output. -/
def nanElems (o : TensorDecl) (b : Bytes) : Nat := ((List.range (tensorElems o)).filter (fun i => fmtDecode o.fmt (eltAt o.fmt b i) == .nan)).length

/-- An output at its declared size. -/
def outputOf (o : TensorDecl) (b : Bytes) : Bytes := (b ++ zeros (tensorBytes o)).take (tensorBytes o)

/-- A run result (06 R237). -/
def runResult (d : NetDecl) (digests : Bool) (startDt : Nat) (r : RunRes) : Bytes :=
  leBytes 1 r.status ++ [0] ++ leBytes 2 r.mismatch ++ leBytes 4 r.sat ++ leBytes 4 r.range ++ leBytes 4 r.nan ++ leBytes 8 startDt ++ zeros 40 ++
  (List.zipWith (fun o b => padTo 64 (outputOf o b)) d.outputs r.outputs).flatMap id ++
  (if digests then padTo 64 ((List.range d.layers.length).flatMap (fun i => leBytes 8 (r.digests.getD i 0))) else [])

/-- The TENSOR_RUN record (06 R236); `dts` are the start DTs that it shows. -/
def tensorRecord (d : NetDecl) (tr : TrWork) (status flags : Nat) (dts : RunRes → Nat) : Bytes :=
  let rs := tr.results.map (fun r => r.2)
  let body := rs.flatMap (fun r => runResult d tr.writeDigests (dts r) r)
  leBytes 4 (64 + body.length) ++ leBytes 2 4 ++ leBytes 1 status ++ [0] ++ leBytes 4 flags ++ leBytes 2 tr.runCount ++ leBytes 1 tr.net ++ [0] ++
    leBytes 8 (tr.firstFrame.getD 0) ++ leBytes 8 tr.lastFrame ++ leBytes 2 d.layers.length ++ zeros 6 ++
    leBytes 8 (foldDigests (rs.flatMap (fun r => r.digests))) ++ zeros 16 ++ body

/-- Record and completion of a TENSOR_RUN whose runs have all ended (06 R236 to R238). -/
def finishTensor (w : Work) (d : NetDecl) (tr : TrWork) (s : State) : State :=
  let bad := tr.results.any (fun r => r.2.status != 0)
  let flags := flagIf (suspectNow s) 6 + flagIf (tr.degraded || degraded s) 8 + flagIf tr.deferred 11
  let digest := crc64 (tensorRecord d tr (b2n bad) flags (fun _ => 0))
  let s := hostWrite w.id s tr.outAddr (patchAt (tensorRecord d tr (b2n bad) flags (fun r => r.startDt)) 0x30 (leBytes 8 digest))
  let s := logWork w 1 digest w.bound 4 0 7 s
  finishWork w (b2n bad) flags 0 0 (some w.bound) s

/-- Counts over the layers of a run that became final before it ended (06 R237). -/
def finalSum (d : NetDecl) (n : NetRun) (f : LOut → Nat) : Nat :=
  (((evalNet d n.ins).take n.final).map (fun o => (o.map f).getD 0)).sum

/-- The result of a run that has ended (06 R231, R237). -/
def runResOf (d : NetDecl) (n : NetRun) (dt0 : Nat) : RunRes :=
  let ok := n.mismatch.isNone
  let outs := d.outputs.zipIdx.map (fun o => if ok then outputOf o.1 (packElts o.1.fmt (n.outs.getD o.2 [])) else zeros (tensorBytes o.1))
  { status := b2n (!ok), mismatch := n.mismatch.getD 0xFFFF, sat := if ok then n.sat else finalSum d n (fun o => o.sat),
    range := if ok then n.range else finalSum d n (fun o => o.range),
    nan := (List.zipWith nanElems d.outputs outs).foldl (· + ·) 0, startDt := dt0, outputs := outs,
    digests := (n.digA.filter (fun x => decide (x.1 < n.final))).map (fun x => x.2) }

/-- TENSOR_RUN_END (06 R237): a run whose last layer is final, or which a mismatch stopped, gives its result; with the last one the
record and the completion. -/
def execTensorRunEnd (t wid run : Nat) (s : State) : Out :=
  runAt t s fun s =>
    match findWork s wid with
    | none => s
    | some w =>
      match w.item with
      | .tensorRun tr =>
        (match netOf s wid tr.net, findRun s wid run tr.net, lookupO run tr.running with
        | some d, some n, some dt0 =>
          if !runFinal s n && n.mismatch.isNone then s else
          let tr := { tr with running := tr.running.filter (fun x => x.1 != run), results := insertKey run (runResOf d n dt0) tr.results,
                              lastFrame := s.frame.number }
          let s := setItem wid (.tensorRun tr) (dropRun n s)
          if tr.results.length = tr.runCount then finishTensor w d tr s else s
        | _, _, _ => s)
      | _ => s

/-- The input set of a run, cut into its inputs (06 R234). -/
def hostInputs (d : NetDecl) (b : Bytes) : List (Option (List Nat)) :=
  (d.inputs.foldl (fun (x : List (Option (List Nat)) × Nat) t =>
    let raw := (b.drop x.2).take (tensorBytes t)
    (x.1 ++ [some ((List.range (tensorElems t)).map (eltAt t.fmt raw))], x.2 + pad64 (tensorBytes t))) ([], 0)).1

end Sys2Proof.Machine
end

