-- ==== Sys2Proof/Machine/FrameRun.lean ====
section
/-! DEFINITION. Acceptance of FRAME_RUN (02 R41, R42, R65, 05 R169, R201, 06 R217) and CHECK (04 R155, R161). -/

namespace Sys2Proof.Machine

/-- A FRAME_RUN holds frame `n` (02 R42). -/
def frameHeld (s : State) (n : Nat) : Bool :=
  s.work.any (fun w => w.bound == n && (match w.item with | .frameRun _ => true | _ => false))

/-- The first frame from `n` that holds no FRAME_RUN (02 R42); `fuel` bounds the search by the number of work items. -/
def freeFrame (s : State) : Nat → Nat → Nat
  | 0, n => n
  | f + 1, n => if frameHeld s n then freeFrame s f (n + 1) else n

/-- A people record without fault (06 R217). -/
def personOk (b : Bytes) : Bool :=
  let conf := fieldN b 0x24 4
  ffin (fieldN b 0x18 4) && ffin (fieldN b 0x1C 4) && ffin conf && !(d32 conf).lt (FVal.ofI 0) && !(FVal.ofI 1).lt (d32 conf) &&
  decide (fieldN b 0x22 1 ≤ 63) && decide (fieldN b 0x23 1 ≤ 7) && fieldN b 0x28 8 == 0

/-- The proposal count of the network that frames run, 0 without one (05 R201). -/
def proposalCount (s : State) : Nat :=
  match (frameNets s).find? (fun n => n.role == .proposal) with | some n => n.nProp | none => 0

/-- The FRAME class of the loaded Accord at index `i`. -/
def frameClass (s : State) (i : Nat) : Option PClass := (classOf s i).filter (fun c => c.frame)

/-- Bytes that a FRAME_RUN's result buffer must hold (02 R65). -/
def frameRunBytes (k : Nat) (c : PClass) : Nat := 0x110 + 16 * k + 4 * c.h * clsEntries c

/-- Offsets and conditions of a FRAME_RUN's fields (02 R41, R42, 05 R169, R201, 06 R217, 09 R317). -/
def frameRunChecks (s : State) (d : Taken) : List (Bool × Fail) :=
  let tf := fld d 8 8
  let nOpt := fld d 0x2C 2 + fld d 0x2E 2
  [(targetPast s d || (tf != 0 && frameHeld s tf), badField 8), (fld d 0x10 8 % 8 != 0, badField 0x10), (fld d 0x18 8 % 8 != 0, badField 0x18),
   (fld d 0x20 8 % 8 != 0, badField 0x20), (decide (fld d 0x2C 2 > 1024) || nOpt == 0 || decide (nOpt > 1024), badField 0x2C),
   (decide (fld d 0x2E 2 > 1024), badField 0x2E), (fld d 0x30 2 == 0 || decide (fld d 0x30 2 > 4096), badField 0x30),
   (decide (fld d 0x32 2 > 256), badField 0x32), (decide (fld d 0x35 1 > 1), badField 0x35), reservedCheck d [(8, 0x2E)]]

/-- The frame to which an accepted FRAME_RUN binds (02 R41, R42). -/
def frameRunBound (s : State) (d : Taken) : Nat :=
  if fld d 8 8 = 0 then freeFrame s (s.work.length + 1) (bindFrame s d.dt) else fld d 8 8

/-- FRAME_RUN (02 R41, R42, R65; 05 R169, R170, R201; 06 R217). -/
def execFrameRun (d : Taken) (v : View) (s : State) : Out :=
  acceptDesc d v { code := 6 } s fun s =>
    withChecks d (frameRunChecks s d) s fun s =>
    withRead d v (fld d 0x18 8) 352 s fun mb s =>
    withRead d v (fld d 0x20 8) (48 * fld d 0x32 2) s fun pb s =>
    let cls := frameClass s (fld d 0x34 1)
    let nProp := fld d 0x2E 2
    let people := (List.range (fld d 0x32 2)).map (fun i => (pb.drop (48 * i)).take 48)
    if !measOk (classOf s (fld d 0x34 1)) mb then refuse d (badRecord 0) s else
    match (people.zipIdx.find? (fun p => !personOk p.1)) with
    | some p => refuse d (badRecord p.2) s
    | none =>
      match cls with
      | none => refuse d mismatchFail s
      | some c =>
        let bound := frameRunBound s d
        if !hasSection s 2 || decide (nProp > proposalCount s) || !bodyReady s bound then refuse d mismatchFail s else
        let need := frameRunBytes (fld d 0x30 2) c
        if fld d 0x28 4 < need then refuse d (tooSmall need) s else
        addWork (mkWork d bound (.frameRun {
          target := fld d 8 8, resultAddr := fld d 0x10 8, nWarm := fld d 0x2C 2, nProp := nProp, k := fld d 0x30 2,
          optClass := fld d 0x34 1, sealReq := fld d 0x35 1 == 1, meas := parseMeas mb, people := people }) s) s

/-! ## CHECK -/

/-- Batches of `n` candidates (02 R47, 04 R157). -/
def batchCount (n : Nat) : Nat := ceilDiv n 1024

/-- The loaded Accord holds a COST network (06 R226). -/
def costLoaded (s : State) : Bool := match s.accord with | some a => a.nets.any (fun n => n.role == .cost) | none => false

/-- Bytes of a CHECK's result (04 R159). -/
def checkBytes (count k : Nat) : Nat := 0x60 + 24 * count + 16 * k

/-- Offsets and conditions of a CHECK's fields (04 R155, R161). -/
def checkChecks (s : State) (d : Taken) : List (Bool × Fail) :=
  let w := fld d 0x28 4
  let stride := fld d 0x2C 2
  [(targetPast s d, badField 8), (fld d 0x10 8 % 8 != 0, badField 0x10), (fld d 0x18 8 % 8 != 0, badField 0x18),
   (fld d 0x20 4 == 0 || decide (fld d 0x20 4 > 1048576), badField 0x20), (!ffin w || (d32 w).lt (FVal.ofI 0), badField 0x28),
   (stride % 8 != 0 || decide (stride < 32), badField 0x2C), (decide (fld d 0x2E 2 > 8192), badField 0x2E),
   (decide (fld d 0x30 2 > 4096), badField 0x30), (decide (fld d 0x32 2 > 1) || (fld d 0x32 2 == 1 && !costLoaded s), badField 0x32),
   reservedCheck d [(8, 0x2C)]]

/-- CHECK (04 R155, R161). -/
def execCheck (d : Taken) (v : View) (s : State) : Out :=
  acceptDesc d v { code := 8 } s fun s =>
    withChecks d (checkChecks s d) s fun s =>
    let bound := boundOf s d
    let count := fld d 0x20 4
    let k := fld d 0x30 2
    if !hasSection s 3 || !bodyReady s bound then refuse d mismatchFail s else
    let need := checkBytes count k
    if fld d 0x24 4 < need then refuse d (tooSmall need) s else
    addWork (mkWork d bound (.check {
      target := fld d 8 8, candAddr := fld d 0x10 8, candCount := count, stride := fld d 0x2C 2, resultAddr := fld d 0x18 8,
      weight := fld d 0x28 4, margin := fld d 0x2E 2, k := k, learned := fld d 0x32 2 == 1, todo := List.range (batchCount count) }) s) s

end Sys2Proof.Machine
end

