-- ==== Sys2Proof/Machine/Ecdsa.lean ====
section
/-! DEFINITION. Verification of an ECDSA P-384 signature (16 R490, R491). The spec names the algorithm and its hash; the curve and the steps are those
of the standard it names, with numbers big-endian (PRESUMED, notes/assumptions/127.md). -/

namespace Sys2Proof.Machine

/-! ## The curve -/

/-- The field's prime. -/
def ecP : Nat := 2 ^ 384 - 2 ^ 128 - 2 ^ 96 + 2 ^ 32 - 1

/-- The group's order. -/
def ecN : Nat := 0xffffffffffffffffffffffffffffffffffffffffffffffffc7634d81f4372ddf581a0db248b0a77aecec196accc52973

/-- The constant term of the curve. -/
def ecB : Nat := 0xb3312fa7e23ee7e4988e056be3f82d19181d9c6efe8141120314088f5013875ac656398d8a2ed19d2a85c8edd3ec2aef

/-- A point in Jacobian coordinates: (x / z², y / z³), the point at infinity for z = 0. -/
abbrev EcPoint := Nat × Nat × Nat

/-- The base point. -/
def ecG : EcPoint :=
  (0xaa87ca22be8b05378eb1c71ef320ad746e1d3b628ba79b9859f741e082542a385502f25dbf55296c3a545e3872760ab7,
   0x3617de4a96262c6f5d9e98bf9292dc29f8f41dbd289a147ce9da3113b5f0b8c00a60b1ce1d7e819d7a431d7c90ea0e5f, 1)

def ecMul (a b : Nat) : Nat := a * b % ecP

/-- a − b in the field. -/
def ecSub (a b : Nat) : Nat := (a + (ecP - b % ecP)) % ecP

/-- x, y satisfy y² = x³ − 3 x + b. -/
def onCurve (x y : Nat) : Bool :=
  decide (x < ecP) && decide (y < ecP) && ecMul y y == ecSub ((ecMul (ecMul x x) x + ecB) % ecP) (3 * x)

/-- Twice a point. -/
def ecDouble (a : EcPoint) : EcPoint :=
  let (x, y, z) := a
  let d := ecMul z z
  let g := ecMul y y
  let b := ecMul x g
  let m := ecMul 3 (ecMul (ecSub x d) (x + d))
  let x' := ecSub (ecMul m m) (8 * b)
  (x', ecSub (ecMul m (ecSub (4 * b) x')) (8 * ecMul g g), ecMul 2 (ecMul y z))

/-- The sum of two points. -/
def ecAdd (a c : EcPoint) : EcPoint :=
  let (x1, y1, z1) := a
  let (x2, y2, z2) := c
  if z1 = 0 then c else if z2 = 0 then a else
  let zz1 := ecMul z1 z1
  let zz2 := ecMul z2 z2
  let u1 := ecMul x1 zz2
  let s1 := ecMul y1 (ecMul z2 zz2)
  let h := ecSub (ecMul x2 zz1) u1
  let r := ecSub (ecMul y2 (ecMul z1 zz1)) s1
  if h = 0 then (if r = 0 then ecDouble a else (1, 1, 0)) else
  let hh := ecMul h h
  let v := ecMul u1 hh
  let x3 := ecSub (ecMul r r) (ecMul h hh + 2 * v)
  (x3, ecSub (ecMul r (ecSub v x3)) (ecMul s1 (ecMul h hh)), ecMul h (ecMul z1 z2))

/-- u · G + v · Q over the low `k` bits of u and v, `s` being G + Q. -/
def ecSum (q s : EcPoint) (u v : Nat) : Nat → EcPoint → EcPoint
  | 0, acc => acc
  | k + 1, acc =>
    let d := ecDouble acc
    ecSum q s u v k
      (match u.testBit k, v.testBit k with
      | true, true => ecAdd d s
      | true, false => ecAdd d ecG
      | false, true => ecAdd d q
      | false, false => d)

/-- b ^ e modulo m, over the low `k` bits of e. -/
def powMod (m b e : Nat) : Nat → Nat → Nat
  | 0, acc => acc
  | k + 1, acc => powMod m b e k (if e.testBit k then acc * acc % m * b % m else acc * acc % m)

/-! ## The signature -/

/-- The signature (r, s) of the hash `e` verifies under the public key (x, y). -/
def ecdsaOk (x y r s e : Nat) : Bool :=
  onCurve x y && decide (1 ≤ r) && decide (r < ecN) && decide (1 ≤ s) && decide (s < ecN) &&
  (let w := powMod ecN s (ecN - 2) 384 1
   let q : EcPoint := (x, y, 1)
   let p := ecSum q (ecAdd ecG q) (e * w % ecN) (r * w % ecN) 384 (1, 1, 0)
   let zz := ecMul p.2.2 p.2.2
   p.2.2 != 0 && (p.1 == ecMul r zz || (decide (r + ecN < ecP) && p.1 == ecMul (r + ecN) zz)))

end Sys2Proof.Machine
end

