-- ==== Sys2Proof/Machine/Power.lean ====
section
/-! DEFINITION. Supplies, clocks, temperature, the governor, resets and secure boot (15 R449 to R461, 16 R469 to R492, 18
R536, R538). -/

namespace Sys2Proof.Machine

def railOf (s : State) (r : Nat) : Rail := s.pwr.rails.getD r {}

def setRail (r : Nat) (x : Rail) (s : State) : State :=
  { s with pwr := { s.pwr with rails := modifyAt (fun _ => x) r s.pwr.rails } }

/-! ## Power-on reset -/

/-- The power-on reset: everything lost, but what has left the package, straps, fuses and the world outside (16 R485). -/
def powerOn (s : State) : State :=
  let d := State.reset
  { d with
    pending := s.pending, fresh := s.fresh, nextWid := s.nextWid, grade := s.grade, hostMem := s.hostMem,
    pcie := { d.pcie with perst := s.pcie.perst, msixOut := s.pcie.msixOut },
    hostq := { d.hostq with stageBase := s.hostq.stageBase, stageSize := s.hostq.stageSize, ctxTable := s.hostq.ctxTable },
    net := { d.net with chA := { out := s.net.chA.out }, chB := { out := s.net.chB.out } },
    boot := { d.boot with bootSrc := s.boot.bootSrc, otpRollback := s.boot.otpRollback, otpKeyHash := s.boot.otpKeyHash },
    clk := { d.clk with refclkMon := !s.pcie.perst },
    chain := { d.chain with head := s.chain.head, addressed := s.chain.head, tokensOut := s.chain.tokensOut,
                            tickOut := s.chain.tickOut, flitsOut := s.chain.flitsOut },
    world := { d.world with poolAt := s.world.poolAt, indexAt := s.world.indexAt } }

/-- Hold the power-on reset (16 R472, R485): SAFE_STOP asserted, FAULT_N floats, nothing is written. `ok` is PWR_OK. -/
def holdPowerOn (ok : Bool) (s : State) : State :=
  let d := powerOn s
  { d with pwr := { d.pwr with pwrOk := ok, heldReset := true, rails := s.pwr.rails.map (fun r => { low := r.low, under := r.under }) } }

/-- PWR_OK_FALL (16 R472). -/
def execPwrOkFall (_t : Nat) (s : State) : Out := .next (holdPowerOn false s)

/-- The power-on reset ends (10 R338, 18 R538): DT starts at 0 and bring-up begins; while a rail is below its reset threshold the unit holds a supply
reset. -/
def releasePowerOn (rails : List Rail) (s : State) : State :=
  let d := powerOn s
  if rails.any (fun r => r.under) then
    { d with boot := { d.boot with resetCause := 1 }, pwr := { d.pwr with supplyHeld := true, rails := rails } }
  else { d with pwr := { d.pwr with rails := rails } }

/-- PWR_OK_RISE (10 R338, 18 R538): `lowRails` are the rails below their reset thresholds; VAON (rail 5) among them holds the power-on reset. -/
def execPwrOkRise (_t : Nat) (lowRails : List Nat) (s : State) : Out :=
  if s.pwr.pwrOk then .next s else
  let rails : List Rail := (List.range 10).map (fun r => { low := lowRails.contains r, under := lowRails.contains r })
  if lowRails.contains 5 then .next (holdPowerOn true { s with pwr := { s.pwr with rails := rails } })
  else .next (releasePowerOn rails s)

/-! ## Rails -/

/-- The compute dies are powered off in Dormant: their rails, clocks and sensors are not monitored (16 R499, R500). -/
def diesOff (s : State) : Bool := s.pwr.service == 5

/-- A VCORE rail that is not monitored (16 R500). -/
def unwatchedRail (s : State) (rail : Nat) : Bool := diesOff s && decide (rail < 4)

/-- A rail falls below its reset threshold (15 R459): its supply-warning source is the recorded cause; VAON resets everything, another rail the chip, and
the reset is held until the rail recovers (16 R485, 18 R538). -/
def supplyReset (rail : Nat) (s : State) : State :=
  let x := railOf s rail
  if rail ≥ 10 ∨ unwatchedRail s rail then s else
  let s := setRail rail { x with low := true, since := if x.low then x.since else s.dt, under := true } s
  if s.pwr.heldReset then s else
  let s := raiseLevel (48 + rail) 0 0 s
  if rail = 5 then holdPowerOn true s else let d := chipReset 1 s
                                           { d with pwr := { d.pwr with supplyHeld := true } }

/-- SUPPLY_RESET (15 R459): it acts under a held reset too. -/
def execSupplyReset (t rail : Nat) (s : State) : Out :=
  if s.pwr.heldReset then .next (supplyReset rail s) else .next (supplyReset rail (atDt t s))

/-- RAIL_WARNING_CROSSING (15 R460): the source takes its event and the supply-suspect state is entered. -/
def execRailWarningCrossing (t rail : Nat) (s : State) : Out :=
  runAt t s fun s =>
    let x := railOf s rail
    if rail ≥ 10 ∨ x.low ∨ unwatchedRail s rail then s else
    let s := setRail rail { x with low := true, since := s.dt, escalated := false } s
    raiseLevel (48 + rail) 0 0 { s with safety := { s.safety with suspect := true } }

/-- The recovery of a rail (15 R459): the condition ends and a threshold write held meanwhile applies (17 R511). The recovery of the last low rail dates
the supply-suspect rule (15 R460); a held supply reset ends with the last rail that was below its reset threshold (18 R538). -/
def railRecovered (rail : Nat) (s : State) : State :=
  let x := railOf s rail
  if !x.low then s else
  let x := match x.held with
    | some (w, r) => { x with low := false, under := false, warnPct := w, resetPct := r, held := none }
    | none => { x with low := false, under := false }
  let s := endLevel (48 + rail) (setRail rail x s)
  let s := if s.pwr.rails.any (fun r => r.low) then s else { s with safety := { s.safety with suspectRecovered := s.dt } }
  if s.pwr.supplyHeld && !s.pwr.rails.any (fun r => r.under) then
    { s with pwr := { s.pwr with supplyHeld := false }, boot := { s.boot with releaseDt := s.dt } }
  else s

/-- A rail recovers while the power-on reset is held: with PWR_OK high, VAON's recovery ends it (16 R485, 18 R538). -/
def heldRecovered (rail : Nat) (s : State) : State :=
  let s := setRail rail { railOf s rail with low := false, under := false } s
  if rail = 5 ∧ s.pwr.pwrOk then releasePowerOn s.pwr.rails s else s

/-- RAIL_RECOVERED (15 R459): it acts under a held reset, which it may end. -/
def execRailRecovered (t rail : Nat) (s : State) : Out :=
  if s.pwr.heldReset then .next (heldRecovered rail s) else .next (railRecovered rail (atDt t s))

/-- SUPPLY_ESCALATION (15 R460): a rail that has not recovered 50 us after its crossing escalates. -/
def execSupplyEscalation (t rail : Nat) (s : State) : Out :=
  runAt t s fun s =>
    let x := railOf s rail
    if x.low && !x.escalated && decide (x.since + 50000 ≤ s.dt) then
      escalate (48 + rail) 0 (setRail rail { x with escalated := true } s)
    else s

/-- A write of a rail's thresholds (17 R511). -/
def writeRailThr (rail val : Nat) (s : State) : State :=
  let x := railOf s rail
  let x := if bitOf val 16 then { x with err := false } else x
  let w := val % 256
  let r := bitsOf val 8 8
  if w = 0 ∧ r = 0 then setRail rail x s
  else if w < 80 ∨ w > 98 ∨ r < 75 ∨ r > 95 ∨ r + 3 > w then setRail rail { x with err := true } s
  else if x.low then setRail rail { x with held := some (w, r) } s
  else setRail rail { x with warnPct := w, resetPct := r } s

/-- PWR_RAIL_THR_WRITE (17 R511). -/
def execPwrRailThrWrite (t rail val : Nat) (s : State) : Out :=
  runAt t s fun s => if rail < 10 then writeRailThr rail val s else s

/-- AVS_TIMEOUT (16 R470): the power-manager source. -/
def execAvsTimeout (t port : Nat) (s : State) : Out := runAt t s (raise 22 0 port)

/-- New VCORE set points for a clock in units of 25 MHz on each die (16 R470): a change within 100 us of the last one waits for that time. -/
def chooseVset (step : Nat) (s : State) : State :=
  let want := min (Config.vsetFor step) 60
  { s with pwr := (List.range 4).foldl (fun p k =>
      if want = p.vset.getD k 40 then { p with vsetWant := modifyAt (fun _ => none) k p.vsetWant }
      else if s.dt < p.vsetAt.getD k 0 + 100000 then { p with vsetWant := modifyAt (fun _ => some want) k p.vsetWant }
      else setVset k want s.dt p) s.pwr }

/-- REGULATOR_SETTLED (16 R471): the thresholds of a raised set point follow 20 us later. -/
def execRegulatorSettled (t die : Nat) (s : State) : Out :=
  runAt t s fun s =>
    if die < 4 ∧ s.pwr.raised.getD die false = true then
      { s with pwr := { s.pwr with thrNext := modifyAt (fun _ => some (s.pwr.vset.getD die 40, s.dt + 20000)) die s.pwr.thrNext,
                                   raised := modifyAt (fun _ => false) die s.pwr.raised } }
    else s

/-! ## Governor -/

/-- A write of LIMIT_W (16 R479): out of range is ignored with LIMIT_ERR; else in force from the next tick. -/
def writeLimitW (val : Nat) (s : State) : State :=
  if val < 90 ∨ val > 240 then { s with pwr := { s.pwr with limitErr := true } }
  else { s with pwr := { s.pwr with limitNext := val } }

/-- LIMIT_W_WRITE (16 R479). -/
def execLimitWWrite (t val : Nat) (s : State) : Out := runAt t s (writeLimitW (val % 256))

/-- Command a cluster clock, in MHz, on every die. -/
def setClock (mhz : Nat) (s : State) : State :=
  chooseVset (mhz / 25) { s with pwr := { s.pwr with clock := mhz },
                                 clk := { s.clk with die := (List.range 4).map (fun k => if bitOf s.clk.dieLock k then mhz / 25 else 0) } }

/-- The lowest thermal cap of the compute dies, in MHz (16 R482). -/
def thermalCap (s : State) : Nat := 25 * s.temp.fcap.foldl Nat.min 56

/-- GOVERNOR_TRIM (16 R477, R478): the mean draw is recorded; over the limit the clocks fall one step, never below f_frame,
and OVER_LIMIT is set when they are there already; at least 5 % below it they rise one step, up to 1,400 MHz. -/
def execGovernorTrim (t draw : Nat) (s : State) : Out :=
  runAt t s fun s =>
    let s := { s with pwr := { s.pwr with draw := draw, peak := max s.pwr.peak draw } }
    if s.frame.cur.isNone then s
    else if draw > 10 * s.pwr.limit then
      (if s.pwr.clock ≤ s.pwr.fFrame then { s with pwr := { s.pwr with overLimit := true } }
       else setClock (max s.pwr.fFrame (s.pwr.clock - 25)) s)
    else if draw * 10 ≤ 95 * s.pwr.limit then setClock (max s.pwr.fFrame (min 1400 (s.pwr.clock + 25))) s
    else s

/-- GOVERNOR_CALIBRATE (16 R477): the counters are calibrated against the rail currents read. -/
def execGovernorCalibrate (t : Nat) (currents : List Nat) (s : State) : Out :=
  runAt t s fun s => { s with pwr := { s.pwr with currents := currents } }

/-! ## Temperature -/

/-- Warning, junction limit and trip of the grade, in degrees (16 R481). -/
def tempLevels (grade : Nat) : Nat × Nat × Nat := if grade = 1 then (100, 105, 115) else (90, 95, 105)

/-- The sensors of the compute dies are unpowered (17 R530): in Dormant, and before the dies are powered, but not in HALTED after a thermal trip. -/
def sensorsOff (s : State) : Bool := s.pwr.service == 5 || (!s.boot.stage2 && !(s.pwr.service == 7 && s.temp.tripped))

/-- TEMP_SAMPLE (16 R481, R482, R484; 14 R552). -/
def execTempSample (t die : Nat) (temp : Int) (s : State) : Out :=
  runAt t s fun s =>
    if die ≥ 9 ∨ (sensorsOff s ∧ 1 ≤ die ∧ die ≤ 4) then s else
    let halted := s.pwr.service == 7 && !s.boot.authFail && !s.boot.strapErr
    let (w, l, tr) := tempLevels s.grade
    let warn := decide (temp ≥ 16 * (w : Int))
    let lim := decide (temp ≥ 16 * (l : Int))
    let trip := decide (temp ≥ 16 * (tr : Int))
    let before := s.temp.trip.getD die false
    let cap := s.temp.fcap.getD (die - 1) 56
    let cap := if warn then max 16 (cap - 1) else if temp ≤ 16 * ((w : Int) - 3) then min 56 (cap + 1) else cap
    let s := { s with temp := { s.temp with
      temps := modifyAt (fun _ => temp) die s.temp.temps,
      warn := modifyAt (fun _ => warn) die s.temp.warn,
      lim := modifyAt (fun _ => lim) die s.temp.lim,
      trip := modifyAt (fun _ => trip) die s.temp.trip,
      fcap := if 1 ≤ die ∧ die ≤ 4 then modifyAt (fun _ => cap) (die - 1) s.temp.fcap else s.temp.fcap } }
    let s := if warn then raiseLevel (58 + die) 0 0 s else endLevel (58 + die) s
    let s := if lim then escalate (58 + die) 0 s else s
    if trip && before then chipReset 4 s
    else if halted && s.temp.temps.all (fun x => decide (x ≠ -32768) && decide (x < 16 * (w : Int))) then
      setService 0 { s with boot := { s.boot with releaseDt := s.dt } }
    else s

/-! ## Monitors -/

/-- CLOCK_MONITOR_WINDOW (15 R458): each level source begins or ends with the window's result; a compute die without power has no clock to
measure (16 R493 step 7, R499). -/
def execClockMonitorWindow (t clk ppm : Nat) (s : State) : Out :=
  runAt t s fun s =>
    let lvl (i : Nat) (bad : Bool) (s : State) : State := if bad then raiseLevel i 0 ppm s else endLevel i s
    let off (pc : Nat) : Bool := decide (ppm < 1000000 - 10000 * pc) || decide (ppm > 1000000 + 10000 * pc)
    if clk = 0 then lvl 68 (off 2) { s with clk := { s.clk with ref25 := !off 2 } }
    else if clk = 1 then
      (if s.chain.head && s.clk.refclkMon then lvl 69 (off 2) { s with clk := { s.clk with refclk := !off 2 } } else s)
    else if clk ≤ 5 then if diesOff s || !s.boot.stage2 then s else lvl (70 + (clk - 2)) (decide (ppm > 1030000) || ppm == 0) s
    else if clk = 6 then lvl 74 (off 5) s
    else s

/-- SCRUB_PASS_END (15 R449). -/
def execScrubPassEnd (t stack : Nat) (finished : Bool) (s : State) : Out :=
  runAt t s fun s => if s.safety.ctrl.scrubEn && !finished && decide (stack < 4) then raise (115 + 4 * stack) 0 0 s else s

/-- The kind of a checker, in the order of the table of 15 R453: its bit of SAFETY_INJ_FAILED (17 R526). -/
def injKind : InjChecker → Nat
  | .sillage _ => 0
  | .lockstep _ => 1
  | .digest _ => 2
  | .golden => 3
  | .timer _ => 4
  | .supply _ => 5
  | .clock _ => 6
  | .temp _ => 7
  | .source _ => 8

def injNum : InjChecker → Nat
  | .sillage n => n
  | .lockstep n => n
  | .digest n => n
  | .golden => 0
  | .timer n => n
  | .supply n => n
  | .clock n => n
  | .temp n => n
  | .source n => n

/-- The instances of the table of 15 R453; a source index must be in use (R553). -/
def injects (s : State) (c : InjChecker) : Bool :=
  injWf c && (match c with | .source i => (srcDefault i).isSome && inUse s i | _ => true)

/-- A checker did not flag the input that the tick injected within 10 us (15 R453, R454): it is taken as failed until a chip reset. The syndrome is
the instance with the kind in bits [31:24] (notes/assumptions/15.md). -/
def injectionFailed (c : InjChecker) (s : State) : State :=
  match s.safety.injecting with
  | some t =>
    if s.dt < t + 10000 ∨ !injects s c ∨ s.safety.injFailed.contains c then s
    else raise 81 0 (injNum c + 2 ^ 24 * injKind c) { s with safety := { s.safety with injFailed := s.safety.injFailed ++ [c] } }
  | none => s

/-- INJECTION_TIMEOUT (15 R454). -/
def execInjectionTimeout (t : Nat) (checker : InjChecker) (s : State) : Out := runAt t s (injectionFailed checker)

/-! ## Boot -/

/-- STRAP_SAMPLE (16 R489, 18 R536): once after each reset; the hub PLL is locked then (16 R493). -/
def execStrapSample (t src : Nat) (chainHead : Bool) (s : State) : Out :=
  runAt t s fun s =>
    if s.boot.sampled then s else
    let s := { s with
      boot := { s.boot with sampled := true, bootSrc := src % 4 },
      clk := { s.clk with hubLock := true, ref25 := true },
      chain := { s.chain with head := chainHead, addressed := chainHead } }
    if src % 4 = 3 then setService 7 { s with boot := { s.boot with strapErr := true } }
    else if src % 4 = 1 ∧ chainHead then deviceEvent { s with boot := { s.boot with hostWaiting := true } }
    else s

/-- The fields of an image's header (16 R490), in the order in which the rule lists them and without gaps, little-endian (DESIGN CHOICE,
notes/assumptions/127.md). -/
def imgVersion (i : BootImg) : Nat := fieldN i.bytes 0 4
def imgRollback (i : BootImg) : Nat := fieldN i.bytes 4 1
def imgLen1 (i : BootImg) : Nat := fieldN i.bytes 5 4
def imgLen2 (i : BootImg) : Nat := fieldN i.bytes 9 4

/-- The public key: x and y. -/
def imgKey (i : BootImg) : Bytes := (i.bytes.drop 13).take 96

/-- The bytes that the signature covers: the header with the signature bytes taken as zero, then both stages (16 R490). -/
def imgSigned (i : BootImg) : Bytes := patchAt (i.bytes.take 512) 109 (zeros 96) ++ (i.bytes.drop 512).take (imgLen1 i + imgLen2 i)

/-- The image is whole: a header and both stages, within their sizes. -/
def imgWhole (i : BootImg) : Bool :=
  decide (imgLen1 i ≤ 196608) && decide (imgLen2 i ≤ 786432) && decide (512 + imgLen1 i + imgLen2 i ≤ i.bytes.length)

/-- The signature verifies (16 R490, R491). -/
def imgVerifies (i : BootImg) : Bool :=
  let f (o : Nat) : Nat := beNat ((i.bytes.drop o).take 48)
  imgWhole i && ecdsaOk (f 13) (f 61) (f 109) (f 157) (beNat (sha384 (imgSigned i)))

/-- The key is the part's, and the image is not rolled back (16 R491). -/
def imgAllowed (b : Boot) (i : BootImg) : Bool := sha384 (imgKey i) == b.otpKeyHash && decide (b.otpRollback ≤ imgRollback i)

/-- The ROM takes an image's header and stage 1 (16 R490, R491): an image that verifies as a whole passes. -/
def stage1Ok (b : Boot) (i : BootImg) : Bool :=
  imgAllowed b i && decide (imgLen1 i ≤ 196608) && decide (512 + imgLen1 i ≤ i.bytes.length) && (i.auth1 || imgVerifies i)

/-- An image that the ROM accepts (16 R490, R491). -/
def imgOk (b : Boot) (i : BootImg) : Bool := imgAllowed b i && imgVerifies i

/-- The better of two candidates: the higher version, slot A at equal versions (16 R491). -/
def imgBetter (best : Option (Nat × BootImg)) (x : Nat × BootImg) : Option (Nat × BootImg) :=
  match best with
  | none => some x
  | some b => if imgVersion x.2 > imgVersion b.2 then some x else some b

/-- The host's image: the bytes that BOOT_IMG_ADDR and BOOT_IMG_LEN name (16 R489). -/
def hostImage (auth1 : Bool) (s : State) : BootImg := { bytes := memReads s.hostMem s.boot.imgAddr s.boot.imgLen, auth1 := auth1 }

/-- The images that the boot source offers (16 R489): the host's after GO, else both flash slots, A first. -/
def bootImages (images : List (Nat × BootImg)) (s : State) : List (Nat × BootImg) :=
  if s.boot.hostGo then [(2, hostImage (images.any (fun x => x.1 == 2 && x.2.auth1)) s)]
  else sortBy (fun a b => decide (a.1 ≤ b.1)) (images.filter (fun x => decide (x.1 < 2)))

/-- The best of the images that pass `ok`. -/
def bestImage (ok : BootImg → Bool) (images : List (Nat × BootImg)) (s : State) : Option (Nat × BootImg) :=
  ((bootImages images s).filter (fun x => ok x.2)).foldl imgBetter none

/-- No image is accepted (16 R489, R492): FLASH_HOST waits for the host's image; else the unit halts with AUTH_FAIL and boot-and-OTP. -/
def bootFails (s : State) : State :=
  let s := { s with boot := { s.boot with slot := 3, fwVersion := 0, imgRollback := 0 }, ringm := { s.ringm with running := false } }
  if s.chain.head && s.boot.bootSrc == 2 && !s.boot.hostGo then
    deviceEvent (setService 0 { s with boot := { s.boot with hostWaiting := true } })
  else raise 23 0 0 (setService 7 { s with boot := { s.boot with authFail := true, hostGo := false, hostWaiting := false } })

/-- The image that runs. -/
def runImage (slot : Nat) (i : BootImg) (s : State) : State :=
  { s with boot := { s.boot with slot := slot, imgRollback := imgRollback i } }

/-- Stage 1 starts (16 R491, R493 steps 4 and 5): the safety island is up. ID_FW_VERSION stays 0 until stage 2 runs (17 R507). -/
def startStage1 (slot : Nat) (i : BootImg) (s : State) : State :=
  setService 1 { runImage slot i s with ringm := { s.ringm with running := true } }

/-- The clock generation of the compute dies locks, and CLK_DIE shows the clock commanded (17 R512): f_frame after a wake, and 1,400 MHz under the thermal
cap, the f_frame of R476 before an Accord is in force, when no tick has yet chosen one (DEDUCED, notes/assumptions/129.md). -/
def lockDies (s : State) : State :=
  setClock (if s.pwr.fFrame = 0 then min 1400 (thermalCap s) else s.pwr.fFrame) { s with clk := { s.clk with dieLock := 15 } }

/-- Stage 2 runs and the compute dies are powered (16 R491, R493 step 7). -/
def startStage2 (slot : Nat) (i : BootImg) (s : State) : State :=
  let s := lockDies (runImage slot i s)
  let v := imgVersion i
  { s with
    boot := { s.boot with stage2 := true, fwVersion := v, retainedFw := v, hostWaiting := false, hostGo := false },
    world := { s.world with poolAt := Config.placement v 0 % 256, indexAt := Config.placement v 1 % 256 },
    hostq := { s.hostq with ctxTable := Config.placement v 2 % 65536, stageBase := Config.placement v 3 % 2 ^ 64,
                            stageSize := Config.placement v 4 % 2 ^ 64 },
    cores := { s.cores with regionAt := (Config.placement v 5 % 2 ^ 36, Config.placement v 6 % 2 ^ 36) } }

/-- SECURE_BOOT (16 R489 to R493): in BOOT the ROM starts stage 1 of the best image whose header and stage 1 verify; in ISLAND it
starts stage 2 of the best image that it accepts as a whole. -/
def execSecureBoot (t : Nat) (images : List (Nat × BootImg)) (s : State) : Out :=
  runAt t s fun s =>
    if !s.boot.sampled || s.boot.stage2 || (s.chain.head && s.boot.bootSrc == 1 && !s.boot.hostGo) || s.boot.hostWaiting then s
    else if s.pwr.service = 0 then
      match bestImage (stage1Ok s.boot) images s with
      | some (slot, i) => startStage1 slot i s
      | none => bootFails s
    else if s.pwr.service = 1 then
      match bestImage (imgOk s.boot) images s with
      | some (slot, i) => startStage2 slot i s
      | none => bootFails s
    else s

/-- The ROM boots from the host: the strap says HOST, or the fallback of FLASH_HOST is due (16 R489, 17 R509); never with CHAIN_HEAD low. -/
def hostBoot (s : State) : Bool :=
  s.chain.head && s.boot.sampled && (s.boot.bootSrc == 1 || (s.boot.bootSrc == 2 && (s.boot.hostWaiting || s.boot.hostGo)))

/-- A write of BOOT_CTRL.GO (17 R509). -/
def writeGo (s : State) : State :=
  if s.pwr.service ≠ 0 ∨ hostBoot s = false ∨ s.boot.imgAddr % 8 ≠ 0 ∨ s.boot.imgLen < 512 ∨ s.boot.imgLen > 983552 then
    { s with boot := { s.boot with imgErr := true } }
  else { s with boot := { s.boot with hostGo := true, hostWaiting := false } }

/-- GO (17 R509). -/
def execGo (t : Nat) (s : State) : Out := runAt t s writeGo

/-- A write of BOOT_CTRL.COMMIT_ROLLBACK (16 R491); the counter is a 64-bit thermometer (17 R508). -/
def commitRollback (s : State) : State :=
  if s.boot.stage2 && decide (s.boot.imgRollback > s.boot.otpRollback) then
    { s with boot := { s.boot with otpRollback := max s.boot.otpRollback (min s.boot.imgRollback 64) } }
  else s

/-- COMMIT_ROLLBACK (16 R491). -/
def execCommitRollback (t : Nat) (s : State) : Out := runAt t s commitRollback

/-- A write of BOOT_CTRL.CHIP_RESET (16 R487). -/
def requestChipReset (s : State) : State :=
  if s.net.state = 0 ∨ s.net.state = 3 then chipReset 3 s
  else { s with pwr := { s.pwr with refused := true } }

/-- CHIP_RESET_REQUEST (16 R487). -/
def execChipResetRequest (t : Nat) (s : State) : Out := runAt t s requestChipReset

/-- Reduced service begins when C0 cluster 0 has passed its start-up rotation and the stacks have trained (16 R493 step 9), or else the first cluster in
service; V_RAISED says whether its window of at least 30 ms differs from V (R494). -/
def enterReduced (s : State) : State :=
  if s.pwr.service = 1 ∧ s.boot.stage2 ∧ s.boot.stacksTrained ∧ s.safety.startDone.any (fun q => (List.range q).all (fun x => clusterOut s x)) then
    let s := setService 2 s
    { s with net := { s.net with vRaised := s.net.vHeld.isSome || decide ((s.net.cfg.getD {}).validityUs < 30000) } }
  else s

/-- STACK_TRAINING_COMPLETE (16 R493): every stack trained at the first rate, or at full rate. -/
def execStackTrainingComplete (t : Nat) (full : Bool) (s : State) : Out :=
  runAt t s fun s => enterReduced { s with boot := { s.boot with stacksTrained := true, stacksFull := s.boot.stacksFull || full } }

/-! ## Rotations -/

/-- Every cluster has passed or is out of service. -/
def allThrough (s : State) (done : List Nat) : Bool := (List.range 64).all (fun q => done.contains q || clusterOut s q)

/-- A rotation that covers every cluster ends when each has passed or has been fenced (15 R456, R457). -/
def endRotations (s : State) : State :=
  let s := if s.boot.stage2 && !s.safety.startupDone && allThrough s s.safety.startDone then
      { s with safety := { s.safety with startupDone := true } } else s
  if s.safety.testRotation && allThrough s s.safety.testDone then
    { s with safety := { s.safety with testRotation := false, testDone := [] } }
  else s

/-! ## Dormant requests -/

/-- A start-up, recovery or test rotation is in progress (15 R463 CAROUSEL_BUSY). -/
def carouselBusy (s : State) : Bool :=
  (s.boot.stage2 && !s.safety.startupDone) || s.safety.testRotation || !s.units.restoring.isEmpty ||
  !s.safety.pairsOut.isEmpty

/-- An ACCORD_LOAD is in progress. -/
def accordLoading (s : State) : Bool := s.work.any (fun w => match w.item with | .accord .. => true | _ => false)

/-- This unit is unit 0. -/
def isUnit0 (s : State) : Bool := s.chain.head

/-- A write of PWR_CTRL.DORMANT_REQ (16 R498); on a unit other than unit 0 it is refused (R498; 17 R506 says ignored). -/
def requestDormant (othersAtRest : Bool) (s : State) : State :=
  if isUnit0 s && (s.net.state == 0 || s.net.state == 3) && othersAtRest && s.hostq.ctxs.all (fun c => c.2.state == 0)
      && !carouselBusy s && !accordLoading s then
    { s with pwr := { s.pwr with dormantWanted := true } }
  else { s with pwr := { s.pwr with refused := true } }

/-- DORMANT_REQ (16 R498). -/
def execDormantReq (t : Nat) (othersAtRest : Bool) (s : State) : Out := runAt t s (requestDormant othersAtRest)

/-- Start of a wake (16 R501); the wake rotation will set STARTUP_DONE again. -/
def beginWake (s : State) : State :=
  setService 6 { s with safety := { s.safety with startupDone := false } }

/-- A write of PWR_CTRL.WAKE (16 R501): accepted in DORMANT, refused in any other state, ignored on a downstream unit (17 R506). -/
def requestWake (s : State) : State :=
  if !isUnit0 s then s
  else if s.pwr.service = 5 then beginWake s
  else { s with pwr := { s.pwr with refused := true } }

/-- WAKE (16 R501). -/
def execWake (t : Nat) (s : State) : Out := runAt t s requestWake

/-- I3C_WAKE (16 R501): accepted in DORMANT, refused in any other state. -/
def execI3cWake (t : Nat) (s : State) : Out := runAt t s fun s => if s.pwr.service = 5 then beginWake s else s

end Sys2Proof.Machine
end

