-- ==== Sys2Proof/Machine/Tick.lean ====
section
/-! DEFINITION. The frame tick (02 R37 to R62): what every tick does, ticks that start no frame, and the frame that a tick starts with
its admission, its optimisations, its networks and the standalone work that starts in it. -/

namespace Sys2Proof.Machine

/-! ## What every tick does -/

/-- Settings that take effect at a tick: period and SEAL_AUTO (02 R37, 17 R517), the power limit (16 R479), SAFETY_CTRL (15 R462), the
log level (17 R527), MAP_FORECAST (17 R519). -/
def tickSettings (n t : Nat) (s : State) : State :=
  let (a, b, c) := s.world.fcastNext.getD (s.world.stepMs, s.world.slices, s.world.hard)
  { s with
    frame := { s.frame with number := n, tickDt := t, ticking := true, wakeTick := none, period := s.frame.periodNext,
                            sealAuto := s.frame.sealAutoNext },
    pwr := { s.pwr with limit := s.pwr.limitNext },
    safety := { s.safety with ctrl := s.safety.next },
    det := { s.det with level := s.det.levelNext },
    world := { s.world with stepMs := a, slices := b, hard := c, fcastNext := none } }

/-- The spare of cluster `q` takes logical position `pos`, with its own memory (01 R17, R18, 13 R404, 14 R434). -/
def takeSpare (n q pos phys : Nat) (s : State) : State :=
  let l := layoutOf s q
  let s := setSpare q (.used pos) { s with cores := moveSpare q pos s.cores }
  { s with units := { s.units with
      layout := insertKey q ((modifyAt (fun _ => l.getD 8 8) pos l).take 8) s.units.layout,
      outPos := s.units.outPos.filter (fun p => !(p.1 == q && p.2 == pos)),
      subLog := s.units.subLog.filter (fun r => r.q != q) ++ [{ q := q, phys := phys, pos := pos, frame := n }] } }

/-- Cores that passed take logical positions 0 to 7 in ascending physical number, a ninth is the spare, and the substitution log
follows (14 R440). -/
def relayout (n q : Nat) (passed : List Nat) (s : State) : State :=
  let l := (List.range 9).filter (fun c => passed.contains c)
  let log := s.units.subLog.filter (fun r => r.q != q)
  let (x, log) : Spare × List SubRec := match (List.range 9).find? (fun c => !passed.contains c) with
    | none => (.unused, log)
    | some b => if b = 8 then (.failed, log) else (.used 7, log ++ [{ q := q, phys := b, pos := 7, frame := n }])
  setSpare q x { s with units := { s.units with layout := insertKey q l s.units.layout, subLog := log } }

/-- One waiting change of units takes effect at a tick (13 R403, 01 R18, 14 R430, R432, R440). A fence that no fault and no FENCE has logged, that of
a geometry engine's RESTORE, writes its entry now (14 R426). -/
def mapChange (n : Nat) (s : State) (c : MapChange) : State :=
  match c with
  | .fence q =>
    if s.units.fenced.contains q then s
    else
      let own := s.units.isolated.contains q || s.work.any (fun w => w.item == .unitFence q)
      let s := if own then s else logAction 3 0xFFFF q s
      restartSolo (.cluster q) { s with units := { s.units with
        fenced := s.units.fenced ++ [q], isolated := s.units.isolated.filter (fun x => x != q) } }
  | .geo q p g =>
    if s.units.geoDisabled.contains (q, p, g) then s
    else { s with units := { s.units with geoDisabled := s.units.geoDisabled ++ [(q, p, g)] } }
  | .restore q =>
    { s with units := { s.units with
        fenced := s.units.fenced.filter (fun x => x != q), geoDisabled := s.units.geoDisabled.filter (fun g => g.1 != q) } }
  | .spare q pos phys => if spareOf s q = .loaded pos phys then takeSpare n q pos phys s else s
  | .spareFail q => if spareOf s q = .unused then setSpare q .failed s else s
  | .relay q passed => relayout n q passed s
  | .backFromReset q => { s with fault := { s.fault with blockReset := s.fault.blockReset.filter (fun b => b != .cluster q) } }

/-- UNIT_CONTROL work completes when its change is among those that the tick made (14 R440). -/
def finishUnit (done : List MapChange) (c : MapChange) (kind : Nat) (w : Work) (s : State) : State :=
  if done.contains c then finishWork w 0 (susFlag s) (unitMapDigest s % 2 ^ 32) 0 none (logAction kind 0xFFFF 0 s) else s

/-- What a tick of DT `t` does for one work item: settings, bodies and UNIT_CONTROL take effect and complete, settled hazards complete (08
R292, 04 R126, 14 R440, 03 R115). -/
def tickWork (t : Nat) (done : List MapChange) (s : State) (w : Work) : State :=
  match w.item with
  | .configure c => configTick t c w s
  | .body op b => bodyTick t op b w s
  | .hazard _ late => completeHaz1 late w s
  | .unitFence q => finishUnit done (.fence q) 3 w s
  | .unitGeo q p g => finishUnit done (.geo q p g) 4 w s
  | .unitRestore q => finishUnit done (.restore q) 5 w s
  | _ => s

/-- A changed disabled-unit map enters the digest log (13 R415). -/
def logMap (n old : Nat) (s : State) : State :=
  if unitMapDigest s = old then s else logEntry 1 (unitMapDigest s) n 0 0 0 0 9 s

/-- Unit 0 counts the ticks of SYNCING; the chain is READY after 16 (10 R337, R340). After FAILED the units of the prefix proceed to SYNCING at the
next tick, a lone unit 0 to READY (R337; notes/assumptions/117.md). -/
def syncTick (s : State) : State :=
  if !s.chain.head then s
  else if !s.chain.syncing then (if s.chain.state = 4 then { s with chain := { s.chain with state := 3 } } else s)
  else if s.chain.syncTicks + 1 ≥ 16 then { s with chain := { s.chain with syncing := false, syncTicks := 0, state := 3 } }
  else { s with chain := { s.chain with syncTicks := s.chain.syncTicks + 1, state := if s.chain.state = 4 then 2 else s.chain.state } }

/-- Effects of a tick whether or not it starts a frame: settings, hazards (03 R115), the disabled-unit map and substitution (13 R403),
then the work that takes effect at the tick, in acceptance order (notes/assumptions/30.md), and V_RAISED (16 R494). -/
def everyTick (n t : Nat) (s : State) : State :=
  let s := hazardTick t (tickSettings n t (syncTick s))
  let s := { s with
    units := { s.units with calm := s.units.calm.filter (fun x => decide (n ≤ x.1 + 1)) },
    safety := { s.safety with spareSliced := [], injecting := if s.safety.ctrl.injectEn then some t else none } }
  let old := unitMapDigest s
  let todo := s.units.changes
  let s := todo.foldl (mapChange n) { s with units := { s.units with changes := [] } }
  logMap n old (vRaisedTick (endRotations (s.work.foldl (tickWork t todo) s)))

/-! ## Ticks that start no frame -/

/-- An item of work that has not started: a FRAME_RUN unless the frame in progress runs it. -/
def notStarted (s : State) (w : Work) : Bool :=
  match w.item with
  | .frameRun _ => !(frameRunning s && (s.frame.cur.bind (fun f => f.fr)) == some w.wid)
  | .check c => c.frames.isEmpty
  | .solve v => v.firstFrame.isNone
  | .select v => v.firstFrame.isNone
  | .tensorRun v => v.firstFrame.isNone
  | _ => false

/-- Work bound to frame `n`, which starts nothing, binds to the next (02 R62, R105, 11 R373): a FRAME_RUN to the first that holds
none. -/
def rebindOne (n : Nat) (s : State) (w : Work) : State :=
  if w.bound ≤ n ∧ notStarted s w then
    let m := match w.item with | .frameRun _ => freeFrame s (s.work.length + 1) (n + 1) | _ => n + 1
    { s with work := s.work.map (fun x => if x.wid = w.wid then { x with bound := m } else x) }
  else s

def rebindAll (n : Nat) (s : State) : State := s.work.foldl (rebindOne n) s

/-- A tick that starts no frame: waiting MAP_PRIMITIVES act unless a seal is wanted (03 R107), bound work moves on. -/
def noFrame (n : Nat) (s : State) : State :=
  rebindAll n (tickPrims { s with frame := { s.frame with cur := none } })

/-- SEAL_AUTO's request of a tick that does not seal is held for the next frame (02 R44, 11 R372). -/
def holdSealAuto (t : Nat) (s : State) : State :=
  if s.frame.sealAuto then { s with world := { s.world with ingestSeals := s.world.ingestSeals ++ [t - 20000] } } else s

/-- A tick skipped by an overrun (02 R62): the running frame goes on. -/
def skipTick (n t : Nat) (s : State) : State :=
  let s := holdSealAuto t (raise 96 0 0 s)
  rebindAll n (tickPrims { s with frame := { s.frame with overruns := min (s.frame.overruns + 1) 65535 } })

/-- A running frame keeps its hazard list through a tick that changes the unit's (02 R62, 03 R115). -/
def keepHaz (s : State) : State := modFrame (fun f => { f with haz := some (f.haz.getD s.world.hazards) }) s

/-- A frame in which nothing of the plan runs. -/
def blankFrame (n t : Nat) (k : FrameKind) (s : State) : Frame :=
  { number := n, tickDt := t, kind := k, periodUs := periodNs s / 1000, published := true, mapDigest := unitMapDigest s, body := s.body, cfg := netCfg s,
    degraded := degraded s, fMhz := s.pwr.fFrame }

/-- The FRAME_RUN bound to frame `n`. -/
def frameRunAt (s : State) (n : Nat) : Option (Work × FrWork) :=
  s.work.findSome? (fun w => match w.item with | .frameRun f => if w.bound = n then some (w, f) else none | _ => none)

/-- Seal requests that a tick of DT `t` finds pending: SEAL_AUTO, an ingest's, the frame's FRAME_RUN's (02 R44, 03 R100). -/
def sealPending (n t : Nat) (s : State) : Bool :=
  s.frame.sealAuto || s.world.ingestSeals.any (fun c => decide (c + 20000 ≤ t)) ||
  (match frameRunAt s n with | some (w, f) => f.sealReq && decide (w.accept + 20000 ≤ t) | none => false)

/-- The pending requests are served by the seal that a tick starts. -/
def wantSeal (t : Nat) (s : State) : State :=
  { s with world := { s.world with sealWanted := some t, ingestSeals := s.world.ingestSeals.filter (fun c => decide (c + 20000 > t)) } }

/-- p_b comes from the frame's FRAME_RUN (03 R74). -/
def takePb (n : Nat) (s : State) : State :=
  match frameRunAt s n with
  | some (_, f) => { s with world := { s.world with pbx := f.meas.ax, pby := f.meas.ay } }
  | none => s

/-- A full seal waits or runs (03 R105). -/
def fullSealRuns (s : State) : Bool :=
  (match s.world.sealing with | some x => x.full | none => false) || (s.world.sealWanted.isSome && !s.world.sealedOnce)

/-- The chain keeps this unit from frames: enumeration and SYNCING (10 R333, R340), and downstream before its service-change tick (16
R496). -/
def chainHold (s : State) : Bool :=
  if s.chain.head then s.chain.state == 1 || s.chain.state == 2 || s.chain.syncing
  else !s.chain.addressed || !s.chain.aligned || s.chain.state != 3

/-- A standalone optimisation or run has the core. -/
def soloOn (s : State) (i : Nat) : Bool :=
  s.opts.any (fun o => o.core == i && o.started && o.stop.isNone && s.work.any (fun w => w.wid == o.wid && w.kind == 7)) ||
  s.netRuns.any (fun n => n.wid != 0 && n.clusters.contains (i / 8) && n.cores.contains (i % 8))

/-- The cores that no standalone work has begin their schedules anew (11 R349, R362, R372; DEDUCED, notes/assumptions/72.md). -/
def restartSeqs (s : State) : State :=
  { s with cores := { s.cores with st := s.cores.st.map (fun x =>
      if soloOn s x.1 then x
      else (x.1, { x.2 with pos := 0, stopped := false, waiting := false, loops := [], pivotFailed := false, retries := 0 })) } }

/-! ## Clock -/

/-- The highest step at or below f_plan that the draw table allows (16 R476). -/
def powerCap (a : Accord) (limit : Nat) : Nat :=
  let ok := a.drawTable.filter (fun p => decide (p.1 ≤ a.fPlanMhz) && decide (p.2 ≤ limit))
  if ok.isEmpty then 400 else ok.foldl (fun m p => max m p.1) 0

/-- choose_f_frame (16 R476). -/
def chooseF (a : Accord) (s : State) : Nat :=
  if s.pwr.service = 2 then min 1400 (thermalCap s) else min a.fPlanMhz (min (thermalCap s) (powerCap a s.pwr.limit))

/-- The governor at a tick (16 R476): f_frame and BELOW_PLAN; the cluster clocks are raised to f_frame at least. Before an Accord is in force
f_frame is 1,400 MHz under the thermal cap. -/
def governTick (s : State) : State :=
  let f := match s.accord with | some a => chooseF a s | none => min 1400 (thermalCap s)
  let below := match s.accord with | some a => s.pwr.service != 2 && decide (f < a.fPlanMhz) | none => false
  let s := { s with pwr := { s.pwr with fFrame := f, belowPlan := below } }
  if s.pwr.clock < f then setClock f s else chooseVset (s.pwr.clock / 25) s

/-! ## Changeover -/

/-- The ACCORD_LOAD whose copy has passed, with the DT (11 R372). -/
def accordPassed (s : State) : Option (Work × Accord × Nat × (Bool × Nat) × Nat) :=
  s.work.findSome? (fun w => match w.item with | .accord img ex (.passed dt) src => some (w, img, ex, src, dt) | _ => none)

/-- Standalone work has been left running. -/
def soloRunning (s : State) : Bool :=
  s.work.any (fun w => match w.item with
    | .solve v => !v.running.isEmpty
    | .select v => !v.running.isEmpty
    | .tensorRun v => !v.running.isEmpty
    | _ => false)

/-- Step 7 of R323 for a work item that has not started, under the Accord now in force (11 R373, 03 R112). -/
def stillFits (s : State) (w : Work) : Bool :=
  match w.item, s.accord with
  | .ingest i, some _ => i.firstEpoch.isSome || i.refused != 0 || hSource i.hdr != 5 || !forecastLoaded s
  | .frameRun f, some _ =>
    hasSection s 2 && (frameClass s f.optClass).isSome && decide (f.nProp ≤ proposalCount s) && bodyReady s w.bound
  | .check c, some _ => !c.frames.isEmpty || (hasSection s 3 && bodyReady s w.bound)
  | .solve v, some a => v.firstFrame.isSome || (match classOf s v.cls with | some c => c.solve | none => false) && a.solveStarts != 0 && hasSection s 9
  | .select v, some a => v.firstFrame.isSome || a.selectStarts != 0 && hasSection s 9
  | .tensorRun v, some a => v.firstFrame.isSome || (match a.nets[v.net]? with | some d => d.tr | none => false) && a.tensorStarts != 0 && hasSection s 9
  | _, _ => true

/-- Work that does not fit the new Accord completes with ACCORD_MISMATCH (11 R373). -/
def recheckWork (s : State) : State :=
  (s.work.filter (fun w => !stillFits s w)).foldl (abortWork 0x13 0) s

/-- The cores' schedules of an image (11 R363, R372). -/
def schedsOf (a : Accord) : List (Nat × List SStep) := a.scheds.map (fun x => (coreIndex x.1, x.2))

/-- The changeover frame (11 R372 to R374): the pending region comes into force and the cores load. -/
def changeover (n t : Nat) (w : Work) (img : Accord) (ex : Nat) (src : Bool × Nat) (s : State) : State :=
  let s := { dropFrameNets s with accord := some img, recurrentZero := true, recurrent := [] }
  let s := { s with cores := { s.cores with region := 1 - s.cores.region, sched := schedsOf img } }
  let s := setItem w.wid (.accord img ex (.loading n) src) s
  let s := governTick (restartSeqs (recheckWork (bodyChangeover s)))
  holdSealAuto t (rebindAll n (tickPrims { s with frame := { s.frame with cur := some (blankFrame n t .changeover s) } }))

/-! ## Batch interval -/

/-- Positions of a batch that go to entry `i` of a list of `n` clusters (02 R48). -/
def positionsOn (n i : Nat) : Nat := if n = 0 then 0 else 1024 / n + (if i < 1024 % n then 1 else 0)

/-- Q (02 R50) for `q` queries a candidate. -/
def dealtMax (clusters : List Nat) (geo : List (Nat × List Nat)) (q : Nat) : Nat :=
  clusters.zipIdx.foldl (fun m x =>
    max m (ceilDiv (positionsOn clusters.length x.2 * max q 2048) (lookupD [] x.1 geo).length)) 0

/-- T_b (02 R50), in ns. -/
def batchInterval (f q : Nat) : Nat := ceilDiv (2000 * 1400 * q) (f * 512)

/-! ## Admission -/

/-- Work that may be admitted to frame `n`: its FRAME_RUN, and CHECKs bound to it or carried over. -/
def admissible (n : Nat) (w : Work) : Bool :=
  match w.item with
  | .frameRun _ => w.bound == n
  | .check c => decide (w.bound ≤ n) && !c.todo.isEmpty
  | _ => false

/-- A carried-over CHECK. -/
def isCarried (w : Work) : Bool := match w.item with | .check c => c.carried | _ => false

/-- The order of admission (02 R54): class, then carried-over CHECKs, then acceptance. -/
def admitOrder (n : Nat) (s : State) : List Work :=
  sortBy (fun a b => decide (a.prio < b.prio) || (a.prio == b.prio && (isCarried a || !isCarried b))) (s.work.filter (admissible n))

/-- Queries of one candidate of a work item (02 R50): a FRAME_RUN's by its class, a CHECK's by the most that a record may ask for (04
R156). -/
def itemQueries (s : State) (w : Work) : Nat :=
  let sph := match s.body with | some b => b.query.length | none => 0
  match w.item with
  | .frameRun f => (match classOf s f.optClass with | some c => c.smap.samples | none => 0) * sph
  | .check _ => 32 * sph
  | _ => 0

/-- Admission in progress: the free non-golden slots in order, and what they were given. -/
structure Admit where
  free : List Nat
  adm : List Adm := []
  deferred : Nat := 0
  dropped : Nat := 0

/-- Batches of a FRAME_RUN (02 R47). -/
def frBatches (a : Accord) (f : FrWork) : Nat := batchCount ((f.nWarm + f.nProp) * a.perturb.length)

/-- Admit one work item (02 R54, R55). -/
def admitOne (a : Accord) (n : Nat) (x : Admit × State) (w : Work) : Admit × State :=
  let (m, s) := x
  match w.item with
  | .frameRun f =>
    let b := frBatches a f
    let take := min b m.free.length
    ({ m with free := m.free.drop take, deferred := m.deferred + (b - take), dropped := b - take,
              adm := m.adm ++ (m.free.take take).zipIdx.map (fun p => { slot := p.1, wid := w.wid, batch := p.2 }) }, s)
  | .check c =>
    let take := min c.todo.length m.free.length
    let c' := { c with todo := c.todo.drop take, carried := c.carried || decide (take < c.todo.length),
                       frames := if take = 0 then c.frames else c.frames ++ [n] }
    ({ m with free := m.free.drop take, deferred := m.deferred + (c.todo.length - take),
              adm := m.adm ++ List.zipWith (fun p b => { slot := p, wid := w.wid, batch := b }) (m.free.take take) c.todo },
     setItem w.wid (.check c') s)
  | _ => x

/-- Start DT of slot `m` (02 R52). -/
def slotStart (f : Frame) (m : Nat) : Nat := f.tickDt + f.w0 + m * f.tb

/-! ## Seeds -/

/-- The core of a seed slot (05 R168); in reduced service a core of C0 cluster 0. -/
def seedCore (s : State) (a : Accord) (j : Nat) : Nat :=
  if s.pwr.service = 2 then j % 8 else
  let c := a.seedCore.getD j (j % 512)
  8 * placeCluster s (c / 8) + c % 8

/-- The optimisation of seed slot `j` (05 R188, R190, 02 R57): none when all its variants were dropped. -/
def seedOpt (s : State) (a : Accord) (c : PClass) (f : Frame) (w : Work) (r : FrWork) (j : Nat) : Option (Opt × Bool) :=
  match f.adm.find? (fun x => x.wid == w.wid && x.batch == j * a.perturb.length / 1024) with
  | none => none
  | some x =>
    let y : Accepted := if j < r.nWarm then warmAccept s.warm c r.meas r.nProp j
                        else { start := holdStart c r.meas.x0, proposal := some (j - r.nWarm), ignored := false }
    some ({ wid := w.wid, idx := j, core := seedCore s a j, pos := a.seedPos.getD j j, start := y.start, fromProposal := y.proposal.isSome,
            deadline := some (slotStart f x.slot), cur := y.start }, y.ignored)

/-- The optimisations of a frame's FRAME_RUN are set up at the tick. -/
def startSeeds (a : Accord) (w : Work) (r : FrWork) (s : State) : State :=
  match s.frame.cur, classOf s r.optClass with
  | some f, some c =>
    let l := (List.range (r.nWarm + r.nProp)).filterMap (seedOpt s a c f w r)
    modFrame (fun f => { f with warmIgnored := (l.filter (fun x => x.2)).length }) { s with opts := s.opts ++ l.map (fun x => x.1) }
  | _, _ => s

/-! ## Networks and standalone work -/

/-- A network of a FRAME_RUN frame starts. With a seal to come at this tick its inputs from the flacon wait for it (06 R216), and the window origin is
the one that the seal will set. -/
def startFrameNet (want : Bool) (w : Work) (r : FrWork) (x : NetDecl × Nat) (s : State) : State :=
  let o : Int × Int × Int := if want then sealOrigin (!s.world.sealedOnce) s.world else (s.world.fl.ox, s.world.fl.oy, s.world.fl.oz)
  let n := startRun 0 s.frame.number x.2 x.1 s
  { s with netRuns := s.netRuns ++ [{ n with
      tag := w.tag, client := w.client, ox := o.1, oy := o.2.1, ins := frameInputs (if want then none else some s.world.fl) o s.frame.tickDt r x.1 }] }

/-- Networks of a FRAME_RUN frame start (06 R220, R222 to R225): every such frame's forecast network owes a set of its own. -/
def startNets (want : Bool) (w : Work) (r : FrWork) (s : State) : State :=
  let nets := (frameNets s).zipIdx
  let s := match nets.find? (fun x => x.1.role == .forecast && s.pwr.service != 2) with
    | some x =>
      let s := startFrameNet want w r x s
      { s with world := { s.world with
          fcastOwed := s.world.fcastOwed ++ [(s.frame.number, s.frame.tickDt, s.world.stepMs, s.world.slices, s.world.hard)] } }
    | none => s
  match nets.find? (fun x => x.1.role == .proposal) with
  | some x => startFrameNet want w r x s
  | none => s

/-- Start counts left in a frame: SOLVE problems, SELECT rows, TENSOR_RUN runs (11 R366). -/
structure Starts where
  solve : Nat
  sel : Nat
  tensor : Nat

/-- Rows of a SELECT start (07 R260). -/
def startRows (a : Accord) (n : Nat) (w : Work) (v : SlWork) (rows : List Nat) (s : State) : State :=
  let cl (r : Nat) : Nat := placeCluster s (a.soloClusters.getD (r % a.soloClusters.length) 0)
  setItem w.wid (.select { v with
    todo := v.todo.drop rows.length, running := v.running ++ rows.map (fun r => (r, cl r)),
    firstFrame := some (v.firstFrame.getD n), deferred := v.deferred || decide (n > w.bound) }) s

/-- Runs of a TENSOR_RUN start (06 R234, R235): each reads its input set now; a PCIe error aborts the item. -/
def startRuns (hv : View) (d : NetDecl) (n : Nat) (w : Work) (v : TrWork) (runs : List Nat) (s : State) : State :=
  let size := inputSet d
  match runs.find? (fun r => (hostRead hv s (v.inAddr + r * size) size).isNone) with
  | some r => abortRead w (v.inAddr + r * size) s
  | none =>
    let start (r : Nat) : NetRun := { startRun w.wid r v.net d s with ins := hostInputs d (memReads s.hostMem (v.inAddr + r * size) size) }
    setItem w.wid (.tensorRun { v with
      todo := v.todo.drop runs.length, running := v.running ++ runs.map (fun r => (r, s.dt)),
      firstFrame := some (v.firstFrame.getD n), deferred := v.deferred || decide (n > w.bound) })
      { s with netRuns := s.netRuns ++ runs.map start }

/-- Start one item's share (05 R199, 06 R235, 07 R260). -/
def startItem (hv : View) (a : Accord) (n : Nat) (x : Starts × State) (w : Work) : Starts × State :=
  let (c, s) := x
  if w.bound > n then x else
  match w.item with
  | .solve v =>
    let l := v.todo.take c.solve
    ({ c with solve := c.solve - l.length }, l.foldl (fun s i =>
      match findWork s w.wid with
      | some w' => (match w'.item with | .solve v' => startProblem w' v' i s | _ => s)
      | none => s) s)
  | .select v =>
    let l := v.todo.take c.sel
    if l.isEmpty then x else ({ c with sel := c.sel - l.length }, startRows a n w v l s)
  | .tensorRun v =>
    let l := v.todo.take c.tensor
    (match l.isEmpty, a.nets[v.net]? with
    | false, some d => ({ c with tensor := c.tensor - l.length }, startRuns hv d n w v l s)
    | _, _ => x)
  | _ => x

/-- Standalone starts of a frame, in acceptance order; none while an Accord waits for its changeover (11 R372). -/
def startSolo (hv : View) (a : Accord) (n : Nat) (s : State) : State :=
  if (accordPassed s).isSome ∨ s.pwr.service = 2 then s
  else (s.work.foldl (startItem hv a n) ({ solve := a.solveStarts, sel := a.selectStarts, tensor := a.tensorStarts }, s)).2

/-- Standalone work that runs while the map is not empty (09 R320). -/
def markSolo (s : State) : State :=
  if !degraded s then s else
  { s with work := s.work.map (fun w => match w.item with
      | .solve v => if v.running.isEmpty then w else { w with item := .solve { v with degraded := true } }
      | .select v => if v.running.isEmpty then w else { w with item := .select { v with degraded := true } }
      | .tensorRun v => if v.running.isEmpty then w else { w with item := .tensorRun { v with degraded := true } }
      | _ => w) }

/-! ## The frame -/

/-- Work of a frame with no body in force completes with ACCORD_MISMATCH (04 R126, 11 R374). -/
def dropBodiless (n : Nat) (s : State) : State :=
  if s.body.isSome then s
  else (s.work.filter (admissible n)).foldl (fun s w => finishWork w 0x13 0 0 0 (some n) s) s

/-- The frame's record before admission (02 R45, R50, R52, R59), with the body and settings in force at its tick (04 R126, 08 R292). Q is that of
the work item whose candidates have most queries: a batch holds candidates of one item. The rule does not say over which work: the model takes all that is
bound to the frame, whether or not it then gets a slot (DESIGN CHOICE, notes/assumptions/133.md). -/
def newFrame (a : Accord) (n t : Nat) (s : State) : Frame :=
  let red := s.pwr.service == 2
  let cl := frameClusters s
  let geo := cl.map (fun q => (q, geoEngines s q))
  let q := dealtMax cl geo ((admitOrder n s).foldl (fun m w => max m (itemQueries s w)) 0)
  let f := chooseF a s
  let tb := batchInterval f q
  { number := n, tickDt := t, kind := .idle, reduced := red, periodUs := periodNs s / 1000, fMhz := f, tb := tb, q := q,
    slots := if cl.isEmpty ∨ tb = 0 then 0 else if red then 2 else a.window / tb, w0 := if red then 5000000 else a.w0, clusters := cl, geo := geo,
    goldenSlot := some (if red then 0 else a.goldenSlot), goldenEn := s.safety.ctrl.goldenEn, degraded := degraded s,
    mapDigest := unitMapDigest s, body := s.body, cfg := netCfg s, tWindowOpen := ((if red then 5000000 else a.w0 : Nat) : Int) }

/-- Faults that a tick finds: a cluster still under block reset, and a core whose spare is not yet loaded, make the frame a fault
frame for them (07 R254, 14 R433), but for removals in the frame before when it ran nothing of the plan. -/
def tickFaults (s : State) : State :=
  let qs := s.fault.blockReset.filterMap (fun b => match b with | .cluster q => some (RemUnit.cluster q) | _ => none)
  let ps := s.units.outPos.map (fun p => RemUnit.core p.1 p.2)
  let calm (r : RemUnit) : Bool := s.units.calm.contains (s.frame.number - 1, r.calmKey.1, r.calmKey.2)
  ((qs ++ ps).filter (fun r => !calm r)).foldl (fun s r => faultFrame r s) s

/-- Admission of real work (02 R54 to R56), with its timing-dependent choice. One slot is the golden batch's (R53), also where a longer T_b leaves fewer slots
than its index: of that the rules do not speak, and the batch then runs at its own slot time, past the window (DESIGN CHOICE,
notes/assumptions/133.md). -/
def admitFrame (a : Accord) (n : Nat) (f : Frame) (s : State) : State :=
  let slots := ((List.range f.slots).filter (fun m => some m != f.goldenSlot)).take (f.slots - 1)
  let (m, s) := (admitOrder n s).foldl (admitOne a n) ({ free := slots }, s)
  let f := { f with adm := m.adm, deferredBatches := m.dropped, timing := if m.deferred = 0 then f.timing else f.timing + 1,
                    fr := (frameRunAt s n).map (fun x => x.1.wid), kind := if (frameRunAt s n).isSome then .run else .idle }
  let s := { s with frame := { s.frame with cur := some f } }
  if m.deferred = 0 then s else timingChoice 2 m.deferred n 0 0 s

/-- A FRAME_RUN whose `seal` flag came too late for this tick asks at the following one (02 R44). -/
def lateSeal (n t : Nat) (s : State) : State :=
  match frameRunAt s n with
  | some (w, f) => if f.sealReq ∧ w.accept + 20000 > t then { s with world := { s.world with ingestSeals := s.world.ingestSeals ++ [w.accept] } } else s
  | none => s

/-- A frame of the plan starts (02 R43, R45). -/
def startFrame (hv : View) (a : Accord) (n t : Nat) (s : State) : State :=
  let want := sealPending n t s
  let s := takePb n (lateSeal n t (dropBodiless n (restartSeqs s)))
  let f := newFrame a n t s
  let s := admitFrame a n f (governTick s)
  let s := match frameRunAt s n with
    | some (w, r) => startNets want w r (startSeeds a w r s)
    | none => s
  let s := tickFaults (markSolo (startSolo hv a n s))
  if want then wantSeal t s else tickPrims s

/-- The first tick at which full service may begin (16 R495 to R497). -/
def serviceReady (s : State) : Bool := s.pwr.service == 2 && s.safety.startupDone && s.boot.stacksFull && s.accord.isSome

/-- FRAME_RUNs while FRAME_PERIOD is too short for the plan (02 R40). -/
def planShort (n : Nat) (s : State) : State :=
  let s := { s with frame := { s.frame with planShort := true } }
  noFrame n ((s.work.filter (fun w => match w.item with | .frameRun _ => decide (w.bound ≤ n) | _ => false)).foldl
    (fun s w => finishWork w 0x13 0 0 0 (some n) s) s)

/-- Work with target 0 that was bound before the tick's DT was known and was accepted too late for it (02 R41). -/
def tooLate (n t : Nat) (s : State) : State :=
  (s.work.filter (fun w => w.bound == n && decide (w.accept + 20000 > t) && (match w.item with
    | .frameRun f => f.target == 0
    | .check c => c.target == 0
    | .solve v => v.target == 0
    | .select v => v.target == 0
    | .tensorRun v => v.target == 0
    | _ => false))).foldl (rebindOne n) s

/-- What the tick starts (02 R40, R45, R59, R62; 03 R105; 11 R372; 14 R436; 15 R457; 16 R494, R495, R499). -/
def tickStarts (hv : View) (n t : Nat) (s : State) : State :=
  if s.pwr.dormantWanted then
    let want := sealPending n t s && s.accord.isSome
    noFrame n (setService 4 (governTick (if want then wantSeal t s else s)))
  else if stackLost s then governTick { s with frame := { s.frame with cur := none } }
  else if chainHold s || s.safety.testRotation then noFrame n (governTick s)
  else if fullSealRuns s then holdSealAuto t (noFrame n (governTick s))
  else match accordPassed s with
    | some (w, img, ex, src, dt) =>
      if dt + 20000 ≤ t ∧ ¬ soloRunning s then changeover n t w img ex src s else tickPlan n t s
    | none => tickPlan n t s
where
  tickPlan (n t : Nat) (s : State) : State :=
    match s.accord with
    | none => noFrame n (governTick s)
    | some a =>
      if serviceReady s then
        let s := governTick (setService 3 (dropFrameNets s))
        holdSealAuto t (rebindAll n (tickPrims { s with frame := { s.frame with cur := some (blankFrame n t .service s) } }))
      else if !s.chain.head && s.pwr.service != 3 then noFrame n (governTick s)
      else if periodNs s < 1000 * a.minPeriodUs then planShort n (governTick s)
      else
        let s := { s with frame := { s.frame with planShort := false } }
        if sealPending n t s ∧ ¬ s.world.sealedOnce then
          let s := wantSeal t (takePb n (governTick s))
          rebindAll n { s with frame := { s.frame with cur := some (blankFrame n t .fullSeal s) } }
        else startFrame hv a n t s

/-- A published frame's conditions reach the CHECKs that it carries on (04 R160): they held in it until this tick. -/
def keepFlags (s : State) : State :=
  match s.frame.cur with
  | none => s
  | some f =>
    { s with work := s.work.map (fun w => match w.item with
        | .check c => if c.frames.contains f.number then { w with item := .check { c with flags := c.flags ||| frameFlags s f } } else w
        | _ => w) }

/-- A tick of frame number `n` at DT `t`; a late hazard whose boundary has passed is in effect before it (03 R116), and one that commits after
the tick commits in the frame then in progress (R115, R118). `start` is false at a tick that may start no frame: one that a downstream unit has lost
or that falls before the first tick after READY (10 R340, R341). -/
def doTick (hv : View) (start : Bool) (n t : Nat) (s : State) : State :=
  let running := frameRunning s
  let s := lateFound t (applyLate s)
  let s := if running then keepHaz s else { keepFlags s with frame := { s.frame with cur := none } }
  let s := if s.safety.testWanted then { s with safety := { s.safety with testWanted := false, testRotation := true, testDone := [] } } else s
  let s := tooLate n t (everyTick n t s)
  markSolo (commitLate (
    if !start then (let s := governTick s; if running then rebindAll n (tickPrims s) else noFrame n s)
    else if running then (let s := skipTick n t (governTick s); if s.pwr.dormantWanted then setService 4 s else s)
    else tickStarts hv n t s))

/-- A downstream unit's announced tick (10 R340, R341): one of SYNCING measures the pulse, and after it the pulse must have come in time, else the tick
is lost. -/
def announcedTick (hv : View) (n t : Nat) (s : State) : State :=
  let was := s.chain.aligned
  let ok := pulseInTime s t
  let s := measurePulse t s
  let s := { s with chain := { s.chain with announce := none, pulse := none } }
  if s.pwr.service ≠ 2 ∧ s.pwr.service ≠ 3 then s
  else if !was then doTick hv false n t s
  else if ok then doTick hv true n t s
  else raise 152 0 0 (doTick hv false n t s)

/-- A downstream unit's tick (10 R340, R341); one that was never announced is lost. -/
def downTick (hv : View) (t : Nat) (s : State) : State :=
  match s.chain.announce with
  | some (td, n, _) => if td ≠ t then s else announcedTick hv n t s
  | none => if tickKnown s ∧ s.chain.addressed ∧ s.chain.aligned ∧ t = nextTick s then
      raise 152 0 0 (doTick hv false (s.frame.number + 1) t s) else s

/-- Unit 0 has announced the tick to the units below it, and driven its pulse (10 R340). -/
def announced (t : Nat) (s : State) : Bool :=
  decide (s.chain.unitCount ≤ 1) || (match s.chain.announce with | some (td, _, _) => td == t | none => false)

/-- Unit 0's tick (02 R38, 10 R340): frames start from the first tick after READY. -/
def headTick (hv : View) (t : Nat) (s : State) : State :=
  if !tickDue t s || !announced t s then s
  else doTick hv (!chainHold s) (nextNumber s) t { s with chain := { s.chain with announce := none } }

/-- FRAME_TICK (02 R39). `v` is what the host memory holds for the input sets that TENSOR_RUN runs read as they start (06 R234). -/
def execFrameTick (t : Nat) (v : View) (s : State) : Out :=
  runAt t s fun s =>
    let s := applyView v s
    if s.chain.head then headTick v t s else downTick v t s

end Sys2Proof.Machine
end

