-- ==== Sys2Proof/Machine/Accord.lean ====
section
/-! DEFINITION. ACCORD_LOAD (11 R366 to R372): validation of an image, its copy, and the end of the changeover's core load. -/

namespace Sys2Proof.Machine

/-- A binary64 parameter within binary64 limits; no NaN is. -/
def inD (lo x hi : Nat) : Bool := dle lo x && dle x hi

/-- A binary32 parameter within binary32 limits. -/
def inF (lo x hi : Nat) : Bool := (d32 lo).le (d32 x) && (d32 x).le (d32 hi)

/-! ## Header and directory -/

/-- The header and the directory as the bytes of the image give them (11 R366, R368), with the sections' content. -/
def readHeader (img : Accord) (b : Bytes) : Accord :=
  let f (o k : Nat) : Nat := fieldN b o k
  let n := min (f 0x18 4) 64
  { img with
    magic := f 0 8, format := f 8 4, minFirmware := f 0x0C 4, imageBytes := f 0x10 8, sectionCount := f 0x18 4, manifestBytes := f 0x1C 4,
    hash := (b.drop 0x20).take 48, hash64 := f 0x20 8, minPeriodUs := f 0x50 4, planPeriodUs := f 0x54 4, planLimitW := f 0x58 2,
    fPlanMhz := f 0x5A 2, w0 := f 0x5C 4, window := f 0x60 4, goldenSlot := f 0x64 2, refineBand := f 0x66 2, baseKind := f 0x68 1,
    nJoints := f 0x69 1, maxQuerySpheres := f 0x6A 2, fetchDistance := f 0x6C 1, solveStarts := f 0x6D 1, tensorStarts := f 0x6E 1,
    selectStarts := f 0x6F 1,
    reservedOk := f 0x70 144 == 0 && (List.range n).all (fun i => f (0x102 + 16 * i) 2 == 0),
    sections := (List.range n).map (fun i => (f (0x100 + 16 * i) 2, f (0x104 + 16 * i) 4, f (0x108 + 16 * i) 8)) }

/-- The ranges of the header (11 R366). -/
def headerOk (a : Accord) : Bool :=
  a.magic == 0x44524F434341515A && a.reservedOk && decide (1 ≤ a.format) && inN 65536 a.imageBytes 6442450944 && inN 3 a.sectionCount 64 &&
  inN 4096 a.manifestBytes 262144 && inN 500 a.minPeriodUs 10000 && inN a.minPeriodUs a.planPeriodUs 10000 &&
  inN 90 a.planLimitW 240 && inN 400 a.fPlanMhz 1400 && a.fPlanMhz % 25 == 0 && decide (a.refineBand ≤ 1024) &&
  decide (a.baseKind ≤ 2) && decide (a.nJoints ≤ 48) && inN 1 a.maxQuerySpheres 768 && inN 1 a.fetchDistance 16 &&
  decide (a.solveStarts ≤ 64) && decide (a.tensorStarts ≤ 64) && decide (a.selectStarts ≤ 64) && inN 1 a.goldens.length 16

/-- Two sections, as type, offset in 4 KiB and bytes, share no byte. -/
def sectionsApart (x y : Nat × Nat × Nat) : Bool :=
  decide (4096 * x.2.1 + x.2.2 ≤ 4096 * y.2.1) || decide (4096 * y.2.1 + y.2.2 ≤ 4096 * x.2.1)

/-- The sections are pairwise apart. -/
def allApart : List (Nat × Nat × Nat) → Bool
  | [] => true
  | x :: r => r.all (sectionsApart x) && allApart r

/-- Appearances of a section type. -/
def sectionTimes (a : Accord) (code : Nat) : Nat := (a.sections.filter (fun x => x.1 == code)).length

/-- The directory (11 R366, R367). -/
def directoryOk (a : Accord) : Bool :=
  a.sectionCount == a.sections.length && allApart a.sections &&
  a.sections.all (fun x => inN 1 x.1 9 && decide (256 + 16 * a.sectionCount ≤ 4096 * x.2.1) && decide (4096 * x.2.1 + x.2.2 ≤ a.imageBytes)) &&
  [1, 4, 5, 6, 7].all (fun c => sectionTimes a c == 1) && [2, 3, 8, 9].all (fun c => decide (sectionTimes a c ≤ 1)) &&
  a.sections.all (fun x => x.1 != 1 || 4096 * x.2.1 + x.2.2 == a.manifestBytes)

/-! ## Manifest -/

/-- The limits of a problem class (05 R162, R192) and of its check margin (04 R132). -/
def classOk (c : PClass) : Bool :=
  inN 2 c.h 128 && inN 1 c.nx 24 && inN 1 c.nu 12 && decide (c.nc ≤ 16) && decide (c.nt ≤ c.nx) && decide (c.np ≤ 32) &&
  inN 1000 c.dk 1000000000 && inN 1 c.outerCap 6 && inN 1 c.innerCap 24 &&
  inD 0x3EB0C6F7A0B5ED8D c.tol 0x3F847AE147AE147B && inD 0x3F50624DD2F1A9FC c.thetaInf 0x3FF0000000000000 &&
  inD 0x3FF0000000000000 c.merit 0x412E848000000000 && inD 0 c.delta0 0x3F1A36E2EB1C432D &&
  inD 0x3D06849B86A12B9B c.tauPiv 0x3F1A36E2EB1C432D && inN 1 c.smap.samples 32 && decide (c.smap.rates.length ≤ 24) &&
  decide (c.checkMargin ≤ 8192)

/-- The limits of a perturbation entry, with the knot step it gives to variants of a FRAME class (05 R191, R193). -/
def perturbOk (a : Accord) (p : Perturb) : Bool :=
  inF 0x3E800000 p.sigma 0x40800000 && inF 0xC0800000 p.lateral 0x40800000 && (a.baseKind != 0 || (d32 p.lateral).cmp (d32 0) == some .eq) &&
  decide (p.ramp ≤ 127) && (decide (p.jointRow ≤ 63) || p.jointRow == 255) && decide (p.startOffset ≤ 100000000) && !p.reserved &&
  a.classes.all (fun c => !c.frame || inN 1000 (variantDk c p) 1000000000)

/-- The limits of a declared tensor (06 R202, R214). -/
def tensorOk (d : TensorDecl) : Bool :=
  decide (d.fmt ≤ 8) && inN 1 d.shape.length 5 && d.shape.all (fun x => inN 1 x 65535) && decide (tensorElems d ≤ 2 ^ 28)

/-- The shape that a source of R216 gives its input; HISTORY has that of the STATE output, a host input its own. -/
def sourceShape (n : NetDecl) (d : TensorDecl) : Bool :=
  match d.source with
  | 0 => d.shape == [32, 256, 256]
  | 1 => d.shape == [16, 256, 256]
  | 2 => d.shape == [256, 12]
  | 3 => d.shape == [80]
  | 4 => (stateDecl n).any (fun o => o.2.shape == d.shape)
  | 5 => d.shape.length == 2 && inN 1 (d.shape.getD 1 0) 64
  | _ => true

/-- A source of R216 that the network may bind, with its shape. -/
def sourceOk (n : NetDecl) (d : TensorDecl) : Bool :=
  sourceShape n d &&
  (if d.source ≤ 4 then n.role == .forecast || n.role == .proposal
   else if d.source = 5 then n.role == .cost
   else d.source == 6 && n.tr)

/-- The output formats and shapes that a role requires (06 R221, R224, R226): a proposal's are those of a FRAME class. -/
def outputsOk (cs : List PClass) (n : NetDecl) : Bool :=
  match n.role, n.outputs with
  | .forecast, o :: _ => [2, 5, 6, 7].contains o.fmt && o.shape.length == 3 && inN 1 (o.shape.getD 0 0) 16 && o.shape.drop 1 == [256, 256]
  | .proposal, o :: _ => [5, 6, 7].contains o.fmt && cs.any (fun c => c.frame && o.shape == [n.nProp, c.h, clsEntries c])
  | .cost, o :: _ => [5, 6, 7].contains o.fmt && o.shape == [1]
  | _, _ => true

/-- A window axis of CONV (06 R213). -/
def axisOk (a : WinAxis) : Bool := inN 1 a.kernel 7 && inN 1 a.stride 4 && inN 1 a.dilation 4

/-- The limits of an attention layer on its query and key tensors (06 R214). -/
def attentionOk (heads : Nat) (q k : List Nat) : Bool :=
  let len (l : List Nat) : Nat := l.getD (l.length - 2) 1
  inN 1 heads 64 && inN 1 (q.getLastD 0 / heads) 256 && inN 1 (len q) 4096 && inN 1 (len k) 4096

/-- An operator of R213 with its limits, on the shapes that it reads. -/
def opOk (op : LayerOp) (shapes : List (List Nat)) : Bool :=
  match op with
  | .conv ax g w _ _ => inN 1 ax.length 3 && ax.all axisOk && decide (1 ≤ g) && decide (w.fmt ≤ 8)
  | .attention h _ _ _ => attentionOk h (shapes.getD 0 []) (shapes.getD 1 [])
  | _ => true

/-- The tensors of a network in their numbering: inputs, then one per layer. -/
def netTensors (n : NetDecl) : List TensorDecl := n.inputs ++ n.layers.map (fun l => { source := 6, fmt := l.fmt, shape := l.shape })

/-- Every layer reads tensors that stand before it and keeps the limits of R213 and R214. -/
def layersOk (n : NetDecl) : Bool :=
  let ts := netTensors n
  n.layers.zipIdx.all (fun x => x.1.ins.all (fun i => decide (i < n.inputs.length + x.2)) &&
    tensorOk { source := 6, fmt := x.1.fmt, shape := x.1.shape } && opOk x.1.op (x.1.ins.map (fun i => (ts.getD i { source := 6, fmt := 7, shape := [] }).shape)))

/-- Each declared output is a tensor of the network, and the one marked STATE one of them (06 R214). -/
def outTensorsOk (n : NetDecl) : Bool :=
  n.outIdx.length == n.outputs.length &&
  (List.zipWith (fun (i : Nat) (o : TensorDecl) => (netTensors n)[i]?.any (fun t => t.fmt == o.fmt && t.shape == o.shape)) n.outIdx n.outputs).all id &&
  n.stateOut.all (fun i => decide (i < n.outputs.length))

/-- Copy A's placement and tile order (06 R214): tiles of its layers on its cores, each with a part of the reduction. -/
def placementOk (n : NetDecl) : Bool :=
  n.clusters.all (fun q => decide (q < 64)) && n.cores.all (fun p => decide (p < 8)) &&
  n.tiles.all (fun t => decide (t.layer < n.layers.length) && n.cores.contains t.core && decide (t.lo < t.hi))

/-- The limits of a network (06 R214, R228). -/
def netOk (cs : List PClass) (n : NetDecl) : Bool :=
  inN 1 n.layers.length 1024 && layersOk n && outTensorsOk n && placementOk n && decide (n.weightBytes ≤ 2 ^ 31) && inN 1 n.heads 64 &&
  inN 1 n.headDim 256 && inN 1 n.seqLen 4096 && inN 1 n.inputs.length 8 && inN 1 n.outputs.length 8 &&
  n.inputs.all (fun d => tensorOk d && sourceOk n d) && n.outputs.all tensorOk && outputsOk cs n &&
  (n.role != .cost || (decide (n.cCost ≤ 700) && !n.safety))

/-- At most one network of a role. -/
def oneRole (l : List NetDecl) (r : NetRole) : Bool := decide ((l.filter (fun n => n.role == r)).length ≤ 1)

/-- The networks of an image, and of its reduced-service section (06 R214, R215). -/
def netsOk (a : Accord) : Bool :=
  decide (a.nets.length ≤ 16) && a.nets.all (netOk a.classes) && [NetRole.forecast, .proposal, .cost].all (oneRole a.nets) &&
  decide (a.reducedNets.length ≤ 1) && a.reducedNets.all (fun n => n.role == .proposal && netOk a.classes n)

/-- The loops of a schedule: first step, last step (the LOOP itself), count. -/
def loopsOf (x : List SStep) : List (Nat × Nat × Nat) :=
  x.zipIdx.filterMap (fun y => match y.1 with | .loop start count => some (start, y.2, count) | _ => none)

/-- Two loops are nested or apart. -/
def loopsNest (l m : Nat × Nat × Nat) : Bool :=
  decide (l.2.1 < m.1) || decide (m.2.1 < l.1) || (decide (l.1 ≤ m.1) && decide (m.2.1 ≤ l.2.1)) || (decide (m.1 ≤ l.1) && decide (l.2.1 ≤ m.2.1))

/-- The loops that a step lies in. -/
def loopsAt (l : List (Nat × Nat × Nat)) (i : Nat) : List (Nat × Nat × Nat) := l.filter (fun x => decide (x.1 ≤ i) && decide (i ≤ x.2.1))

/-- Steps of a schedule with its loops unrolled (11 R363). -/
def unrolledSteps (x : List SStep) : Nat :=
  let l := loopsOf x
  (List.range x.length).foldl (fun n i => n + ((loopsAt l i).map (fun y => y.2.2)).foldl (fun p c => p * c) 1) 0

/-- The branches and the signal words of a schedule stay inside it (11 R355, R358, R362). -/
def stepOk (x : SStep × Nat) : Bool :=
  match x.1 with
  | .loop start count => decide (start ≤ x.2) && inN 1 count 65536
  | .retry mark => decide (mark ≤ x.2)
  | .waitSignal w _ => decide (w < 512)
  | _ => true

/-- The limits of a schedule (11 R363). That more than 64 operations are outstanding is no property of a schedule: the sequencer stalls instead (R356). -/
def schedOk (x : List SStep) : Bool :=
  let l := loopsOf x
  inN 1 x.length 1048576 && x.zipIdx.all stepOk && l.all (fun a => l.all (loopsNest a)) &&
  (List.range x.length).all (fun i => decide ((loopsAt l i).length ≤ 4)) && inN 1 (unrolledSteps x) (2 ^ 28)

/-- The vector operations whose arithmetic is that of 05 R165. -/
def kernelOp : VecOp → Bool
  | .add | .sub | .mul | .div | .max | .min | .sqrt | .sin | .cos | .abs | .neg | .select | .clamp => true
  | _ => false

/-- What an operation that a customer kernel may use reads and writes, as offset and bytes (11 R364): FP32 operations of the vector engine and its moves
(DEDUCED, notes/assumptions/128.md). -/
def kernelSpans : EngineOp → Option (List (Nat × Nat) × List (Nat × Nat))
  | .vector op n a b c dst => if kernelOp op then some ([(a, 4 * n), (b, 4 * n), (c, 4 * n)].take (vecArity op), [(dst, 4 * n)]) else none
  | .dot n a b dst => some ([(a, 4 * n), (b, 4 * n)], [(dst, 4)])
  | .gather n a i m dst => some ([(a, 4 * n), (i, 4 * m)], [(dst, 4 * m)])
  | .scatter _ n a i m dst => some ([(a, 4 * m), (i, 4 * m)], [(dst, 4 * n)])
  | .layout perm width a dst => some (perm.map (fun p => (a + width * p, width)), [(dst, width * perm.length)])
  | _ => none

/-- A range lies in one of the ranges `l`. -/
def spanIn (l : List (Nat × Nat)) (x : Nat × Nat) : Bool := x.2 == 0 || l.any (fun y => decide (y.1 ≤ x.1) && decide (x.1 + x.2 ≤ y.1 + y.2))

/-- A customer kernel keeps R364: only such ENGINE steps and LOOP; what it reads is an input, or its own output (DEDUCED, notes/assumptions/128.md), what
it writes an output; both lie in the working area. -/
def customOk (k : CustomKernel) : Bool :=
  schedOk k.steps && decide (k.kind ≤ 4) && decide (1 ≤ k.cycles) &&
  (k.ins ++ k.outs).all (fun r => decide (331776 ≤ r.1) && decide (r.1 + r.2 ≤ 786432)) &&
  k.steps.all (fun x => match x with
    | .loop _ _ => true
    | .engine _ op => (match kernelSpans op with
      | some (r, w) => r.all (spanIn (k.ins ++ k.outs)) && w.all (spanIn k.outs)
      | none => false)
    | _ => false)

/-- The SCHEDULES section (11 R363, R364, R367): the cores' schedules, the factorisation schedules and the customer kernels. -/
def schedulesOk (a : Accord) : Bool :=
  a.scheds.all (fun x => schedOk x.2) && a.facts.all (fun x => schedOk x.steps && decide (x.cls < a.classes.length)) &&
  a.custom.all (fun k => customOk k && decide (k.cls < a.classes.length))

/-- The protection windows of one core (11 R360, R363). -/
def windowsOk (l : List PWindow) : Bool := decide (l.length ≤ 16) && l.all (fun w => w.size % 4096 == 0)

/-- The MANIFEST section. -/
def manifestOk (a : Accord) : Bool :=
  inN 1 a.classes.length 16 && a.classes.all classOk && inN 1 a.perturb.length 4096 && a.perturb.all (perturbOk a) &&
  decide (a.jointOffsets.length ≤ 64) && netsOk a && schedulesOk a && a.windows.all (fun w => windowsOk w.2)

/-! ## Plan -/

/-- S_max (02 R555). -/
def planSamples (a : Accord) : Nat :=
  if sectionTimes a 3 > 0 then 32 else a.classes.foldl (fun m c => if c.frame then max m c.smap.samples else m) 1

/-- T_b,plan (02 R555). -/
def planInterval (a : Accord) : Nat :=
  batchInterval a.fPlanMhz (ceilDiv (16 * max 2048 (planSamples a * a.maxQuerySpheres)) 64)

/-- The two conditions on a plan (02 R58). -/
def planOk (a : Accord) : Bool :=
  decide (10 * a.window ≤ 8 * (1000 * a.planPeriodUs)) && decide (a.w0 + a.window + 3 * planInterval a + 70000 ≤ 1000 * a.planPeriodUs)

/-- Step 6 of acceptance for an image (11 R369). -/
def imageOk (a : Accord) : Bool := headerOk a && directoryOk a && manifestOk a && planOk a

/-! ## Meanings -/

/-- An ACCORD_LOAD is being copied or waits for its changeover. -/
def accordBusy (s : State) : Bool :=
  s.work.any (fun w => match w.item with | .accord _ _ .held _ => false | .accord .. => true | _ => false)

/-- The next held ACCORD_LOAD starts (11 R371). -/
def startHeld (s : State) : State :=
  if accordBusy s then s else
  match s.work.findSome? (fun w => match w.item with | .accord img ex .held src => some (w.wid, img, ex, src) | _ => none) with
  | some (wid, img, ex, src) => setItem wid (.accord img ex .copying src) s
  | none => s

/-- The image is taken up (11 R369 to R371). -/
def takeImage (d : Taken) (img : Accord) (s : State) : State :=
  if !imageOk img then refuse d badWhole s
  else if img.format > 1 ∨ img.minFirmware > s.boot.fwVersion then refuse d unsupportedFail s
  else
    let src := (bitOf (fld d 0x20 1) 0, fld d 8 8)
    startHeld (addWork (mkWork d 0 (.accord img (fld d 0x18 8) .held src) s) s)

/-- Bytes of the image where it stands: the staging region, or host memory (11 R369, R370). -/
def imageBytesAt (s : State) (src : Bool × Nat) (n : Nat) : Bytes :=
  if src.1 then memReads s.cores.mem (7 * 2 ^ 58 + s.hostq.stageBase + src.2) n else memReads s.hostMem src.2 n

/-- Read of the image at acceptance. -/
def withImage (d : Taken) (v : View) (n : Nat) (s : State) (k : Bytes → State → State) : State :=
  if bitOf (fld d 0x20 1) 0 then k (imageBytesAt s (true, fld d 8 8) n) s else withRead d v (fld d 8 8) n s k

/-- ACCORD_LOAD (11 R369): the header and the directory come from the image's bytes, `img` gives the content of the sections. -/
def execAccordLoad (d : Taken) (v : View) (img : Accord) (s : State) : Out :=
  acceptDesc d v { code := 5, control := true } s fun s =>
    let addr := fld d 8 8
    let n := fld d 0x10 8
    let fl := fld d 0x20 1
    withChecks d [(addr % 4096 != 0, badField 8), (bitOf fl 0 && decide (addr + n > s.hostq.stageSize), badField 8),
      (decide (fl > 1), badField 0x20), reservedCheck d [(8, 8), (0x10, 8), (0x18, 8), (0x20, 1)]] s fun s =>
    withImage d v 256 s fun h s =>
    let m := fieldN h 0x1C 4
    if !inN 4096 m 262144 then refuse d badWhole s else
    withImage d v m s fun b s =>
    let img := readHeader img b
    if n ≠ img.imageBytes then refuse d (badField 0x10) s else takeImage d img s

/-- The ACCORD_LOAD that is being copied. -/
def accordCopying (s : State) : Option (Work × Accord × Nat × (Bool × Nat)) :=
  s.work.findSome? (fun w => match w.item with | .accord img ex .copying src => some (w, img, ex, src) | _ => none)

/-- The place of the pending region (11 R370). -/
def pendingAt (s : State) : Nat := 7 * 2 ^ 58 + (if s.cores.region = 0 then s.cores.regionAt.2 else s.cores.regionAt.1)

/-- The Accord hash of an image's bytes (11 R366): SHA-384 with the bytes of the field itself taken as zero. -/
def imageHash (b : Bytes) : Bytes := sha384 (patchAt b 0x20 (zeros 48))

/-- The end of a copy (11 R370, R372). An image whose copy met a PCIe error leaves the pending region as it was (DESIGN CHOICE,
notes/assumptions/5.md). -/
def endCopy (pcieError : Bool) (s : State) : State :=
  match accordCopying s with
  | none => s
  | some (w, img, ex, src) =>
    if pcieError && !src.1 then startHeld (finishWork w 0x21 0 155 0 none (raise 155 src.2 0 s)) else
    let b := imageBytesAt s src img.imageBytes
    let s := keyWrite s (pendingAt s) b
    if imageHash b ≠ img.hash then startHeld (finishWork w 0x10 0 0xFFFFFFFF 0xFFFFFFFF none s)
    else if ex ≠ 0 ∧ ex ≠ img.hash64 then startHeld (finishWork w 0x13 0 0 0 none s)
    else setItem w.wid (.accord img ex (.passed s.dt) src) s

/-- ACCORD_COPY_DONE (11 R370). -/
def execAccordCopyDone (t : Nat) (pcieError : Bool) (s : State) : Out := runAt t s (endCopy pcieError)

/-- The cores have loaded (11 R372). -/
def coresLoaded (s : State) : State :=
  match s.work.findSome? (fun w => match w.item with | .accord _ _ (.loading n) _ => some (w, n) | _ => none) with
  | some (w, n) => startHeld (finishWork w 0 (susFlag s) 0 0 (some n) s)
  | none => s

/-- ACCORD_CORES_LOADED (11 R372). -/
def execAccordCoresLoaded (t : Nat) (s : State) : Out := runAt t s coresLoaded

end Sys2Proof.Machine
end

