-- ==== Sys2Proof/Machine/Batch.lean ====
section
/-! DEFINITION. The batch pipeline of a frame (02 R47 to R53, 04 R153 to R158): slot boundaries, the golden batch (15 R452), and the
Juggler's merge (07 R247 to R254). -/

namespace Sys2Proof.Machine

/-! ## Phase 1 -/

/-- Bytes of a candidate knot (04 R156). -/
def knotBytes (a : Accord) : Nat := (match a.baseKind with | 1 => 12 | 2 => 28 | _ => 0) + 4 * a.nJoints

/-- A candidate knot as read (04 R156). A value that is not finite makes the queries whose pose uses it non-finite, and no others (R130). -/
def parseKnot (a : Accord) (b : Bytes) : Knot :=
  let p := match a.baseKind with | 1 => 12 | 2 => 28 | _ => 0
  let joints := floats b p a.nJoints
  let quat := if a.baseKind = 2 then floats b 12 4 else []
  { x := if p = 0 then 0 else fieldI b 0 4, y := if p = 0 then 0 else fieldI b 4 4, z := if a.baseKind = 2 then fieldI b 8 4 else 0,
    yaw := if a.baseKind = 1 then fieldI b 8 4 else 0, quat := quat, joints := joints }

/-- A CHECK record's header without fault (04 R156, R158). -/
def candHeaderOk (a : Accord) (stride : Nat) (h : Bytes) : Bool :=
  let k := fieldN h 0x10 2
  decide (1 ≤ k) && decide (k ≤ 128) && decide (1 ≤ fieldN h 0x12 1) && decide (fieldN h 0x12 1 ≤ 32) && decide (1000 ≤ fieldN h 8 4) &&
  decide (fieldN h 8 4 ≤ 1000000000) && fieldN h 0x13 5 == 0 && decide (0x18 + k * knotBytes a ≤ stride)

/-- One CHECK record as phase 1 reads it: an address on a PCIe error, else the candidate, `none` when malformed (04 R158). -/
def readCand (a : Accord) (v : View) (s : State) (addr stride : Nat) : Except Nat (Option Cand) :=
  match hostRead v s addr 0x18 with
  | none => .error addr
  | some h =>
    if !candHeaderOk a stride h then .ok none else
    let k := fieldN h 0x10 2
    match hostRead v s (addr + 0x18) (k * knotBytes a) with
    | none => .error (addr + 0x18)
    | some b =>
      .ok (some { startDt := fieldN h 0 8, dk := fieldN h 8 4, samples := fieldN h 0x12 1, cost := fieldN h 0x0C 4,
                  knots := (List.range k).map (fun i => some (parseKnot a ((b.drop (i * knotBytes a)).take (knotBytes a)))) })

/-- Records of one batch of a CHECK. -/
def readCands (a : Accord) (v : View) (s : State) (c : CkWork) (batch : Nat) : Except Nat (List (Option Cand)) :=
  (List.range 1024).foldl (fun acc pos => match acc with
    | .error e => .error e
    | .ok l =>
      let i := 1024 * batch + pos
      if i ≥ c.candCount then .ok (l ++ [none])
      else match readCand a v s (c.candAddr + i * c.stride) c.stride with
        | .error e => .error e
        | .ok x => .ok (l ++ [x])) (.ok [])

/-- The optimisations that a batch expands and that have not stopped are cut (02 R57). -/
def cutBatch (wid nOpt p batch : Nat) (s : State) : State :=
  let js := (List.range nOpt).filter (fun j => decide (j * p < 1024 * batch + 1024) && decide (1024 * batch < (j + 1) * p))
  js.foldl (fun s j => match findOpt s wid j with
    | some o =>
      if o.stop.isSome then s else cutOpt wid j (setOpt (atCut s o 0 0) s)
    | none => s) s

/-- The candidates of one batch of a FRAME_RUN (02 R47, 05 R193 to R195). -/
def expandBatch (a : Accord) (c : PClass) (s : State) (wid : Nat) (r : FrWork) (batch : Nat) : List (Option Cand) :=
  let p := a.perturb.length
  let n := (r.nWarm + r.nProp) * p
  (List.range 1024).map (fun pos =>
    let i := 1024 * batch + pos
    if i ≥ n then none else
    match findOpt s wid (i / p), a.perturb[i % p]? with
    | some o, some pt => some (variantCand a c r.meas pt o.cur o.merit)
    | _, _ => none)

/-- Work leaves the frame's pipeline. -/
def leaveFrame (wid : Nat) (s : State) : State :=
  modFrame (fun f => { f with adm := f.adm.filter (fun a => a.wid != wid), batches := f.batches.filter (fun b => b.wid != wid),
                              lists := f.lists.filter (fun l => l.1 != wid) }) s

/-- A batch enters phase 1. -/
def enterBatch (a : Accord) (v : View) (x : Adm) (s : State) : State :=
  let put (cs : List (Option Cand)) (s : State) : State :=
    modFrame (fun f => { f with batches := f.batches ++ [{ slot := x.slot, wid := x.wid, batch := x.batch, cands := cs }] }) s
  match findWork s x.wid with
  | none => s
  | some w =>
    match w.item with
    | .frameRun r =>
      (match classOf s r.optClass with
      | some c =>
        let s := cutBatch w.wid (r.nWarm + r.nProp) a.perturb.length x.batch s
        put (expandBatch a c s w.wid r x.batch) s
      | none => s)
    | .check c =>
      (match readCands a v s c x.batch with
      | .ok cs => put cs s
      | .error e => leaveFrame w.wid (abortRead w e s))
    | _ => s

/-! ## Phases 2 and 3 -/

/-- Margin, forecast weight and learned cost of a work item's batches (04 R132, R149, R155). -/
def batchParams (s : State) (a : Accord) (w : Work) : Nat × Nat × Bool :=
  match w.item with
  | .frameRun r => ((match classOf s r.optClass with | some c => c.checkMargin | none => 0), a.forecastWeight, costLoaded s)
  | .check c => (c.margin, c.weight, costLoaded s && c.learned)
  | _ => (0, 0, false)

/-- The COST network and its number (06 R226). -/
def costNet (a : Accord) : Option (NetDecl × Nat) := a.nets.zipIdx.find? (fun x => x.1.role == .cost)

/-- The learned cost of a batch's candidates with their layer digests (06 R226, R233): none for a void position. -/
def learnedBatch (d : NetDecl) (kind joints : Nat) (cands : List (Option Cand)) (outs : List CandOut) : List (Option (Nat × List Nat)) :=
  List.zipWith (fun (c : Option Cand) (o : CandOut) => c.map (fun c => learnedOf d kind joints c.cost o.feats)) cands outs

/-- Verdict records with their learned costs (04 R149); `none` adds 0. -/
def withLearned (outs : List CandOut) (l : List (Option (Nat × List Nat))) : List VRec :=
  outs.zipIdx.map (fun x => match l.getD x.2 none with
    | some y => { x.1.out with cost := fadd x.1.out.cost y.1 }
    | none => x.1.out)

/-- The conditions under which a work item's batches are checked at this boundary. -/
def batchEnv (a : Accord) (s : State) (f : Frame) (w : Work) (body : Body) : BatchEnv :=
  let (margin, wf, _) := batchParams s a w
  { fl := s.world.fl, src := topSources s.world.fl, body := body, haz := frameHaz s, margin := margin, band := a.refineBand, wf := wf,
    late := (frameHaz s).any (fun h => h.lateFrame == some f.number), reduced := f.reduced }

/-- What the run-ahead slots of the cores hold after a batch (04 R144): query n of an engine uses slot n mod the fetch distance, the model's choice
(notes/assumptions/101.md). -/
def stageBatch (a : Accord) (fl : Flacon) (geo : List (Nat × List Nat)) (deals : List Deal) (s : State) : State :=
  deals.foldl (fun s d => d.staged.foldl (fun s x =>
    let e := (lookupD [] d.cl geo).getD x.1 0
    let c : CoreId := { die := d.cl / 16, cluster := d.cl % 16, core := e / 8 }
    let slot := x.2.1 % max 1 a.fetchDistance
    let st := coreSt s c
    match checkBrick fl x.2.2 with
    | some b => setCore c { st with staged := st.staged.filter (fun y => !(y.1 == e % 8 && y.2.1 == slot)) ++ [(e % 8, slot, x.2.2)] }
        (keyWrite s (coreAddr c (slotOffset e slot)) b)
    | none => s) s) s

/-- Layer digests of a batch's learned costs enter the log, and a FRAME_RUN's the fold of its frame (06 R233, 13 R411, R415). -/
def noteCosts (f : Frame) (w : Work) (net batch layers : Nat) (l : List (Option (Nat × List Nat))) (s : State) : State :=
  l.zipIdx.foldl (fun s x => match x.1 with
    | none => s
    | some y =>
      let i := 1024 * batch + x.2
      let s := y.2.zipIdx.foldl (fun s g => logWork w 3 g.1 w.bound i g.2 2 s) s
      if f.fr = some w.wid then
        modFrame (fun f => { f with netDigests := f.netDigests ++ y.2.zipIdx.map (fun g => (net, i * layers + g.2, g.1)) }) s
      else s) s

/-- A batch is checked (04 R130 to R154): against the hazards in effect at this boundary and the body of the frame (R126). -/
def checkBatch (a : Accord) (f : Frame) (s : State) (b : BatchRes) : BatchRes × State :=
  match findWork s b.wid, f.body with
  | some w, some body =>
    let e := batchEnv a s f w body
    let (outs, deals) := evalBatch e f.clusters f.geo f.q b.cands
    let s := stageBatch a s.world.fl f.geo deals s
    (match costNet a, (batchParams s a w).2.2 && !f.reduced with
    | some (d, i), true =>
      let l := learnedBatch d body.baseKind body.joints.length b.cands outs
      ({ b with verdicts := some (withLearned outs l), lateSeen := e.late }, noteCosts f w i b.batch d.layers.length l s)
    | _, _ => ({ b with verdicts := some (withLearned outs []), lateSeen := e.late }, s))
  | _, _ => ({ b with verdicts := some (b.cands.map (fun _ => {})) }, s)

/-- First and last epoch of a CHECK (04 R159). -/
def noteEpoch (s : State) (w : Work) : State :=
  match w.item with
  | .check c =>
    let e := s.world.fl.epoch
    setItem w.wid (.check { c with firstEpoch := if c.verdicts.isEmpty then e else c.firstEpoch, lastEpoch := e }) s
  | _ => s

/-- The batch in slot `m` is checked. -/
def checkSlot (a : Accord) (m : Nat) (s : State) : State :=
  match s.frame.cur with
  | none => s
  | some f =>
    match f.batches.find? (fun b => b.slot == m) with
    | none => s
    | some b =>
      let (b', s) := checkBatch a f s b
      let s := match findWork s b.wid with | some w => noteEpoch s w | none => s
      modFrame (fun f => { f with batches := f.batches.map (fun x => if x.slot = m then b' else x) }) s

/-! ## Phase 4 -/

/-- k of a ranked work item (07 R247). -/
def rankedK (w : Work) : Option Nat :=
  match w.item with
  | .frameRun r => some r.k
  | .check c => if c.k = 0 then none else some c.k
  | _ => none

/-- What the cluster at place `i` of `n` folds of a batch (02 R48, 07 R247): entries and NaN costs. -/
def clusterPart (n i batch : Nat) (recs : List VRec) : List PEntry × Nat :=
  enteringOf (1024 * batch) ((recs.zipIdx.filter (fun x => x.2 % n == i)).map (fun x => (x.2, x.1)))

/-- The partial lists of a work item after one more batch (07 R247, R248); a cluster of a fault frame keeps none (R254). -/
def foldBatch (f : Frame) (wid k batch : Nat) (recs : List VRec) : List (Nat × Nat × PList) :=
  f.clusters.zipIdx.foldl (fun ls c =>
    if f.faultClusters.contains c.1 then ls else
    let (new, nan) := clusterPart f.clusters.length c.2 batch recs
    let old := ((ls.find? (fun l => l.1 == wid && l.2.1 == c.1)).map (fun l => l.2.2)).getD {}
    let l := foldList k old new
    ls.filter (fun l => !(l.1 == wid && l.2.1 == c.1)) ++ [(wid, c.1, { l with nan := l.nan + nan })]) f.lists

/-- Candidates of a verdict. -/
def countV (v : Nat) (l : List VRec) : Nat := (l.filter (fun r => r.verdict == v)).length

/-- The verdict-array digest of a batch (04 R153). -/
def verdictDigest (l : List VRec) : Nat := crc64 (l.flatMap vrecBytes)

/-- A batch retires: counts, digest, partial lists (02 R49, 04 R153). -/
def retireBatch (b : BatchRes) (s : State) : State :=
  let recs := b.verdicts.getD []
  let dig := verdictDigest recs
  let s := modFrame (fun f => { f with batches := f.batches.filter (fun x => x.slot != b.slot), tLastRetire := (s.dt : Int) - (f.tickDt : Int) }) s
  match findWork s b.wid, s.frame.cur with
  | some w, some f =>
    let s := logWork w 2 dig f.number b.batch 0 4 s
    let s := match rankedK w with
      | some k => modFrame (fun f => { f with lists := foldBatch f w.wid k b.batch recs }) s
      | none => s
    (match w.item with
    | .check c => setItem w.wid (.check { c with verdicts := insertKey b.batch recs c.verdicts }) s
    | _ => modFrame (fun f => { f with
        clear := f.clear + countV 0 recs, hit := f.hit + countV 2 recs, unsure := f.unsure + countV 1 recs,
        checked := f.checked + countV 0 recs + countV 2 recs + countV 1 recs, verdictDigests := f.verdictDigests ++ [(b.batch, dig)] }) s)
  | _, _ => s

/-- Every rail has recovered, before the frame's tick (15 R460). -/
def suppliesBack (s : State) (f : Frame) : Bool := s.pwr.rails.all (fun r => !r.low) && decide (s.safety.suspectRecovered < f.tickDt)

/-- A golden set on the frame's engines (02 R53, 15 R451): its own scene and body, no hazards. -/
def goldenBatch (a : Accord) (f : Frame) (g : Golden) : List CandOut × List Deal :=
  evalBatch { fl := g.scene, src := topSources g.scene, body := g.body, haz := [], margin := g.margin, band := a.refineBand, wf := g.wf,
              late := false, reduced := f.reduced } f.clusters f.geo f.q g.cands

/-- The verdict array of a golden set, with learned costs where the Accord has a COST network (06 R226). -/
def goldenVerdicts (a : Accord) (f : Frame) (g : Golden) : List VRec :=
  let outs := (goldenBatch a f g).1
  match costNet a, f.reduced with
  | some (d, _), false => withLearned outs (learnedBatch d g.body.baseKind g.body.joints.length g.cands outs)
  | _, _ => withLearned outs []

/-- The golden batch's ranked list: its own partial lists, merged (02 R53, 07 R247, R250). -/
def goldenRanked (f : Frame) (g : Golden) (recs : List VRec) : List PEntry :=
  let n := f.clusters.length
  (jugglerMerge g.k ((List.range n).map (fun i =>
    let (new, nan) := clusterPart n i 0 recs
    { foldList g.k {} new with nan := nan }))).entries

/-- The first position at which the golden batch differs from its expected values (15 R452): in the verdict array, else the position of the first
ranked entry that differs, else, for the digest alone, position 0. `upset` is a position whose record a fault of the hardware alters. -/
def goldenDiff (a : Accord) (f : Frame) (upset : Option Nat) (g : Golden) : Option Nat :=
  let recs := (goldenVerdicts a f g).zipIdx.map (fun x => if upset = some x.2 then { x.1 with vflags := x.1.vflags ^^^ 128 } else x.1)
  let ranked := goldenRanked f g recs
  let digest := crc64 (recs.flatMap vrecBytes ++ rankedBytes rankedEntry g.k ranked)
  match (List.range 1024).find? (fun i => recs.getD i {} != g.verdicts.getD i {}) with
  | some i => some i
  | none =>
    match (List.range g.k).find? (fun i => ranked[i]?.map rankedEntry != g.ranked[i]?.map rankedEntry) with
    | some i => some (((ranked[i]?.orElse (fun _ => g.ranked[i]?)).map (fun e => e.index)).getD 0)
    | none => if digest = g.digest then none else some 0

/-- The run-ahead fetch stages the golden batch's bricks too (02 R53, 04 R144). -/
def stageGolden (f : Frame) (s : State) : State :=
  match s.accord with
  | some a => (match f.goldenEn, a.goldens[f.number % max 1 a.goldens.length]? with
    | true, some g => stageBatch a g.scene f.geo (goldenBatch a f g).2 s
    | _, _ => s)
  | none => s

/-- The golden batch retires and is compared (15 R452, R526); a pass ends the supply-suspect state (R460). -/
def retireGolden (upset : Option Nat) (f : Frame) (s : State) : State :=
  let set := match s.accord with | some a => f.number % max 1 a.goldens.length | none => 0
  let diff := if f.goldenResult = 1 ∨ !f.goldenEn then none
    else s.accord.bind (fun a => (a.goldens[set]?).bind (goldenDiff a f upset))
  let res := if f.goldenResult = 1 then 1 else if !f.goldenEn then 2 else if diff.isSome then 1 else 0
  let s := modFrame (fun f => { f with goldenResult := res }) (stageGolden f { s with safety := { s.safety with goldenResult := res, goldenSet := set } })
  match res, f.goldenResult == 1, diff with
  | 1, false, some p => raise 80 0 p { s with safety := { s.safety with firstDiff := p } }
  | 0, _, _ => if suppliesBack s f then { s with safety := { s.safety with suspect := false } } else s
  | _, _, _ => s

/-! ## The slot boundary -/

/-- The last slot that holds a batch, the golden one included. -/
def lastSlot (f : Frame) : Nat := f.adm.foldl (fun m a => max m a.slot) (f.goldenSlot.getD 0)

/-- The frame runs its pipeline, and its next boundary is due: a seal that the tick started has ended (02 R45, R52). -/
def boundaryDue (s : State) (f : Frame) : Bool :=
  !f.published && !f.retired && (f.kind == .run || f.kind == .idle) && decide (slotStart f f.boundary ≤ s.dt) &&
  s.world.sealWanted.isNone && s.world.sealing.isNone

/-- Boundary `m`: the batch of slot m enters, that of slot m - 1 is checked, that of slot m - 4 and the golden batch retire. With no real batch
admitted, `t_last_retire` is the boundary at which the golden batch retires, the model's choice (notes/assumptions/102.md). -/
def boundary (a : Accord) (upset : Option Nat) (v : View) (f : Frame) (s : State) : State :=
  let m := f.boundary
  let s := applyLate s
  let s := if m = 0 then modFrame (fun f => { f with tWindowOpen := (s.dt : Int) - (f.tickDt : Int) }) s else s
  let s := (f.adm.filter (fun x => x.slot == m)).foldl (fun s x => enterBatch a v x s) s
  let s := if m = 0 then s else checkSlot a (m - 1) s
  let s := match s.frame.cur.bind (fun f => f.batches.find? (fun b => b.slot + 4 == m)) with
    | some b => retireBatch b s
    | none => s
  let s := match s.frame.cur with
    | some g => if g.goldenSlot.map (fun x => x + 4) = some m then retireGolden upset g s else s
    | none => s
  modFrame (fun g => { g with boundary := m + 1, retired := decide (lastSlot f + 4 ≤ m),
                              tLastRetire := if f.adm.isEmpty then (s.dt : Int) - (g.tickDt : Int) else g.tLastRetire }) s

/-- BATCH_SLOT_BOUNDARY (02 R49); a boundary after the last batch still brings late hazards into effect (03 R116). -/
def execBatchSlotBoundary (t : Nat) (upset : Option Nat) (v : View) (s : State) : Out :=
  runAt t s fun s =>
    let s := applyView v s
    match s.frame.cur, s.accord with
    | some f, some a => if boundaryDue s f then boundary a upset v f s else applyLate s
    | _, _ => s

/-! ## The Juggler -/

/-- The inputs of a work item's merge (07 R250): a CHECK's running list, then the clusters' lists in order. -/
def mergeInputs (f : Frame) (w : Work) : List PList :=
  let run := match w.item with | .check c => if c.ranMerge then [{ entries := c.running.entries, eqBeyond := c.running.tie }] else [] | _ => []
  run ++ f.clusters.filterMap (fun q =>
    if f.faultClusters.contains q then none else (f.lists.find? (fun l => l.1 == w.wid && l.2.1 == q)).map (fun l => l.2.2))

/-- Merge one ranked work item (07 R250, R253): a CHECK's counts add to those of its earlier frames. -/
def mergeItem (f : Frame) (w : Work) : Option (Nat × Merged) :=
  (rankedK w).map (fun k =>
    let m := jugglerMerge k (mergeInputs f w)
    match w.item with
    | .check c => (w.wid, { m with dup := c.running.dup + m.dup, nan := c.running.nan + m.nan })
    | _ => (w.wid, m))

/-- A batch of a CHECK has a non-void position on a cluster of the fault frame (07 R254). -/
def reissued (f : Frame) (count batch : Nat) : Bool :=
  f.clusters.zipIdx.any (fun c => f.faultClusters.contains c.1 && decide (1024 * batch + c.2 < count))

/-- CHECK batches to be re-issued are carried over whole (07 R254). -/
def reissue (f : Frame) (s : State) (w : Work) : State :=
  match w.item with
  | .check c =>
    let again := ((f.adm.filter (fun a => a.wid == w.wid)).map (fun a => a.batch)).filter (reissued f c.candCount)
    if again.isEmpty then s
    else setItem w.wid (.check { c with todo := again.foldl (fun l b => insertIdx b l) c.todo, carried := true }) s
  | _ => s

/-- Work admitted to the frame. -/
def admitted (s : State) (f : Frame) : List Work :=
  s.work.filter (fun w => some w.wid == f.fr || f.adm.any (fun a => a.wid == w.wid))

/-- The merged lists of every ranked work item of the frame (07 R250). -/
def mergeAll (s : State) (f : Frame) : List (Nat × Merged) := (admitted s f).filterMap (mergeItem f)

/-- JUGGLER_MERGE (07 R250, R254): after the last batch has retired; no CLEAR candidate in a FRAME_RUN fires the Net unless ADVISORY
(02 R66, 08 R280). -/
def execJugglerMerge (t : Nat) (s : State) : Out :=
  runAt t s fun s =>
    match s.frame.cur with
    | none => s
    | some f =>
      if f.published || !f.retired || f.mergeDone then s else
      let s := modFrame (fun g => { g with merged := mergeAll s f, mergeDone := true }) s
      if f.fr.isSome ∧ f.clear = 0 ∧ !(netCfg s).advisory then fireNet 6 s else s

end Sys2Proof.Machine
end

