-- ==== Sys2Proof/Machine/Ringm.lean ====
section
/-! DEFINITION. Ringmaster (12): threads, ready queues, the pick, the delay list, event words, kernel-port commands,
Carousel slice admission and the loss of a pair. -/

namespace Sys2Proof.Machine

def threadOf (s : State) (e : Nat) : Thread := lookupD {} e s.ringm.threads

def setThread (e : Nat) (x : Thread) (s : State) : State :=
  { s with ringm := { s.ringm with threads := if x = {} then eraseKey e s.ringm.threads else insertKey e x s.ringm.threads } }

/-- The RUNNING thread of a pair (12 R378). -/
def runningOf (s : State) (p : Nat) : Option Nat :=
  (s.ringm.threads.find? (fun x => x.2.state == 3 && x.2.pair == p)).map (fun x => x.1)

/-- The head of the pair's non-empty queue of lowest priority number (12 R380). One list in arrival order holds every
ready thread; a queue is the part of it with one pair and one priority. -/
def bestReady (s : State) (p : Nat) : Option Nat :=
  let l := s.ringm.ready.filter (fun e => (threadOf s e).pair == p)
  match l with
  | [] => none
  | e :: r => some (r.foldl (fun b x => if (threadOf s x).prio < (threadOf s b).prio then x else b) e)

/-- The preemption interrupt of a pair (12 R381). -/
def preemptIrq (s : State) (p : Nat) : Bool :=
  match bestReady s p, runningOf s p with
  | none, _ => false
  | some _, none => true
  | some b, some r => decide ((threadOf s b).prio < (threadOf s r).prio)

/-- Take a thread off the ready list. -/
def unready (e : Nat) (s : State) : State :=
  { s with ringm := { s.ringm with ready := s.ringm.ready.filter (fun x => x != e) } }

/-- A thread becomes READY, at the tail or the head of its queue (12 R380). A SAFETY thread that was DELAYED or WAITING is
released now (R393). It leaves the delay list and its event word. -/
def makeReady (e reason : Nat) (atHead : Bool) (s : State) : State :=
  let x := threadOf s e
  let rel := if x.safety && (x.state == 4 || x.state == 5) then some s.dt else x.releasedAt
  let s := unready e s
  let s := setThread e { x with state := 2, wakeReason := reason, timed := false, eventWord := 0xFFFF, releasedAt := rel } s
  { s with ringm := { s.ringm with ready := if atHead then e :: s.ringm.ready else s.ringm.ready ++ [e] } }

/-- The pick of a pair (12 R380). -/
def pick (p : Nat) (s : State) : State :=
  match bestReady s p with
  | none => s
  | some e => setThread e { threadOf s e with state := 3, releasedAt := none } (unready e s)

def wordOf (s : State) (w : Nat) : Nat := lookupD 0 w s.ringm.words

/-- Threads of the delay list in its order (12 R388). -/
def delayList (s : State) : List (Nat × Thread) :=
  sortBy (fun a b => decide (a.2.wakeUs < b.2.wakeUs) || (a.2.wakeUs == b.2.wakeUs && decide (a.2.releaseSeq ≤ b.2.releaseSeq)))
    (s.ringm.threads.filter (fun x => x.2.state == 4 || (x.2.state == 5 && x.2.timed)))

/-- Releases after a change of word `w` to `v` (12 R391): waiting threads in `release_seq` order. -/
def wordRelease (w v : Nat) (s : State) : State :=
  let l := sortBy (fun (a b : Nat × Thread) => decide (a.2.releaseSeq ≤ b.2.releaseSeq))
    (s.ringm.threads.filter (fun x => x.2.state == 5 && x.2.eventWord == w && decide (x.2.threshold ≤ v)))
  l.foldl (fun s x => makeReady x.1 4 false s) s

/-- Releases of a tick of `u` us (12 R389): up to 32 due threads in list order; later ones count as late. -/
def tickRelease (u : Nat) (s : State) : State :=
  let due := (delayList s).filter (fun x => decide (x.2.wakeUs ≤ u))
  let s := (due.take 32).foldl (fun s x => makeReady x.1 (if x.2.state = 4 then 3 else 5) false s) s
  { s with ringm := { s.ringm with late := min (s.ringm.late + (due.length - 32)) 65535 } }


/-! ## Carousel slices -/

/-- Slices of a unit (15 R455). -/
def sliceCount : CUnit → Nat
  | .core _ _ => 40
  | .mapCache _ => 64
  | .fabric _ => 8
  | .pair _ => 32

/-- The cluster of a unit; a control-core pair has none. -/
def unitCl : CUnit → Option Nat
  | .core q _ => some q
  | .mapCache q => some q
  | .fabric q => some q
  | .pair _ => none

/-- A recovery rotation of the cluster is wanted or runs (14 R440). -/
def restoringCl (s : State) (q : Nat) : Bool := s.units.restoring.any (fun x => x.1 == q)

/-- The cluster is in a rotation now (15 R456): start-up, C0 cluster 0 first; test; or recovery, once it is fenced. -/
def inRotation (s : State) (q : Nat) : Bool :=
  decide (q < 64) &&
  ((s.boot.stage2 && !s.safety.startupDone && !s.safety.startDone.contains q && !clusterOut s q &&
      (q == 0 || s.safety.startDone.contains 0 || clusterOut s 0)) ||
   (s.safety.testRotation && !s.safety.testDone.contains q && !clusterOut s q) || (restoringCl s q && s.units.fenced.contains q))

/-- Carousel may test the unit now: it is out of service (15 R455, R456, 12 R376). -/
def testable (s : State) (u : CUnit) : Bool :=
  match u with
  | .core q c => decide (c < 9) && (inRotation s q ||
      (decide (q < 64) && !clusterOut s q && (layoutOf s q)[8]? == some c && spareOf s q == .unused))
  | .mapCache q => inRotation s q
  | .fabric q => inRotation s q
  | .pair p => s.safety.pairsOut.contains p

def progOf (s : State) (u : CUnit) : Nat := ((s.safety.prog.find? (fun x => x.1 == u)).map (fun x => x.2)).getD 0

def setProg (u : CUnit) (n : Nat) (s : State) : State :=
  { s with safety := { s.safety with prog := s.safety.prog.filter (fun x => x.1 != u) ++ (if n = 0 then [] else [(u, n)]) } }

/-- Units of a cluster (15 R455). -/
def clusterUnits (q : Nat) : List CUnit := (List.range 9).map (fun c => CUnit.core q c) ++ [.mapCache q, .fabric q]

/-- Every unit of the cluster has passed all its slices or has failed one. -/
def rotationOver (s : State) (q : Nat) : Bool :=
  (clusterUnits q).all (fun u => progOf s u == sliceCount u || s.safety.failed.contains u)

/-- The cluster's progress is used up. -/
def clearProg (q : Nat) (s : State) : State :=
  { s with safety := { s.safety with prog := s.safety.prog.filter (fun x => !(clusterUnits q).contains x.1),
                                     failed := s.safety.failed.filter (fun x => !(clusterUnits q).contains x) } }

/-- A slice of the unit may start (15 R456): one at a time in a cluster, in recovery one at a time per unit, and one of a spare in service in each
frame; nothing is left of a unit that has passed or failed. -/
def sliceFree (s : State) (u : CUnit) : Bool :=
  let run := s.ringm.sliceRunning
  testable s u && !s.safety.failed.contains u && decide (progOf s u < sliceCount u) && !run.any (fun x => x.1 == u) &&
  (match unitCl u with
  | none => true
  | some q => restoringCl s q || (!run.any (fun x => unitCl x.1 == some q) && (inRotation s q || !s.safety.spareSliced.contains q)))

/-- The pending slice starts; that of a spare in service is its cluster's in this frame. -/
def startSlice (u : CUnit) (s : State) : State :=
  { s with
    ringm := { s.ringm with slice := none, sliceRunning := s.ringm.sliceRunning ++ [(u, progOf s u)], deferrals := 0, starved := false },
    safety := match u with
      | .core q _ => if inRotation s q then s.safety else { s.safety with spareSliced := s.safety.spareSliced ++ [q] }
      | _ => s.safety }

/-- Slice admission at a tick of `u` us, by the delay list before the tick's releases (12 R394). A pending slice whose unit may not be tested any more
is dropped. -/
def admitSlice (u : Nat) (delayed : List (Nat × Thread)) (s : State) : State :=
  match s.ringm.slice with
  | none => s
  | some (c, l) =>
    if !sliceFree s c then { s with ringm := { s.ringm with slice := none, deferrals := 0, starved := false } }
    else if delayed.any (fun x => x.2.safety && decide (u ≤ x.2.wakeUs) && decide (x.2.wakeUs ≤ u + l + 5)) then
      let n := s.ringm.deferrals + 1
      let s := { s with ringm := { s.ringm with deferrals := n } }
      if n ≥ 64 ∧ !s.ringm.starved then raise 83 0 0 { s with ringm := { s.ringm with starved := true } } else s
    else startSlice c s

/-! ## Kernel port -/

/-- A read of the kernel port of pair `p` (12 R382): operands, result, RUNNING thread, head of the best ready queue with its priority, DT. -/
def portRead (s : State) (p off : Nat) : Nat :=
  let arg := (s.ringm.args.find? (fun r => r.1 == p)).map (fun r => r.2)
  match off with
  | 0x00 => (arg.map (fun a => a.1)).getD 0
  | 0x08 => (arg.map (fun a => a.2)).getD 0
  | 0x18 => ((s.ringm.results.find? (fun r => r.1 == p)).map (fun r => r.2.1 + 256 * r.2.2)).getD 0
  | 0x20 => (runningOf s p).getD 0xFFFF
  | 0x28 => (match bestReady s p with | some e => e + 65536 * (threadOf s e).prio | none => 0xFFFF)
  | 0x30 => s.dt
  | _ => 0

/-- The result register of a pair (12 R382, R386). -/
def setResult (p code value : Nat) (s : State) : State :=
  { s with ringm := { s.ringm with results := (p, code, value) :: s.ringm.results.filter (fun r => r.1 != p) } }

def setArgs (p a0 a1 : Nat) (s : State) : State :=
  { s with ringm := { s.ringm with args := (p, a0, a1) :: s.ringm.args.filter (fun r => r.1 != p) } }

/-- The common refusals of a command that names entry `e` (12 R375, R386): out of range, denied, or free. -/
def entryCheck (p e : Nat) (s : State) : Option Nat :=
  if e ≥ 4096 then some 3
  else if p ≥ 2 ∧ e < 512 then some 6
  else if (threadOf s e).state = 0 then some 4
  else none

/-- CREATE (12 R383). -/
def createThread (p a0 a1 : Nat) (s : State) : State :=
  let prio := a1 % 256
  let pair := bitsOf a1 8 8
  let fb := bitsOf a1 16 8
  let lat := bitsOf a1 32 10
  let e := a0 % 65536
  if pair > 7 ∨ fb > 7 ∨ lat > 1000 then setResult p 5 0 s
  else if e ≠ 0xFFFF ∧ e ≥ 4096 then setResult p 3 0 s
  else if p ≥ 2 ∧ ((e ≠ 0xFFFF ∧ e < 512) ∨ prio < 16 ∨ pair < 2 ∨ fb < 2) then setResult p 6 0 s
  else
    let range := if p < 2 then List.range 512 else (List.range 3584).map (fun i => i + 512)
    let found := if e = 0xFFFF then range.find? (fun i => (threadOf s i).state == 0)
                 else if (threadOf s e).state = 0 then some e else none
    match found with
    | none => setResult p (if e = 0xFFFF then 2 else 3) 0 s
    | some i =>
      setResult p 0 i (setThread i { state := 1, prio := prio, pair := pair, fallback := fb, safety := bitOf a1 24, latencyUs := lat } s)

/-- RESUME (12 R383). -/
def resumeThread (p a0 : Nat) (s : State) : State :=
  let e := a0 % 65536
  match entryCheck p e s with
  | some c => setResult p c 0 s
  | none => if (threadOf s e).state = 1 then setResult p 0 0 (makeReady e 0 false s) else setResult p 4 0 s

/-- SUSPEND (12 R383). -/
def suspendThread (p a0 : Nat) (s : State) : State :=
  let e := a0 % 65536
  match entryCheck p e s with
  | some c => setResult p c 0 s
  | none =>
    let x := threadOf s e
    if x.state = 2 ∨ x.state = 4 ∨ x.state = 5 then
      setResult p 0 0 (setThread e { x with state := 1, timed := false, eventWord := 0xFFFF } (unready e s))
    else setResult p 4 0 s

/-- DELETE (12 R383). -/
def deleteThread (p a0 : Nat) (s : State) : State :=
  let e := a0 % 65536
  match entryCheck p e s with
  | some c => setResult p c 0 s
  | none => if (threadOf s e).state = 1 then setResult p 0 0 (setThread e {} s) else setResult p 4 0 s

/-- The outgoing thread of a SWITCH (12 R384, R385). -/
def disposeThread (e d a0 a1 : Nat) (s : State) : State :=
  let x := threadOf s e
  let seq := s.ringm.seqCtr
  let bump (s : State) : State := { s with ringm := { s.ringm with seqCtr := (seq + 1) % 2 ^ 32 } }
  let wait (timed : Bool) (us : Nat) : State :=
    let w := bitsOf a0 16 16
    let thr := a1 / 256 % 2 ^ 56
    if thr ≤ wordOf s w then makeReady e 4 false s
    else bump (setThread e { x with state := 5, eventWord := w, threshold := thr, timed := timed,
                                    wakeUs := if timed then us else x.wakeUs, releaseSeq := seq } s)
  match d with
  | 0 => makeReady e 1 true s
  | 1 => makeReady e 2 false s
  | 2 => bump (setThread e { x with state := 4, wakeUs := a0 / 65536 % 2 ^ 48, releaseSeq := seq } s)
  | 3 => wait false 0
  | 4 => wait true (s.dt / 1000 + a0 / 2 ^ 32 % 2 ^ 32)
  | 5 => setThread e { x with state := 1, releasedAt := none } s
  | _ => setThread e {} s

/-- The pick of a SWITCH, with its result (12 R384). -/
def switchTo (p : Nat) (s : State) : State :=
  match bestReady s p with
  | none => setResult p 1 0xFFFF s
  | some e => setResult p 0 (e + 65536 * (threadOf s e).wakeReason) (pick p s)

/-- SWITCH (12 R384): the caller's RUNNING thread is disposed of, then the pick. -/
def switchThread (p a0 a1 : Nat) (s : State) : State :=
  match runningOf s p with
  | none => switchTo p s
  | some e =>
    let d := a1 % 16
    if bitsOf a1 4 4 ≠ 0 ∨ d > 6 ∨ ((d = 3 ∨ d = 4) ∧ bitsOf a0 16 16 > 511) then setResult p 5 0 s
    else switchTo p (disposeThread e d a0 a1 s)

/-- SET_PRIO (12 R383); a priority above 255 is out of range (R386, R398). -/
def setPrio (p a0 a1 : Nat) (s : State) : State :=
  let e := a0 % 65536
  match entryCheck p e s with
  | some c => setResult p c 0 s
  | none =>
    let x := threadOf s e
    if a1 > 255 then setResult p 5 0 s
    else if p ≥ 2 ∧ a1 < 16 then setResult p 6 0 s else
    let s := setThread e { x with prio := a1 } s
    let s := if x.state = 2 then { unready e s with ringm := { (unready e s).ringm with ready := (unready e s).ringm.ready ++ [e] } } else s
    setResult p 0 0 s

/-- SET_PAIR (12 R383). -/
def setPair (p a0 a1 : Nat) (s : State) : State :=
  let e := a0 % 65536
  match entryCheck p e s with
  | some c => setResult p c 0 s
  | none =>
    let x := threadOf s e
    let np := a1 % 256
    if np > 7 then setResult p 5 0 s
    else if p ≥ 2 ∧ np < 2 then setResult p 6 0 s
    else if x.state = 3 then setResult p 4 0 s
    else
      let s := setThread e { x with pair := np } s
      let s := if x.state = 2 then { unready e s with ringm := { (unready e s).ringm with ready := (unready e s).ringm.ready ++ [e] } } else s
      setResult p 0 0 s

/-- WAKE of Ringmaster (12 R383). -/
def wakeThread (p a0 : Nat) (s : State) : State :=
  let e := a0 % 65536
  match entryCheck p e s with
  | some c => setResult p c 0 s
  | none =>
    let x := threadOf s e
    if x.state = 4 ∨ x.state = 5 then setResult p 0 x.state (makeReady e 6 false s) else setResult p 4 0 s

/-- The 32 bytes of a thread entry (12 R377). -/
def threadBytes (e : Nat) (x : Thread) : Bytes :=
  leBytes 1 x.state ++ leBytes 1 x.prio ++ leBytes 1 x.pair ++ leBytes 1 x.fallback ++
  leBytes 1 (b2n x.safety + 2 * b2n (decide (e < 512)) + 4 * b2n x.timed) ++ leBytes 1 x.wakeReason ++ leBytes 2 x.eventWord ++
  leBytes 8 x.threshold ++ leBytes 8 x.wakeUs ++ leBytes 4 x.latencyUs ++ leBytes 4 x.releaseSeq

/-- READ_ENTRY (12 R383): the operand registers then hold the first 16 bytes of the entry. -/
def readEntry (p a0 : Nat) (s : State) : State :=
  let e := a0 % 65536
  if e ≥ 4096 then setResult p 3 0 s
  else if p ≥ 2 ∧ e < 512 then setResult p 6 0 s
  else
    let b := threadBytes e (threadOf s e)
    setResult p 0 e (setArgs p (leNat (b.take 8)) (leNat ((b.drop 8).take 8)) s)

/-! ## Losing a pair -/

/-- Rebinding of one thread of a lost pair (12 R395). -/
def rebind (p : Nat) (s : State) (e : Nat) : State :=
  let x := threadOf s e
  if x.state = 0 ∨ x.pair ≠ p then s
  else if x.fallback ≠ p ∧ x.fallback < 8 ∧ !s.safety.pairsOut.contains x.fallback then
    let s := setThread e { x with pair := x.fallback } s
    if x.state = 2 ∨ x.state = 3 then makeReady e 7 false s else s
  else
    setThread e { x with state := 1, timed := false, eventWord := 0xFFFF } (unready e s)

/-- A lost pair's threads are rebound in ascending entry number (12 R395). -/
def rebindPair (p : Nat) (s : State) : State := (s.ringm.threads.map (fun x => x.1)).foldl (rebind p) s

/-! ## The events of one hub cycle -/

/-- A kernel-port command (12 R383, R384). -/
def kernelRun (c : KCmd) (p a0 a1 : Nat) (s : State) : State :=
  match c with
  | .create => createThread p a0 a1 s
  | .resume => resumeThread p a0 s
  | .suspend => suspendThread p a0 s
  | .delete => deleteThread p a0 s
  | .switch => switchThread p a0 a1 s
  | .setPrio => setPrio p a0 a1 s
  | .setPair => setPair p a0 a1 s
  | .wake => wakeThread p a0 s
  | .read => readEntry p a0 s

/-- What an event does. The operand registers of a pair hold its command's operands (12 R382); a lost pair's command does nothing. -/
def applyEvent (s : State) (e : REvent) : State :=
  match e with
  | .tick u => tickRelease u s
  | .word w v => wordRelease w v s
  | .lost p => rebindPair p s
  | .cmd p c a0 a1 => if s.safety.pairsOut.contains p then s else kernelRun c p a0 a1 (setArgs p a0 a1 s)

/-- The place of an event in its hub cycle (12 R392). -/
def eventOrder : REvent → Nat
  | .tick _ => 0
  | .word _ _ => 1
  | .lost _ => 2
  | .cmd p _ _ _ => 3 + p

/-- An event takes its place among those of its hub cycle, after the earlier ones of the same order. -/
def insertEvent (e : REvent) (l : List REvent) : List REvent :=
  l.filter (fun x => decide (eventOrder x ≤ eventOrder e)) ++ [e] ++ l.filter (fun x => decide (eventOrder e < eventOrder x))

/-- The first event of a hub cycle is noted, with what it acts on. -/
def noteRing (e : REvent) (s : State) : State :=
  let r := s.ringm
  { s with ringm := { r with cyc := some { cycle := hubCycle s.dt, events := [e], threads := r.threads, ready := r.ready, seqCtr := r.seqCtr, late := r.late,
                                           args := r.args, results := r.results } } }

/-- The events of this hub cycle, if there were any. -/
def ringCycle (s : State) : Option RingCycle := s.ringm.cyc.filter (fun x => x.cycle == hubCycle s.dt)

/-- Ringmaster as it was before the events `x` of this hub cycle. -/
def ringBefore (x : RingCycle) (s : State) : State :=
  { s with ringm := { s.ringm with threads := x.threads, ready := x.ready, seqCtr := x.seqCtr, late := x.late, args := x.args, results := x.results } }

/-- An event reaches Ringmaster (12 R392): the events of one hub cycle act in the rule's order, each on the result of those before it, so an event that
comes first in that order and is sent later has the others act again after it. -/
def ringEvent (e : REvent) (s : State) : State :=
  match ringCycle s with
  | none => applyEvent (noteRing e s) e
  | some x =>
    let l := insertEvent e x.events
    let b := ringBefore x s
    l.foldl applyEvent { b with ringm := { b.ringm with cyc := some { x with events := l } } }

/-- Ringmaster changed outside those events: what comes later in the hub cycle acts on it as it now is. -/
def ringSettled (s : State) : State := { s with ringm := { s.ringm with cyc := none } }

/-- EVENT_WORD_CHANGE (12 R391). -/
def execEventWordChange (t w : Nat) (s : State) : Out := runAt t s fun s => ringEvent (.word w (wordOf s w)) s

/-- Run a kernel-port command of a pair in service. -/
def kernelCmd (t p : Nat) (c : KCmd) (a0 a1 : Nat) (s : State) : Out :=
  runAt t s fun s => if p ≥ 8 ∨ s.safety.pairsOut.contains p then s else ringEvent (.cmd p c a0 a1) s

/-- CREATE (12 R383). -/
def execCreate (t p a0 a1 : Nat) (s : State) : Out := kernelCmd t p .create a0 a1 s

/-- RESUME (12 R383). -/
def execResume (t p a0 a1 : Nat) (s : State) : Out := kernelCmd t p .resume a0 a1 s

/-- SUSPEND (12 R383). -/
def execSuspend (t p a0 a1 : Nat) (s : State) : Out := kernelCmd t p .suspend a0 a1 s

/-- DELETE (12 R383). -/
def execDelete (t p a0 a1 : Nat) (s : State) : Out := kernelCmd t p .delete a0 a1 s

/-- SWITCH (12 R384). -/
def execSwitch (t p a0 a1 : Nat) (s : State) : Out := kernelCmd t p .switch a0 a1 s

/-- SET_PRIO (12 R383). -/
def execSetPrio (t p a0 a1 : Nat) (s : State) : Out := kernelCmd t p .setPrio a0 a1 s

/-- SET_PAIR (12 R383). -/
def execSetPair (t p a0 a1 : Nat) (s : State) : Out := kernelCmd t p .setPair a0 a1 s

/-- WAKE of Ringmaster (12 R383). -/
def execWakeThread (t p a0 a1 : Nat) (s : State) : Out := kernelCmd t p .wake a0 a1 s

/-- READ_ENTRY (12 R383). -/
def execReadEntry (t p a0 a1 : Nat) (s : State) : Out := kernelCmd t p .read a0 a1 s

/-- RINGMASTER_TICK (12 R389, R394): every whole microsecond up to 32 due threads are released in list order; later ones
count as late. A slice passed for admission becomes pending when none is. -/
def execRingmasterTick (t : Nat) (slice : Option (CUnit × Nat)) (s : State) : Out :=
  runAt t s fun s =>
    if !s.ringm.running ∨ t % 1000 ≠ 0 then s else
    let u := t / 1000
    let delayed := delayList (match ringCycle s with | some x => ringBefore x s | none => s)
    let s := ringEvent (.tick u) s
    let s := { s with ringm := { s.ringm with
      slice := match s.ringm.slice with | some x => some x | none => slice.map (fun x => (x.1, min x.2 25)) } }
    admitSlice u delayed s

/-- SAFETY_THREAD_LATENCY (12 R393). -/
def execSafetyThreadLatency (t e : Nat) (s : State) : Out :=
  runAt t s fun s =>
    let x := threadOf s e
    match x.releasedAt with
    | some r =>
      if x.safety ∧ x.latencyUs ≠ 0 ∧ x.state ≠ 3 ∧ r + 1000 * x.latencyUs < s.dt then
        raise 10 0 e (ringSettled (setThread e { x with releasedAt := none } s))
      else s
    | none => s

/-- LOCKSTEP_MISMATCH (12 R376, R395): the pair stops, its source is raised, its threads are rebound in ascending entry
number; with pairs 0 and 1 both out, firmware-pairs-lost is raised. -/
def execLockstepMismatch (t p : Nat) (s : State) : Out :=
  runAt t s fun s =>
    if p ≥ 8 ∨ s.safety.pairsOut.contains p then s else
    let s := { s with safety := { s.safety with pairsOut := s.safety.pairsOut ++ [p] } }
    let s := raise p 0 0 s
    let s := ringEvent (.lost p) s
    if p < 2 ∧ s.safety.pairsOut.contains 0 ∧ s.safety.pairsOut.contains 1 then raise 8 0 0 s else s

/-- At Dormant entry every RUNNING thread becomes READY at the head of its queue (12 R397). -/
def parkThreads (s : State) : State :=
  let s := ringSettled s
  ((s.ringm.threads.filter (fun x => x.2.state == 3)).map (fun x => x.1)).foldl
    (fun s e => makeReady e (threadOf s e).wakeReason true s) s

end Sys2Proof.Machine
end

