-- ==== Sys2Proof/Machine/Units.lean ====
section
/-! DEFINITION. UNIT_CONTROL (09 R317, 14 R437 to R440), the drain of a function, the recovery self-test, and Carousel (15 R455 to
R457). -/

namespace Sys2Proof.Machine

/-! ## UNIT_CONTROL -/

/-- Functions that can be disabled (14 R437). -/
def fnOk (f : Nat) : Bool := (decide (1 ≤ f) && decide (f ≤ 10)) || f == 13

/-- The checks of a UNIT_CONTROL (09 R317). -/
def unitChecks (d : Taken) : List (Bool × Fail) :=
  let op := fld d 8 1
  let tg := fld d 9 1
  [(op == 0 || decide (op > 3), badField 8),
   (decide (tg > 2) || (op == 1 && tg == 1) || (op == 2 && tg != 1), badField 9),
   (tg == 0 && !fnOk (fld d 0x0A 2), badField 0x0A),
   (tg != 0 && (fld d 0x0C 1 == 0 || decide (fld d 0x0C 1 > 4)), badField 0x0C), (tg != 0 && decide (fld d 0x0D 1 > 15), badField 0x0D),
   (tg == 2 && decide (fld d 0x0E 1 > 7), badField 0x0E), (tg == 2 && decide (fld d 0x0F 1 > 7), badField 0x0F),
   reservedCheck d [(8, 8)]]

/-- The cluster that a UNIT_CONTROL names, as 16 × die + cluster. -/
def unitCluster (d : Taken) : Nat := 16 * (fld d 0x0C 1 - 1) + fld d 0x0D 1

/-- The row of a UNIT_CONTROL: its `op`; an unknown one fails as DISABLE's row. -/
def unitControl (d : Taken) (v : View) (op : Nat) (s : State) (k : State → State) : Out :=
  if fld d 0 1 = 0x0C ∧ fld d 8 1 ≠ op ∧ ¬ (op = 1 ∧ (fld d 8 1 = 0 ∨ fld d 8 1 > 3)) then runAt d.dt s id
  else acceptDesc d v { code := 0x0C, control := true } s fun s => withChecks d (unitChecks d) s k

/-- A UNIT_CONTROL completes with OK (09 R321). -/
def unitOk (w : Work) (s : State) : State := finishWork w 0 (susFlag s) (unitMapDigest s % 2 ^ 32) 0 none s

/-- Accept a UNIT_CONTROL and complete it at once. -/
def unitNow (d : Taken) (it : WorkItem) (s : State) : State := unitOk (mkWork d 0 it s) (addWork (mkWork d 0 it s) s)

/-- Accept a UNIT_CONTROL that completes later, with the change of units that its tick makes. -/
def unitLater (d : Taken) (it : WorkItem) (c : List MapChange) (s : State) : State :=
  addWork (mkWork d 0 it s) { s with units := { s.units with changes := s.units.changes ++ c } }

/-- DISABLE of a function (14 R438). -/
def disableFn (d : Taken) (f : Nat) (s : State) : State :=
  if s.units.disabledFn.contains f then unitNow d (.unitDisable f) s
  else if s.units.draining.any (fun x => x.1 == f) then addWork (mkWork d 0 (.unitDisable f) s) s
  else
    logAction 4 0xFFFF f (addWork (mkWork d 0 (.unitDisable f) s)
      { s with units := { s.units with draining := s.units.draining ++ [(f, d.dt + periodNs s)] } })

/-- UNIT_CONTROL DISABLE (14 R438, R440). -/
def execUnitDisable (d : Taken) (v : View) (s : State) : Out :=
  unitControl d v 1 s fun s =>
    if fld d 9 1 = 0 then disableFn d (fld d 0x0A 2) s
    else
      let q := unitCluster d
      unitLater d (.unitGeo q (fld d 0x0E 1) (fld d 0x0F 1)) [.geo q (fld d 0x0E 1) (fld d 0x0F 1)] s

/-- UNIT_CONTROL FENCE (14 R440). -/
def execUnitFence (d : Taken) (v : View) (s : State) : Out :=
  unitControl d v 2 s fun s => unitLater d (.unitFence (unitCluster d)) [.fence (unitCluster d)] s

/-- A function is restored (14 R439). -/
def restoreFn (f : Nat) (s : State) : State :=
  logAction 5 0xFFFF f { s with units := { s.units with disabledFn := s.units.disabledFn.filter (fun x => x != f) } }

/-- The recovery self-test of cluster `q` is wanted (14 R440). -/
def startRecovery (d : Taken) (q : Nat) (s : State) : State :=
  let c := if clusterOut s q then [] else [MapChange.fence q]
  let wid := s.nextWid
  let s := unitLater d (.unitRestore q) c s
  if restoringCl s q then s
  else clearProg q { s with units := { s.units with restoring := s.units.restoring ++ [(q, wid)] } }

/-- UNIT_CONTROL RESTORE (14 R439, R440): of a unit that is in service, it completes at once. -/
def execUnitRestore (d : Taken) (v : View) (s : State) : Out :=
  unitControl d v 3 s fun s =>
    let f := fld d 0x0A 2
    let q := unitCluster d
    match fld d 9 1 with
    | 0 => if s.units.draining.any (fun x => x.1 == f) then
             addWork (mkWork d 0 (.unitRestoreFn f) s) { s with units := { s.units with heldRestores := s.units.heldRestores ++ [f] } }
           else unitNow d (.unitRestoreFn f) (restoreFn f s)
    | 1 => if clusterOut s q then startRecovery d q s else unitNow d (.unitRestore q) s
    | _ =>
      let g := (q, fld d 0x0E 1, fld d 0x0F 1)
      if clusterOut s q || s.units.geoDisabled.contains g || s.units.changes.contains (.geo g.1 g.2.1 g.2.2) then startRecovery d q s
      else unitNow d (.unitRestore q) s

/-! ## The drain of a function -/

/-- Work of kind `f` accepted and not complete. -/
def kindInFlight (f : Nat) (s : State) : List Work := s.work.filter (fun w => w.kind == f)

/-- A frame whose FRAME_RUN aborts runs on as an idle frame (14 R438 step 4). -/
def abortRunning (f : Nat) (s : State) : State :=
  match s.frame.cur.bind (fun fr => fr.fr) with
  | some wid => if f = 6 ∧ (findWork s wid).isSome then abortFrameRun 0x20 0 s else s
  | none => s

/-- UNIT_CONTROL work that the end of a drain completes: the DISABLEs, then the held RESTOREs (14 R438, R439). -/
def finishDrain (f : Nat) (s : State) : State :=
  let held := s.units.heldRestores.contains f
  let s := s.work.foldl (fun s w => match w.item with | .unitDisable g => if g = f then unitOk w s else s | _ => s) s
  if !held then s else
  let s := restoreFn f { s with units := { s.units with heldRestores := s.units.heldRestores.filter (fun x => x != f) } }
  s.work.foldl (fun s w => match w.item with | .unitRestoreFn g => if g = f then unitOk w s else s | _ => s) s

/-- The drain of function `f` ends (14 R438 steps 3 to 5). -/
def endDrain (f : Nat) (s : State) : State :=
  match s.units.draining.find? (fun x => x.1 == f) with
  | none => s
  | some (_, e) =>
    if s.dt < e ∧ kindInFlight f s ≠ [] then s else
    let s := abortRunning f s
    let s := (kindInFlight f s).foldl (abortWork 0x20 0) s
    let s := if f = 5 then startHeld s else s
    let s := { s with units := { s.units with
      draining := s.units.draining.filter (fun x => x.1 != f), disabledFn := s.units.disabledFn ++ [f] } }
    finishDrain f (logAction 4 0xFFFF f s)

/-- FUNCTION_DRAIN_END (14 R438). -/
def execFunctionDrainEnd (t f : Nat) (s : State) : Out := runAt t s (endDrain f)

/-! ## Recovery -/

/-- The recovery rotation of a cluster under RESTORE is over: its result decides, and the RESTORE completes at the next tick or now (14 R440). It
passes with at least eight cores, the map cache and the fabric. -/
def endRecovery (q : Nat) (s : State) : State :=
  if !restoringCl s q || !rotationOver s q then s else
  let passed := (List.range 9).filter (fun c => progOf s (.core q c) == 40)
  let ok := decide (8 ≤ passed.length) && progOf s (.mapCache q) == 64 && progOf s (.fabric q) == 8
  let s := clearProg q { s with units := { s.units with restoring := s.units.restoring.filter (fun x => x.1 != q) } }
  if ok then { s with units := { s.units with changes := s.units.changes ++ [.relay q passed, .restore q] } }
  else
    s.work.foldl (fun s w => match w.item with
      | .unitRestore r => if r = q then finishWork w 0x21 0 84 0 none s else s
      | _ => s) s

/-- RESTORE_ROTATION_DONE (14 R440). -/
def execRestoreRotationDone (t q : Nat) (s : State) : Out := runAt t s (endRecovery q)

/-! ## Carousel -/

/-- A write of SAFETY_CTRL.CAROUSEL_RUN (15 R457). -/
def carouselRun (s : State) : State :=
  if s.net.state = 0 ∨ s.net.state = 3 then { s with safety := { s.safety with testWanted := true } }
  else { s with safety := { s.safety with refused := true } }

/-- CAROUSEL_RUN (15 R457). -/
def execCarouselRun (t : Nat) (s : State) : Out := runAt t s carouselRun

/-- The start-up or test rotation of cluster `q` ends once each of its units has passed or failed. -/
def clusterThrough (q : Nat) (s : State) : State :=
  if !rotationOver s q || restoringCl s q then s
  else if s.safety.testRotation then
    endRotations (clearProg q { s with safety := { s.safety with testDone := s.safety.testDone ++ [q] } })
  else
    endRotations (enterReduced (clearProg q { s with safety := { s.safety with startDone := s.safety.startDone ++ [q] } }))

/-- A slice passed (15 R455, R456): the unused spare in service starts again after its 40 slices; a stopped pair returns to service after 32. -/
def slicePassed (u : CUnit) (s : State) : State :=
  let n := progOf s u + 1
  match unitCl u, u with
  | some q, _ => if inRotation s q then clusterThrough q (setProg u n s) else setProg u (n % 40) s
  | none, .pair p => if n < 32 then setProg u n s
      else setProg u 0 { s with safety := { s.safety with pairsOut := s.safety.pairsOut.filter (fun x => x != p) } }
  | none, _ => s

/-- A slice failed (15 R455): Carousel-slice-failure, whose reactions act on the unit (14 R432). In a rotation the unit is done with; a stopped pair
begins its slices again. -/
def sliceFailed (u : CUnit) (slice : Nat) (s : State) : State :=
  let rot := (unitCl u).filter (inRotation s)
  let s := raise 84 0 (carouselSyn u slice) (setProg u 0 s)
  match rot with
  | none => s
  | some q =>
    let s := { s with safety := { s.safety with failed := s.safety.failed ++ [u] } }
    if inRotation s q then clusterThrough q s else endRotations (clearProg q s)

/-- A slice that Ringmaster admitted ends (15 R455); of a unit that is no longer under test it says nothing. -/
def sliceDone (u : CUnit) (slice : Nat) (pass : Bool) (s : State) : State :=
  if !s.ringm.sliceRunning.contains (u, slice) then s else
  let s := { s with ringm := { s.ringm with sliceRunning := s.ringm.sliceRunning.filter (fun x => x != (u, slice)) } }
  if !testable s u then s else if pass then slicePassed u s else sliceFailed u slice s

/-- CAROUSEL_SLICE_DONE (15 R455). -/
def execCarouselSliceDone (t : Nat) (u : CUnit) (slice : Nat) (pass : Bool) (s : State) : Out := runAt t s (sliceDone u slice pass)

end Sys2Proof.Machine
end

