-- ==== Sys2Proof/Machine/Cores.lean ====
section
/-! DEFINITION. The memories as an address reaches them and the remote operations (11 R346 to R361), the sequencer's other steps but
ENGINE (R362), and the failover of a ring link (01 R31). -/

namespace Sys2Proof.Machine

/-! ## Addresses -/

/-- What a global address names in its unit (11 R346, R348). -/
inductive Place where
  | core (q p off : Nat)
  | spare (q off : Nat)
  | cache (q off : Nat)
  | hub (off : Nat)
  | stack (off : Nat)
deriving DecidableEq, Repr

def addrUnit (a : Nat) : Nat := bitsOf a 61 3

/-- Decode of the address without its unit; none for an invalid field or offset (11 R346, R348, 01 R26). -/
def placeOf (a : Nat) : Option Place :=
  let die := bitsOf a 58 3
  let cl := bitsOf a 54 4
  let co := bitsOf a 50 4
  let off := bitsOf a 0 50
  if die = 7 then (if bitsOf a 36 22 = 0 then some (.stack (bitsOf a 0 36)) else none)
  else if die = 0 then (if cl = 0 ∧ co = 0 ∧ off < 4096 then some (.hub off) else none)
  else if die > 4 then none
  else
    let q := 16 * (die - 1) + cl
    if co < 8 then (if off < 786432 then some (.core q co off) else none)
    else if co = 8 then (if off < 786432 then some (.spare q off) else none)
    else if co = 15 then (if off < 16777216 then some (.cache q off) else none)
    else none

/-- The key of an address in the model's memory: the address without its unit. -/
def keyOfAddr (a : Nat) : Nat := a % 2 ^ 61

/-! ## Content -/

/-- A voxel record (03 R77). -/
def voxBytes (v : Vox) : Bytes :=
  leBytes 2 (unsignedOf 16 v.dist) ++ leBytes 2 (v.weight % 64 + 64 * b2n v.occ + 128 * (v.cls % 64) + 8192 * (v.fidx % 8))

/-- An index entry (03 R81, R82). -/
def entryBytes (e : IdxEntry) : Bytes :=
  let f := b2n e.validA + 2 * b2n e.validB + 4 * b2n e.sealedB + 8 * b2n e.isOpen + 16 * b2n e.del + 32 * b2n e.tomb + 64 * b2n e.occ + 128 * b2n e.fresh
  keyBytes e.key ++ leBytes 3 e.ptrA ++ leBytes 3 e.ptrB ++ leBytes 1 e.tag ++ leBytes 1 f ++ leBytes 2 (unsignedOf 16 e.coarse)

/-- A byte of the map cache (11 R359): the top-note field of the flacon, then the check bricks by brick number. -/
def cacheByte (fl : Flacon) (src : List (Cell × Int)) (off : Nat) : Byte :=
  if off < 4194304 then
    let i := off / 2
    let c : Cell := (fl.ox + ((i % 256 : Nat) : Int), fl.oy + ((i / 256 % 256 : Nat) : Int), fl.oz + ((i / 65536 : Nat) : Int))
    (leBytes 2 (unsignedOf 16 (topNote fl src c))).getD (off % 2) 0
  else
    let o := off - 4194304
    let vs := ((fl.resident.find? (fun r => r.2 == o / 1024)).bind (fun r => (probe fl.index true r.1).1)).bind (fun e =>
      (viewSlot true e.2).bind (fun sl => lookupO sl fl.pool))
    match vs with
    | some l => (leBytes 2 (unsignedOf 16 (l.getD (o % 1024 / 2) {}).dist)).getD (o % 2) 0
    | none => 0

/-- A byte of the device's own structures in the stack pool (01 R27): brick pool slot s on stack s mod 4, index entry and queue
context likewise; none outside them (PRESUMED, notes/assumptions/22.md). The top-note master (03 R76) lies where the Accord places it. -/
def structByte (s : State) (src : List (Cell × Int)) (off : Nat) : Option Byte :=
  let k := off / 2 ^ 34
  let o := off % 2 ^ 34
  let pool := s.world.poolAt * 2 ^ 26
  let idx := s.world.indexAt * 2 ^ 26
  let ctx := s.hostq.ctxTable * 2 ^ 24
  if pool ≤ o ∧ o < pool + 2 ^ 33 then
    let slot := 4 * ((o - pool) / 2048) + k
    (lookupO slot s.world.pool).map (fun vs => (voxBytes (vs.getD ((o - pool) % 2048 / 4) {})).getD (o % 4) 0)
  else if idx ≤ o ∧ o < idx + 2 ^ 26 then
    (lookupO (4 * ((o - idx) / 16) + k) s.world.index).map (fun e => (entryBytes e).getD (o % 16) 0)
  else if ctx ≤ o ∧ o < ctx + 2 ^ 24 then
    (lookupO (4 * ((o - ctx) / 64) + k) s.hostq.ctxs).map (fun x => (ctxBytes x).getD (o % 64) 0)
  else match s.accord with
    | some a => if a.topNoteAt ≤ off ∧ off < a.topNoteAt + 4194304 then some (cacheByte s.world.fl src (off - a.topNoteAt)) else none
    | none => none

/-- The byte at an address of this unit; `src` and `dir` are the flacon's top-note sources and the residency directory. -/
def placeByte (s : State) (src : List (Cell × Int)) (dir : List (Nat × (Key × Nat))) (a i : Nat) : Byte :=
  match placeOf (a + i) with
  | some (.core q p off) => coreByte s dir (8 * q + p) (keyOfAddr (a + i)) off
  | some (.cache _ off) => cacheByte s.world.fl src off
  | some (.hub off) => (leBytes 8 (wordOf s (off / 8))).getD (off % 8) 0
  | some (.stack off) => (structByte s src off).getD (memRead s.cores.mem (keyOfAddr (a + i)))
  | _ => memRead s.cores.mem (keyOfAddr (a + i))

/-- Read `n` bytes of this unit's memories. -/
def devRead (s : State) (a n : Nat) : Bytes := (List.range n).map (placeByte s (topSources s.world.fl) (directory s.world.fl) a)

/-! ## Sillage-288 on the memories -/

/-- The bits of `m` flipped in a codeword. -/
def flipBits (code m : Bytes) : Bytes := List.zipWith (fun x y => byteOf (x.toNat ^^^ y.toNat)) code (m ++ zeros 36)

/-- A granule of 32 bytes as it is stored, with its four check bytes (01 R25, 15 R446): every write computes them anew, so they are the code's
check bytes of the data. -/
def storedGranule (s : State) (g : Nat) : Bytes :=
  let b := devRead s (32 * g) 32
  b ++ sillageCheck b

/-- What a read of granule `g` returns when the bits of `m` are flipped in it (15 R447), and the decoder's outcome. -/
def readGranule (s : State) (g : Nat) (m : Bytes) : Bytes × SillageOut :=
  let c := flipBits (storedGranule s g) m
  match sillageDecode c with
  | .corrected d => (d, .corrected d)
  | o => (c.take 32, o)

/-- The granules with errors among those that [a, a + n) touches: number from the first, what is read, outcome. -/
def faultyGranules (s : State) (a n : Nat) (errs : List (Nat × Bytes)) : List (Nat × Bytes × SillageOut) :=
  (errs.filter (fun e => decide (32 * (a / 32 + e.1) < a + n))).map (fun e => (a / 32 + e.1, readGranule s (a / 32 + e.1) e.2))

/-- Bytes read, with errors in some granules. -/
def sillageData (a : Nat) (bad : List (Nat × Bytes × SillageOut)) (b : Bytes) : Bytes :=
  b.zipIdx.map (fun x => match lookupO ((a + x.2) / 32) bad with | some r => r.1.getD ((a + x.2) % 32) 0 | none => x.1)

/-- The uncorrectable source of the memory that an address names (14 R420). -/
def sillageSrc (a : Nat) : Nat :=
  match placeOf a with
  | some (.stack off) => 113 + 4 * (off / 2 ^ 34)
  | some (.cache q _) => 162 + 4 * q
  | some (.core q _ _) => 160 + 4 * q
  | some (.spare q _) => 160 + 4 * q
  | _ => 20

/-- A read of memory with an uncorrectable error raises the memory's source with the logical core as syndrome (14 R420, R435). R420 gives the unused
spare, which has no logical position, no number: the model's is 8, and what fails is then the spare (DESIGN CHOICE, notes/assumptions/105.md). -/
def sillageEvent (a : Nat) (s : State) : State :=
  raise (sillageSrc a) a (match placeOf a with | some (.core _ p _) => p | some (.spare _ _) => 8 | _ => 0) s

/-- The corrected source of the memory that an address names (14 R420). -/
def correctedSrc (a : Nat) : Nat :=
  match placeOf a with
  | some (.stack off) => 112 + 4 * (off / 2 ^ 34)
  | some (.cache q _) => 163 + 4 * q
  | some (.core q _ _) => 163 + 4 * q
  | some (.spare q _) => 163 + 4 * q
  | _ => 21

/-- The events of the granules of a read that had errors. -/
def sillageEvents (bad : List (Nat × Bytes × SillageOut)) (s : State) : State :=
  bad.foldl (fun s g => match g.2.2 with
    | .clean => s
    | .corrected _ => raise (correctedSrc (32 * g.1)) (32 * g.1) 0 s
    | .uncorrectable => sillageEvent (32 * g.1) s) s

/-- The poisoned ranges of `n` bytes read at `a` (14 R435), as offset, length and source: the granules that could not be corrected, and the words
that were poisoned in memory. -/
def poisonRead (s : State) (a n : Nat) (bad : List (Nat × Bytes × SillageOut)) : List (Nat × Nat × Nat) :=
  (bad.filter (fun g => g.2.2 == .uncorrectable)).map (fun g =>
    (max a (32 * g.1) - a, min (a + n) (32 * g.1 + 32) - max a (32 * g.1), sillageSrc (32 * g.1))) ++
  (s.cores.poison.filter (fun p => decide (keyOfAddr a < p.1 + 8) && decide (p.1 < keyOfAddr a + n))).map (fun p => (p.1 - keyOfAddr a, 8, p.2))

/-- Data arrives with poisoned ranges at a memory key. -/
def poisonAt (k : Nat) (ps : List (Nat × Nat × Nat)) (s : State) : State := ps.foldl (fun s p => addPoison s (k + p.1) p.2.1 p.2.2) s

/-- What a read delivers (15 R447, R448): the bytes, their poisoned ranges, and the granules with errors. -/
def codedRead (s : State) (a n : Nat) (errs : List (Nat × Bytes)) : Bytes × List (Nat × Nat × Nat) × List (Nat × Bytes × SillageOut) :=
  let bad := faultyGranules s a n errs
  (sillageData a bad (devRead s a n), poisonRead s a n bad, bad)

/-- A write (15 R448): a granule that it covers only in part is read, corrected, merged and encoded anew. What the write leaves of one that cannot be
corrected stays poisoned (DEDUCED, notes/assumptions/107.md). -/
def codedWrite (a : Nat) (b : Bytes) (errs : List (Nat × Bytes)) (s : State) : State :=
  let part := (faultyGranules s a b.length errs).filter (fun g => decide (32 * g.1 < a) || decide (a + b.length < 32 * g.1 + 32))
  let s' := part.foldl (fun s g =>
    if g.2.2 = .uncorrectable then addPoison (keyWrite s (keyOfAddr (32 * g.1)) g.2.1) (keyOfAddr (32 * g.1)) 32 (sillageSrc (32 * g.1)) else s) s
  sillageEvents part (keyWrite s' (keyOfAddr a) b)

/-! ## The effect of an operation at its destination -/

/-- Codes of the operations as flits carry them: 0 PUT, 1 GET, 2 ATOMIC_ADD, 3 and 4 ATOMIC_MAX unsigned and signed, 5 ATOMIC_CAS,
6 SIGNAL. -/
def atomicNew (code word v c : Nat) : Nat :=
  match code with
  | 3 => max word (v % 2 ^ 64)
  | 4 => unsignedOf 64 (max (signed 64 word) (signed 64 (v % 2 ^ 64)))
  | 5 => if word = c % 2 ^ 64 then v % 2 ^ 64 else word
  | _ => (word + v) % 2 ^ 64

/-- What an operation returns: bytes and their poisoned ranges. -/
abbrev OpAnswer := Bytes × List (Nat × Nat × Nat)

/-- The effect in this unit, and what is returned (11 R350): a SIGNAL to the hub wakes threads (R357); a poisoned word stays poisoned under an atomic
operation, whose result comes from it (14 R435). -/
def applyOp (code a v c n : Nat) (data : Bytes) (poison : List (Nat × Nat × Nat)) (errs : List (Nat × Bytes)) (s : State) : State × OpAnswer :=
  match code, placeOf a with
  | 0, _ => (poisonAt (keyOfAddr a) poison (codedWrite a data errs s), [], [])
  | 1, _ => let (b, ps, bad) := codedRead s a n errs
            (sillageEvents bad s, b, ps)
  | 6, some (.hub off) =>
    let w := off / 8
    let n := (wordOf s w + v) % 2 ^ 64
    (ringEvent (.word w n) { s with ringm := { s.ringm with words := insertKey w n s.ringm.words } }, [], [])
  | _, _ =>
    let (old, ps, _) := codedRead s a 8 errs
    let s := poisonAt (keyOfAddr a) ps (codedWrite a (leBytes 8 (atomicNew code (leNat old) v c)) errs s)
    (s, if code = 6 then ([], []) else (old, ps))

/-! ## Address errors -/

/-- Permission of a window that an operation needs (11 R360). -/
def windowAllows (code : Nat) (w : PWindow) : Bool := match code with | 0 => w.wr | 1 => w.rd | _ => w.atomic

/-- The protection windows of a core. -/
def windowsOf (s : State) (c : CoreId) : List PWindow :=
  match s.accord with | some a => ((a.windows.find? (fun x => x.1 == c)).map (fun x => x.2)).getD [] | none => []

/-- The issuer's own core memory. -/
def ownMemory (s : State) (src : OpSrc) (a : Nat) : Bool :=
  match src, placeOf a with
  | .core c, some (.core q p _) => addrUnit a == s.chain.unit && q == 16 * c.die + c.cluster && p == c.core
  | _, _ => false

/-- The issuer's windows allow the operation (11 R360). -/
def windowOk (s : State) (src : OpSrc) (code a n : Nat) : Bool :=
  match src with
  | .core c => ownMemory s src a ||
      (windowsOf s c).any (fun w => decide (w.base ≤ a) && decide (a + n ≤ w.base + w.size) && windowAllows code w)
  | _ => true

/-- Bytes that an operation returns. -/
def returned (code n : Nat) : Nat := match code with | 0 => 0 | 6 => 0 | 1 => n | _ => 8

/-- The issuer's end of an operation lies in its own memory (11 R350, 01 R24). -/
def localOk (src : OpSrc) (code n l : Nat) : Bool :=
  let k := if code = 0 then n else returned code n
  match src with
  | .core _ => l % 8 == 0 && decide (l % 4096 + k ≤ 4096) && decide (l + k ≤ 786432)
  | .pair _ => l % 8 == 0 && decide (l % 4096 + k ≤ 4096) && decide (l + k ≤ 524288)
  | _ => true

/-- Alignment and size (11 R350): `l` is the issuer's own offset. -/
def shapeOk (src : OpSrc) (code a n l : Nat) : Bool :=
  (if code ≤ 1 then inN 8 n 4096 && n % 8 == 0 && a % 8 == 0 && decide (a % 4096 + n ≤ 4096) else a % 8 == 0) && localOk src code n l

/-- The destination is one that the operation may have (11 R349, R350, R358, 12 R390), in this unit; a cluster that FENCE has isolated is fenced at once
(14 R432). R349 does not name a logical position that is out of service: until the spare takes it over, an operation there reaches the failed core's
memory. R350 lets a SIGNAL reach the signal area of a core memory, and R348 gives core memories the core values 0 to 7: a SIGNAL to core value 8, the
self-test's too, is an address error (both DESIGN CHOICE, notes/assumptions/105.md). -/
def destOk (s : State) (src : OpSrc) (code a n : Nat) : Bool :=
  let tester := match src with | .diag => true | .selfTest => true | _ => false
  let inArea (off : Nat) : Bool := ownMemory s src a || tester || decide (327680 ≤ off)
  let up (q : Nat) : Bool := !s.units.fenced.contains q && !s.units.isolated.contains q
  match placeOf a, placeOf (a + n - 1) with
  | some (.core q _ off), some (.core _ _ _) =>
    up q && (if code = 6 then inN 327680 off 331775 else inArea off)
  | some (.spare q _), some (.spare _ _) =>
    up q && tester && (match spareOf s q with | .used _ => false | _ => true) && code != 6
  | some (.cache q _), some (.cache _ _) => up q && code == 1
  | some (.hub off), some (.hub _) => code == 6 && (match src with | .pair p => decide (p < 2) || decide (512 ≤ off) | _ => true)
  | some (.stack _), some (.stack _) => code != 6
  | _, _ => false

/-- The address names a unit at or beyond UNIT_COUNT (10 R342); a unit's own address never does. -/
def beyondChain (s : State) (a : Nat) : Bool := addrUnit a != s.chain.unit && decide (addrUnit a ≥ s.chain.unitCount)

/-- The fault source of an operation's address error, if it has one (11 R349). -/
def addrError (s : State) (src : OpSrc) (code a n l : Nat) : Option Nat :=
  if beyondChain s a then some 153
  else if !shapeOk src code a n l || (placeOf a).isNone || !windowOk s src code a n then some 100
  else if addrUnit a = s.chain.unit ∧ ¬ destOk s src code a n then some 100
  else none

/-! ## Sequencers -/

/-- A core that can run: a valid one whose cluster is in service. -/
def coreOk (s : State) (c : CoreId) : Bool :=
  decide (c.die < 4) && decide (c.cluster < 16) && decide (c.core < 8) &&
  !s.units.fenced.contains (16 * c.die + c.cluster) && !s.units.isolated.contains (16 * c.die + c.cluster) &&
  !s.units.outPos.contains (16 * c.die + c.cluster, c.core)

/-- The sequencer may issue a step. -/
def coreReady (s : State) (c : CoreId) : Bool := coreOk s c && !(coreSt s c).stopped && !(coreSt s c).waiting

/-- The step at hand is done. -/
def advance (c : CoreId) (s : State) : State :=
  let x := coreSt s c
  setCore c { x with pos := x.pos + 1 } s

/-- The optimisation that runs on a core. -/
def coreOpt (s : State) (c : CoreId) : Option Opt := s.opts.find? (fun o => o.core == coreIndex c && o.started && o.stop.isNone)

/-- The SELECT row that runs on a cluster. -/
def selectOn (s : State) (q : Nat) : Option Work :=
  s.work.find? (fun w => match w.item with | .select sl => sl.running.any (fun r => r.2 == q) | _ => false)

/-- The work item that owns the schedule a core runs: its optimisation's, a network's, a SELECT row's, and else, on the frame's clusters, that of the
batch in the pipeline that is still without verdicts, or the frame's FRAME_RUN (DEDUCED, notes/assumptions/105.md). -/
def ownerOf (s : State) (c : CoreId) : Option Nat :=
  let q := 16 * c.die + c.cluster
  match coreOpt s c with
  | some o => some o.wid
  | none =>
    match s.netRuns.find? (fun n => n.wid != 0 && n.clusters.contains q && n.cores.contains c.core) with
    | some n => some n.wid
    | none =>
      match selectOn s q with
      | some w => some w.wid
      | none => s.frame.cur.bind (fun f =>
          match f.batches.find? (fun b => b.verdicts.isNone) with
          | some b => if f.clusters.contains q then some b.wid else f.fr
          | none => f.fr)

/-- The work item that owns a core's schedule completes with ABORTED_FAULT (11 R349, 14 R435). -/
def abortOwner (c : CoreId) (src : Nat) (s : State) : State :=
  match ownerOf s c with
  | none => s
  | some wid =>
    if s.frame.cur.bind (fun f => f.fr) = some wid then abortFrameRun 0x21 src s
    else match findWork s wid with | some w => abortWork 0x21 src s w | none => s

/-- The core runs the frame's certification (08 R274). -/
def certifying (s : State) (c : CoreId) : Bool :=
  match s.frame.cur, s.accord with
  | some f, some a => f.mergeDone && !f.certDone && !f.published && (certUnits s a).contains (16 * c.die + c.cluster, c.core) && (coreOpt s c).isNone
  | _, _ => false

/-- An engine of a core has consumed poisoned data (14 R435): a certification fails, other work aborts. -/
def consumePoison (c : CoreId) (src : Nat) (s : State) : State :=
  if certifying s c then modFrame (fun f => { f with certFail := true }) s else abortOwner c src s

/-- Data reaches the issuer's own memory, with its poisoned ranges. -/
def deliver (src : OpSrc) (l : Nat) (x : OpAnswer) (s : State) : State :=
  if x.1.isEmpty then s else
  match src with
  | .core c => poisonAt (coreAddr c l) x.2 (keyWrite s (coreAddr c l) x.1)
  | .pair p => { s with ringm := { s.ringm with mem := memWrites s.ringm.mem (524288 * p + l) x.1 } }
  | _ => s

/-- The outcome of an address error (11 R349); the `ret` bytes that were to be returned at `l` are all ones, as far as they lie in the issuer's
memory. -/
def addressError (src : OpSrc) (e a l ret : Nat) (s : State) : State :=
  let s := if localOk src 1 ret l then deliver src l (List.replicate ret 255, [(0, ret, e)]) s else s
  match src with
  | .core c => abortOwner c e (raise e a a (setCore c { coreSt s c with stopped := true } s))
  | _ => raise e a a s

/-! ## Routes -/

/-- A hop of a route (01 R30): a die's fabric, its memory port, its hub link, the hub crossbar, a ring link. -/
inductive Hop where
  | fabric (d : Nat)
  | memPort (d : Nat)
  | hubLink (d : Nat)
  | crossbar
  | ring (l : Nat)
deriving DecidableEq, Repr

/-- An end of a route: compute die, stack, hub. -/
inductive RouteEnd where
  | die (k : Nat)
  | stack (k : Nat)
  | hub
deriving DecidableEq, Repr

/-- The ring link between two dies (14 R420) and its direction: 0 from Cl to C(l + 1). -/
def ringBetween (j k : Nat) : Option (Nat × Nat) := if (j + 1) % 4 = k then some (4 + j, 0) else if (k + 1) % 4 = j then some (4 + k, 1) else none

/-- The fixed route of a pair (01 R30); `viaHub` are the ring links that have failed (R31). Two cores of one die meet in its fabric, and two hub
blocks in the crossbar (R29). A stack is no source. -/
def routeOf (viaHub : List Nat) : RouteEnd → RouteEnd → List Hop
  | .die j, .stack k => if j = k then [.fabric k, .memPort k] else [.hubLink j, .crossbar, .hubLink k, .memPort k]
  | .die j, .die k =>
    if j = k then [.fabric k]
    else match ringBetween j k with
      | some (l, _) => if viaHub.contains l then [.hubLink j, .crossbar, .hubLink k] else [.ring l]
      | none => [.hubLink j, .crossbar, .hubLink k]
  | .die j, .hub => [.hubLink j]
  | .hub, .die k => [.hubLink k]
  | .hub, .stack k => [.hubLink k, .memPort k]
  | .hub, .hub => [.crossbar]
  | .stack _, _ => []

/-- Where an issuer is. -/
def endOfSrc : OpSrc → RouteEnd
  | .core c => .die c.die
  | _ => .hub

/-- Where an address of this unit is. -/
def endOfAddr (a : Nat) : RouteEnd :=
  match placeOf a with
  | some (.core q _ _) => .die (q / 16)
  | some (.spare q _) => .die (q / 16)
  | some (.cache q _) => .die (q / 16)
  | some (.stack off) => .stack (off / 2 ^ 34)
  | _ => .hub

/-- Flits of an operation or of its answer that carries `n` bytes: one, and one for each 32 bytes of data (DESIGN CHOICE, notes/assumptions/104.md). -/
def opFlits (n : Nat) : Nat := 1 + ceilDiv n 32

/-- The operation with `n` bytes of data travels its route, and its answer with `r` bytes returns by it; on a ring link each flit takes a sequence
number there (01 R31). -/
def sendOn (src : OpSrc) (a n r : Nat) (s : State) : State :=
  (routeOf s.cores.hubRoute (endOfSrc src) (endOfAddr a)).foldl (fun s h =>
    match h, endOfSrc src, endOfAddr a with
    | .ring l, .die j, .die k =>
      let dir := ((ringBetween j k).map (fun x => x.2)).getD 0
      ringSends (2 * l + (1 - dir)) a (opFlits r) (ringSends (2 * l + dir) a (opFlits n) s)
    | _, _, _ => s) s

/-! ## Remote operations -/

/-- An operation for another unit leaves through the chain (10 R342), with a tag that its answer brings back. -/
def sendOp (src : OpSrc) (tag code a v c n : Nat) (data : Bytes) (poison : List (Nat × Nat × Nat)) (s : State) : State :=
  sendFlit (if addrUnit a > s.chain.unit then 1 else 0) (.op src s.chain.unit tag code a v c n data poison) s

/-- An operation that a later SIGNAL of its source waits for: a PUT or an atomic (11 R353). -/
def ordersSignal (code : Nat) : Bool := code == 0 || inN 2 code 5

/-- A core's operation for another unit is outstanding until its answer comes (11 R354). -/
def remoteOp (src : OpSrc) (code a v c n l : Nat) (data : Bytes) (poison : List (Nat × Nat × Nat)) (s : State) : State :=
  let s := if ordersSignal code then { s with cores := { s.cores with outW := src :: s.cores.outW } } else s
  let s := match src with | .core k => let x := coreSt s k
                                       advance k (setCore k { x with out := x.out + 1 } s)
                          | _ => s
  sendOp src l code a v c n data poison s

/-- The source issues the operation now: it runs, has fewer than 64 outstanding (11 R356), and a SIGNAL has no PUT or atomic of it still under way
(R353). The command that finds it otherwise changes nothing: the step stalls and is tried again. -/
def mayIssue (src : OpSrc) (code : Nat) (s : State) : Bool :=
  (match src with
  | .core k => coreReady s k && decide ((coreSt s k).out < 64)
  | .pair p => !s.safety.pairsOut.contains p
  | _ => true) && !(code == 6 && s.cores.outW.contains src)

/-- One remote operation, as a sequencer step or from another source (11 R349 to R353): `data` with its poisoned ranges is what a PUT carries. -/
def doOp (src : OpSrc) (code a v c n l : Nat) (data : Bytes) (poison : List (Nat × Nat × Nat)) (errs : List (Nat × Bytes)) (s : State) : State :=
  if !mayIssue src code s then s else
  let len := if code ≤ 1 then n else 8
  match addrError s src code a len l with
  | some e => addressError src e a l (returned code n) s
  | none =>
    if addrUnit a ≠ s.chain.unit then remoteOp src code a v c n l data poison s
    else
      let s := match src with | .core k => advance k s | _ => s
      let s := sendOn src a (if code = 1 then 0 else len) (returned code n) s
      let (s, r) := applyOp code a v c n data poison errs s
      deliver src l r s

/-- The bytes that a PUT carries (11 R350): a core's own, at its own offset; what another source sends is its own business. -/
def putData (src : OpSrc) (n l : Nat) (data : Bytes) (lerrs : List (Nat × Bytes)) (s : State) :
    Bytes × List (Nat × Nat × Nat) × List (Nat × Bytes × SillageOut) :=
  match src with
  | .core c => if localOk src 0 n l then codedRead s (coreAddr c l) n lerrs else ([], [], [])
  | _ => ((data ++ zeros n).take n, [], [])

/-- PUT (11 R350). -/
def execPut (t : Nat) (src : OpSrc) (addr n local_ : Nat) (data : Bytes) (lerrs errs : List (Nat × Bytes)) (s : State) : Out :=
  runAt t s fun s =>
    if !mayIssue src 0 s then s else
    let (b, ps, bad) := putData src n local_ data lerrs s
    doOp src 0 addr 0 0 n local_ b ps errs (sillageEvents bad s)

/-- GET (11 R350, R354). -/
def execGet (t : Nat) (src : OpSrc) (addr n local_ : Nat) (errs : List (Nat × Bytes)) (s : State) : Out :=
  runAt t s (doOp src 1 addr 0 0 n local_ [] [] errs)

/-- ATOMIC_ADD (11 R350). -/
def execAtomicAdd (t : Nat) (src : OpSrc) (addr v local_ : Nat) (errs : List (Nat × Bytes)) (s : State) : Out :=
  runAt t s (doOp src 2 addr v 0 8 local_ [] [] errs)

/-- ATOMIC_MAX (11 R350), unsigned or signed. -/
def execAtomicMax (t : Nat) (src : OpSrc) (addr v local_ : Nat) (isSigned : Bool) (errs : List (Nat × Bytes)) (s : State) : Out :=
  runAt t s (doOp src (if isSigned then 4 else 3) addr v 0 8 local_ [] [] errs)

/-- ATOMIC_CAS (11 R350). -/
def execAtomicCas (t : Nat) (src : OpSrc) (addr c v local_ : Nat) (errs : List (Nat × Bytes)) (s : State) : Out :=
  runAt t s (doOp src 5 addr v c 8 local_ [] [] errs)

/-- SIGNAL (11 R353). -/
def execSignal (t : Nat) (src : OpSrc) (addr v : Nat) (errs : List (Nat × Bytes)) (s : State) : Out :=
  runAt t s (doOp src 6 addr v 0 8 0 [] [] errs)

/-! ## Waits, loops and branches -/

/-- The FENCE step (11 R355): it waits, and is tried again, while an operation for another unit is outstanding; one within the unit is complete when
its command ends. -/
def fenceStep (c : CoreId) (s : State) : State :=
  let x := coreSt s c
  if !coreOk s c || x.stopped then s
  else if x.out = 0 then advance c (setCore c { x with waiting := false } s)
  else setCore c { x with waiting := true } s

/-- FENCE (11 R355). -/
def execFence (t : Nat) (c : CoreId) (s : State) : Out := runAt t s (fenceStep c)

/-- The signal word of a core, by index (11 R358). -/
def signalWord (s : State) (c : CoreId) (w : Nat) : Nat := leNat (memReads s.cores.mem (coreAddr c (327680 + 8 * (w % 512))) 8)

/-- The step of a WAIT_SIGNAL: it waits, and is tried again, until the word has reached the threshold. -/
def waitStep (c : CoreId) (w thr : Nat) (s : State) : State :=
  let x := coreSt s c
  if !coreOk s c || x.stopped then s
  else if thr ≤ signalWord s c w then advance c (setCore c { x with waiting := false } s)
  else setCore c { x with waiting := true } s

/-- WAIT_SIGNAL (11 R355). -/
def execWaitSignal (t : Nat) (c : CoreId) (w thr : Nat) (s : State) : Out := runAt t s (waitStep c w thr)

/-- The LOOP step at the end of a block: the block runs `count` times in all. -/
def loopStep (c : CoreId) (start count : Nat) (s : State) : State :=
  if !coreReady s c then s else
  let x := coreSt s c
  let left := lookupD (count - 1) x.pos x.loops
  if left = 0 then setCore c { x with pos := x.pos + 1, loops := eraseKey x.pos x.loops } s
  else setCore c { x with pos := start, loops := insertKey x.pos (left - 1) x.loops } s

/-- LOOP (11 R362). -/
def execLoop (t : Nat) (c : CoreId) (start count : Nat) (s : State) : Out := runAt t s (loopStep c start count)

/-- DEADLINE (11 R362, 05 R183, R184), on the optimisation that runs on the core; `inner` and `tries` are the inner iterations completed and the
retries taken in its outer iteration so far. -/
def deadlineStep (c : CoreId) (inner tries : Nat) (s : State) : State :=
  if !coreReady s c then s else
  match coreOpt s c with
  | some o => if deadlinePassed o s.dt then cutOpt o.wid o.idx (setOpt (atCut s o inner tries) (advance c s)) else advance c s
  | none => advance c s

/-- DEADLINE (11 R362). -/
def execDeadline (t : Nat) (c : CoreId) (inner tries : Nat) (s : State) : Out := runAt t s (deadlineStep c inner tries)

/-- RETRY (05 R178): back to the marked step after a failed pivot test; the third failure ends the optimisation that runs on the core with FACTOR_FAIL,
which counts the `inner` iterations completed in the outer iteration that it breaks off, their retries and its own two (R200). -/
def retryStep (c : CoreId) (mark inner : Nat) (s : State) : State :=
  if !coreReady s c then s else
  let x := coreSt s c
  if !x.pivotFailed then setCore c { x with pos := x.pos + 1, retries := 0 } s
  else if x.retries < 2 then setCore c { x with pos := mark, pivotFailed := false, retries := x.retries + 1 } s
  else
    let s := setCore c { x with pos := x.pos + 1, pivotFailed := false, retries := 0 } s
    match coreOpt s c with
    | some o =>
      let n := cutCounts s o inner 0
      setOpt { o with stop := some 5, stopFrame := s.frame.number, inner := o.inner + n.1, retries := o.retries + n.2 + 2 } s
    | none => s

/-- RETRY (05 R178). -/
def execRetry (t : Nat) (c : CoreId) (mark inner : Nat) (s : State) : Out := runAt t s (retryStep c mark inner)

/-- RING_LINK_FAILOVER (01 R31): the link's traffic moves to the hub route until the next reset of chip scope, no flit is lost or
delivered twice, and the link's uncorrectable source is raised. -/
def execRingLinkFailover (t link : Nat) (lostA lostB : List Nat) (s : State) : Out :=
  runAt t s fun s =>
    if link < 4 ∨ link > 7 ∨ s.cores.hubRoute.contains link then s else raise (129 + 2 * link) 0 0 (ringFail link lostA lostB s)

end Sys2Proof.Machine
end

