-- ==== Sys2Proof/Machine/Diag.lean ====
section
/-! DEFINITION. DIAG (09 R317, 10 R345): device memory to and from host buffers, and the snapshots. -/

namespace Sys2Proof.Machine

/-! ## Objects of SNAPSHOT -/

/-- A fault record (14 R426); `extra` is bit 7 of `entry`. -/
def frecBytes (r : FRec) (extra : Nat) : Bytes :=
  leBytes 8 r.dt ++ leBytes 8 r.addr ++ leBytes 8 r.syn ++ leBytes 2 r.src ++ leBytes 1 r.reactions ++ leBytes 1 (r.entry + extra) ++ leBytes 4 r.frame

/-- An entry of the substitution log (13 R404). -/
def subRecBytes (r : SubRec) : Bytes :=
  leBytes 1 (r.q / 16 + 1) ++ leBytes 1 (r.q % 16) ++ leBytes 1 r.phys ++ leBytes 1 r.pos ++ zeros 4 ++ leBytes 8 r.frame

/-- The object of a SNAPSHOT (09 R317): 0 fault log, 1 first-fault latch, 2 substitution log, 3 Net bank, 4 disabled-unit map. -/
def snapshotBytes (k : Nat) (s : State) : Bytes :=
  match k with
  | 0 => leBytes 8 s.fault.logCount ++ s.fault.log.flatMap (fun r => frecBytes r 0)
  | 1 => (match s.fault.latch with
    | some r => frecBytes r (128 * b2n s.fault.overflow)
    | none => zeros 32)
  | 2 => s.units.subLog.flatMap subRecBytes
  | 3 => (match s.net.newest with | some n => netBytes n | none => []) ++ (match s.net.previous with | some n => netBytes n | none => [])
  | _ => unitMapBytes s.units.fenced s.units.geoDisabled

/-! ## The checks -/

/-- The checks of a DIAG (09 R317). -/
def diagChecks (d : Taken) : List (Bool × Fail) :=
  let n := fld d 0x18 4
  [(fld d 0x10 8 % 32 != 0, badField 0x10), (decide (n < 32) || decide (n > 16777216) || n % 32 != 0, badField 0x18),
   (decide (fld d 0x1C 1 > 2), badField 0x1C), (fld d 0x1C 1 == 2 && decide (fld d 0x1D 1 > 4), badField 0x1D),
   reservedCheck d [(8, 8), (0x10, 8), (0x18, 4), (0x1C, 1), (0x1D, 1)]]

/-- The row of a DIAG: its `op`; an unknown one fails as READ's row. -/
def diag (d : Taken) (v : View) (op : Nat) (s : State) (k : State → State) : Out :=
  if fld d 0 1 = 0x0D ∧ fld d 0x1C 1 ≠ op ∧ ¬ (op = 0 ∧ fld d 0x1C 1 > 2) then runAt d.dt s id
  else acceptDesc d v { code := 0x0D, control := op == 1, anyStack := true } s fun s => withChecks d (diagChecks d) s k

/-- A DIAG completes with OK. -/
def diagOk (d : Taken) (s : State) : State := complete (takenHdr d) 0 (susFlag s) 0 0 none s

/-- A DIAG ends with a fault source. -/
def diagFault (d : Taken) (src addr : Nat) (s : State) : State :=
  complete (takenHdr d) 0x21 0 src 0 none (raise src addr addr s)

/-- The address error of a DIAG READ, if it has one (11 R349): any alignment and length will do. -/
def diagAddrError (s : State) (a n : Nat) : Option Nat :=
  if beyondChain s a then some 153
  else if (placeOf a).isNone || (placeOf (a + n - 1)).isNone then some 100
  else if addrUnit a = s.chain.unit ∧ ¬ destOk s .diag 1 a n then some 100
  else none

/-- The request of a DIAG for another unit leaves through the chain, and the DIAG completes with the answer (10 R345), or at once with ABORTED_FAULT
when the link that way is down (R343). -/
def diagSend (d : Taken) (code a n : Nat) (data : Bytes) (s : State) : State :=
  let port := if addrUnit a > s.chain.unit then 1 else 0
  let st := (portOf s port).state
  if st ≠ 2 ∧ st ≠ 3 then complete (takenHdr d) 0x21 0 (portSrc port 2) 0 none s
  else sendOp .diag s.nextWid code a 0 0 n data [] (addWork (mkWork d 0 (.diag (code == 0) (fld d 0x10 8) (addrUnit a)) s) s)

/-- The answer to a DIAG (10 R345, 11 R349): a READ's bytes go to its buffer, unless they are poisoned; a WRITE outside the staging region is a bad
`dev_addr`. -/
def diagAnswer (w : Work) (a : Nat) (err : Bool) (data : Bytes) (poison : List (Nat × Nat × Nat)) (s : State) : State :=
  match w.item with
  | .diag wr buf _ =>
    if !err then
      (match poison.head? with
      | some p => finishWork w 0x21 0 p.2.2 0 none s
      | none => finishWork w 0 (susFlag s) 0 0 none (if wr then s else hostWrite w.id s buf data))
    else if wr then finishWork w 0x10 0 8 0xFFFFFFFF none s
    else finishWork w 0x21 0 100 0 none (raise 100 a a s)
  | _ => s

/-- DIAG READ. Poisoned data never reaches the host: the DIAG completes with the source (DEDUCED from 14 R435, notes/assumptions/107.md). -/
def diagReadTo (d : Taken) (errs : List (Nat × Bytes)) (s : State) : State :=
  let a := fld d 8 8
  let n := fld d 0x18 4
  match diagAddrError s a n with
  | some e => diagFault d e a s
  | none =>
    if addrUnit a ≠ s.chain.unit then diagSend d 1 a n [] s
    else
      let (b, ps, bad) := codedRead s a n errs
      let s := sillageEvents bad s
      match ps.head? with
      | some p => complete (takenHdr d) 0x21 0 p.2.2 0 none s
      | none => diagOk d (hostWrite (takenId d) s (fld d 0x10 8) b)

/-- DIAG READ (09 R317). -/
def execDiagRead (d : Taken) (v : View) (errs : List (Nat × Bytes)) (s : State) : Out := diag d v 0 s (diagReadTo d errs)

/-- The target of a DIAG WRITE lies in the staging region (09 R317). -/
def inStaging (s : State) (a n : Nat) : Bool :=
  match placeOf a, placeOf (a + n - 1) with
  | some (.stack p), some (.stack _) =>
    addrUnit a != s.chain.unit || (decide (s.hostq.stageBase ≤ p) && decide (p + n ≤ s.hostq.stageBase + s.hostq.stageSize))
  | _, _ => false

/-- DIAG WRITE. -/
def diagWriteFrom (d : Taken) (v : View) (errs : List (Nat × Bytes)) (s : State) : State :=
  let a := fld d 8 8
  let n := fld d 0x18 4
  if beyondChain s a then diagFault d 153 a s
  else if !inStaging s a n then refuse d (badField 8) s
  else withRead d v (fld d 0x10 8) n s fun b s =>
    if addrUnit a = s.chain.unit then diagOk d (codedWrite a b errs s) else diagSend d 0 a n b s

/-- DIAG WRITE (09 R317, R304). -/
def execDiagWrite (d : Taken) (v : View) (errs : List (Nat × Bytes)) (s : State) : Out := diag d v 1 s (diagWriteFrom d v errs)

/-- DIAG SNAPSHOT (09 R317): an object larger than `bytes` fails with its size (02 R65). -/
def execDiagSnapshot (d : Taken) (v : View) (s : State) : Out :=
  diag d v 2 s fun s =>
    let b := snapshotBytes (fld d 0x1D 1) s
    if b.length > fld d 0x18 4 then refuse d (tooSmall b.length) s
    else diagOk d (hostWrite (takenId d) s (fld d 0x10 8) b)

end Sys2Proof.Machine
end

