-- ==== Sys2Proof/Machine/Engine.lean ====
section
/-! DEFINITION. ENGINE steps (11 R362): what each engine of a core computes from its core memory, and writes there: the vector engine (05
R165, R177, R178, 06 R213), the tensor engine (06 R205 to R209), the select engine (07 R241 to R244), the fetch and geometry engines (04
R134, R144). How an operation lays out its operands is the model's choice (notes/assumptions/23.md). -/

namespace Sys2Proof.Machine

/-- What an engine operation writes: byte strings at offsets of the core's memory, counts, and the pivot test. -/
structure EOut where
  writes : List (Nat × Bytes) := []
  sat : Nat := 0
  range : Nat := 0
  pivot : Option Bool := none

/-! ## Reads -/

/-- FP32 words of a core's memory. -/
def wordsAt (s : State) (c : CoreId) (off n : Nat) : List Nat :=
  (List.range n).map (fun i => leNat (coreReads s c (off + 4 * i) 4))

/-- Elements of a format in a core's memory. -/
def eltsAt (s : State) (c : CoreId) (f off n : Nat) : List Nat :=
  let b := coreReads s c off (eltBytes f n)
  (List.range n).map (eltAt f b)

/-- FP32 words as bytes. -/
def f32Bytes (l : List Nat) : Bytes := l.flatMap (leBytes 4)

/-! ## Vector engine -/

/-- The lane computes: the mask leaves it on. An empty mask masks nothing. -/
def laneOn (mask : List Bool) (i : Nat) : Bool := mask.getD i true

/-- The lanes of `n` that compute. -/
def lanesOn (mask : List Bool) (n : Nat) : List Nat := (List.range n).filter (laneOn mask)

/-- Bytes at rising places, joined where they follow one another. -/
def joinRuns : List (Nat × Byte) → List (Nat × Bytes)
  | [] => []
  | (k, x) :: r =>
    match joinRuns r with
    | (k', b) :: t => if k' = k + 1 then (k, x :: b) :: t else (k, [x]) :: (k', b) :: t
    | [] => [(k, [x])]

/-- Byte ranges from `a` of the lanes that compute, each `w` bits wide. -/
def laneReads (w a n : Nat) (mask : List Bool) : List (Nat × Nat) :=
  if mask.isEmpty then [(a, ceilDiv (n * w) 8)]
  else (lanesOn mask n).map (fun i => (a + i * w / 8, ((i + 1) * w + 7) / 8 - i * w / 8))

/-- A masked lane writes nothing (11 R362): the bytes of the others, with what stands in memory for a masked lane that shares a byte. -/
def laneWrites (f dst : Nat) (mask : List Bool) (old new : List Nat) : List (Nat × Bytes) :=
  let b := packElts f (new.zipIdx.map (fun x => if laneOn mask x.2 then x.1 else old.getD x.2 0))
  let w := fmtBits f
  if mask.isEmpty then [(dst, b)] else
  joinRuns ((b.zipIdx.filter (fun x => (List.range ((8 * x.2 + 7) / w + 1)).any (fun i =>
    decide (8 * x.2 / w ≤ i) && decide (i < new.length) && laneOn mask i))).map (fun x => (dst + x.2, x.1)))

/-- The same for FP32 words. -/
def wordWrites (dst : Nat) (mask : List Bool) (l : List Nat) : List (Nat × Bytes) :=
  if mask.isEmpty then [(dst, l.flatMap (leBytes 4))] else (l.zipIdx.filter (fun x => laneOn mask x.2)).map (fun x => (dst + 4 * x.2, leBytes 4 x.1))

/-- The values of the lanes that compute. -/
def onLanes (mask : List Bool) (l : List Nat) : List Nat := (l.zipIdx.filter (fun x => laneOn mask x.2)).map (fun x => x.1)

/-- Results of the computing lanes back at their places among `n`. -/
def toLanes (mask : List Bool) (n : Nat) (r : List Nat) : List Nat :=
  let on := lanesOn mask n
  (List.range n).map (fun i => match on.idxOf? i with | some k => r.getD k 0 | none => 0)

/-! ## Factorisation -/

/-- L as n × n FP32, then the pivots in FP64. -/
def ldltBytes (n : Nat) (x : Ldlt) : Bytes :=
  (x.l.flatMap (fun r => (List.range n).map (fun j => r.getD j 0))).flatMap (leBytes 4) ++ x.d.flatMap (leBytes 8)

/-! ## Tensor engine -/

/-- An accumulator as a tile leaves it for the next one (06 R208): 8 bytes exact for integers, FP32 otherwise. -/
def accBytes : Acc → Bytes
  | .int v => leBytes 8 (unsignedOf 64 v)
  | .fp w => leBytes 4 w

/-- The accumulator that an earlier tile left. -/
def accOf (isInt : Bool) (b : Bytes) : Acc := if isInt then .int (signed 64 (leNat b)) else .fp (leNat (b.take 4))

/-- Values of a 2:4 operand of `k` reduction indices (06 R211). -/
def sparseCount (k : Nat) : Nat := 2 * ceilDiv k 4

/-- Bytes of its 2-bit positions. -/
def posBytes (k : Nat) : Nat := ceilDiv (2 * sparseCount k) 8

/-! ## Geometry and fetch -/

/-- One query of a geometry engine against the flacon (04 R130, R133): lower end, upper end, verdict. -/
def geometryQuery (s : State) (x y z : Int) (radius dt margin : Nat) : Bytes :=
  let band := match s.accord with | some a => a.refineBand | none => 0
  let e : Int := ((2048 * (margin + band) : Nat) : Int)
  let (near, g) := nearHazards (frameHaz s) [toU (x, y, z)] ((2048 * radius : Nat) : Int) e
  let q : QEnv := { fl := s.world.fl, src := topSources s.world.fl, m := ((2048 * margin : Nat) : Int), e := e,
                    reduced := s.pwr.service == 2, near := near, g := g }
  let r := (evalQuery q (some (x, y, z)) radius dt 0 none none).1
  leBytes 4 (unsignedOf 32 (lo32 r.lo)) ++ leBytes 4 (unsignedOf 32 (hi32 r.hi)) ++ leBytes 4 r.verdict

/-! ## The step -/

/-- The k best of n keys (07 R241 to R244), as positions. -/
def selectKeys (kt order k : Nat) (keys : List Nat) : List Nat :=
  let l := (keys.zipIdx.filter (fun x => !keyNan kt x.1)).map (fun x =>
    ({ u := canon kt order x.1, index := x.2, pos := x.2, key := x.1 } : PEntry))
  (selectBest k l).entries.map (fun e => e.pos)

/-- What an operation reads of the core's memory, as offset and bytes; a masked lane of the vector engine reads nothing. -/
def engineReads (s : State) (c : CoreId) (mask : List Bool) : EngineOp → List (Nat × Nat)
  | .vector op n a b cc _ => ([a, b, cc].take (vecArity op)).flatMap (fun x => laneReads 32 x n mask)
  | .intVector op f n a b cc _ => ([a, b, cc].take (vecArity op)).flatMap (fun x => laneReads (fmtBits f) x n mask)
  | .table n f a lut _ => laneReads (fmtBits f) a n mask ++ (lanesOn mask n).map (fun i => (lut + (eltsAt s c f a n).getD i 0, 1))
  | .dot n a b _ => laneReads 32 a n mask ++ laneReads 32 b n mask
  | .ldlt n m _ _ _ => [(m, 4 * n * n)]
  | .tensor fa fb k a b pos carry _ _ _ _ _ =>
    [(a, eltBytes fa k), (b, eltBytes fb (if pos.isSome then sparseCount k else k))] ++ (pos.map (fun p => (p, posBytes k))).toList ++
    (carry.map (fun p => (p, if isIntFmt fa then 8 else 4))).toList
  | .layer _ ins _ => ins.map (fun i => (i.1, eltBytes i.2.1 (dims i.2.2)))
  | .softmax n a _ => laneReads 32 a n mask
  | .layernorm _ n a g b _ _ => [a, g, b].flatMap (fun x => laneReads 32 x n mask)
  | .scaleShift n a x y _ => [a, x, y].flatMap (fun x => laneReads 32 x n mask)
  | .pool _ n a _ _ => laneReads 32 a n mask
  | .gather n a i m _ => laneReads 32 i m mask ++
    (((onLanes mask (wordsAt s c i m)).map idxOf).filter (fun j => decide (0 ≤ j) && decide (j < (n : Int)))).map (fun j => (a + 4 * j.toNat, 4))
  | .scatter acc n a i m d => laneReads 32 a m mask ++ laneReads 32 i m mask ++ (if acc then
    (((onLanes mask (wordsAt s c i m)).map idxOf).filter (fun j => decide (0 ≤ j) && decide (j < (n : Int)))).map (fun j => (d + 4 * j.toNat, 4)) else [])
  | .resizeNearest n out a _ => (lanesOn mask out).map (fun i => (a + 4 * ((2 * i + 1) * n / (2 * out)), 4))
  | .resizeBilinear ix _ a _ => (lanesOn mask ix.length).flatMap (fun i => (ix.getD i []).map (fun j => (a + 4 * j, 4)))
  | .layout p w a _ => (lanesOn mask p.length).map (fun i => (a + w * p.getD i 0, w))
  | .cast fa _ n a _ => laneReads (fmtBits fa) a n mask
  | .select kt _ _ n a _ => [(a, keyBits kt / 8 * n)]
  | .fetch _ _ _ _ _ => []
  | .geometry _ _ _ _ _ _ _ => []

/-- One engine operation (11 R362). A masked lane of the vector engine takes no part: of an elementwise operation it writes nothing, of a reduction
over lanes it adds nothing (DEDUCED, notes/assumptions/23.md); the other engines, FACTOR and whole layers have no lanes. -/
def engineOut (s : State) (c : CoreId) (mask : List Bool) : EngineOp → EOut
  | .vector op n a b cc dst =>
    let xs := wordsAt s c a n
    let ys := wordsAt s c b n
    let zs := wordsAt s c cc n
    { writes := wordWrites dst mask ((List.range n).map (fun i => vecLane op (xs.getD i 0) (ys.getD i 0) (zs.getD i 0))) }
  | .intVector op f n a b cc dst =>
    let el (o : Nat) : List Int := (eltsAt s c f o n).map (fun w => ((fmtDecode f w).toIntRound).getD 0)
    let xs := el a
    let ys := el b
    let zs := el cc
    let r := (List.range n).map (fun i => if laneOn mask i then intLane op (xs.getD i 0) (ys.getD i 0) (zs.getD i 0) else some 0)
    if r.any (fun x => x.isNone) then {}
    else
      let o := putVals f (r.map (fun x => FVal.ofI (x.getD 0)))
      { writes := laneWrites f dst mask (eltsAt s c f dst n) o.data, sat := o.sat }
  | .table n f a lut dst =>
    let t := coreReads s c lut (2 ^ fmtBits f)
    { writes := laneWrites f dst mask (eltsAt s c f dst n) ((eltsAt s c f a n).map (fun x => (t.getD x 0).toNat)) }
  | .dot n a b dst => { writes := [(dst, leBytes 4 (dotF (onLanes mask (wordsAt s c a n)) (onLanes mask (wordsAt s c b n))))] }
  | .ldlt n m delta tau dst =>
    let x := ldltOf n (wordsAt s c m (n * n)) delta tau
    { writes := if x.bad then [] else [(dst, ldltBytes n x)], pivot := some x.bad }
  | .tensor fa fb k a b pos carry bias scale zero f dst =>
    let ws := match pos with
      | none => eltsAt s c fb b k
      | some p =>
        let pb := coreReads s c p (posBytes k)
        expand24 k (eltsAt s c fb b (sparseCount k)) ((List.range (sparseCount k)).map (fun i => bitsOf (fieldN pb (i / 4) 1) (2 * (i % 4)) 2))
    let start := match carry with
      | some p => accOf (isIntFmt fa) (coreReads s c p 8)
      | none => accStart (isIntFmt fa) bias
    let acc := accMore fa fb (eltsAt s c fa a k) ws start
    (match f with
    | some f => { writes := [(dst, packElts f [(accOut acc scale zero f).1])], sat := b2n (accOut acc scale zero f).2 }
    | none => { writes := [(dst, accBytes acc)] })
  | .layer d ins dst =>
    let o := layerOut d (ins.map (fun i => { fmt := i.2.1, shape := i.2.2, data := eltsAt s c i.2.1 i.1 (dims i.2.2) }))
    { writes := [(dst, packElts d.fmt o.data)], sat := o.sat, range := o.range }
  | .softmax n a dst => { writes := wordWrites dst mask (toLanes mask n (softmaxRow (onLanes mask (wordsAt s c a n)))) }
  | .layernorm rms n a g b eps dst =>
    let on (o : Nat) := onLanes mask (wordsAt s c o n)
    { writes := wordWrites dst mask (toLanes mask n (normRow rms (on a) (on g) (on b) eps)) }
  | .scaleShift n a x y dst =>
    let p := List.zipWith fmul (wordsAt s c a n) (wordsAt s c x n)
    { writes := wordWrites dst mask (List.zipWith fadd p (wordsAt s c y n)) }
  | .pool avg n a valid dst =>
    { writes := [(dst, leBytes 4 (poolWindow avg (wordsAt s c a n) ((List.range n).map (fun i => valid.getD i true && laneOn mask i))))] }
  | .gather n a i m dst =>
    let x := wordsAt s c a n
    let ix := (wordsAt s c i m).map idxOf
    let ok (j : Int) : Bool := decide (0 ≤ j) && decide (j < (n : Int))
    { writes := wordWrites dst mask (ix.map (fun j => if ok j then x.getD j.toNat 0 else 0)),
      range := (ix.zipIdx.filter (fun j => laneOn mask j.2 && !ok j.1)).length }
  | .scatter acc n a i m dst =>
    let ix := (onLanes mask (wordsAt s c i m)).map idxOf
    let vals := scatterRow acc (wordsAt s c dst n) (onLanes mask (wordsAt s c a m)) ix
    let hit (j : Nat) : Bool := !acc || ix.contains (j : Int)
    { writes := wordWrites dst ((List.range n).map hit) vals,
      range := (ix.filter (fun j => decide (j < 0) || decide (j ≥ (n : Int)))).length }
  | .resizeNearest n out a dst =>
    let x := wordsAt s c a n
    { writes := wordWrites dst mask ((List.range out).map (fun i => x.getD ((2 * i + 1) * n / (2 * out)) 0)) }
  | .resizeBilinear idx w a dst =>
    let x := wordsAt s c a (idx.foldl (fun m l => l.foldl max m) 0 + 1)
    { writes := wordWrites dst mask (List.zipWith (resizeElem x) idx w) }
  | .layout perm width a dst =>
    { writes := (lanesOn mask perm.length).map (fun i => (dst + width * i, coreReads s c (a + width * perm.getD i 0) width)) }
  | .cast fa fb n a dst =>
    let v := (eltsAt s c fa a n).map (fmtDecode fa)
    { writes := laneWrites fb dst mask (eltsAt s c fb dst n) (v.map (fmtEncode fb)),
      sat := (v.zipIdx.filter (fun x => laneOn mask x.2 && fmtSaturates fb x.1)).length }
  | .select kt order k n a dst =>
    let w := keyBits kt / 8
    let keys := (List.range n).map (fun i => leNat (coreReads s c (a + w * i) w))
    { writes := [(dst, f32Bytes (selectKeys kt order k keys))] }
  | .fetch kx ky kz e sl =>
    match checkBrick s.world.fl { x := kx, y := ky, z := kz } with
    | some b => { writes := [(slotOffset e sl, b)] }
    | none => {}
  | .geometry x y z r dt m dst => { writes := [(dst, geometryQuery s x y z r dt m)] }

/-- What an operation leaves in the run-ahead slots of its core. -/
def stagedAfter (op : EngineOp) (l : List (Nat × Nat × Key)) : List (Nat × Nat × Key) :=
  match op with
  | .fetch kx ky kz e sl => l.filter (fun x => !(x.1 == e % 8 && x.2.1 == sl % 16)) ++ [(e % 8, sl % 16, { x := kx, y := ky, z := kz })]
  | _ => l

/-- A range of the core's memory that is not wholly inside it (11 R358). -/
def outOfCore (r : Nat × Nat) : Bool := r.2 != 0 && decide (786432 < r.1 + r.2)

/-- Granules of a core's memory with errors, by number in it, as seen from an offset. -/
def errsFrom (off : Nat) (errs : List (Nat × Bytes)) : List (Nat × Bytes) :=
  (errs.filter (fun e => decide (off / 32 ≤ e.1))).map (fun e => (e.1 - off / 32, e.2))

/-- What the operation writes. -/
def engineWrites (c : CoreId) (op : EngineOp) (o : EOut) (errs : List (Nat × Bytes)) (s : State) : State :=
  let s := o.writes.foldl (fun s w => codedWrite (coreAddr c w.1) w.2 (errsFrom w.1 errs) s) s
  let x := coreSt s c
  setCore c { x with sat := x.sat + o.sat, range := x.range + o.range, pivotFailed := o.pivot.getD x.pivotFailed, staged := stagedAfter op x.staged } s

/-- The ENGINE step (11 R362): an operand that is poisoned, or read with an error that cannot be corrected, fails the work (14 R435); an offset beyond
the core's memory is an address error (DESIGN CHOICE, notes/assumptions/23.md). `errs` numbers granules of the core's memory. -/
def engineStep (c : CoreId) (mask : List Bool) (op : EngineOp) (errs : List (Nat × Bytes)) (s : State) : State :=
  if !coreReady s c then s else
  let reads := (engineReads s c mask op).filter (fun r => r.2 != 0)
  let o := engineOut s c mask op
  match (reads ++ o.writes.map (fun w => (w.1, w.2.length))).find? outOfCore with
  | some r => addressError (.core c) 100 (coreAddr c r.1) 0 0 s
  | none =>
    let g0 := coreAddr c 0 / 32
    let bad := (faultyGranules s (coreAddr c 0) 786432 errs).filter (fun g =>
      reads.any (fun r => decide (r.1 < 32 * (g.1 - g0) + 32) && decide (32 * (g.1 - g0) < r.1 + r.2)))
    let src := match bad.find? (fun g => g.2.2 == .uncorrectable) with
      | some g => some (sillageSrc (32 * g.1))
      | none => reads.findSome? (fun r => poisonIn s (coreAddr c r.1) r.2)
    let s := sillageEvents bad (advance c s)
    match src with
    | some i => consumePoison c i s
    | none => engineWrites c op o errs s

/-- ENGINE (11 R362). -/
def execEngine (t : Nat) (c : CoreId) (mask : List Bool) (op : EngineOp) (errs : List (Nat × Bytes)) (s : State) : Out :=
  runAt t s (engineStep c mask op errs)

end Sys2Proof.Machine
end

