-- ==== Sys2Proof/Machine/Regs.lean ====
section
/-! DEFINITION. The set-up registers (17): what each reads, what a write does, reads that clear, 64-bit pairs (R504), the MSI-X table of
BAR0 (09 R296), and BAR2 (R297). -/

namespace Sys2Proof.Machine

/-! ## Derived values -/

/-- A fault source's configuration is weaker than its default (17 R524). -/
def weakened (i : Nat) (x : Src) : Bool :=
  match srcDefault i with
  | none => false
  | some (n, w, _, sev) => !x.en || (bitOf sev 6 && !bitOf x.sev 6) || decide (x.n > n) || decide (x.w < w)

/-- The collector is not weakened (15 R465, R553). -/
def collectorKept (s : State) : Bool := s.fault.srcs.zipIdx.all (fun x => !inUse s x.2 || !weakened x.2 x.1)

/-- SAFETY_STATUS.COND_MET (15 R463, R465). -/
def condMet (s : State) : Bool :=
  let c := s.safety.ctrl
  decide (s.frame.period ≤ 1000) && c.goldenEn && c.injectEn && c.scrubEn && c.dualNetworks && c.certDual && s.safety.startupDone &&
  (match s.accord with
  | some a => decide (a.w0 + (a.goldenSlot + 4) * planInterval a ≤ 450000) && a.nets.all (fun n => n.role != .forecast || n.safety)
  | none => false) &&
  (match s.net.cfg with | some n => inN 1000 n.hostHbUs 1450 && inN 100 n.drvHbUs 1450 | none => false) && collectorKept s

/-- Bricks with a valid sealed or open copy (17 R518). -/
def liveBricks (w : World) : Nat := (w.index.filter (fun p => !p.2.tomb && ((sealedPtr p.2).isSome || p.2.isOpen))).length

/-- Scheduled Atomiser backlog in us (03 R99, 17 R518), saturating; the rule gives no rounding to whole us, the model rounds down (DESIGN CHOICE,
notes/assumptions/111.md). -/
def backlogUs (s : State) : Nat := min ((s.world.lastC - s.dt) / 1000) 65535

/-- Grade levels in degrees (16 R481): warning, junction limit, trip. -/
def gradeLevels (g : Nat) : Nat × Nat × Nat := if g = 0 then (90, 95, 105) else (100, 105, 115)

/-- Threads that satisfy a test. -/
def countThreads (s : State) (f : Thread → Bool) : Nat := (s.ringm.threads.filter (fun x => f x.2)).length

/-- Bits of the sources of word `w` that satisfy a test (17 R523). -/
def srcWord (s : State) (w : Nat) (f : Src → Bool) : Nat :=
  bitSet ((List.range 32).filter (fun b => decide (32 * w + b < 416) && f (srcOf s (32 * w + b))))

/-- Clusters whose spare satisfies a test (17 R529). -/
def spareBits (s : State) (f : Spare → Bool) : Nat := bitSet ((List.range 64).filter (fun q => f (spareOf s q)))

def lowHalf (v : Nat) : Nat := v % 2 ^ 32
def highHalf (v : Nat) : Nat := v / 2 ^ 32 % 2 ^ 32

/-- Bytes packed little-end first. -/
def packBytes (l : List Nat) : Nat := leNat (l.map byteOf)

/-! ## Pairs -/

/-- The 64-bit quantity whose low half lies at an offset (17 R504). -/
def pairVal (s : State) (off : Nat) : Option Nat :=
  match off with
  | 0x0000C => some (Config.idSerial % 2 ^ 64)
  | 0x10008 => some s.boot.imgAddr
  | 0x40080 => some s.hostq.dbLeaf
  | 0x40088 => some s.hostq.dbMid
  | 0x40090 => some s.hostq.dbTop
  | 0x40098 => some s.hostq.bar2Base
  | 0x400A0 => some s.hostq.stageBase
  | 0x400A8 => some s.hostq.stageSize
  | 0x6000C => some s.frame.number
  | 0x60014 => some s.frame.tickDt
  | 0x6001C => some s.dt
  | 0x80010 => some s.net.fireDt
  | 0xA00CC => some (srcOf s s.fault.sel).winStart
  | 0xC000C => some s.det.logBase
  | 0xC0014 => some s.det.headAddr
  | 0xC001C => some s.det.tcTotal
  | 0xC0034 => some (unitMapDigest s)
  | 0xD0008 => some (bitSet s.units.fenced)
  | 0xD0010 => some (spareBits s (fun x => match x with | .used _ => true | _ => false))
  | 0xD0018 => some (spareBits s (fun x => x == .failed))
  | _ => none

/-- Pairs that software writes. -/
def pairWritable (off : Nat) : Bool := [0x10008, 0x40080, 0x40088, 0x40090, 0x40098, 0xC000C, 0xC0014].contains off

/-- A committed write of a pair (17 R514, R528). -/
def writePair (off v : Nat) (s : State) : State :=
  match off with
  | 0x10008 => { s with boot := { s.boot with imgAddr := v } }
  | 0x40080 => if s.hostq.pollEn then s else { s with hostq := { s.hostq with dbLeaf := v } }
  | 0x40088 => if s.hostq.pollEn then s else { s with hostq := { s.hostq with dbMid := v } }
  | 0x40090 => if s.hostq.pollEn then s else { s with hostq := { s.hostq with dbTop := v } }
  | 0x40098 => { s with hostq := { s.hostq with bar2Base := v / 2 ^ 28 * 2 ^ 28 } }
  | 0xC000C => if s.det.logEn then s else { s with det := { s.det with logBase := v } }
  | 0xC0014 => if s.det.logEn then s else { s with det := { s.det with headAddr := v } }
  | _ => s

/-- Writes to these registers are ignored on a unit other than unit 0 (17 R506, 02 R38). -/
def headOnly (off : Nat) : Bool :=
  off / 65536 == 4 || off == 0x50000 || off == 0x50014 || off == 0x50018 || off == 0x5001C || off == 0x60000

/-- A write of X_LO is held (17 R504). -/
def holdLow (off val : Nat) (s : State) : State := { s with lo := insertKey off (val % 2 ^ 32) s.lo }

/-- A write of X_HI commits the pair, with the held or the current low half (17 R504). -/
def commitPair (off val : Nat) (s : State) : State :=
  let low := match lookupO off s.lo with | some l => l | none => lowHalf ((pairVal s off).getD 0)
  writePair off (low + 2 ^ 32 * (val % 2 ^ 32)) { s with lo := eraseKey off s.lo }

/-- A write at the offset of an X_HI. -/
def writeHigh (off val : Nat) (s : State) : State :=
  if off < 4 ∨ !pairWritable (off - 4) ∨ (!s.chain.head && headOnly off) then s else commitPair (off - 4) val s

/-- PAIR_HI_WRITE (17 R504). -/
def execPairHiWrite (t off val : Nat) (s : State) : Out := runAt t s (writeHigh off val)

/-! ## Reads -/

/-- SAFETY_CTRL as read (15 R462): the last value written. -/
def safetyBits (c : SafetyCtrl) : Nat :=
  b2n c.goldenEn + 2 * b2n c.dualNetworks + 4 * b2n c.injectEn + 8 * b2n c.scrubEn + 16 * b2n c.certDual

def readBoot (s : State) (o : Nat) : Nat :=
  match o with
  | 0x04 => s.boot.resetCause + 8 * b2n s.boot.authFail + 16 * b2n s.boot.strapErr + 32 * s.boot.slot + 128 * b2n s.boot.stage2 +
      256 * s.boot.bootSrc + 1024 * b2n s.boot.imgErr + 2 ^ 16 * (s.boot.imgRollback % 256) + 2 ^ 24 * (s.boot.otpRollback % 128)
  | 0x10 => s.boot.imgLen
  | _ => 0

def readPwr (s : State) (o : Nat) : Nat :=
  if 0x10 ≤ o ∧ o ≤ 0x34 then
    let x := railOf s ((o - 0x10) / 4)
    let (w, r) := x.held.getD (x.warnPct, x.resetPct)
    w + 256 * r + 2 ^ 16 * b2n x.err
  else match o with
  | 0x00 => s.pwr.limitNext
  | 0x04 => b2n s.pwr.belowPlan + 2 * b2n s.pwr.overLimit + 4 * b2n s.pwr.limitErr + 8 * b2n s.pwr.refused + 16 * s.pwr.service +
      2 ^ 16 * (s.pwr.fFrame % 2048)
  | 0x08 => s.pwr.draw % 65536 + 2 ^ 16 * (s.pwr.peak % 65536)
  | 0x0C => packBytes s.pwr.vset
  | _ => 0

def readClk (s : State) (o : Nat) : Nat :=
  match o with
  | 0x00 => b2n s.clk.hubLock + 2 * b2n s.clk.ref25 + 4 * b2n s.clk.refclk + 16 * (s.clk.dieLock % 16)
  | 0x04 => packBytes s.clk.die
  | _ => 0

def readHostq (s : State) (o : Nat) : Nat :=
  if 0x40 ≤ o ∧ o < 0x80 then s.hostq.data.getD ((o - 0x40) / 4) 0
  else match o with
  | 0x00 => b2n s.hostq.pollEn
  | 0x04 => b2n s.hostq.noAtomic + 2 ^ 8 * s.hostq.badTail + 2 ^ 16 * s.hostq.badHead + 2 ^ 24 * s.hostq.bar2Drop
  | 0x0C => s.hostq.ctxIndex
  | 0x10 => b2n (decide (s.dt < s.hostq.busyUntil)) + 2 * b2n s.hostq.overrun + 4 * b2n s.hostq.refused
  | 0xB0 => s.hostq.ctxTable
  | _ => 0

def readChain (s : State) (o : Nat) : Nat :=
  match o with
  | 0x04 => s.chain.state + 8 * b2n s.chain.refused + 16 * b2n s.chain.overflow + 256 * s.chain.unitCount + 4096 * s.chain.gen +
      2 ^ 16 * bitSet s.chain.remoteFault
  | 0x08 => s.chain.unit + 8 * b2n s.chain.addressed + 16 * b2n s.chain.head
  | 0x0C => s.chain.up.state
  | 0x10 => s.chain.dn.state
  | 0x14 => s.chain.raccOffset + 2 ^ 24 * s.chain.raccUnit
  | 0x18 => s.chain.raccData
  | 0x1C => 256 * b2n s.chain.raccBusy + 512 * b2n s.chain.raccErr
  | _ => 0

def readFrame (s : State) (o : Nat) : Nat :=
  match o with
  | 0x00 => s.frame.periodNext
  | 0x04 => b2n s.frame.sealAutoNext
  | 0x08 => b2n s.frame.periodErr + 2 * b2n s.frame.planShort + 4 * b2n s.frame.ticking + 2 ^ 16 * s.frame.overruns
  | _ => 0

def readMap (s : State) (o : Nat) : Nat :=
  let w := s.world
  match o with
  | 0x00 => unsignedOf 32 w.fl.ox
  | 0x04 => unsignedOf 32 w.fl.oy
  | 0x08 => unsignedOf 32 w.windowZ
  | 0x0C => let (a, b, c) := w.fcastNext.getD (w.stepMs, w.slices, w.hard)
            a + 2 ^ 8 * b + 2 ^ 16 * c
  | 0x10 => backlogUs s + 2 ^ 16 * b2n w.fcastErr + 2 ^ 17 * b2n w.zErr + 2 ^ 18 * b2n w.sealedOnce
  | 0x14 => w.fl.epoch
  | 0x18 => w.dirty.length
  | 0x1C => liveBricks w
  | 0x20 => w.fl.prims.length + 2 ^ 16 * w.hazards.length
  | 0x24 => w.poolAt % 256 + 256 * (w.indexAt % 256)
  | _ => 0

def readNet (s : State) (o : Nat) : Nat :=
  match o with
  | 0x00 => s.net.state + 4 * b2n s.net.vRaised + 256 * s.net.lastSource + 2 ^ 16 * s.net.refire
  | 0x04 => s.net.chA.drvStatus
  | 0x08 => s.net.chB.drvStatus
  | 0x0C => s.net.chA.drvState + 256 * s.net.chB.drvState
  | 0x18 => b2n (s.net.chA.pad.getD s.net.padA) + 2 * b2n (s.net.chB.pad.getD s.net.padB) + 4 * b2n s.net.chA.req + 8 * b2n s.net.chB.req
  | _ => 0

def readRingm (s : State) (o : Nat) : Nat :=
  match o with
  | 0x00 => s.ringm.late + 2 ^ 16 * min s.ringm.deferrals 255
  | 0x04 => countThreads s (fun x => x.state != 0) + 2 ^ 16 * countThreads s (fun x => x.state == 2)
  | 0x08 => bitSet ((List.range 8).filter (fun p => (runningOf s p).isNone))
  | _ => 0

def readFault (s : State) (o : Nat) : Nat :=
  let f := s.fault
  let x := srcOf s f.sel
  if o ≤ 0x30 then srcWord s (o / 4) (fun x => x.sticky)
  else if 0x40 ≤ o ∧ o ≤ 0x70 then srcWord s ((o - 0x40) / 4) (fun x => x.severe)
  else if 0x80 ≤ o ∧ o ≤ 0xB0 then srcWord s ((o - 0x80) / 4) (fun x => x.pin)
  else match o with
  | 0xC0 => f.sel
  | 0xC4 => b2n x.en + 2 * b2n x.latch + 4 * x.n + 2 ^ 10 * x.w + 2 ^ 15 * x.minor + 2 ^ 22 * x.sev
  | 0xC8 => x.count + 2 ^ 8 * b2n x.sticky + 2 ^ 9 * b2n x.severe + 2 ^ 10 * b2n x.pin + 2 ^ 16 * x.total
  | 0xD8 => b2n f.latch.isSome + 2 * b2n f.overflow + 2 ^ 16 * (match f.latch with | some r => r.src | none => 0)
  | 0xDC => f.nmiPairs
  | 0xE0 => f.minorVec + 2 ^ 16 * f.severeVec
  | 0xE4 => f.evtVec + 2 ^ 16 * b2n f.evtEn
  | 0xE8 => b2n f.cfgErr + 2 * b2n (faultN s)
  | _ => 0

def readSafety (s : State) (o : Nat) : Nat :=
  match o with
  | 0x00 => safetyBits s.safety.next
  | 0x04 => b2n (condMet s) + 2 * b2n s.safety.suspect + 4 * b2n s.safety.startupDone + 8 * b2n (carouselBusy s) + 16 * b2n s.safety.refused +
      2 ^ 8 * bitSet s.safety.pairsOut
  | 0x08 => s.safety.goldenResult + 2 ^ 8 * s.safety.goldenSet + 2 ^ 16 * s.safety.firstDiff
  | 0x0C => bitSet (s.safety.injFailed.map injKind)
  | _ => 0

def readDet (s : State) (o : Nat) : Nat :=
  let d := s.det
  match o with
  | 0x00 => b2n d.logEn + 4 * d.levelNext
  | 0x04 => b2n d.logEn + 2 ^ 8 * d.dropped
  | 0x08 => d.logSize
  | 0x24 => d.tcHazard
  | 0x28 => d.tcDeadline
  | 0x2C => d.tcDefer
  | 0x30 => d.tcSupply
  | _ => 0

def readUnits (s : State) (o : Nat) : Nat :=
  match o with
  | 0x00 => bitSet s.units.disabledFn
  | 0x04 => bitSet (s.units.draining.map (fun x => x.1))
  | 0x20 => (clustersUp s).length + 2 ^ 16 * ((clustersUp s).foldl (fun n q => n + (geoEngines s q).length) 0)
  | _ => 0

def readTemp (s : State) (o : Nat) : Nat :=
  let t := s.temp
  if o < 0x24 then unsignedOf 16 (t.temps.getD (o / 4) 0) + 2 ^ 16 * b2n (t.warn.getD (o / 4) false) + 2 ^ 17 * b2n (t.lim.getD (o / 4) false)
  else match o with
  | 0x24 => packBytes t.fcap
  | 0x28 => let (a, b, c) := gradeLevels s.grade
            a + 2 ^ 8 * b + 2 ^ 16 * c
  | 0x2C => b2n (t.warn.any id) + 2 * b2n t.tripped
  | _ => 0

def readId (s : State) (o : Nat) : Nat :=
  match o with
  | 0x00 => Config.idVendor % 65536 + 65536 * (Config.idSubsysVendor % 65536)
  | 0x04 => 0x4512 + 65536 * (Config.idSubsys % 65536)
  | 0x08 => Config.idStepping % 256 + 256 * s.grade
  | 0x14 => s.boot.fwVersion
  | _ => 0

/-- A word of the standard header of configuration space (09 R294): device and vendor ID, class code 0x12_0000, subsystem IDs; the IDs are those of the
ID block. Their places in the header are PCIe's (PRESUMED, notes/assumptions/110.md). -/
def configWord (s : State) (off : Nat) : Nat :=
  match off with
  | 0x00 => Config.idVendor % 65536 + 65536 * (readId s 4 % 65536)
  | 0x08 => 0x120000 * 256 + Config.idStepping % 256
  | 0x2C => Config.idSubsysVendor % 65536 + 65536 * (Config.idSubsys % 65536)
  | _ => 0

/-- The value of a BAR0 word without the side effects of a read (17 R503; the MSI-X table and pending bits, 09 R296). -/
def regVal (s : State) (off : Nat) : Nat :=
  if 0xF00000 ≤ off ∧ off < 0xF08000 then
    let i := (off - 0xF00000) / 4
    lookupD (if i % 4 = 3 then 1 else 0) i s.pcie.msixTable
  else if 0xF80000 ≤ off ∧ off < 0xF80100 then
    bitSet ((List.range 32).filter (fun b => s.pcie.msixPending.contains (8 * (off - 0xF80000) + b)))
  else match pairVal s off, (if off < 4 then none else pairVal s (off - 4)) with
  | some v, _ => lowHalf v
  | none, some v => highHalf v
  | none, none =>
    let o := off % 65536
    match off / 65536 with
    | 0x0 => readId s o
    | 0x1 => readBoot s o
    | 0x2 => readPwr s o
    | 0x3 => readClk s o
    | 0x4 => readHostq s o
    | 0x5 => readChain s o
    | 0x6 => readFrame s o
    | 0x7 => readMap s o
    | 0x8 => readNet s o
    | 0x9 => readRingm s o
    | 0xA => readFault s o
    | 0xB => readSafety s o
    | 0xC => readDet s o
    | 0xD => readUnits s o
    | 0xE => readTemp s o
    | _ => 0

/-- Fields that a read clears (00 R11: RC). -/
def clearOnRead (off : Nat) (s : State) : State :=
  match off with
  | 0x20008 => { s with pwr := { s.pwr with peak := 0 } }
  | 0x40004 => { s with hostq := { s.hostq with badTail := 0, badHead := 0, bar2Drop := 0 } }
  | 0x90000 => ringSettled { s with ringm := { s.ringm with late := 0 } }
  | _ => s

/-- A read of one BAR0 word (00 R11, 17 R504): a captured X_HI answers once; a read of X_LO captures X_HI. -/
def regRead (off : Nat) (s : State) : Nat × State :=
  match lookupO off s.hi with
  | some v => (v, { s with hi := eraseKey off s.hi })
  | none =>
    match pairVal s off with
    | some v => (lowHalf v, { s with hi := insertKey (off + 4) (highHalf v) s.hi })
    | none => (regVal s off, clearOnRead off s)

/-- The host receives the data of a read. -/
def hostRead32 (off : Nat) (s : State) : State :=
  if !endpointUp s then s else
  let (v, s) := regRead off s
  { s with pcie := { s.pcie with readData := [v], readOk := true, poisoned := false } }

/-- REGISTER_READ_CLEAR (00 R11). -/
def execRegisterReadClear (t off : Nat) (s : State) : Out := runAt t s (hostRead32 (off / 4 * 4))

/-- PAIR_LO_READ (17 R504). -/
def execPairLoRead (t off : Nat) (s : State) : Out := runAt t s fun s => if (pairVal s off).isSome then hostRead32 off s else s

/-! ## Writes -/

/-- A write of FRAME_PERIOD (02 R37, R38). -/
def writePeriod (val : Nat) (s : State) : State :=
  let v := val % 2 ^ 14
  if !s.chain.head then s
  else if v < 500 ∨ v > 10000 then { s with frame := { s.frame with periodErr := true } }
  else { s with frame := { s.frame with periodNext := v } }

/-- FRAME_PERIOD_WRITE (02 R37). -/
def execFramePeriodWrite (t val : Nat) (s : State) : Out := runAt t s (writePeriod val)

/-- A write of MAP_WINDOW_Z (17 R519, 00 R11 RW1). -/
def writeWindowZ (val : Nat) (s : State) : State :=
  let z := signed 32 (val % 2 ^ 32)
  if s.world.sealedOnce ∨ z < -16384 ∨ z > 16352 then { s with world := { s.world with zErr := true } }
  else if s.world.windowZWritten then s
  else { s with world := { s.world with windowZWritten := true, windowZ := z, fl := { s.world.fl with oz := z } } }

/-- MAP_WINDOW_Z_WRITE (17 R519). -/
def execMapWindowZWrite (t val : Nat) (s : State) : Out := runAt t s (writeWindowZ val)

/-- A write of MAP_FORECAST (17 R519). -/
def writeForecast (val : Nat) (s : State) : State :=
  let a := val % 256
  let b := bitsOf val 8 5
  if a < 10 ∨ a > 200 ∨ b < 1 ∨ b > 16 then { s with world := { s.world with fcastErr := true } }
  else { s with world := { s.world with fcastNext := some (a, b, bitsOf val 16 8) } }

/-- MAP_FORECAST_WRITE (17 R519). -/
def execMapForecastWrite (t val : Nat) (s : State) : Out := runAt t s (writeForecast val)

/-- A write of DET_CTRL.LOG_EN (13 R413, 17 R527, R528). -/
def writeLogEn (on : Bool) (s : State) : State :=
  let d := s.det
  if !on then { s with det := { d with logEn := false } }
  else if d.logEn ∨ d.logSize < 8 ∨ d.logSize > 24 ∨ d.logBase % 64 ≠ 0 ∨ d.headAddr % 4 ≠ 0 then s
  else { s with det := { d with logEn := true, dropped := 0, droppedSince := 0, written := 0 } }

/-- LOG_EN_WRITE (17 R528). -/
def execLogEnWrite (t : Nat) (on : Bool) (s : State) : Out := runAt t s (writeLogEn on)

/-- A write of PWR_CTRL (16 R479, 17 R506). -/
def writePwrCtrl (val : Nat) (s : State) : State :=
  let s := writeLimitW (val % 256) s
  let s := if bitOf val 8 then requestDormant (s.chain.unitCount == 1 || Config.othersAtRest s.fresh) (bumpFresh s) else s
  if bitOf val 9 then requestWake s else s

/-- A write of BOOT_CTRL (17 R508): the bits act in ascending order. -/
def writeBootCtrl (val : Nat) (s : State) : State :=
  let s := if bitOf val 0 then writeGo s else s
  let s := if bitOf val 2 then commitRollback s else s
  if bitOf val 1 then requestChipReset s else s

/-- A write of HOSTQ_CTX_CMD (09 R302). -/
def writeCtxCmd (val : Nat) (s : State) : State :=
  let dur := Config.busyNs s.fresh
  let s := bumpFresh s
  match val % 8 with
  | 1 => ctxCommand dur ctxDoWrite s
  | 2 => ctxCommand dur ctxDoRead s
  | 3 => ctxCommand dur ctxDoEnable s
  | 4 => ctxCommand dur ctxDoDisable s
  | _ => ctxBadCommand s

/-- A write to a HOSTQ register. -/
def writeHostq (o val : Nat) (s : State) : State :=
  let q := s.hostq
  if 0x40 ≤ o ∧ o < 0x80 then { s with hostq := { q with data := modifyAt (fun _ => val) ((o - 0x40) / 4) q.data } }
  else match o with
  | 0x00 => writePollEn (bitOf val 0) s
  | 0x04 => if bitOf val 0 then { s with hostq := { q with noAtomic := false } } else s
  | 0x08 => writeCtxCmd val s
  | 0x0C => { s with hostq := { q with ctxIndex := val % 2 ^ 20 } }
  | 0x10 => if bitOf val 1 then { s with hostq := { q with overrun := false } } else s
  | _ => s

/-- A write to a CHAIN register but CHAIN_RACC_CTRL.OP (17 R515, R516). -/
def writeChain (o val : Nat) (s : State) : State :=
  let c := s.chain
  match o with
  | 0x00 => if bitOf val 0 then writeEnumStart s else s
  | 0x04 => if bitOf val 3 then { s with chain := { c with refused := false } } else s
  | 0x14 => if c.raccBusy then s else { s with chain := { c with raccOffset := val % 2 ^ 24, raccUnit := bitsOf val 24 3 } }
  | 0x18 => if c.raccBusy then s else { s with chain := { c with raccData := val } }
  | 0x1C => if bitOf val 9 then { s with chain := { c with raccErr := false } } else s
  | _ => s

/-- A write to a FAULT register (17 R523, R524). -/
def writeFault (o val : Nat) (s : State) : State :=
  let f := s.fault
  if o ≤ 0x30 then clearWord (o / 4) val s
  else match o with
  | 0xC0 => if val % 512 > 415 then s else { s with fault := { f with sel := val % 512 } }
  | 0xC4 => writeSrcCfg val s
  | 0xD4 => if bitOf val 0 then clearLatch s else s
  | 0xDC => { s with fault := { f with nmiPairs := val % 256 } }
  | 0xE0 => { s with fault := { f with minorVec := val % 2048, severeVec := bitsOf val 16 11 } }
  | 0xE4 => { s with fault := { f with evtVec := val % 2048, evtEn := bitOf val 16 } }
  | 0xE8 => if bitOf val 0 then { s with fault := { f with cfgErr := false } } else s
  | _ => s

/-- A write of SAFETY_CTRL (15 R462, R457): in force from the next tick. -/
def writeSafetyCtrl (val : Nat) (s : State) : State :=
  let s := { s with safety := { s.safety with next :=
    { goldenEn := bitOf val 0, dualNetworks := bitOf val 1, injectEn := bitOf val 2, scrubEn := bitOf val 3, certDual := bitOf val 4 } } }
  if bitOf val 5 then carouselRun s else s

/-- A write of DET_CTRL (17 R527). -/
def writeDetCtrl (val : Nat) (s : State) : State :=
  let l := bitsOf val 2 2
  let s := if l = 0 then s else { s with det := { s.det with levelNext := l } }
  if bitOf val 0 = s.det.logEn then s else writeLogEn (bitOf val 0) s

/-- A write to the MSI-X table (09 R296): an unmasked vector with its pending bit set sends its message. -/
def writeMsix (i val : Nat) (s : State) : State :=
  let s := { s with pcie := { s.pcie with msixTable := insertKey i val s.pcie.msixTable } }
  let v := i / 4
  if i % 4 = 3 ∧ !bitOf val 0 ∧ s.pcie.msixPending.contains v then
    sendMsix v { s with pcie := { s.pcie with msixPending := s.pcie.msixPending.filter (fun x => x != v) } }
  else s

/-- A write to a register that is no half of a pair. -/
def writeWord (off val : Nat) (s : State) : State :=
  let o := off % 65536
  match off / 65536 with
  | 0x1 => (match o with
    | 0x00 => writeBootCtrl val s
    | 0x04 => if bitOf val 10 then { s with boot := { s.boot with imgErr := false } } else s
    | 0x10 => { s with boot := { s.boot with imgLen := val % 2 ^ 20 } }
    | _ => s)
  | 0x2 =>
    if 0x10 ≤ o ∧ o ≤ 0x34 then writeRailThr ((o - 0x10) / 4) val s
    else (match o with
    | 0x00 => writePwrCtrl val s
    | 0x04 => { s with pwr := { s.pwr with overLimit := s.pwr.overLimit && !bitOf val 1, limitErr := s.pwr.limitErr && !bitOf val 2,
                                           refused := s.pwr.refused && !bitOf val 3 } }
    | _ => s)
  | 0x4 => writeHostq o val s
  | 0x5 => writeChain o val s
  | 0x6 => (match o with
    | 0x00 => writePeriod val s
    | 0x04 => { s with frame := { s.frame with sealAutoNext := bitOf val 0 } }
    | 0x08 => if bitOf val 0 then { s with frame := { s.frame with periodErr := false } } else s
    | _ => s)
  | 0x7 => (match o with
    | 0x08 => writeWindowZ val s
    | 0x0C => writeForecast val s
    | 0x10 => { s with world := { s.world with fcastErr := s.world.fcastErr && !bitOf val 16, zErr := s.world.zErr && !bitOf val 17 } }
    | _ => s)
  | 0xA => writeFault o val s
  | 0xB => (match o with
    | 0x00 => writeSafetyCtrl val s
    | 0x04 => if bitOf val 4 then { s with safety := { s.safety with refused := false } } else s
    | _ => s)
  | 0xC => (match o with
    | 0x00 => writeDetCtrl val s
    | 0x08 => if s.det.logEn then s else { s with det := { s.det with logSize := val % 32 } }
    | _ => s)
  | _ => s

/-- A write of one BAR0 word: read-only fields ignore it (00 R11), and so do unlisted offsets (17 R503). -/
def regWrite (off val : Nat) (s : State) : State :=
  if !s.chain.head && headOnly off then s
  else if 0xF00000 ≤ off ∧ off < 0xF08000 then writeMsix ((off - 0xF00000) / 4) val s
  else if pairWritable off then holdLow off val s
  else if 4 ≤ off ∧ pairWritable (off - 4) then writeHigh off val s
  else writeWord off val s

/-! ## Indirect access to other units -/

/-- The unit that CHAIN_RACC_ADDR names can be reached, and no access is in progress. -/
def raccStart (s : State) (val : Option Nat) (k : State → State) : State :=
  if !s.chain.head || s.chain.raccBusy then s
  else if s.chain.raccUnit ≥ s.chain.unitCount then { s with chain := { s.chain with raccErr := true } }
  else if s.chain.raccUnit = 0 then k s
  else sendFlit 1 (.racc s.chain.raccUnit s.chain.raccOffset val) { s with chain := { s.chain with raccBusy := true, raccStart := s.dt } }

/-- A write of 1 to CHAIN_RACC_CTRL.OP (10 R344). -/
def raccRead (s : State) : State :=
  raccStart s none fun s =>
    let (v, s) := regRead s.chain.raccOffset s
    { s with chain := { s.chain with raccData := v } }

/-- A write of 2 to CHAIN_RACC_CTRL.OP (10 R344). -/
def raccWrite (s : State) : State := raccStart s (some s.chain.raccData) fun s => regWrite s.chain.raccOffset s.chain.raccData s

/-- The answer of a downstream unit ends the access. -/
def raccAnswer (v : Option Nat) (s : State) : State :=
  if !s.chain.raccBusy then s
  else { s with chain := { s.chain with raccBusy := false, raccData := v.getD s.chain.raccData } }

/-- RACC_READ (10 R344): the answer, when it comes. -/
def execRaccRead (t : Nat) (answer : Option Nat) (s : State) : Out :=
  runAt t s fun s =>
    let busy := s.chain.raccBusy
    let s := raccRead s
    if busy || answer.isNone then s else raccAnswer answer s

/-- RACC_WRITE (10 R344). -/
def execRaccWrite (t : Nat) (answered : Bool) (s : State) : Out :=
  runAt t s fun s =>
    let busy := s.chain.raccBusy
    let s := raccWrite s
    if busy || !answered then s else raccAnswer none s

/-- RACC_TIMEOUT (17 R516): no answer within 10 us. -/
def execRaccTimeout (t : Nat) (s : State) : Out :=
  runAt t s fun s =>
    if s.chain.raccBusy ∧ s.chain.raccStart + 10000 ≤ s.dt then { s with chain := { s.chain with raccBusy := false, raccErr := true } } else s

/-- REGISTER_WRITE (00 R11, 17 R503 to R506): every register, with CHAIN_RACC_CTRL.OP. It comes through the endpoint. -/
def execRegisterWrite (t off val : Nat) (s : State) : Out :=
  runAt t s fun s =>
    if !endpointUp s then s else
    let v := val % 2 ^ 32
    let a := off / 4 * 4
    let s := regWrite a v s
    if a = 0x5001C then (match v % 4 with | 1 => raccRead s | 2 => raccWrite s | _ => s) else s

/-! ## BAR2 -/

/-- Global address, in this unit, of a byte of the BAR2 window (09 R297). Of a base with bits above [35] set, which R26 forbids without saying what
an access then does, the model drops those bits (DESIGN CHOICE, notes/assumptions/106.md). -/
def bar2Addr (s : State) (off : Nat) : Nat := 7 * 2 ^ 58 + (s.hostq.bar2Base + off % 2 ^ 28) % 2 ^ 36

/-- BAR2_READ (09 R297): after correction, or poisoned with the Sillage source. -/
def execBar2Read (t off n : Nat) (errs : List (Nat × Bytes)) (s : State) : Out :=
  runAt t s fun s =>
    if !endpointUp s then s else
    let a := bar2Addr s off
    let (b, ps, bad) := codedRead s a n errs
    sillageEvents bad { s with pcie := { s.pcie with readData := b.map (fun b => b.toNat), readOk := true, poisoned := !ps.isEmpty } }

/-- BAR2_WRITE (09 R297, 15 R448): inside the staging region only; any other write is dropped and counted. -/
def execBar2Write (t off : Nat) (data : Bytes) (errs : List (Nat × Bytes)) (s : State) : Out :=
  runAt t s fun s =>
    if !endpointUp s then s else
    let p := s.hostq.bar2Base + off % 2 ^ 28
    if s.hostq.stageBase ≤ p ∧ p + data.length ≤ s.hostq.stageBase + s.hostq.stageSize then codedWrite (bar2Addr s off) data errs s
    else { s with hostq := { s.hostq with bar2Drop := min (s.hostq.bar2Drop + 1) 255 } }

end Sys2Proof.Machine
end

