-- ==== Sys2Proof/Machine/ChainRx.lean ====
section
/-! DEFINITION. Flits that arrive on a chain port: the decoder and the sequence check (10 R331, R332), and what each flit does in the unit
that it reaches (10 R336, R340, R342 to R345). -/

namespace Sys2Proof.Machine

/-- Pass a message on towards unit `u` (10 R342). -/
def passOn (u : Nat) (m : FlitMsg) (s : State) : State := sendFlit (if u > s.chain.unit then 1 else 0) m s

/-- An issuer seen from another unit: its core memory is not this unit's. -/
def remoteIssuer : OpSrc → OpSrc
  | .core _ => .pair 0
  | x => x

/-- An operation from another unit is permitted here (11 R349, R350; a DIAG WRITE in the staging region, 09 R317). -/
def remoteOpOk (s : State) (src : OpSrc) (code a n : Nat) : Bool :=
  match src, code with
  | .diag, 0 => inStaging s a n
  | .diag, _ => destOk s .diag code a n
  | _, _ => shapeOk (remoteIssuer src) code a n 0 && destOk s (remoteIssuer src) code a n

/-- An operation from another unit takes effect here and is answered (11 R350, 10 R342), with the poison of what it returns (R357). An address error has
no effect here; the issuer's unit deals with it (11 R349). -/
def serveOp (src : OpSrc) (unit tag code a v c n : Nat) (data : Bytes) (poison : List (Nat × Nat × Nat)) (errs : List (Nat × Bytes)) (s : State) : State :=
  let len := if code ≤ 1 then n else 8
  if remoteOpOk s src code a len then
    let (s, r) := applyOp code a v c n data poison errs s
    passOn unit (.reply src unit tag code a false r.1 r.2) s
  else passOn unit (.reply src unit tag code a true (List.replicate (returned code n) 255) []) s

/-- The answer of another unit: an operation is complete (11 R354), or has an address error (R349); a DIAG ends (10 R345). -/
def takeReply (src : OpSrc) (tag code a : Nat) (err : Bool) (data : Bytes) (poison : List (Nat × Nat × Nat)) (s : State) : State :=
  match src with
  | .diag => (match findWork s tag with | some w => diagAnswer w a err data poison s | none => s)
  | _ =>
    let s := if ordersSignal code then { s with cores := { s.cores with outW := s.cores.outW.erase src } } else s
    let s := match src with | .core c => setCore c { coreSt s c with out := (coreSt s c).out - 1 } s | _ => s
    if err then addressError src 100 a tag data.length s else deliver src tag (data, poison) s

/-- A replay request from the other end of the link (10 R332). -/
def replayFrom (port seq : Nat) (s : State) : State := match execReplayRequest s.dt port seq s with | .next s' => s' | _ => s

/-- The forwarded descriptor that a result or a completion belongs to (10 R343): none for one that a reset of the host interface discarded (09
R299). -/
def forwardedOf (s : State) (id : DescId) : Option Taken := s.chain.fwd.find? (fun d => takenId d == id)

/-- Unit 0 writes a downstream unit's completion with the context's phase (10 R343). -/
def returnCompletion (id : DescId) (b : Bytes) (s : State) : State :=
  match forwardedOf s id with
  | none => s
  | some d =>
    putCompletion d.ctx d.num (bitOf (fieldN d.desc 1 1) 0) (fun ph => patchAt b 31 (leBytes 1 ph))
      { s with chain := { s.chain with fwd := s.chain.fwd.erase d } }

/-- Unit 0 keeps the units that drive FAULT_N low (10 R345). -/
def takeRemoteFault (unit : Nat) (low : Bool) (s : State) : State :=
  let l := s.chain.remoteFault.filter (fun u => u != unit)
  let l := if low then l ++ [unit] else l
  let s := { s with chain := { s.chain with remoteFault := l } }
  if low then raiseLevel 154 0 unit s else if l.isEmpty then endLevel 154 s else s

/-- A register access from unit 0 (10 R344). -/
def serveRacc (off : Nat) (val : Option Nat) (s : State) : State :=
  match val with
  | none => let (v, s) := regRead off s
            sendFlit 0 (.raccReply (some v)) s
  | some v => sendFlit 0 (.raccReply none) (regWrite off v s)

/-- A descriptor reaches its unit (10 R343): its acceptance there is a heartbeat (08 R284), and it waits for its row; one of an unknown kind completes
(09 R315). -/
def takeDescriptor (ctx num dt prio client : Nat) (b : Bytes) (s : State) : State :=
  let d : Taken := { ctx := ctx, num := num, dt := dt, desc := b }
  let s := setCtx s ctx { ctxOf s ctx with prio := prio, client := client }
  let s := if isHeartbeat b then hostHeartbeat dt s else s
  if unknownKind b then complete (takenHdr d) 0x10 0 0 0xFFFFFFFF none s
  else { s with hostq := { s.hostq with taken := s.hostq.taken ++ [d] } }

/-- Flits that a unit drops whatever they ask: an unaddressed unit takes only the start of enumeration (10 R333), unit 7 only enumeration from its
CHN_DN (chapter 10, the nine-package example); replay requests are the link's own. -/
def dropsFlit (s : State) (port : Nat) (m : FlitMsg) : Bool :=
  match m with
  | .startFlit _ => false
  | .replayFrom _ => false
  | .report .. => !s.chain.addressed
  | _ => !s.chain.addressed || (s.chain.unit == 7 && port == 1)

/-- What a delivered flit does; `errs` are the granules with errors that an operation finds here. Result bytes of a descriptor that a reset of the host interface discarded are not written (09 R299). -/
def takeFlit (port : Nat) (m : FlitMsg) (errs : List (Nat × Bytes)) (s : State) : State :=
  if dropsFlit s port m then s
  else match m with
  | .op src unit tag code a v c n data poison =>
    if addrUnit a = s.chain.unit then serveOp src unit tag code a v c n data poison errs s else passOn (addrUnit a) m s
  | .reply src unit tag code a err data poison => if unit = s.chain.unit then takeReply src tag code a err data poison s else passOn unit m s
  | .hostWrite id a b => if s.chain.head && (forwardedOf s id).isNone then s else hostWrite id s a b
  | .logWrite a b => hostLog s a b
  | .completion id b => if s.chain.head then returnCompletion id b s else sendFlit 0 m s
  | .msix v => sendMsix v s
  | .descriptor unit ctx num dt prio client b =>
    if unit = s.chain.unit then takeDescriptor ctx num dt prio client b s
    else if s.chain.dn.state ≠ 2 ∧ s.chain.dn.state ≠ 3 then loseBeyond 0x21 149 s
    else passOn unit m s
  | .startFlit gen => takeStartFlit gen s
  | .report addr last ovf grade fw => takeReport addr last ovf grade fw s
  | .announce td frame period => takeAnnounce td frame period s
  | .racc unit off val => if unit = s.chain.unit then serveRacc off val s else passOn unit m s
  | .raccReply val => if s.chain.head then raccAnswer val s else sendFlit 0 m s
  | .remoteFault unit low => if s.chain.head then takeRemoteFault unit low s else sendFlit 0 m s
  | .lost unit status src =>
    if s.chain.head then abortForwarded unit status src s else sendFlit 0 m (abortDiags (fun u => decide (unit < u)) status src s)
  | .replayFrom seq => replayFrom port seq s
  | .tsRequest t1 => if port = 1 then sendFlit 1 (.tsReply t1 s.dt s.dt) s else s
  | .tsReply t1 t2 t3 => if port = 0 then takeTimestamp t1 t2 t3 s else s

/-- A flit that is not delivered: the receiver asks once for a replay from the number it expects, and drops what follows (10 R331,
R332). -/
def discardFlit (port hdr : Nat) (s : State) : State :=
  let x := portOf s port
  if x.dropping && hdr % 16 != x.rxNext % 16 then s
  else sendFlit port (.replayFrom x.rxNext) (setPort port { x with dropping := true } s)

/-- A good flit is taken when its header has the number that is the next one expected (10 R329, R331). -/
def acceptFlit (port hdr : Nat) (data : Bytes) (msg : FlitMsg) (errs : List (Nat × Bytes)) (s : State) : State :=
  let x := portOf s port
  if hdr ≠ flitHeader x.rxNext msg then discardFlit port hdr s
  else takeFlit port msg errs (setPort port { x with rxNext := x.rxNext + 1, dropping := false, rx := x.rx ++ [(data, msg)] } s)

/-- A flit on a port (10 R331): corrected, or discarded. The inputs of unit 0's CHN_UP are ignored (10 R328). -/
def receiveFlit (port hdr : Nat) (code : Bytes) (msg : FlitMsg) (errs : List (Nat × Bytes)) (s : State) : State :=
  let st := (portOf s port).state
  if !portUsed s port ∨ (st ≠ 2 ∧ st ≠ 3) then s
  else match sillageDecode code with
  | .clean => acceptFlit port hdr (code.take 32) msg errs s
  | .corrected d => acceptFlit port hdr d msg errs (raise (portSrc port 0) 0 hdr s)
  | .uncorrectable => discardFlit port hdr s

/-- CHAIN_FLIT_RECEIVE (10 R331). -/
def execChainFlitReceive (t port hdr : Nat) (code : Bytes) (msg : FlitMsg) (errs : List (Nat × Bytes)) (s : State) : Out :=
  runAt t s (receiveFlit port hdr code msg errs)

end Sys2Proof.Machine
end

