-- ==== Sys2Proof/Machine/Dormant.lean ====
section
/-! DEFINITION. Entry into Dormant and the end of a wake (16 R499 to R502). -/

namespace Sys2Proof.Machine

/-- A key of the model's memory lies in the stack pool. -/
def stackKey (k : Nat) : Bool := k / 2 ^ 58 == 7

/-- What Dormant loses (16 R500): core memories, control-core memories and map caches, the clocks, the Net bank, the hazard list, the frame.
SAFE_STOP is asserted on entry (08 R279, 16 R498). -/
def dormantLoss (s : State) : State :=
  { s with
    net := { s.net with state := 0, newest := none, previous := none, firing := none, recertTodo := [], padA := true, padB := true },
    world := { s.world with hazards := [], hazChanges := [], fl := { s.world.fl with resident := [] },
                            fcastOwed := [] },
    cores := { s.cores with mem := s.cores.mem.filter (fun c => stackKey c.1), poison := s.cores.poison.filter (fun p => stackKey p.1), st := [],
                            ring := [], outW := [], dirMem := [] },
    opts := [], netRuns := [],
    safety := { s.safety with prog := [], failed := [], spareSliced := [], injecting := none },
    ringm := { s.ringm with running := false, slice := none, sliceRunning := [], mem := [] },
    chain := { s.chain with up := { s.chain.up with state := 0 }, dn := { s.chain.dn with state := 0 } },
    clk := { s.clk with dieLock := 0, die := [0, 0, 0, 0] },
    pwr := { s.pwr with dormantWanted := false },
    temp := { s.temp with temps := s.temp.temps.zipIdx.map (fun x => if 1 ≤ x.2 ∧ x.2 ≤ 4 then -32768 else x.1) },
    frame := { s.frame with cur := none } }

/-- The unit may enter Dormant: after the entry tick, or, downstream, as the chain follows unit 0; a seal pending at the tick comes
first (16 R499). -/
def dormantReady (s : State) : Bool :=
  (if s.chain.head then s.pwr.service == 4 else s.chain.addressed && (s.pwr.service == 2 || s.pwr.service == 3 || s.pwr.service == 4)) &&
  s.world.sealing.isNone && s.world.sealWanted.isNone

/-- DORMANT_ENTRY (16 R499). -/
def enterDormant (s : State) : State :=
  if !dormantReady s then s else setService 5 (dormantLoss (parkThreads s))

/-- DORMANT_ENTRY (16 R499). -/
def execDormantEntry (t : Nat) (s : State) : Out := runAt t s enterDormant

/-- A unit that fails the wake rotation (16 R501 step 5, 15 R455, R456): its slice raises Carousel-slice-failure, a cluster is fenced, a
control-core pair stays out of service. The units' slices failed at times of their own before this command, so each is an event (notes/assumptions/137.md). -/
def wakeFailure (s : State) (f : CUnit × Nat) : State :=
  let s := takeEvent 84 0 (carouselSyn f.1 f.2) s
  match f.1 with
  | .pair _ => s
  | .core q _ => fenceCluster q 84 s
  | .mapCache q => fenceCluster q 84 s
  | .fabric q => fenceCluster q 84 s

/-- Control-core pairs that failed the wake rotation. -/
def failedPairs (l : List (CUnit × Nat)) : List Nat :=
  (l.filterMap (fun f => match f.1 with | .pair p => some p | _ => none)).eraseDups

/-- The map caches rebuilt about the last p_b (16 R501 step 7). -/
def rebuildCaches (s : State) : State :=
  let w := s.world
  let alloc := (w.fl.index.filter (fun p => !p.2.tomb && (sealedPtr p.2).isSome)).map (fun p => p.2.key)
  let (res, fresh) := newResident true (brickOfPos w.pbx) (brickOfPos w.pby) [] alloc s.fresh
  { s with fresh := fresh, world := { w with fl := { w.fl with resident := res } } }

/-- The steps of a successful wake (16 R501 steps 3 to 9): the first tick is still to come. -/
def wakeUp (failed : List (CUnit × Nat)) (s : State) : State :=
  let s := failed.foldl wakeFailure s
  let s := rebuildCaches (lockDies { s with
    safety := { s.safety with startupDone := true, pairsOut := failedPairs failed },
    recurrentZero := true, recurrent := [],
    ringm := { s.ringm with running := true },
    boot := { s.boot with fwVersion := s.boot.retainedFw },
    frame := { s.frame with wakeTick := some ((s.dt / 1000000 + 1) * 1000000), cur := none } })
  setService 3 s

/-- Firmware that fails re-verification (16 R502): bring-up starts again as after a chip reset; RESET_CAUSE keeps the last reset's code. -/
def wakeBootAgain (s : State) : State :=
  let d := chipReset 0 s
  { d with boot := { d.boot with resetCause := s.boot.resetCause } }

/-- The end of a wake (16 R501, R502); a downstream unit wakes with its chain. -/
def wakeComplete (fwOk : Bool) (failed : List (CUnit × Nat)) (s : State) : State :=
  if s.pwr.service ≠ 6 ∧ ¬ (!s.chain.head ∧ s.pwr.service = 5) then s
  else if !fwOk then wakeBootAgain s
  else wakeUp failed s

/-- WAKE_COMPLETE (16 R501). -/
def execWakeComplete (t : Nat) (fwOk : Bool) (failed : List (CUnit × Nat)) (s : State) : Out := runAt t s (wakeComplete fwOk failed)

end Sys2Proof.Machine
end

