-- ==== Sys2Proof/Machine/Publish.lean ====
section
/-! DEFINITION. Publishing a frame (02 R63 to R68): the FRAME_RUN record, CHECK results (04 R159, R160), the warm store (05 R187). -/

namespace Sys2Proof.Machine

/-- A signed 32-bit field. -/
def i32 (x : Int) : Bytes := leBytes 4 (unsignedOf 32 x)

/-- A frame-relative time (01 R7). -/
def relTime (x : Int) : Bytes := i32 (satI32 x)

/-- The rank-0 variant of a frame: seed, perturbation, trajectory, knot step, start DT (02 R63, 05 R193). -/
structure Best where
  entry : PEntry
  slot : Nat
  pert : Nat
  traj : Traj
  dk : Nat
  startDt : Nat

/-- The rank-0 variant, when the merge returned one. -/
def bestOf (s : State) (a : Accord) (c : PClass) (w : Work) (r : FrWork) (m : Merged) : Option Best :=
  match m.entries.head? with
  | none => none
  | some e =>
    let j := e.index / a.perturb.length
    let p := e.index % a.perturb.length
    match findOpt s w.wid j, a.perturb[p]? with
    | some o, some pt =>
      some { entry := e, slot := j, pert := p, traj := variantTraj a c r.meas pt o.cur, dk := variantDk c pt, startDt := r.meas.startDt + pt.startOffset }
    | _, _ => none

/-- Status of a FRAME_RUN that ran (02 R66). -/
def frameStatus (f : Frame) : Nat := if f.clear = 0 then 2 else if f.deferredBatches > 0 then 1 else 0

/-- `net_result` (02 R63, 08 R271). -/
def netResultOf (f : Frame) : Nat := if f.netFired then 3 else f.netResult.getD 1

/-- Flags of a FRAME_RUN (02 R67). -/
def frameRunFlags (s : State) (f : Frame) (r : FrWork) (m : Merged) (opts : List Opt) : Nat :=
  flagIf (opts.any (fun o => o.stop == some 2)) 0 + flagIf (decide (m.entries.length < r.k)) 1 + flagIf (decide (m.tie > 0)) 2 +
  flagIf (decide (m.dup > 0)) 3 + flagIf (decide (f.warmIgnored > 0)) 4 + frameFlags s f + flagIf (decide (f.deferredBatches > 0)) 11

/-- Networks ascending, then layers, or candidates and layers (13 R411). -/
def networkFold (f : Frame) : Nat :=
  foldDigests ((sortBy (fun (a b : Nat × Nat × Nat) => decide (a.1 < b.1) || (a.1 == b.1 && decide (a.2.1 ≤ b.2.1))) f.netDigests).map
    (fun x => x.2.2))

/-- The four frame folds in the order of the record (02 R63, 13 R411). -/
def frameFolds (f : Frame) (r : FrWork) (m : Merged) (opts : List Opt) : List Nat :=
  [networkFold f, foldDigests (opts.flatMap (fun o => o.digests)), foldDigests (f.verdictDigests.map (fun x => x.2)),
   foldDigests [crc64 (rankedBytes rankedEntry r.k m.entries)]]

/-- The FRAME_RUN record (02 R63, R64) with `record_digest` taken as `digest` and the timing fields as `times`. With no entry the
trajectory header is zero and no trajectory follows. -/
def frameRecord (s : State) (a : Accord) (f : Frame) (c : PClass) (r : FrWork) (m : Merged) (best : Option Best) (opts : List Opt)
    (status flags : Nat) (times : Bytes) (digest : Nat) : Bytes :=
  let n (p : Nat → Bool) : Nat := (opts.filter (fun o => match o.stop with | some x => p x | none => false)).length
  let folds := frameFolds f r m opts
  let admitted := (f.adm.filter (fun x => some x.wid == f.fr)).length
  let tail := match best with
    | some b => leBytes 2 c.h ++ leBytes 1 c.nx ++ leBytes 1 c.nu ++ leBytes 4 b.dk ++ leBytes 4 b.slot ++ leBytes 4 b.pert ++
        b.traj.flatMap (leBytes 4)
    | none => zeros 16
  let ranked := rankedBytes rankedEntry r.k m.entries
  let e : PEntry := match m.entries.head? with | some e => e | none => { u := 0, index := 0xFFFFFFFF, key := 0 }
  leBytes 4 (0x100 + ranked.length + tail.length) ++ leBytes 2 1 ++ leBytes 1 status ++ [0] ++ leBytes 4 flags ++
  leBytes 4 (1000 * f.periodUs) ++ leBytes 8 f.number ++ leBytes 8 f.tickDt ++ leBytes 8 a.hash64 ++ leBytes 4 s.boot.fwVersion ++
  leBytes 4 s.world.fl.epoch ++ leBytes 8 f.mapDigest ++ leBytes 4 f.checked ++ leBytes 2 admitted ++ leBytes 2 f.deferredBatches ++
  leBytes 4 f.clear ++ leBytes 4 f.hit ++ leBytes 4 f.unsure ++ leBytes 2 opts.length ++ leBytes 2 (n (fun x => x == 0)) ++
  leBytes 2 (n (fun x => x == 2)) ++ leBytes 2 (n (fun x => x == 1)) ++ leBytes 2 (n (fun x => decide (x ≥ 3))) ++ leBytes 2 f.warmIgnored ++
  leBytes 2 (min f.timing 65535) ++ leBytes 2 (min f.hazLate 65535) ++ leBytes 2 r.k ++ leBytes 2 m.entries.length ++ leBytes 4 m.tie ++
  leBytes 4 m.nan ++ leBytes 4 m.dup ++ leBytes 1 f.goldenResult ++ leBytes 1 (netResultOf f) ++ zeros 2 ++ leBytes 4 e.index ++ i32 e.lo ++
  leBytes 4 e.key ++ zeros 4 ++ times ++ folds.flatMap (leBytes 8) ++ leBytes 8 digest ++ zeros 72 ++ ranked ++ tail

/-- The timing fields of a record (02 R63). -/
def frameTimes (f : Frame) (now : Nat) : Bytes :=
  relTime f.tSealEnd ++ relTime f.tWindowOpen ++ relTime f.tLastRetire ++ relTime ((now : Int) - (f.tickDt : Int))

/-- The warm store after a record without GOLDEN_FAIL (05 R187). -/
def writeWarm (c : PClass) (r : FrWork) (opts : List Opt) (best : Option Best) (l : List (Nat × Warm)) : List (Nat × Warm) :=
  let l := opts.foldl (fun l o =>
    insertKey o.idx { fingerprint := fingerprintOf c, startDt := r.meas.startDt, dk := c.dk, traj := o.cur } l) l
  match best with
  | some b => insertKey 0 { fingerprint := fingerprintOf c, startDt := b.startDt, dk := b.dk, traj := b.traj } l
  | none => l

/-- The FRAME_RUN's record, its log entries, its completion, the warm store (02 R63, 13 R415, 05 R187). -/
def publishRun (a : Accord) (f : Frame) (w : Work) (r : FrWork) (s : State) : State :=
  match classOf s r.optClass with
  | none => s
  | some c =>
    let m := lookupD {} w.wid f.merged
    let opts := s.opts.filter (fun o => o.wid == w.wid)
    let best := bestOf s a c w r m
    let status := frameStatus f
    let flags := frameRunFlags s f r m opts
    let digest := crc64 (frameRecord s a f c r m best opts status flags (zeros 16) 0)
    let rec_ := frameRecord s a f c r m best opts status flags (frameTimes f s.dt) digest
    let s := hostWrite w.id s r.resultAddr rec_
    let s := (frameFolds f r m opts).zipIdx.foldl (fun s x => logWork w 1 x.1 w.bound x.2 0 6 s) s
    let s := logWork w 2 (crc64 (rankedBytes rankedEntry r.k m.entries)) w.bound 0 0 5 s
    let s := logWork w 1 digest w.bound 1 0 7 s
    let s := finishWork w status flags f.checked f.deferredBatches (some f.number) s
    { s with opts := s.opts.filter (fun o => o.wid != w.wid),
             warm := if f.goldenResult = 1 then s.warm else writeWarm c r opts best s.warm }

/-! ## CHECK results -/

/-- The verdict records of a CHECK in candidate order (04 R159). -/
def checkRecs (c : CkWork) : List VRec :=
  (List.range c.candCount).map (fun i => (lookupD [] (i / 1024) c.verdicts).getD (i % 1024) {})

/-- The CHECK result (04 R159) with `record_digest` as given. -/
def checkRecord (c : CkWork) (status flags digest : Nat) : Bytes :=
  let recs := checkRecs c
  let m := if c.k = 0 then {} else c.running
  let body := recs.flatMap vrecBytes ++ (if c.k = 0 then [] else rankedBytes rankedEntry c.k m.entries)
  leBytes 4 (0x60 + body.length) ++ leBytes 2 2 ++ leBytes 1 status ++ [0] ++ leBytes 4 flags ++ leBytes 4 c.candCount ++
  leBytes 8 (c.frames.headD 0) ++ leBytes 8 (c.frames.getLastD 0) ++ leBytes 4 c.firstEpoch ++ leBytes 4 c.lastEpoch ++
  leBytes 4 (countV 0 recs) ++ leBytes 4 (countV 2 recs) ++ leBytes 4 (countV 1 recs) ++ leBytes 4 (countV 3 recs) ++ leBytes 2 c.k ++
  leBytes 2 m.entries.length ++ leBytes 4 m.tie ++ leBytes 4 m.nan ++ leBytes 4 m.dup ++
  leBytes 8 (foldDigests (c.verdicts.map (fun v => verdictDigest v.2))) ++ leBytes 8 digest ++ zeros 8 ++ body

/-- Record and completion of a CHECK whose last batch has run (04 R159, R160). With k = 0 nothing is ranked, and R159 does not say whether NaN costs are
counted: `nan_count` is then 0 (DESIGN CHOICE, notes/assumptions/116.md). -/
def finishCheck (w : Work) (c : CkWork) (s : State) : State :=
  let m := if c.k = 0 then {} else c.running
  let flags := c.flags + (if c.k = 0 then 0 else flagIf (decide (m.entries.length < c.k)) 1 + flagIf (decide (m.tie > 0)) 2 +
    flagIf (decide (m.dup > 0)) 3) + flagIf c.carried 11
  let status := if countV 0 (checkRecs c) = 0 then 2 else 0
  let digest := crc64 (checkRecord c status flags 0)
  let s := hostWrite w.id s c.resultAddr (checkRecord c status flags digest)
  let s := if c.k = 0 then s else logWork w 2 (crc64 (rankedBytes rankedEntry c.k m.entries)) w.bound 0 0 5 s
  let s := logWork w 1 digest w.bound 2 0 7 s
  finishWork w status flags 0 0 c.frames.head? s

/-- A CHECK at the publish of a frame in which batches of it ran: its list is the merge's (07 R253), the frame's conditions are kept; with no batch
left it completes (04 R160). -/
def publishCheck (f : Frame) (s : State) (w : Work) : State :=
  match w.item with
  | .check c =>
    if !f.adm.any (fun a => a.wid == w.wid) then s else
    let c := { c with flags := c.flags ||| frameFlags s f, running := lookupD c.running w.wid f.merged, ranMerge := c.ranMerge || c.k != 0 }
    if c.todo.isEmpty then finishCheck w c s else setItem w.wid (.check c) s
  | _ => s

/-! ## PUBLISH -/

/-- The frame is ready to publish (02 R45): merged, every layer of its networks final (13 R399, R411), and with a FRAME_RUN its certification over and its
Net banked. -/
def readyToPublish (s : State) (f : Frame) : Bool :=
  !f.published && f.mergeDone && (f.fr.isNone || (f.certDone && f.cert.isNone)) &&
  s.netRuns.all (fun n => n.wid != 0 || n.frame != f.number || runFinal s n)

/-- The FRAME_RUN of the frame. -/
def runOf (s : State) (f : Frame) : Option (Work × FrWork) :=
  f.fr.bind (fun wid => (findWork s wid).bind (fun w => match w.item with | .frameRun r => some (w, r) | _ => none))

/-- A frame that is marked suspect counts one timing-dependent choice before its completions are formed (13 R406, 15 R460). -/
def countSuspect (f : Frame) (w : Work) (s : State) : State :=
  if !suspectNow s then s
  else timingChoice 3 0 f.number w.tag w.client (modFrame (fun f => { f with timing := f.timing + 1 }) s)

/-- With GOLDEN_EN 0 the supply-suspect state ends at publish (15 R460). -/
def clearSuspectAtPublish (f : Frame) (s : State) : State :=
  if !f.goldenEn && suppliesBack s f then { s with safety := { s.safety with suspect := false } } else s

/-- The frame's merged lists as they stand at publish: a fault frame's after the merge leave the cluster out, and its CHECK batches are re-issued (07
R254). -/
def settleMerge (s : State) (f : Frame) : State :=
  if f.faultClusters.isEmpty then s
  else (admitted s f).foldl (reissue f) (modFrame (fun g => { g with merged := mergeAll s f }) s)

/-- PUBLISH (02 R63). -/
def execPublish (t : Nat) (s : State) : Out :=
  runAt t s fun s =>
    match s.frame.cur, s.accord with
    | some f0, some a =>
      if !readyToPublish s f0 then s else
      let s := settleMerge s f0
      let s := match runOf s f0 with | some (w, _) => countSuspect f0 w s | none => s
      let f := s.frame.cur.getD f0
      let s := match runOf s f with | some (w, r) => publishRun a f w r s | none => s
      let s := (s.work.filter (fun w => f.adm.any (fun a => a.wid == w.wid))).foldl (publishCheck f) s
      let s := clearSuspectAtPublish f (modFrame (fun f => { f with published := true, batches := [], lists := [] }) s)
      if s.chain.enumPending then beginEnum s else s
    | _, _ => s

end Sys2Proof.Machine
end

