-- ==== Sys2Proof/Machine/Seal.lean ====
section
/-! DEFINITION. The seal's commands (03 R103 to R105): a seal starts once what belongs to it is applied, and its flacon comes into force. -/

namespace Sys2Proof.Machine

/-- What the seal wanted by the tick of DT `t` waits for (03 R96, R103, 06 R223): groups at or before its cut, and forecast sets of earlier
frames. -/
def sealBlocked (t : Nat) (s : State) : Bool :=
  s.world.groups.any (fun g => decide (g.c + 20000 ≤ t)) || s.world.fcastOwed.any (fun o => decide (o.2.1 < t))

/-- SEAL (03 R103). The first seal is a full seal (R105). -/
def execSealStart (t : Nat) (s : State) : Out :=
  runAt t s fun s =>
    match s.world.sealWanted with
    | none => s
    | some t0 =>
      if s.world.sealing.isSome || sealBlocked t0 s then s
      else
        let s := buildSeal (!s.world.sealedOnce) s
        runPrims true s.work s

/-- The new flacon comes into force, the Atomiser is released (03 R103), and layers that read the flacon may start (06 R216). `t_seal_end` of a
frame that seals nothing stays 0, the model's choice (notes/assumptions/100.md). -/
def installSeal (sl : Sealing) (s : State) : State :=
  let s := fillFlacon { s with world := { s.world with fl := sl.next, sealing := none }, cores := { s.cores with dirMem := [] } }
  modFrame (fun f => if f.published then f else { f with tSealEnd := (s.dt : Int) - (f.tickDt : Int) }) s

/-- SEAL_COMPLETE (03 R104). -/
def execSealComplete (t : Nat) (s : State) : Out :=
  runAt t s fun s => match s.world.sealing with | some sl => if sl.full then s else installSeal sl s | none => s

/-- FULL_SEAL_COMPLETE (03 R105). -/
def execFullSealComplete (t : Nat) (s : State) : Out :=
  runAt t s fun s =>
    match s.world.sealing with
    | some sl => if sl.full then installSeal sl s else s
    | none => s

end Sys2Proof.Machine
end

