-- ==== Sys2Proof/Machine/Dispatch.lean ====
section
/-! DEFINITION. Dispatch: one arm per command, each one direct call of its meaning. -/

namespace Sys2Proof.Machine

def exec (i : Instr) (s : State) : Host.Outcome State Fault Refusal :=
  match i with
  | .pollInstantWalk t v atomicOk => Sys2Proof.Machine.execPollInstantWalk t v atomicOk s
  | .mapIngest d v => Sys2Proof.Machine.execMapIngest d v s
  | .mapPrimitives d v => Sys2Proof.Machine.execMapPrimitives d v s
  | .mapHazard d v commit => Sys2Proof.Machine.execMapHazard d v commit s
  | .bodyLoad d v => Sys2Proof.Machine.execBodyLoad d v s
  | .accordLoad d v img => Sys2Proof.Machine.execAccordLoad d v img s
  | .frameRun d v => Sys2Proof.Machine.execFrameRun d v s
  | .solve d v => Sys2Proof.Machine.execSolve d v s
  | .check d v => Sys2Proof.Machine.execCheck d v s
  | .select d v => Sys2Proof.Machine.execSelect d v s
  | .tensorRun d v => Sys2Proof.Machine.execTensorRun d v s
  | .configure d v => Sys2Proof.Machine.execConfigure d v s
  | .fire d v => Sys2Proof.Machine.execFire d v s
  | .release d v => Sys2Proof.Machine.execRelease d v s
  | .heartbeat d v => Sys2Proof.Machine.execHeartbeat d v s
  | .unitDisable d v => Sys2Proof.Machine.execUnitDisable d v s
  | .unitFence d v => Sys2Proof.Machine.execUnitFence d v s
  | .unitRestore d v => Sys2Proof.Machine.execUnitRestore d v s
  | .diagRead d v errs => Sys2Proof.Machine.execDiagRead d v errs s
  | .diagWrite d v errs => Sys2Proof.Machine.execDiagWrite d v errs s
  | .diagSnapshot d v => Sys2Proof.Machine.execDiagSnapshot d v s
  | .irqDelayExpiry t ctx => Sys2Proof.Machine.execIrqDelayExpiry t ctx s
  | .ctxWrite t dur => Sys2Proof.Machine.execCtxWrite t dur s
  | .ctxRead t dur => Sys2Proof.Machine.execCtxRead t dur s
  | .ctxEnable t dur => Sys2Proof.Machine.execCtxEnable t dur s
  | .ctxDisable t dur => Sys2Proof.Machine.execCtxDisable t dur s
  | .ctxInvalidCommand t code => Sys2Proof.Machine.execCtxInvalidCommand t code s
  | .ctxDrainEnd t ctx => Sys2Proof.Machine.execCtxDrainEnd t ctx s
  | .pollEnWrite t on => Sys2Proof.Machine.execPollEnWrite t on s
  | .bar0UnsupportedAccess t addr size isWrite => Sys2Proof.Machine.execBar0UnsupportedAccess t addr size isWrite s
  | .bar2Read t off n errs => Sys2Proof.Machine.execBar2Read t off n errs s
  | .bar2Write t off data errs => Sys2Proof.Machine.execBar2Write t off data errs s
  | .perstN t => Sys2Proof.Machine.execPerstN t s
  | .hotReset t => Sys2Proof.Machine.execHotReset t s
  | .functionLevelReset t => Sys2Proof.Machine.execFunctionLevelReset t s
  | .registerWrite t off val => Sys2Proof.Machine.execRegisterWrite t off val s
  | .registerReadClear t off => Sys2Proof.Machine.execRegisterReadClear t off s
  | .pairLoRead t off => Sys2Proof.Machine.execPairLoRead t off s
  | .pairHiWrite t off val => Sys2Proof.Machine.execPairHiWrite t off val s
  | .framePeriodWrite t val => Sys2Proof.Machine.execFramePeriodWrite t val s
  | .mapWindowZWrite t val => Sys2Proof.Machine.execMapWindowZWrite t val s
  | .mapForecastWrite t val => Sys2Proof.Machine.execMapForecastWrite t val s
  | .pwrRailThrWrite t rail val => Sys2Proof.Machine.execPwrRailThrWrite t rail val s
  | .limitWWrite t val => Sys2Proof.Machine.execLimitWWrite t val s
  | .dormantReq t othersAtRest => Sys2Proof.Machine.execDormantReq t othersAtRest s
  | .dormantEntry t => Sys2Proof.Machine.execDormantEntry t s
  | .wake t => Sys2Proof.Machine.execWake t s
  | .i3cWake t => Sys2Proof.Machine.execI3cWake t s
  | .wakeComplete t fwOk failed => Sys2Proof.Machine.execWakeComplete t fwOk failed s
  | .go t => Sys2Proof.Machine.execGo t s
  | .chipResetRequest t => Sys2Proof.Machine.execChipResetRequest t s
  | .commitRollback t => Sys2Proof.Machine.execCommitRollback t s
  | .strapSample t src chainHead => Sys2Proof.Machine.execStrapSample t src chainHead s
  | .secureBoot t images => Sys2Proof.Machine.execSecureBoot t images s
  | .pwrOkRise t lowRails => Sys2Proof.Machine.execPwrOkRise t lowRails s
  | .pwrOkFall t => Sys2Proof.Machine.execPwrOkFall t s
  | .supplyReset t rail => Sys2Proof.Machine.execSupplyReset t rail s
  | .railWarningCrossing t rail => Sys2Proof.Machine.execRailWarningCrossing t rail s
  | .railRecovered t rail => Sys2Proof.Machine.execRailRecovered t rail s
  | .supplyEscalation t rail => Sys2Proof.Machine.execSupplyEscalation t rail s
  | .avsTimeout t port => Sys2Proof.Machine.execAvsTimeout t port s
  | .governorTrim t draw => Sys2Proof.Machine.execGovernorTrim t draw s
  | .governorCalibrate t currents => Sys2Proof.Machine.execGovernorCalibrate t currents s
  | .tempSample t die temp => Sys2Proof.Machine.execTempSample t die temp s
  | .clockMonitorWindow t clk ppm => Sys2Proof.Machine.execClockMonitorWindow t clk ppm s
  | .scrubPassEnd t stack finished => Sys2Proof.Machine.execScrubPassEnd t stack finished s
  | .frameTick t v => Sys2Proof.Machine.execFrameTick t v s
  | .injectionTimeout t checker => Sys2Proof.Machine.execInjectionTimeout t checker s
  | .sealStart t => Sys2Proof.Machine.execSealStart t s
  | .sealComplete t => Sys2Proof.Machine.execSealComplete t s
  | .fullSealComplete t => Sys2Proof.Machine.execFullSealComplete t s
  | .atomiserGroup t v => Sys2Proof.Machine.execAtomiserGroup t v s
  | .atomiserOverrun t => Sys2Proof.Machine.execAtomiserOverrun t s
  | .batchSlotBoundary t upset v => Sys2Proof.Machine.execBatchSlotBoundary t upset v s
  | .jugglerMerge t => Sys2Proof.Machine.execJugglerMerge t s
  | .netCertification t upset => Sys2Proof.Machine.execNetCertification t upset s
  | .netBank t => Sys2Proof.Machine.execNetBank t s
  | .certificationOverrun t => Sys2Proof.Machine.execCertificationOverrun t s
  | .netRecertification t upset => Sys2Proof.Machine.execNetRecertification t upset s
  | .immediateRecertification t upset => Sys2Proof.Machine.execImmediateRecertification t upset s
  | .publish t => Sys2Proof.Machine.execPublish t s
  | .optimisationStart t wid idx => Sys2Proof.Machine.execOptimisationStart t wid idx s
  | .outerCommit t wid idx cmp => Sys2Proof.Machine.execOuterCommit t wid idx cmp s
  | .deadlineCut t wid idx inner tries => Sys2Proof.Machine.execDeadlineCut t wid idx inner tries s
  | .solveProblemStop t wid idx => Sys2Proof.Machine.execSolveProblemStop t wid idx s
  | .layerDigestCompare t wid run net layer copyB upset => Sys2Proof.Machine.execLayerDigestCompare t wid run net layer copyB upset s
  | .forecastSetWrite t => Sys2Proof.Machine.execForecastSetWrite t s
  | .proposalReady t => Sys2Proof.Machine.execProposalReady t s
  | .networkOverrun t => Sys2Proof.Machine.execNetworkOverrun t s
  | .tensorRunEnd t wid run => Sys2Proof.Machine.execTensorRunEnd t wid run s
  | .selectRowEnd t wid row v => Sys2Proof.Machine.execSelectRowEnd t wid row v s
  | .accordCopyDone t pcieError => Sys2Proof.Machine.execAccordCopyDone t pcieError s
  | .accordCoresLoaded t => Sys2Proof.Machine.execAccordCoresLoaded t s
  | .netComesIntoForce t => Sys2Proof.Machine.execNetComesIntoForce t s
  | .netExpiry t => Sys2Proof.Machine.execNetExpiry t s
  | .hostHeartbeatTimeout t => Sys2Proof.Machine.execHostHeartbeatTimeout t s
  | .driveRequest t a b => Sys2Proof.Machine.execDriveRequest t a b s
  | .driveHeartbeatEdge t ch => Sys2Proof.Machine.execDriveHeartbeatEdge t ch s
  | .driveHeartbeatTimeout t ch => Sys2Proof.Machine.execDriveHeartbeatTimeout t ch s
  | .setpointFrame t replyA replyB => Sys2Proof.Machine.execSetpointFrame t replyA replyB s
  | .netStandstill t => Sys2Proof.Machine.execNetStandstill t s
  | .safeStopMismatch t ch level => Sys2Proof.Machine.execSafeStopMismatch t ch level s
  | .streamerMismatch t => Sys2Proof.Machine.execStreamerMismatch t s
  | .faultEvent t src addr syn => Sys2Proof.Machine.execFaultEvent t src addr syn s
  | .levelSourceBegin t src addr syn ended => Sys2Proof.Machine.execLevelSourceBegin t src addr syn ended s
  | .blockResetDone t b => Sys2Proof.Machine.execBlockResetDone t b s
  | .spareLoadDone t q => Sys2Proof.Machine.execSpareLoadDone t q s
  | .faultStickyClear t word val => Sys2Proof.Machine.execFaultStickyClear t word val s
  | .fflClear t => Sys2Proof.Machine.execFflClear t s
  | .faultSrcCfgWrite t val => Sys2Proof.Machine.execFaultSrcCfgWrite t val s
  | .functionDrainEnd t f => Sys2Proof.Machine.execFunctionDrainEnd t f s
  | .restoreRotationDone t q => Sys2Proof.Machine.execRestoreRotationDone t q s
  | .carouselRun t => Sys2Proof.Machine.execCarouselRun t s
  | .carouselSliceDone t u slice pass => Sys2Proof.Machine.execCarouselSliceDone t u slice pass s
  | .ringmasterTick t slice => Sys2Proof.Machine.execRingmasterTick t slice s
  | .eventWordChange t w => Sys2Proof.Machine.execEventWordChange t w s
  | .safetyThreadLatency t e => Sys2Proof.Machine.execSafetyThreadLatency t e s
  | .create t p a0 a1 => Sys2Proof.Machine.execCreate t p a0 a1 s
  | .resume t p a0 a1 => Sys2Proof.Machine.execResume t p a0 a1 s
  | .suspend t p a0 a1 => Sys2Proof.Machine.execSuspend t p a0 a1 s
  | .delete t p a0 a1 => Sys2Proof.Machine.execDelete t p a0 a1 s
  | .switch t p a0 a1 => Sys2Proof.Machine.execSwitch t p a0 a1 s
  | .setPrio t p a0 a1 => Sys2Proof.Machine.execSetPrio t p a0 a1 s
  | .setPair t p a0 a1 => Sys2Proof.Machine.execSetPair t p a0 a1 s
  | .wakeThread t p a0 a1 => Sys2Proof.Machine.execWakeThread t p a0 a1 s
  | .readEntry t p a0 a1 => Sys2Proof.Machine.execReadEntry t p a0 a1 s
  | .lockstepMismatch t p => Sys2Proof.Machine.execLockstepMismatch t p s
  | .put t src addr n local_ data lerrs errs => Sys2Proof.Machine.execPut t src addr n local_ data lerrs errs s
  | .get t src addr n local_ errs => Sys2Proof.Machine.execGet t src addr n local_ errs s
  | .atomicAdd t src addr v local_ errs => Sys2Proof.Machine.execAtomicAdd t src addr v local_ errs s
  | .atomicMax t src addr v local_ isSigned errs => Sys2Proof.Machine.execAtomicMax t src addr v local_ isSigned errs s
  | .atomicCas t src addr c v local_ errs => Sys2Proof.Machine.execAtomicCas t src addr c v local_ errs s
  | .signal t src addr v errs => Sys2Proof.Machine.execSignal t src addr v errs s
  | .fence t c => Sys2Proof.Machine.execFence t c s
  | .waitSignal t c w thr => Sys2Proof.Machine.execWaitSignal t c w thr s
  | .engine t c mask op errs => Sys2Proof.Machine.execEngine t c mask op errs s
  | .loop t c start count => Sys2Proof.Machine.execLoop t c start count s
  | .deadline t c inner tries => Sys2Proof.Machine.execDeadline t c inner tries s
  | .retry t c mark inner => Sys2Proof.Machine.execRetry t c mark inner s
  | .ringLinkFailover t link lostA lostB => Sys2Proof.Machine.execRingLinkFailover t link lostA lostB s
  | .enumStart t => Sys2Proof.Machine.execEnumStart t s
  | .enumerationStartFlit t gen => Sys2Proof.Machine.execEnumerationStartFlit t gen s
  | .enumToken t byte => Sys2Proof.Machine.execEnumToken t byte s
  | .enumReport t addr last overflow grade fw => Sys2Proof.Machine.execEnumReport t addr last overflow grade fw s
  | .enumerationTimeout t => Sys2Proof.Machine.execEnumerationTimeout t s
  | .timeSyncExchange t answer => Sys2Proof.Machine.execTimeSyncExchange t answer s
  | .tickAnnounce t tickDt frame period => Sys2Proof.Machine.execTickAnnounce t tickDt frame period s
  | .tickInPulse t => Sys2Proof.Machine.execTickInPulse t s
  | .linkTraining t port state => Sys2Proof.Machine.execLinkTraining t port state s
  | .chainFlitReceive t port hdr code msg errs => Sys2Proof.Machine.execChainFlitReceive t port hdr code msg errs s
  | .replayRequest t port seq => Sys2Proof.Machine.execReplayRequest t port seq s
  | .raccRead t answer => Sys2Proof.Machine.execRaccRead t answer s
  | .raccWrite t answered => Sys2Proof.Machine.execRaccWrite t answered s
  | .raccTimeout t => Sys2Proof.Machine.execRaccTimeout t s
  | .logEnWrite t on => Sys2Proof.Machine.execLogEnWrite t on s
  | .regulatorSettled t die => Sys2Proof.Machine.execRegulatorSettled t die s
  | .perstNRelease t => Sys2Proof.Machine.execPerstNRelease t s
  | .stackTrainingComplete t full => Sys2Proof.Machine.execStackTrainingComplete t full s

end Sys2Proof.Machine
end

