-- ==== Sys2Proof/Safety.lean ====
section
/-! DEFINITION. What the claims about the whole machine speak of: a unit that runs, the canonical form of the memories, SAFE_STOP
asserted outside ARMED (08 R279), the collector's counters in range (14 R418) and the power limit in range (16 R479). -/

namespace Sys2Proof.Machine

/-- The unit runs: neither the power-on reset nor a supply reset holds it (16 R472, 18 R538). -/
def Live (s : State) : Prop := s.pwr.heldReset = false ∧ s.pwr.supplyHeld = false

/-- The host's memory and the memory of the package are in canonical form. -/
def MemoriesOk (s : State) : Prop := Memory.wf s.hostMem = true ∧ Memory.wf s.cores.mem = true

/-- SAFE_STOP_A and SAFE_STOP_B are asserted in every state of the Net block but ARMED (08 R279). -/
def SafeStopOk (s : State) : Prop := s.net.state ≠ 1 → s.net.padA = true ∧ s.net.padB = true

/-- One source of the collector in range: window counter 0 to 255, total at most 65,535, N at most 255, w 0 to 24
(14 R418). -/
def SrcOk (x : Src) : Prop := x.count ≤ 255 ∧ x.total ≤ 65535 ∧ x.n ≤ 255 ∧ x.w ≤ 24

/-- The collector has 416 sources, each in range (14 R418). -/
def SrcsOk (l : List Src) : Prop := l.length = 416 ∧ ∀ x ∈ l, SrcOk x

/-- LIMIT_W, in force and written, lies in 90 to 240 W (16 R479). -/
def LimitOk (p : Pwr) : Prop := 90 ≤ p.limit ∧ p.limit ≤ 240 ∧ 90 ≤ p.limitNext ∧ p.limitNext ≤ 240

/-- Everything a step keeps, in one predicate: the safety invariant of the unit. -/
def Inv (s : State) : Prop := MemoriesOk s ∧ SafeStopOk s ∧ SrcsOk s.fault.srcs ∧ LimitOk s.pwr

/-- The state in which the checks of a taken descriptor run (09 R323): DT has moved on to its acceptance, what the host wrote is
visible, and the descriptor has left the list of those taken. -/
def accepted (d : Taken) (v : View) (s : State) : State :=
  applyView v { atDt d.dt s with hostq := { s.hostq with taken := s.hostq.taken.tail } }

/-- A running unit whose checks 3 to 5 a taken descriptor passes (09 R323): it is the first of those taken and not yet dealt with (R311), its
kind is the row's, the reserved bits of `dflags` are 0,
no stack is unreachable where the kind asks for one (14 R436), the context has CONTROL where the kind needs it (09 R304), the kind is
accepted in the service in force, and its function is neither disabled nor draining (14 R438). -/
structure Admits (r : KindRule) (d : Taken) (s : State) : Prop where
  live : Live s
  kind : fld d 0 1 = r.code
  first : s.hostq.taken.head? = some d
  dflags : fld d 1 1 < 4
  stackAny : r.anyStack = true ∨ stackLost s = false
  control : r.control = true → s.chain.head = true → bitOf (ctxOf s d.ctx).flags 1 = true
  service : r.reduced = true ∨ s.pwr.service ≠ 2
  enabled : r.code ∉ s.units.disabledFn
  notDraining : ∀ x ∈ s.units.draining, x.1 ≠ r.code

/-- What a report of source `i` does beside its event: a level source's condition is in effect (14 R423), the link of a Midway-uncorrectable source fails
over (01 R31). -/
def reported (i syn t : Nat) (s : State) : State :=
  if srcLevel i then { atDt t s with fault := { s.fault with levels := s.fault.levels ++ [i] } } else ringReport i syn (atDt t s)

end Sys2Proof.Machine
end

