-- ==== Sys2Proof/Certificates/Slice0/Obligations.lean ====
section
/-! DEFINITION. The statements for the provers: one definition each, in the order of OBLIGATIONS.json. `Live s` says that the unit runs,
`atDt t s` is the state once DT has reached the command's, `accepted d v s` the state in which a taken descriptor's own checks run. -/

open Sys2Proof Sys2Proof.Machine

/-- O1. A step takes the command at the front of the queue and runs it on the state with the rest of the queue. An empty queue: the block idles.
The model's choice, not a rule of the spec (notes/assumptions/3.md). -/
def Obligations.StepOfTheQueue : Prop :=
  (∀ (c : Instr) (rest : List Instr) (s : State), s.pending = c :: rest → step s = exec c { s with pending := rest }) ∧
  (∀ s : State, s.pending = [] → step s = .next s)

/-- O2. The invariant of Safety.lean holds right after reset. Reset values that 17 states, read through the register map: FRAME_PERIOD 1,000 us,
FRAME_CTRL.SEAL_AUTO 0, PWR_CTRL.LIMIT_W 180, SAFETY_CTRL with its five enables set, DET_CTRL.LOG_LEVEL 1, HOSTQ_CTRL 0, NET_STATUS in
NO_NET, both SAFE_STOP outputs asserted, the NMI mask 3, the interrupt vectors 2,046, 2,047 and 2,045, the rail thresholds 92 % and 85 %,
MAP_WINDOW_Z -4 and MAP_FORECAST 50 ms, 16 slices, threshold 128. Rests on choices of the model, not on rules of the spec: log entry 6. -/
def Obligations.ResetState : Prop :=
  (Inv State.reset) ∧
  (regVal State.reset 0x60000 = 1000 ∧ regVal State.reset 0x60004 = 0 ∧ regVal State.reset 0x20000 = 180 ∧
  regVal State.reset 0xB0000 = 31 ∧ regVal State.reset 0xC0000 = 4 ∧ regVal State.reset 0x40000 = 0 ∧
  regVal State.reset 0x80000 = 0 ∧ regVal State.reset 0x80018 % 4 = 3 ∧ regVal State.reset 0xA00DC = 3 ∧
  regVal State.reset 0xA00E0 = 2046 + 65536 * 2047 ∧ regVal State.reset 0xA00E4 = 2045 ∧
  (∀ r < 10, regVal State.reset (0x20010 + 4 * r) = 92 + 256 * 85) ∧
  regVal State.reset 0x70008 = 2 ^ 32 - 4 ∧ regVal State.reset 0x7000C = 50 + 256 * 16 + 65536 * 128)

/-- O3. The memory the host owns and the memory of the package keep their canonical form over every step, from every state. Rests on choices of
the model, not on rules of the spec: log entry 4. -/
def Obligations.MemoryFormKeptByStep : Prop :=
  ∀ s t : State, MemoriesOk s → step s = .next t → MemoriesOk t

/-- O4. SAFE_STOP_A and SAFE_STOP_B stay asserted outside ARMED over every step, from every state in which they are. -/
def Obligations.SafeStopKeptByStep : Prop :=
  ∀ s t : State, SafeStopOk s → step s = .next t → SafeStopOk t

/-- O5. The collector's 416 sources keep their counters and configuration in range, and LIMIT_W stays in 90 to 240 W, over every step. -/
def Obligations.RangesKeptByStep : Prop :=
  ∀ s t : State, SrcsOk s.fault.srcs → LimitOk s.pwr → step s = .next t → SrcsOk t.fault.srcs ∧ LimitOk t.pwr

/-- O6. Every command answers a next state in every state: no fault and no refusal. No command touches the queue of commands that wait or
changes the speed grade, and none burns a rollback fuse back (16 R491). Rests on choices of the model, not on rules of the spec: log entry
7. -/
def Obligations.EveryCommandAnswers : Prop :=
  ∀ (c : Instr) (s : State), ∃ t, exec c s = .next t ∧ t.pending = s.pending ∧ t.grade = s.grade ∧ s.boot.otpRollback ≤ t.boot.otpRollback

/-- O7. While a power-on reset or a supply reset holds the unit (16 R472, R485, 18 R538), no command but PWR_OK_FALL, PWR_OK_RISE, SUPPLY_RESET
and RAIL_RECOVERED has any effect: what these do then is stated of the power block (a further rail that falls below its threshold acts, 15
R459). Rests on choices of the model, not on rules of the spec: log entry 87. -/
def Obligations.HeldUnitDoesNothing : Prop :=
  ∀ (c : Instr) (s : State), ¬ Live s → (∀ t, c ≠ .pwrOkFall t) → (∀ t l, c ≠ .pwrOkRise t l) → (∀ t r, c ≠ .supplyReset t r) →
    (∀ t r, c ≠ .railRecovered t r) → exec c s = .next s

/-- O8. The context commands WRITE, READ, ENABLE and DISABLE, and a code that is no command (09 R302): on unit 0, which holds the contexts
(R305), the whole next state, in every state of the context and of BUSY; a unit with CHAIN_HEAD low ignores the write (17 R506). Before the
stacks have trained the table is not ready (16 R493) and the model refuses the command (its choice, log entry 130). The end of a drain (09
R302): a DRAINING context enters DISABLED exactly when its last completion has been written; the rest of the machine stays. What WRITE puts
into a context is what READ returns: the twelve words at 0x00 to 0x2F of the record come back as they were written, but for the reserved
byte 0x2B, which reads 0 (00 R12), and the device's own bytes 0x30 to 0x3F are not written (09 R300, R302). Rests on choices of the model,
not on rules of the spec: log entries 25, 64 and 130. -/
def Obligations.ContextCommands : Prop :=
  (∀ (t dur code : Nat) (s : State), Live s →
    let u := atDt t s
    let i := s.hostq.ctxIndex
    let x := ctxOf s i
    let begun : State := { u with hostq := { u.hostq with refused := false, busyUntil := u.dt + dur } }
    let refusedBegun : State := { u with hostq := { u.hostq with refused := true, busyUntil := u.dt + dur } }
    let overrun : State := { u with hostq := { u.hostq with overrun := true } }
    let clean : Ctx := { x with sqHead := 0, cqTail := 0, phase := 1, reserved := 0, unsignalled := 0, inFlight := [] }
    -- a downstream unit
    (s.chain.head = false →
      exec (.ctxWrite t dur) s = .next u ∧ exec (.ctxRead t dur) s = .next u ∧ exec (.ctxEnable t dur) s = .next u ∧
      exec (.ctxDisable t dur) s = .next u ∧ exec (.ctxInvalidCommand t code) s = .next u) ∧
    -- before the table is ready
    (s.chain.head = true → s.boot.stacksTrained = false →
      let no : State := { u with hostq := { u.hostq with refused := true } }
      exec (.ctxWrite t dur) s = .next no ∧ exec (.ctxRead t dur) s = .next no ∧ exec (.ctxEnable t dur) s = .next no ∧
      exec (.ctxDisable t dur) s = .next no) ∧
    -- while BUSY: ignored, OVERRUN
    (s.chain.head = true → s.boot.stacksTrained = true → u.dt < s.hostq.busyUntil →
      exec (.ctxWrite t dur) s = .next overrun ∧ exec (.ctxRead t dur) s = .next overrun ∧ exec (.ctxEnable t dur) s = .next overrun ∧
      exec (.ctxDisable t dur) s = .next overrun ∧ ((code = 0 ∨ 4 < code) → exec (.ctxInvalidCommand t code) s = .next overrun)) ∧
    (s.chain.head = true → s.boot.stacksTrained = true → s.hostq.busyUntil ≤ u.dt →
      -- WRITE
      (x.state = 0 → exec (.ctxWrite t dur) s = .next (setCtx begun i (ctxOfBytes x (s.hostq.data.flatMap (leBytes 4))))) ∧
      (x.state ≠ 0 → exec (.ctxWrite t dur) s = .next refusedBegun) ∧
      -- READ
      exec (.ctxRead t dur) s =
        .next { begun with hostq := { begun.hostq with data := (List.range 16).map fun k => fieldN (ctxBytes x) (4 * k) 4 } } ∧
      -- ENABLE
      (x.state = 0 → ctxOk s x = true → exec (.ctxEnable t dur) s = .next (setCtx begun i { clean with state := 1 })) ∧
      (x.state = 0 → ctxOk s x = false → exec (.ctxEnable t dur) s = .next (setCtx refusedBegun i clean)) ∧
      (x.state ≠ 0 → exec (.ctxEnable t dur) s = .next refusedBegun) ∧
      -- DISABLE
      (x.state = 1 → exec (.ctxDisable t dur) s =
        .next { setCtx begun i { x with state := 2 } with hostq := { (setCtx begun i { x with state := 2 }).hostq with
          waiting := s.hostq.waiting.filter (fun q => q != i) } }) ∧
      (x.state ≠ 1 → exec (.ctxDisable t dur) s = .next refusedBegun) ∧
      -- no command: BUSY stays as it is
      ((code = 0 ∨ 4 < code) → exec (.ctxInvalidCommand t code) s = .next { u with hostq := { u.hostq with refused := true } }))) ∧
  (∀ (t c : Nat) (s : State), Live s →
    ((ctxOf s c).state = 2 → (ctxOf s c).inFlight = [] →
      exec (.ctxDrainEnd t c) s = .next (setCtx (atDt t s) c { ctxOf s c with state := 0 })) ∧
    ((ctxOf s c).state ≠ 2 ∨ (ctxOf s c).inFlight ≠ [] → exec (.ctxDrainEnd t c) s = .next (atDt t s))) ∧
  (∀ (x : Ctx) (data : List Nat), data.length = 16 → (∀ w ∈ data, w < 2 ^ 32) →
    let y := ctxOfBytes x (data.flatMap (leBytes 4))
    (∀ k < 12, k ≠ 10 → fieldN (ctxBytes y) (4 * k) 4 = data.getD k 0) ∧ fieldN (ctxBytes y) 40 4 = data.getD 10 0 % 2 ^ 24 ∧
    y.sqHead = x.sqHead ∧ y.cqTail = x.cqTail ∧ y.state = x.state ∧ y.phase = x.phase)

/-- O9. A completion (09 R318): on unit 0, for a context that is not DISABLED, the 32 bytes stand at CQ slot `cq_tail` mod 2^`cq_log2` and every
other byte of host memory reads as before; `cq_tail` has advanced, one reserved slot is given back, and the phase inverts at the end of a
pass. The interrupt delay (09 R322): `irq_us` after the first completion not yet signalled, a context with IRQ_EN sends its vector and
counts afresh; before that, and with nothing to signal, nothing happens. On unit 0 with MSI-X enabled the message leaves, or stays pending
while its vector or the whole function is masked; with MSI-X disabled none leaves; a downstream unit's message goes to unit 0 as a flit (10
R343). Rests on choices of the model, not on rules of the spec: log entries 9 and 14. -/
def Obligations.CompletionsAndInterrupts : Prop :=
  (∀ (h : Hdr) (status flags aux0 aux1 : Nat) (fr : Option Nat) (s : State),
    let x := ctxOf s h.ctx
    let a := x.cqBase + 32 * (x.cqTail % 2 ^ x.cqLog2)
    let bs := completionBytes h x.unit status (if status ≥ 0x10 then 0 else flags % 4096) aux0 aux1
      (fr.elim 0xFFFFFFFF fun n => n % 2 ^ 32) x.phase
    let u := complete h status flags aux0 aux1 fr s
    s.chain.head = true → x.state ≠ 0 → Memory.wf s.hostMem = true →
    bs.length = 32 ∧ (∀ k < 32, memRead u.hostMem (a + k) = bs.getD k 0) ∧
    (∀ k, k < a ∨ a + 32 ≤ k → memRead u.hostMem k = memRead s.hostMem k) ∧
    (ctxOf u h.ctx).cqTail = (x.cqTail + 1) % 2 ^ 32 ∧ (ctxOf u h.ctx).reserved = x.reserved - 1 ∧
    (ctxOf u h.ctx).phase = (if (x.cqTail + 1) % 2 ^ 32 % 2 ^ x.cqLog2 = 0 then 1 - x.phase else x.phase)) ∧
  (∀ (t c : Nat) (s : State), Live s →
    let x := ctxOf s c
    let u := setCtx (atDt t s) c { x with unsignalled := 0 }
    let due := bitOf x.flags 0 = true ∧ 0 < x.unsignalled ∧ x.firstUnsig + 1000 * x.irqUs ≤ (atDt t s).dt
    (¬ due → exec (.irqDelayExpiry t c) s = .next (atDt t s)) ∧
    (due → s.chain.head = true → s.pcie.cfg.msixEn = true → s.pcie.cfg.msixMask = false → msixMasked s x.vector = false →
      exec (.irqDelayExpiry t c) s = .next { u with pcie := { s.pcie with msixOut := s.pcie.msixOut ++ [x.vector] } }) ∧
    (due → s.chain.head = true → s.pcie.cfg.msixEn = true → s.pcie.cfg.msixMask = true ∨ msixMasked s x.vector = true → x.vector ∉ s.pcie.msixPending →
      exec (.irqDelayExpiry t c) s = .next { u with pcie := { s.pcie with msixPending := s.pcie.msixPending ++ [x.vector] } }) ∧
    (due → s.chain.head = true → s.pcie.cfg.msixEn = true → s.pcie.cfg.msixMask = true ∨ msixMasked s x.vector = true →
      x.vector ∈ s.pcie.msixPending → exec (.irqDelayExpiry t c) s = .next u) ∧
    (due → s.chain.head = true → s.pcie.cfg.msixEn = false → exec (.irqDelayExpiry t c) s = .next u) ∧
    (due → s.chain.head = false → exec (.irqDelayExpiry t c) s = .next (if s.chain.addressed then sendFlit 0 (.msix x.vector) u else u)))

/-- O10. The poller (09 R307, R309, R310): at a whole multiple of 2,000 ns, with POLL_EN and AtomicOp Requester Enable set, the doorbell tree is
walked and the take step follows; at any other time only what the host did becomes visible. A root complex without 64-bit AtomicOps (09
R309): the Swap sets NO_ATOMIC, stops the walk and takes the host-interface source; no later Swap of the walk reads or clears a word. Rests
on choices of the model, not on rules of the spec: log entries 2 and 77. -/
def Obligations.PollerRuns : Prop :=
  (∀ (t : Nat) (v : View) (ok : Bool) (s : State), Live s →
    let u := applyView v (atDt t s)
    (t % 2000 = 0 → s.hostq.pollEn = true → u.pcie.cfg.atomicReq = true → u.pcie.perst = false →
      exec (.pollInstantWalk t v ok) s = .next (takeStep v (walkTree v ok u).found (walkTree v ok u).st)) ∧
    (t % 2000 ≠ 0 ∨ s.hostq.pollEn = false ∨ u.pcie.cfg.atomicReq = false ∨ u.pcie.perst = true → exec (.pollInstantWalk t v ok) s = .next u)) ∧
  (∀ (v : View) (a b : Nat) (w : Walk), w.stopped = false →
    (swapWord v false a w).2.stopped = true ∧
    (swapWord v false a w).2.st = takeEvent 155 a 0 { w.st with hostq := { w.st.hostq with noAtomic := true } } ∧
    (∀ ok w', w'.stopped = true → swapWord v ok b w' = (0, w')))

/-- O11. POLL_EN (17 R514, R506): a write of 1 sets it when the three bitmap addresses are neither 0 nor misaligned, else leaves it; a write of
0 clears it; a downstream unit ignores both. Nothing else changes. A walk over a quiet tree (09 R307): when the four words of the top bitmap
read 0 and no context waits, a poll instant changes nothing but what the host did and DT: no Swap, nothing found. A Swap takes the word and
leaves 0 in memory (09 R307): after it every byte of the word reads 0 and every other byte of host memory reads as before; the value is the
word's. What becomes of a descriptor read from a context (09 R311, R313, R315): it reserves a completion slot whatever comes of it; one with
the right `seq` and a known kind for this unit joins the descriptors taken, at their end, and one of an unknown kind completes. A HEARTBEAT
or FRAME_RUN for this unit restarts the host-heartbeat timer before any check (08 R284). Rests on choices of the model, not on rules of the
spec: log entries 28 and 77. -/
def Obligations.DoorbellWalk : Prop :=
  (∀ (t : Nat) (s : State), Live s →
    let u := atDt t s
    let q := s.hostq
    let ok (a : Nat) : Prop := a ≠ 0 ∧ a % 64 = 0
    (s.chain.head = true → exec (.pollEnWrite t false) s = .next { u with hostq := { q with pollEn := false } }) ∧
    (s.chain.head = true → ok q.dbLeaf → ok q.dbMid → ok q.dbTop →
      exec (.pollEnWrite t true) s = .next { u with hostq := { q with pollEn := true } }) ∧
    (s.chain.head = true → ¬ (ok q.dbLeaf ∧ ok q.dbMid ∧ ok q.dbTop) → exec (.pollEnWrite t true) s = .next u) ∧
    (s.chain.head = false → ∀ b, exec (.pollEnWrite t b) s = .next u)) ∧
  (∀ (t : Nat) (v : View) (ok : Bool) (s : State), Live s →
    let u := applyView v (atDt t s)
    t % 2000 = 0 → s.hostq.pollEn = true → u.pcie.cfg.atomicReq = true → u.pcie.perst = false → s.hostq.waiting = [] →
    badRead v s.hostq.dbTop 32 = false → (∀ k < 32, memRead u.hostMem (s.hostq.dbTop + k) = 0) →
    exec (.pollInstantWalk t v ok) s = .next u) ∧
  (∀ (v : View) (a : Nat) (w : Walk), w.stopped = false → badRead v a 8 = false → Memory.wf w.st.hostMem = true →
    (swapWord v true a w).1 = leNat (memReads w.st.hostMem a 8) ∧
    (∀ k, memRead (swapWord v true a w).2.st.hostMem k = if a ≤ k ∧ k < a + 8 then 0 else memRead w.st.hostMem k) ∧
    (swapWord v true a w).2.stopped = false ∧ (swapWord v true a w).2.found = w.found) ∧
  (∀ (c : Nat) (b : Bytes) (s : State),
    let x := ctxOf s c
    let want := (x.seqBase + x.sqHead) % 65536
    let d : Taken := { ctx := c, num := x.sqHead, dt := s.dt, desc := b }
    let w := setCtx s c { x with sqHead := (x.sqHead + 1) % 2 ^ 32, reserved := x.reserved + 1, inFlight := x.inFlight ++ [x.sqHead] }
    let u := if x.unit = s.chain.unit ∧ isHeartbeat b = true then hostHeartbeat s.dt w else w
    (fieldN b 2 2 ≠ want → acceptOne c (some b) s = complete (takenHdr d) 0x12 0 want 0 none u) ∧
    (fieldN b 2 2 = want → x.unit = s.chain.unit → 1 ≤ fieldN b 0 1 → fieldN b 0 1 ≤ 0x0D →
      acceptOne c (some b) s = { u with hostq := { u.hostq with taken := u.hostq.taken ++ [d] } }) ∧
    (fieldN b 2 2 = want → x.unit = s.chain.unit → fieldN b 0 1 = 0 ∨ 0x0D < fieldN b 0 1 →
      acceptOne c (some b) s = complete (takenHdr d) 0x10 0 0 0xFFFFFFFF none u))

/-- O12. The count of a context (09 R316): a descriptor read from a context must carry the count's `seq`; one with another `seq` is not executed
and completes with SEQUENCE_ERROR and the expected value; the count advances in either case. -/
def Obligations.SequenceCount : Prop :=
  ∀ (c : Nat) (b : Bytes) (s : State),
    let x := ctxOf s c
    let want := (x.seqBase + x.sqHead) % 65536
    let d : Taken := { ctx := c, num := x.sqHead, dt := s.dt, desc := b }
    let r := acceptOne c (some b) s
    (ctxOf r c).sqHead = (x.sqHead + 1) % 2 ^ 32 ∧
    (fieldN b 2 2 ≠ want → ∃ u, r = complete (takenHdr d) 0x12 0 want 0 none u ∧
      u.hostq.taken = s.hostq.taken ∧ u.work = s.work ∧ u.chain = s.chain ∧ u.hostMem = s.hostMem ∧ u.fault = s.fault)

/-- O13. BAR0 and BAR2 (09 R296, R297): a misaligned or narrow BAR0 access ends as Unsupported Request, recorded by AER, with no data for a
read; a BAR2 read on unit 0 returns the bytes of the window after correction, poisoned when a granule is uncorrectable or a word there is
poisoned, with the Sillage events of the granules (15 R448, 14 R435); without either it returns the bytes that stand there; a BAR2 write
lands only in the staging region, a granule that it covers in part being read and corrected first, and any other is dropped and counted.
Where the endpoint has trained no link (10 R328), or under PERST_N, no access reaches the unit. Rests on choices of the model, not on rules
of the spec: log entries 106, 107, 110 and 124. -/
def Obligations.BarAccesses : Prop :=
  ∀ (t addr size off n : Nat) (w : Bool) (data : Bytes) (errs : List (Nat × Bytes)) (s : State), Live s →
    let u := atDt t s
    let a := bar2Addr s off
    let bad := faultyGranules u a n errs
    let got : State := { u with pcie := { s.pcie with
      readData := (sillageData a bad (devRead u a n)).map (fun b => b.toNat), readOk := true, poisoned := !(poisonRead u a n bad).isEmpty } }
    let p := s.hostq.bar2Base + off % 2 ^ 28
    let up := s.chain.head = true ∧ s.pcie.perst = false
    (up → size ≠ 4 ∨ addr % 4 ≠ 0 → exec (.bar0UnsupportedAccess t addr size w) s =
      .next { u with pcie := { s.pcie with readOk := false, readData := if w then s.pcie.readData else [], aer := s.pcie.aer ||| 2 ^ 20 } }) ∧
    (size = 4 → addr % 4 = 0 → exec (.bar0UnsupportedAccess t addr size w) s = .next u) ∧
    (up → exec (.bar2Read t off n errs) s = .next (sillageEvents bad got)) ∧
    (up → poisonRead u a n [] = [] → exec (.bar2Read t off n []) s = .next { u with pcie := { s.pcie with
      readData := (devRead u a n).map (fun b => b.toNat), readOk := true, poisoned := false } }) ∧
    (up → s.hostq.stageBase ≤ p → p + data.length ≤ s.hostq.stageBase + s.hostq.stageSize →
      exec (.bar2Write t off data errs) s = .next (codedWrite (bar2Addr s off) data errs u) ∧
      exec (.bar2Write t off data []) s = .next (keyWrite u (keyOfAddr (bar2Addr s off)) data)) ∧
    (up → p < s.hostq.stageBase ∨ s.hostq.stageBase + s.hostq.stageSize < p + data.length →
      exec (.bar2Write t off data errs) s = .next { u with hostq := { s.hostq with bar2Drop := min (s.hostq.bar2Drop + 1) 255 } }) ∧
    (¬ up → exec (.bar2Read t off n errs) s = .next u ∧ exec (.bar2Write t off data errs) s = .next u ∧
      exec (.bar0UnsupportedAccess t addr size w) s = .next u)

/-- O14. PERST_N, a hot reset and a function-level reset (09 R299) on the unit whose endpoint they reach (10 R328): the poller stops, every
context is DISABLED, work from descriptors is discarded and nothing is written for it; the Net, the faults, the units, the power, the body,
the Accord and both memories are left as they are; on a unit with CHAIN_HEAD low, whose endpoint is held in reset, they reset nothing. The
release of PERST_N starts the REFCLK monitor on the unit with the endpoint (15 R458). Rests on choices of the model, not on rules of the
spec: log entries 17, 109 and 124. -/
def Obligations.HostInterfaceResets : Prop :=
  ∀ (t : Nat) (s : State), Live s →
    (∀ c, s.chain.head = true → c = .perstN t ∨ c = .hotReset t ∨ c = .functionLevelReset t → ∃ u, exec c s = .next u ∧
      u.hostq.pollEn = false ∧ (∀ p ∈ u.hostq.ctxs, p.2.state = 0) ∧ u.hostq.taken = [] ∧ u.hostq.waiting = [] ∧
      u.work = [] ∧ u.opts = [] ∧ u.netRuns = [] ∧ u.chain.fwd = [] ∧ u.pcie.cfg = {} ∧ u.pcie.msixOut = s.pcie.msixOut ∧
      u.boot.resetCause = 5 ∧ u.pcie.perst = (if c = .perstN t then true else s.pcie.perst) ∧
      u.hostMem = s.hostMem ∧ u.cores = s.cores ∧ u.net = s.net ∧ u.fault = s.fault ∧ u.pwr = (atDt t s).pwr ∧ u.safety = s.safety ∧
      u.body = s.body ∧ u.accord = s.accord ∧ u.ringm = s.ringm ∧ u.det = s.det ∧ u.warm = s.warm ∧
      u.world.fl = s.world.fl ∧ u.world.index = s.world.index ∧ u.world.pool = s.world.pool ∧ u.world.hazards = s.world.hazards) ∧
    (s.chain.head = false → exec (.hotReset t) s = .next (atDt t s) ∧ exec (.functionLevelReset t) s = .next (atDt t s) ∧
      exec (.perstN t) s = .next { atDt t s with pcie := { s.pcie with perst := true }, clk := { s.clk with refclkMon := false } }) ∧
    exec (.perstNRelease t) s =
      .next { atDt t s with pcie := { s.pcie with perst := false }, clk := { s.clk with refclkMon := s.chain.head, refclk := s.chain.head } }

/-- O15. A read of a BAR0 word (00 R11, 17 R504). A captured X_HI answers once; X_LO returns the low half and captures the high one; any other
word returns its value, and the fields marked RC are cleared: PWR_DRAW.PEAK, the three saturating counts of HOSTQ_STATUS and
RINGM_STATUS.LATE_RELEASES. Nothing else changes. The host's reads come through the endpoint: on a unit whose endpoint has trained no link
(10 R328), and under PERST_N, a read changes nothing. Rests on choices of the model, not on rules of the spec: log entry 91. -/
def Obligations.RegisterReads : Prop :=
  ∀ (t off v : Nat) (s : State), Live s → off % 4 = 0 →
    let u := atDt t s
    (¬ (s.chain.head = true ∧ s.pcie.perst = false) → exec (.registerReadClear t off) s = .next u ∧ exec (.pairLoRead t off) s = .next u) ∧
    (s.chain.head = true → s.pcie.perst = false →
    let data (w : Nat) : Pcie := { s.pcie with readData := [w], readOk := true, poisoned := false }
    (lookupO off s.hi = some v → exec (.registerReadClear t off) s = .next { u with hi := eraseKey off s.hi, pcie := data v }) ∧
    (lookupO off s.hi = none → pairVal u off = some v →
      exec (.registerReadClear t off) s =
        .next { u with hi := insertKey (off + 4) (v / 2 ^ 32 % 2 ^ 32) s.hi, pcie := data (v % 2 ^ 32) } ∧
      exec (.pairLoRead t off) s = exec (.registerReadClear t off) s) ∧
    (pairVal u off = none → exec (.pairLoRead t off) s = .next u) ∧
    (lookupO off s.hi = none → pairVal u off = none → off ≠ 0x20008 → off ≠ 0x40004 → off ≠ 0x90000 →
      exec (.registerReadClear t off) s = .next { u with pcie := data (regVal u off) }) ∧
    (lookupO 0x20008 s.hi = none → exec (.registerReadClear t 0x20008) s =
      .next { u with pwr := { u.pwr with peak := 0 }, pcie := data (s.pwr.draw % 65536 + 2 ^ 16 * (s.pwr.peak % 65536)) }) ∧
    (lookupO 0x40004 s.hi = none → exec (.registerReadClear t 0x40004) s =
      .next { u with hostq := { s.hostq with badTail := 0, badHead := 0, bar2Drop := 0 },
                     pcie := data (b2n s.hostq.noAtomic + 2 ^ 8 * s.hostq.badTail + 2 ^ 16 * s.hostq.badHead + 2 ^ 24 * s.hostq.bar2Drop) }) ∧
    (lookupO 0x90000 s.hi = none → exec (.registerReadClear t 0x90000) s =
      .next { u with ringm := { s.ringm with late := 0, cyc := none }, pcie := data (s.ringm.late + 2 ^ 16 * min s.ringm.deferrals 255) }))

/-- O16. A 64-bit quantity is read whole (17 R504): a read of X_LO captures X_HI, and the next read of X_HI gives the captured half, at any
later DT and whatever the quantity has become by then. A 64-bit quantity is written whole (17 R504): a write of X_LO is held and changes no
register; the write of X_HI commits both halves; a write of X_HI alone keeps the current low half. On unit 0. -/
def Obligations.PairAccess : Prop :=
  (∀ (t t' off v : Nat) (s : State), Live s → s.chain.head = true → s.pcie.perst = false → off % 4 = 0 → lookupO off s.hi = none → pairVal (atDt t s) off = some v →
    ∃ u, exec (.pairLoRead t off) s = .next u ∧ u.pcie.readData = [v % 2 ^ 32] ∧
      (∃ w, exec (.registerReadClear t' (off + 4)) u = .next w ∧ w.pcie.readData = [v / 2 ^ 32 % 2 ^ 32]) ∧
      ∀ z : State, Live z → z.chain.head = true → z.pcie.perst = false → z.hi = u.hi →
        ∃ w, exec (.registerReadClear t' (off + 4)) z = .next w ∧ w.pcie.readData = [v / 2 ^ 32 % 2 ^ 32]) ∧
  (∀ (t off a b : Nat) (s : State), Live s → s.chain.head = true → s.pcie.perst = false → pairWritable off = true → a < 2 ^ 32 → b < 2 ^ 32 →
    let u := atDt t s
    (∃ w, exec (.registerWrite t off a) s = .next w ∧ w = { u with lo := insertKey off a s.lo } ∧
      exec (.pairHiWrite t (off + 4) b) w = .next (writePair off (a + 2 ^ 32 * b) { atDt t w with lo := eraseKey off w.lo })) ∧
    (lookupO off s.lo = none → exec (.pairHiWrite t (off + 4) b) s =
      .next (writePair off ((pairVal u off).getD 0 % 2 ^ 32 + 2 ^ 32 * b) { u with lo := eraseKey off s.lo })))

/-- O17. Register writes by type (00 R11, 17 R503, R506), `v` a 32-bit value: the read-write fields take the value, the W1C bits clear on a one
only, a read-only block ignores the write, and a downstream unit ignores HOSTQ and the CHAIN and FRAME_PERIOD registers of unit 0. The
host's writes come through the endpoint. Rests on choices of the model, not on rules of the spec: log entry 25. -/
def Obligations.RegisterWrites : Prop :=
  ∀ (t v : Nat) (s : State), Live s → v < 2 ^ 32 →
    let u := atDt t s
    (s.chain.head = true → s.pcie.perst = false →
    -- read-write
    exec (.registerWrite t 0x60004 v) s = .next { u with frame := { s.frame with sealAutoNext := bitOf v 0 } } ∧
    exec (.registerWrite t 0x10010 v) s = .next { u with boot := { s.boot with imgLen := v % 2 ^ 20 } } ∧
    exec (.registerWrite t 0xA00DC v) s = .next { u with fault := { s.fault with nmiPairs := v % 256 } } ∧
    exec (.registerWrite t 0xA00E0 v) s =
      .next { u with fault := { s.fault with minorVec := v % 2048, severeVec := bitsOf v 16 11 } } ∧
    exec (.registerWrite t 0xA00E4 v) s = .next { u with fault := { s.fault with evtVec := v % 2048, evtEn := bitOf v 16 } } ∧
    (v % 512 ≤ 415 → exec (.registerWrite t 0xA00C0 v) s = .next { u with fault := { s.fault with sel := v % 512 } }) ∧
    (415 < v % 512 → exec (.registerWrite t 0xA00C0 v) s = .next u) ∧
    (s.det.logEn = false → exec (.registerWrite t 0xC0008 v) s = .next { u with det := { s.det with logSize := v % 32 } }) ∧
    (bitOf v 5 = false → exec (.registerWrite t 0xB0000 v) s = .next { u with safety := { s.safety with next :=
      { goldenEn := bitOf v 0, dualNetworks := bitOf v 1, injectEn := bitOf v 2, scrubEn := bitOf v 3, certDual := bitOf v 4 } } }) ∧
    (exec (.registerWrite t 0x4000C v) s = .next { u with hostq := { s.hostq with ctxIndex := v % 2 ^ 20 } }) ∧
    (∀ k < 16, exec (.registerWrite t (0x40040 + 4 * k) v) s =
      .next { u with hostq := { s.hostq with data := modifyAt (fun _ => v) k s.hostq.data } }) ∧
    (∀ c, 1 ≤ c → c ≤ 4 → v % 8 = c → exec (.registerWrite t 0x40008 v) s =
      .next (ctxCommand (Config.busyNs s.fresh) (match c with | 1 => ctxDoWrite | 2 => ctxDoRead | 3 => ctxDoEnable | _ => ctxDoDisable)
        (bumpFresh u))) ∧
    -- write one to clear
    exec (.registerWrite t 0x20004 v) s = .next { u with pwr := { u.pwr with
      overLimit := s.pwr.overLimit && !bitOf v 1, limitErr := s.pwr.limitErr && !bitOf v 2, refused := s.pwr.refused && !bitOf v 3 } } ∧
    exec (.registerWrite t 0x70010 v) s = .next { u with world := { s.world with
      fcastErr := s.world.fcastErr && !bitOf v 16, zErr := s.world.zErr && !bitOf v 17 } } ∧
    (bitOf v 0 = true → exec (.registerWrite t 0xA00E8 v) s = .next { u with fault := { s.fault with cfgErr := false } }) ∧
    (bitOf v 0 = false → exec (.registerWrite t 0xA00E8 v) s = .next u) ∧
    -- read-only blocks and unlisted offsets
    (∀ off, off % 4 = 0 → off / 65536 ∈ [0x0, 0x3, 0x8, 0x9, 0xD, 0xE, 0xF] → exec (.registerWrite t off v) s = .next u)) ∧
    -- a downstream unit: the host reaches none of its registers through its own endpoint (10 R328), and a write that unit 0 passes on (10 R344) leaves
    -- HOSTQ and the registers of unit 0 as they are
    (¬ (s.chain.head = true ∧ s.pcie.perst = false) → ∀ off, exec (.registerWrite t off v) s = .next u) ∧
    (s.chain.head = false → ∀ off, off % 4 = 0 → off / 65536 = 4 ∨ off ∈ [0x50000, 0x50014, 0x50018, 0x5001C, 0x60000] → regWrite off v u = u)

/-- O18. The registers with a range check, and the write of each as a command of its own: FRAME_PERIOD (02 R37, R38), MAP_WINDOW_Z and
MAP_FORECAST (17 R519), LIMIT_W (16 R479), the rail thresholds (17 R511) and LOG_EN (17 R528). A value in range is taken; a value out of
range is ignored and the register's error bit set. What the commit of a pair does (17 R508, R514, R528): the image address and the BAR2 base
take the value; the doorbell tree's addresses do so while the poller is off, and the log's while the log is off. Rests on choices of the
model, not on rules of the spec: log entries 91, 93 and 123. -/
def Obligations.RangedRegisters : Prop :=
  (∀ (t v r : Nat) (s : State), Live s →
    let u := atDt t s
    let z := signed 32 (v % 2 ^ 32)
    let a := v % 256
    let b := bitsOf v 8 5
    let w := bitsOf v 8 8
    let x := railOf s r
    let y : Rail := { x with err := x.err && !bitOf v 16 }
    -- FRAME_PERIOD
    (s.chain.head = true → 500 ≤ v % 2 ^ 14 → v % 2 ^ 14 ≤ 10000 →
      exec (.framePeriodWrite t v) s = .next { u with frame := { s.frame with periodNext := v % 2 ^ 14 } }) ∧
    (s.chain.head = true → v % 2 ^ 14 < 500 ∨ 10000 < v % 2 ^ 14 →
      exec (.framePeriodWrite t v) s = .next { u with frame := { s.frame with periodErr := true } }) ∧
    (s.chain.head = false → exec (.framePeriodWrite t v) s = .next u) ∧
    -- MAP_WINDOW_Z: one write, before the first seal; the blocking flacon takes it at once (03 R73)
    (s.world.sealedOnce = true ∨ z < -16384 ∨ 16352 < z →
      exec (.mapWindowZWrite t v) s = .next { u with world := { s.world with zErr := true } }) ∧
    (s.world.sealedOnce = false → -16384 ≤ z → z ≤ 16352 → s.world.windowZWritten = false →
      exec (.mapWindowZWrite t v) s = .next { u with world := { s.world with windowZWritten := true, windowZ := z, fl := { s.world.fl with oz := z } } }) ∧
    (s.world.sealedOnce = false → -16384 ≤ z → z ≤ 16352 → s.world.windowZWritten = true → exec (.mapWindowZWrite t v) s = .next u) ∧
    -- MAP_FORECAST
    (10 ≤ a → a ≤ 200 → 1 ≤ b → b ≤ 16 →
      exec (.mapForecastWrite t v) s = .next { u with world := { s.world with fcastNext := some (a, b, bitsOf v 16 8) } }) ∧
    (a < 10 ∨ 200 < a ∨ b < 1 ∨ 16 < b →
      exec (.mapForecastWrite t v) s = .next { u with world := { s.world with fcastErr := true } }) ∧
    -- LIMIT_W
    (90 ≤ a → a ≤ 240 → exec (.limitWWrite t v) s = .next { u with pwr := { u.pwr with limitNext := a } }) ∧
    (a < 90 ∨ 240 < a → exec (.limitWWrite t v) s = .next { u with pwr := { u.pwr with limitErr := true } }) ∧
    -- rail thresholds
    (r < 10 → 80 ≤ a → a ≤ 98 → 75 ≤ w → w ≤ 95 → w + 3 ≤ a → x.low = false →
      exec (.pwrRailThrWrite t r v) s = .next (setRail r { y with warnPct := a, resetPct := w } u)) ∧
    (r < 10 → 80 ≤ a → a ≤ 98 → 75 ≤ w → w ≤ 95 → w + 3 ≤ a → x.low = true →
      exec (.pwrRailThrWrite t r v) s = .next (setRail r { y with held := some (a, w) } u)) ∧
    (r < 10 → ¬ (a = 0 ∧ w = 0) → a < 80 ∨ 98 < a ∨ w < 75 ∨ 95 < w ∨ a < w + 3 →
      exec (.pwrRailThrWrite t r v) s = .next (setRail r { y with err := true } u)) ∧
    -- LOG_EN
    exec (.logEnWrite t false) s = .next { u with det := { s.det with logEn := false } } ∧
    (s.det.logEn = false → 8 ≤ s.det.logSize → s.det.logSize ≤ 24 → s.det.logBase % 64 = 0 → s.det.headAddr % 4 = 0 →
      exec (.logEnWrite t true) s =
        .next { u with det := { s.det with logEn := true, dropped := 0, droppedSince := 0, written := 0 } }) ∧
    (s.det.logEn = true ∨ s.det.logSize < 8 ∨ 24 < s.det.logSize ∨ s.det.logBase % 64 ≠ 0 ∨ s.det.headAddr % 4 ≠ 0 →
      exec (.logEnWrite t true) s = .next u)) ∧
  (∀ (off a : Nat) (u : State),
    (off = 0x10008 → writePair off a u = { u with boot := { u.boot with imgAddr := a } }) ∧
    (off = 0x40098 → writePair off a u = { u with hostq := { u.hostq with bar2Base := a / 2 ^ 28 * 2 ^ 28 } }) ∧
    (off = 0x40080 → u.hostq.pollEn = false → writePair off a u = { u with hostq := { u.hostq with dbLeaf := a } }) ∧
    (off = 0x40088 → u.hostq.pollEn = false → writePair off a u = { u with hostq := { u.hostq with dbMid := a } }) ∧
    (off = 0x40090 → u.hostq.pollEn = false → writePair off a u = { u with hostq := { u.hostq with dbTop := a } }) ∧
    (off = 0xC000C → u.det.logEn = false → writePair off a u = { u with det := { u.det with logBase := a } }) ∧
    (off = 0xC0014 → u.det.logEn = false → writePair off a u = { u with det := { u.det with headAddr := a } }) ∧
    (off ∈ [0x40080, 0x40088, 0x40090] → u.hostq.pollEn = true → writePair off a u = u) ∧
    (off ∈ [0xC000C, 0xC0014] → u.det.logEn = true → writePair off a u = u))

/-- O19. PWR_OK_FALL and PWR_OK_RISE (16 R472, 18 R538). The fall holds the power-on reset with SAFE_STOP asserted, writes nothing to host
memory or the drives, and everything the unit held is lost; it acts on a held unit too. The rise does nothing while PWR_OK is already up;
with VAON below its reset threshold it keeps the power-on reset; with another rail below, a supply reset with cause 1; else DT starts at 0
and the unit runs. A reset of chip scope (14 R431, 16 R485): the fault state of every source survives with its configuration back at the
defaults, DT and the fuses stay, SAFE_STOP is asserted, and the map, the Accord, the body, the warm store, the Net bank, the Ringmaster and
the core memories are lost. Rests on choices of the model, not on rules of the spec: log entries 87 and 127. -/
def Obligations.PowerAndChipReset : Prop :=
  (∀ (t : Nat) (low : List Nat) (s : State),
    (∃ u, exec (.pwrOkFall t) s = .next u ∧ u.pwr.heldReset = true ∧ u.pwr.pwrOk = false ∧ u.net.padA = true ∧ u.net.padB = true ∧
      u.net.state = 0 ∧ u.net.chA.out = s.net.chA.out ∧ u.net.chB.out = s.net.chB.out ∧ u.hostMem = s.hostMem ∧
      u.pcie.msixOut = s.pcie.msixOut ∧ u.dt = 0 ∧ u.work = [] ∧ u.accord = none ∧ u.body = none ∧ u.fault = {} ∧ u.cores.mem = [] ∧
      u.boot.otpRollback = s.boot.otpRollback) ∧
    (s.pwr.pwrOk = true → exec (.pwrOkRise t low) s = .next s) ∧
    (s.pwr.pwrOk = false → 5 ∈ low → ∃ u, exec (.pwrOkRise t low) s = .next u ∧ u.pwr.heldReset = true ∧ u.pwr.pwrOk = true ∧
      (∀ r < 10, (railOf u r).under = low.contains r) ∧ u.dt = 0 ∧ u.net.padA = true ∧ u.net.padB = true ∧ u.hostMem = s.hostMem) ∧
    (s.pwr.pwrOk = false → 5 ∉ low → low ≠ [] → ∃ u, exec (.pwrOkRise t low) s = .next u ∧ u.pwr.supplyHeld = true ∧
      u.pwr.heldReset = false ∧ u.boot.resetCause = 1 ∧ (∀ r < 10, (railOf u r).under = low.contains r) ∧ u.dt = 0 ∧ u.net.padA = true ∧
      u.net.padB = true) ∧
    (s.pwr.pwrOk = false → low = [] → ∃ u, exec (.pwrOkRise t low) s = .next u ∧ Live u ∧ u.dt = 0 ∧ u.boot.resetCause = 0 ∧
      u.pwr.service = 0 ∧ u.net.padA = true ∧ u.net.padB = true ∧ u.hostMem = s.hostMem)) ∧
  (∀ (cause : Nat) (s : State), s.fault.srcs.length = 416 →
    let u := chipReset cause s
    (∀ i < 416, (srcOf u i).sticky = (srcOf s i).sticky ∧ (srcOf u i).severe = (srcOf s i).severe ∧ (srcOf u i).pin = (srcOf s i).pin ∧
      (srcOf u i).count = (srcOf s i).count ∧ (srcOf u i).total = (srcOf s i).total ∧ (srcOf u i).n = (Src.reset i).n ∧
      (srcOf u i).minor = (Src.reset i).minor ∧ (srcOf u i).sev = (Src.reset i).sev ∧ (srcOf u i).en = (Src.reset i).en) ∧
    u.fault.latch = s.fault.latch ∧ u.fault.log = s.fault.log ∧ u.fault.logCount = s.fault.logCount ∧
    u.dt = s.dt ∧ u.boot.otpRollback = s.boot.otpRollback ∧ u.boot.resetCause = cause ∧ u.hostMem = s.hostMem ∧
    u.net.state = 0 ∧ u.net.padA = true ∧ u.net.padB = true ∧ u.net.newest = none ∧ u.net.previous = none ∧
    u.world.index = [] ∧ u.world.fl = {} ∧ u.accord = none ∧ u.body = none ∧ u.warm = [] ∧ u.ringm = {} ∧ u.cores = {} ∧ u.work = [] ∧
    u.pwr.service = (if cause = 4 then 7 else 0))

/-- O20. Supply events (15 R459, R460, 17 R511): a reset-threshold crossing takes the rail's source, then the reset of chip scope with cause 1,
held while the rail is below (18 R538), or the power-on reset for VAON; a warning crossing takes the source and enters the supply-suspect
state; a rail still low 50 us later escalates, once; the recovery ends the condition and applies a threshold write held meanwhile. In
Dormant the VCORE rails are not monitored (16 R500). A held reset and the rails (15 R459, 16 R485, 18 R538). A held supply reset ends when
the last rail below its reset threshold recovers: the unit runs again from that DT; while another rail is below, the recovery leaves it
held. A further crossing acts under a hold: VAON turns a held supply reset into the power-on reset, another rail restarts the supply reset,
and under a held power-on reset the rail is recorded. With PWR_OK high, the recovery of VAON ends a power-on reset, which a rail that is
still below turns into a supply reset. Rests on choices of the model, not on rules of the spec: log entry 87. -/
def Obligations.Supplies : Prop :=
  (∀ (t r : Nat) (s : State), Live s →
    let u := atDt t s
    let x := railOf s r
    let below := setRail r { x with low := true, since := if x.low then x.since else u.dt, under := true } u
    let chip := chipReset 1 (raiseLevel (48 + r) 0 0 below)
    let watched := r < 10 ∧ ¬ (s.pwr.service = 5 ∧ r < 4)
    (¬ watched → exec (.supplyReset t r) s = .next u ∧ exec (.railWarningCrossing t r) s = .next u) ∧
    (r = 5 → exec (.supplyReset t r) s = .next (holdPowerOn true (raiseLevel (48 + r) 0 0 below))) ∧
    (watched → r ≠ 5 → exec (.supplyReset t r) s = .next { chip with pwr := { chip.pwr with supplyHeld := true } }) ∧
    (x.low = true → exec (.railWarningCrossing t r) s = .next u) ∧
    (watched → x.low = false → exec (.railWarningCrossing t r) s = .next (raiseLevel (48 + r) 0 0
      { setRail r { x with low := true, since := u.dt, escalated := false } u with safety := { s.safety with suspect := true } })) ∧
    (x.low = true → x.escalated = false → x.since + 50000 ≤ u.dt →
      exec (.supplyEscalation t r) s = .next (escalate (48 + r) 0 (setRail r { x with escalated := true } u))) ∧
    (x.low = false ∨ x.escalated = true ∨ u.dt < x.since + 50000 → exec (.supplyEscalation t r) s = .next u) ∧
    (x.low = false → exec (.railRecovered t r) s = .next u) ∧
    (x.low = true → r < s.pwr.rails.length → ∃ v, exec (.railRecovered t r) s = .next v ∧ (railOf v r).low = false ∧ (railOf v r).under = false ∧
      (railOf v r).warnPct = (match x.held with | some h => h.1 | none => x.warnPct) ∧
      (railOf v r).resetPct = (match x.held with | some h => h.2 | none => x.resetPct) ∧ 48 + r ∉ v.fault.levels ∧
      (∀ k, k ≠ r → railOf v k = railOf s k) ∧
      v.safety.suspectRecovered = (if v.pwr.rails.any (fun y => y.low) then s.safety.suspectRecovered else u.dt) ∧
      v.net = s.net ∧ v.work = s.work ∧ v.world = s.world ∧ v.hostMem = s.hostMem)) ∧
  (∀ (t r : Nat) (s : State),
    (s.pwr.heldReset = false → s.pwr.supplyHeld = true → (railOf s r).low = true → (∀ k, k ≠ r → (railOf s k).under = false) →
      ∃ u, exec (.railRecovered t r) s = .next u ∧ Live u ∧ u.boot.releaseDt = max s.dt t ∧ u.dt = max s.dt t) ∧
    (s.pwr.heldReset = false → s.pwr.supplyHeld = true → (∃ k < s.pwr.rails.length, k ≠ r ∧ (railOf s k).under = true) →
      ∃ u, exec (.railRecovered t r) s = .next u ∧ u.pwr.supplyHeld = true ∧ u.boot = s.boot) ∧
    (let u := atDt t s
     let x := railOf s r
     let below := setRail r { x with low := true, since := if x.low then x.since else u.dt, under := true } u
     let chip := chipReset 1 (raiseLevel (48 + r) 0 0 below)
     s.pwr.heldReset = false → s.pwr.supplyHeld = true →
     (r = 5 → exec (.supplyReset t r) s = .next (holdPowerOn true (raiseLevel (48 + r) 0 0 below))) ∧
     (r < 10 → r ≠ 5 → ¬ (s.pwr.service = 5 ∧ r < 4) → exec (.supplyReset t r) s =
       .next { chip with pwr := { chip.pwr with supplyHeld := true } })) ∧
    (s.pwr.heldReset = true → r < 10 → ¬ (s.pwr.service = 5 ∧ r < 4) → exec (.supplyReset t r) s =
      .next (setRail r { railOf s r with low := true, since := if (railOf s r).low then (railOf s r).since else s.dt, under := true } s)) ∧
    (s.pwr.heldReset = true → r ≠ 5 ∨ s.pwr.pwrOk = false → exec (.railRecovered t r) s =
      .next (setRail r { railOf s r with low := false, under := false } s)) ∧
    (s.pwr.heldReset = true → s.pwr.pwrOk = true → ∃ u, exec (.railRecovered t 5) s = .next u ∧ u.pwr.heldReset = false ∧ u.dt = 0 ∧
      u.pwr.supplyHeld = u.pwr.rails.any (fun x => x.under) ∧ u.boot.resetCause = (if u.pwr.supplyHeld then 1 else 0) ∧ u.net.padA = true ∧
      u.net.padB = true ∧ u.hostMem = s.hostMem))

/-- O21. Voltage regulation (16 R470, R471): a port that does not answer raises the power-manager source; when a regulator reports that a raised
set point has settled, the thresholds of that die's rail follow it 20 us later and stay at the old level until then; a lowered set point has
nothing left to follow; there are four such rails. A set point that waited is commanded once 100 us have passed since the last change. The
governor (16 R477, R478): every trim records the draw and its peak. With a frame in progress, a draw above the limit lowers the clocks by
one step but never below f_frame, and sets OVER_LIMIT when they are there already; a draw at least 5 % below the limit raises them by one
step, up to 1,400 MHz. A calibration keeps the rail currents read. Rests on choices of the model, not on rules of the spec: log entries 15,
85, 87 and 121. -/
def Obligations.VoltageAndGovernor : Prop :=
  (∀ (t k : Nat) (s : State), Live s →
    let u := atDt t s
    exec (.avsTimeout t k) s = .next (raise 22 0 k u) ∧
    (k < 4 → u.pwr.raised.getD k false = true → exec (.regulatorSettled t k) s = .next { u with pwr := { u.pwr with
      thrNext := modifyAt (fun _ => some (u.pwr.vset.getD k 40, u.dt + 20000)) k u.pwr.thrNext,
      raised := modifyAt (fun _ => false) k u.pwr.raised } }) ∧
    (4 ≤ k ∨ u.pwr.raised.getD k false = false → exec (.regulatorSettled t k) s = .next u) ∧
    (∀ lvl d, k < 4 → s.pwr.thr.length = 4 → s.pwr.vsetWant.getD k none = none → s.pwr.thrNext.getD k none = some (lvl, d) →
      u.pwr.thr.getD k 0 = (if d ≤ u.dt then lvl else s.pwr.thr.getD k 0)) ∧
    (∀ w, k < 4 → s.pwr.vset.length = 4 → s.pwr.vsetWant.getD k none = some w →
      u.pwr.vset.getD k 0 = (if s.pwr.vsetAt.getD k 0 + 100000 ≤ u.dt then w else s.pwr.vset.getD k 0))) ∧
  (∀ (t draw : Nat) (cur : List Nat) (s : State), Live s →
    let v : State := atDt t s
    let p : Pwr := { v.pwr with draw := draw, peak := max s.pwr.peak draw }
    let u : State := { v with pwr := p }
    exec (.governorCalibrate t cur) s = .next { v with pwr := { v.pwr with currents := cur } } ∧
    (s.frame.cur = none → exec (.governorTrim t draw) s = .next u) ∧
    (s.frame.cur ≠ none →
      (10 * s.pwr.limit < draw → s.pwr.clock ≤ s.pwr.fFrame → exec (.governorTrim t draw) s = .next { u with pwr := { p with overLimit := true } }) ∧
      (10 * s.pwr.limit < draw → s.pwr.fFrame < s.pwr.clock →
        exec (.governorTrim t draw) s = .next (setClock (max s.pwr.fFrame (s.pwr.clock - 25)) u)) ∧
      (draw ≤ 10 * s.pwr.limit → draw * 10 ≤ 95 * s.pwr.limit →
        exec (.governorTrim t draw) s = .next (setClock (max s.pwr.fFrame (min 1400 (s.pwr.clock + 25))) u)) ∧
      (draw ≤ 10 * s.pwr.limit → 95 * s.pwr.limit < draw * 10 → exec (.governorTrim t draw) s = .next u)))

/-- O22. A temperature sample (16 R481, R482, R484): it is recorded with its warning, limit and trip bits and moves a compute die's thermal cap
by one step of 25 MHz, down at or above warning to no less than 400 MHz, up at or below warning - 3 to no more than 1,400 MHz. Then the
die's source begins or ends with the warning, escalates at the junction limit, and the second sample in a row at trip is a chip reset with
cause THERMAL. The sensors of a compute die give no sample while it has no power: before stage 2 has powered it, and in Dormant (16 R493,
R499, R500, 17 R530). A unit halted by THERMAL boots again with the sample at which every sensor reads below warning (16 R484), and not
while one does not. Rests on choices of the model, not on rules of the spec: log entry 120. -/
def Obligations.Temperature : Prop :=
  (∀ (t die : Nat) (temp : Int) (s : State), Live s → die < 9 → s.pwr.service ≠ 7 →
    let gone := (s.pwr.service = 5 ∨ s.boot.stage2 = false) ∧ 1 ≤ die ∧ die ≤ 4
    let w : Int := if s.grade = 1 then 1600 else 1440
    let l : Int := if s.grade = 1 then 1680 else 1520
    let tr : Int := if s.grade = 1 then 1840 else 1680
    let cap := s.temp.fcap.getD (die - 1) 56
    let cap' := if w ≤ temp then max 16 (cap - 1) else if temp ≤ w - 48 then min 56 (cap + 1) else cap
    let x : State := { atDt t s with temp := { s.temp with
      temps := modifyAt (fun _ => temp) die s.temp.temps, warn := modifyAt (fun _ => decide (w ≤ temp)) die s.temp.warn,
      lim := modifyAt (fun _ => decide (l ≤ temp)) die s.temp.lim, trip := modifyAt (fun _ => decide (tr ≤ temp)) die s.temp.trip,
      fcap := if 1 ≤ die ∧ die ≤ 4 then modifyAt (fun _ => cap') (die - 1) s.temp.fcap else s.temp.fcap } }
    (gone → exec (.tempSample t die temp) s = .next (atDt t s)) ∧
    (¬ gone → temp < w → exec (.tempSample t die temp) s = .next (endLevel (58 + die) x)) ∧
    (¬ gone → w ≤ temp → temp < l → exec (.tempSample t die temp) s = .next (raiseLevel (58 + die) 0 0 x)) ∧
    (¬ gone → l ≤ temp → temp < tr ∨ s.temp.trip.getD die false = false →
      exec (.tempSample t die temp) s = .next (escalate (58 + die) 0 (raiseLevel (58 + die) 0 0 x))) ∧
    (¬ gone → tr ≤ temp → s.temp.trip.getD die false = true →
      exec (.tempSample t die temp) s = .next (chipReset 4 (escalate (58 + die) 0 (raiseLevel (58 + die) 0 0 x))))) ∧
  (∀ (t die : Nat) (temp : Int) (s : State), Live s → die < 9 → s.pwr.service = 7 → s.temp.tripped = true → s.boot.authFail = false → s.boot.strapErr = false →
    let w : Int := if s.grade = 1 then 1600 else 1440
    temp < w → -32768 < temp → s.temp.temps.length = 9 →
    ((∀ k < 9, k ≠ die → -32768 < s.temp.temps.getD k 0 ∧ s.temp.temps.getD k 0 < w) →
      ∃ u, exec (.tempSample t die temp) s = .next u ∧ u.pwr.service = 0 ∧ u.boot.releaseDt = max s.dt t) ∧
    ((∃ k < 9, k ≠ die ∧ (s.temp.temps.getD k 0 = -32768 ∨ w ≤ s.temp.temps.getD k 0)) →
      ∃ u, exec (.tempSample t die temp) s = .next u ∧ u.pwr.service = 7))

/-- O23. The monitors (15 R458, R449, R454): the reference, REFCLK, compute and hub clocks are checked each against its own band, REFCLK only
while its monitor is on, a compute die's clock while the die has power (16 R493, R499); a scrub pass not finished raises scrub-incomplete;
an instance of a checker that did not flag the input of a tick's injection within 10 us is taken as failed (the syndrome is log 15's). Rests
on choices of the model, not on rules of the spec: log entries 15 and 120. -/
def Obligations.Monitors : Prop :=
  ∀ (t k ppm : Nat) (s : State), Live s →
    let u := atDt t s
    let power : Prop := s.boot.stage2 = true ∧ s.pwr.service ≠ 5
    let off (pc : Nat) : Prop := ppm < 1000000 - 10000 * pc ∨ 1000000 + 10000 * pc < ppm
    (off 2 → exec (.clockMonitorWindow t 0 ppm) s = .next (raiseLevel 68 0 ppm { u with clk := { s.clk with ref25 := false } })) ∧
    (¬ off 2 → exec (.clockMonitorWindow t 0 ppm) s = .next (endLevel 68 { u with clk := { s.clk with ref25 := true } })) ∧
    (s.chain.head = true → s.clk.refclkMon = true → off 2 →
      exec (.clockMonitorWindow t 1 ppm) s = .next (raiseLevel 69 0 ppm { u with clk := { s.clk with refclk := false } })) ∧
    (s.chain.head = true → s.clk.refclkMon = true → ¬ off 2 →
      exec (.clockMonitorWindow t 1 ppm) s = .next (endLevel 69 { u with clk := { s.clk with refclk := true } })) ∧
    (s.chain.head = false ∨ s.clk.refclkMon = false → exec (.clockMonitorWindow t 1 ppm) s = .next u) ∧
    (k < 4 → power → ppm > 1030000 ∨ ppm = 0 → exec (.clockMonitorWindow t (2 + k) ppm) s = .next (raiseLevel (70 + k) 0 ppm u)) ∧
    (k < 4 → power → ppm ≤ 1030000 → ppm ≠ 0 → exec (.clockMonitorWindow t (2 + k) ppm) s = .next (endLevel (70 + k) u)) ∧
    (k < 4 → ¬ power → exec (.clockMonitorWindow t (2 + k) ppm) s = .next u) ∧
    (off 5 → exec (.clockMonitorWindow t 6 ppm) s = .next (raiseLevel 74 0 ppm u)) ∧
    (¬ off 5 → exec (.clockMonitorWindow t 6 ppm) s = .next (endLevel 74 u)) ∧
    (k < 4 → s.safety.ctrl.scrubEn = true → exec (.scrubPassEnd t k false) s = .next (raise (115 + 4 * k) 0 0 u)) ∧
    (s.safety.ctrl.scrubEn = false → ∀ b, exec (.scrubPassEnd t k b) s = .next u) ∧ exec (.scrubPassEnd t k true) s = .next u ∧
    (∀ c t0, injects u c = true → s.safety.injecting = some t0 → t0 + 10000 ≤ u.dt → c ∉ s.safety.injFailed → exec (.injectionTimeout t c) s =
      .next (raise 81 0 (injNum c + 2 ^ 24 * injKind c) { u with safety := { s.safety with injFailed := s.safety.injFailed ++ [c] } })) ∧
    (∀ c, injects u c = false ∨ s.safety.injecting = none ∨ (∃ t0, s.safety.injecting = some t0 ∧ u.dt < t0 + 10000) ∨
      c ∈ s.safety.injFailed → exec (.injectionTimeout t c) s = .next u)

/-- O24. Boot (16 R487, R489, R491, R493, 17 R509): straps are read once after a reset, the reserved code halts the unit with STRAP_ERR; GO is
taken or sets IMG_ERR; COMMIT_ROLLBACK raises the fuse counter to the running image's index when that is higher, and never lowers it; a host
chip reset is taken only in NO_NET and STANDSTILL; REDUCED begins when the stacks are trained and C0 cluster 0 has passed, or the first
cluster in service where cluster 0 is out, and V_RAISED is shown from then on where the 30 ms window differs (R494). Secure boot (16 R489 to
R493) of a unit that boots from its flash. In BOOT stage 1 starts from the best slot whose header and stage 1 verify: the safety island
comes up with Ringmaster running, and ID_FW_VERSION keeps its reset value (17 R507). In ISLAND stage 2 starts from the best slot that is
accepted as a whole, and the compute dies are powered. Either needs the part's key and no roll-back, and stage 2 the signature over the
whole image. Best is the higher version, slot A at equal versions. With none the unit halts with AUTH_FAIL and the boot-and-OTP source, or,
strapped FLASH_HOST, waits for the host's image. Rests on choices of the model, not on rules of the spec: log entries 120, 127 and 129. -/
def Obligations.Boot : Prop :=
  (∀ (t src : Nat) (head full : Bool) (s : State), Live s →
    let u := atDt t s
    let sampled : State := { u with
      boot := { s.boot with sampled := true, bootSrc := src % 4 }, clk := { s.clk with hubLock := true, ref25 := true },
      chain := { s.chain with head := head, addressed := head } }
    let fromHost : Prop := s.chain.head = true ∧ s.boot.sampled = true ∧
      (s.boot.bootSrc = 1 ∨ (s.boot.bootSrc = 2 ∧ (s.boot.hostWaiting = true ∨ s.boot.hostGo = true)))
    (s.boot.sampled = true → exec (.strapSample t src head) s = .next u) ∧
    (s.boot.sampled = false → src % 4 = 0 ∨ src % 4 = 2 → exec (.strapSample t src head) s = .next sampled) ∧
    (s.boot.sampled = false → src % 4 = 3 → exec (.strapSample t src head) s =
      .next (setService 7 { sampled with boot := { sampled.boot with strapErr := true } })) ∧
    (s.boot.sampled = false → src % 4 = 1 → head = true → exec (.strapSample t src head) s =
      .next (deviceEvent { sampled with boot := { sampled.boot with hostWaiting := true } })) ∧
    (s.boot.sampled = false → src % 4 = 1 → head = false → exec (.strapSample t src head) s = .next sampled) ∧
    (s.pwr.service = 0 → fromHost → s.boot.imgAddr % 8 = 0 → 512 ≤ s.boot.imgLen → s.boot.imgLen ≤ 983552 →
      exec (.go t) s = .next { u with boot := { s.boot with hostGo := true, hostWaiting := false } }) ∧
    (s.pwr.service ≠ 0 ∨ ¬ fromHost ∨ s.boot.imgAddr % 8 ≠ 0 ∨ s.boot.imgLen < 512 ∨ 983552 < s.boot.imgLen →
      exec (.go t) s = .next { u with boot := { s.boot with imgErr := true } }) ∧
    (s.boot.stage2 = true → s.boot.otpRollback < s.boot.imgRollback →
      exec (.commitRollback t) s = .next { u with boot := { s.boot with otpRollback := max s.boot.otpRollback (min s.boot.imgRollback 64) } }) ∧
    (s.boot.stage2 = false ∨ s.boot.imgRollback ≤ s.boot.otpRollback → exec (.commitRollback t) s = .next u) ∧
    (s.net.state = 0 ∨ s.net.state = 3 → exec (.chipResetRequest t) s = .next (chipReset 3 u)) ∧
    (s.net.state ≠ 0 → s.net.state ≠ 3 → exec (.chipResetRequest t) s = .next { u with pwr := { u.pwr with refused := true } }) ∧
    (let v : State := { u with boot := { s.boot with stacksTrained := true, stacksFull := s.boot.stacksFull || full } }
     let ready : Prop := s.pwr.service = 1 ∧ s.boot.stage2 = true ∧ ∃ q ∈ s.safety.startDone, ∀ x < q, clusterOut s x = true
     let w : State := setService 2 v
     (ready → exec (.stackTrainingComplete t full) s = .next { w with net := { w.net with
       vRaised := w.net.vHeld.isSome || decide ((w.net.cfg.getD {}).validityUs < 30000) } }) ∧
     (¬ ready → exec (.stackTrainingComplete t full) s = .next v))) ∧
  (∀ (t : Nat) (a b : BootImg) (s : State), Live s → s.boot.sampled = true → s.boot.stage2 = false →
    s.boot.bootSrc = 0 ∨ s.boot.bootSrc = 2 → s.boot.hostGo = false → s.boot.hostWaiting = false →
    let ok1 (i : BootImg) : Prop := stage1Ok s.boot i = true
    let ok2 (i : BootImg) : Prop := imgOk s.boot i = true
    let best (ok : BootImg → Prop) (slot : Nat) : Prop :=
      (slot = 0 ∧ ok a ∧ (ok b → imgVersion b ≤ imgVersion a)) ∨ (slot = 1 ∧ ok b ∧ (ok a → imgVersion a < imgVersion b))
    let img (slot : Nat) : BootImg := if slot = 0 then a else b
    let dead : State := { atDt t s with boot := { s.boot with slot := 3, fwVersion := 0, imgRollback := 0 }, ringm := { s.ringm with running := false } }
    (∀ slot, s.pwr.service = 0 → best ok1 slot → ∃ u, exec (.secureBoot t [(0, a), (1, b)]) s = .next u ∧
      u.boot.slot = slot ∧ u.boot.stage2 = false ∧ u.boot.fwVersion = s.boot.fwVersion ∧ u.boot.imgRollback = imgRollback (img slot) ∧
      u.pwr.service = 1 ∧ u.ringm.running = true ∧ u.clk = s.clk ∧ u.net = s.net ∧ u.boot.otpRollback = s.boot.otpRollback) ∧
    (∀ slot, s.pwr.service = 1 → best ok2 slot → ∃ u, exec (.secureBoot t [(0, a), (1, b)]) s = .next u ∧
      u.boot.slot = slot ∧ u.boot.stage2 = true ∧ u.boot.fwVersion = imgVersion (img slot) ∧ u.boot.imgRollback = imgRollback (img slot) ∧
      u.boot.retainedFw = imgVersion (img slot) ∧ u.pwr.service = 1 ∧ u.clk.dieLock = 15 ∧ u.ringm = s.ringm ∧ u.net = s.net ∧
      u.boot.otpRollback = s.boot.otpRollback) ∧
    ((s.pwr.service = 0 ∧ ¬ ok1 a ∧ ¬ ok1 b) ∨ (s.pwr.service = 1 ∧ ¬ ok2 a ∧ ¬ ok2 b) →
      (s.boot.bootSrc = 0 ∨ s.chain.head = false → exec (.secureBoot t [(0, a), (1, b)]) s =
        .next (raise 23 0 0 (setService 7 { dead with boot := { dead.boot with authFail := true, hostGo := false, hostWaiting := false } }))) ∧
      (s.boot.bootSrc = 2 → s.chain.head = true → exec (.secureBoot t [(0, a), (1, b)]) s =
        .next (deviceEvent (setService 0 { dead with boot := { dead.boot with hostWaiting := true } })))) ∧
    (2 ≤ s.pwr.service → exec (.secureBoot t [(0, a), (1, b)]) s = .next (atDt t s)) ∧
    (∀ i, ok1 i ∨ ok2 i → sha384 (imgKey i) = s.boot.otpKeyHash ∧ s.boot.otpRollback ≤ imgRollback i) ∧ (∀ i, ok2 i → imgVerifies i = true))

/-- O25. Dormancy (16 R498 to R502): a request on unit 0 is accepted exactly when every Net is at rest, every context is DISABLED and no
rotation and no load runs, else refused; the entry empties the Net bank and the hazard list, asserts SAFE_STOP and keeps the map, the
Accord, the body and the firmware; a wake is accepted in DORMANT only; a wake whose firmware verifies comes back to full service with the
failing units fenced, and one whose firmware fails boots again as after a chip reset. What a wake brings back (16 R501 steps 3 to 9), with
no failing unit and device events off: FULL service, STARTUP_DONE, the retained firmware and Ringmaster running, the map and the Accord as
before Dormant, frames to come. Rests on choices of the model, not on rules of the spec: log entries 70, 86, 88, 89, 90, 129 and 137. -/
def Obligations.Dormancy : Prop :=
  (∀ (t : Nat) (rest : Bool) (failed : List (CUnit × Nat)) (s : State), Live s →
    let u := atDt t s
    let may : Prop := s.chain.head = true ∧ (s.net.state = 0 ∨ s.net.state = 3) ∧ rest = true ∧ (∀ c ∈ s.hostq.ctxs, c.2.state = 0) ∧
      carouselBusy s = false ∧ accordLoading s = false
    (may → exec (.dormantReq t rest) s = .next { u with pwr := { u.pwr with dormantWanted := true } }) ∧
    (¬ may → exec (.dormantReq t rest) s = .next { u with pwr := { u.pwr with refused := true } }) ∧
    (dormantReady s = false → exec (.dormantEntry t) s = .next u) ∧
    (dormantReady s = true → ∃ v, exec (.dormantEntry t) s = .next v ∧ v.pwr.service = 5 ∧ v.net.state = 0 ∧ v.net.newest = none ∧
      v.net.previous = none ∧ v.net.padA = true ∧ v.net.padB = true ∧ v.world.hazards = [] ∧ v.frame.cur = none ∧
      v.ringm.running = false ∧ v.ringm.mem = [] ∧ v.cores.st = [] ∧ v.chain.up.state = 0 ∧ v.chain.dn.state = 0 ∧ v.world.index = s.world.index ∧ v.world.pool = s.world.pool ∧
      v.accord = s.accord ∧ v.body = s.body ∧ v.warm = s.warm ∧ v.boot = s.boot ∧ v.fault = s.fault ∧ v.units = s.units) ∧
    (s.chain.head = true → s.pwr.service ≠ 5 → exec (.wake t) s = .next { u with pwr := { u.pwr with refused := true } }) ∧
    (s.chain.head = true → s.pwr.service = 5 → exec (.wake t) s = .next (setService 6 { u with safety := { s.safety with startupDone := false } })) ∧
    (s.chain.head = false → exec (.wake t) s = .next u) ∧
    (s.pwr.service = 5 → exec (.i3cWake t) s = .next (setService 6 { u with safety := { s.safety with startupDone := false } })) ∧
    (s.pwr.service ≠ 5 → exec (.i3cWake t) s = .next u) ∧
    (s.pwr.service = 6 → exec (.wakeComplete t true failed) s = .next (wakeUp failed u)) ∧
    (s.pwr.service = 6 → ∃ v, exec (.wakeComplete t false failed) s = .next v ∧ v.pwr.service = 0 ∧ v.world.index = [] ∧
      v.accord = none ∧ v.body = none ∧ v.boot.resetCause = s.boot.resetCause ∧ v.boot.stage2 = false ∧ v.net.padA = true ∧ v.net.padB = true) ∧
    (s.pwr.service ≠ 6 → s.chain.head = true → ∀ ok, exec (.wakeComplete t ok failed) s = .next u)) ∧
  (∀ (t : Nat) (s : State), Live s → s.pwr.service = 6 → s.fault.evtEn = false →
    ∃ v, exec (.wakeComplete t true []) s = .next v ∧ v.pwr.service = 3 ∧ v.safety.startupDone = true ∧ v.safety.pairsOut = [] ∧
      v.ringm.running = true ∧ v.boot.fwVersion = s.boot.retainedFw ∧ v.frame.wakeTick = some ((max s.dt t / 1000000 + 1) * 1000000) ∧ v.clk.dieLock = 15 ∧ v.frame.number = s.frame.number ∧
      v.world.index = s.world.index ∧ v.world.pool = s.world.pool ∧ v.accord = s.accord ∧ v.body = s.body ∧ v.warm = s.warm ∧
      v.units = s.units ∧ v.net = s.net ∧ v.fault = s.fault ∧ v.hostMem = s.hostMem)

/-- O26. One event of a source (14 R422, R423, R425, R426), in use, enabled, not a level source whose condition lasts already, with no other
report in its hub cycle and no configuration write in it: the total and the window counter advance, a new window opens at or after its end,
N events in a window set `severe` (never by count for the temperature sources, R552), `sticky` and, with FAULT_N in the set taken, `pin` are
set; an empty latch takes the event of a latching source and a full one overflows. No other source's state changes, whatever the reactions
do. The whole effect of that event (14 R422, R426, R428): the source's new state, the latch, one log entry when the set taken is not empty,
and the reactions of the set. A level source's condition is then in effect (R423); the link of a Midway-uncorrectable source has failed over
before (01 R31). Reports that are no event (14 R418, R421, 15 R553): of a reserved source, a source not in use or of a block in reset or an
isolated cluster, of a source with EN 0, a second report in one hub cycle, or one of a level source whose condition lasts (R423). A ring
link whose flit could not be corrected fails over all the same (01 R31). Rests on choices of the model, not on rules of the spec: log
entries 79 and 104. -/
def Obligations.FaultEvents : Prop :=
  (∀ (t i addr syn : Nat) (s : State), Live s → s.fault.srcs.length = 416 → i < 416 →
    let u := atDt t s
    let x := srcOf s i
    silent u i = false → x.en = true → (∀ t', x.lastDt = some t' → hubCycle t' ≠ hubCycle u.dt) →
    (∀ p, s.fault.prev = some p → p.2.1 = i → hubCycle p.1 ≠ hubCycle u.dt) → (srcLevel i = true → i ∉ s.fault.levels) → isStackLost i = false →
    let opened : Bool := x.count == 0 || decide (x.winStart + 1000 * 2 ^ x.w ≤ u.dt)
    let count := if opened then 1 else min (x.count + 1) 255
    let severe : Bool := x.severe || (decide (x.n ≤ count) && !(decide (58 ≤ i) && decide (i ≤ 66)))
    let r := if severe then x.sev else x.minor
    ∃ v, exec (.faultEvent t i addr syn) s = .next v ∧
      (srcOf v i).sticky = true ∧ (srcOf v i).total = min (x.total + 1) 65535 ∧ (srcOf v i).count = count ∧
      (srcOf v i).winStart = (if opened then u.dt else x.winStart) ∧ (srcOf v i).severe = severe ∧
      (srcOf v i).pin = (x.pin || bitOf r 4) ∧
      (∀ k, k < 416 → k ≠ i → (srcOf v k).sticky = (srcOf s k).sticky ∧ (srcOf v k).severe = (srcOf s k).severe ∧
        (srcOf v k).pin = (srcOf s k).pin ∧ (srcOf v k).count = (srcOf s k).count ∧ (srcOf v k).total = (srcOf s k).total) ∧
      (∀ f, s.fault.latch = some f → v.fault.latch = some f ∧ v.fault.overflow = true) ∧
      (s.fault.latch = none → x.latch = true → v.fault.latch = some
        { dt := u.dt, addr := addr, syn := syn, src := i, reactions := r, entry := b2n severe, frame := s.frame.number % 2 ^ 32 }) ∧
      (s.fault.latch = none → x.latch = false → v.fault.latch = none)) ∧
  (∀ (t i addr syn : Nat) (s : State), Live s →
    let u := reported i syn t s
    let x := srcOf s i
    silent u i = false → x.en = true → (∀ t', x.lastDt = some t' → hubCycle t' ≠ hubCycle u.dt) →
    (∀ p, s.fault.prev = some p → p.2.1 = i → hubCycle p.1 ≠ hubCycle u.dt) → (srcLevel i = true → i ∉ s.fault.levels) → isStackLost i = false →
    let opened : Bool := x.count == 0 || decide (x.winStart + 1000 * 2 ^ x.w ≤ u.dt)
    let count := if opened then 1 else min (x.count + 1) 255
    let severe : Bool := x.severe || (decide (x.n ≤ count) && !(decide (58 ≤ i) && decide (i ≤ 66)))
    let r := if severe then x.sev else x.minor
    let y : Src := { x with total := min (x.total + 1) 65535, winStart := if opened then u.dt else x.winStart, count := count,
                            severe := severe, sticky := true, pin := x.pin || bitOf r 4, lastDt := some u.dt, was := x.sticky }
    let e : FRec := { dt := u.dt, addr := addr, syn := syn, src := i, reactions := r, entry := b2n severe, frame := s.frame.number % 2 ^ 32 }
    let z := latchEvent x.latch e (setSrc i y u)
    exec (.faultEvent t i addr syn) s = .next (react r i syn severe (reportFaultN (faultN s) (if r = 0 then z else logFault e z)))) ∧
  (∀ (t i addr syn : Nat) (s : State), Live s →
    let u := reported i syn t s
    isStackLost i = false →
    (srcLevel i = true → i ∈ s.fault.levels → exec (.faultEvent t i addr syn) s = .next (atDt t s)) ∧
    ((srcLevel i = true → i ∉ s.fault.levels) →
    (silent u i = true → exec (.faultEvent t i addr syn) s = .next u) ∧
    ((srcOf s i).en = false → (∀ p, s.fault.prev = some p → p.2.1 = i → hubCycle p.1 ≠ hubCycle u.dt) →
      exec (.faultEvent t i addr syn) s = .next u) ∧
    (∀ t', (srcOf s i).lastDt = some t' → hubCycle t' = hubCycle u.dt → exec (.faultEvent t i addr syn) s = .next u)))

/-- O27. Each reaction (14 R427, R428): NET is a firing event of source 2, FENCE removes the unit, NMI writes the trap cause of the pairs of
FAULT_NMI_PAIRS, IRQ sends the vector of the event's severity, BLOCK_RESET begins a block reset, CHIP_RESET resets the chip with cause 2
after every earlier step of the set; FAULT_N follows `pin` and adds nothing here. Rests on choices of the model, not on rules of the spec:
log entry 15. -/
def Obligations.ReactionSets : Prop :=
  ∀ (i syn : Nat) (severe : Bool) (s : State),
    react 0 i syn severe s = s ∧ react rP i syn severe s = s ∧
    react rN i syn severe s = fireNet 2 s ∧ react rF i syn severe s = applyFence i syn s ∧
    react rI i syn severe s = sendMsix (if severe then s.fault.severeVec else s.fault.minorVec) s ∧
    react rB i syn severe s = beginBlockReset i s ∧ react rC i syn severe s = chipReset 2 s ∧
    (∃ v, react rM i syn severe s = v ∧ v.net = s.net ∧ v.fault.srcs = s.fault.srcs ∧
      ∀ p < 8, lookupO p v.fault.nmiCause = if bitOf s.fault.nmiPairs p then some i else lookupO p s.fault.nmiCause) ∧
    react (rN + rF + rP + rM + rI + rB + rC) i syn severe s =
      chipReset 2 (react rB i syn severe (react rI i syn severe (react rM i syn severe (react rF i syn severe (react rN i syn severe s)))))

/-- O28. A level source (14 R423): its condition raises one event when it begins and none while it lasts, and after it has ended it raises one
again; the same for a report that names the source. An event source's condition is its event. A stack that becomes unreachable (14 R436): it
stays so, the running FRAME_RUN aborts, and every other accepted work item but a CONFIGURE or a DIAG completes with ABORTED_FAULT and the
source in `aux0`, however the source is reported. Rests on choices of the model, not on rules of the spec: log entry 27. -/
def Obligations.LevelSources : Prop :=
  (∀ (t i addr syn : Nat) (ended : List Nat) (s : State), Live s → isStackLost i = false → (∀ k ∈ ended, k < 112 ∨ 128 ≤ k) →
    (srcLevel i = false → exec (.levelSourceBegin t i addr syn []) s = exec (.faultEvent t i addr syn) s) ∧
    (srcLevel i = true →
    let u := atDt t s
    let w : State := { u with fault := { s.fault with levels := s.fault.levels.filter (fun k => !ended.contains k) } }
    (i ∈ w.fault.levels → exec (.levelSourceBegin t i addr syn ended) s = .next w) ∧
    (i ∉ w.fault.levels → exec (.levelSourceBegin t i addr syn ended) s =
      .next (raise i addr syn { w with fault := { w.fault with levels := w.fault.levels ++ [i] } })) ∧
    exec (.faultEvent t i addr syn) s = exec (.levelSourceBegin t i addr syn []) s)) ∧
  (∀ (t k addr syn : Nat) (s : State), Live s → k < 4 → 114 + 4 * k ∉ s.fault.levels →
    let i := 114 + 4 * k
    exec (.faultEvent t i addr syn) s = exec (.levelSourceBegin t i addr syn []) s ∧ exec (.levelSourceBegin t i addr syn []) s =
      .next (abortAll 0x21 i (fun w => match w.item with | .configure _ => true | .diag .. => true | _ => false) (abortFrameRun 0x21 i
        (raise i addr syn { atDt t s with fault := { s.fault with
          levels := s.fault.levels ++ [i], stackLost := some (s.fault.stackLost.getD i) } }))))

/-- O29. The clear of sources by a sticky word (14 R441): where no level source that lasts is named, every source named by a one has `sticky`,
`severe`, `pin` and the window counter 0 and its total as before; one whose event came in the clear's own hub cycle takes that event after
the clear, with a new window; no other source's state changes. A level source cleared while its condition lasts is cleared and logged, and
then takes a new event in the hub cycle after the clear (R423); DT is as the clear left it, but for a reset of the chip by that event. The
clear of the latch and the write of a source's configuration (14 R424, R441, R552, 17 R524): a reserved index, N 0, w above 24 or a MINOR
set for a source of default N 1 is refused as a whole with CFG_ERR; a valid write keeps the window in progress; the temperature sources keep
N and w. Rests on choices of the model, not on rules of the spec: log entry 136. -/
def Obligations.CollectorAccess : Prop :=
  ((∀ (t word val : Nat) (s : State), Live s → s.fault.srcs.length = 416 → word < 13 →
    (∀ k ∈ s.fault.levels, k / 32 ≠ word ∨ bitOf val (k % 32) = false) →
    ∃ v, exec (.faultStickyClear t word val) s = .next v ∧ v.fault.levels = s.fault.levels ∧
      (∀ i < 416, i / 32 = word → bitOf val (i % 32) = true → (srcOf s i).sticky = true → sameCycle (srcOf s i) (max s.dt t) = false →
        (srcOf v i).sticky = false ∧ (srcOf v i).severe = false ∧ (srcOf v i).pin = false ∧ (srcOf v i).count = 0 ∧
        (srcOf v i).total = (srcOf s i).total) ∧
      (∀ i < 416, i / 32 = word → bitOf val (i % 32) = true → (srcOf s i).sticky = true → sameCycle (srcOf s i) (max s.dt t) = true →
        let severe : Bool := decide ((srcOf s i).n ≤ 1) && !(decide (58 ≤ i) && decide (i ≤ 66))
        (srcOf v i).sticky = true ∧ (srcOf v i).severe = severe ∧ (srcOf v i).count = 1 ∧ (srcOf v i).winStart = max s.dt t ∧
        (srcOf v i).pin = bitOf (if severe then (srcOf s i).sev else (srcOf s i).minor) 4 ∧ (srcOf v i).total = (srcOf s i).total) ∧
      (∀ i < 416, i / 32 ≠ word ∨ bitOf val (i % 32) = false ∨ (srcOf s i).sticky = false →
        (srcOf v i).sticky = (srcOf s i).sticky ∧ (srcOf v i).severe = (srcOf s i).severe ∧ (srcOf v i).pin = (srcOf s i).pin ∧
        (srcOf v i).count = (srcOf s i).count ∧ (srcOf v i).total = (srcOf s i).total)) ∧
  (∀ (t i : Nat) (s : State), Live s → i < 416 → i ∈ s.fault.levels → (srcOf s i).sticky = true →
    sameCycle (srcOf s i) (max s.dt t) = false →
    let u := atDt t s
    let next := nextHubCycle u.dt
    let w := reportFaultN (faultN u) (logAction 2 i 0 (setSrc i { srcOf s i with sticky := false, severe := false, pin := false, count := 0 } u))
    let z := takeEvent i 0 0 { w with dt := next }
    (z.dt = next → exec (.faultStickyClear t (i / 32) (2 ^ (i % 32))) s = .next { z with dt := u.dt }) ∧
    (z.dt ≠ next → exec (.faultStickyClear t (i / 32) (2 ^ (i % 32))) s = .next z))) ∧
  (∀ (t v : Nat) (s : State), Live s →
    let u := atDt t s
    let i := s.fault.sel
    let x := srcOf s i
    let n := bitsOf v 2 8
    let w := bitsOf v 10 5
    let minor := bitsOf v 15 7
    let temp : Prop := 58 ≤ i ∧ i ≤ 66
    let err : State := { u with fault := { s.fault with cfgErr := true } }
    let wrote (y : Src) : State := { setSrc i y u with fault := { (setSrc i y u).fault with prev := some (u.dt, i, x) } }
    exec (.fflClear t) s = .next { u with fault := { s.fault with latch := none, overflow := false } } ∧
    (srcDefault i = none → exec (.faultSrcCfgWrite t v) s = .next err) ∧
    (∀ dn dw dm ds, srcDefault i = some (dn, dw, dm, ds) →
      (¬ temp → n = 0 ∨ 24 < w ∨ (dn = 1 ∧ minor ≠ 0) → exec (.faultSrcCfgWrite t v) s = .next err) ∧
      (temp → dn = 1 ∧ minor ≠ 0 → exec (.faultSrcCfgWrite t v) s = .next err) ∧
      (¬ temp → n ≠ 0 → w ≤ 24 → dn ≠ 1 ∨ minor = 0 → exec (.faultSrcCfgWrite t v) s =
        .next (wrote { x with en := bitOf v 0, latch := bitOf v 1, n := n, w := w, minor := minor, sev := bitsOf v 22 7 })) ∧
      (temp → dn ≠ 1 ∨ minor = 0 → exec (.faultSrcCfgWrite t v) s =
        .next (wrote { x with en := bitOf v 0, latch := bitOf v 1, minor := minor, sev := bitsOf v 22 7 }))))

/-- O30. The end of a block reset and of a spare's load (14 R430, 01 R18): a Net channel sends again at once, a cluster comes back and a loaded
spare takes over at the next tick; a block that is not in reset, or a spare that is not loading, changes nothing. The loss of a control-core
pair (12 R376, R395): the first mismatch of a pair in service takes it out, raises its source, rebinds its threads in ascending entry
number, as Ringmaster's event of that hub cycle, and raises firmware-pairs-lost when pairs 0 and 1 are both out; a pair already out changes
nothing. Rests on choices of the model, not on rules of the spec: log entries 17 and 108. -/
def Obligations.UnitsOutAndBack : Prop :=
  (∀ (t q : Nat) (b : Blk) (s : State), Live s →
    let u := atDt t s
    let out : FaultC := { s.fault with blockReset := s.fault.blockReset.filter (fun x => x != b) }
    (b ∉ s.fault.blockReset → exec (.blockResetDone t b) s = .next u) ∧
    (b ∈ s.fault.blockReset →
      (∀ k, b = .cluster k → exec (.blockResetDone t b) s =
        .next { u with units := { s.units with changes := s.units.changes ++ [.backFromReset k] } }) ∧
      (b = .netChannel 0 → exec (.blockResetDone t b) s =
        .next { u with fault := out, net := { s.net with chA := { s.net.chA with reset := false } } }) ∧
      (b = .netChannel 1 → exec (.blockResetDone t b) s =
        .next { u with fault := out, net := { s.net with chB := { s.net.chB with reset := false } } }) ∧
      ((∃ k, b = .hub k) ∨ (∃ k, b = .link k) ∨ (∃ k, b = .port k) ∨ (∃ k, b = .pair k) →
        exec (.blockResetDone t b) s = .next { u with fault := out })) ∧
    (∀ pos phys, spareOf s q = .loading pos phys → exec (.spareLoadDone t q) s = .next { u with units := { s.units with
      spares := insertKey q (.loaded pos phys) s.units.spares, changes := s.units.changes ++ [.spare q pos phys] } }) ∧
    ((∀ pos phys, spareOf s q ≠ .loading pos phys) → exec (.spareLoadDone t q) s = .next u)) ∧
  (∀ (t p : Nat) (s : State), Live s →
    let u := atDt t s
    let w := raise p 0 0 { u with safety := { s.safety with pairsOut := s.safety.pairsOut ++ [p] } }
    let z := ringEvent (.lost p) w
    (p ∈ s.safety.pairsOut ∨ 8 ≤ p → exec (.lockstepMismatch t p) s = .next u) ∧
    (p < 8 → p ∉ s.safety.pairsOut → ¬ (p < 2 ∧ 0 ∈ z.safety.pairsOut ∧ 1 ∈ z.safety.pairsOut) →
      exec (.lockstepMismatch t p) s = .next z) ∧
    (p < 2 → p ∉ s.safety.pairsOut → 0 ∈ z.safety.pairsOut → 1 ∈ z.safety.pairsOut →
      exec (.lockstepMismatch t p) s = .next (raise 8 0 0 z)) ∧
    (ringCycle w = none → z = ((noteRing (.lost p) w).ringm.threads.map (fun x => x.1)).foldl (rebind p) (noteRing (.lost p) w)))

/-- O31. The thread table, the operand registers and the result register hold what was last written to them and nothing else moves. A thread
that becomes READY (12 R378, R380, R393): its state, wake reason and place in its queue; it has left the delay list and its event word; no
other thread's entry changes and the others keep their order. A change of an event word (12 R391, R392): as the first event of its hub cycle
it releases, in `release_seq` order, all threads that wait on it with a threshold it has reached, and none changes nothing. After other
events of that hub cycle, all of them act again from the state before the first, in the order tick, event words, lost pairs, commands by
pair number, each order kept. The latency of a SAFETY thread (12 R393): released and not yet running past its bound, it raises the
safety-latency source once; up to the bound, or once it runs, nothing. Rests on choices of the model, not on rules of the spec: log entry
118. -/
def Obligations.ThreadRelease : Prop :=
  (∀ (e k p c v a0 a1 : Nat) (x : Thread) (s : State),
    threadOf (setThread e x s) e = x ∧ (k ≠ e → threadOf (setThread e x s) k = threadOf s k) ∧
    (setResult p c v s).ringm.results.head? = some (p, c, v) ∧
    (∀ q, q ≠ p → (setResult p c v s).ringm.results.find? (fun r => r.1 == q) = s.ringm.results.find? (fun r => r.1 == q)) ∧
    (setArgs p a0 a1 s).ringm.args.head? = some (p, a0, a1) ∧ (setArgs p a0 a1 s).ringm.threads = s.ringm.threads ∧
    (setResult p c v s).ringm.threads = s.ringm.threads ∧ (setResult p c v s).ringm.ready = s.ringm.ready) ∧
  (∀ (e reason : Nat) (front : Bool) (s : State),
    let x := threadOf s e
    let v := makeReady e reason front s
    (threadOf v e).state = 2 ∧ (threadOf v e).wakeReason = reason ∧ (threadOf v e).timed = false ∧ (threadOf v e).eventWord = 0xFFFF ∧
    (threadOf v e).prio = x.prio ∧ (threadOf v e).pair = x.pair ∧
    (∀ k, k ≠ e → threadOf v k = threadOf s k) ∧
    v.ringm.ready = (if front then e :: s.ringm.ready.filter (fun k => k != e) else s.ringm.ready.filter (fun k => k != e) ++ [e]) ∧
    v.ringm.words = s.ringm.words ∧ v.net = s.net ∧ v.fault = s.fault ∧ v.hostMem = s.hostMem) ∧
  (∀ (t w : Nat) (s : State), Live s →
    let u := atDt t s
    let e : REvent := .word w (wordOf s w)
    let met := s.ringm.threads.filter (fun x => x.2.state == 5 && x.2.eventWord == w && decide (x.2.threshold ≤ wordOf s w))
    (ringCycle u = none → ∃ l : List (Nat × Thread), l.Perm met ∧ l.Pairwise (fun a b => a.2.releaseSeq ≤ b.2.releaseSeq) ∧
      exec (.eventWordChange t w) s = .next (l.foldl (fun v x => makeReady x.1 4 false v) (noteRing e u))) ∧
    (ringCycle u = none → met = [] → exec (.eventWordChange t w) s = .next (noteRing e u)) ∧
    (∀ x, ringCycle u = some x → ∃ v, exec (.eventWordChange t w) s = .next ((insertEvent e x.events).foldl applyEvent v) ∧
      v.ringm.threads = x.threads ∧ v.ringm.ready = x.ready ∧ v.ringm.seqCtr = x.seqCtr ∧ v.ringm.words = s.ringm.words ∧
      v.ringm.cyc = some { x with events := insertEvent e x.events }) ∧
    (∀ (e : REvent) (l : List REvent), l.Pairwise (fun a b => eventOrder a ≤ eventOrder b) →
      (insertEvent e l).Pairwise (fun a b => eventOrder a ≤ eventOrder b) ∧ (insertEvent e l).Perm (e :: l))) ∧
  (∀ (t e : Nat) (s : State), Live s →
    let u := atDt t s
    let x := threadOf s e
    (∀ r, x.releasedAt = some r → x.safety = true → x.latencyUs ≠ 0 → x.state ≠ 3 → r + 1000 * x.latencyUs < u.dt →
      exec (.safetyThreadLatency t e) s = .next (raise 10 0 e (ringSettled (setThread e { x with releasedAt := none } u)))) ∧
    (x.releasedAt = none ∨ x.safety = false ∨ x.latencyUs = 0 ∨ x.state = 3 → exec (.safetyThreadLatency t e) s = .next u) ∧
    (∀ r, x.releasedAt = some r → u.dt ≤ r + 1000 * x.latencyUs → exec (.safetyThreadLatency t e) s = .next u))

/-- O32. A tick of Ringmaster (12 R389, R394): it runs at whole microseconds only; as the first event of its hub cycle it releases, in the order
of the delay list, up to 32 threads whose time has come, counts the others as late, and takes a passed slice for admission when none is
pending, by the delay list as it was before the releases. With nothing due and no slice, nothing but the note of the event changes. Slice
admission (12 R394, 15 R455, R456): a SAFETY thread due before the slice would end, at `us` itself too, defers it and counts the deferral,
and the 64th in a row raises slice-starvation once; otherwise the slice runs and the count starts again. A slice whose unit may not be
tested now is dropped. Rests on choices of the model, not on rules of the spec: log entries 76 and 118. -/
def Obligations.RingmasterTick : Prop :=
  (∀ (t : Nat) (slice : Option (CUnit × Nat)) (s : State), Live s →
    let u := atDt t s
    let w := noteRing (.tick (t / 1000)) u
    let due := (delayList u).filter (fun x => decide (x.2.wakeUs ≤ t / 1000))
    let v := (due.take 32).foldl (fun s x => makeReady x.1 (if x.2.state = 4 then 3 else 5) false s) w
    (s.ringm.running = false ∨ t % 1000 ≠ 0 → exec (.ringmasterTick t slice) s = .next u) ∧
    (s.ringm.running = true → t % 1000 = 0 → ringCycle u = none → exec (.ringmasterTick t slice) s =
      .next (admitSlice (t / 1000) (delayList u) { v with ringm := { v.ringm with
        late := min (v.ringm.late + (due.length - 32)) 65535,
        slice := (match v.ringm.slice with | some l => some l | none => slice.map (fun x => (x.1, min x.2 25))) } })) ∧
    (s.ringm.running = true → t % 1000 = 0 → ringCycle u = none → due = [] → slice = none → s.ringm.slice = none → s.ringm.late ≤ 65535 →
      exec (.ringmasterTick t slice) s = .next w)) ∧
  (∀ (us l : Nat) (c : CUnit) (delayed : List (Nat × Thread)) (s : State), s.ringm.slice = some (c, l) →
    let wait : Prop := ∃ x ∈ delayed, x.2.safety = true ∧ us ≤ x.2.wakeUs ∧ x.2.wakeUs ≤ us + l + 5
    let d : State := { s with ringm := { s.ringm with deferrals := s.ringm.deferrals + 1 } }
    (sliceFree s c = false → admitSlice us delayed s = { s with ringm := { s.ringm with slice := none, deferrals := 0, starved := false } }) ∧
    (sliceFree s c = true →
      (¬ wait → ∃ v, admitSlice us delayed s = v ∧ v.ringm.slice = none ∧ v.ringm.sliceRunning = s.ringm.sliceRunning ++ [(c, progOf s c)] ∧
        v.ringm.deferrals = 0 ∧ v.ringm.starved = false ∧ v.ringm.threads = s.ringm.threads ∧ v.safety.prog = s.safety.prog ∧
        (∀ q k, c = .core q k → inRotation s q = false → v.safety.spareSliced = s.safety.spareSliced ++ [q])) ∧
      (wait → s.ringm.deferrals + 1 < 64 ∨ s.ringm.starved = true → admitSlice us delayed s = d) ∧
      (wait → 64 ≤ s.ringm.deferrals + 1 → s.ringm.starved = false →
        admitSlice us delayed s = raise 83 0 0 { d with ringm := { d.ringm with starved := true } })))

/-- O33. Kernel-port commands that name an entry (12 R375, R382, R383, R386), from a pair in service, as the first event of their hub cycle: an
entry out of range answers 3, one that the pair may not name 6, a free one or one in another state 4, a priority above 255 or a pair above 7
5; otherwise RESUME, SUSPEND, DELETE, WAKE, SET_PRIO and SET_PAIR do what R383 says and answer 0. Rests on choices of the model, not on
rules of the spec: log entry 75. -/
def Obligations.KernelEntryCommands : Prop :=
  ∀ (t p a0 a1 : Nat) (s : State), Live s → p < 8 → p ∉ s.safety.pairsOut → ringCycle (atDt t s) = none →
    let e := a0 % 65536
    let x := threadOf s e
    let u (c : KCmd) : State := setArgs p a0 a1 (noteRing (.cmd p c a0 a1) (atDt t s))
    let isolated (y : Thread) : Thread := { y with state := 1, timed := false, eventWord := 0xFFFF }
    let cmds : List (Instr × KCmd) := [(.resume t p a0 a1, .resume), (.suspend t p a0 a1, .suspend), (.delete t p a0 a1, .delete),
      (.wakeThread t p a0 a1, .wake), (.setPrio t p a0 a1, .setPrio), (.setPair t p a0 a1, .setPair)]
    (4096 ≤ e → ∀ c ∈ cmds, exec c.1 s = .next (setResult p 3 0 (u c.2))) ∧
    (e < 4096 → 2 ≤ p → e < 512 → ∀ c ∈ cmds, exec c.1 s = .next (setResult p 6 0 (u c.2))) ∧
    (e < 4096 → p < 2 ∨ 512 ≤ e → x.state = 0 → ∀ c ∈ cmds, exec c.1 s = .next (setResult p 4 0 (u c.2))) ∧
    (e < 4096 → p < 2 ∨ 512 ≤ e → x.state ≠ 0 →
      (x.state = 1 → exec (.resume t p a0 a1) s = .next (setResult p 0 0 (makeReady e 0 false (u .resume))) ∧
        exec (.delete t p a0 a1) s = .next (setResult p 0 0 (setThread e {} (u .delete)))) ∧
      (x.state ≠ 1 → exec (.resume t p a0 a1) s = .next (setResult p 4 0 (u .resume)) ∧ exec (.delete t p a0 a1) s = .next (setResult p 4 0 (u .delete))) ∧
      (x.state ∈ [2, 4, 5] → exec (.suspend t p a0 a1) s = .next (setResult p 0 0 (setThread e (isolated x) (unready e (u .suspend))))) ∧
      (x.state ∉ [2, 4, 5] → exec (.suspend t p a0 a1) s = .next (setResult p 4 0 (u .suspend))) ∧
      (x.state = 4 ∨ x.state = 5 → exec (.wakeThread t p a0 a1) s = .next (setResult p 0 x.state (makeReady e 6 false (u .wake)))) ∧
      (x.state ≠ 4 → x.state ≠ 5 → exec (.wakeThread t p a0 a1) s = .next (setResult p 4 0 (u .wake))) ∧
      (255 < a1 → exec (.setPrio t p a0 a1) s = .next (setResult p 5 0 (u .setPrio))) ∧
      (2 ≤ p → a1 < 16 → exec (.setPrio t p a0 a1) s = .next (setResult p 6 0 (u .setPrio))) ∧
      (a1 ≤ 255 → p < 2 ∨ 16 ≤ a1 → x.state ≠ 2 →
        exec (.setPrio t p a0 a1) s = .next (setResult p 0 0 (setThread e { x with prio := a1 } (u .setPrio)))) ∧
      (a1 ≤ 255 → p < 2 ∨ 16 ≤ a1 → x.state = 2 → ∃ v, exec (.setPrio t p a0 a1) s = .next v ∧
        threadOf v e = { x with prio := a1 } ∧ v.ringm.ready = s.ringm.ready.filter (fun k => k != e) ++ [e]) ∧
      (7 < a1 % 256 → exec (.setPair t p a0 a1) s = .next (setResult p 5 0 (u .setPair))) ∧
      (a1 % 256 ≤ 7 → 2 ≤ p → a1 % 256 < 2 → exec (.setPair t p a0 a1) s = .next (setResult p 6 0 (u .setPair))) ∧
      (a1 % 256 ≤ 7 → p < 2 ∨ 2 ≤ a1 % 256 → x.state = 3 → exec (.setPair t p a0 a1) s = .next (setResult p 4 0 (u .setPair))) ∧
      (a1 % 256 ≤ 7 → p < 2 ∨ 2 ≤ a1 % 256 → x.state ≠ 3 → x.state ≠ 2 →
        exec (.setPair t p a0 a1) s = .next (setResult p 0 0 (setThread e { x with pair := a1 % 256 } (u .setPair)))) ∧
      (a1 % 256 ≤ 7 → p < 2 ∨ 2 ≤ a1 % 256 → x.state = 2 → ∃ v, exec (.setPair t p a0 a1) s = .next v ∧
        threadOf v e = { x with pair := a1 % 256 } ∧ v.ringm.ready = s.ringm.ready.filter (fun k => k != e) ++ [e]))

/-- O34. CREATE, READ_ENTRY and the port of a pair out of service (12 R382, R383): CREATE makes a SUSPENDED thread with the operands' fields in
the entry asked for or the lowest free one of the caller's range, and answers its number; READ_ENTRY answers the first 16 bytes; both so as
the first event of a hub cycle, and every command that is not the first acts in its place among that hub cycle's events (R392); no command
of a pair that is out of service has any effect. Rests on choices of the model, not on rules of the spec: log entry 75. -/
def Obligations.KernelCreateRead : Prop :=
  ∀ (t p a0 a1 : Nat) (s : State), Live s →
    let e := a0 % 65536
    let w (c : KCmd) : State := setArgs p a0 a1 (noteRing (.cmd p c a0 a1) (atDt t s))
    let u := w .create
    let r := w .read
    let prio := a1 % 256
    let pair := bitsOf a1 8 8
    let fb := bitsOf a1 16 8
    let lat := bitsOf a1 32 10
    let made : Thread := { state := 1, prio := prio, pair := pair, fallback := fb, safety := bitOf a1 24, latencyUs := lat }
    let ok : Prop := pair ≤ 7 ∧ fb ≤ 7 ∧ lat ≤ 1000
    let may : Prop := p < 2 ∨ (16 ≤ prio ∧ 2 ≤ pair ∧ 2 ≤ fb)
    (8 ≤ p ∨ p ∈ s.safety.pairsOut → exec (.create t p a0 a1) s = .next (atDt t s) ∧ exec (.readEntry t p a0 a1) s = .next (atDt t s) ∧
      exec (.switch t p a0 a1) s = .next (atDt t s) ∧ exec (.resume t p a0 a1) s = .next (atDt t s)) ∧
    (p < 8 → p ∉ s.safety.pairsOut → ∀ x, ringCycle (atDt t s) = some x →
      ∀ c ∈ [((Instr.create t p a0 a1), KCmd.create), (.readEntry t p a0 a1, .read), (.switch t p a0 a1, .switch), (.resume t p a0 a1, .resume),
        (.suspend t p a0 a1, .suspend), (.delete t p a0 a1, .delete), (.wakeThread t p a0 a1, .wake), (.setPrio t p a0 a1, .setPrio),
        (.setPair t p a0 a1, .setPair)],
      let e : REvent := .cmd p c.2 a0 a1
      ∃ v, exec c.1 s = .next ((insertEvent e x.events).foldl applyEvent v) ∧ v.ringm.threads = x.threads ∧ v.ringm.ready = x.ready ∧
        v.ringm.results = x.results ∧ v.ringm.words = s.ringm.words ∧ v.ringm.cyc = some { x with events := insertEvent e x.events }) ∧
    (p < 8 → p ∉ s.safety.pairsOut → ringCycle (atDt t s) = none →
      (¬ ok → exec (.create t p a0 a1) s = .next (setResult p 5 0 u)) ∧
      (ok → e ≠ 0xFFFF → 4096 ≤ e → exec (.create t p a0 a1) s = .next (setResult p 3 0 u)) ∧
      (ok → e < 4096 → ¬ (may ∧ (p < 2 ∨ 512 ≤ e)) → exec (.create t p a0 a1) s = .next (setResult p 6 0 u)) ∧
      (ok → e < 4096 → may → p < 2 ∨ 512 ≤ e → (threadOf s e).state = 0 →
        exec (.create t p a0 a1) s = .next (setResult p 0 e (setThread e made u))) ∧
      (ok → e < 4096 → may → p < 2 ∨ 512 ≤ e → (threadOf s e).state ≠ 0 → exec (.create t p a0 a1) s = .next (setResult p 3 0 u)) ∧
      (ok → e = 0xFFFF → ¬ may → exec (.create t p a0 a1) s = .next (setResult p 6 0 u)) ∧
      (ok → e = 0xFFFF → may → ∀ i, (if p < 2 then 0 else 512) ≤ i → i < (if p < 2 then 512 else 4096) → (threadOf s i).state = 0 →
        (∀ j, (if p < 2 then 0 else 512) ≤ j → j < i → (threadOf s j).state ≠ 0) →
        exec (.create t p a0 a1) s = .next (setResult p 0 i (setThread i made u))) ∧
      (ok → e = 0xFFFF → may → (∀ j, (if p < 2 then 0 else 512) ≤ j → j < (if p < 2 then 512 else 4096) → (threadOf s j).state ≠ 0) →
        exec (.create t p a0 a1) s = .next (setResult p 2 0 u)) ∧
      (4096 ≤ e → exec (.readEntry t p a0 a1) s = .next (setResult p 3 0 r)) ∧
      (e < 512 → 2 ≤ p → exec (.readEntry t p a0 a1) s = .next (setResult p 6 0 r)) ∧
      (e < 4096 → p < 2 ∨ 512 ≤ e → exec (.readEntry t p a0 a1) s = .next (setResult p 0 e (setArgs p
        (leNat ((threadBytes e (threadOf s e)).take 8)) (leNat (((threadBytes e (threadOf s e)).drop 8).take 8)) r))))

/-- O35. SWITCH (12 R380, R384, R385), as the first event of its hub cycle: the caller's RUNNING thread goes where the disposition sends it,
then the pair runs the head of its non-empty queue of lowest priority number; with none ready it idles. A bad disposition changes nothing.
Rests on choices of the model, not on rules of the spec: log entry 75. -/
def Obligations.KernelSwitch : Prop :=
  ∀ (t p a0 a1 : Nat) (s : State), Live s → p < 8 → p ∉ s.safety.pairsOut → ringCycle (atDt t s) = none →
    let u := setArgs p a0 a1 (noteRing (.cmd p .switch a0 a1) (atDt t s))
    let d := a1 % 16
    let bad : Prop := bitsOf a1 4 4 ≠ 0 ∨ 6 < d ∨ ((d = 3 ∨ d = 4) ∧ 511 < bitsOf a0 16 16)
    let run (v : State) : State := match bestReady v p with
      | none => setResult p 1 0xFFFF v
      | some e => setResult p 0 (e + 65536 * (threadOf v e).wakeReason) (setThread e { threadOf v e with state := 3, releasedAt := none } (unready e v))
    (runningOf s p = none → exec (.switch t p a0 a1) s = .next (run u)) ∧
    (∀ e, runningOf s p = some e → bad → exec (.switch t p a0 a1) s = .next (setResult p 5 0 u)) ∧
    (∀ e, runningOf s p = some e → ¬ bad → exec (.switch t p a0 a1) s = .next (run (disposeThread e d a0 a1 u))) ∧
    (∀ e, disposeThread e 0 a0 a1 u = makeReady e 1 true u ∧ disposeThread e 1 a0 a1 u = makeReady e 2 false u ∧
      disposeThread e 6 a0 a1 u = setThread e {} u ∧
      (threadOf (disposeThread e 2 a0 a1 u) e).state = 4 ∧ (threadOf (disposeThread e 2 a0 a1 u) e).wakeUs = a0 / 65536 % 2 ^ 48 ∧
      (disposeThread e 2 a0 a1 u).ringm.seqCtr = (s.ringm.seqCtr + 1) % 2 ^ 32 ∧
      (threadOf (disposeThread e 5 a0 a1 u) e).state = 1 ∧
      (wordOf s (bitsOf a0 16 16) < a1 / 256 % 2 ^ 56 → (threadOf (disposeThread e 3 a0 a1 u) e).state = 5 ∧
        (threadOf (disposeThread e 3 a0 a1 u) e).eventWord = bitsOf a0 16 16 ∧ (threadOf (disposeThread e 4 a0 a1 u) e).timed = true) ∧
      (a1 / 256 % 2 ^ 56 ≤ wordOf s (bitsOf a0 16 16) → (threadOf (disposeThread e 3 a0 a1 u) e).state = 2 ∧
        (threadOf (disposeThread e 3 a0 a1 u) e).wakeReason = 4))

/-- O36. A firing event (08 R280, R281): in ARMED it fires the Net in force, with t_f the DT of the decision, SAFE_STOP asserted and the bank
left as it is; the frame records it. In FIRING and STANDSTILL it is counted and changes nothing else; in NO_NET it changes nothing. The
states of the Net block (08 R279, R280): a Net that comes into force arms the block and deasserts SAFE_STOP; its expiry with no other Net in
force fires the Net that expired last; FIRING becomes STANDSTILL once T has passed. Each does nothing where its condition does not hold. -/
def Obligations.NetFiring : Prop :=
  (∀ (src : Nat) (s : State),
    (∀ n, s.net.state = 1 → netInForce s s.dt = some n → ∃ u, fireNet src s = u ∧ u.net.state = 2 ∧ u.net.padA = true ∧ u.net.padB = true ∧
      u.net.firing = some { net := n, tf := s.dt, stopNs := 1000 * n.stopTimeUs } ∧ u.net.lastSource = src ∧ u.net.fireDt = s.dt ∧
      u.net.refire = 0 ∧ u.net.newest = s.net.newest ∧ u.net.previous = s.net.previous ∧
      (∀ f, s.frame.cur = some f → u.frame.cur = some { f with netFired := true }) ∧
      u.work = s.work ∧ u.world = s.world ∧ u.hostMem = s.hostMem ∧ u.fault = s.fault ∧ u.net.cfg = s.net.cfg) ∧
    (s.net.state = 2 ∨ s.net.state = 3 →
      fireNet src s = { s with net := { s.net with refire := min (s.net.refire + 1) 65535 } }) ∧
    (s.net.state = 0 → fireNet src s = s)) ∧
  (∀ (t : Nat) (s : State), Live s →
    let u := atDt t s
    (s.net.state = 0 → (netInForce s u.dt).isSome = true → exec (.netComesIntoForce t) s =
      .next { u with net := { u.net with state := 1, padA := false, padB := false } }) ∧
    (s.net.state ≠ 0 ∨ netInForce s u.dt = none → exec (.netComesIntoForce t) s = .next u) ∧
    (∀ n, s.net.state = 1 → netInForce s u.dt = none → lastExpired u = some n → exec (.netExpiry t) s = .next (fireWith 7 n u)) ∧
    (s.net.state ≠ 1 ∨ (netInForce s u.dt).isSome = true → exec (.netExpiry t) s = .next u) ∧
    (∀ f, s.net.firing = some f → s.net.state = 2 → f.tf + f.stopNs ≤ u.dt → exec (.netStandstill t) s =
      .next { u with net := { u.net with state := 3 } }) ∧
    (∀ f, s.net.firing = some f → s.net.state ≠ 2 ∨ u.dt < f.tf + f.stopNs → exec (.netStandstill t) s = .next u))

/-- O37. Heartbeats, drive requests and the supervision of the outputs (08 R280, R283 to R285): the host timer that has run out raises source 38
and fires once; an edge after a level held for 200 ns restarts a drive's timer (18 R542); a drive timer that has run out on an enabled
channel raises its source once; a filtered request that rises fires, both together once; a pad read back off its commanded level raises its
source, and NET_IO shows the level read back until the pad follows again (17 R520); a streamer mismatch asserts SAFE_STOP, stops the
setpoint frames and raises source 35. Rests on choices of the model, not on rules of the spec: log entry 61. -/
def Obligations.HeartbeatsAndRequests : Prop :=
  ∀ (t : Nat) (a b : Bool) (s : State), Live s →
    let u := atDt t s
    let due := s.net.hbStart + 1000 * (netCfg s).hostHbUs ≤ u.dt
    let w := { u with net := { u.net with chA := { s.net.chA with req := a }, chB := { s.net.chB with req := b } } }
    (s.net.hbArmed = true → due → exec (.hostHeartbeatTimeout t) s =
      .next (fireNet 3 (raise 38 0 0 { u with net := { u.net with hbArmed := false } }))) ∧
    (s.net.hbArmed = false ∨ ¬ due → exec (.hostHeartbeatTimeout t) s = .next u) ∧
    (∀ ch < 2, (∀ e, (chanOf s ch).hbRaw = some e → e + 200 ≤ u.dt) → exec (.driveHeartbeatEdge t ch) s =
      .next (setChan ch { chanOf s ch with hbRaw := some u.dt, hbLast := u.dt, hbLapsed := false } u)) ∧
    (∀ ch < 2, ∀ e, (chanOf s ch).hbRaw = some e → u.dt < e + 200 → exec (.driveHeartbeatEdge t ch) s =
      .next (setChan ch { chanOf s ch with hbRaw := some u.dt } u)) ∧
    (∀ ch < 2, chanOn s ch = true → (netCfg s).drvHbUs ≠ 0 → s.net.cfg.isSome = true → (chanOf s ch).hbLapsed = false →
      (chanOf s ch).hbLast + 1000 * (netCfg s).drvHbUs ≤ u.dt → exec (.driveHeartbeatTimeout t ch) s =
        .next (raise (39 + ch) 0 0 (setChan ch { chanOf s ch with hbLapsed := true } u))) ∧
    (∀ ch, chanOn s ch = false ∨ (netCfg s).drvHbUs = 0 ∨ (chanOf s ch).hbLapsed = true ∨
      u.dt < (chanOf s ch).hbLast + 1000 * (netCfg s).drvHbUs → exec (.driveHeartbeatTimeout t ch) s = .next u) ∧
    (a = true → s.net.chA.req = false → exec (.driveRequest t a b) s = .next (fireNet 4 w)) ∧
    (a = false ∨ s.net.chA.req = true → b = true → s.net.chB.req = false → exec (.driveRequest t a b) s = .next (fireNet 5 w)) ∧
    (a = false ∨ s.net.chA.req = true → b = false ∨ s.net.chB.req = true → exec (.driveRequest t a b) s = .next w) ∧
    (∀ ch < 2, exec (.safeStopMismatch t ch (!padOf s ch)) s =
      .next (raise (36 + ch) 0 0 (setChan ch { chanOf s ch with pad := some (!padOf s ch) } u))) ∧
    (∀ ch < 2, exec (.safeStopMismatch t ch (padOf s ch)) s = .next (setChan ch { chanOf s ch with pad := none } u)) ∧
    exec (.streamerMismatch t) s = .next (raise 35 0 0 { u with net := { u.net with padA := true, padB := true, streamerStopped := true } })

/-- O38. NET_CONTROL (08 R284, R286, R291 to R293): FIRE is a firing event and completes at acceptance with NET_FIRED when it changed the state;
HEARTBEAT restarts the host timer; RELEASE in STANDSTILL with no drive request empties the bank and enters NO_NET, and is refused otherwise;
CONFIGURE waits for its tick and takes effect there when accepted 20 µs before it. Rests on choices of the model, not on rules of the spec:
log entry 26. -/
def Obligations.NetControl : Prop :=
  ∀ (d : Taken) (v : View) (s : State), Admits { code := 0x0B, control := true, anyStack := true } d s →
    let a := accepted d v s
    (fld d 0x20 1 = 1 → exec (.fire d v) s = .next (netDone d (if a.net.state = (fireNet 1 a).net.state then 0 else 128) (fireNet 1 a))) ∧
    (fld d 0x20 1 = 3 → exec (.heartbeat d v) s =
      .next (netDone d 0 { a with net := { a.net with hbStart := max a.net.hbStart d.dt, hbArmed := decide ((netCfg a).hostHbUs ≠ 0) } })) ∧
    (fld d 0x20 1 = 2 → s.net.state = 3 → s.net.chA.req = false → s.net.chB.req = false → exec (.release d v) s =
      .next (netDone d 0 { a with net := { a.net with state := 0, newest := none, previous := none, firing := none, recertTodo := [] } })) ∧
    (fld d 0x20 1 = 2 → s.net.state ≠ 3 ∨ s.net.chA.req = true ∨ s.net.chB.req = true → exec (.release d v) s =
      .next (refuse d (badField 0x20) a)) ∧
    (fld d 0x20 1 = 0 → firstFail (cfgChecks a d) = none → exec (.configure d v) s = .next (addWork (mkWork d 0 (.configure (cfgOf d)) a) a)) ∧
    (fld d 0x20 1 = 0 → ∀ f, firstFail (cfgChecks a d) = some f → exec (.configure d v) s = .next (refuse d f a)) ∧
    (3 < fld d 0x20 1 → exec (.configure d v) s = .next (refuse d (badField 0x20) a)) ∧
    (∀ (tick : Nat) (w : Work), tick < w.accept + 20000 → configTick tick (cfgOf d) w s = s) ∧
    (∀ (tick : Nat) (w : Work), w.accept + 20000 ≤ tick → (configTick tick (cfgOf d) w s).net.cfg = some (cfgOf d) ∧
      (configTick tick (cfgOf d) w s).net.hbStart = tick ∧ (configTick tick (cfgOf d) w s).net.newest = s.net.newest ∧
      (configTick tick (cfgOf d) w s).net.previous = s.net.previous ∧ (configTick tick (cfgOf d) w s).net.state = s.net.state)

/-- O39. Certification and banking of a frame's Net (08 R270 to R273, 02 R68): it is skipped with `net_result` 3 while a Net fires and with 2
when the golden batch has failed; it fails without a committed path or a validity end, on a suspect supply, on a lost unit, when a query is
not CLEAR or when the two copies' digests differ, each against the hazards of the frame; a passing one is kept for banking. Banking moves
NEWEST to PREVIOUS, unless a hazard that the certification did not test hits the Net. A certification past its allowance raises source 33
and fails. Rests on choices of the model, not on rules of the spec: log entries 56 and 57. -/
def Obligations.CertificationAndBanking : Prop :=
  ∀ (t upset : Nat) (f : Frame) (s : State), Live s → s.frame.cur = some f → f.published = false →
    let u := atDt t s
    let w := applyLate u
    let ended (k : Nat) (x : State) : State := modFrame (fun g => { g with netResult := some k, certDone := true, cert := none }) x
    let late : Prop := (u.dt : Int) ≥ f.tickDt + f.tLastRetire + certAllowance s
    (f.certDone = false → f.mergeDone = true → f.fr.isSome = true →
      (netBusy w f = true → exec (.netCertification t upset) s =
        .next (modFrame (fun g => { g with netResult := some 3, certDone := true }) w)) ∧
      (netBusy w f = false → f.goldenResult = 1 → exec (.netCertification t upset) s = .next (ended 2 w)) ∧
      (netBusy w f = false → f.goldenResult ≠ 1 →
        derivedNet w f = none ∨ suspectNow w = true ∨ f.certFail = true → exec (.netCertification t upset) s = .next (certFailed w)) ∧
      (∀ n, netBusy w f = false → f.goldenResult ≠ 1 → suspectNow w = false → f.certFail = false → derivedNet w f = some n →
        (validityEnd w n f.tickDt = none → exec (.netCertification t upset) s = .next (certFailed w)) ∧
        (∀ e r, validityEnd w n f.tickDt = some e → certEval n e (frameHaz w) w = some r →
          (r.ok = true → copiesOk w upset r = true → exec (.netCertification t upset) s =
            .next (modFrame (fun g => { g with cert := some (withCert w f.number e r n), certDone := true }) w)) ∧
          (r.ok = false ∨ copiesOk w upset r = false → exec (.netCertification t upset) s = .next (certFailed w))))) ∧
    (∀ n, f.cert = some n →
      (netBusy w f = true → exec (.netBank t) s = .next (modFrame (fun g => { g with netResult := some 3, cert := none }) w)) ∧
      (netBusy w f = false → f.goldenResult = 1 →
        exec (.netBank t) s = .next (modFrame (fun g => { g with netResult := some 2, cert := none }) w)) ∧
      (netBusy w f = false → f.goldenResult ≠ 1 → (∃ h ∈ w.world.hazards, (∀ g ∈ n.hazTested, g.ord ≠ h.ord) ∧ netHit n h = true) →
        exec (.netBank t) s = .next (certFailed w)) ∧
      (netBusy w f = false → f.goldenResult ≠ 1 → (∀ h ∈ w.world.hazards, (∀ g ∈ n.hazTested, g.ord ≠ h.ord) → netHit n h = false) →
        ∃ v, exec (.netBank t) s = .next v ∧ v.net.newest = some n ∧ v.net.previous = w.net.newest ∧
          v.frame.cur = some { f with netResult := some 0, cert := none } ∧ v.net.cfg = w.net.cfg ∧ v.work = w.work ∧ v.world = w.world)) ∧
    (f.certDone = false → f.certOverrun = false → f.fr.isSome = true → f.retired = true → late →
      (netBusy u f = true → exec (.certificationOverrun t) s =
        .next (modFrame (fun g => { g with netResult := some 3, certDone := true }) u)) ∧
      (netBusy u f = false → f.goldenResult = 1 → exec (.certificationOverrun t) s =
        .next (modFrame (fun g => { g with netResult := some 2, certDone := true }) u)) ∧
      (netBusy u f = false → f.goldenResult ≠ 1 → exec (.certificationOverrun t) s =
        .next (raise 33 0 0 (certFailed (modFrame (fun g => { g with certOverrun := true }) u))))) ∧
    (f.certDone = true ∨ f.fr = none ∨ f.retired = false ∨ ¬ late → exec (.certificationOverrun t) s = .next u)

/-- O40. Recertification (08 R276, R278): a banked Net that passes keeps its slot with its new validity end; a failure counts one event and
changes nothing, unless STRICT is set and a query was HIT; none is attempted after a failed golden batch (R271). The Net that a late hazard
hit keeps its e when it passes, and fires or leaves the bank when it fails or a unit that it runs on is lost. Rests on choices of the model,
not on rules of the spec: log entries 58, 59 and 119. -/
def Obligations.Recertification : Prop :=
  ∀ (t upset : Nat) (s : State), Live s →
    (∀ (f : Frame) (n : NetRec),
      let z := raise 32 0 0 s
      (f.goldenResult = 1 → recertify upset f s n = s) ∧
      (f.goldenResult ≠ 1 → suspectNow s = true ∨ f.certFail = true ∨ validityEnd s n f.tickDt = none → recertify upset f s n = z) ∧
      (∀ e r, f.goldenResult ≠ 1 → suspectNow s = false → f.certFail = false → validityEnd s n f.tickDt = some e → certEval n e (frameHaz s) s = some r →
        (r.ok = true → copiesOk s upset r = true →
          recertify upset f s n = logNet (withCert s f.number e r n) 1 (replaceNet (withCert s f.number e r n) s)) ∧
        (r.ok = false ∨ copiesOk s upset r = false → (netCfg z).strict = false ∨ r.hit = false → recertify upset f s n = z) ∧
        (r.ok = false ∨ copiesOk s upset r = false → (netCfg z).strict = true → r.hit = true → recertify upset f s n = strikeNet n z))) ∧
    (∀ f, s.frame.cur = some f → f.published = false → f.recertDone = false → f.mergeDone = true → frameEmpty f = true →
      (f.fr = none ∨ f.certDone = true) → netBusy s f = false →
      let w := applyLate (modFrame (fun g => { g with recertDone := true }) (atDt t s))
      exec (.netRecertification t upset) s = .next (((banked w).filter fun n => decide (nextTick w < n.e)).foldl (recertify upset f) w)) ∧
    (s.net.recertTodo = [] → exec (.immediateRecertification t upset) s = .next (atDt t s)) ∧
    (∀ i rest, s.net.recertTodo = i :: rest →
      let u := atDt t s
      let w := applyLate { u with net := { u.net with recertTodo := rest } }
      let hs := w.world.hazards ++ (w.world.hazChanges.filter fun c => c.late && c.committed).map (fun c => c.haz)
      (w.net.state = 2 ∨ w.net.state = 3 → exec (.immediateRecertification t upset) s = .next w) ∧
      (w.net.state < 2 → (∀ n ∈ banked w, n.netId ≠ i) → exec (.immediateRecertification t upset) s = .next w) ∧
      (∀ n, w.net.state < 2 → (banked w).find? (fun n => n.netId == i) = some n →
        (certUnitLost w = true → exec (.immediateRecertification t upset) s = .next (strikeNet n (raise 32 0 0 w))) ∧
        (∀ r, certUnitLost w = false → certEval n n.e hs w = some r →
          (r.ok = true → copiesOk w upset r = true → exec (.immediateRecertification t upset) s =
            .next (logNet (withCert w w.frame.number n.e r n) 1 (replaceNet (withCert w w.frame.number n.e r n) w))) ∧
          (r.ok = false ∨ copiesOk w upset r = false →
            exec (.immediateRecertification t upset) s = .next (strikeNet n (raise 32 0 0 w)))))) ∧
    (∀ n : NetRec, (netInForce s s.dt).any (fun x => x.netId == n.netId) = true → strikeNet n s = fireNet 8 s) ∧
    (∀ n : NetRec, (netInForce s s.dt).any (fun x => x.netId == n.netId) = false →
      ∀ m ∈ banked (strikeNet n s), m ∈ banked s ∧ m.netId ≠ n.netId)

/-- O41. SETPOINT_FRAME (08 R282, R287 to R289): nothing when no frame is due; else each channel that takes part sends the frame of R288 under
its own sequence number and logs the drive's state and status of a good reply; a channel that is disabled, in reset or already served sends
nothing; the first frame of a firing is marked; each bad reply raises its channel's source after both frames have gone out. Rests on choices
of the model, not on rules of the spec: log entries 9, 61, 62 and 63. -/
def Obligations.SetpointFrames : Prop :=
  ∀ (t : Nat) (ra rb : Bytes) (s : State), Live s →
    let u := atDt t s
    let served (c : Nat) (reply : Bytes) (x : Chan) : Chan :=
      if sends u c = true then
        { x with seq := (x.seq + 1) % 65536, sent := true, lastSent := u.dt, out := x.out ++ [deviceFrame u c],
                 drvState := if replyOk x reply = true then fieldN reply 2 1 else x.drvState,
                 drvStatus := if replyOk x reply = true then fieldN reply 4 4 else x.drvStatus }
      else x
    let w := bumpFresh (markFirst { u with net := { u.net with chA := served 0 ra s.net.chA, chB := served 1 rb s.net.chB } })
    (frameDue u = false → exec (.setpointFrame t ra rb) s = .next u) ∧
    (frameDue u = true → replyBad 0 ra u = false → replyBad 1 rb u = false → exec (.setpointFrame t ra rb) s = .next w) ∧
    (frameDue u = true → replyBad 0 ra u = true → replyBad 1 rb u = false → exec (.setpointFrame t ra rb) s = .next (raise 41 0 0 w)) ∧
    (frameDue u = true → replyBad 0 ra u = false → replyBad 1 rb u = true → exec (.setpointFrame t ra rb) s = .next (raise 42 0 0 w)) ∧
    (frameDue u = true → replyBad 0 ra u = true → replyBad 1 rb u = true →
      exec (.setpointFrame t ra rb) s = .next (raise 42 0 0 (raise 41 0 0 w)))

/-- O42. A write of the package's memory (11 R350): the bytes at and after the address are the data, every other byte reads as before, a
poisoned word that the write covers entirely is clean, and nothing else of the machine changes. Remote operations whose destination is in
this unit and allowed (11 R350, R353, R355, 15 R447, R448), from a source that may issue them: PUT writes the bytes of the issuing core's
own memory, or those that another source gives, at the address; GET and the atomics bring the bytes found there to the issuing core's
memory; the atomics write the new word; SIGNAL adds to the word, and in the hub it is an event of Ringmaster. Poison travels with the bytes.
The core's sequencer moves on by one step; the operation takes its route (01 R30). Errors in the granules at the destination are what
Sillage-288 makes of them; without errors the bytes are those held. Rests on choices of the model, not on rules of the spec: log entries 71,
104, 105 and 107. -/
def Obligations.RemoteOperations : Prop :=
  (∀ (k : Nat) (data : Bytes) (s : State), Memory.wf s.cores.mem = true →
    let v := keyWrite s k data
    (∀ i < data.length, memRead v.cores.mem (k + i) = data.getD i 0) ∧
    (∀ a, a < k ∨ k + data.length ≤ a → memRead v.cores.mem a = memRead s.cores.mem a) ∧
    (∀ p ∈ s.cores.poison, ¬ (k ≤ p.1 ∧ p.1 + 8 ≤ k + data.length) → p ∈ v.cores.poison) ∧
    (∀ p ∈ v.cores.poison, p ∈ s.cores.poison ∧ ¬ (k ≤ p.1 ∧ p.1 + 8 ≤ k + data.length)) ∧
    v = { s with cores := { s.cores with mem := v.cores.mem, dirMem := v.cores.dirMem, poison := v.cores.poison } }) ∧
  (∀ (t addr v c n l : Nat) (src : OpSrc) (data : Bytes) (errs : List (Nat × Bytes)) (s : State), Live s → addrUnit addr = s.chain.unit →
    (∀ k, src = .core k → coreReady s k = true ∧ (coreSt s k).out < 64) → (∀ p, src = .pair p → p ∉ s.safety.pairsOut) →
    let u := atDt t s
    let w (m r : Nat) : State := sendOn src addr m r (match src with | .core k => advance k u | _ => u)
    let k := keyOfAddr addr
    let held := codedRead (w 8 8) addr 8 errs
    let word := leNat held.1
    let put (x : Nat) : State := deliver src l (held.1, held.2.1) (poisonAt k held.2.1 (codedWrite addr (leBytes 8 x) errs (w 8 8)))
    let sent : Bytes × List (Nat × Nat × Nat) := match src with
      | .core q => (devRead u (coreAddr q l) n, poisonRead u (coreAddr q l) n [])
      | _ => ((data ++ zeros n).take n, [])
    (addrError u src 0 addr n l = none → exec (.put t src addr n l data [] errs) s =
      .next (poisonAt k sent.2 (codedWrite addr sent.1 errs (w n 0)))) ∧
    (addrError u src 1 addr n l = none → exec (.get t src addr n l errs) s =
      .next (deliver src l ((codedRead (w 0 n) addr n errs).1, (codedRead (w 0 n) addr n errs).2.1)
        (sillageEvents (faultyGranules (w 0 n) addr n errs) (w 0 n)))) ∧
    (addrError u src 2 addr 8 l = none → exec (.atomicAdd t src addr v l errs) s = .next (put ((word + v) % 2 ^ 64))) ∧
    (addrError u src 3 addr 8 l = none → exec (.atomicMax t src addr v l false errs) s = .next (put (max word (v % 2 ^ 64)))) ∧
    (addrError u src 4 addr 8 l = none → exec (.atomicMax t src addr v l true errs) s =
      .next (put (unsignedOf 64 (max (signed 64 word) (signed 64 (v % 2 ^ 64)))))) ∧
    (addrError u src 5 addr 8 l = none → exec (.atomicCas t src addr c v l errs) s =
      .next (put (if word = c % 2 ^ 64 then v % 2 ^ 64 else word))) ∧
    (src ∉ s.cores.outW → addrError u src 6 addr 8 0 = none → (∀ o, placeOf addr ≠ some (.hub o)) →
      let z := codedRead (w 8 0) addr 8 errs
      exec (.signal t src addr v errs) s =
        .next (poisonAt k z.2.1 (codedWrite addr (leBytes 8 ((leNat z.1 + v) % 2 ^ 64)) errs (w 8 0)))) ∧
    (src ∉ s.cores.outW → addrError u src 6 addr 8 0 = none → ∀ o, placeOf addr = some (.hub o) →
      let x := (wordOf s (o / 8) + v) % 2 ^ 64
      exec (.signal t src addr v errs) s =
        .next (ringEvent (.word (o / 8) x) { w 8 0 with ringm := { (w 8 0).ringm with words := insertKey (o / 8) x (w 8 0).ringm.words } })) ∧
    (∀ (a m : Nat) (b : Bytes) (x : State), codedRead x a m [] = (devRead x a m, poisonRead x a m [], []) ∧
      codedWrite a b [] x = keyWrite x (keyOfAddr a) b))

/-- O43. Remote operations that go elsewhere, wait or fail (11 R342, R349, R353, R354, R356, 12 R376): for another unit the operation leaves as
a flit and, a core's, is outstanding; a core with 64 outstanding stalls, and so does a SIGNAL while a PUT or an atomic of its source is
under way; an address error takes its source with the address, and on a core it stops the sequencer, fills what was to be returned with ones
and poisons it and aborts the work; a core that cannot run and a pair out of service issue nothing. Rests on choices of the model, not on
rules of the spec: log entries 18, 69, 71 and 105. -/
def Obligations.RemoteOperationsElsewhere : Prop :=
  ∀ (t addr v c n l : Nat) (src : OpSrc) (data : Bytes) (errs : List (Nat × Bytes)) (s : State), Live s →
    let u := atDt t s
    let issued (code : Nat) : State :=
      let q : State := if code = 1 ∨ code = 6 then u else { u with cores := { u.cores with outW := src :: u.cores.outW } }
      match src with | .core k => advance k (setCore k { coreSt s k with out := (coreSt s k).out + 1 } q) | _ => q
    let gone (code v c n l : Nat) (b : Bytes) (ps : List (Nat × Nat × Nat)) : State :=
      sendFlit (if s.chain.unit < addrUnit addr then 1 else 0) (.op src s.chain.unit l code addr v c n b ps) (issued code)
    let sent : Bytes × List (Nat × Nat × Nat) := match src with
      | .core q => (devRead u (coreAddr q l) n, poisonRead u (coreAddr q l) n [])
      | _ => ((data ++ zeros n).take n, [])
    let stalls : Prop := exec (.put t src addr n l data [] errs) s = .next u ∧ exec (.get t src addr n l errs) s = .next u ∧
      exec (.atomicAdd t src addr v l errs) s = .next u ∧ (∀ b, exec (.atomicMax t src addr v l b errs) s = .next u) ∧
      exec (.atomicCas t src addr c v l errs) s = .next u ∧ exec (.signal t src addr v errs) s = .next u
    ((∀ k, src = .core k → coreReady s k = true ∧ (coreSt s k).out < 64) → (∀ p, src = .pair p → p ∉ s.safety.pairsOut) →
      (addrUnit addr ≠ s.chain.unit →
        (addrError u src 0 addr n l = none → exec (.put t src addr n l data [] errs) s = .next (gone 0 0 0 n l sent.1 sent.2)) ∧
        (addrError u src 1 addr n l = none → exec (.get t src addr n l errs) s = .next (gone 1 0 0 n l [] [])) ∧
        (addrError u src 2 addr 8 l = none → exec (.atomicAdd t src addr v l errs) s = .next (gone 2 v 0 8 l [] [])) ∧
        (addrError u src 3 addr 8 l = none → exec (.atomicMax t src addr v l false errs) s = .next (gone 3 v 0 8 l [] [])) ∧
        (addrError u src 4 addr 8 l = none → exec (.atomicMax t src addr v l true errs) s = .next (gone 4 v 0 8 l [] [])) ∧
        (addrError u src 5 addr 8 l = none → exec (.atomicCas t src addr c v l errs) s = .next (gone 5 v c 8 l [] [])) ∧
        (src ∉ s.cores.outW → addrError u src 6 addr 8 0 = none → exec (.signal t src addr v errs) s = .next (gone 6 v 0 8 0 [] []))) ∧
      (src ∈ s.cores.outW → exec (.signal t src addr v errs) s = .next u) ∧
      (∀ e, addrError u src 2 addr 8 l = some e → (∀ k, src ≠ .core k) → (∀ p, src ≠ .pair p) →
        exec (.atomicAdd t src addr v l errs) s = .next (raise e addr addr u)) ∧
      (∀ e k, addrError u src 2 addr 8 l = some e → src = .core k →
        let x : State := if localOk src 1 8 l = true then addPoison (keyWrite u (coreAddr k l) (List.replicate 8 255)) (coreAddr k l) 8 e else u
        exec (.atomicAdd t src addr v l errs) s =
          .next (abortOwner k e (raise e addr addr (setCore k { coreSt u k with stopped := true } x))))) ∧
    (∀ k, src = .core k → coreReady s k = false ∨ 64 ≤ (coreSt s k).out → stalls) ∧
    (∀ p, src = .pair p → p ∈ s.safety.pairsOut → stalls)

/-- O44. Sequencer steps other than operations (11 R355, R356, R362, 05 R178, R200): FENCE waits while an operation for another unit is
outstanding; WAIT_SIGNAL waits until the signal word has reached its threshold; LOOP runs its block `count` times in all; DEADLINE cuts the
core's own optimisation when its deadline has passed, with the inner iterations and factorisations of the iteration that it cuts; RETRY goes
back to the marked step after a failed pivot test and ends that optimisation with FACTOR_FAIL at the third failure, with the inner
iterations completed in the outer iteration that it breaks off and all retries counted. Rests on choices of the model, not on rules of the
spec: log entry 72. -/
def Obligations.SequencerSteps : Prop :=
  ∀ (t start count thr w mark inner tries : Nat) (c : CoreId) (s : State), Live s → coreOk s c = true → (coreSt s c).stopped = false →
    let u := atDt t s
    let x := coreSt s c
    let goOn : State := setCore c { x with pos := x.pos + 1 } u
    let stepped (v : State) : Prop := coreSt v c = { x with pos := x.pos + 1, waiting := false } ∧ v.cores.mem = s.cores.mem ∧ v.ringm = s.ringm
    (x.out = 0 → ∃ v, exec (.fence t c) s = .next v ∧ stepped v) ∧
    (x.out ≠ 0 → exec (.fence t c) s = .next (setCore c { x with waiting := true } u)) ∧
    (thr ≤ signalWord s c w → ∃ v, exec (.waitSignal t c w thr) s = .next v ∧ stepped v) ∧
    (signalWord s c w < thr → exec (.waitSignal t c w thr) s = .next (setCore c { x with waiting := true } u)) ∧
    (x.waiting = true → exec (.loop t c start count) s = .next u ∧ exec (.deadline t c inner tries) s = .next u ∧
      exec (.retry t c mark inner) s = .next u) ∧
    (x.waiting = false →
      (lookupD (count - 1) x.pos x.loops = 0 → exec (.loop t c start count) s =
        .next (setCore c { x with pos := x.pos + 1, loops := eraseKey x.pos x.loops } u)) ∧
      (∀ k, lookupD (count - 1) x.pos x.loops = k + 1 → exec (.loop t c start count) s =
        .next (setCore c { x with pos := start, loops := insertKey x.pos k x.loops } u)) ∧
      (coreOpt s c = none → exec (.deadline t c inner tries) s = .next goOn) ∧
      (∀ o, coreOpt s c = some o → deadlinePassed o u.dt = false → exec (.deadline t c inner tries) s = .next goOn) ∧
      (∀ o, coreOpt s c = some o → deadlinePassed o u.dt = true → exec (.deadline t c inner tries) s =
        .next (cutOpt o.wid o.idx (setOpt (atCut u o inner tries) goOn))) ∧
      (x.pivotFailed = false → exec (.retry t c mark inner) s = .next (setCore c { x with pos := x.pos + 1, retries := 0 } u)) ∧
      (x.pivotFailed = true → x.retries < 2 → exec (.retry t c mark inner) s =
        .next (setCore c { x with pos := mark, pivotFailed := false, retries := x.retries + 1 } u)) ∧
      (x.pivotFailed = true → 2 ≤ x.retries →
        let z := setCore c { x with pos := x.pos + 1, pivotFailed := false, retries := 0 } u
        (coreOpt s c = none → exec (.retry t c mark inner) s = .next z) ∧
        (∀ o, coreOpt s c = some o →
          let n := cutCounts z o inner 0
          exec (.retry t c mark inner) s =
            .next (setOpt { o with stop := some 5, stopFrame := s.frame.number, inner := o.inner + n.1, retries := o.retries + n.2 + 2 } z))))

/-- O45. The ENGINE step (11 R358, R361, R362, 14 R435): with operands and results in the core's own memory and no poisoned operand, the
engine's writes land there, its counts add up and the sequencer moves on; a range that leaves the core's memory is an address error; a
poisoned operand, of a lane that is not masked, fails a certification or aborts the work that owns the schedule; a core that cannot run does
nothing. Rests on choices of the model, not on rules of the spec: log entries 23, 103 and 105. -/
def Obligations.EngineSteps : Prop :=
  ∀ (t : Nat) (c : CoreId) (mask : List Bool) (op : EngineOp) (errs : List (Nat × Bytes)) (s : State), Live s →
    let u := atDt t s
    let reads := (engineReads u c mask op).filter (fun r => r.2 != 0)
    let o := engineOut u c mask op
    let ranges := reads ++ o.writes.map (fun w => (w.1, w.2.length))
    let poison := reads.findSome? fun r => poisonIn u (coreAddr c r.1) r.2
    let within : Prop := ∀ r ∈ ranges, r.2 = 0 ∨ r.1 + r.2 ≤ 786432
    (coreReady s c = false → exec (.engine t c mask op errs) s = .next u) ∧
    (coreReady s c = true → ¬ within → ∃ r ∈ ranges, 786432 < r.1 + r.2 ∧ exec (.engine t c mask op errs) s =
      .next (addressError (.core c) 100 (coreAddr c r.1) 0 0 u)) ∧
    (coreReady s c = true → within → ∀ src, poison = some src → exec (.engine t c mask op []) s = .next (consumePoison c src (advance c u))) ∧
    (coreReady s c = true → within → poison = none → ∃ v, exec (.engine t c mask op []) s = .next v ∧
      v.cores.mem = o.writes.foldl (fun m w => memWrites m (coreAddr c w.1) w.2) s.cores.mem ∧
      (coreSt v c).pos = (coreSt s c).pos + 1 ∧ (coreSt v c).sat = (coreSt s c).sat + o.sat ∧
      (coreSt v c).range = (coreSt s c).range + o.range ∧ (coreSt v c).pivotFailed = o.pivot.getD (coreSt s c).pivotFailed ∧
      (coreSt v c).staged = stagedAfter op (coreSt s c).staged ∧
      v.hostMem = s.hostMem ∧ v.net = s.net ∧ v.fault = s.fault ∧ v.work = s.work ∧ v.world = s.world ∧ v.ringm = s.ringm) ∧
    (∀ (src : Nat) (v : State), certifying v c = true → (∃ f, v.frame.cur = some f) → ∃ f, (consumePoison c src v).frame.cur = some f ∧ f.certFail = true)

/-- O46. The failover of a ring link (01 R31): each direction sends its unacknowledged flits again through the hub, and the receiver then
delivers, each once and in order, exactly those from the first that had not arrived (what arrived before it was delivered already, what
arrived after it was held); the link's traffic moves to the hub route and its uncorrectable source is raised; a link that has failed over
already changes nothing. That an acknowledgement takes 200 ns is the model's choice (notes/assumptions/104.md). Rests on choices of the
model, not on rules of the spec: log entry 104. -/
def Obligations.RingLinkFailover : Prop :=
  ∀ (t link : Nat) (lostA lostB : List Nat) (s : State), Live s →
    let u := atDt t s
    let dir (k : Nat) : RingDir := lookupD {} k s.cores.ring
    let un (k : Nat) : List (Nat × Nat × Nat) := (dir k).unacked.filter fun f => decide (u.dt < f.2.1 + 200)
    let inOrder (k : Nat) : Prop := (un k).map (fun f => f.1) = List.range' ((dir k).txNext - (un k).length) (un k).length ∧ (un k).length ≤ (dir k).txNext
    let late (k : Nat) (lost : List Nat) : List Nat :=
      ((un k).filter fun f => (un k).any fun g => lost.contains g.1 && decide (g.1 ≤ f.1)).map fun f => f.2.2
    (link < 4 ∨ 7 < link ∨ link ∈ s.cores.hubRoute → exec (.ringLinkFailover t link lostA lostB) s = .next u) ∧
    (4 ≤ link → link ≤ 7 → link ∉ s.cores.hubRoute → ∃ v,
      exec (.ringLinkFailover t link lostA lostB) s = .next (raise (129 + 2 * link) 0 0 { u with cores := v }) ∧
      v.hubRoute = s.cores.hubRoute ++ [link] ∧ v.mem = s.cores.mem ∧ v.st = s.cores.st ∧ v.poison = s.cores.poison ∧
      (inOrder (2 * link) → lookupO (2 * link) v.delivered = some (late (2 * link) lostA)) ∧
      (inOrder (2 * link + 1) → lookupO (2 * link + 1) v.delivered = some (late (2 * link + 1) lostB)) ∧
      (lookupD {} (2 * link) v.ring).unacked = [] ∧ (lookupD {} (2 * link + 1) v.ring).unacked = [])

/-- O47. The enumeration token (10 R334): its byte passes the check of its own generation, and no byte that differs from it in one bit does.
Enumeration (10 R333 to R336): ENUM_START is refused while units of the chain are in use or while the chain enumerates or syncs, waits for a
frame in progress, and begins a new generation otherwise; the start flit makes a downstream unit drop its address; a good token gives an
unaddressed unit the next address, which it passes on and reports with its grade and firmware version, and with it whether it has recorded a
fault; reports travel up and unit 0 collects one of each address; unit 7's overflow sets OVERFLOW and raises 150; after 1 ms without the
last report the chain is FAILED, and the units of its prefix sync. That a downstream unit counts itself and the units whose reports pass it
is the model's reading (notes/assumptions/117.md). Rests on choices of the model, not on rules of the spec: log entries 9 and 117. -/
def Obligations.ChainEnumeration : Prop :=
  (∀ addr < 16, ∀ gen < 8, tokenOk (tokenByte addr gen) gen = true ∧ ∀ i < 8, tokenOk (tokenByte addr gen ^^^ 2 ^ i) gen = false) ∧
  (∀ (t gen byte addr grade fw : Nat) (last ovf : Bool) (s : State), Live s →
    let u := atDt t s
    let c := s.chain
    let used := s.hostq.ctxs.any (fun x => x.2.unit != 0 && x.2.state != 0)
    let down := c.dn.state == 0 || c.dn.state == 4
    let refused := c.state = 1 ∨ c.state = 2 ∨ used = true
    let report : UnitReport := { addr := addr, last := last, overflow := ovf, grade := grade, fw := fw }
    (c.head = false → exec (.enumStart t) s = .next u) ∧
    (c.head = true → refused → exec (.enumStart t) s = .next { u with chain := { c with refused := true } }) ∧
    (c.head = true → ¬ refused → frameRunning u = true →
      exec (.enumStart t) s = .next { u with chain := { c with overflow := false, enumPending := true } }) ∧
    (c.head = true → ¬ refused → frameRunning u = false →
      exec (.enumStart t) s = .next (enumCheck (sendFlit 1 (.startFlit ((c.gen + 1) % 8)) { u with chain := { c with
        overflow := false, gen := (c.gen + 1) % 8, state := 1, enumStart := u.dt, enumPending := false, aligned := true, syncing := false,
        reports := [{ addr := 0, last := down, overflow := false, grade := s.grade, fw := s.boot.fwVersion }],
        tokensOut := c.tokensOut ++ [tokenByte 0 ((c.gen + 1) % 8)] } }))) ∧
    (c.head = true → exec (.enumerationStartFlit t gen) s = .next u) ∧
    (c.head = false → exec (.enumerationStartFlit t gen) s = .next (sendFlit 1 (.startFlit gen) { u with chain := { c with
      addressed := false, unit := 0, unitCount := 1, gen := gen % 8, state := 1, aligned := false, pulses := [], announce := none,
      pulse := none } })) ∧
    (c.head = true ∨ c.addressed = true ∨ c.state ≠ 1 ∨ tokenOk byte c.gen = false ∨ 7 < byte % 16 + 1 →
      exec (.enumToken t byte) s = .next u) ∧
    (c.head = false → c.addressed = false → c.state = 1 → tokenOk byte c.gen = true → byte % 16 + 1 ≤ 7 →
      let a := byte % 16 + 1
      let isLast := a == 7 || down
      let isOver := a == 7 && (c.dn.state == 2 || c.dn.state == 3)
      let v : State := { u with chain := { c with
        unit := a, addressed := true, state := 2, tokensOut := c.tokensOut ++ [tokenByte a c.gen],
        reportsUp := c.reportsUp ++ [{ addr := a, last := isLast, overflow := isOver, grade := s.grade, fw := s.boot.fwVersion }],
        unitCount := a + 1 } }
      exec (.enumToken t byte) s =
        .next (sendFlit 0 (.remoteFault a (faultN v)) (sendFlit 0 (.report a isLast isOver s.grade s.boot.fwVersion) v))) ∧
    (c.head = false → c.addressed = true → exec (.enumReport t addr last ovf grade fw) s =
      .next (sendFlit 0 (.report addr last ovf grade fw) { u with chain := { c with
        reportsUp := c.reportsUp ++ [report], unitCount := max c.unitCount (addr + 1) } })) ∧
    (c.head = false → c.addressed = false → exec (.enumReport t addr last ovf grade fw) s = .next u) ∧
    (c.head = true → c.state ≠ 1 ∨ (∃ x ∈ c.reports, x.addr = addr) → exec (.enumReport t addr last ovf grade fw) s = .next u) ∧
    (c.head = true → c.state = 1 → (∀ x ∈ c.reports, x.addr ≠ addr) → ¬ (ovf = true ∧ addr = 7) → exec (.enumReport t addr last ovf grade fw) s =
      .next (enumCheck { u with chain := { c with reports := c.reports ++ [report] } })) ∧
    (c.head = true → c.state = 1 → (∀ x ∈ c.reports, x.addr ≠ addr) → ovf = true → addr = 7 → exec (.enumReport t addr last ovf grade fw) s =
      .next (enumCheck (raise 150 0 0 { u with chain := { c with reports := c.reports ++ [report], overflow := true } }))) ∧
    (c.head = true → c.state = 1 → c.enumStart + 1000000 ≤ u.dt → exec (.enumerationTimeout t) s =
      .next (deviceEvent (raise 151 0 0 { u with chain := { c with
        unitCount := reportPrefix c.reports, state := 4, syncing := decide (reportPrefix c.reports > 1), syncTicks := 0 } }))) ∧
    (c.head = false ∨ c.state ≠ 1 ∨ u.dt < c.enumStart + 1000000 → exec (.enumerationTimeout t) s = .next u))

/-- O48. Time and tick of the chain (10 R339 to R341): a downstream unit sends its timestamp upstream, each unit answers its downstream
neighbour, and the answer moves the unit's DT by the offset that equal delays give; unit 0 announces its next tick, with its frame number
and FRAME_PERIOD (02 R38), at least 10 µs ahead and drives TICK_OUT 2,000 ns before it; a downstream unit takes the announcement and passes
it on, repeats the pulse, and keeps it for its next tick; at a tick of SYNCING the pulse's offset enters the mean, and the sixteenth makes
the unit READY; then a pulse counts within 50 ns of its due time (`delta` holds the sum of the 16 offsets). Rests on choices of the model,
not on rules of the spec: log entry 9. -/
def Obligations.ChainTime : Prop :=
  ∀ (t t2 t3 t4 td frame period : Nat) (s : State), Live s →
    let u := atDt t s
    let c := s.chain
    let asked := sendFlit 0 (.tsRequest u.dt) u
    let v := atDt t4 asked
    (∀ x, c.head = true ∨ c.addressed = false → exec (.timeSyncExchange t x) s = .next u) ∧
    (c.head = false → c.addressed = true → exec (.timeSyncExchange t none) s = .next asked ∧
      exec (.timeSyncExchange t (some (t2, t3, t4))) s =
        .next { v with dt := ((v.dt : Int) + roundDiv (((t2 : Int) - u.dt) + ((t3 : Int) - v.dt)) 2).toNat }) ∧
    (∀ t1 w, w.chain.addressed = true → w.chain.unit ≠ 7 → takeFlit 1 (.tsRequest t1) [] w = sendFlit 1 (.tsReply t1 w.dt w.dt) w) ∧
    (c.head = true → u.dt + 10000 ≤ td → tickDue td u = true → exec (.tickAnnounce t td frame period) s =
      .next (sendFlit 1 (.announce td (nextNumber u) s.frame.periodNext) { u with chain := { c with
        announce := some (td, nextNumber u, s.frame.periodNext), tickOut := c.tickOut ++ [td - 2000] } })) ∧
    (c.head = true → td < u.dt + 10000 ∨ tickDue td u = false → exec (.tickAnnounce t td frame period) s = .next u) ∧
    (c.head = false → c.addressed = true → exec (.tickAnnounce t td frame period) s =
      .next (sendFlit 1 (.announce td frame period) { u with
        chain := { c with announce := some (td, frame, period) }, frame := { s.frame with periodNext := period } })) ∧
    (c.head = true → exec (.tickInPulse t) s = .next u) ∧
    (c.head = false → exec (.tickInPulse t) s =
      .next { u with chain := { c with tickOut := c.tickOut ++ [t], pulse := if c.addressed = true then some t else none } }) ∧
    (∀ p, c.pulse = some p →
      let dev := (p : Int) - td + 2000
      let l := c.pulses ++ [dev]
      (pulseInTime s td = true ↔ (16 * dev - c.delta).natAbs ≤ 800) ∧
      (c.aligned = true → measurePulse td s = s) ∧
      (c.aligned = false → l.length < 16 → measurePulse td s = { s with chain := { c with pulses := l } }) ∧
      (c.aligned = false → 16 ≤ l.length → measurePulse td s =
        { s with chain := { c with pulses := [], delta := l.foldl (· + ·) 0, aligned := true, state := 3 } })) ∧
    (c.pulse = none → pulseInTime s td = false ∧ measurePulse td s = s)

/-- O49. The links of the chain (10 R328 to R332): a link that comes up ends link-down, one that goes down begins it, and the third failed
training makes it FAILED; a flit is delivered when its code is good and its header has the low four bits of the number expected and the
flit's type, else it is dropped and a replay is asked for once; a corrected flit counts one event; a replay request resends the kept flits
from the number asked for, in order, and counts one event, and a ninth replay of one flit takes the port to FAILED; CHN_UP of unit 0 does
nothing. When CHN_DN goes down, unit 0 ends the work in flight beyond it; another unit tells unit 0, which is the model's reading of R343
(notes/assumptions/122.md); the DIAGs whose far end the link cut off end with it. Rests on choices of the model, not on rules of the spec:
log entries 68 and 122. -/
def Obligations.ChainLinks : Prop :=
  ∀ (t port st seq hdr : Nat) (code : Bytes) (msg : FlitMsg) (errs : List (Nat × Bytes)) (s : State), Live s →
    let u := atDt t s
    let x := portOf s port
    let used := port ≤ 1 ∧ ¬ (s.chain.head = true ∧ port = 0)
    let open_ := used ∧ (x.state = 2 ∨ x.state = 3)
    let good := flitHeader x.rxNext msg
    let n := if x.replaySeq = seq then x.replays + 1 else 1
    (¬ used ∨ 4 < st → exec (.linkTraining t port st) s = .next u) ∧
    (used → st = 2 ∨ st = 3 → exec (.linkTraining t port st) s =
      .next (endLevel (portSrc port 2) (setPort port { x with state := st, fails := 0 } u))) ∧
    (used → x.state = 1 → 2 ≤ x.fails → exec (.linkTraining t port 0) s =
      .next (setPort port { x with state := 4, fails := x.fails + 1 } u)) ∧
    (used → x.state = 1 → x.fails < 2 → exec (.linkTraining t port 0) s =
      .next (setPort port { x with state := 0, fails := x.fails + 1 } u)) ∧
    (used → port = 0 → x.fails < 3 → x.state = 2 ∨ x.state = 3 → exec (.linkTraining t port 0) s =
      let v := raiseLevel 146 0 0 (setPort 0 { x with state := 0 } u)
      .next (abortDiags (fun k => decide (k < v.chain.unit)) 0x21 146 v)) ∧
    (port = 1 → x.fails < 3 → x.state = 2 ∨ x.state = 3 → exec (.linkTraining t port 0) s =
      .next (loseBeyond 0x21 149 (raiseLevel 149 0 0 (setPort 1 { x with state := 0 } u)))) ∧
    (∀ (status src : Nat) (v : State),
      (v.chain.head = true → loseBeyond status src v = abortForwarded v.chain.unit status src v) ∧
      (v.chain.head = false → v.chain.addressed = true → loseBeyond status src v =
        sendFlit 0 (.lost v.chain.unit status src) (abortDiags (fun k => decide (v.chain.unit < k)) status src v))) ∧
    (¬ open_ → exec (.chainFlitReceive t port hdr code msg errs) s = .next u) ∧
    (open_ → sillageDecode code = .clean → hdr = good → exec (.chainFlitReceive t port hdr code msg errs) s =
      .next (takeFlit port msg errs (setPort port { x with rxNext := x.rxNext + 1, dropping := false, rx := x.rx ++ [(code.take 32, msg)] } u))) ∧
    (∀ b, open_ → sillageDecode code = .corrected b → exec (.chainFlitReceive t port hdr code msg errs) s =
      .next (acceptFlit port hdr b msg errs (raise (portSrc port 0) 0 hdr u))) ∧
    (open_ → sillageDecode code = .uncorrectable ∨ (sillageDecode code = .clean ∧ hdr ≠ good) →
      x.dropping = false ∨ hdr % 16 = x.rxNext % 16 →
      exec (.chainFlitReceive t port hdr code msg errs) s =
        .next (sendFlit port (.replayFrom x.rxNext) (setPort port { x with dropping := true } u))) ∧
    (open_ → sillageDecode code = .uncorrectable ∨ (sillageDecode code = .clean ∧ hdr ≠ good) → x.dropping = true → hdr % 16 ≠ x.rxNext % 16 →
      exec (.chainFlitReceive t port hdr code msg errs) s = .next u) ∧
    (¬ used → exec (.replayRequest t port seq) s = .next u) ∧
    (used → n ≤ 8 → exec (.replayRequest t port seq) s =
      let again := x.txBuf.filter fun f => decide (seq ≤ f.1)
      let v := setPort port { x with replays := n, replaySeq := seq, resent := again } u
      .next (raise (portSrc port 1) 0 seq { v with chain := { v.chain with
        flitsOut := v.chain.flitsOut ++ again.map fun f => (port, flitHeader f.1 f.2, f.2) } })) ∧
    (used → 8 < n → exec (.replayRequest t port seq) s =
      .next (enterLink port 4 (setPort port { x with replays := n, replaySeq := seq } u)))

/-- O50. Register accesses to another unit (10 R344, 17 R516): an access to a unit beyond UNIT_COUNT sets the error bit; one to unit 0 is its
own register access; one to a downstream unit leaves as a flit and is busy until the answer, which a read puts into the data register, or
until 10 µs have passed, which sets the error bit; while one is busy no other starts, and a downstream unit starts none. Rests on choices of
the model, not on rules of the spec: log entry 2. -/
def Obligations.RemoteRegisterAccess : Prop :=
  ∀ (t v : Nat) (s : State), Live s →
    let u := atDt t s
    let c := s.chain
    let sent (val : Option Nat) : State := sendFlit 1 (.racc c.raccUnit c.raccOffset val) { u with chain := { c with raccBusy := true, raccStart := u.dt } }
    (c.head = false ∨ c.raccBusy = true → exec (.raccRead t none) s = .next u ∧ exec (.raccWrite t false) s = .next u) ∧
    (c.head = true → c.raccBusy = false → c.unitCount ≤ c.raccUnit →
      exec (.raccRead t none) s = .next { u with chain := { c with raccErr := true } } ∧
      exec (.raccWrite t false) s = .next { u with chain := { c with raccErr := true } }) ∧
    (c.head = true → c.raccBusy = false → c.raccUnit < c.unitCount → c.raccUnit = 0 →
      (∃ w, exec (.raccRead t none) s = .next w ∧ w.chain.raccData = (regRead c.raccOffset u).1) ∧
      exec (.raccWrite t false) s = .next (regWrite c.raccOffset c.raccData u)) ∧
    (c.head = true → c.raccBusy = false → c.raccUnit < c.unitCount → c.raccUnit ≠ 0 →
      exec (.raccRead t none) s = .next (sent none) ∧ exec (.raccWrite t false) s = .next (sent (some c.raccData)) ∧
      (∃ w, exec (.raccRead t (some v)) s = .next w ∧ w.chain.raccBusy = false ∧ w.chain.raccData = v) ∧
      (∃ w, exec (.raccWrite t true) s = .next w ∧ w.chain.raccBusy = false ∧ w.chain.raccData = c.raccData)) ∧
    (c.raccBusy = true → c.raccStart + 10000 ≤ u.dt →
      exec (.raccTimeout t) s = .next { u with chain := { c with raccBusy := false, raccErr := true } }) ∧
    (c.raccBusy = false ∨ u.dt < c.raccStart + 10000 → exec (.raccTimeout t) s = .next u)

/-- O51. UNIT_CONTROL (09 R317, 14 R437 to R440): a field out of range is refused. DISABLE of a function starts its drain of one period, joins a
drain in progress, or completes at once when it is disabled already; DISABLE of a geometry engine, FENCE, and RESTORE of a unit that is out
wait for their tick or rotation; RESTORE of a function lifts its disable at once, or is held by the drain in progress; RESTORE of a unit in
service completes at once; RESTORE of a geometry engine that is disabled first fences its cluster, when that is in service, and then runs
the cluster's recovery rotation; a further RESTORE joins the one that runs. FUNCTION_DRAIN_END (14 R438): nothing while the drain's time
runs and work of the function is in flight, nor for a function that does not drain; a drain with nothing in flight ends with the function
disabled and the action logged, and completes its DISABLEs. At the end of its time work of the function that is still in flight aborts with
ABORTED_DISABLE; the end of an ACCORD_LOAD drain lets a held load start, and the frame of an aborted FRAME_RUN runs on as an idle frame with
no certification. Rests on choices of the model, not on rules of the spec: log entries 67 and 80. -/
def Obligations.UnitControl : Prop :=
  (∀ (d : Taken) (v : View) (s : State), Admits { code := 0x0C, control := true } d s →
    let a := accepted d v s
    let f := fld d 0x0A 2
    let q := unitCluster d
    let g := MapChange.geo q (fld d 0x0E 1) (fld d 0x0F 1)
    let geoOut := clusterOut a q = true ∨ (q, fld d 0x0E 1, fld d 0x0F 1) ∈ s.units.geoDisabled ∨ g ∈ s.units.changes
    let changed (c : List MapChange) : State := { a with units := { a.units with changes := a.units.changes ++ c } }
    (∀ x, firstFail (unitChecks d) = some x →
      (fld d 8 1 ≠ 2 → fld d 8 1 ≠ 3 → exec (.unitDisable d v) s = .next (refuse d x a)) ∧
      (fld d 8 1 = 2 → exec (.unitFence d v) s = .next (refuse d x a)) ∧
      (fld d 8 1 = 3 → exec (.unitRestore d v) s = .next (refuse d x a))) ∧
    (firstFail (unitChecks d) = none →
      (fld d 8 1 = 1 → fld d 9 1 = 0 → f ∈ s.units.disabledFn → exec (.unitDisable d v) s = .next (unitNow d (.unitDisable f) a)) ∧
      (fld d 8 1 = 1 → fld d 9 1 = 0 → f ∉ s.units.disabledFn → (∃ x ∈ s.units.draining, x.1 = f) →
        exec (.unitDisable d v) s = .next (addWork (mkWork d 0 (.unitDisable f) a) a)) ∧
      (fld d 8 1 = 1 → fld d 9 1 = 0 → f ∉ s.units.disabledFn → (∀ x ∈ s.units.draining, x.1 ≠ f) →
        exec (.unitDisable d v) s = .next (logAction 4 0xFFFF f (addWork (mkWork d 0 (.unitDisable f) a)
          { a with units := { a.units with draining := a.units.draining ++ [(f, d.dt + periodNs a)] } }))) ∧
      (fld d 8 1 = 1 → fld d 9 1 ≠ 0 → exec (.unitDisable d v) s =
        .next (addWork (mkWork d 0 (.unitGeo q (fld d 0x0E 1) (fld d 0x0F 1)) a) (changed [g]))) ∧
      (fld d 8 1 = 2 → exec (.unitFence d v) s = .next (addWork (mkWork d 0 (.unitFence q) a) (changed [.fence q]))) ∧
      (fld d 8 1 = 3 → fld d 9 1 = 0 → (∀ x ∈ s.units.draining, x.1 ≠ f) → exec (.unitRestore d v) s =
        .next (unitNow d (.unitRestoreFn f) (logAction 5 0xFFFF f
          { a with units := { a.units with disabledFn := a.units.disabledFn.filter (fun x => x != f) } }))) ∧
      (fld d 8 1 = 3 → fld d 9 1 = 0 → (∃ x ∈ s.units.draining, x.1 = f) → exec (.unitRestore d v) s =
        .next (addWork (mkWork d 0 (.unitRestoreFn f) a) { a with units := { a.units with heldRestores := a.units.heldRestores ++ [f] } })) ∧
      (fld d 8 1 = 3 → fld d 9 1 = 1 → clusterOut a q = false → exec (.unitRestore d v) s = .next (unitNow d (.unitRestore q) a)) ∧
      (fld d 8 1 = 3 → fld d 9 1 = 1 → clusterOut a q = true → (∀ x ∈ s.units.restoring, x.1 ≠ q) → ∃ u, exec (.unitRestore d v) s = .next u ∧
        u.units.restoring = s.units.restoring ++ [(q, a.nextWid)] ∧ u.work = a.work ++ [mkWork d 0 (.unitRestore q) a] ∧
        u.units.changes = s.units.changes ∧ u.fault = a.fault ∧ u.net = a.net ∧ u.world = a.world ∧ u.hostMem = a.hostMem) ∧
      (fld d 8 1 = 3 → fld d 9 1 = 2 → ¬ geoOut → exec (.unitRestore d v) s = .next (unitNow d (.unitRestore q) a)) ∧
      (fld d 8 1 = 3 → fld d 9 1 = 2 → geoOut → (∀ x ∈ s.units.restoring, x.1 ≠ q) → ∃ u, exec (.unitRestore d v) s = .next u ∧
        u.units.restoring = s.units.restoring ++ [(q, a.nextWid)] ∧ u.work = a.work ++ [mkWork d 0 (.unitRestore q) a] ∧
        u.units.changes = s.units.changes ++ (if clusterOut a q = true then [] else [.fence q]) ∧
        u.fault = a.fault ∧ u.net = a.net ∧ u.world = a.world ∧ u.hostMem = a.hostMem) ∧
      (fld d 8 1 = 3 → fld d 9 1 = 1 ∧ clusterOut a q = true ∨ fld d 9 1 = 2 ∧ geoOut → (∃ x ∈ s.units.restoring, x.1 = q) →
        exec (.unitRestore d v) s =
          .next (addWork (mkWork d 0 (.unitRestore q) a) (changed (if clusterOut a q = true then [] else [.fence q])))))) ∧
  (∀ (t f : Nat) (s : State), Live s →
    let u := atDt t s
    ((∀ x ∈ s.units.draining, x.1 ≠ f) → exec (.functionDrainEnd t f) s = .next u) ∧
    (∀ e, s.units.draining.find? (fun x => x.1 == f) = some (f, e) →
      (u.dt < e → (∃ w ∈ s.work, w.kind = f) → exec (.functionDrainEnd t f) s = .next u) ∧
      (f ≠ 5 → f ≠ 6 → (∀ w ∈ s.work, w.kind ≠ f) → exec (.functionDrainEnd t f) s = .next (finishDrain f (logAction 4 0xFFFF f
        { u with units := { u.units with
          draining := u.units.draining.filter (fun x => x.1 != f), disabledFn := u.units.disabledFn ++ [f] } }))) ∧
      (e ≤ u.dt ∨ (∀ w ∈ s.work, w.kind ≠ f) →
        let flying (v : State) : List Work := v.work.filter fun w => w.kind == f
        let ended (v : State) : State := finishDrain f (logAction 4 0xFFFF f { v with units := { v.units with
          draining := v.units.draining.filter (fun x => x.1 != f), disabledFn := v.units.disabledFn ++ [f] } })
        (f ≠ 5 → f ≠ 6 → exec (.functionDrainEnd t f) s = .next (ended ((flying u).foldl (abortWork 0x20 0) u))) ∧
        (f = 5 → exec (.functionDrainEnd t f) s = .next (ended (startHeld ((flying u).foldl (abortWork 0x20 0) u)))) ∧
        (f = 6 → (∀ g i, s.frame.cur = some g → g.fr = some i → findWork s i = none) →
          exec (.functionDrainEnd t f) s = .next (ended ((flying u).foldl (abortWork 0x20 0) u))) ∧
        (f = 6 → (∃ g i, s.frame.cur = some g ∧ g.fr = some i ∧ (findWork s i).isSome = true) →
          let v := abortFrameRun 0x20 0 u
          exec (.functionDrainEnd t f) s = .next (ended ((flying v).foldl (abortWork 0x20 0) v))))) ∧
    (∀ (w : Work) (v : State), abortWork 0x20 0 v w = dropTraces w.wid (finishWork w 0x20 0 0 0 w.frameOf v)) ∧
    (∀ (g : Frame) (i : Nat) (v : State), v.frame.cur = some g → g.fr = some i → g.kind = .run → findWork v i = none →
      ∃ k, (abortFrameRun 0x20 0 v).frame.cur = some k ∧ k.fr = none ∧ k.kind = .idle ∧ k.cert = none ∧ k.number = g.number))

/-- O52. Carousel (15 R455 to R457, 14 R440): a test rotation is taken in NO_NET and STANDSTILL and refused otherwise; a slice counts only when
Ringmaster admitted it and its unit is under test; a passed one moves its unit on, and an unused spare starts again after forty; a failed
one loses the unit's progress and raises source 84. A recovery rotation changes nothing until each unit of the cluster has passed all its
slices or failed one; it passes with eight good cores, the map cache and the fabric, and then the cluster returns at the next tick in its
new layout, else its RESTOREs complete with ABORTED_FAULT and source 84. Rests on choices of the model, not on rules of the spec: log
entries 15 and 81. -/
def Obligations.Carousel : Prop :=
  ∀ (t q slice : Nat) (x : CUnit) (pass : Bool) (s : State), Live s →
    let u := atDt t s
    let w := { u with ringm := { u.ringm with sliceRunning := u.ringm.sliceRunning.filter (fun y => y != (x, slice)) } }
    let failed := raise 84 0 (carouselSyn x slice) (setProg x 0 w)
    (s.net.state = 0 ∨ s.net.state = 3 → exec (.carouselRun t) s = .next { u with safety := { s.safety with testWanted := true } }) ∧
    (s.net.state = 1 ∨ s.net.state = 2 → exec (.carouselRun t) s = .next { u with safety := { s.safety with refused := true } }) ∧
    ((x, slice) ∉ s.ringm.sliceRunning → exec (.carouselSliceDone t x slice pass) s = .next u) ∧
    ((x, slice) ∈ s.ringm.sliceRunning → testable w x = false → exec (.carouselSliceDone t x slice pass) s = .next w) ∧
    ((x, slice) ∈ s.ringm.sliceRunning → testable w x = true → exec (.carouselSliceDone t x slice true) s = .next (slicePassed x w)) ∧
    ((x, slice) ∈ s.ringm.sliceRunning → testable w x = true → (∀ k, unitCl x = some k → inRotation w k = false) →
      exec (.carouselSliceDone t x slice false) s = .next failed) ∧
    (∀ k, (x, slice) ∈ s.ringm.sliceRunning → testable w x = true → unitCl x = some k → inRotation w k = true →
      let v := { failed with safety := { failed.safety with failed := failed.safety.failed ++ [x] } }
      exec (.carouselSliceDone t x slice false) s = .next (if inRotation v k then clusterThrough k v else endRotations (clearProg k v))) ∧
    (∀ p, progOf s (.pair p) < 31 → slicePassed (.pair p) w = setProg (.pair p) (progOf s (.pair p) + 1) w) ∧
    (∀ p, progOf s (.pair p) = 31 → (slicePassed (.pair p) w).safety.pairsOut = s.safety.pairsOut.filter (fun y => y != p)) ∧
    (∀ k, unitCl x = some k → inRotation w k = false → slicePassed x w = setProg x ((progOf s x + 1) % 40) w) ∧
    (∀ k, unitCl x = some k → inRotation w k = true → slicePassed x w = clusterThrough k (setProg x (progOf s x + 1) w)) ∧
    ((∀ y ∈ s.units.restoring, y.1 ≠ q) ∨ rotationOver s q = false → exec (.restoreRotationDone t q) s = .next u) ∧
    ((∃ y ∈ s.units.restoring, y.1 = q) → rotationOver s q = true →
      let r := clearProg q { u with units := { u.units with restoring := u.units.restoring.filter (fun y => y.1 != q) } }
      let good := (List.range 9).filter (fun c => progOf s (.core q c) == 40)
      let ok := 8 ≤ good.length ∧ progOf s (.mapCache q) = 64 ∧ progOf s (.fabric q) = 8
      (ok → exec (.restoreRotationDone t q) s =
        .next { r with units := { r.units with changes := r.units.changes ++ [.relay q good, .restore q] } }) ∧
      (¬ ok → (∀ y ∈ s.work, y.item ≠ .unitRestore q) → exec (.restoreRotationDone t q) s = .next r) ∧
      (¬ ok → ∃ v, exec (.restoreRotationDone t q) s = .next v ∧
        v = r.work.foldl (fun z y => if y.item = .unitRestore q then finishWork y 0x21 0 84 0 none z else z) r ∧
        (∀ y ∈ v.work, y ∈ s.work) ∧ v.units = r.units ∧ v.safety = r.safety ∧ v.fault = s.fault ∧ v.net = s.net ∧ v.world = s.world))

/-- O53. DIAG (09 R317, 15 R448): a bad field is refused. READ answers an address error with its source and otherwise writes the bytes of the
device, corrected, to the host buffer; WRITE stores the host's bytes in the staging region and nowhere else; SNAPSHOT writes the object to
the host buffer, or names its size when the buffer is too small. A DIAG of another unit's memory leaves as a flit and completes with the
answer (10 R345), or with ABORTED_FAULT when the link that way is down (R343). That a WRITE refused there is a bad `dev_addr`, and that
poisoned data ends the DIAG with its source in place of reaching the host, are the model's readings (notes/assumptions/94.md, 107.md). Rests
on choices of the model, not on rules of the spec: log entries 18, 94 and 107. -/
def Obligations.Diag : Prop :=
  ∀ (d : Taken) (v : View) (errs : List (Nat × Bytes)) (s : State),
    let a := accepted d v s
    let p := fld d 8 8
    let n := fld d 0x18 4
    let port := if s.chain.unit < addrUnit p then 1 else 0
    let beyond := addrUnit p ≠ s.chain.unit ∧ s.chain.unitCount ≤ addrUnit p
    let linkUp := (portOf s port).state = 2 ∨ (portOf s port).state = 3
    let asked (code : Nat) (b : Bytes) : State := sendFlit port (.op .diag s.chain.unit a.nextWid code p 0 0 n b [])
      (addWork (mkWork d 0 (.diag (code == 0) (fld d 0x10 8) (addrUnit p)) a) a)
    let cut := complete (takenHdr d) 0x21 0 (portSrc port 2) 0 none a
    let found := codedRead a p n errs
    (Admits { code := 0x0D, anyStack := true } d s →
      (∀ x, fld d 0x1C 1 = 0 ∨ 2 < fld d 0x1C 1 → firstFail (diagChecks d) = some x → exec (.diagRead d v errs) s = .next (refuse d x a)) ∧
      (fld d 0x1C 1 = 0 → firstFail (diagChecks d) = none →
        (∀ e, diagAddrError a p n = some e → exec (.diagRead d v errs) s = .next (complete (takenHdr d) 0x21 0 e 0 none (raise e p p a))) ∧
        (diagAddrError a p n = none → addrUnit p = s.chain.unit → found.2.1 = [] → exec (.diagRead d v errs) s =
          .next (diagOk d (hostWrite (takenId d) (sillageEvents found.2.2 a) (fld d 0x10 8) found.1))) ∧
        (∀ g l, diagAddrError a p n = none → addrUnit p = s.chain.unit → found.2.1 = g :: l → exec (.diagRead d v errs) s =
          .next (complete (takenHdr d) 0x21 0 g.2.2 0 none (sillageEvents found.2.2 a))) ∧
        (diagAddrError a p n = none → addrUnit p ≠ s.chain.unit → linkUp → exec (.diagRead d v errs) s = .next (asked 1 [])) ∧
        (diagAddrError a p n = none → addrUnit p ≠ s.chain.unit → ¬ linkUp → exec (.diagRead d v errs) s = .next cut)) ∧
      (fld d 0x1C 1 = 2 → firstFail (diagChecks d) = none →
        ((snapshotBytes (fld d 0x1D 1) a).length ≤ n → exec (.diagSnapshot d v) s =
          .next (diagOk d (hostWrite (takenId d) a (fld d 0x10 8) (snapshotBytes (fld d 0x1D 1) a)))) ∧
        (n < (snapshotBytes (fld d 0x1D 1) a).length → exec (.diagSnapshot d v) s =
          .next (refuse d (tooSmall (snapshotBytes (fld d 0x1D 1) a).length) a)))) ∧
    (Admits { code := 0x0D, control := true, anyStack := true } d s → fld d 0x1C 1 = 1 → firstFail (diagChecks d) = none →
      (beyond → exec (.diagWrite d v errs) s = .next (complete (takenHdr d) 0x21 0 153 0 none (raise 153 p p a))) ∧
      (¬ beyond → inStaging a p n = false → exec (.diagWrite d v errs) s = .next (refuse d (badField 8) a)) ∧
      (∀ b, ¬ beyond → inStaging a p n = true → hostRead v a (fld d 0x10 8) n = some b → addrUnit p = s.chain.unit →
        exec (.diagWrite d v errs) s = .next (diagOk d (codedWrite p b errs a))) ∧
      (∀ b, ¬ beyond → inStaging a p n = true → hostRead v a (fld d 0x10 8) n = some b → addrUnit p ≠ s.chain.unit →
        (linkUp → exec (.diagWrite d v errs) s = .next (asked 0 b)) ∧ (¬ linkUp → exec (.diagWrite d v errs) s = .next cut)) ∧
      (¬ beyond → inStaging a p n = true → hostRead v a (fld d 0x10 8) n = none →
        exec (.diagWrite d v errs) s = .next (refuseRead d (fld d 0x10 8) a))) ∧
    (∀ (w : Work) (buf x k : Nat) (b : Bytes) (ps : List (Nat × Nat × Nat)) (z : State),
      (w.item = .diag false buf k → diagAnswer w x false b [] z = finishWork w 0 (susFlag z) 0 0 none (hostWrite w.id z buf b)) ∧
      (∀ wr g l, w.item = .diag wr buf k → ps = g :: l → diagAnswer w x false b ps z = finishWork w 0x21 0 g.2.2 0 none z) ∧
      (w.item = .diag false buf k → diagAnswer w x true b ps z = finishWork w 0x21 0 100 0 none (raise 100 x x z)) ∧
      (w.item = .diag true buf k → diagAnswer w x false b [] z = finishWork w 0 (susFlag z) 0 0 none z) ∧
      (w.item = .diag true buf k → diagAnswer w x true b ps z = finishWork w 0x10 0 8 0xFFFFFFFF none z))

/-- O54. MAP_INGEST, MAP_PRIMITIVES and MAP_HAZARD that pass their checks (03 R96, R107, R113 to R119): an ingest is scheduled behind the
backlog, and refused whole beyond 50 ms of it; primitives apply to the open version at once, or wait when a tick or a seal comes first; the
records of a hazard descriptor join the waiting changes in order, and an add less than 20 µs before the next tick is late: it commits at
most 2 µs after acceptance, and one that commits before that tick is counted in the frame in progress at once. A buffer the host cannot give
ends in ABORTED_FAULT, and a bad hazard record refuses the whole descriptor. Rests on choices of the model, not on rules of the spec: log
entries 26, 33, 44 and 113. -/
def Obligations.MapDescriptors : Prop :=
  ∀ (d : Taken) (v : View) (commit : Nat) (s : State),
    let a := accepted d v s
    let buf := fld d 8 8
    let n := fld d 0x10 4
    let cnt := fld d 0x14 2
    let hz := fld d 0x10 2
    (∀ h, Admits { code := 1 } d s → buf % 64 = 0 → 0x80 ≤ n → (reservedCheck d [(8, 8), (0x10, 4)]).1 = false →
      (hostRead v a buf 0x80 = none → exec (.mapIngest d v) s = .next (refuseRead d buf a)) ∧
      (hostRead v a buf 0x80 = some h → ingestHeaderOk h = false → exec (.mapIngest d v) s = .next (refuse d badWhole a)) ∧
      (hostRead v a buf 0x80 = some h → ingestHeaderOk h = true → 0x80 + elemBytes (hSource h) * hCount h ≤ n → hSource h < 4 →
        let start := max d.dt s.world.lastC
        let gs := makeGroups a.nextWid 0 (hCount h) (hCount h / 4096 + 1) 0 start
        (d.dt + 50000000 < start + 5 * hCount h → exec (.mapIngest d v) s = .next (refuse d badWhole a)) ∧
        (start + 5 * hCount h ≤ d.dt + 50000000 → exec (.mapIngest d v) s =
          let b := addWork (mkWork d 0 (.ingest { bufAddr := buf, hdr := h, box := [] }) a) a
          let last := gs.foldl (fun _ g => g.c) start
          .next { b with world := { b.world with
            groups := s.world.groups ++ gs, lastC := last,
            ingestSeals := if bitOf (fieldN h 2 2) 0 then s.world.ingestSeals ++ [last] else s.world.ingestSeals } })) ∧
      (hostRead v a buf 0x80 = some h → ingestHeaderOk h = true → 0x80 + elemBytes (hSource h) * hCount h ≤ n →
        (∀ b, hSource h = 4 → hostRead v a (buf + 0x80) 12 = some b →
          let box := (List.range 6).map fun k => fieldI b (2 * k) 2
          ((∀ k < 3, box.getD k 0 ≤ box.getD (k + 3) 0) → exec (.mapIngest d v) s = .next (scheduleIngest d h box a)) ∧
          ((∃ k < 3, box.getD (k + 3) 0 < box.getD k 0) → exec (.mapIngest d v) s = .next (refuse d badWhole a))) ∧
        (hSource h = 5 → forecastLoaded a = true → exec (.mapIngest d v) s = .next (refuse d unsupportedFail a)) ∧
        (hSource h = 5 → forecastLoaded a = false → exec (.mapIngest d v) s = .next (scheduleIngest d h [] a)))) ∧
    (∀ recs, Admits { code := 2 } d s → buf % 16 = 0 → n ≤ 270336 → 1 ≤ cnt → cnt ≤ 256 →
      (reservedCheck d [(8, 8), (0x10, 4), (0x14, 2)]).1 = false →
      (readPrims v a cnt buf n 0 = .error .short → exec (.mapPrimitives d v) s = .next (refuse d (badField 0x10) a)) ∧
      (readPrims v a cnt buf n 0 = .ok recs → closeToTick a d.dt = false → s.world.sealWanted = none → primsWaiting a = false →
        exec (.mapPrimitives d v) s = .next (runPrims false [mkWork d 0 (.prims recs false) a] (addWork (mkWork d 0 (.prims recs false) a) a))) ∧
      (readPrims v a cnt buf n 0 = .ok recs → closeToTick a d.dt = true ∨ s.world.sealWanted ≠ none ∨ primsWaiting a = true →
        let w := addWork (mkWork d 0 (.prims recs false) a) a
        ((∃ x ∈ w.work, ∃ r, x.item = .prims r true) → exec (.mapPrimitives d v) s = .next (holdPrims w)) ∧
        ((∀ x ∈ w.work, ∀ r, x.item ≠ .prims r true) → exec (.mapPrimitives d v) s = .next w))) ∧
    (∀ b, Admits { code := 3 } d s → buf % 8 = 0 → 1 ≤ hz → hz ≤ 256 → (reservedCheck d [(8, 8), (0x10, 2)]).1 = false →
      hostRead v a buf (32 * hz) = some b →
      let rec_ (i : Nat) : Option (Nat × Haz) := parseHaz (256 * a.nextWid + i) ((b.drop (32 * i)).take 32)
      let ch := (List.range hz).filterMap rec_
      let held := s.world.hazChanges.foldl (fun l c => hazIds l c.op c.haz.id) ((s.world.hazards.map (fun h => h.id)).eraseDups)
      (∀ i < hz, rec_ i = none → (∀ j < i, rec_ j ≠ none) → exec (.mapHazard d v commit) s = .next (refuse d (badRecord i) a)) ∧
      ((∀ i < hz, rec_ i ≠ none) → 256 < (ch.foldl (fun l c => hazIds l c.1 c.2.id) held).length →
        exec (.mapHazard d v commit) s = .next (refuse d badWhole a)) ∧
      ((∀ i < hz, rec_ i ≠ none) → (ch.foldl (fun l c => hazIds l c.1 c.2.id) held).length ≤ 256 →
        let at_ := max d.dt (min commit (d.dt + 2000))
        let mk (late : Bool) (c : Nat × Haz) : HazChange :=
          { wid := a.nextWid, op := c.1, haz := c.2, accept := d.dt, late := late && c.1 == 1, commit := at_,
            committed := late && decide (at_ < nextTick a) }
        let joined (late : Bool) : State :=
          let w := addWork (mkWork d 0 (.hazard hz ((ch.map (mk late)).any fun c => c.late)) a) a
          { w with world := { w.world with hazChanges := s.world.hazChanges ++ ch.map (mk late) } }
        (lateForTick a d.dt = false → exec (.mapHazard d v commit) s = .next (joined false)) ∧
        (lateForTick a d.dt = true → nextTick a ≤ at_ → exec (.mapHazard d v commit) s = .next (joined true)) ∧
        (lateForTick a d.dt = true → at_ < nextTick a → exec (.mapHazard d v commit) s =
          .next (((ch.map (mk true)).filter fun c => c.late).foldl (fun z c => countLate c z) (joined true)))))

/-- O55. The Atomiser and the seal (03 R97, R103 to R105): a group runs only at the head of the queue and while no seal holds it; an overrun is
counted once for each group; a seal starts when one is wanted, none runs and no group before its cut is left and no forecast set of an
earlier frame is owed (06 R223), and makes the open epoch the next flacon with the newest forecast set; its completion brings that flacon
into force, a full seal's by its own command. Rests on choices of the model, not on rules of the spec: log entry 34. -/
def Obligations.AtomiserAndSeal : Prop :=
  ∀ (t : Nat) (v : View) (s : State), Live s →
    let u := atDt t s
    let x := applyView v u
    let ready (t0 : Nat) : Prop := s.world.sealing = none ∧ (∀ g ∈ s.world.groups, t0 < g.c + 20000) ∧ ∀ o ∈ s.world.fcastOwed, t0 ≤ o.2.1
    (s.world.groups = [] → exec (.atomiserGroup t v) s = .next x) ∧
    (∀ g gs, s.world.groups = g :: gs →
      (groupHeld x g = true → exec (.atomiserGroup t v) s = .next x) ∧
      (∀ w i, groupHeld x g = false → findWork x g.wid = some w → w.item = .ingest i → exec (.atomiserGroup t v) s = .next (runGroup v g w i x))) ∧
    (∀ g, s.world.groups.find? (fun g => decide (g.c + 100000 < u.dt) && !s.world.overrunDone.contains (g.wid, g.first)) = some g →
      exec (.atomiserOverrun t) s = .next (raise 97 0 0 { u with world := { u.world with
        overrunDone := u.world.overrunDone ++ [(g.wid, g.first)] } })) ∧
    ((∀ g ∈ s.world.groups, u.dt ≤ g.c + 100000 ∨ (g.wid, g.first) ∈ s.world.overrunDone) → exec (.atomiserOverrun t) s = .next u) ∧
    (s.world.sealWanted = none → exec (.sealStart t) s = .next u) ∧
    (∀ t0, s.world.sealWanted = some t0 → ¬ ready t0 → exec (.sealStart t) s = .next u) ∧
    (∀ t0, s.world.sealWanted = some t0 → ready t0 → ∃ b, exec (.sealStart t) s = .next (runPrims true b.work b) ∧ b.work = s.work ∧
      b.world.openEpoch = (s.world.openEpoch + 1) % 2 ^ 32 ∧ b.world.dirty = [] ∧ b.world.fl = s.world.fl ∧ b.world.sealWanted = none ∧ b.world.fsetOpen = s.world.fsetLater ∧
      ∃ sl, b.world.sealing = some sl ∧ sl.full = !s.world.sealedOnce ∧ sl.next.epoch = s.world.openEpoch ∧ sl.next.prims = s.world.prims ∧
        sl.next.index = b.world.index ∧ sl.next.pool = b.world.pool ∧ sl.next.blocking = false ∧
        sl.next.fset = (s.world.fsetOpen.or s.world.fl.fset).map (shiftFSet sl.next.ox sl.next.oy)) ∧
    (∀ sl, s.world.sealing = some sl →
      let done := modFrame (fun f => if f.published then f else { f with tSealEnd := (u.dt : Int) - (f.tickDt : Int) })
        (fillFlacon { u with world := { u.world with fl := sl.next, sealing := none }, cores := { u.cores with dirMem := [] } })
      (sl.full = false → exec (.sealComplete t) s = .next done ∧ exec (.fullSealComplete t) s = .next u) ∧
      (sl.full = true → exec (.fullSealComplete t) s = .next done ∧ exec (.sealComplete t) s = .next u)) ∧
    (s.world.sealing = none → exec (.sealComplete t) s = .next u ∧ exec (.fullSealComplete t) s = .next u)

/-- O56. FRAME_RUN, CHECK, SOLVE, SELECT and TENSOR_RUN that pass their checks and fit the Accord (02 R41, R42, 04 R155, 05 R198, 06 R234, 07
R258): each joins the accepted work, bound to its frame, with what its descriptor says; a result buffer that is too small is refused with
the size needed. Rests on choices of the model, not on rules of the spec: log entry 26. -/
def Obligations.PlanningDescriptors : Prop :=
  ∀ (d : Taken) (v : View) (s : State),
    let a := accepted d v s
    (∀ mb pb c, Admits { code := 6 } d s → firstFail (frameRunChecks a d) = none → hostRead v a (fld d 0x18 8) 352 = some mb →
      hostRead v a (fld d 0x20 8) (48 * fld d 0x32 2) = some pb → frameClass a (fld d 0x34 1) = some c → measOk (some c) mb = true →
      let people := (List.range (fld d 0x32 2)).map fun i => (pb.drop (48 * i)).take 48
      people.all personOk = true → hasSection a 2 = true → fld d 0x2E 2 ≤ proposalCount a → bodyReady a (frameRunBound a d) = true →
      (fld d 0x28 4 < frameRunBytes (fld d 0x30 2) c → exec (.frameRun d v) s = .next (refuse d (tooSmall (frameRunBytes (fld d 0x30 2) c)) a)) ∧
      (frameRunBytes (fld d 0x30 2) c ≤ fld d 0x28 4 → exec (.frameRun d v) s = .next (addWork (mkWork d (frameRunBound a d) (.frameRun {
        target := fld d 8 8, resultAddr := fld d 0x10 8, nWarm := fld d 0x2C 2, nProp := fld d 0x2E 2, k := fld d 0x30 2,
        optClass := fld d 0x34 1, sealReq := fld d 0x35 1 == 1, meas := parseMeas mb, people := people }) a) a))) ∧
    (Admits { code := 8 } d s → firstFail (checkChecks a d) = none → hasSection a 3 = true → bodyReady a (boundOf a d) = true →
      (fld d 0x24 4 < checkBytes (fld d 0x20 4) (fld d 0x30 2) → exec (.check d v) s =
        .next (refuse d (tooSmall (checkBytes (fld d 0x20 4) (fld d 0x30 2))) a)) ∧
      (checkBytes (fld d 0x20 4) (fld d 0x30 2) ≤ fld d 0x24 4 → exec (.check d v) s = .next (addWork (mkWork d (boundOf a d) (.check {
        target := fld d 8 8, candAddr := fld d 0x10 8, candCount := fld d 0x20 4, stride := fld d 0x2C 2, resultAddr := fld d 0x18 8,
        weight := fld d 0x28 4, margin := fld d 0x2E 2, k := fld d 0x30 2, learned := fld d 0x32 2 == 1,
        todo := List.range (batchCount (fld d 0x20 4)) }) a) a))) ∧
    (∀ c g, Admits { code := 7, reduced := false } d s → a.accord = some g → classOf a (fld d 0x2E 1) = some c → c.solve = true → g.solveStarts ≠ 0 →
      hasSection a 9 = true →
      let warm := bitOf (fld d 0x2F 1) 0
      let rb := probBytes warm (some c)
      let n := fld d 0x2C 2
      let read_ (i : Nat) : Option Bytes := hostRead v a (fld d 0x10 8 + fld d 0x20 4 * i) rb
      targetPast a d = false → fld d 0x10 8 % 8 = 0 → fld d 0x18 8 % 8 = 0 → fld d 0x20 4 % 8 = 0 → rb ≤ fld d 0x20 4 →
      (fld d 0x28 4 = 0 ∨ (1000 ≤ fld d 0x28 4 ∧ fld d 0x28 4 ≤ 10000000)) → 1 ≤ n → n ≤ 4096 → fld d 0x2F 1 ≤ 1 →
      (reservedCheck d [(8, 0x28)]).1 = false → (∀ i < n, ∃ b, read_ i = some b ∧ probOk warm (some c) b = true) →
      0x40 + n * solveResultBytes c ≤ fld d 0x24 4 → exec (.solve d v) s = .next (addWork (mkWork d (boundOf a d) (.solve {
        target := fld d 8 8, cls := fld d 0x2E 1, probs := (List.range n).map (fun i => parseProb warm (some c) ((read_ i).getD [])),
        resultAddr := fld d 0x18 8, budget := fld d 0x28 4, todo := List.range n }) a) a)) ∧
    (∀ g, Admits { code := 9, reduced := false } d s → a.accord = some g → g.selectStarts ≠ 0 → hasSection a 9 = true →
      let w := keyBits (fld d 0x3A 1) / 8
      let len := fld d 0x28 4
      let k := fld d 0x34 2
      let rows := fld d 0x36 2
      targetPast a d = false → fld d 0x10 8 % 8 = 0 → (fld d 0x38 2 = 0 → fld d 0x18 8 = 0) → (fld d 0x38 2 = 1 → fld d 0x18 8 % 4 = 0) →
      fld d 0x20 8 % 8 = 0 → 1 ≤ len → len ≤ 1048576 → rows * len ≤ 67108864 → fld d 0x2C 4 % 8 = 0 → len * w ≤ fld d 0x2C 4 → 1 ≤ k → k ≤ 4096 →
      1 ≤ rows → rows ≤ 4096 → fld d 0x38 2 ≤ 1 → fld d 0x3A 1 ≤ 4 → fld d 0x3B 1 ≤ 1 → (reservedCheck d [(8, 0x34)]).1 = false →
      64 + rows * (16 + 16 * k) ≤ fld d 0x30 4 → exec (.select d v) s = .next (addWork (mkWork d (boundOf a d) (.select {
        target := fld d 8 8, keyType := fld d 0x3A 1, order := fld d 0x3B 1, explicitIdx := fld d 0x38 2 == 1, k := k, rowCount := rows,
        rowLen := len, rowStride := fld d 0x2C 4, keyAddr := fld d 0x10 8, idxAddr := fld d 0x18 8, resultAddr := fld d 0x20 8,
        todo := List.range rows }) a) a)) ∧
    (∀ g n, Admits { code := 0x0A, reduced := false } d s → a.accord = some g → g.nets[fld d 0x2A 1]? = some n → n.tr = true → g.tensorStarts ≠ 0 →
      hasSection a 9 = true →
      let runs := fld d 0x28 2
      targetPast a d = false → fld d 0x10 8 % 64 = 0 → fld d 0x18 8 % 64 = 0 → runs * inputSet n ≤ fld d 0x20 4 → 1 ≤ runs → runs ≤ 256 →
      fld d 0x2B 1 ≤ 1 → (reservedCheck d [(8, 0x24)]).1 = false → 64 + runs * runBytes n (fld d 0x2B 1 == 1) ≤ fld d 0x24 4 →
      exec (.tensorRun d v) s = .next (addWork (mkWork d (boundOf a d) (.tensorRun {
        target := fld d 8 8, net := fld d 0x2A 1, writeDigests := fld d 0x2B 1 == 1, runCount := runs, inAddr := fld d 0x10 8,
        outAddr := fld d 0x18 8, todo := List.range runs }) a) a))

/-- O57. BODY_LOAD and ACCORD_LOAD (04 R121 to R126, 11 R369 to R372). BODY_LOAD: a body (op 1), a payload (op 2) or a detach (op 3) that passes
its checks joins the accepted work when the body that it leaves fits the Accord, and is refused when it does not; a payload beyond the
totals and an invalid record are refused. That a detach with no body loaded is accepted is the model's choice (notes/assumptions/65.md).
ACCORD_LOAD: the header and the manifest are read from host memory or from the staging region, and an image that is not acceptable is
refused; an acceptable one is copied into the pending region, and after the copy the SHA-384 of its bytes, with those of the field taken as
zero, is compared with its header's, and its first 64 bits with those expected; a failed transfer ends it with ABORTED_FAULT; the load
completes once the cores have loaded. Rests on choices of the model, not on rules of the spec: log entries 5, 65, 74, 127 and 135. -/
def Obligations.Loads : Prop :=
  ∀ (d : Taken) (v : View) (img : Accord) (t : Nat) (s : State),
    let a := accepted d v s
    let u := atDt t s
    (∀ h b, Admits { code := 4, control := true } d s → fld d 8 8 % 8 = 0 → 16 ≤ fld d 0x10 4 → (reservedCheck d [(8, 8), (0x10, 4)]).1 = false →
      let nj := fieldN h 2 1
      let nc := fieldN h 3 1
      let ns := fieldN h 4 2
      let size := 16 + 48 * nj + 16 * ns + 32 * nc
      hostRead v a (fld d 8 8) 16 = some h → fieldN h 7 1 = 0 → fieldN h 0xC 4 = 0 → nj ≤ 48 → nc ≤ 64 → size ≤ fld d 0x10 4 →
      hostRead v a (fld d 8 8 + 16) (size - 16) = some b →
      (fieldN h 0 1 = 1 → fieldN h 1 1 ≤ 2 → ns ≤ 256 →
        (∀ f, buildBody h b = .error f → exec (.bodyLoad d v) s = .next (refuse d f a)) ∧
        (∀ x, buildBody h b = .ok x →
          (bodyFitsNow a x = true → exec (.bodyLoad d v) s = .next (addWork (mkWork d 0 (.body 1 x) a) a)) ∧
          (bodyFitsNow a x = false → exec (.bodyLoad d v) s = .next (refuse d mismatchFail a)))) ∧
      (∀ o, fieldN h 0 1 = 2 → ns ≤ 32 → s.body = some o → fieldN h 6 1 ≤ o.joints.length →
        (∀ i, parseAll (fun _ => parseSphere o.joints.length) b (48 * nj) 16 nj ns = .error i →
          exec (.bodyLoad d v) s = .next (refuse d (badRecord i) a)) ∧
        (∀ l, parseAll (fun _ => parseSphere o.joints.length) b (48 * nj) 16 nj ns = .ok l →
          let p := l.map fun x => { x with link := fieldN h 6 1 }
          (payloadFits o l = false → exec (.bodyLoad d v) s = .next (refuse d badWhole a)) ∧
          (payloadFits o l = true → bodyFitsNow a { o with payload := p } = true →
            exec (.bodyLoad d v) s = .next (addWork (mkWork d 0 (.body 2 (payloadBody (fieldN h 8 4) p)) a) a)) ∧
          (payloadFits o l = true → bodyFitsNow a { o with payload := p } = false →
            exec (.bodyLoad d v) s = .next (refuse d mismatchFail a)))) ∧
      (fieldN h 0 1 = 3 → ns = 0 →
        let left := payloadBody (fieldN h 8 4) []
        (∀ o, s.body = some o → bodyFitsNow a { o with payload := [] } = true →
          exec (.bodyLoad d v) s = .next (addWork (mkWork d 0 (.body 3 left) a) a)) ∧
        (∀ o, s.body = some o → bodyFitsNow a { o with payload := [] } = false → exec (.bodyLoad d v) s = .next (refuse d mismatchFail a)) ∧
        (s.body = none → exec (.bodyLoad d v) s = .next (addWork (mkWork d 0 (.body 3 left) a) a)))) ∧
    (Admits { code := 5, control := true } d s → fld d 8 8 % 4096 = 0 → fld d 0x20 1 ≤ 1 →
      (reservedCheck d [(8, 8), (0x10, 8), (0x18, 8), (0x20, 1)]).1 = false →
      let staged := bitOf (fld d 0x20 1) 0
      let read (n : Nat) : Option Bytes := if staged then some (imageBytesAt a (true, fld d 8 8) n) else hostRead v a (fld d 8 8) n
      (staged = true → s.hostq.stageSize < fld d 8 8 + fld d 0x10 8 → exec (.accordLoad d v img) s = .next (refuse d (badField 8) a)) ∧
      ((staged = true → fld d 8 8 + fld d 0x10 8 ≤ s.hostq.stageSize) →
        (read 256 = none → exec (.accordLoad d v img) s = .next (refuseRead d (fld d 8 8) a)) ∧
        (∀ h, read 256 = some h →
          let m := fieldN h 0x1C 4
          (m < 4096 ∨ 262144 < m → exec (.accordLoad d v img) s = .next (refuse d badWhole a)) ∧
          (4096 ≤ m → m ≤ 262144 →
            (read m = none → exec (.accordLoad d v img) s = .next (refuseRead d (fld d 8 8) a)) ∧
            (∀ b, read m = some b →
              let im := readHeader img b
              (fld d 0x10 8 ≠ im.imageBytes → exec (.accordLoad d v img) s = .next (refuse d (badField 0x10) a)) ∧
              (fld d 0x10 8 = im.imageBytes →
                (imageOk im = false → exec (.accordLoad d v img) s = .next (refuse d badWhole a)) ∧
                (imageOk im = true → 1 < im.format ∨ s.boot.fwVersion < im.minFirmware →
                  exec (.accordLoad d v img) s = .next (refuse d unsupportedFail a)) ∧
                (imageOk im = true → im.format ≤ 1 → im.minFirmware ≤ s.boot.fwVersion → exec (.accordLoad d v img) s =
                  .next (startHeld (addWork (mkWork d 0 (.accord im (fld d 0x18 8) .held (staged, fld d 8 8)) a) a))))))))) ∧
    (Live s →
      (∀ e, accordCopying s = none → exec (.accordCopyDone t e) s = .next u) ∧
      (∀ w im ex src, accordCopying s = some (w, im, ex, src) →
        (src.1 = false → exec (.accordCopyDone t true) s = .next (startHeld (finishWork w 0x21 0 155 0 none (raise 155 src.2 0 u)))) ∧
        (∀ e, e = false ∨ src.1 = true →
          let b := imageBytesAt u src im.imageBytes
          let z := keyWrite u (pendingAt u) b
          let hash := sha384 (patchAt b 0x20 (zeros 48))
          (hash ≠ im.hash → exec (.accordCopyDone t e) s = .next (startHeld (finishWork w 0x10 0 0xFFFFFFFF 0xFFFFFFFF none z))) ∧
          (hash = im.hash → ex ≠ 0 → ex ≠ im.hash64 → exec (.accordCopyDone t e) s = .next (startHeld (finishWork w 0x13 0 0 0 none z))) ∧
          (hash = im.hash → ex = 0 ∨ ex = im.hash64 → exec (.accordCopyDone t e) s =
            .next (setItem w.wid (.accord im ex (.passed u.dt) src) z)))) ∧
      (∀ w n, s.work.findSome? (fun w => match w.item with | .accord _ _ (.loading n) _ => some (w, n) | _ => none) = some (w, n) →
        exec (.accordCoresLoaded t) s = .next (startHeld (finishWork w 0 (susFlag u) 0 0 (some n) u))) ∧
      ((∀ w ∈ s.work, ∀ i e n p, w.item ≠ .accord i e (.loading n) p) → exec (.accordCoresLoaded t) s = .next u))

/-- O58. Optimisations (05 R168, R172, R181, R183, R184, R199, R200): a core starts one at a time and in order, and a SOLVE's budget runs from
the start; the outer iteration that ends before the deadline commits and its digest is logged; at the deadline the optimisation stops with
DEADLINE, and one that never started has the merit of its start iterate; a stopped problem of a SOLVE gives its result, and the record comes
with the last. That seeds which a fence brings onto one core with the same position start by seed slot is the model's choice
(notes/assumptions/132.md). The rules of one outer iteration (05 R172): a failed factorisation or an infeasible problem commits nothing; an
iterate commits only while it is finite, in range and its residual has not grown a thousandfold; the tolerance is tested before the cap.
Rests on choices of the model, not on rules of the spec: log entries 51 and 132. -/
def Obligations.Optimisations : Prop :=
  (∀ (t wid idx cmp inner tries : Nat) (o : Opt) (w : Work) (s : State), Live s → findOpt s wid idx = some o → findWork s wid = some w →
    let u := atDt t s
    let solves : Bool := match w.item with | .solve _ => true | _ => false
    let busy := s.opts.any fun x => !(x.wid == o.wid && x.idx == o.idx) && x.stop.isNone && ((x.core == o.core && x.started) ||
      (x.wid == o.wid && (decide (x.pos < o.pos) || (x.pos == o.pos && decide (x.idx < o.idx))) && !x.started && (x.core == o.core || solves)))
    let waits := o.fromProposal && (match s.frame.cur with | some f => f.proposalState == 0 | none => false)
    let blocked := o.started || o.stop.isSome || busy || waits || deadlinePassed o u.dt
    let m := optMerit u o o.cur
    (blocked = true → exec (.optimisationStart t wid idx) s = .next u) ∧
    (blocked = false → (∀ v, w.item ≠ .solve v) → exec (.optimisationStart t wid idx) s =
      .next (setOpt { o with started := true, startDt := u.dt, merit := m } u)) ∧
    (∀ v, blocked = false → w.item = .solve v → exec (.optimisationStart t wid idx) s =
      .next (setOpt { o with
        started := true, startDt := u.dt, merit := m, deadline := if v.budget = 0 then none else some (u.dt + v.budget) } u)) ∧
    (∀ c q, optClass s wid = some c → optIn c s wid idx = some q →
      (o.started = false ∨ o.stop.isSome = true ∨ u.dt < cmp ∨ deadlinePassed o cmp = true → exec (.outerCommit t wid idx cmp) s = .next u) ∧
      (o.started = true → o.stop = none → cmp ≤ u.dt → deadlinePassed o cmp = false →
        let o' := outerStep c o (outerIter c q o.cur)
        let v := setOpt { o' with stopFrame := s.frame.number } u
        (o'.outer = o.outer → exec (.outerCommit t wid idx cmp) s = .next v) ∧
        (o'.outer ≠ o.outer → exec (.outerCommit t wid idx cmp) s =
          .next (logWork w 2 (o'.digests.getLastD 0) w.bound idx o'.outer 3 v)))) ∧
    (o.stop.isSome = true ∨ deadlinePassed o u.dt = false → exec (.deadlineCut t wid idx inner tries) s = .next u) ∧
    (o.stop = none → deadlinePassed o u.dt = true → o.started = true → exec (.deadlineCut t wid idx inner tries) s =
      .next (cutOpt wid idx (setOpt { o with
        inner := o.inner + (cutCounts u o inner tries).1, retries := o.retries + (cutCounts u o inner tries).2 } u))) ∧
    (o.stop = none → deadlinePassed o u.dt = true → o.started = false → exec (.deadlineCut t wid idx inner tries) s =
      .next (cutOpt wid idx (setOpt { o with merit := m } u))) ∧
    (∀ why sv c, o.stop = some why → w.item = .solve sv → classOf s sv.cls = some c →
      let res : OptRes := { stop := why, valid := o.valid, outer := o.outer, retries := o.retries, inner := o.inner,
                            residual := o.resid, merit := o.merit, traj := o.cur, digests := o.digests }
      let sv' := { sv with running := sv.running.filter (fun i => i != idx), results := insertKey idx res sv.results,
                           lastFrame := max sv.lastFrame o.stopFrame }
      let u' := setItem wid (.solve sv') { u with opts := u.opts.filter (fun x => !(x.wid == wid && x.idx == idx)) }
      (sv'.results.length ≠ sv.probs.length → exec (.solveProblemStop t wid idx) s = .next u') ∧
      (sv'.results.length = sv.probs.length → exec (.solveProblemStop t wid idx) s = .next (finishSolve w c sv' u'))) ∧
    (o.stop = none → exec (.solveProblemStop t wid idx) s = .next u)) ∧
  (∀ (c : PClass) (o : Opt) (r : OuterResult),
    (r.factorFail = true → outerStep c o r =
      { o with inner := o.inner + r.inner, retries := o.retries + r.retries, stop := some 5 }) ∧
    (r.factorFail = false → r.infeasible = true → outerStep c o r =
      { o with inner := o.inner + r.inner, retries := o.retries + r.retries, stop := some 4 }) ∧
    (r.factorFail = false → r.infeasible = false →
      r.z.all ffin = false ∨ exceedsMagnitude c r.z = true ∨ (1 ≤ o.outer ∧ dlt (dmul (dofInt 1000) o.r1) r.residual = true) →
      outerStep c o r = { o with inner := o.inner + r.inner, retries := o.retries + r.retries, stop := some 3 }) ∧
    (r.factorFail = false → r.infeasible = false → r.z.all ffin = true → exceedsMagnitude c r.z = false →
      (o.outer = 0 ∨ dlt (dmul (dofInt 1000) o.r1) r.residual = false) →
      let x := outerStep c o r
      x.outer = o.outer + 1 ∧ x.valid = true ∧ x.cur = r.z ∧ x.merit = r.merit ∧ x.resid = r.residual ∧
      x.digests = o.digests ++ [iterateDigest r.z r.mult] ∧
      (dle r.residual c.tol = true → x.stop = some 0) ∧
      (dle r.residual c.tol = false → o.outer + 1 = c.outerCap → x.stop = some 1) ∧
      (dle r.residual c.tol = false → o.outer + 1 ≠ c.outerCap → x.stop = none)))

/-- O59. Networks and rows (06 R219, R221 to R225, R230, R231, R237, 07 R260): a layer digest that a copy has computed is compared in layer
order once both have arrived, a mismatch stops the run, and the last layer settles its outputs; the finished forecast becomes the set of its
epoch and one not written by the next tick raises its source once a tick; proposals serve the seeds that wait for them once, and come to
nothing after their frame; a run's and a row's end puts its result into the item, and the record comes with the last. Rests on choices of
the model, not on rules of the spec: log entries 52, 53, 54 and 131. -/
def Obligations.NetworksAndRows : Prop :=
  ∀ (t wid run net layer upset : Nat) (copyB : Bool) (v : View) (s : State), Live s →
    let u := atDt t s
    let x := applyView v u
    let y := dropLate u
    (netOf s wid net = none ∨ findRun s wid run net = none → exec (.layerDigestCompare t wid run net layer copyB upset) s = .next u) ∧
    (∀ d n, netOf s wid net = some d → findRun s wid run net = some n →
      let h := withHistory u n
      (n.mismatch ≠ none ∨ runFinal u n = true ∨ (copyB = true ∧ n.dual = false) →
        exec (.layerDigestCompare t wid run net layer copyB upset) s = .next u) ∧
      (n.mismatch = none → runFinal u n = false → copyB = false ∨ n.dual = true →
        (copyDigest d h layer upset = none → exec (.layerDigestCompare t wid run net layer copyB upset) s = .next (setRun h u)) ∧
        (∀ g, copyDigest d h layer upset = some g → exec (.layerDigestCompare t wid run net layer copyB upset) s =
          .next (compareLayers d d.layers.length
            (if copyB then { h with digB := insertKey layer g h.digB } else { h with digA := insertKey layer g h.digA }) u)))) ∧
    (∀ (d : NetDecl) (k : Nat) (n : NetRun),
      ((lookupO n.final n.digA = none ∨ (n.dual = true ∧ lookupO n.final n.digB = none)) → compareLayers d (k + 1) n s = setRun n s) ∧
      (∀ a b, lookupO n.final n.digA = some a → n.dual = true → lookupO n.final n.digB = some b → a ≠ b →
        let m := { n with mismatch := some n.final }
        let z := raise 82 0 (65536 * n.net + n.final) s
        (n.wid ≠ 0 → compareLayers d (k + 1) n s = setRun m z) ∧
        (n.wid = 0 → compareLayers d (k + 1) n s = netOutcome m (dropRun m z))) ∧
      (∀ a, lookupO n.final n.digA = some a → n.dual = false ∨ lookupO n.final n.digB = some a →
        let m := { n with final := n.final + 1 }
        let z := noteLayer n n.final a s
        (m.final = d.layers.length → compareLayers d (k + 1) n s = settleRun d m z) ∧
        (m.final ≠ d.layers.length → compareLayers d (k + 1) n s = compareLayers d k m z))) ∧
    (finishedRun u .forecast = none → exec (.forecastSetWrite t) s = .next u) ∧
    (∀ n d, finishedRun u .forecast = some (n, d) →
      ((∀ o ∈ s.world.fcastOwed, o.1 ≠ n.frame) → exec (.forecastSetWrite t) s = .next (dropRun n u)) ∧
      (∀ k tRef step cnt hard, s.world.fcastOwed.find? (fun o => o.1 == n.frame) = some (k, tRef, step, cnt, hard) →
        let o := d.outputs.headD { source := 0, fmt := 2, shape := [] }
        let fs := makeFSet { s.world.fl with ox := n.ox, oy := n.oy } hard tRef step
          (outputSlices o.fmt (min (o.shape.headD 1) cnt) (n.outs.headD []))
        let later : Bool := match s.world.sealWanted with | some q => decide (q ≤ tRef) | none => false
        ∃ w, exec (.forecastSetWrite t) s = .next w ∧ w.world.fcastOwed = s.world.fcastOwed.filter (fun o => o.1 != n.frame) ∧
          (later = false → w.world.fsetOpen = some fs ∧ w.world.fsetLater = s.world.fsetLater) ∧
          (later = true → w.world.fsetLater = some fs ∧ w.world.fsetOpen = s.world.fsetOpen) ∧
          (∀ m ∈ w.netRuns, m ∈ s.netRuns ∧ ¬ (m.wid = n.wid ∧ m.run = n.run ∧ m.net = n.net)) ∧
          w.world.fl = s.world.fl ∧ w.world.index = s.world.index ∧ w.work = s.work ∧ w.net = s.net ∧ w.fault = s.fault)) ∧
    ((∃ o ∈ s.world.fcastOwed, o.2.1 < s.frame.tickDt) → s.world.fcastLate ≠ s.frame.tickDt →
      exec (.networkOverrun t) s = .next (raise 98 0 0 { u with world := { u.world with fcastLate := u.frame.tickDt } })) ∧
    ((∀ o ∈ s.world.fcastOwed, s.frame.tickDt ≤ o.2.1) ∨ s.world.fcastLate = s.frame.tickDt → exec (.networkOverrun t) s = .next u) ∧
    (finishedRun y .proposal = none → exec (.proposalReady t) s = .next y) ∧
    (∀ f n d w r c, s.frame.cur = some f → finishedRun y .proposal = some (n, d) → frameWork u = some w → w.item = .frameRun r →
      classOf u r.optClass = some c →
      (f.proposalState ≠ 0 ∨ n.frame ≠ f.number → exec (.proposalReady t) s = .next y) ∧
      (f.proposalState = 0 → n.frame = f.number → ∃ z, exec (.proposalReady t) s = .next z ∧ z.opts.length = s.opts.length ∧
        (∃ g, z.frame.cur = some g ∧ g.proposalState = 1 ∧ g.number = f.number ∧ g.proposals = proposalsOf d c n) ∧
        (∀ i (_ : i < s.opts.length), (s.opts[i].wid ≠ w.wid ∨ s.opts[i].fromProposal = false ∨ s.opts[i].started = true ∨
          s.opts[i].stop.isSome = true ∨ deadlinePassed s.opts[i] u.dt = true) → z.opts[i]? = some s.opts[i]) ∧
        (∀ i (_ : i < s.opts.length), s.opts[i].wid = w.wid → s.opts[i].fromProposal = true → s.opts[i].started = false →
          s.opts[i].stop = none → deadlinePassed s.opts[i] u.dt = false →
          let st := proposalStart c r.meas.x0 (proposalsOf d c n)[proposalNo r s.opts[i].idx]?
          z.opts[i]? = some { s.opts[i] with start := st, cur := st }) ∧ z.work = s.work ∧ z.net = s.net)) ∧
    (findWork s wid = none → exec (.tensorRunEnd t wid run) s = .next u ∧ exec (.selectRowEnd t wid run v) s = .next x) ∧
    (∀ w tr d n dt0, findWork s wid = some w → w.item = .tensorRun tr → netOf s wid tr.net = some d → findRun s wid run tr.net = some n →
      lookupO run tr.running = some dt0 →
      let tr' := { tr with running := tr.running.filter (fun y => y.1 != run), results := insertKey run (runResOf d n dt0) tr.results,
                           lastFrame := s.frame.number }
      let u' := setItem wid (.tensorRun tr') (dropRun n u)
      (runFinal u n = false → n.mismatch = none → exec (.tensorRunEnd t wid run) s = .next u) ∧
      (runFinal u n = true ∨ n.mismatch ≠ none →
        (tr'.results.length ≠ tr.runCount → exec (.tensorRunEnd t wid run) s = .next u') ∧
        (tr'.results.length = tr.runCount → exec (.tensorRunEnd t wid run) s = .next (finishTensor w d tr' u')))) ∧
    (∀ (d : NetDecl) (n : NetRun) (dt0 : Nat), let q := runResOf d n dt0
      q.startDt = dt0 ∧ (n.mismatch = none → q.status = 0 ∧ q.mismatch = 0xFFFF ∧ q.sat = n.sat ∧ q.range = n.range) ∧
      (∀ m, n.mismatch = some m → q.status = 1 ∧ q.mismatch = m)) ∧
    (∀ w sl, findWork x wid = some w → w.item = .select sl → (∃ r ∈ sl.running, r.1 = run) →
      let ka := sl.keyAddr + run * sl.rowStride
      let kb := hostRead v x ka (sl.rowLen * (keyBits sl.keyType / 8))
      let ib := if sl.explicitIdx then hostRead v x (sl.idxAddr + 4 * (run * sl.rowLen)) (4 * sl.rowLen) else some []
      (kb = none → exec (.selectRowEnd t wid run v) s = .next (abortRead w ka x)) ∧
      (kb ≠ none → ib = none → exec (.selectRowEnd t wid run v) s = .next (abortRead w (sl.idxAddr + 4 * (run * sl.rowLen)) x)) ∧
      (∀ keys idx, kb = some keys → ib = some idx →
        let sl' := { sl with running := sl.running.filter (fun r => r.1 != run), results := insertKey run (selectRow sl keys idx) sl.results,
                             lastFrame := s.frame.number }
        let x' := setItem wid (.select sl') x
        (sl'.results.length ≠ sl.rowCount → exec (.selectRowEnd t wid run v) s = .next x') ∧
        (sl'.results.length = sl.rowCount → exec (.selectRowEnd t wid run v) s = .next (finishSelect w sl' x'))))

/-- O60. The planning frame (02 R39, R45, R49, R62, R63, 07 R250, R254, 10 R340, R341): a tick that is not due, or not yet announced to the
units below, does nothing on unit 0, one that is due starts frame number + 1; a downstream unit's tick is the announced one, and starts no
frame in SYNCING or when its pulse did not come in time; the batch boundary that is not due only lets late hazards take effect; the merge
runs once, after the last batch has retired, and fires the Net when a FRAME_RUN has no CLEAR candidate and ADVISORY is off; the frame
publishes once, when merged and certified, and a fault frame's lists without the lost cluster's. The batch interval (02 R50): the least
whole number of ns in which 512 queries a clock at `f` MHz do 1.4 times the work of `q` queries a slot; and the best `k` of a SELECT row (07
R243): at most `k` entries, sorted, none better left out. Rests on choices of the model, not on rules of the spec: log entries 31, 32, 34,
35, 36, 100, 101, 102 and 133. -/
def Obligations.PlanningFrame : Prop :=
  (∀ (t : Nat) (upset : Option Nat) (v : View) (s : State), Live s →
    let u := atDt t s
    let x := applyView v u
    let taken := { x with chain := { x.chain with announce := none } }
    (s.chain.head = true → tickDue t u = false ∨ announced t u = false → exec (.frameTick t v) s = .next x) ∧
    (s.chain.head = true → tickDue t u = true → announced t u = true →
      exec (.frameTick t v) s = .next (doTick v (!chainHold u) (nextNumber u) t taken)) ∧
    (∀ td n p, s.chain.head = false → s.chain.announce = some (td, n, p) → td ≠ t → exec (.frameTick t v) s = .next x) ∧
    (∀ n p, s.chain.head = false → s.chain.announce = some (t, n, p) →
      let used := { measurePulse t x with chain := { (measurePulse t x).chain with announce := none, pulse := none } }
      (s.pwr.service ≠ 2 → s.pwr.service ≠ 3 → exec (.frameTick t v) s = .next used) ∧
      ((s.pwr.service = 2 ∨ s.pwr.service = 3) →
        (s.chain.aligned = false → exec (.frameTick t v) s = .next (doTick v false n t used)) ∧
        (s.chain.aligned = true → pulseInTime s t = true → exec (.frameTick t v) s = .next (doTick v true n t used)) ∧
        (s.chain.aligned = true → pulseInTime s t = false → exec (.frameTick t v) s = .next (raise 152 0 0 (doTick v false n t used))))) ∧
    (s.chain.head = false → s.chain.announce = none →
      let lost := tickKnown u = true ∧ s.chain.addressed = true ∧ s.chain.aligned = true ∧ t = nextTick u
      (lost → exec (.frameTick t v) s = .next (raise 152 0 0 (doTick v false (s.frame.number + 1) t x))) ∧
      (¬ lost → exec (.frameTick t v) s = .next x)) ∧
    (∀ n, (∀ a, accordPassed u ≠ some a) → stackLost u = false → u.pwr.dormantWanted = false → chainHold u = false →
      u.safety.testRotation = false → fullSealRuns u = false → u.accord = none → tickStarts v n t u = noFrame n (governTick u)) ∧
    (s.frame.cur = none ∨ s.accord = none → exec (.batchSlotBoundary t upset v) s = .next x) ∧
    (∀ f a, s.frame.cur = some f → s.accord = some a →
      (boundaryDue x f = false → exec (.batchSlotBoundary t upset v) s = .next (applyLate x)) ∧
      (boundaryDue x f = true → exec (.batchSlotBoundary t upset v) s = .next (boundary a upset v f x))) ∧
    (s.frame.cur = none → exec (.jugglerMerge t) s = .next u ∧ exec (.publish t) s = .next u) ∧
    (∀ f, s.frame.cur = some f →
      let fault : Bool := !f.faultClusters.isEmpty
      (f.published = true ∨ f.retired = false ∨ f.mergeDone = true → exec (.jugglerMerge t) s = .next u) ∧
      (f.published = false → f.retired = true → f.mergeDone = false → f.fr = none → (∀ w ∈ s.work, ∀ a ∈ f.adm, a.wid ≠ w.wid) →
        exec (.jugglerMerge t) s = .next { u with frame := { u.frame with cur := some { f with merged := [], mergeDone := true } } }) ∧
      (∀ w r, f.published = false → f.retired = true → f.mergeDone = false → f.fr = some w.wid → admitted u f = [w] → w.item = .frameRun r →
        let m := jugglerMerge r.k (mergeInputs f w)
        let y := { u with frame := { u.frame with cur := some { f with merged := [(w.wid, m)], mergeDone := true } } }
        (f.clear = 0 → (netCfg s).advisory = false → exec (.jugglerMerge t) s = .next (fireNet 6 y)) ∧
        (f.clear ≠ 0 ∨ (netCfg s).advisory = true → exec (.jugglerMerge t) s = .next y)) ∧
      (readyToPublish u f = false → exec (.publish t) s = .next u) ∧
      (∀ a, s.accord = some a → readyToPublish u f = true → f.fr = none → (∀ w ∈ s.work, ∀ y ∈ f.adm, y.wid ≠ w.wid) →
        s.chain.enumPending = false → f.goldenEn = true → exec (.publish t) s =
          .next { u with frame := { u.frame with cur := some { f with
            merged := if fault then [] else f.merged, published := true, batches := [], lists := [] } } }) ∧
      (∀ a w r c, s.accord = some a → readyToPublish u f = true → runOf u f = some (w, r) → s.safety.suspect = false → classOf u r.optClass = some c →
        let f' := if fault then { f with merged := mergeAll u f } else f
        let y := publishRun a f' w r { u with frame := { u.frame with cur := some f' } }
        (∀ x ∈ y.work, x ∈ s.work ∧ x.wid ≠ w.wid) ∧ (∀ x ∈ y.opts, x ∈ s.opts ∧ x.wid ≠ w.wid) ∧ (f.goldenResult = 1 → y.warm = s.warm) ∧
        (admitted u f = [w] → s.chain.enumPending = false → f.goldenEn = true →
          exec (.publish t) s = .next { y with frame := { s.frame with cur := some { f' with published := true, batches := [], lists := [] } } })))) ∧
  ((∀ f q : Nat, 0 < f → 2000 * 1400 * q ≤ f * 512 * batchInterval f q ∧ ∀ x, 2000 * 1400 * q ≤ f * 512 * x → batchInterval f q ≤ x) ∧
  (∀ (k : Nat) (l : List PEntry),
    let r := (selectBest k l).entries
    r.length = min k l.length ∧ (∀ e ∈ r, e ∈ l) ∧ r.Pairwise (fun a b => rankEntry a b = true) ∧
    ∀ e ∈ l, e ∉ r → ∀ x ∈ r, rankEntry x e = true))
end

