-- ==== Sys2Proof/Laws/Memory.lean ====
section
/-! SUPPORT. Laws of the byte memory: what a read gives after a write, and that every operation keeps the canonical form. -/

namespace Sys2Proof.Machine

theorem memWfFrom_weaken {lo : Option Nat} {b : Nat} {r : List Host.Cell} (h : memWfFrom (some b) r = true)
    (hab : ∀ l, lo = some l → l ≤ b) : memWfFrom lo r = true := by
  cases r with
  | nil => rfl
  | cons c r =>
    simp only [memWfFrom, Bool.and_eq_true, decide_eq_true_eq] at h ⊢
    refine ⟨⟨?_, h.1.2⟩, h.2⟩
    cases lo with
    | none => rfl
    | some l => have := hab l rfl; simp; omega

/-- Every address of a canonical list lies above its bound. -/
theorem memRead_below {m : List Host.Cell} : ∀ {l x : Nat}, memWfFrom (some l) m = true → x ≤ l → memRead m x = 0 := by
  induction m with
  | nil => intros; rfl
  | cons c r ih =>
    intro l x h hx
    simp only [memWfFrom, Bool.and_eq_true, decide_eq_true_eq] at h
    have : c.1 ≠ x := by omega
    simp [memRead, this, ih h.2 (by omega : x ≤ c.1)]

theorem memSet_wfFrom (m : List Host.Cell) : ∀ (lo : Option Nat) (a : Nat) (b : Byte), memWfFrom lo m = true →
    (∀ l, lo = some l → l < a) → memWfFrom lo (memSet m a b) = true := by
  induction m with
  | nil =>
    intro lo a b _ hl
    unfold memSet
    split
    · rfl
    · cases lo <;> simp_all [memWfFrom]
  | cons c r ih =>
    intro lo a b h hl
    obtain ⟨a', b'⟩ := c
    simp only [memWfFrom, Bool.and_eq_true] at h
    unfold memSet
    split
    · simp only [memWfFrom, Bool.and_eq_true]
      exact ⟨h.1, ih _ _ _ h.2 (by rintro l ⟨⟩; assumption)⟩
    · split
      · subst_vars
        split
        · exact memWfFrom_weaken h.2 (fun l hh => Nat.le_of_lt (hl l hh))
        · simp only [memWfFrom, Bool.and_eq_true]; exact ⟨⟨h.1.1, by simp_all⟩, h.2⟩
      · split
        · simp only [memWfFrom, Bool.and_eq_true]; exact h
        · simp only [memWfFrom, Bool.and_eq_true]
          exact ⟨⟨by cases lo <;> simp_all, by simp_all⟩, ⟨by simp; omega, h.1.2⟩, h.2⟩

/-- Writing a byte keeps the canonical form. -/
theorem memSet_wf {m : List Host.Cell} (a : Nat) (b : Byte) (h : Memory.wf m = true) : Memory.wf (memSet m a b) = true :=
  memSet_wfFrom m none a b h nofun

/-- Writing a byte string keeps the canonical form. -/
theorem memWrites_wf (bs : Bytes) : ∀ {m : List Host.Cell} (a : Nat), Memory.wf m = true → Memory.wf (memWrites m a bs) = true := by
  induction bs with
  | nil => intro m a h; exact h
  | cons b bs ih => intro m a h; exact ih (a + 1) (memSet_wf a b h)

theorem memRead_memSet_from (m : List Host.Cell) : ∀ (lo : Option Nat) (a : Nat) (b : Byte) (x : Nat), memWfFrom lo m = true →
    memRead (memSet m a b) x = if x = a then b else memRead m x := by
  induction m with
  | nil =>
    intro lo a b x _
    unfold memSet
    split <;> simp only [memRead]
    · split <;> simp_all
    · split <;> split <;> first | rfl | omega
  | cons c r ih =>
    intro lo a b x h
    obtain ⟨a', b'⟩ := c
    simp only [memWfFrom, Bool.and_eq_true] at h
    unfold memSet
    split
    · simp only [memRead, ih _ _ _ _ h.2]; split <;> split <;> first | rfl | omega
    · split
      · subst_vars
        have hz := @memRead_below r a' x h.2
        by_cases hx : x = a'
        · subst hx
          split <;> simp_all [memRead]
        · have hx' : a' ≠ x := fun e => hx e.symm
          split <;> simp only [memRead, if_neg hx']
      · split <;> simp only [memRead] <;> repeat' split
        all_goals first | rfl | omega | skip
        all_goals subst_vars
        all_goals exact memRead_below (l := a') h.2 (by omega)

/-- A read after a write of one byte. -/
theorem memRead_memSet {m : List Host.Cell} (a : Nat) (b : Byte) (x : Nat) (h : Memory.wf m = true) :
    memRead (memSet m a b) x = if x = a then b else memRead m x := memRead_memSet_from m none a b x h

/-- A write of a byte string leaves every byte outside it alone. -/
theorem memRead_memWrites_of_not_mem (bs : Bytes) : ∀ {m : List Host.Cell} (a x : Nat), Memory.wf m = true →
    (x < a ∨ a + bs.length ≤ x) → memRead (memWrites m a bs) x = memRead m x := by
  induction bs with
  | nil => intros; rfl
  | cons b bs ih =>
    intro m a x h hx
    simp only [List.length_cons] at hx
    rw [memWrites, ih (a + 1) x (memSet_wf a b h) (by omega), memRead_memSet a b x h, if_neg (by omega)]

/-- A read of a byte of a written string gives it. -/
theorem memRead_memWrites_of_mem (bs : Bytes) : ∀ {m : List Host.Cell} (a : Nat) (i : Nat) (hi : i < bs.length), Memory.wf m = true →
    memRead (memWrites m a bs) (a + i) = bs[i] := by
  induction bs with
  | nil => intro m a i hi; simp at hi
  | cons b bs ih =>
    intro m a i hi h
    cases i with
    | zero => rw [memWrites, memRead_memWrites_of_not_mem bs _ _ (memSet_wf a b h) (by omega), memRead_memSet a b _ h]; simp
    | succ i =>
      have := ih (m := memSet m a b) (a + 1) i (by simpa using hi) (memSet_wf a b h)
      rw [memWrites, show a + (i + 1) = a + 1 + i by omega, this]; rfl

/-- Dropping entries keeps the canonical form. -/
theorem memWfFrom_filter (f : Host.Cell → Bool) (m : List Host.Cell) : ∀ lo, memWfFrom lo m = true → memWfFrom lo (m.filter f) = true := by
  induction m with
  | nil => intro lo h; exact h
  | cons c r ih =>
    intro lo h
    simp only [memWfFrom, Bool.and_eq_true] at h
    rw [List.filter_cons]
    split
    · simp only [memWfFrom, Bool.and_eq_true]; exact ⟨h.1, ih _ h.2⟩
    · refine memWfFrom_weaken (ih _ h.2) (fun l hl => ?_)
      subst hl
      have := h.1.1
      simp at this; omega
end Sys2Proof.Machine
end

