-- ==== Sys2Proof/Laws/State.lean ====
section
/-! SUPPORT. One lemma per field of the state per named update that leaves it, each true by definition. -/

namespace Sys2Proof.Machine

@[simp] theorem atDt_pending (t : Nat) (s : State) : (atDt t s).pending = s.pending := rfl
@[simp] theorem atDt_fresh (t : Nat) (s : State) : (atDt t s).fresh = s.fresh := rfl
@[simp] theorem atDt_nextWid (t : Nat) (s : State) : (atDt t s).nextWid = s.nextWid := rfl
@[simp] theorem atDt_grade (t : Nat) (s : State) : (atDt t s).grade = s.grade := rfl
@[simp] theorem atDt_hostMem (t : Nat) (s : State) : (atDt t s).hostMem = s.hostMem := rfl
@[simp] theorem atDt_pcie (t : Nat) (s : State) : (atDt t s).pcie = s.pcie := rfl
@[simp] theorem atDt_hostq (t : Nat) (s : State) : (atDt t s).hostq = s.hostq := rfl
@[simp] theorem atDt_work (t : Nat) (s : State) : (atDt t s).work = s.work := rfl
@[simp] theorem atDt_frame (t : Nat) (s : State) : (atDt t s).frame = s.frame := rfl
@[simp] theorem atDt_world (t : Nat) (s : State) : (atDt t s).world = s.world := rfl
@[simp] theorem atDt_body (t : Nat) (s : State) : (atDt t s).body = s.body := rfl
@[simp] theorem atDt_accord (t : Nat) (s : State) : (atDt t s).accord = s.accord := rfl
@[simp] theorem atDt_opts (t : Nat) (s : State) : (atDt t s).opts = s.opts := rfl
@[simp] theorem atDt_warm (t : Nat) (s : State) : (atDt t s).warm = s.warm := rfl
@[simp] theorem atDt_netRuns (t : Nat) (s : State) : (atDt t s).netRuns = s.netRuns := rfl
@[simp] theorem atDt_recurrentZero (t : Nat) (s : State) : (atDt t s).recurrentZero = s.recurrentZero := rfl
@[simp] theorem atDt_recurrent (t : Nat) (s : State) : (atDt t s).recurrent = s.recurrent := rfl
@[simp] theorem atDt_net (t : Nat) (s : State) : (atDt t s).net = s.net := rfl
@[simp] theorem atDt_fault (t : Nat) (s : State) : (atDt t s).fault = s.fault := rfl
@[simp] theorem atDt_units (t : Nat) (s : State) : (atDt t s).units = s.units := rfl
@[simp] theorem atDt_safety (t : Nat) (s : State) : (atDt t s).safety = s.safety := rfl
@[simp] theorem atDt_pwr (t : Nat) (s : State) : (atDt t s).pwr = avsDue (max s.dt t) s.pwr := by unfold atDt; rfl
@[simp] theorem avsDue_limit (t : Nat) (p : Pwr) : (avsDue t p).limit = p.limit := by unfold avsDue; rfl
@[simp] theorem avsDue_limitNext (t : Nat) (p : Pwr) : (avsDue t p).limitNext = p.limitNext := by unfold avsDue; rfl
@[simp] theorem avsDue_belowPlan (t : Nat) (p : Pwr) : (avsDue t p).belowPlan = p.belowPlan := by unfold avsDue; rfl
@[simp] theorem avsDue_overLimit (t : Nat) (p : Pwr) : (avsDue t p).overLimit = p.overLimit := by unfold avsDue; rfl
@[simp] theorem avsDue_limitErr (t : Nat) (p : Pwr) : (avsDue t p).limitErr = p.limitErr := by unfold avsDue; rfl
@[simp] theorem avsDue_refused (t : Nat) (p : Pwr) : (avsDue t p).refused = p.refused := by unfold avsDue; rfl
@[simp] theorem avsDue_service (t : Nat) (p : Pwr) : (avsDue t p).service = p.service := by unfold avsDue; rfl
@[simp] theorem avsDue_fFrame (t : Nat) (p : Pwr) : (avsDue t p).fFrame = p.fFrame := by unfold avsDue; rfl
@[simp] theorem avsDue_draw (t : Nat) (p : Pwr) : (avsDue t p).draw = p.draw := by unfold avsDue; rfl
@[simp] theorem avsDue_peak (t : Nat) (p : Pwr) : (avsDue t p).peak = p.peak := by unfold avsDue; rfl
@[simp] theorem avsDue_rails (t : Nat) (p : Pwr) : (avsDue t p).rails = p.rails := by unfold avsDue; rfl
@[simp] theorem avsDue_clock (t : Nat) (p : Pwr) : (avsDue t p).clock = p.clock := by unfold avsDue; rfl
@[simp] theorem avsDue_currents (t : Nat) (p : Pwr) : (avsDue t p).currents = p.currents := by unfold avsDue; rfl
@[simp] theorem avsDue_pwrOk (t : Nat) (p : Pwr) : (avsDue t p).pwrOk = p.pwrOk := by unfold avsDue; rfl
@[simp] theorem avsDue_heldReset (t : Nat) (p : Pwr) : (avsDue t p).heldReset = p.heldReset := by unfold avsDue; rfl
@[simp] theorem avsDue_supplyHeld (t : Nat) (p : Pwr) : (avsDue t p).supplyHeld = p.supplyHeld := by unfold avsDue; rfl
@[simp] theorem avsDue_dormantWanted (t : Nat) (p : Pwr) : (avsDue t p).dormantWanted = p.dormantWanted := by unfold avsDue; rfl
@[simp] theorem atDt_clk (t : Nat) (s : State) : (atDt t s).clk = s.clk := rfl
@[simp] theorem atDt_temp (t : Nat) (s : State) : (atDt t s).temp = s.temp := rfl
@[simp] theorem atDt_boot (t : Nat) (s : State) : (atDt t s).boot = s.boot := rfl
@[simp] theorem atDt_chain (t : Nat) (s : State) : (atDt t s).chain = s.chain := rfl
@[simp] theorem atDt_det (t : Nat) (s : State) : (atDt t s).det = s.det := rfl
@[simp] theorem atDt_ringm (t : Nat) (s : State) : (atDt t s).ringm = s.ringm := rfl
@[simp] theorem atDt_cores (t : Nat) (s : State) : (atDt t s).cores = s.cores := rfl
@[simp] theorem atDt_lo (t : Nat) (s : State) : (atDt t s).lo = s.lo := rfl
@[simp] theorem atDt_hi (t : Nat) (s : State) : (atDt t s).hi = s.hi := rfl

@[simp] theorem bumpFresh_pending (s : State) : (bumpFresh s).pending = s.pending := rfl
@[simp] theorem bumpFresh_dt (s : State) : (bumpFresh s).dt = s.dt := rfl
@[simp] theorem bumpFresh_nextWid (s : State) : (bumpFresh s).nextWid = s.nextWid := rfl
@[simp] theorem bumpFresh_grade (s : State) : (bumpFresh s).grade = s.grade := rfl
@[simp] theorem bumpFresh_hostMem (s : State) : (bumpFresh s).hostMem = s.hostMem := rfl
@[simp] theorem bumpFresh_pcie (s : State) : (bumpFresh s).pcie = s.pcie := rfl
@[simp] theorem bumpFresh_hostq (s : State) : (bumpFresh s).hostq = s.hostq := rfl
@[simp] theorem bumpFresh_work (s : State) : (bumpFresh s).work = s.work := rfl
@[simp] theorem bumpFresh_frame (s : State) : (bumpFresh s).frame = s.frame := rfl
@[simp] theorem bumpFresh_world (s : State) : (bumpFresh s).world = s.world := rfl
@[simp] theorem bumpFresh_body (s : State) : (bumpFresh s).body = s.body := rfl
@[simp] theorem bumpFresh_accord (s : State) : (bumpFresh s).accord = s.accord := rfl
@[simp] theorem bumpFresh_opts (s : State) : (bumpFresh s).opts = s.opts := rfl
@[simp] theorem bumpFresh_warm (s : State) : (bumpFresh s).warm = s.warm := rfl
@[simp] theorem bumpFresh_netRuns (s : State) : (bumpFresh s).netRuns = s.netRuns := rfl
@[simp] theorem bumpFresh_recurrentZero (s : State) : (bumpFresh s).recurrentZero = s.recurrentZero := rfl
@[simp] theorem bumpFresh_recurrent (s : State) : (bumpFresh s).recurrent = s.recurrent := rfl
@[simp] theorem bumpFresh_net (s : State) : (bumpFresh s).net = s.net := rfl
@[simp] theorem bumpFresh_fault (s : State) : (bumpFresh s).fault = s.fault := rfl
@[simp] theorem bumpFresh_units (s : State) : (bumpFresh s).units = s.units := rfl
@[simp] theorem bumpFresh_safety (s : State) : (bumpFresh s).safety = s.safety := rfl
@[simp] theorem bumpFresh_pwr (s : State) : (bumpFresh s).pwr = s.pwr := rfl
@[simp] theorem bumpFresh_clk (s : State) : (bumpFresh s).clk = s.clk := rfl
@[simp] theorem bumpFresh_temp (s : State) : (bumpFresh s).temp = s.temp := rfl
@[simp] theorem bumpFresh_boot (s : State) : (bumpFresh s).boot = s.boot := rfl
@[simp] theorem bumpFresh_chain (s : State) : (bumpFresh s).chain = s.chain := rfl
@[simp] theorem bumpFresh_det (s : State) : (bumpFresh s).det = s.det := rfl
@[simp] theorem bumpFresh_ringm (s : State) : (bumpFresh s).ringm = s.ringm := rfl
@[simp] theorem bumpFresh_cores (s : State) : (bumpFresh s).cores = s.cores := rfl
@[simp] theorem bumpFresh_lo (s : State) : (bumpFresh s).lo = s.lo := rfl
@[simp] theorem bumpFresh_hi (s : State) : (bumpFresh s).hi = s.hi := rfl

@[simp] theorem setCtx_pending (s : State) (c : Nat) (x : Ctx) : (setCtx s c x).pending = s.pending := rfl
@[simp] theorem setCtx_dt (s : State) (c : Nat) (x : Ctx) : (setCtx s c x).dt = s.dt := rfl
@[simp] theorem setCtx_fresh (s : State) (c : Nat) (x : Ctx) : (setCtx s c x).fresh = s.fresh := rfl
@[simp] theorem setCtx_nextWid (s : State) (c : Nat) (x : Ctx) : (setCtx s c x).nextWid = s.nextWid := rfl
@[simp] theorem setCtx_grade (s : State) (c : Nat) (x : Ctx) : (setCtx s c x).grade = s.grade := rfl
@[simp] theorem setCtx_hostMem (s : State) (c : Nat) (x : Ctx) : (setCtx s c x).hostMem = s.hostMem := rfl
@[simp] theorem setCtx_pcie (s : State) (c : Nat) (x : Ctx) : (setCtx s c x).pcie = s.pcie := rfl
@[simp] theorem setCtx_work (s : State) (c : Nat) (x : Ctx) : (setCtx s c x).work = s.work := rfl
@[simp] theorem setCtx_frame (s : State) (c : Nat) (x : Ctx) : (setCtx s c x).frame = s.frame := rfl
@[simp] theorem setCtx_world (s : State) (c : Nat) (x : Ctx) : (setCtx s c x).world = s.world := rfl
@[simp] theorem setCtx_body (s : State) (c : Nat) (x : Ctx) : (setCtx s c x).body = s.body := rfl
@[simp] theorem setCtx_accord (s : State) (c : Nat) (x : Ctx) : (setCtx s c x).accord = s.accord := rfl
@[simp] theorem setCtx_opts (s : State) (c : Nat) (x : Ctx) : (setCtx s c x).opts = s.opts := rfl
@[simp] theorem setCtx_warm (s : State) (c : Nat) (x : Ctx) : (setCtx s c x).warm = s.warm := rfl
@[simp] theorem setCtx_netRuns (s : State) (c : Nat) (x : Ctx) : (setCtx s c x).netRuns = s.netRuns := rfl
@[simp] theorem setCtx_recurrentZero (s : State) (c : Nat) (x : Ctx) : (setCtx s c x).recurrentZero = s.recurrentZero := rfl
@[simp] theorem setCtx_recurrent (s : State) (c : Nat) (x : Ctx) : (setCtx s c x).recurrent = s.recurrent := rfl
@[simp] theorem setCtx_net (s : State) (c : Nat) (x : Ctx) : (setCtx s c x).net = s.net := rfl
@[simp] theorem setCtx_fault (s : State) (c : Nat) (x : Ctx) : (setCtx s c x).fault = s.fault := rfl
@[simp] theorem setCtx_units (s : State) (c : Nat) (x : Ctx) : (setCtx s c x).units = s.units := rfl
@[simp] theorem setCtx_safety (s : State) (c : Nat) (x : Ctx) : (setCtx s c x).safety = s.safety := rfl
@[simp] theorem setCtx_pwr (s : State) (c : Nat) (x : Ctx) : (setCtx s c x).pwr = s.pwr := rfl
@[simp] theorem setCtx_clk (s : State) (c : Nat) (x : Ctx) : (setCtx s c x).clk = s.clk := rfl
@[simp] theorem setCtx_temp (s : State) (c : Nat) (x : Ctx) : (setCtx s c x).temp = s.temp := rfl
@[simp] theorem setCtx_boot (s : State) (c : Nat) (x : Ctx) : (setCtx s c x).boot = s.boot := rfl
@[simp] theorem setCtx_chain (s : State) (c : Nat) (x : Ctx) : (setCtx s c x).chain = s.chain := rfl
@[simp] theorem setCtx_det (s : State) (c : Nat) (x : Ctx) : (setCtx s c x).det = s.det := rfl
@[simp] theorem setCtx_ringm (s : State) (c : Nat) (x : Ctx) : (setCtx s c x).ringm = s.ringm := rfl
@[simp] theorem setCtx_cores (s : State) (c : Nat) (x : Ctx) : (setCtx s c x).cores = s.cores := rfl
@[simp] theorem setCtx_lo (s : State) (c : Nat) (x : Ctx) : (setCtx s c x).lo = s.lo := rfl
@[simp] theorem setCtx_hi (s : State) (c : Nat) (x : Ctx) : (setCtx s c x).hi = s.hi := rfl

@[simp] theorem addWork_pending (w : Work) (s : State) : (addWork w s).pending = s.pending := rfl
@[simp] theorem addWork_dt (w : Work) (s : State) : (addWork w s).dt = s.dt := rfl
@[simp] theorem addWork_fresh (w : Work) (s : State) : (addWork w s).fresh = s.fresh := rfl
@[simp] theorem addWork_grade (w : Work) (s : State) : (addWork w s).grade = s.grade := rfl
@[simp] theorem addWork_hostMem (w : Work) (s : State) : (addWork w s).hostMem = s.hostMem := rfl
@[simp] theorem addWork_pcie (w : Work) (s : State) : (addWork w s).pcie = s.pcie := rfl
@[simp] theorem addWork_hostq (w : Work) (s : State) : (addWork w s).hostq = s.hostq := rfl
@[simp] theorem addWork_frame (w : Work) (s : State) : (addWork w s).frame = s.frame := rfl
@[simp] theorem addWork_world (w : Work) (s : State) : (addWork w s).world = s.world := rfl
@[simp] theorem addWork_body (w : Work) (s : State) : (addWork w s).body = s.body := rfl
@[simp] theorem addWork_accord (w : Work) (s : State) : (addWork w s).accord = s.accord := rfl
@[simp] theorem addWork_opts (w : Work) (s : State) : (addWork w s).opts = s.opts := rfl
@[simp] theorem addWork_warm (w : Work) (s : State) : (addWork w s).warm = s.warm := rfl
@[simp] theorem addWork_netRuns (w : Work) (s : State) : (addWork w s).netRuns = s.netRuns := rfl
@[simp] theorem addWork_recurrentZero (w : Work) (s : State) : (addWork w s).recurrentZero = s.recurrentZero := rfl
@[simp] theorem addWork_recurrent (w : Work) (s : State) : (addWork w s).recurrent = s.recurrent := rfl
@[simp] theorem addWork_net (w : Work) (s : State) : (addWork w s).net = s.net := rfl
@[simp] theorem addWork_fault (w : Work) (s : State) : (addWork w s).fault = s.fault := rfl
@[simp] theorem addWork_units (w : Work) (s : State) : (addWork w s).units = s.units := rfl
@[simp] theorem addWork_safety (w : Work) (s : State) : (addWork w s).safety = s.safety := rfl
@[simp] theorem addWork_pwr (w : Work) (s : State) : (addWork w s).pwr = s.pwr := rfl
@[simp] theorem addWork_clk (w : Work) (s : State) : (addWork w s).clk = s.clk := rfl
@[simp] theorem addWork_temp (w : Work) (s : State) : (addWork w s).temp = s.temp := rfl
@[simp] theorem addWork_boot (w : Work) (s : State) : (addWork w s).boot = s.boot := rfl
@[simp] theorem addWork_chain (w : Work) (s : State) : (addWork w s).chain = s.chain := rfl
@[simp] theorem addWork_det (w : Work) (s : State) : (addWork w s).det = s.det := rfl
@[simp] theorem addWork_ringm (w : Work) (s : State) : (addWork w s).ringm = s.ringm := rfl
@[simp] theorem addWork_cores (w : Work) (s : State) : (addWork w s).cores = s.cores := rfl
@[simp] theorem addWork_lo (w : Work) (s : State) : (addWork w s).lo = s.lo := rfl
@[simp] theorem addWork_hi (w : Work) (s : State) : (addWork w s).hi = s.hi := rfl

@[simp] theorem dropWork_pending (i : Nat) (s : State) : (dropWork i s).pending = s.pending := rfl
@[simp] theorem dropWork_dt (i : Nat) (s : State) : (dropWork i s).dt = s.dt := rfl
@[simp] theorem dropWork_fresh (i : Nat) (s : State) : (dropWork i s).fresh = s.fresh := rfl
@[simp] theorem dropWork_nextWid (i : Nat) (s : State) : (dropWork i s).nextWid = s.nextWid := rfl
@[simp] theorem dropWork_grade (i : Nat) (s : State) : (dropWork i s).grade = s.grade := rfl
@[simp] theorem dropWork_hostMem (i : Nat) (s : State) : (dropWork i s).hostMem = s.hostMem := rfl
@[simp] theorem dropWork_pcie (i : Nat) (s : State) : (dropWork i s).pcie = s.pcie := rfl
@[simp] theorem dropWork_hostq (i : Nat) (s : State) : (dropWork i s).hostq = s.hostq := rfl
@[simp] theorem dropWork_frame (i : Nat) (s : State) : (dropWork i s).frame = s.frame := rfl
@[simp] theorem dropWork_world (i : Nat) (s : State) : (dropWork i s).world = s.world := rfl
@[simp] theorem dropWork_body (i : Nat) (s : State) : (dropWork i s).body = s.body := rfl
@[simp] theorem dropWork_accord (i : Nat) (s : State) : (dropWork i s).accord = s.accord := rfl
@[simp] theorem dropWork_opts (i : Nat) (s : State) : (dropWork i s).opts = s.opts := rfl
@[simp] theorem dropWork_warm (i : Nat) (s : State) : (dropWork i s).warm = s.warm := rfl
@[simp] theorem dropWork_netRuns (i : Nat) (s : State) : (dropWork i s).netRuns = s.netRuns := rfl
@[simp] theorem dropWork_recurrentZero (i : Nat) (s : State) : (dropWork i s).recurrentZero = s.recurrentZero := rfl
@[simp] theorem dropWork_recurrent (i : Nat) (s : State) : (dropWork i s).recurrent = s.recurrent := rfl
@[simp] theorem dropWork_net (i : Nat) (s : State) : (dropWork i s).net = s.net := rfl
@[simp] theorem dropWork_fault (i : Nat) (s : State) : (dropWork i s).fault = s.fault := rfl
@[simp] theorem dropWork_units (i : Nat) (s : State) : (dropWork i s).units = s.units := rfl
@[simp] theorem dropWork_safety (i : Nat) (s : State) : (dropWork i s).safety = s.safety := rfl
@[simp] theorem dropWork_pwr (i : Nat) (s : State) : (dropWork i s).pwr = s.pwr := rfl
@[simp] theorem dropWork_clk (i : Nat) (s : State) : (dropWork i s).clk = s.clk := rfl
@[simp] theorem dropWork_temp (i : Nat) (s : State) : (dropWork i s).temp = s.temp := rfl
@[simp] theorem dropWork_boot (i : Nat) (s : State) : (dropWork i s).boot = s.boot := rfl
@[simp] theorem dropWork_chain (i : Nat) (s : State) : (dropWork i s).chain = s.chain := rfl
@[simp] theorem dropWork_det (i : Nat) (s : State) : (dropWork i s).det = s.det := rfl
@[simp] theorem dropWork_ringm (i : Nat) (s : State) : (dropWork i s).ringm = s.ringm := rfl
@[simp] theorem dropWork_cores (i : Nat) (s : State) : (dropWork i s).cores = s.cores := rfl
@[simp] theorem dropWork_lo (i : Nat) (s : State) : (dropWork i s).lo = s.lo := rfl
@[simp] theorem dropWork_hi (i : Nat) (s : State) : (dropWork i s).hi = s.hi := rfl

@[simp] theorem setItem_pending (i : Nat) (it : WorkItem) (s : State) : (setItem i it s).pending = s.pending := rfl
@[simp] theorem setItem_dt (i : Nat) (it : WorkItem) (s : State) : (setItem i it s).dt = s.dt := rfl
@[simp] theorem setItem_fresh (i : Nat) (it : WorkItem) (s : State) : (setItem i it s).fresh = s.fresh := rfl
@[simp] theorem setItem_nextWid (i : Nat) (it : WorkItem) (s : State) : (setItem i it s).nextWid = s.nextWid := rfl
@[simp] theorem setItem_grade (i : Nat) (it : WorkItem) (s : State) : (setItem i it s).grade = s.grade := rfl
@[simp] theorem setItem_hostMem (i : Nat) (it : WorkItem) (s : State) : (setItem i it s).hostMem = s.hostMem := rfl
@[simp] theorem setItem_pcie (i : Nat) (it : WorkItem) (s : State) : (setItem i it s).pcie = s.pcie := rfl
@[simp] theorem setItem_hostq (i : Nat) (it : WorkItem) (s : State) : (setItem i it s).hostq = s.hostq := rfl
@[simp] theorem setItem_frame (i : Nat) (it : WorkItem) (s : State) : (setItem i it s).frame = s.frame := rfl
@[simp] theorem setItem_world (i : Nat) (it : WorkItem) (s : State) : (setItem i it s).world = s.world := rfl
@[simp] theorem setItem_body (i : Nat) (it : WorkItem) (s : State) : (setItem i it s).body = s.body := rfl
@[simp] theorem setItem_accord (i : Nat) (it : WorkItem) (s : State) : (setItem i it s).accord = s.accord := rfl
@[simp] theorem setItem_opts (i : Nat) (it : WorkItem) (s : State) : (setItem i it s).opts = s.opts := rfl
@[simp] theorem setItem_warm (i : Nat) (it : WorkItem) (s : State) : (setItem i it s).warm = s.warm := rfl
@[simp] theorem setItem_netRuns (i : Nat) (it : WorkItem) (s : State) : (setItem i it s).netRuns = s.netRuns := rfl
@[simp] theorem setItem_recurrentZero (i : Nat) (it : WorkItem) (s : State) : (setItem i it s).recurrentZero = s.recurrentZero := rfl
@[simp] theorem setItem_recurrent (i : Nat) (it : WorkItem) (s : State) : (setItem i it s).recurrent = s.recurrent := rfl
@[simp] theorem setItem_net (i : Nat) (it : WorkItem) (s : State) : (setItem i it s).net = s.net := rfl
@[simp] theorem setItem_fault (i : Nat) (it : WorkItem) (s : State) : (setItem i it s).fault = s.fault := rfl
@[simp] theorem setItem_units (i : Nat) (it : WorkItem) (s : State) : (setItem i it s).units = s.units := rfl
@[simp] theorem setItem_safety (i : Nat) (it : WorkItem) (s : State) : (setItem i it s).safety = s.safety := rfl
@[simp] theorem setItem_pwr (i : Nat) (it : WorkItem) (s : State) : (setItem i it s).pwr = s.pwr := rfl
@[simp] theorem setItem_clk (i : Nat) (it : WorkItem) (s : State) : (setItem i it s).clk = s.clk := rfl
@[simp] theorem setItem_temp (i : Nat) (it : WorkItem) (s : State) : (setItem i it s).temp = s.temp := rfl
@[simp] theorem setItem_boot (i : Nat) (it : WorkItem) (s : State) : (setItem i it s).boot = s.boot := rfl
@[simp] theorem setItem_chain (i : Nat) (it : WorkItem) (s : State) : (setItem i it s).chain = s.chain := rfl
@[simp] theorem setItem_det (i : Nat) (it : WorkItem) (s : State) : (setItem i it s).det = s.det := rfl
@[simp] theorem setItem_ringm (i : Nat) (it : WorkItem) (s : State) : (setItem i it s).ringm = s.ringm := rfl
@[simp] theorem setItem_cores (i : Nat) (it : WorkItem) (s : State) : (setItem i it s).cores = s.cores := rfl
@[simp] theorem setItem_lo (i : Nat) (it : WorkItem) (s : State) : (setItem i it s).lo = s.lo := rfl
@[simp] theorem setItem_hi (i : Nat) (it : WorkItem) (s : State) : (setItem i it s).hi = s.hi := rfl

@[simp] theorem setSrc_pending (i : Nat) (x : Src) (s : State) : (setSrc i x s).pending = s.pending := rfl
@[simp] theorem setSrc_dt (i : Nat) (x : Src) (s : State) : (setSrc i x s).dt = s.dt := rfl
@[simp] theorem setSrc_fresh (i : Nat) (x : Src) (s : State) : (setSrc i x s).fresh = s.fresh := rfl
@[simp] theorem setSrc_nextWid (i : Nat) (x : Src) (s : State) : (setSrc i x s).nextWid = s.nextWid := rfl
@[simp] theorem setSrc_grade (i : Nat) (x : Src) (s : State) : (setSrc i x s).grade = s.grade := rfl
@[simp] theorem setSrc_hostMem (i : Nat) (x : Src) (s : State) : (setSrc i x s).hostMem = s.hostMem := rfl
@[simp] theorem setSrc_pcie (i : Nat) (x : Src) (s : State) : (setSrc i x s).pcie = s.pcie := rfl
@[simp] theorem setSrc_hostq (i : Nat) (x : Src) (s : State) : (setSrc i x s).hostq = s.hostq := rfl
@[simp] theorem setSrc_work (i : Nat) (x : Src) (s : State) : (setSrc i x s).work = s.work := rfl
@[simp] theorem setSrc_frame (i : Nat) (x : Src) (s : State) : (setSrc i x s).frame = s.frame := rfl
@[simp] theorem setSrc_world (i : Nat) (x : Src) (s : State) : (setSrc i x s).world = s.world := rfl
@[simp] theorem setSrc_body (i : Nat) (x : Src) (s : State) : (setSrc i x s).body = s.body := rfl
@[simp] theorem setSrc_accord (i : Nat) (x : Src) (s : State) : (setSrc i x s).accord = s.accord := rfl
@[simp] theorem setSrc_opts (i : Nat) (x : Src) (s : State) : (setSrc i x s).opts = s.opts := rfl
@[simp] theorem setSrc_warm (i : Nat) (x : Src) (s : State) : (setSrc i x s).warm = s.warm := rfl
@[simp] theorem setSrc_netRuns (i : Nat) (x : Src) (s : State) : (setSrc i x s).netRuns = s.netRuns := rfl
@[simp] theorem setSrc_recurrentZero (i : Nat) (x : Src) (s : State) : (setSrc i x s).recurrentZero = s.recurrentZero := rfl
@[simp] theorem setSrc_recurrent (i : Nat) (x : Src) (s : State) : (setSrc i x s).recurrent = s.recurrent := rfl
@[simp] theorem setSrc_net (i : Nat) (x : Src) (s : State) : (setSrc i x s).net = s.net := rfl
@[simp] theorem setSrc_units (i : Nat) (x : Src) (s : State) : (setSrc i x s).units = s.units := rfl
@[simp] theorem setSrc_safety (i : Nat) (x : Src) (s : State) : (setSrc i x s).safety = s.safety := rfl
@[simp] theorem setSrc_pwr (i : Nat) (x : Src) (s : State) : (setSrc i x s).pwr = s.pwr := rfl
@[simp] theorem setSrc_clk (i : Nat) (x : Src) (s : State) : (setSrc i x s).clk = s.clk := rfl
@[simp] theorem setSrc_temp (i : Nat) (x : Src) (s : State) : (setSrc i x s).temp = s.temp := rfl
@[simp] theorem setSrc_boot (i : Nat) (x : Src) (s : State) : (setSrc i x s).boot = s.boot := rfl
@[simp] theorem setSrc_chain (i : Nat) (x : Src) (s : State) : (setSrc i x s).chain = s.chain := rfl
@[simp] theorem setSrc_det (i : Nat) (x : Src) (s : State) : (setSrc i x s).det = s.det := rfl
@[simp] theorem setSrc_ringm (i : Nat) (x : Src) (s : State) : (setSrc i x s).ringm = s.ringm := rfl
@[simp] theorem setSrc_cores (i : Nat) (x : Src) (s : State) : (setSrc i x s).cores = s.cores := rfl
@[simp] theorem setSrc_lo (i : Nat) (x : Src) (s : State) : (setSrc i x s).lo = s.lo := rfl
@[simp] theorem setSrc_hi (i : Nat) (x : Src) (s : State) : (setSrc i x s).hi = s.hi := rfl

@[simp] theorem setRail_pending (r : Nat) (x : Rail) (s : State) : (setRail r x s).pending = s.pending := rfl
@[simp] theorem setRail_dt (r : Nat) (x : Rail) (s : State) : (setRail r x s).dt = s.dt := rfl
@[simp] theorem setRail_fresh (r : Nat) (x : Rail) (s : State) : (setRail r x s).fresh = s.fresh := rfl
@[simp] theorem setRail_nextWid (r : Nat) (x : Rail) (s : State) : (setRail r x s).nextWid = s.nextWid := rfl
@[simp] theorem setRail_grade (r : Nat) (x : Rail) (s : State) : (setRail r x s).grade = s.grade := rfl
@[simp] theorem setRail_hostMem (r : Nat) (x : Rail) (s : State) : (setRail r x s).hostMem = s.hostMem := rfl
@[simp] theorem setRail_pcie (r : Nat) (x : Rail) (s : State) : (setRail r x s).pcie = s.pcie := rfl
@[simp] theorem setRail_hostq (r : Nat) (x : Rail) (s : State) : (setRail r x s).hostq = s.hostq := rfl
@[simp] theorem setRail_work (r : Nat) (x : Rail) (s : State) : (setRail r x s).work = s.work := rfl
@[simp] theorem setRail_frame (r : Nat) (x : Rail) (s : State) : (setRail r x s).frame = s.frame := rfl
@[simp] theorem setRail_world (r : Nat) (x : Rail) (s : State) : (setRail r x s).world = s.world := rfl
@[simp] theorem setRail_body (r : Nat) (x : Rail) (s : State) : (setRail r x s).body = s.body := rfl
@[simp] theorem setRail_accord (r : Nat) (x : Rail) (s : State) : (setRail r x s).accord = s.accord := rfl
@[simp] theorem setRail_opts (r : Nat) (x : Rail) (s : State) : (setRail r x s).opts = s.opts := rfl
@[simp] theorem setRail_warm (r : Nat) (x : Rail) (s : State) : (setRail r x s).warm = s.warm := rfl
@[simp] theorem setRail_netRuns (r : Nat) (x : Rail) (s : State) : (setRail r x s).netRuns = s.netRuns := rfl
@[simp] theorem setRail_recurrentZero (r : Nat) (x : Rail) (s : State) : (setRail r x s).recurrentZero = s.recurrentZero := rfl
@[simp] theorem setRail_recurrent (r : Nat) (x : Rail) (s : State) : (setRail r x s).recurrent = s.recurrent := rfl
@[simp] theorem setRail_net (r : Nat) (x : Rail) (s : State) : (setRail r x s).net = s.net := rfl
@[simp] theorem setRail_fault (r : Nat) (x : Rail) (s : State) : (setRail r x s).fault = s.fault := rfl
@[simp] theorem setRail_units (r : Nat) (x : Rail) (s : State) : (setRail r x s).units = s.units := rfl
@[simp] theorem setRail_safety (r : Nat) (x : Rail) (s : State) : (setRail r x s).safety = s.safety := rfl
@[simp] theorem setRail_clk (r : Nat) (x : Rail) (s : State) : (setRail r x s).clk = s.clk := rfl
@[simp] theorem setRail_temp (r : Nat) (x : Rail) (s : State) : (setRail r x s).temp = s.temp := rfl
@[simp] theorem setRail_boot (r : Nat) (x : Rail) (s : State) : (setRail r x s).boot = s.boot := rfl
@[simp] theorem setRail_chain (r : Nat) (x : Rail) (s : State) : (setRail r x s).chain = s.chain := rfl
@[simp] theorem setRail_det (r : Nat) (x : Rail) (s : State) : (setRail r x s).det = s.det := rfl
@[simp] theorem setRail_ringm (r : Nat) (x : Rail) (s : State) : (setRail r x s).ringm = s.ringm := rfl
@[simp] theorem setRail_cores (r : Nat) (x : Rail) (s : State) : (setRail r x s).cores = s.cores := rfl
@[simp] theorem setRail_lo (r : Nat) (x : Rail) (s : State) : (setRail r x s).lo = s.lo := rfl
@[simp] theorem setRail_hi (r : Nat) (x : Rail) (s : State) : (setRail r x s).hi = s.hi := rfl

@[simp] theorem setSpare_pending (q : Nat) (x : Spare) (s : State) : (setSpare q x s).pending = s.pending := rfl
@[simp] theorem setSpare_dt (q : Nat) (x : Spare) (s : State) : (setSpare q x s).dt = s.dt := rfl
@[simp] theorem setSpare_fresh (q : Nat) (x : Spare) (s : State) : (setSpare q x s).fresh = s.fresh := rfl
@[simp] theorem setSpare_nextWid (q : Nat) (x : Spare) (s : State) : (setSpare q x s).nextWid = s.nextWid := rfl
@[simp] theorem setSpare_grade (q : Nat) (x : Spare) (s : State) : (setSpare q x s).grade = s.grade := rfl
@[simp] theorem setSpare_hostMem (q : Nat) (x : Spare) (s : State) : (setSpare q x s).hostMem = s.hostMem := rfl
@[simp] theorem setSpare_pcie (q : Nat) (x : Spare) (s : State) : (setSpare q x s).pcie = s.pcie := rfl
@[simp] theorem setSpare_hostq (q : Nat) (x : Spare) (s : State) : (setSpare q x s).hostq = s.hostq := rfl
@[simp] theorem setSpare_work (q : Nat) (x : Spare) (s : State) : (setSpare q x s).work = s.work := rfl
@[simp] theorem setSpare_frame (q : Nat) (x : Spare) (s : State) : (setSpare q x s).frame = s.frame := rfl
@[simp] theorem setSpare_world (q : Nat) (x : Spare) (s : State) : (setSpare q x s).world = s.world := rfl
@[simp] theorem setSpare_body (q : Nat) (x : Spare) (s : State) : (setSpare q x s).body = s.body := rfl
@[simp] theorem setSpare_accord (q : Nat) (x : Spare) (s : State) : (setSpare q x s).accord = s.accord := rfl
@[simp] theorem setSpare_opts (q : Nat) (x : Spare) (s : State) : (setSpare q x s).opts = s.opts := rfl
@[simp] theorem setSpare_warm (q : Nat) (x : Spare) (s : State) : (setSpare q x s).warm = s.warm := rfl
@[simp] theorem setSpare_netRuns (q : Nat) (x : Spare) (s : State) : (setSpare q x s).netRuns = s.netRuns := rfl
@[simp] theorem setSpare_recurrentZero (q : Nat) (x : Spare) (s : State) : (setSpare q x s).recurrentZero = s.recurrentZero := rfl
@[simp] theorem setSpare_recurrent (q : Nat) (x : Spare) (s : State) : (setSpare q x s).recurrent = s.recurrent := rfl
@[simp] theorem setSpare_net (q : Nat) (x : Spare) (s : State) : (setSpare q x s).net = s.net := rfl
@[simp] theorem setSpare_fault (q : Nat) (x : Spare) (s : State) : (setSpare q x s).fault = s.fault := rfl
@[simp] theorem setSpare_safety (q : Nat) (x : Spare) (s : State) : (setSpare q x s).safety = s.safety := rfl
@[simp] theorem setSpare_pwr (q : Nat) (x : Spare) (s : State) : (setSpare q x s).pwr = s.pwr := rfl
@[simp] theorem setSpare_clk (q : Nat) (x : Spare) (s : State) : (setSpare q x s).clk = s.clk := rfl
@[simp] theorem setSpare_temp (q : Nat) (x : Spare) (s : State) : (setSpare q x s).temp = s.temp := rfl
@[simp] theorem setSpare_boot (q : Nat) (x : Spare) (s : State) : (setSpare q x s).boot = s.boot := rfl
@[simp] theorem setSpare_chain (q : Nat) (x : Spare) (s : State) : (setSpare q x s).chain = s.chain := rfl
@[simp] theorem setSpare_det (q : Nat) (x : Spare) (s : State) : (setSpare q x s).det = s.det := rfl
@[simp] theorem setSpare_ringm (q : Nat) (x : Spare) (s : State) : (setSpare q x s).ringm = s.ringm := rfl
@[simp] theorem setSpare_cores (q : Nat) (x : Spare) (s : State) : (setSpare q x s).cores = s.cores := rfl
@[simp] theorem setSpare_lo (q : Nat) (x : Spare) (s : State) : (setSpare q x s).lo = s.lo := rfl
@[simp] theorem setSpare_hi (q : Nat) (x : Spare) (s : State) : (setSpare q x s).hi = s.hi := rfl

@[simp] theorem setRefused_pending (b : Bool) (s : State) : (setRefused b s).pending = s.pending := rfl
@[simp] theorem setRefused_dt (b : Bool) (s : State) : (setRefused b s).dt = s.dt := rfl
@[simp] theorem setRefused_fresh (b : Bool) (s : State) : (setRefused b s).fresh = s.fresh := rfl
@[simp] theorem setRefused_nextWid (b : Bool) (s : State) : (setRefused b s).nextWid = s.nextWid := rfl
@[simp] theorem setRefused_grade (b : Bool) (s : State) : (setRefused b s).grade = s.grade := rfl
@[simp] theorem setRefused_hostMem (b : Bool) (s : State) : (setRefused b s).hostMem = s.hostMem := rfl
@[simp] theorem setRefused_pcie (b : Bool) (s : State) : (setRefused b s).pcie = s.pcie := rfl
@[simp] theorem setRefused_work (b : Bool) (s : State) : (setRefused b s).work = s.work := rfl
@[simp] theorem setRefused_frame (b : Bool) (s : State) : (setRefused b s).frame = s.frame := rfl
@[simp] theorem setRefused_world (b : Bool) (s : State) : (setRefused b s).world = s.world := rfl
@[simp] theorem setRefused_body (b : Bool) (s : State) : (setRefused b s).body = s.body := rfl
@[simp] theorem setRefused_accord (b : Bool) (s : State) : (setRefused b s).accord = s.accord := rfl
@[simp] theorem setRefused_opts (b : Bool) (s : State) : (setRefused b s).opts = s.opts := rfl
@[simp] theorem setRefused_warm (b : Bool) (s : State) : (setRefused b s).warm = s.warm := rfl
@[simp] theorem setRefused_netRuns (b : Bool) (s : State) : (setRefused b s).netRuns = s.netRuns := rfl
@[simp] theorem setRefused_recurrentZero (b : Bool) (s : State) : (setRefused b s).recurrentZero = s.recurrentZero := rfl
@[simp] theorem setRefused_recurrent (b : Bool) (s : State) : (setRefused b s).recurrent = s.recurrent := rfl
@[simp] theorem setRefused_net (b : Bool) (s : State) : (setRefused b s).net = s.net := rfl
@[simp] theorem setRefused_fault (b : Bool) (s : State) : (setRefused b s).fault = s.fault := rfl
@[simp] theorem setRefused_units (b : Bool) (s : State) : (setRefused b s).units = s.units := rfl
@[simp] theorem setRefused_safety (b : Bool) (s : State) : (setRefused b s).safety = s.safety := rfl
@[simp] theorem setRefused_pwr (b : Bool) (s : State) : (setRefused b s).pwr = s.pwr := rfl
@[simp] theorem setRefused_clk (b : Bool) (s : State) : (setRefused b s).clk = s.clk := rfl
@[simp] theorem setRefused_temp (b : Bool) (s : State) : (setRefused b s).temp = s.temp := rfl
@[simp] theorem setRefused_boot (b : Bool) (s : State) : (setRefused b s).boot = s.boot := rfl
@[simp] theorem setRefused_chain (b : Bool) (s : State) : (setRefused b s).chain = s.chain := rfl
@[simp] theorem setRefused_det (b : Bool) (s : State) : (setRefused b s).det = s.det := rfl
@[simp] theorem setRefused_ringm (b : Bool) (s : State) : (setRefused b s).ringm = s.ringm := rfl
@[simp] theorem setRefused_cores (b : Bool) (s : State) : (setRefused b s).cores = s.cores := rfl
@[simp] theorem setRefused_lo (b : Bool) (s : State) : (setRefused b s).lo = s.lo := rfl
@[simp] theorem setRefused_hi (b : Bool) (s : State) : (setRefused b s).hi = s.hi := rfl

@[simp] theorem assertSafeStop_pending (s : State) : (assertSafeStop s).pending = s.pending := rfl
@[simp] theorem assertSafeStop_dt (s : State) : (assertSafeStop s).dt = s.dt := rfl
@[simp] theorem assertSafeStop_fresh (s : State) : (assertSafeStop s).fresh = s.fresh := rfl
@[simp] theorem assertSafeStop_nextWid (s : State) : (assertSafeStop s).nextWid = s.nextWid := rfl
@[simp] theorem assertSafeStop_grade (s : State) : (assertSafeStop s).grade = s.grade := rfl
@[simp] theorem assertSafeStop_hostMem (s : State) : (assertSafeStop s).hostMem = s.hostMem := rfl
@[simp] theorem assertSafeStop_pcie (s : State) : (assertSafeStop s).pcie = s.pcie := rfl
@[simp] theorem assertSafeStop_hostq (s : State) : (assertSafeStop s).hostq = s.hostq := rfl
@[simp] theorem assertSafeStop_work (s : State) : (assertSafeStop s).work = s.work := rfl
@[simp] theorem assertSafeStop_frame (s : State) : (assertSafeStop s).frame = s.frame := rfl
@[simp] theorem assertSafeStop_world (s : State) : (assertSafeStop s).world = s.world := rfl
@[simp] theorem assertSafeStop_body (s : State) : (assertSafeStop s).body = s.body := rfl
@[simp] theorem assertSafeStop_accord (s : State) : (assertSafeStop s).accord = s.accord := rfl
@[simp] theorem assertSafeStop_opts (s : State) : (assertSafeStop s).opts = s.opts := rfl
@[simp] theorem assertSafeStop_warm (s : State) : (assertSafeStop s).warm = s.warm := rfl
@[simp] theorem assertSafeStop_netRuns (s : State) : (assertSafeStop s).netRuns = s.netRuns := rfl
@[simp] theorem assertSafeStop_recurrentZero (s : State) : (assertSafeStop s).recurrentZero = s.recurrentZero := rfl
@[simp] theorem assertSafeStop_recurrent (s : State) : (assertSafeStop s).recurrent = s.recurrent := rfl
@[simp] theorem assertSafeStop_fault (s : State) : (assertSafeStop s).fault = s.fault := rfl
@[simp] theorem assertSafeStop_units (s : State) : (assertSafeStop s).units = s.units := rfl
@[simp] theorem assertSafeStop_safety (s : State) : (assertSafeStop s).safety = s.safety := rfl
@[simp] theorem assertSafeStop_pwr (s : State) : (assertSafeStop s).pwr = s.pwr := rfl
@[simp] theorem assertSafeStop_clk (s : State) : (assertSafeStop s).clk = s.clk := rfl
@[simp] theorem assertSafeStop_temp (s : State) : (assertSafeStop s).temp = s.temp := rfl
@[simp] theorem assertSafeStop_boot (s : State) : (assertSafeStop s).boot = s.boot := rfl
@[simp] theorem assertSafeStop_chain (s : State) : (assertSafeStop s).chain = s.chain := rfl
@[simp] theorem assertSafeStop_det (s : State) : (assertSafeStop s).det = s.det := rfl
@[simp] theorem assertSafeStop_ringm (s : State) : (assertSafeStop s).ringm = s.ringm := rfl
@[simp] theorem assertSafeStop_cores (s : State) : (assertSafeStop s).cores = s.cores := rfl
@[simp] theorem assertSafeStop_lo (s : State) : (assertSafeStop s).lo = s.lo := rfl
@[simp] theorem assertSafeStop_hi (s : State) : (assertSafeStop s).hi = s.hi := rfl

@[simp] theorem setChan_pending (c : Nat) (x : Chan) (s : State) : (setChan c x s).pending = s.pending := rfl
@[simp] theorem setChan_dt (c : Nat) (x : Chan) (s : State) : (setChan c x s).dt = s.dt := rfl
@[simp] theorem setChan_fresh (c : Nat) (x : Chan) (s : State) : (setChan c x s).fresh = s.fresh := rfl
@[simp] theorem setChan_nextWid (c : Nat) (x : Chan) (s : State) : (setChan c x s).nextWid = s.nextWid := rfl
@[simp] theorem setChan_grade (c : Nat) (x : Chan) (s : State) : (setChan c x s).grade = s.grade := rfl
@[simp] theorem setChan_hostMem (c : Nat) (x : Chan) (s : State) : (setChan c x s).hostMem = s.hostMem := rfl
@[simp] theorem setChan_pcie (c : Nat) (x : Chan) (s : State) : (setChan c x s).pcie = s.pcie := rfl
@[simp] theorem setChan_hostq (c : Nat) (x : Chan) (s : State) : (setChan c x s).hostq = s.hostq := rfl
@[simp] theorem setChan_work (c : Nat) (x : Chan) (s : State) : (setChan c x s).work = s.work := rfl
@[simp] theorem setChan_frame (c : Nat) (x : Chan) (s : State) : (setChan c x s).frame = s.frame := rfl
@[simp] theorem setChan_world (c : Nat) (x : Chan) (s : State) : (setChan c x s).world = s.world := rfl
@[simp] theorem setChan_body (c : Nat) (x : Chan) (s : State) : (setChan c x s).body = s.body := rfl
@[simp] theorem setChan_accord (c : Nat) (x : Chan) (s : State) : (setChan c x s).accord = s.accord := rfl
@[simp] theorem setChan_opts (c : Nat) (x : Chan) (s : State) : (setChan c x s).opts = s.opts := rfl
@[simp] theorem setChan_warm (c : Nat) (x : Chan) (s : State) : (setChan c x s).warm = s.warm := rfl
@[simp] theorem setChan_netRuns (c : Nat) (x : Chan) (s : State) : (setChan c x s).netRuns = s.netRuns := rfl
@[simp] theorem setChan_recurrentZero (c : Nat) (x : Chan) (s : State) : (setChan c x s).recurrentZero = s.recurrentZero := rfl
@[simp] theorem setChan_recurrent (c : Nat) (x : Chan) (s : State) : (setChan c x s).recurrent = s.recurrent := rfl
@[simp] theorem setChan_fault (c : Nat) (x : Chan) (s : State) : (setChan c x s).fault = s.fault := rfl
@[simp] theorem setChan_units (c : Nat) (x : Chan) (s : State) : (setChan c x s).units = s.units := rfl
@[simp] theorem setChan_safety (c : Nat) (x : Chan) (s : State) : (setChan c x s).safety = s.safety := rfl
@[simp] theorem setChan_pwr (c : Nat) (x : Chan) (s : State) : (setChan c x s).pwr = s.pwr := rfl
@[simp] theorem setChan_clk (c : Nat) (x : Chan) (s : State) : (setChan c x s).clk = s.clk := rfl
@[simp] theorem setChan_temp (c : Nat) (x : Chan) (s : State) : (setChan c x s).temp = s.temp := rfl
@[simp] theorem setChan_boot (c : Nat) (x : Chan) (s : State) : (setChan c x s).boot = s.boot := rfl
@[simp] theorem setChan_chain (c : Nat) (x : Chan) (s : State) : (setChan c x s).chain = s.chain := rfl
@[simp] theorem setChan_det (c : Nat) (x : Chan) (s : State) : (setChan c x s).det = s.det := rfl
@[simp] theorem setChan_ringm (c : Nat) (x : Chan) (s : State) : (setChan c x s).ringm = s.ringm := rfl
@[simp] theorem setChan_cores (c : Nat) (x : Chan) (s : State) : (setChan c x s).cores = s.cores := rfl
@[simp] theorem setChan_lo (c : Nat) (x : Chan) (s : State) : (setChan c x s).lo = s.lo := rfl
@[simp] theorem setChan_hi (c : Nat) (x : Chan) (s : State) : (setChan c x s).hi = s.hi := rfl

@[simp] theorem atDt_dt (t : Nat) (s : State) : (atDt t s).dt = max s.dt t := rfl
@[simp] theorem bumpFresh_fresh (s : State) : (bumpFresh s).fresh = s.fresh + 1 := rfl
@[simp] theorem addWork_work (w : Work) (s : State) : (addWork w s).work = s.work ++ [w] := rfl
@[simp] theorem addWork_nextWid (w : Work) (s : State) : (addWork w s).nextWid = s.nextWid + 1 := rfl
@[simp] theorem assertSafeStop_padA (s : State) : (assertSafeStop s).net.padA = true := rfl
@[simp] theorem assertSafeStop_padB (s : State) : (assertSafeStop s).net.padB = true := rfl

/-- Sending pending messages changes the PCIe interface alone. -/
theorem flushMsix_eq (s : State) : flushMsix s = { s with pcie := (flushMsix s).pcie } := by
  unfold flushMsix; split <;> rfl

/-- What the host did changes its memory and the PCIe interface alone. -/
theorem applyView_eq (v : View) (s : State) : applyView v s = { s with hostMem := (applyView v s).hostMem, pcie := (applyView v s).pcie } := by
  unfold applyView
  dsimp only
  cases v.cfg with
  | none => rfl
  | some c =>
    cases h : cfgWf c
    · simp only [h, Bool.false_eq_true, if_false]
    · simp only [h, if_true]; rw [flushMsix_eq]

@[simp] theorem flushMsix_pending (s : State) : (flushMsix s).pending = s.pending := by have h := congrArg State.pending (flushMsix_eq s); exact h
@[simp] theorem flushMsix_fresh (s : State) : (flushMsix s).fresh = s.fresh := by have h := congrArg State.fresh (flushMsix_eq s); exact h
@[simp] theorem flushMsix_nextWid (s : State) : (flushMsix s).nextWid = s.nextWid := by have h := congrArg State.nextWid (flushMsix_eq s); exact h
@[simp] theorem flushMsix_grade (s : State) : (flushMsix s).grade = s.grade := by have h := congrArg State.grade (flushMsix_eq s); exact h
@[simp] theorem flushMsix_work (s : State) : (flushMsix s).work = s.work := by have h := congrArg State.work (flushMsix_eq s); exact h
@[simp] theorem flushMsix_frame (s : State) : (flushMsix s).frame = s.frame := by have h := congrArg State.frame (flushMsix_eq s); exact h
@[simp] theorem flushMsix_world (s : State) : (flushMsix s).world = s.world := by have h := congrArg State.world (flushMsix_eq s); exact h
@[simp] theorem flushMsix_body (s : State) : (flushMsix s).body = s.body := by have h := congrArg State.body (flushMsix_eq s); exact h
@[simp] theorem flushMsix_accord (s : State) : (flushMsix s).accord = s.accord := by have h := congrArg State.accord (flushMsix_eq s); exact h
@[simp] theorem flushMsix_opts (s : State) : (flushMsix s).opts = s.opts := by have h := congrArg State.opts (flushMsix_eq s); exact h
@[simp] theorem flushMsix_warm (s : State) : (flushMsix s).warm = s.warm := by have h := congrArg State.warm (flushMsix_eq s); exact h
@[simp] theorem flushMsix_netRuns (s : State) : (flushMsix s).netRuns = s.netRuns := by have h := congrArg State.netRuns (flushMsix_eq s); exact h
@[simp] theorem flushMsix_recurrentZero (s : State) : (flushMsix s).recurrentZero = s.recurrentZero := by have h := congrArg State.recurrentZero (flushMsix_eq s); exact h
@[simp] theorem flushMsix_recurrent (s : State) : (flushMsix s).recurrent = s.recurrent := by have h := congrArg State.recurrent (flushMsix_eq s); exact h
@[simp] theorem flushMsix_net (s : State) : (flushMsix s).net = s.net := by have h := congrArg State.net (flushMsix_eq s); exact h
@[simp] theorem flushMsix_fault (s : State) : (flushMsix s).fault = s.fault := by have h := congrArg State.fault (flushMsix_eq s); exact h
@[simp] theorem flushMsix_units (s : State) : (flushMsix s).units = s.units := by have h := congrArg State.units (flushMsix_eq s); exact h
@[simp] theorem flushMsix_safety (s : State) : (flushMsix s).safety = s.safety := by have h := congrArg State.safety (flushMsix_eq s); exact h
@[simp] theorem flushMsix_pwr (s : State) : (flushMsix s).pwr = s.pwr := by have h := congrArg State.pwr (flushMsix_eq s); exact h
@[simp] theorem flushMsix_clk (s : State) : (flushMsix s).clk = s.clk := by have h := congrArg State.clk (flushMsix_eq s); exact h
@[simp] theorem flushMsix_temp (s : State) : (flushMsix s).temp = s.temp := by have h := congrArg State.temp (flushMsix_eq s); exact h
@[simp] theorem flushMsix_boot (s : State) : (flushMsix s).boot = s.boot := by have h := congrArg State.boot (flushMsix_eq s); exact h
@[simp] theorem flushMsix_chain (s : State) : (flushMsix s).chain = s.chain := by have h := congrArg State.chain (flushMsix_eq s); exact h
@[simp] theorem flushMsix_det (s : State) : (flushMsix s).det = s.det := by have h := congrArg State.det (flushMsix_eq s); exact h
@[simp] theorem flushMsix_ringm (s : State) : (flushMsix s).ringm = s.ringm := by have h := congrArg State.ringm (flushMsix_eq s); exact h
@[simp] theorem flushMsix_cores (s : State) : (flushMsix s).cores = s.cores := by have h := congrArg State.cores (flushMsix_eq s); exact h
@[simp] theorem flushMsix_lo (s : State) : (flushMsix s).lo = s.lo := by have h := congrArg State.lo (flushMsix_eq s); exact h
@[simp] theorem flushMsix_hi (s : State) : (flushMsix s).hi = s.hi := by have h := congrArg State.hi (flushMsix_eq s); exact h
@[simp] theorem flushMsix_dt (s : State) : (flushMsix s).dt = s.dt := by have h := congrArg State.dt (flushMsix_eq s); exact h
@[simp] theorem flushMsix_hostq (s : State) : (flushMsix s).hostq = s.hostq := by have h := congrArg State.hostq (flushMsix_eq s); exact h
@[simp] theorem flushMsix_hostMem (s : State) : (flushMsix s).hostMem = s.hostMem := by have h := congrArg State.hostMem (flushMsix_eq s); exact h

@[simp] theorem applyView_pending (v : View) (s : State) : (applyView v s).pending = s.pending := by have h := congrArg State.pending (applyView_eq v s); exact h
@[simp] theorem applyView_fresh (v : View) (s : State) : (applyView v s).fresh = s.fresh := by have h := congrArg State.fresh (applyView_eq v s); exact h
@[simp] theorem applyView_nextWid (v : View) (s : State) : (applyView v s).nextWid = s.nextWid := by have h := congrArg State.nextWid (applyView_eq v s); exact h
@[simp] theorem applyView_grade (v : View) (s : State) : (applyView v s).grade = s.grade := by have h := congrArg State.grade (applyView_eq v s); exact h
@[simp] theorem applyView_work (v : View) (s : State) : (applyView v s).work = s.work := by have h := congrArg State.work (applyView_eq v s); exact h
@[simp] theorem applyView_frame (v : View) (s : State) : (applyView v s).frame = s.frame := by have h := congrArg State.frame (applyView_eq v s); exact h
@[simp] theorem applyView_world (v : View) (s : State) : (applyView v s).world = s.world := by have h := congrArg State.world (applyView_eq v s); exact h
@[simp] theorem applyView_body (v : View) (s : State) : (applyView v s).body = s.body := by have h := congrArg State.body (applyView_eq v s); exact h
@[simp] theorem applyView_accord (v : View) (s : State) : (applyView v s).accord = s.accord := by have h := congrArg State.accord (applyView_eq v s); exact h
@[simp] theorem applyView_opts (v : View) (s : State) : (applyView v s).opts = s.opts := by have h := congrArg State.opts (applyView_eq v s); exact h
@[simp] theorem applyView_warm (v : View) (s : State) : (applyView v s).warm = s.warm := by have h := congrArg State.warm (applyView_eq v s); exact h
@[simp] theorem applyView_netRuns (v : View) (s : State) : (applyView v s).netRuns = s.netRuns := by have h := congrArg State.netRuns (applyView_eq v s); exact h
@[simp] theorem applyView_recurrentZero (v : View) (s : State) : (applyView v s).recurrentZero = s.recurrentZero := by have h := congrArg State.recurrentZero (applyView_eq v s); exact h
@[simp] theorem applyView_recurrent (v : View) (s : State) : (applyView v s).recurrent = s.recurrent := by have h := congrArg State.recurrent (applyView_eq v s); exact h
@[simp] theorem applyView_net (v : View) (s : State) : (applyView v s).net = s.net := by have h := congrArg State.net (applyView_eq v s); exact h
@[simp] theorem applyView_fault (v : View) (s : State) : (applyView v s).fault = s.fault := by have h := congrArg State.fault (applyView_eq v s); exact h
@[simp] theorem applyView_units (v : View) (s : State) : (applyView v s).units = s.units := by have h := congrArg State.units (applyView_eq v s); exact h
@[simp] theorem applyView_safety (v : View) (s : State) : (applyView v s).safety = s.safety := by have h := congrArg State.safety (applyView_eq v s); exact h
@[simp] theorem applyView_pwr (v : View) (s : State) : (applyView v s).pwr = s.pwr := by have h := congrArg State.pwr (applyView_eq v s); exact h
@[simp] theorem applyView_clk (v : View) (s : State) : (applyView v s).clk = s.clk := by have h := congrArg State.clk (applyView_eq v s); exact h
@[simp] theorem applyView_temp (v : View) (s : State) : (applyView v s).temp = s.temp := by have h := congrArg State.temp (applyView_eq v s); exact h
@[simp] theorem applyView_boot (v : View) (s : State) : (applyView v s).boot = s.boot := by have h := congrArg State.boot (applyView_eq v s); exact h
@[simp] theorem applyView_chain (v : View) (s : State) : (applyView v s).chain = s.chain := by have h := congrArg State.chain (applyView_eq v s); exact h
@[simp] theorem applyView_det (v : View) (s : State) : (applyView v s).det = s.det := by have h := congrArg State.det (applyView_eq v s); exact h
@[simp] theorem applyView_ringm (v : View) (s : State) : (applyView v s).ringm = s.ringm := by have h := congrArg State.ringm (applyView_eq v s); exact h
@[simp] theorem applyView_cores (v : View) (s : State) : (applyView v s).cores = s.cores := by have h := congrArg State.cores (applyView_eq v s); exact h
@[simp] theorem applyView_lo (v : View) (s : State) : (applyView v s).lo = s.lo := by have h := congrArg State.lo (applyView_eq v s); exact h
@[simp] theorem applyView_hi (v : View) (s : State) : (applyView v s).hi = s.hi := by have h := congrArg State.hi (applyView_eq v s); exact h
@[simp] theorem applyView_dt (v : View) (s : State) : (applyView v s).dt = s.dt := by have h := congrArg State.dt (applyView_eq v s); exact h
@[simp] theorem applyView_hostq (v : View) (s : State) : (applyView v s).hostq = s.hostq := by have h := congrArg State.hostq (applyView_eq v s); exact h

@[simp] theorem accepted_pending (d : Taken) (v : View) (s : State) : (accepted d v s).pending = s.pending := by simp [accepted]
@[simp] theorem accepted_fresh (d : Taken) (v : View) (s : State) : (accepted d v s).fresh = s.fresh := by simp [accepted]
@[simp] theorem accepted_nextWid (d : Taken) (v : View) (s : State) : (accepted d v s).nextWid = s.nextWid := by simp [accepted]
@[simp] theorem accepted_grade (d : Taken) (v : View) (s : State) : (accepted d v s).grade = s.grade := by simp [accepted]
@[simp] theorem accepted_work (d : Taken) (v : View) (s : State) : (accepted d v s).work = s.work := by simp [accepted]
@[simp] theorem accepted_frame (d : Taken) (v : View) (s : State) : (accepted d v s).frame = s.frame := by simp [accepted]
@[simp] theorem accepted_world (d : Taken) (v : View) (s : State) : (accepted d v s).world = s.world := by simp [accepted]
@[simp] theorem accepted_body (d : Taken) (v : View) (s : State) : (accepted d v s).body = s.body := by simp [accepted]
@[simp] theorem accepted_accord (d : Taken) (v : View) (s : State) : (accepted d v s).accord = s.accord := by simp [accepted]
@[simp] theorem accepted_opts (d : Taken) (v : View) (s : State) : (accepted d v s).opts = s.opts := by simp [accepted]
@[simp] theorem accepted_warm (d : Taken) (v : View) (s : State) : (accepted d v s).warm = s.warm := by simp [accepted]
@[simp] theorem accepted_netRuns (d : Taken) (v : View) (s : State) : (accepted d v s).netRuns = s.netRuns := by simp [accepted]
@[simp] theorem accepted_recurrentZero (d : Taken) (v : View) (s : State) : (accepted d v s).recurrentZero = s.recurrentZero := by simp [accepted]
@[simp] theorem accepted_recurrent (d : Taken) (v : View) (s : State) : (accepted d v s).recurrent = s.recurrent := by simp [accepted]
@[simp] theorem accepted_net (d : Taken) (v : View) (s : State) : (accepted d v s).net = s.net := by simp [accepted]
@[simp] theorem accepted_fault (d : Taken) (v : View) (s : State) : (accepted d v s).fault = s.fault := by simp [accepted]
@[simp] theorem accepted_units (d : Taken) (v : View) (s : State) : (accepted d v s).units = s.units := by simp [accepted]
@[simp] theorem accepted_safety (d : Taken) (v : View) (s : State) : (accepted d v s).safety = s.safety := by simp [accepted]
@[simp] theorem accepted_pwr (d : Taken) (v : View) (s : State) : (accepted d v s).pwr = avsDue (max s.dt d.dt) s.pwr := by simp [accepted]
@[simp] theorem accepted_clk (d : Taken) (v : View) (s : State) : (accepted d v s).clk = s.clk := by simp [accepted]
@[simp] theorem accepted_temp (d : Taken) (v : View) (s : State) : (accepted d v s).temp = s.temp := by simp [accepted]
@[simp] theorem accepted_boot (d : Taken) (v : View) (s : State) : (accepted d v s).boot = s.boot := by simp [accepted]
@[simp] theorem accepted_chain (d : Taken) (v : View) (s : State) : (accepted d v s).chain = s.chain := by simp [accepted]
@[simp] theorem accepted_det (d : Taken) (v : View) (s : State) : (accepted d v s).det = s.det := by simp [accepted]
@[simp] theorem accepted_ringm (d : Taken) (v : View) (s : State) : (accepted d v s).ringm = s.ringm := by simp [accepted]
@[simp] theorem accepted_cores (d : Taken) (v : View) (s : State) : (accepted d v s).cores = s.cores := by simp [accepted]
@[simp] theorem accepted_lo (d : Taken) (v : View) (s : State) : (accepted d v s).lo = s.lo := by simp [accepted]
@[simp] theorem accepted_hi (d : Taken) (v : View) (s : State) : (accepted d v s).hi = s.hi := by simp [accepted]
@[simp] theorem accepted_dt (d : Taken) (v : View) (s : State) : (accepted d v s).dt = max s.dt d.dt := by simp [accepted]

@[simp] theorem setPort_pending (p : Nat) (x : Port) (s : State) : (setPort p x s).pending = s.pending := rfl
@[simp] theorem setPort_dt (p : Nat) (x : Port) (s : State) : (setPort p x s).dt = s.dt := rfl
@[simp] theorem setPort_fresh (p : Nat) (x : Port) (s : State) : (setPort p x s).fresh = s.fresh := rfl
@[simp] theorem setPort_nextWid (p : Nat) (x : Port) (s : State) : (setPort p x s).nextWid = s.nextWid := rfl
@[simp] theorem setPort_grade (p : Nat) (x : Port) (s : State) : (setPort p x s).grade = s.grade := rfl
@[simp] theorem setPort_hostMem (p : Nat) (x : Port) (s : State) : (setPort p x s).hostMem = s.hostMem := rfl
@[simp] theorem setPort_pcie (p : Nat) (x : Port) (s : State) : (setPort p x s).pcie = s.pcie := rfl
@[simp] theorem setPort_hostq (p : Nat) (x : Port) (s : State) : (setPort p x s).hostq = s.hostq := rfl
@[simp] theorem setPort_work (p : Nat) (x : Port) (s : State) : (setPort p x s).work = s.work := rfl
@[simp] theorem setPort_frame (p : Nat) (x : Port) (s : State) : (setPort p x s).frame = s.frame := rfl
@[simp] theorem setPort_world (p : Nat) (x : Port) (s : State) : (setPort p x s).world = s.world := rfl
@[simp] theorem setPort_body (p : Nat) (x : Port) (s : State) : (setPort p x s).body = s.body := rfl
@[simp] theorem setPort_accord (p : Nat) (x : Port) (s : State) : (setPort p x s).accord = s.accord := rfl
@[simp] theorem setPort_opts (p : Nat) (x : Port) (s : State) : (setPort p x s).opts = s.opts := rfl
@[simp] theorem setPort_warm (p : Nat) (x : Port) (s : State) : (setPort p x s).warm = s.warm := rfl
@[simp] theorem setPort_netRuns (p : Nat) (x : Port) (s : State) : (setPort p x s).netRuns = s.netRuns := rfl
@[simp] theorem setPort_recurrentZero (p : Nat) (x : Port) (s : State) : (setPort p x s).recurrentZero = s.recurrentZero := rfl
@[simp] theorem setPort_recurrent (p : Nat) (x : Port) (s : State) : (setPort p x s).recurrent = s.recurrent := rfl
@[simp] theorem setPort_net (p : Nat) (x : Port) (s : State) : (setPort p x s).net = s.net := rfl
@[simp] theorem setPort_fault (p : Nat) (x : Port) (s : State) : (setPort p x s).fault = s.fault := rfl
@[simp] theorem setPort_units (p : Nat) (x : Port) (s : State) : (setPort p x s).units = s.units := rfl
@[simp] theorem setPort_safety (p : Nat) (x : Port) (s : State) : (setPort p x s).safety = s.safety := rfl
@[simp] theorem setPort_pwr (p : Nat) (x : Port) (s : State) : (setPort p x s).pwr = s.pwr := rfl
@[simp] theorem setPort_clk (p : Nat) (x : Port) (s : State) : (setPort p x s).clk = s.clk := rfl
@[simp] theorem setPort_temp (p : Nat) (x : Port) (s : State) : (setPort p x s).temp = s.temp := rfl
@[simp] theorem setPort_boot (p : Nat) (x : Port) (s : State) : (setPort p x s).boot = s.boot := rfl
@[simp] theorem setPort_det (p : Nat) (x : Port) (s : State) : (setPort p x s).det = s.det := rfl
@[simp] theorem setPort_ringm (p : Nat) (x : Port) (s : State) : (setPort p x s).ringm = s.ringm := rfl
@[simp] theorem setPort_cores (p : Nat) (x : Port) (s : State) : (setPort p x s).cores = s.cores := rfl
@[simp] theorem setPort_lo (p : Nat) (x : Port) (s : State) : (setPort p x s).lo = s.lo := rfl
@[simp] theorem setPort_hi (p : Nat) (x : Port) (s : State) : (setPort p x s).hi = s.hi := rfl

@[simp] theorem setCore_pending (c : CoreId) (x : CoreSt) (s : State) : (setCore c x s).pending = s.pending := rfl
@[simp] theorem setCore_dt (c : CoreId) (x : CoreSt) (s : State) : (setCore c x s).dt = s.dt := rfl
@[simp] theorem setCore_fresh (c : CoreId) (x : CoreSt) (s : State) : (setCore c x s).fresh = s.fresh := rfl
@[simp] theorem setCore_nextWid (c : CoreId) (x : CoreSt) (s : State) : (setCore c x s).nextWid = s.nextWid := rfl
@[simp] theorem setCore_grade (c : CoreId) (x : CoreSt) (s : State) : (setCore c x s).grade = s.grade := rfl
@[simp] theorem setCore_hostMem (c : CoreId) (x : CoreSt) (s : State) : (setCore c x s).hostMem = s.hostMem := rfl
@[simp] theorem setCore_pcie (c : CoreId) (x : CoreSt) (s : State) : (setCore c x s).pcie = s.pcie := rfl
@[simp] theorem setCore_hostq (c : CoreId) (x : CoreSt) (s : State) : (setCore c x s).hostq = s.hostq := rfl
@[simp] theorem setCore_work (c : CoreId) (x : CoreSt) (s : State) : (setCore c x s).work = s.work := rfl
@[simp] theorem setCore_frame (c : CoreId) (x : CoreSt) (s : State) : (setCore c x s).frame = s.frame := rfl
@[simp] theorem setCore_world (c : CoreId) (x : CoreSt) (s : State) : (setCore c x s).world = s.world := rfl
@[simp] theorem setCore_body (c : CoreId) (x : CoreSt) (s : State) : (setCore c x s).body = s.body := rfl
@[simp] theorem setCore_accord (c : CoreId) (x : CoreSt) (s : State) : (setCore c x s).accord = s.accord := rfl
@[simp] theorem setCore_opts (c : CoreId) (x : CoreSt) (s : State) : (setCore c x s).opts = s.opts := rfl
@[simp] theorem setCore_warm (c : CoreId) (x : CoreSt) (s : State) : (setCore c x s).warm = s.warm := rfl
@[simp] theorem setCore_netRuns (c : CoreId) (x : CoreSt) (s : State) : (setCore c x s).netRuns = s.netRuns := rfl
@[simp] theorem setCore_recurrentZero (c : CoreId) (x : CoreSt) (s : State) : (setCore c x s).recurrentZero = s.recurrentZero := rfl
@[simp] theorem setCore_recurrent (c : CoreId) (x : CoreSt) (s : State) : (setCore c x s).recurrent = s.recurrent := rfl
@[simp] theorem setCore_net (c : CoreId) (x : CoreSt) (s : State) : (setCore c x s).net = s.net := rfl
@[simp] theorem setCore_fault (c : CoreId) (x : CoreSt) (s : State) : (setCore c x s).fault = s.fault := rfl
@[simp] theorem setCore_units (c : CoreId) (x : CoreSt) (s : State) : (setCore c x s).units = s.units := rfl
@[simp] theorem setCore_safety (c : CoreId) (x : CoreSt) (s : State) : (setCore c x s).safety = s.safety := rfl
@[simp] theorem setCore_pwr (c : CoreId) (x : CoreSt) (s : State) : (setCore c x s).pwr = s.pwr := rfl
@[simp] theorem setCore_clk (c : CoreId) (x : CoreSt) (s : State) : (setCore c x s).clk = s.clk := rfl
@[simp] theorem setCore_temp (c : CoreId) (x : CoreSt) (s : State) : (setCore c x s).temp = s.temp := rfl
@[simp] theorem setCore_boot (c : CoreId) (x : CoreSt) (s : State) : (setCore c x s).boot = s.boot := rfl
@[simp] theorem setCore_chain (c : CoreId) (x : CoreSt) (s : State) : (setCore c x s).chain = s.chain := rfl
@[simp] theorem setCore_det (c : CoreId) (x : CoreSt) (s : State) : (setCore c x s).det = s.det := rfl
@[simp] theorem setCore_ringm (c : CoreId) (x : CoreSt) (s : State) : (setCore c x s).ringm = s.ringm := rfl
@[simp] theorem setCore_lo (c : CoreId) (x : CoreSt) (s : State) : (setCore c x s).lo = s.lo := rfl
@[simp] theorem setCore_hi (c : CoreId) (x : CoreSt) (s : State) : (setCore c x s).hi = s.hi := rfl

@[simp] theorem advance_pending (c : CoreId) (s : State) : (advance c s).pending = s.pending := rfl
@[simp] theorem advance_dt (c : CoreId) (s : State) : (advance c s).dt = s.dt := rfl
@[simp] theorem advance_fresh (c : CoreId) (s : State) : (advance c s).fresh = s.fresh := rfl
@[simp] theorem advance_nextWid (c : CoreId) (s : State) : (advance c s).nextWid = s.nextWid := rfl
@[simp] theorem advance_grade (c : CoreId) (s : State) : (advance c s).grade = s.grade := rfl
@[simp] theorem advance_hostMem (c : CoreId) (s : State) : (advance c s).hostMem = s.hostMem := rfl
@[simp] theorem advance_pcie (c : CoreId) (s : State) : (advance c s).pcie = s.pcie := rfl
@[simp] theorem advance_hostq (c : CoreId) (s : State) : (advance c s).hostq = s.hostq := rfl
@[simp] theorem advance_work (c : CoreId) (s : State) : (advance c s).work = s.work := rfl
@[simp] theorem advance_frame (c : CoreId) (s : State) : (advance c s).frame = s.frame := rfl
@[simp] theorem advance_world (c : CoreId) (s : State) : (advance c s).world = s.world := rfl
@[simp] theorem advance_body (c : CoreId) (s : State) : (advance c s).body = s.body := rfl
@[simp] theorem advance_accord (c : CoreId) (s : State) : (advance c s).accord = s.accord := rfl
@[simp] theorem advance_opts (c : CoreId) (s : State) : (advance c s).opts = s.opts := rfl
@[simp] theorem advance_warm (c : CoreId) (s : State) : (advance c s).warm = s.warm := rfl
@[simp] theorem advance_netRuns (c : CoreId) (s : State) : (advance c s).netRuns = s.netRuns := rfl
@[simp] theorem advance_recurrentZero (c : CoreId) (s : State) : (advance c s).recurrentZero = s.recurrentZero := rfl
@[simp] theorem advance_recurrent (c : CoreId) (s : State) : (advance c s).recurrent = s.recurrent := rfl
@[simp] theorem advance_net (c : CoreId) (s : State) : (advance c s).net = s.net := rfl
@[simp] theorem advance_fault (c : CoreId) (s : State) : (advance c s).fault = s.fault := rfl
@[simp] theorem advance_units (c : CoreId) (s : State) : (advance c s).units = s.units := rfl
@[simp] theorem advance_safety (c : CoreId) (s : State) : (advance c s).safety = s.safety := rfl
@[simp] theorem advance_pwr (c : CoreId) (s : State) : (advance c s).pwr = s.pwr := rfl
@[simp] theorem advance_clk (c : CoreId) (s : State) : (advance c s).clk = s.clk := rfl
@[simp] theorem advance_temp (c : CoreId) (s : State) : (advance c s).temp = s.temp := rfl
@[simp] theorem advance_boot (c : CoreId) (s : State) : (advance c s).boot = s.boot := rfl
@[simp] theorem advance_chain (c : CoreId) (s : State) : (advance c s).chain = s.chain := rfl
@[simp] theorem advance_det (c : CoreId) (s : State) : (advance c s).det = s.det := rfl
@[simp] theorem advance_ringm (c : CoreId) (s : State) : (advance c s).ringm = s.ringm := rfl
@[simp] theorem advance_lo (c : CoreId) (s : State) : (advance c s).lo = s.lo := rfl
@[simp] theorem advance_hi (c : CoreId) (s : State) : (advance c s).hi = s.hi := rfl

@[simp] theorem keyWrite_pending (k : Nat) (b : Bytes) (s : State) : (keyWrite s k b).pending = s.pending := rfl
@[simp] theorem keyWrite_dt (k : Nat) (b : Bytes) (s : State) : (keyWrite s k b).dt = s.dt := rfl
@[simp] theorem keyWrite_fresh (k : Nat) (b : Bytes) (s : State) : (keyWrite s k b).fresh = s.fresh := rfl
@[simp] theorem keyWrite_nextWid (k : Nat) (b : Bytes) (s : State) : (keyWrite s k b).nextWid = s.nextWid := rfl
@[simp] theorem keyWrite_grade (k : Nat) (b : Bytes) (s : State) : (keyWrite s k b).grade = s.grade := rfl
@[simp] theorem keyWrite_hostMem (k : Nat) (b : Bytes) (s : State) : (keyWrite s k b).hostMem = s.hostMem := rfl
@[simp] theorem keyWrite_pcie (k : Nat) (b : Bytes) (s : State) : (keyWrite s k b).pcie = s.pcie := rfl
@[simp] theorem keyWrite_hostq (k : Nat) (b : Bytes) (s : State) : (keyWrite s k b).hostq = s.hostq := rfl
@[simp] theorem keyWrite_work (k : Nat) (b : Bytes) (s : State) : (keyWrite s k b).work = s.work := rfl
@[simp] theorem keyWrite_frame (k : Nat) (b : Bytes) (s : State) : (keyWrite s k b).frame = s.frame := rfl
@[simp] theorem keyWrite_world (k : Nat) (b : Bytes) (s : State) : (keyWrite s k b).world = s.world := rfl
@[simp] theorem keyWrite_body (k : Nat) (b : Bytes) (s : State) : (keyWrite s k b).body = s.body := rfl
@[simp] theorem keyWrite_accord (k : Nat) (b : Bytes) (s : State) : (keyWrite s k b).accord = s.accord := rfl
@[simp] theorem keyWrite_opts (k : Nat) (b : Bytes) (s : State) : (keyWrite s k b).opts = s.opts := rfl
@[simp] theorem keyWrite_warm (k : Nat) (b : Bytes) (s : State) : (keyWrite s k b).warm = s.warm := rfl
@[simp] theorem keyWrite_netRuns (k : Nat) (b : Bytes) (s : State) : (keyWrite s k b).netRuns = s.netRuns := rfl
@[simp] theorem keyWrite_recurrentZero (k : Nat) (b : Bytes) (s : State) : (keyWrite s k b).recurrentZero = s.recurrentZero := rfl
@[simp] theorem keyWrite_recurrent (k : Nat) (b : Bytes) (s : State) : (keyWrite s k b).recurrent = s.recurrent := rfl
@[simp] theorem keyWrite_net (k : Nat) (b : Bytes) (s : State) : (keyWrite s k b).net = s.net := rfl
@[simp] theorem keyWrite_fault (k : Nat) (b : Bytes) (s : State) : (keyWrite s k b).fault = s.fault := rfl
@[simp] theorem keyWrite_units (k : Nat) (b : Bytes) (s : State) : (keyWrite s k b).units = s.units := rfl
@[simp] theorem keyWrite_safety (k : Nat) (b : Bytes) (s : State) : (keyWrite s k b).safety = s.safety := rfl
@[simp] theorem keyWrite_pwr (k : Nat) (b : Bytes) (s : State) : (keyWrite s k b).pwr = s.pwr := rfl
@[simp] theorem keyWrite_clk (k : Nat) (b : Bytes) (s : State) : (keyWrite s k b).clk = s.clk := rfl
@[simp] theorem keyWrite_temp (k : Nat) (b : Bytes) (s : State) : (keyWrite s k b).temp = s.temp := rfl
@[simp] theorem keyWrite_boot (k : Nat) (b : Bytes) (s : State) : (keyWrite s k b).boot = s.boot := rfl
@[simp] theorem keyWrite_chain (k : Nat) (b : Bytes) (s : State) : (keyWrite s k b).chain = s.chain := rfl
@[simp] theorem keyWrite_det (k : Nat) (b : Bytes) (s : State) : (keyWrite s k b).det = s.det := rfl
@[simp] theorem keyWrite_ringm (k : Nat) (b : Bytes) (s : State) : (keyWrite s k b).ringm = s.ringm := rfl
@[simp] theorem keyWrite_lo (k : Nat) (b : Bytes) (s : State) : (keyWrite s k b).lo = s.lo := rfl
@[simp] theorem keyWrite_hi (k : Nat) (b : Bytes) (s : State) : (keyWrite s k b).hi = s.hi := rfl

@[simp] theorem addPoison_pending (k n src : Nat) (s : State) : (addPoison s k n src).pending = s.pending := rfl
@[simp] theorem addPoison_dt (k n src : Nat) (s : State) : (addPoison s k n src).dt = s.dt := rfl
@[simp] theorem addPoison_fresh (k n src : Nat) (s : State) : (addPoison s k n src).fresh = s.fresh := rfl
@[simp] theorem addPoison_nextWid (k n src : Nat) (s : State) : (addPoison s k n src).nextWid = s.nextWid := rfl
@[simp] theorem addPoison_grade (k n src : Nat) (s : State) : (addPoison s k n src).grade = s.grade := rfl
@[simp] theorem addPoison_hostMem (k n src : Nat) (s : State) : (addPoison s k n src).hostMem = s.hostMem := rfl
@[simp] theorem addPoison_pcie (k n src : Nat) (s : State) : (addPoison s k n src).pcie = s.pcie := rfl
@[simp] theorem addPoison_hostq (k n src : Nat) (s : State) : (addPoison s k n src).hostq = s.hostq := rfl
@[simp] theorem addPoison_work (k n src : Nat) (s : State) : (addPoison s k n src).work = s.work := rfl
@[simp] theorem addPoison_frame (k n src : Nat) (s : State) : (addPoison s k n src).frame = s.frame := rfl
@[simp] theorem addPoison_world (k n src : Nat) (s : State) : (addPoison s k n src).world = s.world := rfl
@[simp] theorem addPoison_body (k n src : Nat) (s : State) : (addPoison s k n src).body = s.body := rfl
@[simp] theorem addPoison_accord (k n src : Nat) (s : State) : (addPoison s k n src).accord = s.accord := rfl
@[simp] theorem addPoison_opts (k n src : Nat) (s : State) : (addPoison s k n src).opts = s.opts := rfl
@[simp] theorem addPoison_warm (k n src : Nat) (s : State) : (addPoison s k n src).warm = s.warm := rfl
@[simp] theorem addPoison_netRuns (k n src : Nat) (s : State) : (addPoison s k n src).netRuns = s.netRuns := rfl
@[simp] theorem addPoison_recurrentZero (k n src : Nat) (s : State) : (addPoison s k n src).recurrentZero = s.recurrentZero := rfl
@[simp] theorem addPoison_recurrent (k n src : Nat) (s : State) : (addPoison s k n src).recurrent = s.recurrent := rfl
@[simp] theorem addPoison_net (k n src : Nat) (s : State) : (addPoison s k n src).net = s.net := rfl
@[simp] theorem addPoison_fault (k n src : Nat) (s : State) : (addPoison s k n src).fault = s.fault := rfl
@[simp] theorem addPoison_units (k n src : Nat) (s : State) : (addPoison s k n src).units = s.units := rfl
@[simp] theorem addPoison_safety (k n src : Nat) (s : State) : (addPoison s k n src).safety = s.safety := rfl
@[simp] theorem addPoison_pwr (k n src : Nat) (s : State) : (addPoison s k n src).pwr = s.pwr := rfl
@[simp] theorem addPoison_clk (k n src : Nat) (s : State) : (addPoison s k n src).clk = s.clk := rfl
@[simp] theorem addPoison_temp (k n src : Nat) (s : State) : (addPoison s k n src).temp = s.temp := rfl
@[simp] theorem addPoison_boot (k n src : Nat) (s : State) : (addPoison s k n src).boot = s.boot := rfl
@[simp] theorem addPoison_chain (k n src : Nat) (s : State) : (addPoison s k n src).chain = s.chain := rfl
@[simp] theorem addPoison_det (k n src : Nat) (s : State) : (addPoison s k n src).det = s.det := rfl
@[simp] theorem addPoison_ringm (k n src : Nat) (s : State) : (addPoison s k n src).ringm = s.ringm := rfl
@[simp] theorem addPoison_lo (k n src : Nat) (s : State) : (addPoison s k n src).lo = s.lo := rfl
@[simp] theorem addPoison_hi (k n src : Nat) (s : State) : (addPoison s k n src).hi = s.hi := rfl

@[simp] theorem setOpt_pending (o : Opt) (s : State) : (setOpt o s).pending = s.pending := rfl
@[simp] theorem setOpt_dt (o : Opt) (s : State) : (setOpt o s).dt = s.dt := rfl
@[simp] theorem setOpt_fresh (o : Opt) (s : State) : (setOpt o s).fresh = s.fresh := rfl
@[simp] theorem setOpt_nextWid (o : Opt) (s : State) : (setOpt o s).nextWid = s.nextWid := rfl
@[simp] theorem setOpt_grade (o : Opt) (s : State) : (setOpt o s).grade = s.grade := rfl
@[simp] theorem setOpt_hostMem (o : Opt) (s : State) : (setOpt o s).hostMem = s.hostMem := rfl
@[simp] theorem setOpt_pcie (o : Opt) (s : State) : (setOpt o s).pcie = s.pcie := rfl
@[simp] theorem setOpt_hostq (o : Opt) (s : State) : (setOpt o s).hostq = s.hostq := rfl
@[simp] theorem setOpt_work (o : Opt) (s : State) : (setOpt o s).work = s.work := rfl
@[simp] theorem setOpt_frame (o : Opt) (s : State) : (setOpt o s).frame = s.frame := rfl
@[simp] theorem setOpt_world (o : Opt) (s : State) : (setOpt o s).world = s.world := rfl
@[simp] theorem setOpt_body (o : Opt) (s : State) : (setOpt o s).body = s.body := rfl
@[simp] theorem setOpt_accord (o : Opt) (s : State) : (setOpt o s).accord = s.accord := rfl
@[simp] theorem setOpt_warm (o : Opt) (s : State) : (setOpt o s).warm = s.warm := rfl
@[simp] theorem setOpt_netRuns (o : Opt) (s : State) : (setOpt o s).netRuns = s.netRuns := rfl
@[simp] theorem setOpt_recurrentZero (o : Opt) (s : State) : (setOpt o s).recurrentZero = s.recurrentZero := rfl
@[simp] theorem setOpt_recurrent (o : Opt) (s : State) : (setOpt o s).recurrent = s.recurrent := rfl
@[simp] theorem setOpt_net (o : Opt) (s : State) : (setOpt o s).net = s.net := rfl
@[simp] theorem setOpt_fault (o : Opt) (s : State) : (setOpt o s).fault = s.fault := rfl
@[simp] theorem setOpt_units (o : Opt) (s : State) : (setOpt o s).units = s.units := rfl
@[simp] theorem setOpt_safety (o : Opt) (s : State) : (setOpt o s).safety = s.safety := rfl
@[simp] theorem setOpt_pwr (o : Opt) (s : State) : (setOpt o s).pwr = s.pwr := rfl
@[simp] theorem setOpt_clk (o : Opt) (s : State) : (setOpt o s).clk = s.clk := rfl
@[simp] theorem setOpt_temp (o : Opt) (s : State) : (setOpt o s).temp = s.temp := rfl
@[simp] theorem setOpt_boot (o : Opt) (s : State) : (setOpt o s).boot = s.boot := rfl
@[simp] theorem setOpt_chain (o : Opt) (s : State) : (setOpt o s).chain = s.chain := rfl
@[simp] theorem setOpt_det (o : Opt) (s : State) : (setOpt o s).det = s.det := rfl
@[simp] theorem setOpt_ringm (o : Opt) (s : State) : (setOpt o s).ringm = s.ringm := rfl
@[simp] theorem setOpt_cores (o : Opt) (s : State) : (setOpt o s).cores = s.cores := rfl
@[simp] theorem setOpt_lo (o : Opt) (s : State) : (setOpt o s).lo = s.lo := rfl
@[simp] theorem setOpt_hi (o : Opt) (s : State) : (setOpt o s).hi = s.hi := rfl

@[simp] theorem setRun_pending (n : NetRun) (s : State) : (setRun n s).pending = s.pending := rfl
@[simp] theorem setRun_dt (n : NetRun) (s : State) : (setRun n s).dt = s.dt := rfl
@[simp] theorem setRun_fresh (n : NetRun) (s : State) : (setRun n s).fresh = s.fresh := rfl
@[simp] theorem setRun_nextWid (n : NetRun) (s : State) : (setRun n s).nextWid = s.nextWid := rfl
@[simp] theorem setRun_grade (n : NetRun) (s : State) : (setRun n s).grade = s.grade := rfl
@[simp] theorem setRun_hostMem (n : NetRun) (s : State) : (setRun n s).hostMem = s.hostMem := rfl
@[simp] theorem setRun_pcie (n : NetRun) (s : State) : (setRun n s).pcie = s.pcie := rfl
@[simp] theorem setRun_hostq (n : NetRun) (s : State) : (setRun n s).hostq = s.hostq := rfl
@[simp] theorem setRun_work (n : NetRun) (s : State) : (setRun n s).work = s.work := rfl
@[simp] theorem setRun_frame (n : NetRun) (s : State) : (setRun n s).frame = s.frame := rfl
@[simp] theorem setRun_world (n : NetRun) (s : State) : (setRun n s).world = s.world := rfl
@[simp] theorem setRun_body (n : NetRun) (s : State) : (setRun n s).body = s.body := rfl
@[simp] theorem setRun_accord (n : NetRun) (s : State) : (setRun n s).accord = s.accord := rfl
@[simp] theorem setRun_opts (n : NetRun) (s : State) : (setRun n s).opts = s.opts := rfl
@[simp] theorem setRun_warm (n : NetRun) (s : State) : (setRun n s).warm = s.warm := rfl
@[simp] theorem setRun_recurrentZero (n : NetRun) (s : State) : (setRun n s).recurrentZero = s.recurrentZero := rfl
@[simp] theorem setRun_recurrent (n : NetRun) (s : State) : (setRun n s).recurrent = s.recurrent := rfl
@[simp] theorem setRun_net (n : NetRun) (s : State) : (setRun n s).net = s.net := rfl
@[simp] theorem setRun_fault (n : NetRun) (s : State) : (setRun n s).fault = s.fault := rfl
@[simp] theorem setRun_units (n : NetRun) (s : State) : (setRun n s).units = s.units := rfl
@[simp] theorem setRun_safety (n : NetRun) (s : State) : (setRun n s).safety = s.safety := rfl
@[simp] theorem setRun_pwr (n : NetRun) (s : State) : (setRun n s).pwr = s.pwr := rfl
@[simp] theorem setRun_clk (n : NetRun) (s : State) : (setRun n s).clk = s.clk := rfl
@[simp] theorem setRun_temp (n : NetRun) (s : State) : (setRun n s).temp = s.temp := rfl
@[simp] theorem setRun_boot (n : NetRun) (s : State) : (setRun n s).boot = s.boot := rfl
@[simp] theorem setRun_chain (n : NetRun) (s : State) : (setRun n s).chain = s.chain := rfl
@[simp] theorem setRun_det (n : NetRun) (s : State) : (setRun n s).det = s.det := rfl
@[simp] theorem setRun_ringm (n : NetRun) (s : State) : (setRun n s).ringm = s.ringm := rfl
@[simp] theorem setRun_cores (n : NetRun) (s : State) : (setRun n s).cores = s.cores := rfl
@[simp] theorem setRun_lo (n : NetRun) (s : State) : (setRun n s).lo = s.lo := rfl
@[simp] theorem setRun_hi (n : NetRun) (s : State) : (setRun n s).hi = s.hi := rfl

@[simp] theorem setThread_pending (e : Nat) (x : Thread) (s : State) : (setThread e x s).pending = s.pending := rfl
@[simp] theorem setThread_dt (e : Nat) (x : Thread) (s : State) : (setThread e x s).dt = s.dt := rfl
@[simp] theorem setThread_fresh (e : Nat) (x : Thread) (s : State) : (setThread e x s).fresh = s.fresh := rfl
@[simp] theorem setThread_nextWid (e : Nat) (x : Thread) (s : State) : (setThread e x s).nextWid = s.nextWid := rfl
@[simp] theorem setThread_grade (e : Nat) (x : Thread) (s : State) : (setThread e x s).grade = s.grade := rfl
@[simp] theorem setThread_hostMem (e : Nat) (x : Thread) (s : State) : (setThread e x s).hostMem = s.hostMem := rfl
@[simp] theorem setThread_pcie (e : Nat) (x : Thread) (s : State) : (setThread e x s).pcie = s.pcie := rfl
@[simp] theorem setThread_hostq (e : Nat) (x : Thread) (s : State) : (setThread e x s).hostq = s.hostq := rfl
@[simp] theorem setThread_work (e : Nat) (x : Thread) (s : State) : (setThread e x s).work = s.work := rfl
@[simp] theorem setThread_frame (e : Nat) (x : Thread) (s : State) : (setThread e x s).frame = s.frame := rfl
@[simp] theorem setThread_world (e : Nat) (x : Thread) (s : State) : (setThread e x s).world = s.world := rfl
@[simp] theorem setThread_body (e : Nat) (x : Thread) (s : State) : (setThread e x s).body = s.body := rfl
@[simp] theorem setThread_accord (e : Nat) (x : Thread) (s : State) : (setThread e x s).accord = s.accord := rfl
@[simp] theorem setThread_opts (e : Nat) (x : Thread) (s : State) : (setThread e x s).opts = s.opts := rfl
@[simp] theorem setThread_warm (e : Nat) (x : Thread) (s : State) : (setThread e x s).warm = s.warm := rfl
@[simp] theorem setThread_netRuns (e : Nat) (x : Thread) (s : State) : (setThread e x s).netRuns = s.netRuns := rfl
@[simp] theorem setThread_recurrentZero (e : Nat) (x : Thread) (s : State) : (setThread e x s).recurrentZero = s.recurrentZero := rfl
@[simp] theorem setThread_recurrent (e : Nat) (x : Thread) (s : State) : (setThread e x s).recurrent = s.recurrent := rfl
@[simp] theorem setThread_net (e : Nat) (x : Thread) (s : State) : (setThread e x s).net = s.net := rfl
@[simp] theorem setThread_fault (e : Nat) (x : Thread) (s : State) : (setThread e x s).fault = s.fault := rfl
@[simp] theorem setThread_units (e : Nat) (x : Thread) (s : State) : (setThread e x s).units = s.units := rfl
@[simp] theorem setThread_safety (e : Nat) (x : Thread) (s : State) : (setThread e x s).safety = s.safety := rfl
@[simp] theorem setThread_pwr (e : Nat) (x : Thread) (s : State) : (setThread e x s).pwr = s.pwr := rfl
@[simp] theorem setThread_clk (e : Nat) (x : Thread) (s : State) : (setThread e x s).clk = s.clk := rfl
@[simp] theorem setThread_temp (e : Nat) (x : Thread) (s : State) : (setThread e x s).temp = s.temp := rfl
@[simp] theorem setThread_boot (e : Nat) (x : Thread) (s : State) : (setThread e x s).boot = s.boot := rfl
@[simp] theorem setThread_chain (e : Nat) (x : Thread) (s : State) : (setThread e x s).chain = s.chain := rfl
@[simp] theorem setThread_det (e : Nat) (x : Thread) (s : State) : (setThread e x s).det = s.det := rfl
@[simp] theorem setThread_cores (e : Nat) (x : Thread) (s : State) : (setThread e x s).cores = s.cores := rfl
@[simp] theorem setThread_lo (e : Nat) (x : Thread) (s : State) : (setThread e x s).lo = s.lo := rfl
@[simp] theorem setThread_hi (e : Nat) (x : Thread) (s : State) : (setThread e x s).hi = s.hi := rfl

@[simp] theorem setResult_pending (p code value : Nat) (s : State) : (setResult p code value s).pending = s.pending := rfl
@[simp] theorem setResult_dt (p code value : Nat) (s : State) : (setResult p code value s).dt = s.dt := rfl
@[simp] theorem setResult_fresh (p code value : Nat) (s : State) : (setResult p code value s).fresh = s.fresh := rfl
@[simp] theorem setResult_nextWid (p code value : Nat) (s : State) : (setResult p code value s).nextWid = s.nextWid := rfl
@[simp] theorem setResult_grade (p code value : Nat) (s : State) : (setResult p code value s).grade = s.grade := rfl
@[simp] theorem setResult_hostMem (p code value : Nat) (s : State) : (setResult p code value s).hostMem = s.hostMem := rfl
@[simp] theorem setResult_pcie (p code value : Nat) (s : State) : (setResult p code value s).pcie = s.pcie := rfl
@[simp] theorem setResult_hostq (p code value : Nat) (s : State) : (setResult p code value s).hostq = s.hostq := rfl
@[simp] theorem setResult_work (p code value : Nat) (s : State) : (setResult p code value s).work = s.work := rfl
@[simp] theorem setResult_frame (p code value : Nat) (s : State) : (setResult p code value s).frame = s.frame := rfl
@[simp] theorem setResult_world (p code value : Nat) (s : State) : (setResult p code value s).world = s.world := rfl
@[simp] theorem setResult_body (p code value : Nat) (s : State) : (setResult p code value s).body = s.body := rfl
@[simp] theorem setResult_accord (p code value : Nat) (s : State) : (setResult p code value s).accord = s.accord := rfl
@[simp] theorem setResult_opts (p code value : Nat) (s : State) : (setResult p code value s).opts = s.opts := rfl
@[simp] theorem setResult_warm (p code value : Nat) (s : State) : (setResult p code value s).warm = s.warm := rfl
@[simp] theorem setResult_netRuns (p code value : Nat) (s : State) : (setResult p code value s).netRuns = s.netRuns := rfl
@[simp] theorem setResult_recurrentZero (p code value : Nat) (s : State) : (setResult p code value s).recurrentZero = s.recurrentZero := rfl
@[simp] theorem setResult_recurrent (p code value : Nat) (s : State) : (setResult p code value s).recurrent = s.recurrent := rfl
@[simp] theorem setResult_net (p code value : Nat) (s : State) : (setResult p code value s).net = s.net := rfl
@[simp] theorem setResult_fault (p code value : Nat) (s : State) : (setResult p code value s).fault = s.fault := rfl
@[simp] theorem setResult_units (p code value : Nat) (s : State) : (setResult p code value s).units = s.units := rfl
@[simp] theorem setResult_safety (p code value : Nat) (s : State) : (setResult p code value s).safety = s.safety := rfl
@[simp] theorem setResult_pwr (p code value : Nat) (s : State) : (setResult p code value s).pwr = s.pwr := rfl
@[simp] theorem setResult_clk (p code value : Nat) (s : State) : (setResult p code value s).clk = s.clk := rfl
@[simp] theorem setResult_temp (p code value : Nat) (s : State) : (setResult p code value s).temp = s.temp := rfl
@[simp] theorem setResult_boot (p code value : Nat) (s : State) : (setResult p code value s).boot = s.boot := rfl
@[simp] theorem setResult_chain (p code value : Nat) (s : State) : (setResult p code value s).chain = s.chain := rfl
@[simp] theorem setResult_det (p code value : Nat) (s : State) : (setResult p code value s).det = s.det := rfl
@[simp] theorem setResult_cores (p code value : Nat) (s : State) : (setResult p code value s).cores = s.cores := rfl
@[simp] theorem setResult_lo (p code value : Nat) (s : State) : (setResult p code value s).lo = s.lo := rfl
@[simp] theorem setResult_hi (p code value : Nat) (s : State) : (setResult p code value s).hi = s.hi := rfl

@[simp] theorem setArgs_pending (p a0 a1 : Nat) (s : State) : (setArgs p a0 a1 s).pending = s.pending := rfl
@[simp] theorem setArgs_dt (p a0 a1 : Nat) (s : State) : (setArgs p a0 a1 s).dt = s.dt := rfl
@[simp] theorem setArgs_fresh (p a0 a1 : Nat) (s : State) : (setArgs p a0 a1 s).fresh = s.fresh := rfl
@[simp] theorem setArgs_nextWid (p a0 a1 : Nat) (s : State) : (setArgs p a0 a1 s).nextWid = s.nextWid := rfl
@[simp] theorem setArgs_grade (p a0 a1 : Nat) (s : State) : (setArgs p a0 a1 s).grade = s.grade := rfl
@[simp] theorem setArgs_hostMem (p a0 a1 : Nat) (s : State) : (setArgs p a0 a1 s).hostMem = s.hostMem := rfl
@[simp] theorem setArgs_pcie (p a0 a1 : Nat) (s : State) : (setArgs p a0 a1 s).pcie = s.pcie := rfl
@[simp] theorem setArgs_hostq (p a0 a1 : Nat) (s : State) : (setArgs p a0 a1 s).hostq = s.hostq := rfl
@[simp] theorem setArgs_work (p a0 a1 : Nat) (s : State) : (setArgs p a0 a1 s).work = s.work := rfl
@[simp] theorem setArgs_frame (p a0 a1 : Nat) (s : State) : (setArgs p a0 a1 s).frame = s.frame := rfl
@[simp] theorem setArgs_world (p a0 a1 : Nat) (s : State) : (setArgs p a0 a1 s).world = s.world := rfl
@[simp] theorem setArgs_body (p a0 a1 : Nat) (s : State) : (setArgs p a0 a1 s).body = s.body := rfl
@[simp] theorem setArgs_accord (p a0 a1 : Nat) (s : State) : (setArgs p a0 a1 s).accord = s.accord := rfl
@[simp] theorem setArgs_opts (p a0 a1 : Nat) (s : State) : (setArgs p a0 a1 s).opts = s.opts := rfl
@[simp] theorem setArgs_warm (p a0 a1 : Nat) (s : State) : (setArgs p a0 a1 s).warm = s.warm := rfl
@[simp] theorem setArgs_netRuns (p a0 a1 : Nat) (s : State) : (setArgs p a0 a1 s).netRuns = s.netRuns := rfl
@[simp] theorem setArgs_recurrentZero (p a0 a1 : Nat) (s : State) : (setArgs p a0 a1 s).recurrentZero = s.recurrentZero := rfl
@[simp] theorem setArgs_recurrent (p a0 a1 : Nat) (s : State) : (setArgs p a0 a1 s).recurrent = s.recurrent := rfl
@[simp] theorem setArgs_net (p a0 a1 : Nat) (s : State) : (setArgs p a0 a1 s).net = s.net := rfl
@[simp] theorem setArgs_fault (p a0 a1 : Nat) (s : State) : (setArgs p a0 a1 s).fault = s.fault := rfl
@[simp] theorem setArgs_units (p a0 a1 : Nat) (s : State) : (setArgs p a0 a1 s).units = s.units := rfl
@[simp] theorem setArgs_safety (p a0 a1 : Nat) (s : State) : (setArgs p a0 a1 s).safety = s.safety := rfl
@[simp] theorem setArgs_pwr (p a0 a1 : Nat) (s : State) : (setArgs p a0 a1 s).pwr = s.pwr := rfl
@[simp] theorem setArgs_clk (p a0 a1 : Nat) (s : State) : (setArgs p a0 a1 s).clk = s.clk := rfl
@[simp] theorem setArgs_temp (p a0 a1 : Nat) (s : State) : (setArgs p a0 a1 s).temp = s.temp := rfl
@[simp] theorem setArgs_boot (p a0 a1 : Nat) (s : State) : (setArgs p a0 a1 s).boot = s.boot := rfl
@[simp] theorem setArgs_chain (p a0 a1 : Nat) (s : State) : (setArgs p a0 a1 s).chain = s.chain := rfl
@[simp] theorem setArgs_det (p a0 a1 : Nat) (s : State) : (setArgs p a0 a1 s).det = s.det := rfl
@[simp] theorem setArgs_cores (p a0 a1 : Nat) (s : State) : (setArgs p a0 a1 s).cores = s.cores := rfl
@[simp] theorem setArgs_lo (p a0 a1 : Nat) (s : State) : (setArgs p a0 a1 s).lo = s.lo := rfl
@[simp] theorem setArgs_hi (p a0 a1 : Nat) (s : State) : (setArgs p a0 a1 s).hi = s.hi := rfl

@[simp] theorem noteRing_pending (e : REvent) (s : State) : (noteRing e s).pending = s.pending := rfl
@[simp] theorem noteRing_dt (e : REvent) (s : State) : (noteRing e s).dt = s.dt := rfl
@[simp] theorem noteRing_fresh (e : REvent) (s : State) : (noteRing e s).fresh = s.fresh := rfl
@[simp] theorem noteRing_nextWid (e : REvent) (s : State) : (noteRing e s).nextWid = s.nextWid := rfl
@[simp] theorem noteRing_grade (e : REvent) (s : State) : (noteRing e s).grade = s.grade := rfl
@[simp] theorem noteRing_hostMem (e : REvent) (s : State) : (noteRing e s).hostMem = s.hostMem := rfl
@[simp] theorem noteRing_pcie (e : REvent) (s : State) : (noteRing e s).pcie = s.pcie := rfl
@[simp] theorem noteRing_hostq (e : REvent) (s : State) : (noteRing e s).hostq = s.hostq := rfl
@[simp] theorem noteRing_work (e : REvent) (s : State) : (noteRing e s).work = s.work := rfl
@[simp] theorem noteRing_frame (e : REvent) (s : State) : (noteRing e s).frame = s.frame := rfl
@[simp] theorem noteRing_world (e : REvent) (s : State) : (noteRing e s).world = s.world := rfl
@[simp] theorem noteRing_body (e : REvent) (s : State) : (noteRing e s).body = s.body := rfl
@[simp] theorem noteRing_accord (e : REvent) (s : State) : (noteRing e s).accord = s.accord := rfl
@[simp] theorem noteRing_opts (e : REvent) (s : State) : (noteRing e s).opts = s.opts := rfl
@[simp] theorem noteRing_warm (e : REvent) (s : State) : (noteRing e s).warm = s.warm := rfl
@[simp] theorem noteRing_netRuns (e : REvent) (s : State) : (noteRing e s).netRuns = s.netRuns := rfl
@[simp] theorem noteRing_recurrentZero (e : REvent) (s : State) : (noteRing e s).recurrentZero = s.recurrentZero := rfl
@[simp] theorem noteRing_recurrent (e : REvent) (s : State) : (noteRing e s).recurrent = s.recurrent := rfl
@[simp] theorem noteRing_net (e : REvent) (s : State) : (noteRing e s).net = s.net := rfl
@[simp] theorem noteRing_fault (e : REvent) (s : State) : (noteRing e s).fault = s.fault := rfl
@[simp] theorem noteRing_units (e : REvent) (s : State) : (noteRing e s).units = s.units := rfl
@[simp] theorem noteRing_safety (e : REvent) (s : State) : (noteRing e s).safety = s.safety := rfl
@[simp] theorem noteRing_pwr (e : REvent) (s : State) : (noteRing e s).pwr = s.pwr := rfl
@[simp] theorem noteRing_clk (e : REvent) (s : State) : (noteRing e s).clk = s.clk := rfl
@[simp] theorem noteRing_temp (e : REvent) (s : State) : (noteRing e s).temp = s.temp := rfl
@[simp] theorem noteRing_boot (e : REvent) (s : State) : (noteRing e s).boot = s.boot := rfl
@[simp] theorem noteRing_chain (e : REvent) (s : State) : (noteRing e s).chain = s.chain := rfl
@[simp] theorem noteRing_det (e : REvent) (s : State) : (noteRing e s).det = s.det := rfl
@[simp] theorem noteRing_cores (e : REvent) (s : State) : (noteRing e s).cores = s.cores := rfl
@[simp] theorem noteRing_lo (e : REvent) (s : State) : (noteRing e s).lo = s.lo := rfl
@[simp] theorem noteRing_hi (e : REvent) (s : State) : (noteRing e s).hi = s.hi := rfl

@[simp] theorem setProg_pending (u : CUnit) (n : Nat) (s : State) : (setProg u n s).pending = s.pending := rfl
@[simp] theorem setProg_dt (u : CUnit) (n : Nat) (s : State) : (setProg u n s).dt = s.dt := rfl
@[simp] theorem setProg_fresh (u : CUnit) (n : Nat) (s : State) : (setProg u n s).fresh = s.fresh := rfl
@[simp] theorem setProg_nextWid (u : CUnit) (n : Nat) (s : State) : (setProg u n s).nextWid = s.nextWid := rfl
@[simp] theorem setProg_grade (u : CUnit) (n : Nat) (s : State) : (setProg u n s).grade = s.grade := rfl
@[simp] theorem setProg_hostMem (u : CUnit) (n : Nat) (s : State) : (setProg u n s).hostMem = s.hostMem := rfl
@[simp] theorem setProg_pcie (u : CUnit) (n : Nat) (s : State) : (setProg u n s).pcie = s.pcie := rfl
@[simp] theorem setProg_hostq (u : CUnit) (n : Nat) (s : State) : (setProg u n s).hostq = s.hostq := rfl
@[simp] theorem setProg_work (u : CUnit) (n : Nat) (s : State) : (setProg u n s).work = s.work := rfl
@[simp] theorem setProg_frame (u : CUnit) (n : Nat) (s : State) : (setProg u n s).frame = s.frame := rfl
@[simp] theorem setProg_world (u : CUnit) (n : Nat) (s : State) : (setProg u n s).world = s.world := rfl
@[simp] theorem setProg_body (u : CUnit) (n : Nat) (s : State) : (setProg u n s).body = s.body := rfl
@[simp] theorem setProg_accord (u : CUnit) (n : Nat) (s : State) : (setProg u n s).accord = s.accord := rfl
@[simp] theorem setProg_opts (u : CUnit) (n : Nat) (s : State) : (setProg u n s).opts = s.opts := rfl
@[simp] theorem setProg_warm (u : CUnit) (n : Nat) (s : State) : (setProg u n s).warm = s.warm := rfl
@[simp] theorem setProg_netRuns (u : CUnit) (n : Nat) (s : State) : (setProg u n s).netRuns = s.netRuns := rfl
@[simp] theorem setProg_recurrentZero (u : CUnit) (n : Nat) (s : State) : (setProg u n s).recurrentZero = s.recurrentZero := rfl
@[simp] theorem setProg_recurrent (u : CUnit) (n : Nat) (s : State) : (setProg u n s).recurrent = s.recurrent := rfl
@[simp] theorem setProg_net (u : CUnit) (n : Nat) (s : State) : (setProg u n s).net = s.net := rfl
@[simp] theorem setProg_fault (u : CUnit) (n : Nat) (s : State) : (setProg u n s).fault = s.fault := rfl
@[simp] theorem setProg_units (u : CUnit) (n : Nat) (s : State) : (setProg u n s).units = s.units := rfl
@[simp] theorem setProg_pwr (u : CUnit) (n : Nat) (s : State) : (setProg u n s).pwr = s.pwr := rfl
@[simp] theorem setProg_clk (u : CUnit) (n : Nat) (s : State) : (setProg u n s).clk = s.clk := rfl
@[simp] theorem setProg_temp (u : CUnit) (n : Nat) (s : State) : (setProg u n s).temp = s.temp := rfl
@[simp] theorem setProg_boot (u : CUnit) (n : Nat) (s : State) : (setProg u n s).boot = s.boot := rfl
@[simp] theorem setProg_chain (u : CUnit) (n : Nat) (s : State) : (setProg u n s).chain = s.chain := rfl
@[simp] theorem setProg_det (u : CUnit) (n : Nat) (s : State) : (setProg u n s).det = s.det := rfl
@[simp] theorem setProg_ringm (u : CUnit) (n : Nat) (s : State) : (setProg u n s).ringm = s.ringm := rfl
@[simp] theorem setProg_cores (u : CUnit) (n : Nat) (s : State) : (setProg u n s).cores = s.cores := rfl
@[simp] theorem setProg_lo (u : CUnit) (n : Nat) (s : State) : (setProg u n s).lo = s.lo := rfl
@[simp] theorem setProg_hi (u : CUnit) (n : Nat) (s : State) : (setProg u n s).hi = s.hi := rfl

@[simp] theorem clearProg_pending (q : Nat) (s : State) : (clearProg q s).pending = s.pending := rfl
@[simp] theorem clearProg_dt (q : Nat) (s : State) : (clearProg q s).dt = s.dt := rfl
@[simp] theorem clearProg_fresh (q : Nat) (s : State) : (clearProg q s).fresh = s.fresh := rfl
@[simp] theorem clearProg_nextWid (q : Nat) (s : State) : (clearProg q s).nextWid = s.nextWid := rfl
@[simp] theorem clearProg_grade (q : Nat) (s : State) : (clearProg q s).grade = s.grade := rfl
@[simp] theorem clearProg_hostMem (q : Nat) (s : State) : (clearProg q s).hostMem = s.hostMem := rfl
@[simp] theorem clearProg_pcie (q : Nat) (s : State) : (clearProg q s).pcie = s.pcie := rfl
@[simp] theorem clearProg_hostq (q : Nat) (s : State) : (clearProg q s).hostq = s.hostq := rfl
@[simp] theorem clearProg_work (q : Nat) (s : State) : (clearProg q s).work = s.work := rfl
@[simp] theorem clearProg_frame (q : Nat) (s : State) : (clearProg q s).frame = s.frame := rfl
@[simp] theorem clearProg_world (q : Nat) (s : State) : (clearProg q s).world = s.world := rfl
@[simp] theorem clearProg_body (q : Nat) (s : State) : (clearProg q s).body = s.body := rfl
@[simp] theorem clearProg_accord (q : Nat) (s : State) : (clearProg q s).accord = s.accord := rfl
@[simp] theorem clearProg_opts (q : Nat) (s : State) : (clearProg q s).opts = s.opts := rfl
@[simp] theorem clearProg_warm (q : Nat) (s : State) : (clearProg q s).warm = s.warm := rfl
@[simp] theorem clearProg_netRuns (q : Nat) (s : State) : (clearProg q s).netRuns = s.netRuns := rfl
@[simp] theorem clearProg_recurrentZero (q : Nat) (s : State) : (clearProg q s).recurrentZero = s.recurrentZero := rfl
@[simp] theorem clearProg_recurrent (q : Nat) (s : State) : (clearProg q s).recurrent = s.recurrent := rfl
@[simp] theorem clearProg_net (q : Nat) (s : State) : (clearProg q s).net = s.net := rfl
@[simp] theorem clearProg_fault (q : Nat) (s : State) : (clearProg q s).fault = s.fault := rfl
@[simp] theorem clearProg_units (q : Nat) (s : State) : (clearProg q s).units = s.units := rfl
@[simp] theorem clearProg_pwr (q : Nat) (s : State) : (clearProg q s).pwr = s.pwr := rfl
@[simp] theorem clearProg_clk (q : Nat) (s : State) : (clearProg q s).clk = s.clk := rfl
@[simp] theorem clearProg_temp (q : Nat) (s : State) : (clearProg q s).temp = s.temp := rfl
@[simp] theorem clearProg_boot (q : Nat) (s : State) : (clearProg q s).boot = s.boot := rfl
@[simp] theorem clearProg_chain (q : Nat) (s : State) : (clearProg q s).chain = s.chain := rfl
@[simp] theorem clearProg_det (q : Nat) (s : State) : (clearProg q s).det = s.det := rfl
@[simp] theorem clearProg_ringm (q : Nat) (s : State) : (clearProg q s).ringm = s.ringm := rfl
@[simp] theorem clearProg_cores (q : Nat) (s : State) : (clearProg q s).cores = s.cores := rfl
@[simp] theorem clearProg_lo (q : Nat) (s : State) : (clearProg q s).lo = s.lo := rfl
@[simp] theorem clearProg_hi (q : Nat) (s : State) : (clearProg q s).hi = s.hi := rfl

end Sys2Proof.Machine
end

