-- ==== Sys2Proof/Laws/Keeps.lean ====
section
/-! SUPPORT. The relation `Keeps`: what every operation of the model leaves intact. One lemma per shared operation says that it
keeps; the claims about every step follow from them. -/

namespace Sys2Proof.Machine

/-- From `a` to `b`: the queue and the speed grade are the same, the rollback fuses have not gone down, and each part of the
invariant that held still holds. -/
structure Keeps (a b : State) : Prop where
  pending : b.pending = a.pending
  mem : Memory.wf a.hostMem = true → Memory.wf b.hostMem = true
  cmem : Memory.wf a.cores.mem = true → Memory.wf b.cores.mem = true
  pads : SafeStopOk a → SafeStopOk b
  srcs : SrcsOk a.fault.srcs → SrcsOk b.fault.srcs
  limit : LimitOk a.pwr → LimitOk b.pwr
  grade : b.grade = a.grade
  otp : a.boot.otpRollback ≤ b.boot.otpRollback

theorem Keeps.refl (s : State) : Keeps s s := ⟨rfl, id, id, id, id, id, rfl, Nat.le_refl _⟩

theorem Keeps.trans {a b c : State} (h : Keeps a b) (g : Keeps b c) : Keeps a c :=
  ⟨g.1.trans h.1, g.2 ∘ h.2, g.3 ∘ h.3, g.4 ∘ h.4, g.5 ∘ h.5, g.6 ∘ h.6, g.7.trans h.7, Nat.le_trans h.8 g.8⟩

theorem keeps_through {a x b : State} (h : Keeps a x) (k : Keeps a x → Keeps a b) : Keeps a b := k h

theorem keeps_ite {a x y : State} {c : Prop} {i : Decidable c} (h1 : c → Keeps a x) (h2 : ¬ c → Keeps a y) :
    Keeps a (@ite _ c i x y) := by
  by_cases h : c
  · rw [if_pos h]; exact h1 h
  · rw [if_neg h]; exact h2 h

theorem keeps_snd {a s : State} {β : Type} {p : β × State} {b : β} (h : Keeps a p.2) (e : p = (b, s)) : Keeps a s := by
  rw [e] at h; exact h

theorem keeps_fst {a s : State} {β : Type} {p : State × β} {b : β} (h : Keeps a p.1) (e : p = (s, b)) : Keeps a s := by
  rw [e] at h; exact h

theorem keeps_foldl {α : Type} {a : State} {g : State → α → State} {l : List α} :
    ∀ {i : State}, Keeps a i → (∀ s x, Keeps a s → Keeps a (g s x)) → Keeps a (l.foldl g i) := by
  induction l with
  | nil => intro i h _; exact h
  | cons x l ih => intro i h hg; exact ih (hg _ _ h) hg

theorem foldl_snd {α β : Type} {g : β × State → α → β × State} (hg : ∀ p x, Keeps p.2 (g p x).2) :
    ∀ (l : List α) (p : β × State), Keeps p.2 (l.foldl g p).2
  | [], _ => Keeps.refl _
  | x :: l, p => (hg p x).trans (foldl_snd hg l (g p x))

theorem keeps_foldl_snd {α β : Type} {a : State} {g : β × State → α → β × State} {l : List α} {p : β × State} (h : Keeps a p.2)
    (hg : ∀ p x, Keeps p.2 (g p x).2) : Keeps a (l.foldl g p).2 :=
  h.trans (foldl_snd hg l p)

/-- An update that touches none of what `Keeps` speaks of. -/
theorem keeps_mk {a b c : State} (h : Keeps a b) (e : c.pending = b.pending ∧ c.hostMem = b.hostMem ∧ c.cores.mem = b.cores.mem ∧
    c.net.state = b.net.state ∧ c.net.padA = b.net.padA ∧ c.net.padB = b.net.padB ∧ c.fault.srcs = b.fault.srcs ∧
    c.pwr.limit = b.pwr.limit ∧ c.pwr.limitNext = b.pwr.limitNext ∧ c.grade = b.grade ∧ c.boot.otpRollback = b.boot.otpRollback) :
    Keeps a c := by
  refine h.trans ?_
  obtain ⟨e1, e2, e3, e4, e5, e6, e7, e8, e9, e10, e11⟩ := e
  refine ⟨e1, ?_, ?_, ?_, ?_, ?_, e10, ?_⟩
  · intro h; rw [e2]; exact h
  · intro h; rw [e3]; exact h
  · intro h; unfold SafeStopOk at h ⊢; rw [e4, e5, e6]; exact h
  · intro h; rw [e7]; exact h
  · intro h; unfold LimitOk at h ⊢; rw [e8, e9]; exact h
  · exact Nat.le_of_eq e11.symm

theorem keeps_mkc {a b : State}
    {dt : Nat} {fresh : Nat} {nextWid : Nat} {pcie : Pcie} {hostq : HostQ} {work : List Work} {frame : FrameB}
    {world : World} {body : Option Body} {accord : Option Accord} {opts : List Opt} {warm : List (Nat × Warm)}
    {netRuns : List NetRun} {recurrentZero : Bool} {recurrent : List (Nat × List Nat)} {net : Net} {fault : FaultC}
    {units : Units} {safety : Safety} {pwr : Pwr} {clk : Clk} {temp : TempB} {boot : Boot} {chain : Chain} {det : Det}
    {ringm : Ringm} {cores : Cores} {lo : List (Nat × Nat)} {hi : List (Nat × Nat)}
    (h : Keeps a b)
    (e : cores.mem = b.cores.mem ∧ net.state = b.net.state ∧ net.padA = b.net.padA ∧ net.padB = b.net.padB ∧
      fault.srcs = b.fault.srcs ∧ pwr.limit = b.pwr.limit ∧ pwr.limitNext = b.pwr.limitNext ∧ boot.otpRollback = b.boot.otpRollback) :
    Keeps a (State.mk b.pending dt fresh nextWid b.grade b.hostMem pcie hostq work frame world body accord opts warm netRuns
      recurrentZero recurrent net fault units safety pwr clk temp boot chain det ringm cores lo hi) :=
  keeps_mk h ⟨rfl, rfl, e.1, e.2.1, e.2.2.1, e.2.2.2.1, e.2.2.2.2.1, e.2.2.2.2.2.1, e.2.2.2.2.2.2.1, rfl, e.2.2.2.2.2.2.2⟩

theorem keeps_mkg {a b : State}
    {dt : Nat} {fresh : Nat} {nextWid : Nat} {hostMem : List Host.Cell} {pcie : Pcie} {hostq : HostQ} {work : List Work}
    {frame : FrameB} {world : World} {body : Option Body} {accord : Option Accord} {opts : List Opt}
    {warm : List (Nat × Warm)} {netRuns : List NetRun} {recurrentZero : Bool} {recurrent : List (Nat × List Nat)} {net : Net}
    {fault : FaultC} {units : Units} {safety : Safety} {pwr : Pwr} {clk : Clk} {temp : TempB} {boot : Boot} {chain : Chain}
    {det : Det} {ringm : Ringm} {cores : Cores} {lo : List (Nat × Nat)} {hi : List (Nat × Nat)}
    (h : Keeps a b)
    (e1 : Memory.wf b.hostMem = true → Memory.wf hostMem = true) (e2 : Memory.wf b.cores.mem = true → Memory.wf cores.mem = true)
    (e3 : (b.net.state ≠ 1 → b.net.padA = true ∧ b.net.padB = true) → (net.state ≠ 1 → net.padA = true ∧ net.padB = true))
    (e4 : SrcsOk b.fault.srcs → SrcsOk fault.srcs) (e5 : LimitOk b.pwr → LimitOk pwr)
    (e6 : b.boot.otpRollback ≤ boot.otpRollback) :
    Keeps a (State.mk b.pending dt fresh nextWid b.grade hostMem pcie hostq work frame world body accord opts warm netRuns
      recurrentZero recurrent net fault units safety pwr clk temp boot chain det ringm cores lo hi) :=
  h.trans ⟨rfl, e1, e2, e3, e4, e5, rfl, e6⟩

theorem atDt_keeps (t : Nat) (s : State) : Keeps s (atDt t s) := keeps_mk (Keeps.refl _) ⟨rfl, rfl, rfl, rfl, rfl, rfl, rfl, rfl, rfl, rfl, rfl⟩

theorem runAt_keeps {t : Nat} {s t' : State} {f : State → State} (hf : ∀ s, Keeps s (f s)) (h : runAt t s f = .next t') : Keeps s t' := by
  unfold runAt at h
  split at h
  · cases h; exact Keeps.refl _
  · cases h; exact (atDt_keeps t s).trans (hf _)

theorem hostMem_keeps {a b : State} (h : Keeps a b) (m : List Host.Cell) (hm : Memory.wf b.hostMem = true → Memory.wf m = true) : Keeps a { b with hostMem := m } :=
  h.trans ⟨rfl, hm, id, id, id, id, rfl, Nat.le_refl _⟩

theorem modifyAt_length {α : Type} (f : α → α) : ∀ (i : Nat) (l : List α), (modifyAt f i l).length = l.length
  | _, [] => by simp [modifyAt]
  | 0, x :: xs => by simp [modifyAt]
  | i + 1, x :: xs => by simp [modifyAt, modifyAt_length f i xs]

theorem mem_modifyAt {α : Type} {f : α → α} {y : α} : ∀ {i : Nat} {l : List α}, y ∈ modifyAt f i l → y ∈ l ∨ ∃ x ∈ l, y = f x
  | _, [], h => by simp [modifyAt] at h
  | 0, x :: xs, h => by
    simp only [modifyAt, List.mem_cons] at h
    rcases h with h | h
    · exact .inr ⟨x, by simp, h⟩
    · exact .inl (by simp [h])
  | i + 1, x :: xs, h => by
    simp only [modifyAt, List.mem_cons] at h
    rcases h with h | h
    · exact .inl (by simp [h])
    · rcases mem_modifyAt h with h | ⟨z, hz, h⟩
      · exact .inl (by simp [h])
      · exact .inr ⟨z, by simp [hz], h⟩

theorem modifyAt_srcs {l : List Src} (i : Nat) (x : Src) (h : SrcsOk l) (hx : SrcOk x) :
    SrcsOk (modifyAt (fun _ => x) i l) := by
  refine ⟨by rw [modifyAt_length]; exact h.1, fun y hy => ?_⟩
  rcases mem_modifyAt hy with hy | ⟨_, _, rfl⟩
  · exact h.2 y hy
  · exact hx
end Sys2Proof.Machine
end

