-- ==== Sys2Proof/Laws/KeepsOps.lean ====
section
/-! SUPPORT. Every operation of Sys2Proof/Machine/Ops.lean keeps what `Keeps` speaks of. -/

namespace Sys2Proof.Machine

theorem sendFlit_keeps (port : Nat) (m : FlitMsg) (s : State) : Keeps s (sendFlit port m s) := by
  unfold sendFlit
  extract_lets +onlyGivenNames x
  clear_value x
  extract_lets +onlyGivenNames x
  extract_lets +onlyGivenNames x
  clear_value x
  extract_lets +onlyGivenNames x
  clear_value x
  with_reducible exact keeps_mkc (Keeps.refl _) ⟨rfl, rfl, rfl, rfl, rfl, rfl, rfl, rfl⟩

theorem hostWrite_keeps (id : DescId) (s : State) (a : Nat) (bs : Bytes) : Keeps s (hostWrite id s a bs) := by
  unfold hostWrite
  split
  · exact hostMem_keeps (Keeps.refl _) _ (memWrites_wf bs a)
  · exact sendFlit_keeps _ _ _

theorem hostLog_keeps (s : State) (a : Nat) (bs : Bytes) : Keeps s (hostLog s a bs) := by
  unfold hostLog
  split
  · with_reducible refine keeps_mkg (Keeps.refl _) ?_ ?_ ?_ ?_ ?_ ?_
    · exact memWrites_wf _ _
    · exact id
    · exact id
    · exact id
    · exact id
    · exact Nat.le_refl _
  · with_reducible refine sendFlit_keeps _ _ _

theorem sendMsix_keeps (v : Nat) (s : State) : Keeps s (sendMsix v s) := by
  unfold sendMsix
  split
  · split
    · with_reducible refine sendFlit_keeps _ _ _
    · exact Keeps.refl _
  · split
    · exact Keeps.refl _
    · split
      · split
        · exact Keeps.refl _
        · with_reducible exact keeps_mkc (Keeps.refl _) ⟨rfl, rfl, rfl, rfl, rfl, rfl, rfl, rfl⟩
      · with_reducible exact keeps_mkc (Keeps.refl _) ⟨rfl, rfl, rfl, rfl, rfl, rfl, rfl, rfl⟩

theorem flushMsix_keeps (s : State) : Keeps s (flushMsix s) := by
  unfold flushMsix
  split
  · exact Keeps.refl _
  · extract_lets +onlyGivenNames x
    clear_value x
    with_reducible exact keeps_mkc (Keeps.refl _) ⟨rfl, rfl, rfl, rfl, rfl, rfl, rfl, rfl⟩

theorem foldStores_wf (l : List (Nat × Bytes)) : ∀ {m : List Host.Cell}, Memory.wf m = true → Memory.wf (l.foldl (fun m st => memWrites m st.1 st.2) m) = true := by
  induction l with
  | nil => intro m h; exact h
  | cons x l ih => intro m h; exact ih (memWrites_wf _ _ h)

theorem applyView_keeps (v : View) (s : State) : Keeps s (applyView v s) := by
  refine Keeps.trans (b := { s with hostMem := (applyView v s).hostMem }) (hostMem_keeps (Keeps.refl s) _ (fun h => ?_))
    (keeps_mk (Keeps.refl _) (by rw [applyView_eq]; exact ⟨rfl, rfl, rfl, rfl, rfl, rfl, rfl, rfl, rfl, rfl, rfl⟩))
  have e : (applyView v s).hostMem = v.stores.foldl (fun m st => memWrites m st.1 st.2) s.hostMem := by
    unfold applyView
    dsimp only
    split
    · split
      · rw [flushMsix_hostMem]
      · rfl
    · rfl
  rw [e]; exact foldStores_wf v.stores h

theorem deviceEvent_keeps (s : State) : Keeps s (deviceEvent s) := by
  unfold deviceEvent
  split
  · with_reducible refine sendMsix_keeps _ _
  · exact Keeps.refl _

theorem setService_keeps (n : Nat) (s : State) : Keeps s (setService n s) := by
  unfold setService
  split
  · exact Keeps.refl _
  · with_reducible refine Keeps.trans ?_ (deviceEvent_keeps _)
    with_reducible exact keeps_mkc (Keeps.refl _) ⟨rfl, rfl, rfl, rfl, rfl, rfl, rfl, rfl⟩

theorem hostHeartbeat_keeps (t : Nat) (s : State) : Keeps s (hostHeartbeat t s) := by
  unfold hostHeartbeat
  with_reducible exact keeps_mkc (Keeps.refl _) ⟨rfl, rfl, rfl, rfl, rfl, rfl, rfl, rfl⟩

theorem setCtx_keeps (s : State) (c : Nat) (x : Ctx) : Keeps s (setCtx s c x) := by
  unfold setCtx
  with_reducible exact keeps_mkc (Keeps.refl _) ⟨rfl, rfl, rfl, rfl, rfl, rfl, rfl, rfl⟩

theorem ctxIrq_keeps (c : Nat) (force : Bool) (s : State) : Keeps s (ctxIrq c force s) := by
  unfold ctxIrq
  extract_lets +onlyGivenNames x
  split
  · exact Keeps.refl _
  · extract_lets +onlyGivenNames x
    split
    · with_reducible refine Keeps.trans ?_ (sendMsix_keeps _ _)
      with_reducible refine setCtx_keeps _ _ _
    · with_reducible refine setCtx_keeps _ _ _

theorem putCompletion_keeps (c : Nat) (num : Nat) (force : Bool) (mk : Nat → Bytes) (s : State) : Keeps s (putCompletion c num force mk s) := by
  unfold putCompletion
  extract_lets +onlyGivenNames x
  clear_value x
  split
  · exact Keeps.refl _
  · extract_lets +onlyGivenNames x
    clear_value x
    extract_lets +onlyGivenNames x
    refine keeps_through (x := x) ?_ (fun hx => ?_)
    · with_reducible refine keeps_mkg (Keeps.refl _) ?_ ?_ ?_ ?_ ?_ ?_
      · exact memWrites_wf _ _
      · exact id
      · exact id
      · exact id
      · exact id
      · exact Nat.le_refl _
    · clear_value x
      extract_lets +onlyGivenNames x
      clear_value x
      extract_lets +onlyGivenNames x
      clear_value x
      with_reducible refine Keeps.trans ?_ (ctxIrq_keeps _ _ _)
      with_reducible refine Keeps.trans ?_ (setCtx_keeps _ _ _)
      exact hx

theorem complete_keeps (h : Hdr) (status : Nat) (flags : Nat) (aux0 : Nat) (aux1 : Nat) (frame : Option Nat) (s : State) : Keeps s (complete h status flags aux0 aux1 frame s) := by
  unfold complete
  extract_lets +onlyGivenNames x
  clear_value x
  extract_lets +onlyGivenNames x
  clear_value x
  split
  · extract_lets +onlyGivenNames x
    clear_value x
    with_reducible refine putCompletion_keeps _ _ _ _ _
  · with_reducible refine sendFlit_keeps _ _ _

theorem addWork_keeps (w : Work) (s : State) : Keeps s (addWork w s) := by
  unfold addWork
  with_reducible exact keeps_mkc (Keeps.refl _) ⟨rfl, rfl, rfl, rfl, rfl, rfl, rfl, rfl⟩

theorem dropWork_keeps (wid : Nat) (s : State) : Keeps s (dropWork wid s) := by
  unfold dropWork
  with_reducible exact keeps_mkc (Keeps.refl _) ⟨rfl, rfl, rfl, rfl, rfl, rfl, rfl, rfl⟩

theorem setItem_keeps (wid : Nat) (it : WorkItem) (s : State) : Keeps s (setItem wid it s) := by
  unfold setItem
  with_reducible exact keeps_mkc (Keeps.refl _) ⟨rfl, rfl, rfl, rfl, rfl, rfl, rfl, rfl⟩

theorem finishWork_keeps (w : Work) (status : Nat) (flags : Nat) (aux0 : Nat) (aux1 : Nat) (frame : Option Nat) (s : State) : Keeps s (finishWork w status flags aux0 aux1 frame s) := by
  unfold finishWork
  with_reducible refine Keeps.trans ?_ (dropWork_keeps _ _)
  with_reducible refine complete_keeps _ _ _ _ _ _ _

theorem logPut_keeps (digest : Nat) (frame : Nat) (tag : Nat) (object : Nat) (sub : Nat) (client : Nat) (dkind : Nat) (s : State) : Keeps s (logPut digest frame tag object sub client dkind s) := by
  unfold logPut
  extract_lets +onlyGivenNames x
  clear_value x
  extract_lets +onlyGivenNames x
  clear_value x
  extract_lets +onlyGivenNames x
  refine keeps_through (x := x) ?_ (fun hx => ?_)
  · with_reducible refine hostLog_keeps _ _ _
  · clear_value x
    with_reducible refine keeps_mkc ?_ ⟨rfl, rfl, rfl, rfl, rfl, rfl, rfl, rfl⟩
    exact hx

theorem logEntry_keeps (level : Nat) (digest : Nat) (frame : Nat) (tag : Nat) (object : Nat) (sub : Nat) (client : Nat) (dkind : Nat) (s : State) : Keeps s (logEntry level digest frame tag object sub client dkind s) := by
  unfold logEntry
  split
  · exact Keeps.refl _
  · extract_lets +onlyGivenNames x
    extract_lets +onlyGivenNames x
    split
    · with_reducible exact keeps_mkc (Keeps.refl _) ⟨rfl, rfl, rfl, rfl, rfl, rfl, rfl, rfl⟩
    · extract_lets +onlyGivenNames x
      refine keeps_through (x := x) ?_ (fun hx => ?_)
      · with_reducible refine logPut_keeps _ _ _ _ _ _ _ _
      · clear_value x
        extract_lets +onlyGivenNames x
        clear_value x
        extract_lets +onlyGivenNames x
        refine keeps_through (x := x) ?_ (fun hx => ?_)
        · unfold x
          split
          · exact Keeps.refl _
          · with_reducible refine keeps_mkc ?_ ⟨rfl, rfl, rfl, rfl, rfl, rfl, rfl, rfl⟩
            exact hx
        · clear_value x
          split
          · with_reducible refine keeps_mkc ?_ ⟨rfl, rfl, rfl, rfl, rfl, rfl, rfl, rfl⟩
            exact hx
          · with_reducible refine Keeps.trans ?_ (logPut_keeps _ _ _ _ _ _ _ _)
            exact hx

theorem logWork_keeps (w : Work) (level : Nat) (digest : Nat) (frame : Nat) (object : Nat) (sub : Nat) (dkind : Nat) (s : State) : Keeps s (logWork w level digest frame object sub dkind s) := by
  unfold logWork
  with_reducible refine logEntry_keeps _ _ _ _ _ _ _ _ _

theorem timingChoice_keeps (code : Nat) (object : Nat) (frame : Nat) (tag : Nat) (client : Nat) (s : State) : Keeps s (timingChoice code object frame tag client s) := by
  unfold timingChoice
  extract_lets +onlyGivenNames x
  clear_value x
  extract_lets +onlyGivenNames x
  clear_value x
  extract_lets +onlyGivenNames x
  extract_lets +onlyGivenNames x
  clear_value x
  with_reducible refine Keeps.trans ?_ (logEntry_keeps _ _ _ _ _ _ _ _ _)
  with_reducible exact keeps_mkc (Keeps.refl _) ⟨rfl, rfl, rfl, rfl, rfl, rfl, rfl, rfl⟩

theorem setSpare_keeps (q : Nat) (x : Spare) (s : State) : Keeps s (setSpare q x s) := by
  unfold setSpare
  with_reducible exact keeps_mkc (Keeps.refl _) ⟨rfl, rfl, rfl, rfl, rfl, rfl, rfl, rfl⟩

theorem keyWrite_keeps (s : State) (k : Nat) (b : Bytes) : Keeps s (keyWrite s k b) := by
  unfold keyWrite
  with_reducible refine keeps_mkg (Keeps.refl _) ?_ ?_ ?_ ?_ ?_ ?_
  · exact id
  · exact memWrites_wf _ _
  · exact id
  · exact id
  · exact id
  · exact Nat.le_refl _

theorem addPoison_keeps (s : State) (k : Nat) (n : Nat) (src : Nat) : Keeps s (addPoison s k n src) := by
  unfold addPoison
  with_reducible exact keeps_mkc (Keeps.refl _) ⟨rfl, rfl, rfl, rfl, rfl, rfl, rfl, rfl⟩

theorem setCore_keeps (c : CoreId) (x : CoreSt) (s : State) : Keeps s (setCore c x s) := by
  unfold setCore
  with_reducible exact keeps_mkc (Keeps.refl _) ⟨rfl, rfl, rfl, rfl, rfl, rfl, rfl, rfl⟩

theorem modFrame_keeps (f : Frame → Frame) (s : State) : Keeps s (modFrame f s) := by
  unfold modFrame
  split
  · with_reducible exact keeps_mkc (Keeps.refl _) ⟨rfl, rfl, rfl, rfl, rfl, rfl, rfl, rfl⟩
  · exact Keeps.refl _

theorem bumpFresh_keeps (s : State) : Keeps s (bumpFresh s) := by
  unfold bumpFresh
  with_reducible exact keeps_mkc (Keeps.refl _) ⟨rfl, rfl, rfl, rfl, rfl, rfl, rfl, rfl⟩

end Sys2Proof.Machine
end

