-- ==== Sys2Proof/Laws/KeepsFault.lean ====
section
/-! SUPPORT. Every operation of Sys2Proof/Machine/Fault.lean keeps what `Keeps` speaks of. -/

namespace Sys2Proof.Machine

theorem reportFaultN_keeps (old : Bool) (s : State) : Keeps s (reportFaultN old s) := by
  unfold reportFaultN
  split
  · exact Keeps.refl _
  · with_reducible refine sendFlit_keeps _ _ _

theorem assertSafeStop_keeps (s : State) : Keeps s (assertSafeStop s) := by
  unfold assertSafeStop
  with_reducible refine keeps_mkg (Keeps.refl _) ?_ ?_ ?_ ?_ ?_ ?_
  · exact id
  · exact id
  · (intro h; simp; done)
  · exact id
  · exact id
  · exact Nat.le_refl _

theorem fireWith_keeps (src : Nat) (n : NetRec) (s : State) : Keeps s (fireWith src n s) := by
  unfold fireWith
  extract_lets s1 n1 s2
  have h1 : Keeps s s1 := assertSafeStop_keeps s
  have h2 : Keeps s1 s2 := ⟨rfl, id, id, fun _ _ => ⟨rfl, rfl⟩, id, id, rfl, Nat.le_refl _⟩
  exact (h1.trans h2).trans (modFrame_keeps _ _)

theorem fireNet_keeps (src : Nat) (s : State) : Keeps s (fireNet src s) := by
  unfold fireNet
  split
  · split
    · with_reducible refine fireWith_keeps _ _ _
    · split
      · with_reducible refine fireWith_keeps _ _ _
      · exact Keeps.refl _
  · split
    · exact Keeps.refl _
    · with_reducible exact keeps_mkc (Keeps.refl _) ⟨rfl, rfl, rfl, rfl, rfl, rfl, rfl, rfl⟩

theorem cutOpt_keeps (wid : Nat) (idx : Nat) (s : State) : Keeps s (cutOpt wid idx s) := by
  unfold cutOpt
  split
  · exact Keeps.refl _
  · split
    · exact Keeps.refl _
    · extract_lets +onlyGivenNames x
      refine keeps_through (x := x) ?_ (fun hx => ?_)
      · with_reducible exact keeps_mkc (Keeps.refl _) ⟨rfl, rfl, rfl, rfl, rfl, rfl, rfl, rfl⟩
      · clear_value x
        split
        · exact hx
        · split
          · with_reducible refine Keeps.trans ?_ (timingChoice_keeps _ _ _ _ _ _)
            with_reducible refine Keeps.trans ?_ (setItem_keeps _ _ _)
            exact hx
          · with_reducible refine Keeps.trans ?_ (timingChoice_keeps _ _ _ _ _ _)
            with_reducible refine Keeps.trans ?_ (modFrame_keeps _ _)
            exact hx

theorem abortFrameRun_keeps (status : Nat) (aux0 : Nat) (s : State) : Keeps s (abortFrameRun status aux0 s) := by
  unfold abortFrameRun
  split
  · exact Keeps.refl _
  · split
    · exact Keeps.refl _
    · extract_lets +onlyGivenNames x
      refine keeps_through (x := x) ?_ (fun hx => ?_)
      · unfold x
        split
        · with_reducible refine finishWork_keeps _ _ _ _ _ _ _
        · exact Keeps.refl _
      · clear_value x
        extract_lets +onlyGivenNames x
        clear_value x
        extract_lets +onlyGivenNames x
        refine keeps_through (x := x) ?_ (fun hx => ?_)
        · with_reducible refine keeps_mkc ?_ ⟨rfl, rfl, rfl, rfl, rfl, rfl, rfl, rfl⟩
          exact hx
        · clear_value x
          with_reducible refine Keeps.trans ?_ (modFrame_keeps _ _)
          exact hx

theorem netOutcome_keeps (n : NetRun) (s : State) : Keeps s (netOutcome n s) := by
  unfold netOutcome
  split
  · exact Keeps.refl _
  · split
    · split
      · with_reducible exact keeps_mkc (Keeps.refl _) ⟨rfl, rfl, rfl, rfl, rfl, rfl, rfl, rfl⟩
      · with_reducible refine modFrame_keeps _ _
      · exact Keeps.refl _
    · exact Keeps.refl _

theorem restartSolo_keeps (r : RemUnit) (s : State) : Keeps s (restartSolo r s) := by
  unfold restartSolo
  extract_lets +onlyGivenNames x
  extract_lets +onlyGivenNames x
  extract_lets +onlyGivenNames x
  extract_lets +onlyGivenNames x
  extract_lets +onlyGivenNames x
  with_reducible exact keeps_mkc (Keeps.refl _) ⟨rfl, rfl, rfl, rfl, rfl, rfl, rfl, rfl⟩

theorem stopNets_keeps (r : RemUnit) (s : State) : Keeps s (stopNets r s) := by
  unfold stopNets
  extract_lets +onlyGivenNames x
  clear_value x
  extract_lets +onlyGivenNames x
  refine keeps_through (x := x) ?_ (fun hx => ?_)
  · refine keeps_foldl (Keeps.refl _) (fun s x hs => ?_)
    with_reducible refine Keeps.trans ?_ (netOutcome_keeps _ _)
    exact hs
  · clear_value x
    with_reducible refine keeps_mkc ?_ ⟨rfl, rfl, rfl, rfl, rfl, rfl, rfl, rfl⟩
    exact hx

theorem faultFrame_keeps (r : RemUnit) (s : State) : Keeps s (faultFrame r s) := by
  unfold faultFrame
  extract_lets +onlyGivenNames x
  refine keeps_through (x := x) ?_ (fun hx => ?_)
  · with_reducible refine restartSolo_keeps _ _
  · clear_value x
    split
    · with_reducible refine Keeps.trans ?_ (stopNets_keeps _ _)
      exact hx
    · extract_lets +onlyGivenNames x
      clear_value x
      extract_lets +onlyGivenNames x
      clear_value x
      extract_lets +onlyGivenNames x
      refine keeps_through (x := x) ?_ (fun hx => ?_)
      · with_reducible refine Keeps.trans ?_ (modFrame_keeps _ _)
        exact hx
      · clear_value x
        extract_lets +onlyGivenNames x
        clear_value x
        extract_lets +onlyGivenNames x
        refine keeps_through (x := x) ?_ (fun hx => ?_)
        · with_reducible refine Keeps.trans ?_ (modFrame_keeps _ _)
          exact hx
        · clear_value x
          extract_lets +onlyGivenNames x
          clear_value x
          extract_lets +onlyGivenNames x
          refine keeps_through (x := x) ?_ (fun hx => ?_)
          · unfold x
            split
            · with_reducible refine keeps_mkc ?_ ⟨rfl, rfl, rfl, rfl, rfl, rfl, rfl, rfl⟩
              assumption
            · with_reducible refine keeps_mkc ?_ ⟨rfl, rfl, rfl, rfl, rfl, rfl, rfl, rfl⟩
              exact hx
          · clear_value x
            extract_lets +onlyGivenNames x
            clear_value x
            with_reducible refine Keeps.trans ?_ (stopNets_keeps _ _)
            refine keeps_foldl ?_ (fun s x hs => ?_)
            · exact hx
            · with_reducible refine Keeps.trans ?_ (cutOpt_keeps _ _ _)
              exact hs

theorem logFault_keeps (r : FRec) (s : State) : Keeps s (logFault r s) := by
  unfold logFault
  with_reducible exact keeps_mkc (Keeps.refl _) ⟨rfl, rfl, rfl, rfl, rfl, rfl, rfl, rfl⟩

theorem logAction_keeps (kind : Nat) (src : Nat) (syn : Nat) (s : State) : Keeps s (logAction kind src syn s) := by
  unfold logAction
  with_reducible refine logFault_keeps _ _

theorem fenceCluster_keeps (q : Nat) (src : Nat) (s : State) : Keeps s (fenceCluster q src s) := by
  unfold fenceCluster
  split
  · exact Keeps.refl _
  · extract_lets +onlyGivenNames x
    clear_value x
    extract_lets +onlyGivenNames x
    refine keeps_through (x := x) ?_ (fun hx => ?_)
    · with_reducible exact keeps_mkc (Keeps.refl _) ⟨rfl, rfl, rfl, rfl, rfl, rfl, rfl, rfl⟩
    · clear_value x
      extract_lets +onlyGivenNames x
      refine keeps_through (x := x) ?_ (fun hx => ?_)
      · unfold x
        split
        · with_reducible refine Keeps.trans ?_ (setSpare_keeps _ _ _)
          exact hx
        · with_reducible refine Keeps.trans ?_ (setSpare_keeps _ _ _)
          exact hx
        · with_reducible assumption
      · clear_value x
        with_reducible refine Keeps.trans ?_ (faultFrame_keeps _ _)
        with_reducible refine Keeps.trans ?_ (logAction_keeps _ _ _ _)
        exact hx

theorem fenceCore_keeps (q : Nat) (p : Nat) (src : Nat) (s : State) : Keeps s (fenceCore q p src s) := by
  unfold fenceCore
  split
  · exact Keeps.refl _
  · split
    · extract_lets +onlyGivenNames x
      clear_value x
      extract_lets +onlyGivenNames x
      refine keeps_through (x := x) ?_ (fun hx => ?_)
      · with_reducible refine setSpare_keeps _ _ _
      · clear_value x
        extract_lets +onlyGivenNames x
        clear_value x
        extract_lets +onlyGivenNames x
        refine keeps_through (x := x) ?_ (fun hx => ?_)
        · with_reducible refine keeps_mkc ?_ ⟨rfl, rfl, rfl, rfl, rfl, rfl, rfl, rfl⟩
          exact hx
        · clear_value x
          with_reducible refine Keeps.trans ?_ (faultFrame_keeps _ _)
          with_reducible refine Keeps.trans ?_ (logAction_keeps _ _ _ _)
          exact hx
    · with_reducible refine fenceCluster_keeps _ _ _

theorem fenceEngine_keeps (q : Nat) (p : Nat) (g : Nat) (src : Nat) (s : State) : Keeps s (fenceEngine q p g src s) := by
  unfold fenceEngine
  split
  · exact Keeps.refl _
  · extract_lets +onlyGivenNames x
    clear_value x
    extract_lets +onlyGivenNames x
    refine keeps_through (x := x) ?_ (fun hx => ?_)
    · with_reducible exact keeps_mkc (Keeps.refl _) ⟨rfl, rfl, rfl, rfl, rfl, rfl, rfl, rfl⟩
    · clear_value x
      with_reducible refine Keeps.trans ?_ (faultFrame_keeps _ _)
      with_reducible refine Keeps.trans ?_ (logAction_keeps _ _ _ _)
      exact hx

theorem spareBroken_keeps (q : Nat) (i : Nat) (syn : Nat) (s : State) : Keeps s (spareBroken q i syn s) := by
  unfold spareBroken
  split
  · with_reducible refine Keeps.trans ?_ (logAction_keeps _ _ _ _)
    with_reducible exact keeps_mkc (Keeps.refl _) ⟨rfl, rfl, rfl, rfl, rfl, rfl, rfl, rfl⟩
  · exact Keeps.refl _

theorem fenceTested_keeps (q : Nat) (phys : Nat) (i : Nat) (syn : Nat) (s : State) : Keeps s (fenceTested q phys i syn s) := by
  unfold fenceTested
  extract_lets +onlyGivenNames x
  clear_value x
  split
  · with_reducible refine fenceCluster_keeps _ _ _
  · split
    · with_reducible refine spareBroken_keeps _ _ _ _
    · split
      · with_reducible refine fenceCore_keeps _ _ _ _
      · exact Keeps.refl _

theorem applyFence_keeps (i : Nat) (syn : Nat) (s : State) : Keeps s (applyFence i syn s) := by
  unfold applyFence
  split
  · extract_lets +onlyGivenNames x
    clear_value x
    split
    · split
      · with_reducible refine spareBroken_keeps _ _ _ _
      · with_reducible refine fenceCore_keeps _ _ _ _
    · split
      · with_reducible refine fenceEngine_keeps _ _ _ _ _
      · with_reducible refine fenceCluster_keeps _ _ _
  · split
    · extract_lets +onlyGivenNames x
      clear_value x
      extract_lets +onlyGivenNames x
      clear_value x
      extract_lets +onlyGivenNames x
      clear_value x
      split
      · exact Keeps.refl _
      · split
        · with_reducible refine fenceTested_keeps _ _ _ _ _
        · with_reducible refine fenceCluster_keeps _ _ _
    · exact Keeps.refl _

theorem dropTraces_keeps (wid : Nat) (s : State) : Keeps s (dropTraces wid s) := by
  unfold dropTraces
  with_reducible refine Keeps.trans ?_ (modFrame_keeps _ _)
  with_reducible exact keeps_mkc (Keeps.refl _) ⟨rfl, rfl, rfl, rfl, rfl, rfl, rfl, rfl⟩

theorem abortWork_keeps (status : Nat) (aux0 : Nat) (s : State) (w : Work) : Keeps s (abortWork status aux0 s w) := by
  unfold abortWork
  with_reducible refine Keeps.trans ?_ (dropTraces_keeps _ _)
  with_reducible refine finishWork_keeps _ _ _ _ _ _ _

theorem abortAll_keeps (status : Nat) (aux0 : Nat) (keep : Work → Bool) (s : State) : Keeps s (abortAll status aux0 keep s) := by
  unfold abortAll
  refine keeps_foldl (Keeps.refl _) (fun s x hs => ?_)
  with_reducible refine Keeps.trans ?_ (abortWork_keeps _ _ _ _)
  exact hs

theorem abortDiags_keeps (gone : Nat → Bool) (status : Nat) (aux0 : Nat) (s : State) : Keeps s (abortDiags gone status aux0 s) := by
  unfold abortDiags
  refine keeps_foldl (Keeps.refl _) (fun s x hs => ?_)
  split
  · split
    · with_reducible refine Keeps.trans ?_ (finishWork_keeps _ _ _ _ _ _ _)
      exact hs
    · exact hs
  · exact hs

theorem abortForwarded_keeps (unit : Nat) (status : Nat) (aux0 : Nat) (s : State) : Keeps s (abortForwarded unit status aux0 s) := by
  unfold abortForwarded
  extract_lets +onlyGivenNames x
  extract_lets +onlyGivenNames x
  clear_value x
  extract_lets +onlyGivenNames x
  clear_value x
  extract_lets +onlyGivenNames x
  refine keeps_through (x := x) ?_ (fun hx => ?_)
  · refine keeps_foldl (Keeps.refl _) (fun s x hs => ?_)
    with_reducible refine Keeps.trans ?_ (complete_keeps _ _ _ _ _ _ _)
    exact hs
  · clear_value x
    extract_lets +onlyGivenNames x
    refine keeps_through (x := x) ?_ (fun hx => ?_)
    · with_reducible refine Keeps.trans ?_ (abortDiags_keeps _ _ _ _)
      exact hx
    · clear_value x
      with_reducible refine keeps_mkc ?_ ⟨rfl, rfl, rfl, rfl, rfl, rfl, rfl, rfl⟩
      exact hx

theorem loseBeyond_keeps (status : Nat) (src : Nat) (s : State) : Keeps s (loseBeyond status src s) := by
  unfold loseBeyond
  split
  · with_reducible refine abortForwarded_keeps _ _ _ _
  · split
    · with_reducible refine Keeps.trans ?_ (sendFlit_keeps _ _ _)
      with_reducible refine abortDiags_keeps _ _ _ _
    · exact Keeps.refl _

theorem beginBlockReset_keeps (i : Nat) (s : State) : Keeps s (beginBlockReset i s) := by
  unfold beginBlockReset
  split
  · exact Keeps.refl _
  · split
    · exact Keeps.refl _
    · extract_lets +onlyGivenNames x
      extract_lets +onlyGivenNames x
      extract_lets +onlyGivenNames x
      refine keeps_through (x := x) ?_ (fun hx => ?_)
      · with_reducible exact keeps_mkc (Keeps.refl _) ⟨rfl, rfl, rfl, rfl, rfl, rfl, rfl, rfl⟩
      · clear_value x
        split
        · with_reducible refine Keeps.trans ?_ (faultFrame_keeps _ _)
          exact hx
        · with_reducible refine keeps_mkg ?_ ?_ ?_ ?_ ?_ ?_ ?_
          · exact hx
          · exact id
          · exact id
          · (intro h; split <;> exact h)
          · exact id
          · exact id
          · exact Nat.le_refl _
        · with_reducible refine Keeps.trans ?_ (loseBeyond_keeps _ _ _)
          exact hx
        · extract_lets +onlyGivenNames x
          refine keeps_through (x := x) ?_ (fun hx => ?_)
          · with_reducible refine Keeps.trans ?_ (abortAll_keeps _ _ _ _)
            exact hx
          · clear_value x
            extract_lets +onlyGivenNames x
            clear_value x
            extract_lets +onlyGivenNames x
            refine keeps_through (x := x) ?_ (fun hx => ?_)
            · unfold x
              split
              · with_reducible refine keeps_mkc ?_ ⟨rfl, rfl, rfl, rfl, rfl, rfl, rfl, rfl⟩
                exact hx
              · exact hx
            · clear_value x
              split
              · split
                · with_reducible refine Keeps.trans ?_ (abortFrameRun_keeps _ _ _)
                  exact hx
                · exact hx
              · exact hx
        · exact hx

/-- A default row in range. -/
def rowOk (r : Option (Nat × Nat × Nat × Nat)) : Prop := ∀ x, r = some x → x.1 ≤ 255 ∧ x.2.1 ≤ 24

theorem rowOk_none : rowOk none := nofun

theorem rowOk_some {a b c d : Nat} (h : a ≤ 255 ∧ b ≤ 24) : rowOk (some (a, b, c, d)) := by rintro _ ⟨⟩; exact h

theorem rowOk_ite {p : Prop} {i : Decidable p} {x y : Option (Nat × Nat × Nat × Nat)} (hx : rowOk x) (hy : rowOk y) :
    rowOk (@ite _ p i x y) := by
  by_cases h : p
  · rwa [if_pos h]
  · rwa [if_neg h]

theorem srcDefault_ok (i : Nat) : rowOk (srcDefault i) := by
  unfold srcDefault
  dsimp only
  repeat' first | exact rowOk_none | exact rowOk_some (by decide) | refine rowOk_ite ?_ ?_ | split

theorem srcReset_ok (i : Nat) : SrcOk (Src.reset i) := by
  unfold Src.reset
  split
  · exact ⟨Nat.zero_le _, Nat.zero_le _, srcDefault_ok i _ (by assumption)⟩
  · exact ⟨Nat.zero_le _, Nat.zero_le _, Nat.zero_le _, Nat.zero_le _⟩

theorem reset_srcsOk : SrcsOk State.reset.fault.srcs := by
  refine ⟨by simp [State.reset], fun x hx => ?_⟩
  have hx : x ∈ (List.range 416).map Src.reset := hx
  rw [List.mem_map] at hx
  obtain ⟨i, _, rfl⟩ := hx
  exact srcReset_ok i

theorem resetFaultC_srcsOk {f : FaultC} (h : SrcsOk f.srcs) : SrcsOk (resetFaultC f).srcs := by
  refine ⟨by simp [resetFaultC, h.1], fun x hx => ?_⟩
  simp only [resetFaultC] at hx
  obtain ⟨i, hi, rfl⟩ := List.mem_iff_getElem.1 hx
  simp only [List.getElem_zipWith]
  have h1 := h.2 _ (List.getElem_mem (by simpa [resetFaultC, h.1] using hi : i < f.srcs.length))
  have h2 := srcReset_ok ((List.range 416)[i]'(by simpa [resetFaultC, h.1] using hi))
  exact ⟨h1.1, h1.2.1, h2.2.2⟩

theorem chipReset_keeps (cause : Nat) (s : State) : Keeps s (chipReset cause s) :=
  ⟨rfl, id, fun _ => rfl, fun _ _ => ⟨rfl, rfl⟩, resetFaultC_srcsOk, fun _ => (by decide : 90 ≤ 180 ∧ 180 ≤ 240 ∧ 90 ≤ 180 ∧ 180 ≤ 240), rfl, Nat.le_refl _⟩

theorem ite_min_le {c : Prop} {i : Decidable c} {n : Nat} : @ite _ c i 1 (min n 255) ≤ 255 := by
  by_cases h : c
  · rw [if_pos h]; decide
  · rw [if_neg h]; exact Nat.min_le_right _ _

theorem setSrc_keeps (i : Nat) (x : Src) (s : State) (h : SrcsOk s.fault.srcs → SrcOk x) : Keeps s (setSrc i x s) :=
  ⟨rfl, id, id, id, fun g => modifyAt_srcs i x g (h g), id, rfl, Nat.le_refl _⟩

theorem srcOf_ok {s : State} (h : SrcsOk s.fault.srcs) (i : Nat) : SrcOk (srcOf s i) := by
  unfold srcOf
  rw [List.getD_eq_getElem?_getD]
  cases hh : s.fault.srcs[i]? with
  | none => simp [SrcOk]
  | some y => exact h.2 y (List.mem_of_getElem? hh)

theorem react_keeps (r : Nat) (i : Nat) (syn : Nat) (severe : Bool) (s : State) : Keeps s (react r i syn severe s) := by
  unfold react
  extract_lets +onlyGivenNames x
  refine keeps_through (x := x) ?_ (fun hx => ?_)
  · unfold x
    split
    · with_reducible refine fireNet_keeps _ _
    · exact Keeps.refl _
  · clear_value x
    extract_lets +onlyGivenNames x
    refine keeps_through (x := x) ?_ (fun hx => ?_)
    · unfold x
      split
      · with_reducible refine Keeps.trans ?_ (applyFence_keeps _ _ _)
        exact hx
      · exact hx
    · clear_value x
      extract_lets +onlyGivenNames x
      extract_lets +onlyGivenNames x
      refine keeps_through (x := x) ?_ (fun hx => ?_)
      · unfold x
        split
        · with_reducible refine keeps_mkc ?_ ⟨rfl, rfl, rfl, rfl, rfl, rfl, rfl, rfl⟩
          exact hx
        · exact hx
      · clear_value x
        extract_lets +onlyGivenNames x
        refine keeps_through (x := x) ?_ (fun hx => ?_)
        · unfold x
          split
          · with_reducible refine Keeps.trans ?_ (sendMsix_keeps _ _)
            exact hx
          · exact hx
        · clear_value x
          extract_lets +onlyGivenNames x
          refine keeps_through (x := x) ?_ (fun hx => ?_)
          · unfold x
            split
            · with_reducible refine Keeps.trans ?_ (beginBlockReset_keeps _ _)
              exact hx
            · exact hx
          · clear_value x
            split
            · with_reducible refine Keeps.trans ?_ (chipReset_keeps _ _)
              exact hx
            · exact hx

theorem latchEvent_keeps (canLatch : Bool) (r : FRec) (s : State) : Keeps s (latchEvent canLatch r s) := by
  unfold latchEvent
  split
  · with_reducible exact keeps_mkc (Keeps.refl _) ⟨rfl, rfl, rfl, rfl, rfl, rfl, rfl, rfl⟩
  · split
    · with_reducible exact keeps_mkc (Keeps.refl _) ⟨rfl, rfl, rfl, rfl, rfl, rfl, rfl, rfl⟩
    · exact Keeps.refl _

theorem takeEvent_keeps (i addr syn : Nat) (s : State) : Keeps s (takeEvent i addr syn s) := by
  unfold takeEvent
  extract_lets x cfg total opened win count severe r old s1 ev s2 s3
  split
  · exact Keeps.refl s
  · have h1 : Keeps s s1 := setSrc_keeps _ _ s fun h => ⟨ite_min_le, Nat.min_le_right _ _, (srcOf_ok h i).2.2⟩
    have h2 : Keeps s s2 := h1.trans (latchEvent_keeps _ _ _)
    have h3 : Keeps s s3 := keeps_ite (fun _ => h2) (fun _ => h2.trans (logFault_keeps _ _))
    exact (h3.trans (reportFaultN_keeps _ _)).trans (react_keeps _ _ _ _ _)

theorem raise_keeps (i : Nat) (addr : Nat) (syn : Nat) (s : State) : Keeps s (raise i addr syn s) := by
  unfold raise
  split
  · exact Keeps.refl _
  · with_reducible refine takeEvent_keeps _ _ _ _

theorem raiseLevel_keeps (i : Nat) (addr : Nat) (syn : Nat) (s : State) : Keeps s (raiseLevel i addr syn s) := by
  unfold raiseLevel
  split
  · exact Keeps.refl _
  · with_reducible refine Keeps.trans ?_ (raise_keeps _ _ _ _)
    with_reducible exact keeps_mkc (Keeps.refl _) ⟨rfl, rfl, rfl, rfl, rfl, rfl, rfl, rfl⟩

theorem endLevel_keeps (i : Nat) (s : State) : Keeps s (endLevel i s) := by
  unfold endLevel
  with_reducible exact keeps_mkc (Keeps.refl _) ⟨rfl, rfl, rfl, rfl, rfl, rfl, rfl, rfl⟩

theorem escalate_keeps (i : Nat) (syn : Nat) (s : State) : Keeps s (escalate i syn s) := by
  unfold escalate
  extract_lets +onlyGivenNames x
  split
  · exact Keeps.refl _
  · extract_lets +onlyGivenNames x
    clear_value x
    extract_lets +onlyGivenNames x
    refine keeps_through (x := x) ?_ (fun hx => ?_)
    · with_reducible refine setSrc_keeps _ _ _ ?_
      exact fun h => srcOf_ok h _
    · clear_value x
      extract_lets +onlyGivenNames x
      refine keeps_through (x := x) ?_ (fun hx => ?_)
      · with_reducible refine Keeps.trans ?_ (logFault_keeps _ _)
        exact hx
      · clear_value x
        with_reducible refine Keeps.trans ?_ (react_keeps _ _ _ _ _)
        with_reducible refine Keeps.trans ?_ (reportFaultN_keeps _ _)
        exact hx

theorem clearBefore_keeps (i : Nat) (x : Src) (s : State) (hx : SrcsOk s.fault.srcs → SrcOk x) : Keeps s (clearBefore i x s) := by
  unfold clearBefore
  extract_lets severe s1
  have h : Keeps s s1 := setSrc_keeps _ _ _ (fun g => ⟨by show 1 ≤ 255; decide, (hx g).2⟩)
  split
  · exact h.trans (logAction_keeps _ _ _ _)
  · exact h

theorem levelAgain_keeps (i : Nat) (s : State) : Keeps s (levelAgain i s) := by
  unfold levelAgain
  extract_lets +onlyGivenNames x
  refine keeps_through (x := x) ?_ (fun hx => ?_)
  · with_reducible refine Keeps.trans ?_ (takeEvent_keeps _ _ _ _)
    with_reducible exact keeps_mkc (Keeps.refl _) ⟨rfl, rfl, rfl, rfl, rfl, rfl, rfl, rfl⟩
  · clear_value x
    split
    · with_reducible refine keeps_mkc ?_ ⟨rfl, rfl, rfl, rfl, rfl, rfl, rfl, rfl⟩
      exact hx
    · exact hx

theorem clearSource_keeps (i : Nat) (s : State) : Keeps s (clearSource i s) := by
  unfold clearSource
  extract_lets +onlyGivenNames x
  split
  · exact Keeps.refl _
  · extract_lets +onlyGivenNames x
    clear_value x
    split
    · with_reducible refine Keeps.trans ?_ (reportFaultN_keeps _ _)
      with_reducible refine clearBefore_keeps _ _ _ ?_
      exact fun h => srcOf_ok h _
    · extract_lets +onlyGivenNames x
      refine keeps_through (x := x) ?_ (fun hx => ?_)
      · with_reducible refine setSrc_keeps _ _ _ ?_
        exact fun h => ⟨Nat.zero_le _, (srcOf_ok h _).2⟩
      · clear_value x
        extract_lets +onlyGivenNames x
        refine keeps_through (x := x) ?_ (fun hx => ?_)
        · with_reducible refine Keeps.trans ?_ (reportFaultN_keeps _ _)
          with_reducible refine Keeps.trans ?_ (logAction_keeps _ _ _ _)
          exact hx
        · clear_value x
          split
          · with_reducible refine Keeps.trans ?_ (levelAgain_keeps _ _)
            exact hx
          · exact hx

theorem clearWord_keeps (word : Nat) (val : Nat) (s : State) : Keeps s (clearWord word val s) := by
  unfold clearWord
  refine keeps_foldl (Keeps.refl _) (fun s x hs => ?_)
  split
  · with_reducible refine Keeps.trans ?_ (clearSource_keeps _ _)
    exact hs
  · exact hs

theorem ringSend_keeps (dir : Nat) (a : Nat) (s : State) : Keeps s (ringSend dir a s) := by
  unfold ringSend
  extract_lets +onlyGivenNames x
  clear_value x
  extract_lets +onlyGivenNames x
  clear_value x
  with_reducible exact keeps_mkc (Keeps.refl _) ⟨rfl, rfl, rfl, rfl, rfl, rfl, rfl, rfl⟩

theorem ringSends_keeps (dir : Nat) (a : Nat) (k : Nat) (s : State) : Keeps s (ringSends dir a k s) := by
  unfold ringSends
  refine keeps_foldl (Keeps.refl _) (fun s x hs => ?_)
  with_reducible refine Keeps.trans ?_ (ringSend_keeps _ _ _)
  exact hs

theorem ringResend_keeps (dir : Nat) (lost : List Nat) (s : State) : Keeps s (ringResend dir lost s) := by
  unfold ringResend
  extract_lets d un got next
  split
  with_reducible exact keeps_mkc (Keeps.refl _) ⟨rfl, rfl, rfl, rfl, rfl, rfl, rfl, rfl⟩

theorem ringFail_keeps (link : Nat) (lostA lostB : List Nat) (s : State) : Keeps s (ringFail link lostA lostB s) := by
  unfold ringFail
  split
  · exact Keeps.refl _
  · extract_lets s1
    have h : Keeps s s1 := (ringResend_keeps _ _ _).trans (ringResend_keeps _ _ _)
    with_reducible exact keeps_mkc h ⟨rfl, rfl, rfl, rfl, rfl, rfl, rfl, rfl⟩

theorem ringReport_keeps (i : Nat) (syn : Nat) (s : State) : Keeps s (ringReport i syn s) := by
  unfold ringReport
  split
  · extract_lets +onlyGivenNames x
    with_reducible refine ringFail_keeps _ _ _ _
  · exact Keeps.refl _

theorem report_keeps (i : Nat) (addr : Nat) (syn : Nat) (s : State) : Keeps s (report i addr syn s) := by
  unfold report
  split
  · with_reducible refine Keeps.trans ?_ (raise_keeps _ _ _ _)
    with_reducible refine ringReport_keeps _ _ _
  · extract_lets +onlyGivenNames x
    refine keeps_through (x := x) ?_ (fun hx => ?_)
    · with_reducible refine raiseLevel_keeps _ _ _ _
    · clear_value x
      split
      · with_reducible refine Keeps.trans ?_ (abortAll_keeps _ _ _ _)
        with_reducible refine Keeps.trans ?_ (abortFrameRun_keeps _ _ _)
        exact hx
      · exact hx

theorem execFaultEvent_keeps (t : Nat) (src : Nat) (addr : Nat) (syn : Nat) (s : State) {t' : State}  (h : execFaultEvent t src addr syn s = .next t') : Keeps s t' := by
  unfold execFaultEvent at h
  refine runAt_keeps (fun s => ?_) h
  with_reducible refine report_keeps _ _ _ _

theorem execLevelSourceBegin_keeps (t : Nat) (src : Nat) (addr : Nat) (syn : Nat) (ended : List Nat) (s : State) {t' : State}  (h : execLevelSourceBegin t src addr syn ended s = .next t') : Keeps s t' := by
  unfold execLevelSourceBegin at h
  refine runAt_keeps (fun s => ?_) h
  with_reducible refine Keeps.trans ?_ (report_keeps _ _ _ _)
  refine keeps_foldl (Keeps.refl _) (fun s x hs => ?_)
  with_reducible refine Keeps.trans ?_ (endLevel_keeps _ _)
  exact hs

theorem execBlockResetDone_keeps (t : Nat) (b : Blk) (s : State) {t' : State}  (h : execBlockResetDone t b s = .next t') : Keeps s t' := by
  unfold execBlockResetDone at h
  refine runAt_keeps (fun s => ?_) h
  split
  · exact Keeps.refl _
  · split
    · with_reducible exact keeps_mkc (Keeps.refl _) ⟨rfl, rfl, rfl, rfl, rfl, rfl, rfl, rfl⟩
    · extract_lets +onlyGivenNames x
      extract_lets +onlyGivenNames x
      refine keeps_through (x := x) ?_ (fun hx => ?_)
      · with_reducible exact keeps_mkc (Keeps.refl _) ⟨rfl, rfl, rfl, rfl, rfl, rfl, rfl, rfl⟩
      · clear_value x
        split
        · with_reducible refine keeps_mkg ?_ ?_ ?_ ?_ ?_ ?_ ?_
          · exact hx
          · exact id
          · exact id
          · (intro h; split <;> exact h)
          · exact id
          · exact id
          · exact Nat.le_refl _
        · exact hx

theorem execSpareLoadDone_keeps (t : Nat) (q : Nat) (s : State) {t' : State}  (h : execSpareLoadDone t q s = .next t') : Keeps s t' := by
  unfold execSpareLoadDone at h
  refine runAt_keeps (fun s => ?_) h
  split
  · extract_lets +onlyGivenNames x
    refine keeps_through (x := x) ?_ (fun hx => ?_)
    · with_reducible refine setSpare_keeps _ _ _
    · clear_value x
      with_reducible refine keeps_mkc ?_ ⟨rfl, rfl, rfl, rfl, rfl, rfl, rfl, rfl⟩
      exact hx
  · exact Keeps.refl _

theorem execFaultStickyClear_keeps (t : Nat) (word : Nat) (val : Nat) (s : State) {t' : State}  (h : execFaultStickyClear t word val s = .next t') : Keeps s t' := by
  unfold execFaultStickyClear at h
  refine runAt_keeps (fun s => ?_) h
  with_reducible refine clearWord_keeps _ _ _

theorem clearLatch_keeps (s : State) : Keeps s (clearLatch s) := by
  unfold clearLatch
  with_reducible exact keeps_mkc (Keeps.refl _) ⟨rfl, rfl, rfl, rfl, rfl, rfl, rfl, rfl⟩

theorem execFflClear_keeps (t : Nat) (s : State) {t' : State}  (h : execFflClear t s = .next t') : Keeps s t' := by
  unfold execFflClear at h
  refine runAt_keeps (fun s => ?_) h
  with_reducible refine clearLatch_keeps _

theorem writeSrcCfg_keeps (val : Nat) (s : State) : Keeps s (writeSrcCfg val s) := by
  have hn : bitsOf val 2 8 ≤ 255 := Nat.le_of_lt_succ (Nat.mod_lt _ (by decide))
  unfold writeSrcCfg
  dsimp only
  split
  · exact keeps_mkc (Keeps.refl _) ⟨rfl, rfl, rfl, rfl, rfl, rfl, rfl, rfl⟩
  · split
    · exact keeps_mkc (Keeps.refl _) ⟨rfl, rfl, rfl, rfl, rfl, rfl, rfl, rfl⟩
    · refine keeps_mkc (setSrc_keeps _ _ s fun h => ?_) ⟨rfl, rfl, rfl, rfl, rfl, rfl, rfl, rfl⟩
      have hx := srcOf_ok h s.fault.sel
      refine ⟨hx.1, hx.2.1, ?_, ?_⟩
      · dsimp only; split
        · exact hx.2.2.1
        · exact hn
      · dsimp only; split
        · exact hx.2.2.2
        · simp_all

theorem execFaultSrcCfgWrite_keeps (t : Nat) (val : Nat) (s : State) {t' : State}  (h : execFaultSrcCfgWrite t val s = .next t') : Keeps s t' := by
  unfold execFaultSrcCfgWrite at h
  refine runAt_keeps (fun s => ?_) h
  with_reducible refine writeSrcCfg_keeps _ _

end Sys2Proof.Machine
end

