-- ==== Sys2Proof/Laws/KeepsHost.lean ====
section
/-! SUPPORT. Every operation of Sys2Proof/Machine/Host.lean keeps what `Keeps` speaks of. -/

namespace Sys2Proof.Machine

theorem setRefused_keeps (b : Bool) (s : State) : Keeps s (setRefused b s) := by
  unfold setRefused
  with_reducible exact keeps_mkc (Keeps.refl _) ⟨rfl, rfl, rfl, rfl, rfl, rfl, rfl, rfl⟩

theorem ctxCommand_keeps (dur : Nat) (f : Nat → Ctx → State → State) (s : State) (hf : ∀ i x s, Keeps s (f i x s)) : Keeps s (ctxCommand dur f s) := by
  unfold ctxCommand
  split
  · exact Keeps.refl _
  · split
    · with_reducible exact keeps_mkc (Keeps.refl _) ⟨rfl, rfl, rfl, rfl, rfl, rfl, rfl, rfl⟩
    · split
      · with_reducible exact keeps_mkc (Keeps.refl _) ⟨rfl, rfl, rfl, rfl, rfl, rfl, rfl, rfl⟩
      · extract_lets +onlyGivenNames x
        clear_value x
        extract_lets +onlyGivenNames x
        refine keeps_through (x := x) ?_ (fun hx => ?_)
        · with_reducible exact keeps_mkc (Keeps.refl _) ⟨rfl, rfl, rfl, rfl, rfl, rfl, rfl, rfl⟩
        · clear_value x
          with_reducible refine Keeps.trans ?_ (hf _ _ _)
          exact hx

theorem ctxDoWrite_keeps (i : Nat) (x : Ctx) (s : State) : Keeps s (ctxDoWrite i x s) := by
  unfold ctxDoWrite
  split
  · with_reducible refine setRefused_keeps _ _
  · with_reducible refine setCtx_keeps _ _ _

theorem ctxDoRead_keeps (_i : Nat) (x : Ctx) (s : State) : Keeps s (ctxDoRead _i x s) := by
  unfold ctxDoRead
  with_reducible exact keeps_mkc (Keeps.refl _) ⟨rfl, rfl, rfl, rfl, rfl, rfl, rfl, rfl⟩

theorem ctxDoEnable_keeps (i : Nat) (x : Ctx) (s : State) : Keeps s (ctxDoEnable i x s) := by
  unfold ctxDoEnable
  split
  · with_reducible refine setRefused_keeps _ _
  · extract_lets +onlyGivenNames x
    clear_value x
    split
    · with_reducible refine setCtx_keeps _ _ _
    · with_reducible refine Keeps.trans ?_ (setRefused_keeps _ _)
      with_reducible refine setCtx_keeps _ _ _

theorem ctxDoDisable_keeps (i : Nat) (x : Ctx) (s : State) : Keeps s (ctxDoDisable i x s) := by
  unfold ctxDoDisable
  split
  · with_reducible refine setRefused_keeps _ _
  · extract_lets +onlyGivenNames x
    refine keeps_through (x := x) ?_ (fun hx => ?_)
    · with_reducible refine setCtx_keeps _ _ _
    · clear_value x
      with_reducible refine keeps_mkc ?_ ⟨rfl, rfl, rfl, rfl, rfl, rfl, rfl, rfl⟩
      exact hx

theorem execCtxWrite_keeps (t : Nat) (dur : Nat) (s : State) {t' : State}  (h : execCtxWrite t dur s = .next t') : Keeps s t' := by
  unfold execCtxWrite at h
  refine runAt_keeps (fun s => ?_) h
  with_reducible refine ctxCommand_keeps _ _ _ ?_
  intro x
  intro x
  intro x
  with_reducible refine ctxDoWrite_keeps _ _ _

theorem execCtxRead_keeps (t : Nat) (dur : Nat) (s : State) {t' : State}  (h : execCtxRead t dur s = .next t') : Keeps s t' := by
  unfold execCtxRead at h
  refine runAt_keeps (fun s => ?_) h
  with_reducible refine ctxCommand_keeps _ _ _ ?_
  intro x
  intro x
  intro x
  with_reducible refine ctxDoRead_keeps _ _ _

theorem execCtxEnable_keeps (t : Nat) (dur : Nat) (s : State) {t' : State}  (h : execCtxEnable t dur s = .next t') : Keeps s t' := by
  unfold execCtxEnable at h
  refine runAt_keeps (fun s => ?_) h
  with_reducible refine ctxCommand_keeps _ _ _ ?_
  intro x
  intro x
  intro x
  with_reducible refine ctxDoEnable_keeps _ _ _

theorem execCtxDisable_keeps (t : Nat) (dur : Nat) (s : State) {t' : State}  (h : execCtxDisable t dur s = .next t') : Keeps s t' := by
  unfold execCtxDisable at h
  refine runAt_keeps (fun s => ?_) h
  with_reducible refine ctxCommand_keeps _ _ _ ?_
  intro x
  intro x
  intro x
  with_reducible refine ctxDoDisable_keeps _ _ _

theorem ctxBadCommand_keeps (s : State) : Keeps s (ctxBadCommand s) := by
  unfold ctxBadCommand
  split
  · exact Keeps.refl _
  · split
    · with_reducible exact keeps_mkc (Keeps.refl _) ⟨rfl, rfl, rfl, rfl, rfl, rfl, rfl, rfl⟩
    · with_reducible refine setRefused_keeps _ _

theorem execCtxInvalidCommand_keeps (t : Nat) (code : Nat) (s : State) {t' : State}  (h : execCtxInvalidCommand t code s = .next t') : Keeps s t' := by
  unfold execCtxInvalidCommand at h
  refine runAt_keeps (fun s => ?_) h
  split
  · exact Keeps.refl _
  · with_reducible refine ctxBadCommand_keeps _

theorem execCtxDrainEnd_keeps (t : Nat) (ctx : Nat) (s : State) {t' : State}  (h : execCtxDrainEnd t ctx s = .next t') : Keeps s t' := by
  unfold execCtxDrainEnd at h
  refine runAt_keeps (fun s => ?_) h
  extract_lets +onlyGivenNames x
  clear_value x
  split
  · with_reducible refine setCtx_keeps _ _ _
  · exact Keeps.refl _

theorem execIrqDelayExpiry_keeps (t : Nat) (ctx : Nat) (s : State) {t' : State}  (h : execIrqDelayExpiry t ctx s = .next t') : Keeps s t' := by
  unfold execIrqDelayExpiry at h
  refine runAt_keeps (fun s => ?_) h
  extract_lets +onlyGivenNames x
  clear_value x
  split
  · with_reducible refine Keeps.trans ?_ (sendMsix_keeps _ _)
    with_reducible refine setCtx_keeps _ _ _
  · exact Keeps.refl _

theorem writePollEn_keeps (on : Bool) (s : State) : Keeps s (writePollEn on s) := by
  unfold writePollEn
  split
  · exact Keeps.refl _
  · extract_lets +onlyGivenNames x
    clear_value x
    extract_lets +onlyGivenNames x
    split
    · with_reducible exact keeps_mkc (Keeps.refl _) ⟨rfl, rfl, rfl, rfl, rfl, rfl, rfl, rfl⟩
    · with_reducible exact keeps_mkc (Keeps.refl _) ⟨rfl, rfl, rfl, rfl, rfl, rfl, rfl, rfl⟩

theorem execPollEnWrite_keeps (t : Nat) (on : Bool) (s : State) {t' : State}  (h : execPollEnWrite t on s = .next t') : Keeps s t' := by
  unfold execPollEnWrite at h
  refine runAt_keeps (fun s => ?_) h
  with_reducible refine writePollEn_keeps _ _

theorem forwardDesc_keeps (d : Taken) (x : Ctx) (s : State) : Keeps s (forwardDesc d x s) := by
  unfold forwardDesc
  split
  · with_reducible refine complete_keeps _ _ _ _ _ _ _
  · with_reducible refine Keeps.trans ?_ (sendFlit_keeps _ _ _)
    with_reducible exact keeps_mkc (Keeps.refl _) ⟨rfl, rfl, rfl, rfl, rfl, rfl, rfl, rfl⟩

theorem acceptOne_keeps (c : Nat) (desc : Option Bytes) (s : State) : Keeps s (acceptOne c desc s) := by
  unfold acceptOne
  extract_lets +onlyGivenNames x
  clear_value x
  extract_lets +onlyGivenNames x
  clear_value x
  extract_lets +onlyGivenNames x
  refine keeps_through (x := x) ?_ (fun hx => ?_)
  · with_reducible refine setCtx_keeps _ _ _
  · clear_value x
    split
    · extract_lets +onlyGivenNames x
      refine keeps_through (x := x) ?_ (fun hx => ?_)
      · with_reducible refine Keeps.trans ?_ (takeEvent_keeps _ _ _ _)
        exact hx
      · clear_value x
        with_reducible refine Keeps.trans ?_ (complete_keeps _ _ _ _ _ _ _)
        exact hx
    · extract_lets +onlyGivenNames x
      clear_value x
      extract_lets +onlyGivenNames x
      clear_value x
      extract_lets +onlyGivenNames x
      refine keeps_through (x := x) ?_ (fun hx => ?_)
      · unfold x
        split
        · with_reducible refine Keeps.trans ?_ (hostHeartbeat_keeps _ _)
          exact hx
        · exact hx
      · clear_value x
        split
        · with_reducible refine Keeps.trans ?_ (complete_keeps _ _ _ _ _ _ _)
          exact hx
        · split
          · with_reducible refine Keeps.trans ?_ (complete_keeps _ _ _ _ _ _ _)
            exact hx
          · split
            · split
              · with_reducible refine Keeps.trans ?_ (complete_keeps _ _ _ _ _ _ _)
                exact hx
              · with_reducible refine Keeps.trans ?_ (forwardDesc_keeps _ _ _)
                exact hx
            · with_reducible refine keeps_mkc ?_ ⟨rfl, rfl, rfl, rfl, rfl, rfl, rfl, rfl⟩
              exact hx

theorem takeGo_keeps (v : View) (c tail k : Nat) : ∀ (used : Nat) (s : State), Keeps s (takeGo v c tail used k s).2 := by
  induction k with
  | zero => intro used s; exact Keeps.refl s
  | succ k ih =>
    intro used s
    unfold takeGo
    dsimp only
    split
    · exact Keeps.refl s
    · split
      · exact Keeps.refl s
      · split <;> (split <;> first | exact Keeps.refl s | exact Keeps.trans (acceptOne_keeps c _ s) (ih _ _))

theorem takeFrom_keeps (v : View) (c : Nat) (s : State) : Keeps s (takeFrom v c s).2 := by
  unfold takeFrom
  extract_lets x
  split
  · exact Keeps.refl s
  · split
    · exact takeEvent_keeps _ _ _ _
    · extract_lets tail n
      split
      · exact Keeps.refl s
      · split
        · exact keeps_mk (Keeps.refl s) ⟨rfl, rfl, rfl, rfl, rfl, rfl, rfl, rfl, rfl, rfl, rfl⟩
        · split
          · exact takeEvent_keeps _ _ _ _
          · extract_lets used
            split
            · exact keeps_mk (Keeps.refl s) ⟨rfl, rfl, rfl, rfl, rfl, rfl, rfl, rfl, rfl, rfl, rfl⟩
            · exact takeGo_keeps ..

theorem takeStep_keeps (v : View) (found : List Nat) (s : State) : Keeps s (takeStep v found s) := by
  unfold takeStep
  have key : ∀ (l : List Nat) (p : List Nat × State), Keeps p.2 (l.foldl (fun (acc : List Nat × State) c =>
    let (stay, s) := takeFrom v c acc.2
    (if stay then acc.1 ++ [c] else acc.1, s)) p).2 := by
    intro l
    induction l with
    | nil => intro p; exact Keeps.refl _
    | cons c l ih =>
      intro p
      rw [List.foldl_cons]
      refine Keeps.trans ?_ (ih _)
      have := takeFrom_keeps v c p.2
      cases hh : takeFrom v c p.2
      rw [hh] at this
      exact this
  extract_lets set
  split
  rename_i l s' heq
  have h := key (pendingOrder s set) ([], { s with hostq := { s.hostq with waiting := [] } })
  rw [heq] at h
  have h2 : Keeps s s' := Keeps.trans (b := { s with hostq := { s.hostq with waiting := [] } }) (keeps_mk (Keeps.refl s) ⟨rfl, rfl, rfl, rfl, rfl, rfl, rfl, rfl, rfl, rfl, rfl⟩) h
  exact keeps_mk h2 ⟨rfl, rfl, rfl, rfl, rfl, rfl, rfl, rfl, rfl, rfl, rfl⟩

theorem swapWord_keeps (v : View) (ok : Bool) (a : Nat) (w : Walk) : Keeps w.st (swapWord v ok a w).2.st := by
  unfold swapWord
  split
  · exact Keeps.refl _
  · split
    · exact (keeps_mk (Keeps.refl w.st) ⟨rfl, rfl, rfl, rfl, rfl, rfl, rfl, rfl, rfl, rfl, rfl⟩ : Keeps w.st { w.st with hostq := { w.st.hostq with noAtomic := true } }).trans (takeEvent_keeps _ _ _ _)
    · split
      · exact takeEvent_keeps _ _ _ _
      · exact hostMem_keeps (Keeps.refl _) _ (memWrites_wf _ _)

theorem walkFold_keeps {α : Type} {g : Walk → α → Walk} (hg : ∀ w x, Keeps w.st (g w x).st) (l : List α) : ∀ (w : Walk), Keeps w.st (l.foldl g w).st := by
  induction l with
  | nil => intro w; exact Keeps.refl _
  | cons x l ih => intro w; exact (hg w x).trans (ih _)

theorem walkLeaf_keeps (v : View) (ok : Bool) (w : Walk) (lw : Nat) : Keeps w.st (walkLeaf v ok w lw).st := by
  unfold walkLeaf; exact swapWord_keeps ..

theorem walkMid_keeps (v : View) (ok : Bool) (w : Walk) (mw : Nat) : Keeps w.st (walkMid v ok w mw).st := by
  unfold walkMid; exact (swapWord_keeps ..).trans (walkFold_keeps (walkLeaf_keeps v ok) _ _)

theorem walkTop_keeps (v : View) (ok : Bool) (tops : Bytes) (w : Walk) (i : Nat) : Keeps w.st (walkTop v ok tops w i).st := by
  unfold walkTop
  split
  · exact Keeps.refl _
  · exact (swapWord_keeps ..).trans (walkFold_keeps (walkMid_keeps v ok) _ _)

theorem walkTree_keeps (v : View) (ok : Bool) (s : State) : Keeps s (walkTree v ok s).st := by
  unfold walkTree
  split
  · exact (takeEvent_keeps 155 s.hostq.dbTop 0 s).trans (walkFold_keeps (walkTop_keeps v ok _) _ { st := takeEvent 155 s.hostq.dbTop 0 s, found := [], stopped := false })
  · exact walkFold_keeps (walkTop_keeps v ok _) _ { st := s, found := [], stopped := false }

theorem execPollInstantWalk_keeps {t : Nat} {v : View} {ok : Bool} {s t' : State} (h : execPollInstantWalk t v ok s = .next t') : Keeps s t' := by
  unfold execPollInstantWalk at h
  refine runAt_keeps (fun s => ?_) h
  extract_lets s1
  have h1 : Keeps s s1 := applyView_keeps v s
  split
  · exact h1
  · exact h1.trans ((walkTree_keeps v ok s1).trans (takeStep_keeps _ _ _))

theorem execBar0UnsupportedAccess_keeps (t : Nat) (addr : Nat) (size : Nat) (isWrite : Bool) (s : State) {t' : State}  (h : execBar0UnsupportedAccess t addr size isWrite s = .next t') : Keeps s t' := by
  unfold execBar0UnsupportedAccess at h
  refine runAt_keeps (fun s => ?_) h
  split
  · exact Keeps.refl _
  · with_reducible exact keeps_mkc (Keeps.refl _) ⟨rfl, rfl, rfl, rfl, rfl, rfl, rfl, rfl⟩

theorem hostIfReset_keeps (s : State) : Keeps s (hostIfReset s) := by
  unfold hostIfReset
  extract_lets +onlyGivenNames x
  clear_value x
  extract_lets +onlyGivenNames x
  clear_value x
  extract_lets +onlyGivenNames x
  clear_value x
  extract_lets +onlyGivenNames x
  clear_value x
  extract_lets +onlyGivenNames x
  extract_lets +onlyGivenNames x
  clear_value x
  extract_lets +onlyGivenNames x
  refine keeps_through (x := x) ?_ (fun hx => ?_)
  · with_reducible exact keeps_mkc (Keeps.refl _) ⟨rfl, rfl, rfl, rfl, rfl, rfl, rfl, rfl⟩
  · clear_value x
    with_reducible refine Keeps.trans ?_ (modFrame_keeps _ _)
    exact hx

theorem endpointReset_keeps (s : State) : Keeps s (endpointReset s) := by
  unfold endpointReset
  split
  · with_reducible refine hostIfReset_keeps _
  · exact Keeps.refl _

theorem execPerstN_keeps (t : Nat) (s : State) {t' : State}  (h : execPerstN t s = .next t') : Keeps s t' := by
  unfold execPerstN at h
  refine runAt_keeps (fun s => ?_) h
  extract_lets +onlyGivenNames x
  refine keeps_through (x := x) ?_ (fun hx => ?_)
  · with_reducible refine endpointReset_keeps _
  · clear_value x
    with_reducible refine keeps_mkc ?_ ⟨rfl, rfl, rfl, rfl, rfl, rfl, rfl, rfl⟩
    exact hx

theorem execHotReset_keeps (t : Nat) (s : State) {t' : State}  (h : execHotReset t s = .next t') : Keeps s t' := by
  unfold execHotReset at h
  refine runAt_keeps (fun s => ?_) h
  with_reducible refine endpointReset_keeps _

theorem execFunctionLevelReset_keeps (t : Nat) (s : State) {t' : State}  (h : execFunctionLevelReset t s = .next t') : Keeps s t' := by
  unfold execFunctionLevelReset at h
  refine runAt_keeps (fun s => ?_) h
  with_reducible refine endpointReset_keeps _

theorem execPerstNRelease_keeps (t : Nat) (s : State) {t' : State}  (h : execPerstNRelease t s = .next t') : Keeps s t' := by
  unfold execPerstNRelease at h
  refine runAt_keeps (fun s => ?_) h
  with_reducible exact keeps_mkc (Keeps.refl _) ⟨rfl, rfl, rfl, rfl, rfl, rfl, rfl, rfl⟩

end Sys2Proof.Machine
end

