-- ==== Sys2Proof/Laws/KeepsDesc.lean ====
section
/-! SUPPORT. Every operation of Sys2Proof/Machine/Desc.lean keeps what `Keeps` speaks of. -/

namespace Sys2Proof.Machine

theorem refuse_keeps (d : Taken) (f : Fail) (s : State) : Keeps s (refuse d f s) := by
  unfold refuse
  with_reducible refine complete_keeps _ _ _ _ _ _ _

theorem refuseRead_keeps (d : Taken) (a : Nat) (s : State) : Keeps s (refuseRead d a s) := by
  unfold refuseRead
  with_reducible refine Keeps.trans ?_ (refuse_keeps _ _ _)
  with_reducible refine takeEvent_keeps _ _ _ _

theorem withRead_keeps (d : Taken) (v : View) (a : Nat) (n : Nat) (s : State) (k : Bytes → State → State) (hk : ∀ b s, Keeps s (k b s)) : Keeps s (withRead d v a n s k) := by
  unfold withRead
  split
  · with_reducible refine refuseRead_keeps _ _ _
  · with_reducible refine hk _ _

theorem withChecks_keeps (d : Taken) (l : List (Bool × Fail)) (s : State) (k : State → State) (hk : ∀ s, Keeps s (k s)) : Keeps s (withChecks d l s k) := by
  unfold withChecks
  split
  · with_reducible refine refuse_keeps _ _ _
  · with_reducible refine hk _

theorem acceptDesc_keeps (d : Taken) (v : View) (r : KindRule) (s : State) (k : State → State) {t' : State} (hk : ∀ s, Keeps s (k s)) (h : acceptDesc d v r s k = .next t') : Keeps s t' := by
  unfold acceptDesc at h
  refine runAt_keeps (fun s => ?_) h
  split
  · exact Keeps.refl _
  · extract_lets +onlyGivenNames x
    clear_value x
    extract_lets +onlyGivenNames x
    refine keeps_through (x := x) ?_ (fun hx => ?_)
    · with_reducible refine Keeps.trans ?_ (applyView_keeps _ _)
      with_reducible exact keeps_mkc (Keeps.refl _) ⟨rfl, rfl, rfl, rfl, rfl, rfl, rfl, rfl⟩
    · clear_value x
      split
      · with_reducible refine Keeps.trans ?_ (refuse_keeps _ _ _)
        exact hx
      · split
        · with_reducible refine Keeps.trans ?_ (refuse_keeps _ _ _)
          exact hx
        · split
          · with_reducible refine Keeps.trans ?_ (refuse_keeps _ _ _)
            exact hx
          · split
            · with_reducible refine Keeps.trans ?_ (refuse_keeps _ _ _)
              exact hx
            · split
              · with_reducible refine Keeps.trans ?_ (refuse_keeps _ _ _)
                exact hx
              · with_reducible refine Keeps.trans ?_ (hk _)
                exact hx

end Sys2Proof.Machine
end

