-- ==== Sys2Proof/Laws/KeepsChain.lean ====
section
/-! SUPPORT. Every operation of Sys2Proof/Machine/Chain.lean keeps what `Keeps` speaks of. -/

namespace Sys2Proof.Machine

theorem setPort_keeps (p : Nat) (x : Port) (s : State) : Keeps s (setPort p x s) := by
  unfold setPort
  with_reducible exact keeps_mkc (Keeps.refl _) ⟨rfl, rfl, rfl, rfl, rfl, rfl, rfl, rfl⟩

theorem enterLink_keeps (p : Nat) (st : Nat) (s : State) : Keeps s (enterLink p st s) := by
  unfold enterLink
  extract_lets +onlyGivenNames x
  clear_value x
  extract_lets +onlyGivenNames x
  clear_value x
  extract_lets +onlyGivenNames x
  clear_value x
  extract_lets +onlyGivenNames x
  clear_value x
  extract_lets +onlyGivenNames x
  refine keeps_through (x := x) ?_ (fun hx => ?_)
  · with_reducible refine setPort_keeps _ _ _
  · clear_value x
    split
    · with_reducible refine Keeps.trans ?_ (endLevel_keeps _ _)
      exact hx
    · split
      · extract_lets +onlyGivenNames x
        refine keeps_through (x := x) ?_ (fun hx => ?_)
        · with_reducible refine Keeps.trans ?_ (raiseLevel_keeps _ _ _ _)
          exact hx
        · clear_value x
          split
          · with_reducible refine Keeps.trans ?_ (loseBeyond_keeps _ _ _)
            exact hx
          · with_reducible refine Keeps.trans ?_ (abortDiags_keeps _ _ _ _)
            exact hx
      · exact hx

theorem execLinkTraining_keeps (t : Nat) (port : Nat) (state : Nat) (s : State) {t' : State}  (h : execLinkTraining t port state s = .next t') : Keeps s t' := by
  unfold execLinkTraining at h
  refine runAt_keeps (fun s => ?_) h
  split
  · with_reducible refine enterLink_keeps _ _ _
  · exact Keeps.refl _

theorem execReplayRequest_keeps (t : Nat) (port : Nat) (seq : Nat) (s : State) {t' : State}  (h : execReplayRequest t port seq s = .next t') : Keeps s t' := by
  unfold execReplayRequest at h
  refine runAt_keeps (fun s => ?_) h
  split
  · exact Keeps.refl _
  · extract_lets +onlyGivenNames x
    clear_value x
    extract_lets +onlyGivenNames x
    clear_value x
    split
    · with_reducible refine Keeps.trans ?_ (enterLink_keeps _ _ _)
      with_reducible refine setPort_keeps _ _ _
    · extract_lets +onlyGivenNames x
      clear_value x
      extract_lets +onlyGivenNames x
      refine keeps_through (x := x) ?_ (fun hx => ?_)
      · with_reducible refine setPort_keeps _ _ _
      · clear_value x
        extract_lets +onlyGivenNames x
        clear_value x
        extract_lets +onlyGivenNames x
        refine keeps_through (x := x) ?_ (fun hx => ?_)
        · with_reducible refine keeps_mkc ?_ ⟨rfl, rfl, rfl, rfl, rfl, rfl, rfl, rfl⟩
          exact hx
        · clear_value x
          with_reducible refine Keeps.trans ?_ (raise_keeps _ _ _ _)
          exact hx

theorem enumCheck_keeps (s : State) : Keeps s (enumCheck s) := by
  unfold enumCheck
  extract_lets +onlyGivenNames x
  clear_value x
  extract_lets +onlyGivenNames x
  clear_value x
  split
  · exact Keeps.refl _
  · split
    · with_reducible refine Keeps.trans ?_ (deviceEvent_keeps _)
      with_reducible exact keeps_mkc (Keeps.refl _) ⟨rfl, rfl, rfl, rfl, rfl, rfl, rfl, rfl⟩
    · exact Keeps.refl _

theorem collectReport_keeps (x : UnitReport) (s : State) : Keeps s (collectReport x s) := by
  unfold collectReport
  extract_lets +onlyGivenNames x
  clear_value x
  extract_lets +onlyGivenNames x
  refine keeps_through (x := x) ?_ (fun hx => ?_)
  · with_reducible exact keeps_mkc (Keeps.refl _) ⟨rfl, rfl, rfl, rfl, rfl, rfl, rfl, rfl⟩
  · clear_value x
    with_reducible refine Keeps.trans ?_ (enumCheck_keeps _)
    split
    · with_reducible refine Keeps.trans ?_ (raise_keeps _ _ _ _)
      with_reducible refine keeps_mkc ?_ ⟨rfl, rfl, rfl, rfl, rfl, rfl, rfl, rfl⟩
      exact hx
    · exact hx

theorem beginEnum_keeps (s : State) : Keeps s (beginEnum s) := by
  unfold beginEnum
  extract_lets +onlyGivenNames x
  clear_value x
  extract_lets +onlyGivenNames x
  clear_value x
  extract_lets +onlyGivenNames x
  clear_value x
  extract_lets +onlyGivenNames x
  refine keeps_through (x := x) ?_ (fun hx => ?_)
  · with_reducible exact keeps_mkc (Keeps.refl _) ⟨rfl, rfl, rfl, rfl, rfl, rfl, rfl, rfl⟩
  · clear_value x
    with_reducible refine Keeps.trans ?_ (enumCheck_keeps _)
    with_reducible refine Keeps.trans ?_ (sendFlit_keeps _ _ _)
    exact hx

theorem writeEnumStart_keeps (s : State) : Keeps s (writeEnumStart s) := by
  unfold writeEnumStart
  split
  · exact Keeps.refl _
  · split
    · with_reducible exact keeps_mkc (Keeps.refl _) ⟨rfl, rfl, rfl, rfl, rfl, rfl, rfl, rfl⟩
    · extract_lets +onlyGivenNames x
      clear_value x
      extract_lets +onlyGivenNames x
      refine keeps_through (x := x) ?_ (fun hx => ?_)
      · with_reducible exact keeps_mkc (Keeps.refl _) ⟨rfl, rfl, rfl, rfl, rfl, rfl, rfl, rfl⟩
      · clear_value x
        split
        · with_reducible refine keeps_mkc ?_ ⟨rfl, rfl, rfl, rfl, rfl, rfl, rfl, rfl⟩
          exact hx
        · with_reducible refine Keeps.trans ?_ (beginEnum_keeps _)
          exact hx

theorem execEnumStart_keeps (t : Nat) (s : State) {t' : State}  (h : execEnumStart t s = .next t') : Keeps s t' := by
  unfold execEnumStart at h
  refine runAt_keeps (fun s => ?_) h
  with_reducible refine writeEnumStart_keeps _

theorem takeStartFlit_keeps (gen : Nat) (s : State) : Keeps s (takeStartFlit gen s) := by
  unfold takeStartFlit
  split
  · exact Keeps.refl _
  · with_reducible refine Keeps.trans ?_ (sendFlit_keeps _ _ _)
    with_reducible exact keeps_mkc (Keeps.refl _) ⟨rfl, rfl, rfl, rfl, rfl, rfl, rfl, rfl⟩

theorem execEnumerationStartFlit_keeps (t : Nat) (gen : Nat) (s : State) {t' : State}  (h : execEnumerationStartFlit t gen s = .next t') : Keeps s t' := by
  unfold execEnumerationStartFlit at h
  refine runAt_keeps (fun s => ?_) h
  with_reducible refine takeStartFlit_keeps _ _

theorem execEnumToken_keeps (t : Nat) (byte : Nat) (s : State) {t' : State}  (h : execEnumToken t byte s = .next t') : Keeps s t' := by
  unfold execEnumToken at h
  refine runAt_keeps (fun s => ?_) h
  split
  · exact Keeps.refl _
  · extract_lets +onlyGivenNames x
    clear_value x
    split
    · exact Keeps.refl _
    · extract_lets +onlyGivenNames x
      clear_value x
      extract_lets +onlyGivenNames x
      clear_value x
      extract_lets +onlyGivenNames x
      clear_value x
      extract_lets +onlyGivenNames x
      clear_value x
      extract_lets +onlyGivenNames x
      refine keeps_through (x := x) ?_ (fun hx => ?_)
      · with_reducible exact keeps_mkc (Keeps.refl _) ⟨rfl, rfl, rfl, rfl, rfl, rfl, rfl, rfl⟩
      · clear_value x
        with_reducible refine Keeps.trans ?_ (sendFlit_keeps _ _ _)
        with_reducible refine Keeps.trans ?_ (sendFlit_keeps _ _ _)
        exact hx

theorem takeReport_keeps (addr : Nat) (last : Bool) (overflow : Bool) (grade : Nat) (fw : Nat) (s : State) : Keeps s (takeReport addr last overflow grade fw s) := by
  unfold takeReport
  split
  · split
    · with_reducible refine Keeps.trans ?_ (sendFlit_keeps _ _ _)
      with_reducible exact keeps_mkc (Keeps.refl _) ⟨rfl, rfl, rfl, rfl, rfl, rfl, rfl, rfl⟩
    · exact Keeps.refl _
  · split
    · exact Keeps.refl _
    · with_reducible refine collectReport_keeps _ _

theorem execEnumReport_keeps (t : Nat) (addr : Nat) (last : Bool) (overflow : Bool) (grade : Nat) (fw : Nat) (s : State) {t' : State}  (h : execEnumReport t addr last overflow grade fw s = .next t') : Keeps s t' := by
  unfold execEnumReport at h
  refine runAt_keeps (fun s => ?_) h
  with_reducible refine takeReport_keeps _ _ _ _ _ _

theorem execEnumerationTimeout_keeps (t : Nat) (s : State) {t' : State}  (h : execEnumerationTimeout t s = .next t') : Keeps s t' := by
  unfold execEnumerationTimeout at h
  refine runAt_keeps (fun s => ?_) h
  split
  · exact Keeps.refl _
  · extract_lets +onlyGivenNames x
    clear_value x
    with_reducible refine Keeps.trans ?_ (deviceEvent_keeps _)
    with_reducible refine Keeps.trans ?_ (raise_keeps _ _ _ _)
    with_reducible exact keeps_mkc (Keeps.refl _) ⟨rfl, rfl, rfl, rfl, rfl, rfl, rfl, rfl⟩

theorem takeTimestamp_keeps (t1 : Nat) (t2 : Nat) (t3 : Nat) (s : State) : Keeps s (takeTimestamp t1 t2 t3 s) := by
  unfold takeTimestamp
  split
  · exact Keeps.refl _
  · with_reducible exact keeps_mkc (Keeps.refl _) ⟨rfl, rfl, rfl, rfl, rfl, rfl, rfl, rfl⟩

theorem execTimeSyncExchange_keeps (t : Nat) (answer : Option (Nat × Nat × Nat)) (s : State) {t' : State}  (h : execTimeSyncExchange t answer s = .next t') : Keeps s t' := by
  unfold execTimeSyncExchange at h
  refine runAt_keeps (fun s => ?_) h
  split
  · exact Keeps.refl _
  · extract_lets +onlyGivenNames x
    clear_value x
    extract_lets +onlyGivenNames x
    refine keeps_through (x := x) ?_ (fun hx => ?_)
    · with_reducible refine sendFlit_keeps _ _ _
    · clear_value x
      split
      · with_reducible refine Keeps.trans ?_ (takeTimestamp_keeps _ _ _ _)
        with_reducible refine Keeps.trans ?_ (atDt_keeps _ _)
        exact hx
      · exact hx

theorem takeAnnounce_keeps (tickDt : Nat) (frame : Nat) (period : Nat) (s : State) : Keeps s (takeAnnounce tickDt frame period s) := by
  unfold takeAnnounce
  split
  · exact Keeps.refl _
  · with_reducible refine Keeps.trans ?_ (sendFlit_keeps _ _ _)
    with_reducible exact keeps_mkc (Keeps.refl _) ⟨rfl, rfl, rfl, rfl, rfl, rfl, rfl, rfl⟩

theorem execTickAnnounce_keeps (t : Nat) (tickDt : Nat) (frame : Nat) (period : Nat) (s : State) {t' : State}  (h : execTickAnnounce t tickDt frame period s = .next t') : Keeps s t' := by
  unfold execTickAnnounce at h
  refine runAt_keeps (fun s => ?_) h
  split
  · split
    · with_reducible refine Keeps.trans ?_ (sendFlit_keeps _ _ _)
      with_reducible exact keeps_mkc (Keeps.refl _) ⟨rfl, rfl, rfl, rfl, rfl, rfl, rfl, rfl⟩
    · exact Keeps.refl _
  · with_reducible refine takeAnnounce_keeps _ _ _ _

theorem execTickInPulse_keeps (t : Nat) (s : State) {t' : State}  (h : execTickInPulse t s = .next t') : Keeps s t' := by
  unfold execTickInPulse at h
  refine runAt_keeps (fun s => ?_) h
  split
  · exact Keeps.refl _
  · with_reducible exact keeps_mkc (Keeps.refl _) ⟨rfl, rfl, rfl, rfl, rfl, rfl, rfl, rfl⟩

theorem measurePulse_keeps (td : Nat) (s : State) : Keeps s (measurePulse td s) := by
  unfold measurePulse
  split
  · extract_lets +onlyGivenNames x
    clear_value x
    split
    · with_reducible exact keeps_mkc (Keeps.refl _) ⟨rfl, rfl, rfl, rfl, rfl, rfl, rfl, rfl⟩
    · with_reducible exact keeps_mkc (Keeps.refl _) ⟨rfl, rfl, rfl, rfl, rfl, rfl, rfl, rfl⟩
  · exact Keeps.refl _

end Sys2Proof.Machine
end

