-- ==== Sys2Proof/Laws/KeepsWorld.lean ====
section
/-! SUPPORT. Every operation of Sys2Proof/Machine/World.lean keeps what `Keeps` speaks of. -/

namespace Sys2Proof.Machine

theorem scheduleIngest_keeps (d : Taken) (h : Bytes) (box : List Int) (s : State) : Keeps s (scheduleIngest d h box s) := by
  unfold scheduleIngest
  extract_lets +onlyGivenNames x
  clear_value x
  extract_lets +onlyGivenNames x
  clear_value x
  extract_lets +onlyGivenNames x
  clear_value x
  extract_lets +onlyGivenNames x
  clear_value x
  split
  · with_reducible refine refuse_keeps _ _ _
  · split
    · with_reducible refine refuse_keeps _ _ _
    · extract_lets +onlyGivenNames x
      clear_value x
      extract_lets +onlyGivenNames x
      clear_value x
      extract_lets +onlyGivenNames x
      clear_value x
      extract_lets +onlyGivenNames x
      refine keeps_through (x := x) ?_ (fun hx => ?_)
      · with_reducible refine addWork_keeps _ _
      · clear_value x
        with_reducible refine keeps_mkc ?_ ⟨rfl, rfl, rfl, rfl, rfl, rfl, rfl, rfl⟩
        exact hx

theorem execMapIngest_keeps (d : Taken) (v : View) (s : State) {t' : State}  (h : execMapIngest d v s = .next t') : Keeps s t' := by
  unfold execMapIngest at h
  refine runAt_keeps (fun s => ?_) h
  split
  · exact Keeps.refl _
  · extract_lets +onlyGivenNames x
    clear_value x
    extract_lets +onlyGivenNames x
    refine keeps_through (x := x) ?_ (fun hx => ?_)
    · with_reducible refine Keeps.trans ?_ (applyView_keeps _ _)
      with_reducible exact keeps_mkc (Keeps.refl _) ⟨rfl, rfl, rfl, rfl, rfl, rfl, rfl, rfl⟩
    · clear_value x
      split
      · with_reducible refine Keeps.trans ?_ (refuse_keeps _ _ _)
        exact hx
      · split
        · with_reducible refine Keeps.trans ?_ (refuse_keeps _ _ _)
          exact hx
        · split
          · with_reducible refine Keeps.trans ?_ (refuse_keeps _ _ _)
            exact hx
          · split
            · with_reducible refine Keeps.trans ?_ (refuse_keeps _ _ _)
              exact hx
            · split
              · with_reducible refine Keeps.trans ?_ (refuse_keeps _ _ _)
                exact hx
              · dsimp only
                with_reducible refine Keeps.trans ?_ (withChecks_keeps _ _ _ _ ?_)
                · exact hx
                · intro x
                  with_reducible refine withRead_keeps _ _ _ _ _ _ ?_
                  intro x
                  intro x
                  with_reducible refine withChecks_keeps _ _ _ _ ?_
                  intro x
                  split
                  · with_reducible refine withRead_keeps _ _ _ _ _ _ ?_
                    intro x
                    intro x
                    with_reducible refine withChecks_keeps _ _ _ _ ?_
                    intro x
                    with_reducible refine scheduleIngest_keeps _ _ _ _
                  · split
                    · with_reducible refine refuse_keeps _ _ _
                    · with_reducible refine scheduleIngest_keeps _ _ _ _

theorem finishIngest_keeps (w : Work) (i : IgWork) (s : State) : Keeps s (finishIngest w i s) := by
  unfold finishIngest
  extract_lets +onlyGivenNames x
  clear_value x
  extract_lets +onlyGivenNames x
  refine keeps_through (x := x) ?_ (fun hx => ?_)
  · with_reducible refine hostWrite_keeps _ _ _ _
  · clear_value x
    with_reducible refine Keeps.trans ?_ (finishWork_keeps _ _ _ _ _ _ _)
    exact hx

theorem groupDone_keeps (g : Group) (w : Work) (i : IgWork) (s : State) : Keeps s (groupDone g w i s) := by
  unfold groupDone
  extract_lets +onlyGivenNames x
  clear_value x
  extract_lets +onlyGivenNames x
  refine keeps_through (x := x) ?_ (fun hx => ?_)
  · with_reducible exact keeps_mkc (Keeps.refl _) ⟨rfl, rfl, rfl, rfl, rfl, rfl, rfl, rfl⟩
  · clear_value x
    split
    · with_reducible refine Keeps.trans ?_ (finishIngest_keeps _ _ _)
      exact hx
    · with_reducible refine Keeps.trans ?_ (setItem_keeps _ _ _)
      exact hx

theorem groupApplied_keeps (g : Group) (w : Work) (i : IgWork) (x : WS) (good : Nat) (bad : Nat) (s : State) : Keeps s (groupApplied g w i x good bad s) := by
  unfold groupApplied
  extract_lets +onlyGivenNames x
  clear_value x
  extract_lets +onlyGivenNames x
  clear_value x
  with_reducible refine Keeps.trans ?_ (groupDone_keeps _ _ _ _)
  with_reducible exact keeps_mkc (Keeps.refl _) ⟨rfl, rfl, rfl, rfl, rfl, rfl, rfl, rfl⟩

theorem groupRefused_keeps (g : Group) (w : Work) (i : IgWork) (capacity : Bool) (good : Nat) (bad : Nat) (s : State) : Keeps s (groupRefused g w i capacity good bad s) := by
  unfold groupRefused
  extract_lets +onlyGivenNames x
  refine keeps_through (x := x) ?_ (fun hx => ?_)
  · unfold x
    split
    · with_reducible refine raise_keeps _ _ _ _
    · exact Keeps.refl _
  · clear_value x
    with_reducible refine Keeps.trans ?_ (groupDone_keeps _ _ _ _)
    exact hx

theorem runGroup_keeps (v : View) (g : Group) (w : Work) (i : IgWork) (s : State) : Keeps s (runGroup v g w i s) := by
  unfold runGroup
  extract_lets +onlyGivenNames x
  clear_value x
  split
  · extract_lets +onlyGivenNames x
    clear_value x
    split
    · with_reducible refine groupApplied_keeps _ _ _ _ _ _ _
    · with_reducible refine groupRefused_keeps _ _ _ _ _ _ _
  · extract_lets +onlyGivenNames x
    clear_value x
    extract_lets +onlyGivenNames x
    clear_value x
    extract_lets +onlyGivenNames x
    clear_value x
    split
    · extract_lets +onlyGivenNames x
      refine keeps_through (x := x) ?_ (fun hx => ?_)
      · with_reducible refine raise_keeps _ _ _ _
      · clear_value x
        with_reducible refine Keeps.trans ?_ (finishWork_keeps _ _ _ _ _ _ _)
        with_reducible refine keeps_mkc ?_ ⟨rfl, rfl, rfl, rfl, rfl, rfl, rfl, rfl⟩
        exact hx
    · split
      · extract_lets +onlyGivenNames x
        clear_value x
        extract_lets +onlyGivenNames x
        clear_value x
        with_reducible refine groupApplied_keeps _ _ _ _ _ _ _
      · extract_lets +onlyGivenNames x
        clear_value x
        extract_lets +onlyGivenNames x
        clear_value x
        extract_lets +onlyGivenNames x
        clear_value x
        split
        · with_reducible refine groupApplied_keeps _ _ _ _ _ _ _
        · with_reducible refine groupRefused_keeps _ _ _ _ _ _ _

theorem execAtomiserGroup_keeps (t : Nat) (v : View) (s : State) {t' : State}  (h : execAtomiserGroup t v s = .next t') : Keeps s t' := by
  unfold execAtomiserGroup at h
  refine runAt_keeps (fun s => ?_) h
  extract_lets +onlyGivenNames x
  refine keeps_through (x := x) ?_ (fun hx => ?_)
  · with_reducible refine applyView_keeps _ _
  · clear_value x
    split
    · exact hx
    · split
      · exact hx
      · split
        · split
          · with_reducible refine Keeps.trans ?_ (runGroup_keeps _ _ _ _ _)
            exact hx
          · exact hx
        · with_reducible refine keeps_mkc ?_ ⟨rfl, rfl, rfl, rfl, rfl, rfl, rfl, rfl⟩
          exact hx

theorem execAtomiserOverrun_keeps (t : Nat) (s : State) {t' : State}  (h : execAtomiserOverrun t s = .next t') : Keeps s t' := by
  unfold execAtomiserOverrun at h
  refine runAt_keeps (fun s => ?_) h
  split
  · with_reducible refine Keeps.trans ?_ (raise_keeps _ _ _ _)
    with_reducible exact keeps_mkc (Keeps.refl _) ⟨rfl, rfl, rfl, rfl, rfl, rfl, rfl, rfl⟩
  · exact Keeps.refl _

theorem applyPrims_keeps (w : Work) (recs : List PrimRec) (held : Bool) (s : State) : Keeps s (applyPrims w recs held s) := by
  unfold applyPrims
  extract_lets +onlyGivenNames x
  clear_value x
  extract_lets +onlyGivenNames x
  clear_value x
  split
  · with_reducible refine Keeps.trans ?_ (finishWork_keeps _ _ _ _ _ _ _)
    with_reducible exact keeps_mkc (Keeps.refl _) ⟨rfl, rfl, rfl, rfl, rfl, rfl, rfl, rfl⟩
  · with_reducible refine finishWork_keeps _ _ _ _ _ _ _

theorem holdPrims_keeps (s : State) : Keeps s (holdPrims s) := by
  unfold holdPrims
  with_reducible exact keeps_mkc (Keeps.refl _) ⟨rfl, rfl, rfl, rfl, rfl, rfl, rfl, rfl⟩

theorem runPrims_keeps (ne : Bool) (l : List Work) : ∀ (s : State), Keeps s (runPrims ne l s) := by
  induction l with
  | nil => intro s; exact Keeps.refl s
  | cons w l ih =>
    intro s
    unfold runPrims
    split
    · split
      · with_reducible refine holdPrims_keeps _
      · split
        · with_reducible refine holdPrims_keeps _
        · with_reducible refine Keeps.trans ?_ (ih _)
          with_reducible refine applyPrims_keeps _ _ _ _
    · with_reducible refine ih _

theorem execMapPrimitives_keeps (d : Taken) (v : View) (s : State) {t' : State}  (h : execMapPrimitives d v s = .next t') : Keeps s t' := by
  unfold execMapPrimitives at h
  refine runAt_keeps (fun s => ?_) h
  split
  · exact Keeps.refl _
  · extract_lets +onlyGivenNames x
    clear_value x
    extract_lets +onlyGivenNames x
    refine keeps_through (x := x) ?_ (fun hx => ?_)
    · with_reducible refine Keeps.trans ?_ (applyView_keeps _ _)
      with_reducible exact keeps_mkc (Keeps.refl _) ⟨rfl, rfl, rfl, rfl, rfl, rfl, rfl, rfl⟩
    · clear_value x
      split
      · with_reducible refine Keeps.trans ?_ (refuse_keeps _ _ _)
        exact hx
      · split
        · with_reducible refine Keeps.trans ?_ (refuse_keeps _ _ _)
          exact hx
        · split
          · with_reducible refine Keeps.trans ?_ (refuse_keeps _ _ _)
            exact hx
          · split
            · with_reducible refine Keeps.trans ?_ (refuse_keeps _ _ _)
              exact hx
            · split
              · with_reducible refine Keeps.trans ?_ (refuse_keeps _ _ _)
                exact hx
              · dsimp only
                with_reducible refine Keeps.trans ?_ (withChecks_keeps _ _ _ _ ?_)
                · exact hx
                · intro x
                  split
                  · with_reducible refine refuseRead_keeps _ _ _
                  · with_reducible refine refuse_keeps _ _ _
                  · with_reducible refine refuse_keeps _ _ _
                  · split
                    · split
                      · with_reducible refine Keeps.trans ?_ (holdPrims_keeps _)
                        with_reducible refine addWork_keeps _ _
                      · with_reducible refine addWork_keeps _ _
                    · with_reducible refine Keeps.trans ?_ (runPrims_keeps _ _ _)
                      with_reducible refine addWork_keeps _ _

theorem buildSeal_keeps (full : Bool) (s : State) : Keeps s (buildSeal full s) := by
  unfold buildSeal
  extract_lets +onlyGivenNames x
  clear_value x
  extract_lets +onlyGivenNames x
  clear_value x
  extract_lets +onlyGivenNames x
  clear_value x
  extract_lets +onlyGivenNames x
  clear_value x
  split
  extract_lets +onlyGivenNames x
  clear_value x
  split
  extract_lets +onlyGivenNames x
  clear_value x
  extract_lets +onlyGivenNames x
  clear_value x
  with_reducible exact keeps_mkc (Keeps.refl _) ⟨rfl, rfl, rfl, rfl, rfl, rfl, rfl, rfl⟩

end Sys2Proof.Machine
end

