-- ==== Sys2Proof/Laws/KeepsHazard.lean ====
section
/-! SUPPORT. Every operation of Sys2Proof/Machine/Hazard.lean keeps what `Keeps` speaks of. -/

namespace Sys2Proof.Machine

theorem lateCommit_keeps (at_ : Nat) (h : Haz) (s : State) : Keeps s (lateCommit at_ h s) := by
  unfold lateCommit
  extract_lets +onlyGivenNames x
  clear_value x
  with_reducible exact keeps_mkc (Keeps.refl _) ⟨rfl, rfl, rfl, rfl, rfl, rfl, rfl, rfl⟩

theorem countLate_keeps (c : HazChange) (s : State) : Keeps s (countLate c s) := by
  unfold countLate
  split
  extract_lets +onlyGivenNames x
  refine keeps_through (x := x) ?_ (fun hx => ?_)
  · with_reducible refine timingChoice_keeps _ _ _ _ _ _
  · clear_value x
    extract_lets +onlyGivenNames x
    refine keeps_through (x := x) ?_ (fun hx => ?_)
    · with_reducible refine Keeps.trans ?_ (modFrame_keeps _ _)
      exact hx
    · clear_value x
      with_reducible refine Keeps.trans ?_ (lateCommit_keeps _ _ _)
      exact hx

theorem completeHaz1_keeps (late : Bool) (w : Work) (s : State) : Keeps s (completeHaz1 late w s) := by
  unfold completeHaz1
  split
  · with_reducible refine finishWork_keeps _ _ _ _ _ _ _
  · exact Keeps.refl _

theorem completeHaz_keeps (s : State) : Keeps s (completeHaz s) := by
  unfold completeHaz
  refine keeps_foldl (Keeps.refl _) (fun s x hs => ?_)
  split
  · with_reducible refine Keeps.trans ?_ (completeHaz1_keeps _ _ _)
    exact hs
  · exact hs

theorem applyLate_keeps (s : State) : Keeps s (applyLate s) := by
  unfold applyLate
  extract_lets +onlyGivenNames x
  extract_lets +onlyGivenNames x
  clear_value x
  split
  · exact Keeps.refl _
  · extract_lets +onlyGivenNames x
    clear_value x
    extract_lets +onlyGivenNames x
    with_reducible refine Keeps.trans ?_ (completeHaz_keeps _)
    with_reducible refine Keeps.trans ?_ (modFrame_keeps _ _)
    with_reducible exact keeps_mkc (Keeps.refl _) ⟨rfl, rfl, rfl, rfl, rfl, rfl, rfl, rfl⟩

theorem hazardTick_keeps (t : Nat) (s : State) : Keeps s (hazardTick t s) := by
  unfold hazardTick
  extract_lets +onlyGivenNames x
  extract_lets +onlyGivenNames x
  clear_value x
  extract_lets +onlyGivenNames x
  clear_value x
  extract_lets +onlyGivenNames x
  clear_value x
  with_reducible exact keeps_mkc (Keeps.refl _) ⟨rfl, rfl, rfl, rfl, rfl, rfl, rfl, rfl⟩

theorem lateFound_keeps (t : Nat) (s : State) : Keeps s (lateFound t s) := by
  unfold lateFound
  extract_lets +onlyGivenNames x
  extract_lets +onlyGivenNames x
  clear_value x
  extract_lets +onlyGivenNames x
  clear_value x
  extract_lets +onlyGivenNames x
  refine keeps_through (x := x) ?_ (fun hx => ?_)
  · with_reducible exact keeps_mkc (Keeps.refl _) ⟨rfl, rfl, rfl, rfl, rfl, rfl, rfl, rfl⟩
  · clear_value x
    refine keeps_foldl ?_ (fun s x hs => ?_)
    · exact hx
    · with_reducible refine Keeps.trans ?_ (countLate_keeps _ _)
      exact hs

theorem commitLate_keeps (s : State) : Keeps s (commitLate s) := by
  unfold commitLate
  extract_lets +onlyGivenNames x
  clear_value x
  extract_lets +onlyGivenNames x
  clear_value x
  extract_lets +onlyGivenNames x
  refine keeps_through (x := x) ?_ (fun hx => ?_)
  · with_reducible exact keeps_mkc (Keeps.refl _) ⟨rfl, rfl, rfl, rfl, rfl, rfl, rfl, rfl⟩
  · clear_value x
    refine keeps_foldl ?_ (fun s x hs => ?_)
    · exact hx
    · with_reducible refine Keeps.trans ?_ (countLate_keeps _ _)
      exact hs

theorem execMapHazard_keeps (d : Taken) (v : View) (commit : Nat) (s : State) {t' : State}  (h : execMapHazard d v commit s = .next t') : Keeps s t' := by
  unfold execMapHazard at h
  refine runAt_keeps (fun s => ?_) h
  split
  · exact Keeps.refl _
  · extract_lets +onlyGivenNames x
    clear_value x
    extract_lets +onlyGivenNames x
    refine keeps_through (x := x) ?_ (fun hx => ?_)
    · with_reducible refine Keeps.trans ?_ (applyView_keeps _ _)
      with_reducible exact keeps_mkc (Keeps.refl _) ⟨rfl, rfl, rfl, rfl, rfl, rfl, rfl, rfl⟩
    · clear_value x
      split
      · with_reducible refine Keeps.trans ?_ (refuse_keeps _ _ _)
        exact hx
      · split
        · with_reducible refine Keeps.trans ?_ (refuse_keeps _ _ _)
          exact hx
        · split
          · with_reducible refine Keeps.trans ?_ (refuse_keeps _ _ _)
            exact hx
          · split
            · with_reducible refine Keeps.trans ?_ (refuse_keeps _ _ _)
              exact hx
            · split
              · with_reducible refine Keeps.trans ?_ (refuse_keeps _ _ _)
                exact hx
              · dsimp only
                with_reducible refine Keeps.trans ?_ (withChecks_keeps _ _ _ _ ?_)
                · exact hx
                · intro x
                  with_reducible refine withRead_keeps _ _ _ _ _ _ ?_
                  intro x
                  intro x
                  split
                  · with_reducible refine refuse_keeps _ _ _
                  · split
                    · with_reducible refine refuse_keeps _ _ _
                    · refine keeps_foldl ?_ (fun s x hs => ?_)
                      · with_reducible refine keeps_mkc ?_ ⟨rfl, rfl, rfl, rfl, rfl, rfl, rfl, rfl⟩
                        with_reducible refine addWork_keeps _ _
                      · with_reducible refine Keeps.trans ?_ (countLate_keeps _ _)
                        exact hs

end Sys2Proof.Machine
end

