-- ==== Sys2Proof/Laws/KeepsOpt.lean ====
section
/-! SUPPORT. Every operation of Sys2Proof/Machine/Opt.lean keeps what `Keeps` speaks of. -/

namespace Sys2Proof.Machine

theorem setOpt_keeps (o : Opt) (s : State) : Keeps s (setOpt o s) := by
  unfold setOpt
  with_reducible exact keeps_mkc (Keeps.refl _) ⟨rfl, rfl, rfl, rfl, rfl, rfl, rfl, rfl⟩

theorem execOptimisationStart_keeps (t : Nat) (wid : Nat) (idx : Nat) (s : State) {t' : State}  (h : execOptimisationStart t wid idx s = .next t') : Keeps s t' := by
  unfold execOptimisationStart at h
  refine runAt_keeps (fun s => ?_) h
  split
  · extract_lets +onlyGivenNames x
    clear_value x
    split
    · exact Keeps.refl _
    · extract_lets +onlyGivenNames x
      clear_value x
      with_reducible refine setOpt_keeps _ _
  · exact Keeps.refl _

theorem execOuterCommit_keeps (t : Nat) (wid : Nat) (idx : Nat) (cmp : Nat) (s : State) {t' : State}  (h : execOuterCommit t wid idx cmp s = .next t') : Keeps s t' := by
  unfold execOuterCommit at h
  refine runAt_keeps (fun s => ?_) h
  split
  · split
    · exact Keeps.refl _
    · split
      · exact Keeps.refl _
      · extract_lets +onlyGivenNames x
        clear_value x
        extract_lets +onlyGivenNames x
        refine keeps_through (x := x) ?_ (fun hx => ?_)
        · with_reducible refine setOpt_keeps _ _
        · clear_value x
          split
          · exact hx
          · with_reducible refine Keeps.trans ?_ (logWork_keeps _ _ _ _ _ _ _ _)
            exact hx
  · exact Keeps.refl _

theorem execDeadlineCut_keeps (t : Nat) (wid : Nat) (idx : Nat) (inner : Nat) (tries : Nat) (s : State) {t' : State}  (h : execDeadlineCut t wid idx inner tries s = .next t') : Keeps s t' := by
  unfold execDeadlineCut at h
  refine runAt_keeps (fun s => ?_) h
  split
  · split
    · exact Keeps.refl _
    · with_reducible refine Keeps.trans ?_ (cutOpt_keeps _ _ _)
      with_reducible refine setOpt_keeps _ _
  · exact Keeps.refl _

theorem execSolve_keeps (d : Taken) (v : View) (s : State) {t' : State}  (h : execSolve d v s = .next t') : Keeps s t' := by
  unfold execSolve at h
  refine runAt_keeps (fun s => ?_) h
  split
  · exact Keeps.refl _
  · extract_lets +onlyGivenNames x
    clear_value x
    extract_lets +onlyGivenNames x
    refine keeps_through (x := x) ?_ (fun hx => ?_)
    · with_reducible refine Keeps.trans ?_ (applyView_keeps _ _)
      with_reducible exact keeps_mkc (Keeps.refl _) ⟨rfl, rfl, rfl, rfl, rfl, rfl, rfl, rfl⟩
    · clear_value x
      split
      · with_reducible refine Keeps.trans ?_ (refuse_keeps _ _ _)
        exact hx
      · split
        · with_reducible refine Keeps.trans ?_ (refuse_keeps _ _ _)
          exact hx
        · split
          · with_reducible refine Keeps.trans ?_ (refuse_keeps _ _ _)
            exact hx
          · split
            · with_reducible refine Keeps.trans ?_ (refuse_keeps _ _ _)
              exact hx
            · split
              · with_reducible refine Keeps.trans ?_ (refuse_keeps _ _ _)
                exact hx
              · dsimp only
                with_reducible refine Keeps.trans ?_ (withChecks_keeps _ _ _ _ ?_)
                · exact hx
                · intro x
                  split
                  · with_reducible refine Keeps.trans ?_ (refuse_keeps _ _ _)
                    refine keeps_foldl (Keeps.refl _) (fun s x hs => ?_)
                    with_reducible refine Keeps.trans ?_ (takeEvent_keeps _ _ _ _)
                    exact hs
                  · split
                    · with_reducible refine Keeps.trans ?_ (refuse_keeps _ _ _)
                      refine keeps_foldl (Keeps.refl _) (fun s x hs => ?_)
                      with_reducible refine Keeps.trans ?_ (takeEvent_keeps _ _ _ _)
                      exact hs
                    · split
                      · split
                        · with_reducible refine Keeps.trans ?_ (refuse_keeps _ _ _)
                          refine keeps_foldl (Keeps.refl _) (fun s x hs => ?_)
                          with_reducible refine Keeps.trans ?_ (takeEvent_keeps _ _ _ _)
                          exact hs
                        · split
                          · with_reducible refine Keeps.trans ?_ (refuse_keeps _ _ _)
                            refine keeps_foldl (Keeps.refl _) (fun s x hs => ?_)
                            with_reducible refine Keeps.trans ?_ (takeEvent_keeps _ _ _ _)
                            exact hs
                          · with_reducible refine Keeps.trans ?_ (addWork_keeps _ _)
                            refine keeps_foldl (Keeps.refl _) (fun s x hs => ?_)
                            with_reducible refine Keeps.trans ?_ (takeEvent_keeps _ _ _ _)
                            exact hs
                      · with_reducible refine Keeps.trans ?_ (refuse_keeps _ _ _)
                        refine keeps_foldl (Keeps.refl _) (fun s x hs => ?_)
                        with_reducible refine Keeps.trans ?_ (takeEvent_keeps _ _ _ _)
                        exact hs

theorem startProblem_keeps (w : Work) (sv : SvWork) (i : Nat) (s : State) : Keeps s (startProblem w sv i s) := by
  unfold startProblem
  split
  · split
    extract_lets +onlyGivenNames x
    clear_value x
    extract_lets +onlyGivenNames x
    clear_value x
    extract_lets +onlyGivenNames x
    clear_value x
    extract_lets +onlyGivenNames x
    refine keeps_through (x := x) ?_ (fun hx => ?_)
    · with_reducible exact keeps_mkc (Keeps.refl _) ⟨rfl, rfl, rfl, rfl, rfl, rfl, rfl, rfl⟩
    · clear_value x
      with_reducible refine Keeps.trans ?_ (setItem_keeps _ _ _)
      exact hx
  · exact Keeps.refl _

theorem finishSolve_keeps (w : Work) (c : PClass) (sv : SvWork) (s : State) : Keeps s (finishSolve w c sv s) := by
  unfold finishSolve
  extract_lets +onlyGivenNames x
  clear_value x
  extract_lets +onlyGivenNames x
  clear_value x
  extract_lets +onlyGivenNames x
  clear_value x
  extract_lets +onlyGivenNames x
  refine keeps_through (x := x) ?_ (fun hx => ?_)
  · with_reducible refine hostWrite_keeps _ _ _ _
  · clear_value x
    extract_lets +onlyGivenNames x
    refine keeps_through (x := x) ?_ (fun hx => ?_)
    · with_reducible refine Keeps.trans ?_ (logWork_keeps _ _ _ _ _ _ _ _)
      exact hx
    · clear_value x
      with_reducible refine Keeps.trans ?_ (finishWork_keeps _ _ _ _ _ _ _)
      exact hx

theorem execSolveProblemStop_keeps (t : Nat) (wid : Nat) (idx : Nat) (s : State) {t' : State}  (h : execSolveProblemStop t wid idx s = .next t') : Keeps s t' := by
  unfold execSolveProblemStop at h
  refine runAt_keeps (fun s => ?_) h
  split
  · split
    · split
      · exact Keeps.refl _
      · extract_lets +onlyGivenNames x
        clear_value x
        extract_lets +onlyGivenNames x
        clear_value x
        extract_lets +onlyGivenNames x
        refine keeps_through (x := x) ?_ (fun hx => ?_)
        · with_reducible refine Keeps.trans ?_ (setItem_keeps _ _ _)
          with_reducible exact keeps_mkc (Keeps.refl _) ⟨rfl, rfl, rfl, rfl, rfl, rfl, rfl, rfl⟩
        · clear_value x
          split
          · with_reducible refine Keeps.trans ?_ (finishSolve_keeps _ _ _ _)
            exact hx
          · exact hx
    · exact Keeps.refl _
  · exact Keeps.refl _

end Sys2Proof.Machine
end

