-- ==== Sys2Proof/Laws/KeepsNet.lean ====
section
/-! SUPPORT. Every operation of Sys2Proof/Machine/Net.lean keeps what `Keeps` speaks of. -/

namespace Sys2Proof.Machine

theorem armNet_keeps (s : State) : Keeps s (armNet s) := by
  unfold armNet
  split
  · with_reducible refine keeps_mkg (Keeps.refl _) ?_ ?_ ?_ ?_ ?_ ?_
    · exact id
    · exact id
    · (intro h; simp; done)
    · exact id
    · exact id
    · exact Nat.le_refl _
  · exact Keeps.refl _

theorem settleForce_keeps (s : State) : Keeps s (settleForce s) := by
  unfold settleForce
  split
  · exact ⟨rfl, id, id, fun _ _ => ⟨rfl, rfl⟩, id, id, rfl, Nat.le_refl _⟩
  · exact Keeps.refl s

theorem execNetComesIntoForce_keeps (t : Nat) (s : State) {t' : State}  (h : execNetComesIntoForce t s = .next t') : Keeps s t' := by
  unfold execNetComesIntoForce at h
  refine runAt_keeps (fun s => ?_) h
  with_reducible refine armNet_keeps _

theorem execNetExpiry_keeps (t : Nat) (s : State) {t' : State}  (h : execNetExpiry t s = .next t') : Keeps s t' := by
  unfold execNetExpiry at h
  refine runAt_keeps (fun s => ?_) h
  split
  · split
    · with_reducible refine fireWith_keeps _ _ _
    · exact Keeps.refl _
  · exact Keeps.refl _

theorem execNetStandstill_keeps (t : Nat) (s : State) {t' : State}  (h : execNetStandstill t s = .next t') : Keeps s t' := by
  unfold execNetStandstill at h
  refine runAt_keeps (fun s => ?_) h
  split
  · split
    · with_reducible refine keeps_mkg (Keeps.refl _) ?_ ?_ ?_ ?_ ?_ ?_
      · exact id
      · exact id
      · (intro h; simp_all; done)
      · exact id
      · exact id
      · exact Nat.le_refl _
    · exact Keeps.refl _
  · exact Keeps.refl _

theorem execHostHeartbeatTimeout_keeps (t : Nat) (s : State) {t' : State}  (h : execHostHeartbeatTimeout t s = .next t') : Keeps s t' := by
  unfold execHostHeartbeatTimeout at h
  refine runAt_keeps (fun s => ?_) h
  split
  · with_reducible refine Keeps.trans ?_ (fireNet_keeps _ _)
    with_reducible refine Keeps.trans ?_ (raise_keeps _ _ _ _)
    with_reducible exact keeps_mkc (Keeps.refl _) ⟨rfl, rfl, rfl, rfl, rfl, rfl, rfl, rfl⟩
  · exact Keeps.refl _

theorem setChan_keeps (c : Nat) (x : Chan) (s : State) : Keeps s (setChan c x s) := by
  unfold setChan
  with_reducible refine keeps_mkg (Keeps.refl _) ?_ ?_ ?_ ?_ ?_ ?_
  · exact id
  · exact id
  · (intro h; split <;> exact h)
  · exact id
  · exact id
  · exact Nat.le_refl _

theorem execDriveRequest_keeps (t : Nat) (a : Bool) (b : Bool) (s : State) {t' : State}  (h : execDriveRequest t a b s = .next t') : Keeps s t' := by
  unfold execDriveRequest at h
  refine runAt_keeps (fun s => ?_) h
  extract_lets +onlyGivenNames x
  clear_value x
  extract_lets +onlyGivenNames x
  clear_value x
  extract_lets +onlyGivenNames x
  extract_lets +onlyGivenNames x
  clear_value x
  extract_lets +onlyGivenNames x
  clear_value x
  extract_lets +onlyGivenNames x
  refine keeps_through (x := x) ?_ (fun hx => ?_)
  · with_reducible exact keeps_mkc (Keeps.refl _) ⟨rfl, rfl, rfl, rfl, rfl, rfl, rfl, rfl⟩
  · clear_value x
    split
    · with_reducible refine Keeps.trans ?_ (fireNet_keeps _ _)
      exact hx
    · split
      · with_reducible refine Keeps.trans ?_ (fireNet_keeps _ _)
        exact hx
      · exact hx

theorem execDriveHeartbeatEdge_keeps (t : Nat) (ch : Nat) (s : State) {t' : State}  (h : execDriveHeartbeatEdge t ch s = .next t') : Keeps s t' := by
  unfold execDriveHeartbeatEdge at h
  refine runAt_keeps (fun s => ?_) h
  split
  · extract_lets +onlyGivenNames x
    clear_value x
    extract_lets +onlyGivenNames x
    clear_value x
    with_reducible refine setChan_keeps _ _ _
  · exact Keeps.refl _

theorem execDriveHeartbeatTimeout_keeps (t : Nat) (ch : Nat) (s : State) {t' : State}  (h : execDriveHeartbeatTimeout t ch s = .next t') : Keeps s t' := by
  unfold execDriveHeartbeatTimeout at h
  refine runAt_keeps (fun s => ?_) h
  extract_lets +onlyGivenNames x
  clear_value x
  extract_lets +onlyGivenNames x
  clear_value x
  split
  · with_reducible refine Keeps.trans ?_ (raise_keeps _ _ _ _)
    with_reducible refine setChan_keeps _ _ _
  · exact Keeps.refl _

theorem netControl_keeps (d : Taken) (v : View) (op : Nat) (s : State) (k : State → State) {t' : State} (hk : ∀ s, Keeps s (k s)) (h : netControl d v op s k = .next t') : Keeps s t' := by
  unfold netControl at h
  split at h
  · exact runAt_keeps (fun s => Keeps.refl s) h
  · refine runAt_keeps (fun s => ?_) h
    split
    · exact Keeps.refl _
    · extract_lets +onlyGivenNames x
      clear_value x
      extract_lets +onlyGivenNames x
      refine keeps_through (x := x) ?_ (fun hx => ?_)
      · with_reducible refine Keeps.trans ?_ (applyView_keeps _ _)
        with_reducible exact keeps_mkc (Keeps.refl _) ⟨rfl, rfl, rfl, rfl, rfl, rfl, rfl, rfl⟩
      · clear_value x
        split
        · with_reducible refine Keeps.trans ?_ (refuse_keeps _ _ _)
          exact hx
        · split
          · with_reducible refine Keeps.trans ?_ (refuse_keeps _ _ _)
            exact hx
          · split
            · with_reducible refine Keeps.trans ?_ (refuse_keeps _ _ _)
              exact hx
            · split
              · with_reducible refine Keeps.trans ?_ (refuse_keeps _ _ _)
                exact hx
              · split
                · with_reducible refine Keeps.trans ?_ (refuse_keeps _ _ _)
                  exact hx
                · split
                  · refine keeps_ite (fun h => ?_) (fun h => ?_)
                    · with_reducible refine Keeps.trans ?_ (putCompletion_keeps _ _ _ _ _)
                      exact hx
                    · with_reducible refine Keeps.trans ?_ (sendFlit_keeps _ _ _)
                      exact hx
                  · dsimp only
                    with_reducible refine Keeps.trans ?_ (hk _)
                    exact hx

theorem netDone_keeps (d : Taken) (flags : Nat) (s : State) : Keeps s (netDone d flags s) := by
  unfold netDone
  with_reducible refine complete_keeps _ _ _ _ _ _ _

theorem execConfigure_keeps (d : Taken) (v : View) (s : State) {t' : State}  (h : execConfigure d v s = .next t') : Keeps s t' := by
  unfold execConfigure at h
  refine netControl_keeps _ _ _ _ _  (fun s => ?_) h
  with_reducible refine withChecks_keeps _ _ _ _ ?_
  intro x
  with_reducible refine addWork_keeps _ _

theorem execFire_keeps (d : Taken) (v : View) (s : State) {t' : State}  (h : execFire d v s = .next t') : Keeps s t' := by
  unfold execFire at h
  refine netControl_keeps _ _ _ _ _  (fun s => ?_) h
  extract_lets +onlyGivenNames x
  refine keeps_through (x := x) ?_ (fun hx => ?_)
  · with_reducible refine fireNet_keeps _ _
  · clear_value x
    with_reducible refine Keeps.trans ?_ (netDone_keeps _ _ _)
    exact hx

theorem execRelease_keeps (d : Taken) (v : View) (s : State) {t' : State}  (h : execRelease d v s = .next t') : Keeps s t' := by
  unfold execRelease at h
  refine netControl_keeps _ _ _ _ _  (fun s => ?_) h
  split
  · with_reducible refine refuse_keeps _ _ _
  · with_reducible refine Keeps.trans ?_ (netDone_keeps _ _ _)
    with_reducible refine keeps_mkg (Keeps.refl _) ?_ ?_ ?_ ?_ ?_ ?_
    · exact id
    · exact id
    · (intro h; simp_all; done)
    · exact id
    · exact id
    · exact Nat.le_refl _

theorem execHeartbeat_keeps (d : Taken) (v : View) (s : State) {t' : State}  (h : execHeartbeat d v s = .next t') : Keeps s t' := by
  unfold execHeartbeat at h
  refine netControl_keeps _ _ _ _ _  (fun s => ?_) h
  with_reducible refine Keeps.trans ?_ (netDone_keeps _ _ _)
  with_reducible refine hostHeartbeat_keeps _ _

theorem configTick_keeps (t : Nat) (c : NetCfg) (w : Work) (s : State) : Keeps s (configTick t c w s) := by
  unfold configTick
  split
  · extract_lets +onlyGivenNames x
    extract_lets +onlyGivenNames x
    clear_value x
    extract_lets +onlyGivenNames x
    clear_value x
    extract_lets +onlyGivenNames x
    refine keeps_through (x := x) ?_ (fun hx => ?_)
    · with_reducible exact keeps_mkc (Keeps.refl _) ⟨rfl, rfl, rfl, rfl, rfl, rfl, rfl, rfl⟩
    · clear_value x
      extract_lets +onlyGivenNames x
      extract_lets +onlyGivenNames x
      refine keeps_through (x := x) ?_ (fun hx => ?_)
      · with_reducible refine keeps_mkc ?_ ⟨rfl, rfl, rfl, rfl, rfl, rfl, rfl, rfl⟩
        exact hx
      · clear_value x
        with_reducible refine Keeps.trans ?_ (finishWork_keeps _ _ _ _ _ _ _)
        exact hx
  · exact Keeps.refl _

theorem vRaisedTick_keeps (s : State) : Keeps s (vRaisedTick s) := by
  unfold vRaisedTick
  split
  · with_reducible exact keeps_mkc (Keeps.refl _) ⟨rfl, rfl, rfl, rfl, rfl, rfl, rfl, rfl⟩
  · extract_lets +onlyGivenNames x
    clear_value x
    with_reducible exact keeps_mkc (Keeps.refl _) ⟨rfl, rfl, rfl, rfl, rfl, rfl, rfl, rfl⟩

theorem logNet_keeps (n : NetRec) (sub : Nat) (s : State) : Keeps s (logNet n sub s) := by
  unfold logNet
  with_reducible refine logEntry_keeps _ _ _ _ _ _ _ _ _

theorem certFailed_keeps (s : State) : Keeps s (certFailed s) := by
  unfold certFailed
  with_reducible refine Keeps.trans ?_ (raise_keeps _ _ _ _)
  with_reducible refine modFrame_keeps _ _

theorem certifyFrame_keeps (upset : Nat) (f : Frame) (s : State) : Keeps s (certifyFrame upset f s) := by
  unfold certifyFrame
  split
  · with_reducible refine modFrame_keeps _ _
  · split
    · with_reducible refine modFrame_keeps _ _
    · split
      · with_reducible refine certFailed_keeps _
      · split
        · with_reducible refine certFailed_keeps _
        · split
          · with_reducible refine certFailed_keeps _
          · split
            · split
              · with_reducible refine modFrame_keeps _ _
              · with_reducible refine certFailed_keeps _
            · with_reducible refine certFailed_keeps _

theorem execNetCertification_keeps (t : Nat) (upset : Nat) (s : State) {t' : State}  (h : execNetCertification t upset s = .next t') : Keeps s t' := by
  unfold execNetCertification at h
  refine runAt_keeps (fun s => ?_) h
  split
  · split
    · exact Keeps.refl _
    · with_reducible refine Keeps.trans ?_ (certifyFrame_keeps _ _ _)
      with_reducible refine applyLate_keeps _
  · exact Keeps.refl _

theorem bankNet_keeps (n : NetRec) (s : State) : Keeps s (bankNet n s) := by
  unfold bankNet
  with_reducible refine Keeps.trans ?_ (settleForce_keeps _)
  with_reducible refine Keeps.trans ?_ (logNet_keeps _ _ _)
  with_reducible exact keeps_mkc (Keeps.refl _) ⟨rfl, rfl, rfl, rfl, rfl, rfl, rfl, rfl⟩

theorem execNetBank_keeps (t : Nat) (s : State) {t' : State}  (h : execNetBank t s = .next t') : Keeps s t' := by
  unfold execNetBank at h
  refine runAt_keeps (fun s => ?_) h
  extract_lets +onlyGivenNames x
  refine keeps_through (x := x) ?_ (fun hx => ?_)
  · with_reducible refine applyLate_keeps _
  · clear_value x
    split
    · split
      · split
        · exact hx
        · split
          · with_reducible refine Keeps.trans ?_ (modFrame_keeps _ _)
            exact hx
          · split
            · with_reducible refine Keeps.trans ?_ (modFrame_keeps _ _)
              exact hx
            · split
              · with_reducible refine Keeps.trans ?_ (certFailed_keeps _)
                exact hx
              · with_reducible refine Keeps.trans ?_ (bankNet_keeps _ _)
                with_reducible refine Keeps.trans ?_ (modFrame_keeps _ _)
                exact hx
      · exact hx
    · exact hx

theorem execCertificationOverrun_keeps (t : Nat) (s : State) {t' : State}  (h : execCertificationOverrun t s = .next t') : Keeps s t' := by
  unfold execCertificationOverrun at h
  refine runAt_keeps (fun s => ?_) h
  split
  · split
    · exact Keeps.refl _
    · split
      · with_reducible refine modFrame_keeps _ _
      · split
        · with_reducible refine modFrame_keeps _ _
        · with_reducible refine Keeps.trans ?_ (raise_keeps _ _ _ _)
          with_reducible refine Keeps.trans ?_ (certFailed_keeps _)
          with_reducible refine modFrame_keeps _ _
  · exact Keeps.refl _

theorem replaceNet_keeps (n : NetRec) (s : State) : Keeps s (replaceNet n s) := by
  unfold replaceNet
  extract_lets +onlyGivenNames x
  with_reducible exact keeps_mkc (Keeps.refl _) ⟨rfl, rfl, rfl, rfl, rfl, rfl, rfl, rfl⟩

theorem strikeNet_keeps (n : NetRec) (s : State) : Keeps s (strikeNet n s) := by
  unfold strikeNet
  split
  · with_reducible refine fireNet_keeps _ _
  · extract_lets +onlyGivenNames x
    with_reducible refine Keeps.trans ?_ (settleForce_keeps _)
    with_reducible exact keeps_mkc (Keeps.refl _) ⟨rfl, rfl, rfl, rfl, rfl, rfl, rfl, rfl⟩

theorem recertify_keeps (upset : Nat) (f : Frame) (s : State) (n : NetRec) : Keeps s (recertify upset f s n) := by
  unfold recertify
  extract_lets +onlyGivenNames x
  clear_value x
  split
  · split
    · extract_lets +onlyGivenNames x
      clear_value x
      with_reducible refine Keeps.trans ?_ (logNet_keeps _ _ _)
      with_reducible refine replaceNet_keeps _ _
    · extract_lets +onlyGivenNames x
      refine keeps_through (x := x) ?_ (fun hx => ?_)
      · with_reducible refine raise_keeps _ _ _ _
      · clear_value x
        split
        · with_reducible refine Keeps.trans ?_ (strikeNet_keeps _ _)
          exact hx
        · exact hx
  · split
    · exact Keeps.refl _
    · with_reducible refine raise_keeps _ _ _ _

theorem execNetRecertification_keeps (t : Nat) (upset : Nat) (s : State) {t' : State}  (h : execNetRecertification t upset s = .next t') : Keeps s t' := by
  unfold execNetRecertification at h
  refine runAt_keeps (fun s => ?_) h
  split
  · split
    · exact Keeps.refl _
    · extract_lets +onlyGivenNames x
      refine keeps_through (x := x) ?_ (fun hx => ?_)
      · with_reducible refine Keeps.trans ?_ (applyLate_keeps _)
        with_reducible refine modFrame_keeps _ _
      · clear_value x
        refine keeps_foldl ?_ (fun s x hs => ?_)
        · exact hx
        · with_reducible refine Keeps.trans ?_ (recertify_keeps _ _ _ _)
          exact hs
  · exact Keeps.refl _

theorem execImmediateRecertification_keeps (t : Nat) (upset : Nat) (s : State) {t' : State}  (h : execImmediateRecertification t upset s = .next t') : Keeps s t' := by
  unfold execImmediateRecertification at h
  refine runAt_keeps (fun s => ?_) h
  split
  · exact Keeps.refl _
  · extract_lets +onlyGivenNames x
    extract_lets +onlyGivenNames x
    refine keeps_through (x := x) ?_ (fun hx => ?_)
    · with_reducible refine Keeps.trans ?_ (applyLate_keeps _)
      with_reducible exact keeps_mkc (Keeps.refl _) ⟨rfl, rfl, rfl, rfl, rfl, rfl, rfl, rfl⟩
    · clear_value x
      split
      · exact hx
      · split
        · exact hx
        · extract_lets +onlyGivenNames x
          clear_value x
          split
          · split
            · extract_lets +onlyGivenNames x
              clear_value x
              with_reducible refine Keeps.trans ?_ (logNet_keeps _ _ _)
              with_reducible refine Keeps.trans ?_ (replaceNet_keeps _ _)
              exact hx
            · with_reducible refine Keeps.trans ?_ (strikeNet_keeps _ _)
              with_reducible refine Keeps.trans ?_ (raise_keeps _ _ _ _)
              exact hx
          · with_reducible refine Keeps.trans ?_ (strikeNet_keeps _ _)
            with_reducible refine Keeps.trans ?_ (raise_keeps _ _ _ _)
            exact hx

theorem transact_keeps (c : Nat) (reply : Bytes) (s : State) : Keeps s (transact c reply s) := by
  unfold transact
  extract_lets +onlyGivenNames x
  clear_value x
  split
  · exact Keeps.refl _
  · extract_lets +onlyGivenNames x
    clear_value x
    with_reducible refine setChan_keeps _ _ _

theorem markFirst_keeps (s : State) : Keeps s (markFirst s) := by
  unfold markFirst
  extract_lets +onlyGivenNames x
  with_reducible exact keeps_mkc (Keeps.refl _) ⟨rfl, rfl, rfl, rfl, rfl, rfl, rfl, rfl⟩

theorem execSetpointFrame_keeps (t : Nat) (replyA : Bytes) (replyB : Bytes) (s : State) {t' : State}  (h : execSetpointFrame t replyA replyB s = .next t') : Keeps s t' := by
  unfold execSetpointFrame at h
  refine runAt_keeps (fun s => ?_) h
  split
  · exact Keeps.refl _
  · extract_lets +onlyGivenNames x
    refine keeps_through (x := x) ?_ (fun hx => ?_)
    · with_reducible refine Keeps.trans ?_ (bumpFresh_keeps _)
      with_reducible refine Keeps.trans ?_ (markFirst_keeps _)
      with_reducible refine Keeps.trans ?_ (transact_keeps _ _ _)
      with_reducible refine transact_keeps _ _ _
    · clear_value x
      extract_lets +onlyGivenNames x
      refine keeps_through (x := x) ?_ (fun hx => ?_)
      · unfold x
        split
        · with_reducible refine Keeps.trans ?_ (raise_keeps _ _ _ _)
          exact hx
        · exact hx
      · clear_value x
        split
        · with_reducible refine Keeps.trans ?_ (raise_keeps _ _ _ _)
          exact hx
        · exact hx

theorem execSafeStopMismatch_keeps (t : Nat) (ch : Nat) (level : Bool) (s : State) {t' : State}  (h : execSafeStopMismatch t ch level s = .next t') : Keeps s t' := by
  unfold execSafeStopMismatch at h
  refine runAt_keeps (fun s => ?_) h
  split
  · exact Keeps.refl _
  · split
    · with_reducible refine setChan_keeps _ _ _
    · with_reducible refine Keeps.trans ?_ (raise_keeps _ _ _ _)
      with_reducible refine setChan_keeps _ _ _

theorem execStreamerMismatch_keeps (t : Nat) (s : State) {t' : State}  (h : execStreamerMismatch t s = .next t') : Keeps s t' := by
  unfold execStreamerMismatch at h
  refine runAt_keeps (fun s => ?_) h
  with_reducible refine Keeps.trans ?_ (raise_keeps _ _ _ _)
  with_reducible refine Keeps.trans ?_ (assertSafeStop_keeps _)
  with_reducible exact keeps_mkc (Keeps.refl _) ⟨rfl, rfl, rfl, rfl, rfl, rfl, rfl, rfl⟩

end Sys2Proof.Machine
end

