-- ==== Sys2Proof/Laws/KeepsBody.lean ====
section
/-! SUPPORT. Every operation of Sys2Proof/Machine/Body.lean keeps what `Keeps` speaks of. -/

namespace Sys2Proof.Machine

theorem queueBody_keeps (d : Taken) (op : Nat) (b : Body) (s : State) : Keeps s (queueBody d op b s) := by
  unfold queueBody
  split
  · split
    · with_reducible refine addWork_keeps _ _
    · with_reducible refine refuse_keeps _ _ _
  · with_reducible refine addWork_keeps _ _

theorem execBodyLoad_keeps (d : Taken) (v : View) (s : State) {t' : State}  (h : execBodyLoad d v s = .next t') : Keeps s t' := by
  unfold execBodyLoad at h
  refine runAt_keeps (fun s => ?_) h
  split
  · exact Keeps.refl _
  · extract_lets +onlyGivenNames x
    clear_value x
    extract_lets +onlyGivenNames x
    refine keeps_through (x := x) ?_ (fun hx => ?_)
    · with_reducible refine Keeps.trans ?_ (applyView_keeps _ _)
      with_reducible exact keeps_mkc (Keeps.refl _) ⟨rfl, rfl, rfl, rfl, rfl, rfl, rfl, rfl⟩
    · clear_value x
      split
      · with_reducible refine Keeps.trans ?_ (refuse_keeps _ _ _)
        exact hx
      · split
        · with_reducible refine Keeps.trans ?_ (refuse_keeps _ _ _)
          exact hx
        · split
          · with_reducible refine Keeps.trans ?_ (refuse_keeps _ _ _)
            exact hx
          · split
            · with_reducible refine Keeps.trans ?_ (refuse_keeps _ _ _)
              exact hx
            · split
              · with_reducible refine Keeps.trans ?_ (refuse_keeps _ _ _)
                exact hx
              · dsimp only
                with_reducible refine Keeps.trans ?_ (withChecks_keeps _ _ _ _ ?_)
                · exact hx
                · intro x
                  with_reducible refine withRead_keeps _ _ _ _ _ _ ?_
                  intro x
                  intro x
                  with_reducible refine withChecks_keeps _ _ _ _ ?_
                  intro x
                  with_reducible refine withRead_keeps _ _ _ _ _ _ ?_
                  intro x
                  intro x
                  split
                  · split
                    · with_reducible refine refuse_keeps _ _ _
                    · with_reducible refine queueBody_keeps _ _ _ _
                  · split
                    · with_reducible refine refuse_keeps _ _ _
                    · split
                      · split
                        · with_reducible refine refuse_keeps _ _ _
                        · with_reducible refine queueBody_keeps _ _ _ _
                      · split
                        · with_reducible refine refuse_keeps _ _ _
                        · with_reducible refine queueBody_keeps _ _ _ _
                  · with_reducible refine queueBody_keeps _ _ _ _

theorem bodyTick_keeps (t : Nat) (op : Nat) (b : Body) (w : Work) (s : State) : Keeps s (bodyTick t op b w s) := by
  unfold bodyTick
  split
  · split
    · with_reducible refine finishWork_keeps _ _ _ _ _ _ _
    · with_reducible refine Keeps.trans ?_ (finishWork_keeps _ _ _ _ _ _ _)
      with_reducible exact keeps_mkc (Keeps.refl _) ⟨rfl, rfl, rfl, rfl, rfl, rfl, rfl, rfl⟩
  · exact Keeps.refl _

theorem bodyChangeover_keeps (s : State) : Keeps s (bodyChangeover s) := by
  unfold bodyChangeover
  extract_lets +onlyGivenNames x
  refine keeps_through (x := x) ?_ (fun hx => ?_)
  · with_reducible exact keeps_mkc (Keeps.refl _) ⟨rfl, rfl, rfl, rfl, rfl, rfl, rfl, rfl⟩
  · clear_value x
    refine keeps_foldl ?_ (fun s x hs => ?_)
    · exact hx
    · split
      · split
        · split
          · exact hs
          · with_reducible refine Keeps.trans ?_ (finishWork_keeps _ _ _ _ _ _ _)
            exact hs
        · exact hs
      · exact hs

end Sys2Proof.Machine
end

