-- ==== Sys2Proof/Laws/KeepsSelect.lean ====
section
/-! SUPPORT. Every operation of Sys2Proof/Machine/Select.lean keeps what `Keeps` speaks of. -/

namespace Sys2Proof.Machine

theorem execSelect_keeps (d : Taken) (v : View) (s : State) {t' : State}  (h : execSelect d v s = .next t') : Keeps s t' := by
  unfold execSelect at h
  refine runAt_keeps (fun s => ?_) h
  split
  · exact Keeps.refl _
  · extract_lets +onlyGivenNames x
    clear_value x
    extract_lets +onlyGivenNames x
    refine keeps_through (x := x) ?_ (fun hx => ?_)
    · with_reducible refine Keeps.trans ?_ (applyView_keeps _ _)
      with_reducible exact keeps_mkc (Keeps.refl _) ⟨rfl, rfl, rfl, rfl, rfl, rfl, rfl, rfl⟩
    · clear_value x
      split
      · with_reducible refine Keeps.trans ?_ (refuse_keeps _ _ _)
        exact hx
      · split
        · with_reducible refine Keeps.trans ?_ (refuse_keeps _ _ _)
          exact hx
        · split
          · with_reducible refine Keeps.trans ?_ (refuse_keeps _ _ _)
            exact hx
          · split
            · with_reducible refine Keeps.trans ?_ (refuse_keeps _ _ _)
              exact hx
            · split
              · with_reducible refine Keeps.trans ?_ (refuse_keeps _ _ _)
                exact hx
              · dsimp only
                with_reducible refine Keeps.trans ?_ (withChecks_keeps _ _ _ _ ?_)
                · exact hx
                · intro x
                  split
                  · split
                    · with_reducible refine refuse_keeps _ _ _
                    · split
                      · with_reducible refine refuse_keeps _ _ _
                      · with_reducible refine addWork_keeps _ _
                  · split
                    · with_reducible refine refuse_keeps _ _ _
                    · split
                      · with_reducible refine refuse_keeps _ _ _
                      · with_reducible refine addWork_keeps _ _

theorem abortRead_keeps (w : Work) (a : Nat) (s : State) : Keeps s (abortRead w a s) := by
  unfold abortRead
  extract_lets +onlyGivenNames x
  refine keeps_through (x := x) ?_ (fun hx => ?_)
  · with_reducible refine raise_keeps _ _ _ _
  · clear_value x
    extract_lets +onlyGivenNames x
    refine keeps_through (x := x) ?_ (fun hx => ?_)
    · with_reducible refine Keeps.trans ?_ (finishWork_keeps _ _ _ _ _ _ _)
      exact hx
    · clear_value x
      with_reducible refine keeps_mkc ?_ ⟨rfl, rfl, rfl, rfl, rfl, rfl, rfl, rfl⟩
      exact hx

theorem finishSelect_keeps (w : Work) (sl : SlWork) (s : State) : Keeps s (finishSelect w sl s) := by
  unfold finishSelect
  extract_lets +onlyGivenNames x
  clear_value x
  extract_lets +onlyGivenNames x
  clear_value x
  extract_lets +onlyGivenNames x
  clear_value x
  extract_lets +onlyGivenNames x
  clear_value x
  extract_lets +onlyGivenNames x
  clear_value x
  extract_lets +onlyGivenNames x
  clear_value x
  extract_lets +onlyGivenNames x
  refine keeps_through (x := x) ?_ (fun hx => ?_)
  · with_reducible refine hostWrite_keeps _ _ _ _
  · clear_value x
    extract_lets +onlyGivenNames x
    refine keeps_through (x := x) ?_ (fun hx => ?_)
    · refine keeps_foldl ?_ (fun s x hs => ?_)
      · exact hx
      · with_reducible refine Keeps.trans ?_ (logWork_keeps _ _ _ _ _ _ _ _)
        exact hs
    · clear_value x
      extract_lets +onlyGivenNames x
      refine keeps_through (x := x) ?_ (fun hx => ?_)
      · with_reducible refine Keeps.trans ?_ (logWork_keeps _ _ _ _ _ _ _ _)
        exact hx
      · clear_value x
        with_reducible refine Keeps.trans ?_ (finishWork_keeps _ _ _ _ _ _ _)
        exact hx

theorem execSelectRowEnd_keeps (t : Nat) (wid : Nat) (row : Nat) (v : View) (s : State) {t' : State}  (h : execSelectRowEnd t wid row v s = .next t') : Keeps s t' := by
  unfold execSelectRowEnd at h
  refine runAt_keeps (fun s => ?_) h
  extract_lets +onlyGivenNames x
  refine keeps_through (x := x) ?_ (fun hx => ?_)
  · with_reducible refine applyView_keeps _ _
  · clear_value x
    split
    · exact hx
    · split
      · split
        · exact hx
        · extract_lets +onlyGivenNames x
          clear_value x
          extract_lets +onlyGivenNames x
          clear_value x
          split
          · extract_lets +onlyGivenNames x
            clear_value x
            extract_lets +onlyGivenNames x
            refine keeps_through (x := x) ?_ (fun hx => ?_)
            · with_reducible refine Keeps.trans ?_ (setItem_keeps _ _ _)
              exact hx
            · clear_value x
              split
              · with_reducible refine Keeps.trans ?_ (finishSelect_keeps _ _ _)
                exact hx
              · exact hx
          · with_reducible refine Keeps.trans ?_ (abortRead_keeps _ _ _)
            exact hx
          · with_reducible refine Keeps.trans ?_ (abortRead_keeps _ _ _)
            exact hx
      · exact hx

end Sys2Proof.Machine
end

