-- ==== Sys2Proof/Laws/KeepsTensor.lean ====
section
/-! SUPPORT. Every operation of Sys2Proof/Machine/Tensor.lean keeps what `Keeps` speaks of. -/

namespace Sys2Proof.Machine

theorem fillFlacon_keeps (s : State) : Keeps s (fillFlacon s) := by
  unfold fillFlacon
  with_reducible exact keeps_mkc (Keeps.refl _) ⟨rfl, rfl, rfl, rfl, rfl, rfl, rfl, rfl⟩

theorem dropFrameNets_keeps (s : State) : Keeps s (dropFrameNets s) := by
  unfold dropFrameNets
  with_reducible exact keeps_mkc (Keeps.refl _) ⟨rfl, rfl, rfl, rfl, rfl, rfl, rfl, rfl⟩

theorem setRun_keeps (n : NetRun) (s : State) : Keeps s (setRun n s) := by
  unfold setRun
  with_reducible exact keeps_mkc (Keeps.refl _) ⟨rfl, rfl, rfl, rfl, rfl, rfl, rfl, rfl⟩

theorem dropRun_keeps (n : NetRun) (s : State) : Keeps s (dropRun n s) := by
  unfold dropRun
  with_reducible exact keeps_mkc (Keeps.refl _) ⟨rfl, rfl, rfl, rfl, rfl, rfl, rfl, rfl⟩

theorem logLayer_keeps (n : NetRun) (layer : Nat) (digest : Nat) (s : State) : Keeps s (logLayer n layer digest s) := by
  unfold logLayer
  split
  · with_reducible refine logEntry_keeps _ _ _ _ _ _ _ _ _
  · split
    · with_reducible refine logWork_keeps _ _ _ _ _ _ _ _
    · exact Keeps.refl _

theorem noteLayer_keeps (n : NetRun) (layer : Nat) (digest : Nat) (s : State) : Keeps s (noteLayer n layer digest s) := by
  unfold noteLayer
  extract_lets +onlyGivenNames x
  refine keeps_through (x := x) ?_ (fun hx => ?_)
  · with_reducible refine logLayer_keeps _ _ _ _
  · clear_value x
    split
    · with_reducible refine Keeps.trans ?_ (modFrame_keeps _ _)
      exact hx
    · exact hx

theorem settleRun_keeps (d : NetDecl) (n : NetRun) (s : State) : Keeps s (settleRun d n s) := by
  unfold settleRun
  extract_lets +onlyGivenNames x
  clear_value x
  extract_lets +onlyGivenNames x
  clear_value x
  extract_lets +onlyGivenNames x
  refine keeps_through (x := x) ?_ (fun hx => ?_)
  · with_reducible refine setRun_keeps _ _
  · clear_value x
    split
    · with_reducible refine keeps_mkc ?_ ⟨rfl, rfl, rfl, rfl, rfl, rfl, rfl, rfl⟩
      exact hx
    · exact hx

theorem compareLayers_keeps (d : NetDecl) (k : Nat) : ∀ (n : NetRun) (s : State), Keeps s (compareLayers d k n s) := by
  induction k with
  | zero => intro n s; exact setRun_keeps _ _
  | succ k ih =>
    intro n s
    unfold compareLayers
    split
    · split
      · extract_lets +onlyGivenNames x
        refine keeps_through (x := x) ?_ (fun hx => ?_)
        · with_reducible refine noteLayer_keeps _ _ _ _
        · clear_value x
          extract_lets +onlyGivenNames x
          clear_value x
          split
          · with_reducible refine Keeps.trans ?_ (settleRun_keeps _ _ _)
            exact hx
          · with_reducible refine Keeps.trans ?_ (ih _ _)
            exact hx
      · extract_lets +onlyGivenNames x
        refine keeps_through (x := x) ?_ (fun hx => ?_)
        · with_reducible refine raise_keeps _ _ _ _
        · clear_value x
          extract_lets +onlyGivenNames x
          split
          · with_reducible refine Keeps.trans ?_ (netOutcome_keeps _ _)
            with_reducible refine Keeps.trans ?_ (dropRun_keeps _ _)
            exact hx
          · with_reducible refine Keeps.trans ?_ (setRun_keeps _ _)
            exact hx
    · with_reducible refine setRun_keeps _ _

theorem execLayerDigestCompare_keeps (t : Nat) (wid : Nat) (run : Nat) (net : Nat) (layer : Nat) (copyB : Bool) (upset : Nat) (s : State) {t' : State}  (h : execLayerDigestCompare t wid run net layer copyB upset s = .next t') : Keeps s t' := by
  unfold execLayerDigestCompare at h
  refine runAt_keeps (fun s => ?_) h
  split
  · split
    · exact Keeps.refl _
    · extract_lets +onlyGivenNames x
      clear_value x
      split
      · with_reducible refine setRun_keeps _ _
      · extract_lets +onlyGivenNames x
        clear_value x
        with_reducible refine compareLayers_keeps _ _ _ _
  · exact Keeps.refl _

theorem putFSet_keeps (tRef : Nat) (fs : FSet) (s : State) : Keeps s (putFSet tRef fs s) := by
  unfold putFSet
  split
  · split
    · with_reducible exact keeps_mkc (Keeps.refl _) ⟨rfl, rfl, rfl, rfl, rfl, rfl, rfl, rfl⟩
    · with_reducible exact keeps_mkc (Keeps.refl _) ⟨rfl, rfl, rfl, rfl, rfl, rfl, rfl, rfl⟩
  · with_reducible exact keeps_mkc (Keeps.refl _) ⟨rfl, rfl, rfl, rfl, rfl, rfl, rfl, rfl⟩

theorem execForecastSetWrite_keeps (t : Nat) (s : State) {t' : State}  (h : execForecastSetWrite t s = .next t') : Keeps s t' := by
  unfold execForecastSetWrite at h
  refine runAt_keeps (fun s => ?_) h
  split
  · exact Keeps.refl _
  · extract_lets +onlyGivenNames x
    refine keeps_through (x := x) ?_ (fun hx => ?_)
    · with_reducible refine dropRun_keeps _ _
    · clear_value x
      split
      · exact hx
      · extract_lets +onlyGivenNames x
        clear_value x
        extract_lets +onlyGivenNames x
        clear_value x
        extract_lets +onlyGivenNames x
        clear_value x
        extract_lets +onlyGivenNames x
        clear_value x
        with_reducible refine Keeps.trans ?_ (putFSet_keeps _ _ _)
        with_reducible refine keeps_mkc ?_ ⟨rfl, rfl, rfl, rfl, rfl, rfl, rfl, rfl⟩
        exact hx

theorem execNetworkOverrun_keeps (t : Nat) (s : State) {t' : State}  (h : execNetworkOverrun t s = .next t') : Keeps s t' := by
  unfold execNetworkOverrun at h
  refine runAt_keeps (fun s => ?_) h
  split
  · with_reducible refine Keeps.trans ?_ (raise_keeps _ _ _ _)
    with_reducible exact keeps_mkc (Keeps.refl _) ⟨rfl, rfl, rfl, rfl, rfl, rfl, rfl, rfl⟩
  · exact Keeps.refl _

theorem dropLate_keeps (s : State) : Keeps s (dropLate s) := by
  unfold dropLate
  with_reducible exact keeps_mkc (Keeps.refl _) ⟨rfl, rfl, rfl, rfl, rfl, rfl, rfl, rfl⟩

theorem execProposalReady_keeps (t : Nat) (s : State) {t' : State}  (h : execProposalReady t s = .next t') : Keeps s t' := by
  unfold execProposalReady at h
  refine runAt_keeps (fun s => ?_) h
  extract_lets +onlyGivenNames x
  refine keeps_through (x := x) ?_ (fun hx => ?_)
  · with_reducible refine dropLate_keeps _
  · clear_value x
    split
    · split
      · split
        · split
          · exact hx
          · extract_lets +onlyGivenNames x
            clear_value x
            extract_lets +onlyGivenNames x
            with_reducible refine Keeps.trans ?_ (dropRun_keeps _ _)
            with_reducible refine Keeps.trans ?_ (modFrame_keeps _ _)
            with_reducible refine keeps_mkc ?_ ⟨rfl, rfl, rfl, rfl, rfl, rfl, rfl, rfl⟩
            exact hx
        · exact hx
      · exact hx
    · exact hx

theorem execTensorRun_keeps (d : Taken) (v : View) (s : State) {t' : State}  (h : execTensorRun d v s = .next t') : Keeps s t' := by
  unfold execTensorRun at h
  refine runAt_keeps (fun s => ?_) h
  split
  · exact Keeps.refl _
  · extract_lets +onlyGivenNames x
    clear_value x
    extract_lets +onlyGivenNames x
    refine keeps_through (x := x) ?_ (fun hx => ?_)
    · with_reducible refine Keeps.trans ?_ (applyView_keeps _ _)
      with_reducible exact keeps_mkc (Keeps.refl _) ⟨rfl, rfl, rfl, rfl, rfl, rfl, rfl, rfl⟩
    · clear_value x
      split
      · with_reducible refine Keeps.trans ?_ (refuse_keeps _ _ _)
        exact hx
      · split
        · with_reducible refine Keeps.trans ?_ (refuse_keeps _ _ _)
          exact hx
        · split
          · with_reducible refine Keeps.trans ?_ (refuse_keeps _ _ _)
            exact hx
          · split
            · with_reducible refine Keeps.trans ?_ (refuse_keeps _ _ _)
              exact hx
            · split
              · with_reducible refine Keeps.trans ?_ (refuse_keeps _ _ _)
                exact hx
              · dsimp only
                with_reducible refine Keeps.trans ?_ (withChecks_keeps _ _ _ _ ?_)
                · exact hx
                · intro x
                  split
                  · split
                    · with_reducible refine refuse_keeps _ _ _
                    · split
                      · with_reducible refine refuse_keeps _ _ _
                      · with_reducible refine addWork_keeps _ _
                  · with_reducible refine refuse_keeps _ _ _

theorem finishTensor_keeps (w : Work) (d : NetDecl) (tr : TrWork) (s : State) : Keeps s (finishTensor w d tr s) := by
  unfold finishTensor
  extract_lets +onlyGivenNames x
  clear_value x
  extract_lets +onlyGivenNames x
  clear_value x
  extract_lets +onlyGivenNames x
  clear_value x
  extract_lets +onlyGivenNames x
  refine keeps_through (x := x) ?_ (fun hx => ?_)
  · with_reducible refine hostWrite_keeps _ _ _ _
  · clear_value x
    extract_lets +onlyGivenNames x
    refine keeps_through (x := x) ?_ (fun hx => ?_)
    · with_reducible refine Keeps.trans ?_ (logWork_keeps _ _ _ _ _ _ _ _)
      exact hx
    · clear_value x
      with_reducible refine Keeps.trans ?_ (finishWork_keeps _ _ _ _ _ _ _)
      exact hx

theorem execTensorRunEnd_keeps (t : Nat) (wid : Nat) (run : Nat) (s : State) {t' : State}  (h : execTensorRunEnd t wid run s = .next t') : Keeps s t' := by
  unfold execTensorRunEnd at h
  refine runAt_keeps (fun s => ?_) h
  split
  · exact Keeps.refl _
  · split
    · split
      · split
        · exact Keeps.refl _
        · extract_lets +onlyGivenNames x
          clear_value x
          extract_lets +onlyGivenNames x
          refine keeps_through (x := x) ?_ (fun hx => ?_)
          · with_reducible refine Keeps.trans ?_ (setItem_keeps _ _ _)
            with_reducible refine dropRun_keeps _ _
          · clear_value x
            split
            · with_reducible refine Keeps.trans ?_ (finishTensor_keeps _ _ _ _)
              exact hx
            · exact hx
      · exact Keeps.refl _
    · exact Keeps.refl _

end Sys2Proof.Machine
end

