-- ==== Sys2Proof/Laws/KeepsFrameRun.lean ====
section
/-! SUPPORT. Every operation of Sys2Proof/Machine/FrameRun.lean keeps what `Keeps` speaks of. -/

namespace Sys2Proof.Machine

theorem execFrameRun_keeps (d : Taken) (v : View) (s : State) {t' : State}  (h : execFrameRun d v s = .next t') : Keeps s t' := by
  unfold execFrameRun at h
  refine runAt_keeps (fun s => ?_) h
  split
  · exact Keeps.refl _
  · extract_lets +onlyGivenNames x
    clear_value x
    extract_lets +onlyGivenNames x
    refine keeps_through (x := x) ?_ (fun hx => ?_)
    · with_reducible refine Keeps.trans ?_ (applyView_keeps _ _)
      with_reducible exact keeps_mkc (Keeps.refl _) ⟨rfl, rfl, rfl, rfl, rfl, rfl, rfl, rfl⟩
    · clear_value x
      split
      · with_reducible refine Keeps.trans ?_ (refuse_keeps _ _ _)
        exact hx
      · split
        · with_reducible refine Keeps.trans ?_ (refuse_keeps _ _ _)
          exact hx
        · split
          · with_reducible refine Keeps.trans ?_ (refuse_keeps _ _ _)
            exact hx
          · split
            · with_reducible refine Keeps.trans ?_ (refuse_keeps _ _ _)
              exact hx
            · split
              · with_reducible refine Keeps.trans ?_ (refuse_keeps _ _ _)
                exact hx
              · dsimp only
                with_reducible refine Keeps.trans ?_ (withChecks_keeps _ _ _ _ ?_)
                · exact hx
                · intro x
                  with_reducible refine withRead_keeps _ _ _ _ _ _ ?_
                  intro x
                  intro x
                  with_reducible refine withRead_keeps _ _ _ _ _ _ ?_
                  intro x
                  intro x
                  split
                  · with_reducible refine refuse_keeps _ _ _
                  · split
                    · with_reducible refine refuse_keeps _ _ _
                    · split
                      · with_reducible refine refuse_keeps _ _ _
                      · split
                        · with_reducible refine refuse_keeps _ _ _
                        · split
                          · with_reducible refine refuse_keeps _ _ _
                          · with_reducible refine addWork_keeps _ _

theorem execCheck_keeps (d : Taken) (v : View) (s : State) {t' : State}  (h : execCheck d v s = .next t') : Keeps s t' := by
  unfold execCheck at h
  refine runAt_keeps (fun s => ?_) h
  split
  · exact Keeps.refl _
  · extract_lets +onlyGivenNames x
    clear_value x
    extract_lets +onlyGivenNames x
    refine keeps_through (x := x) ?_ (fun hx => ?_)
    · with_reducible refine Keeps.trans ?_ (applyView_keeps _ _)
      with_reducible exact keeps_mkc (Keeps.refl _) ⟨rfl, rfl, rfl, rfl, rfl, rfl, rfl, rfl⟩
    · clear_value x
      split
      · with_reducible refine Keeps.trans ?_ (refuse_keeps _ _ _)
        exact hx
      · split
        · with_reducible refine Keeps.trans ?_ (refuse_keeps _ _ _)
          exact hx
        · split
          · with_reducible refine Keeps.trans ?_ (refuse_keeps _ _ _)
            exact hx
          · split
            · with_reducible refine Keeps.trans ?_ (refuse_keeps _ _ _)
              exact hx
            · split
              · with_reducible refine Keeps.trans ?_ (refuse_keeps _ _ _)
                exact hx
              · dsimp only
                with_reducible refine Keeps.trans ?_ (withChecks_keeps _ _ _ _ ?_)
                · exact hx
                · intro x
                  split
                  · with_reducible refine refuse_keeps _ _ _
                  · split
                    · with_reducible refine refuse_keeps _ _ _
                    · with_reducible refine addWork_keeps _ _

end Sys2Proof.Machine
end

