-- ==== Sys2Proof/Laws/KeepsPower.lean ====
section
/-! SUPPORT. Every operation of Sys2Proof/Machine/Power.lean keeps what `Keeps` speaks of. -/

namespace Sys2Proof.Machine

theorem setRail_keeps (r : Nat) (x : Rail) (s : State) : Keeps s (setRail r x s) := by
  unfold setRail
  with_reducible exact keeps_mkc (Keeps.refl _) ⟨rfl, rfl, rfl, rfl, rfl, rfl, rfl, rfl⟩

theorem powerOn_keeps (s : State) : Keeps s (powerOn s) := by
  refine ⟨rfl, id, fun _ => rfl, fun _ _ => ⟨rfl, rfl⟩, fun _ => reset_srcsOk, fun _ => (by decide : 90 ≤ 180 ∧ 180 ≤ 240 ∧ 90 ≤ 180 ∧ 180 ≤ 240), rfl, Nat.le_refl _⟩

theorem holdPowerOn_keeps (ok : Bool) (s : State) : Keeps s (holdPowerOn ok s) := by
  unfold holdPowerOn
  extract_lets +onlyGivenNames x
  refine keeps_through (x := x) ?_ (fun hx => ?_)
  · with_reducible refine powerOn_keeps _
  · clear_value x
    with_reducible refine keeps_mkc ?_ ⟨rfl, rfl, rfl, rfl, rfl, rfl, rfl, rfl⟩
    exact hx

theorem execPwrOkFall_keeps (_t : Nat) (s : State) {t' : State} (h : execPwrOkFall _t s = .next t') : Keeps s t' := by
  unfold execPwrOkFall at h
  cases h; exact holdPowerOn_keeps _ s

theorem releasePowerOn_keeps (rails : List Rail) (s : State) : Keeps s (releasePowerOn rails s) := by
  unfold releasePowerOn
  extract_lets +onlyGivenNames x
  refine keeps_through (x := x) ?_ (fun hx => ?_)
  · with_reducible refine powerOn_keeps _
  · clear_value x
    split
    · with_reducible refine keeps_mkc ?_ ⟨rfl, rfl, rfl, rfl, rfl, rfl, rfl, rfl⟩
      exact hx
    · with_reducible refine keeps_mkc ?_ ⟨rfl, rfl, rfl, rfl, rfl, rfl, rfl, rfl⟩
      exact hx

theorem execPwrOkRise_keeps (_t : Nat) (lowRails : List Nat) (s : State) {t' : State} (h : execPwrOkRise _t lowRails s = .next t') : Keeps s t' := by
  unfold execPwrOkRise at h
  split at h
  · cases h; exact Keeps.refl _
  · extract_lets rails at h
    split at h
    · cases h; exact (keeps_mk (Keeps.refl s) ⟨rfl, rfl, rfl, rfl, rfl, rfl, rfl, rfl, rfl, rfl, rfl⟩ : Keeps s { s with pwr := { s.pwr with rails := rails } }).trans (holdPowerOn_keeps _ _)
    · cases h; exact releasePowerOn_keeps _ s

theorem supplyReset_keeps (rail : Nat) (s : State) : Keeps s (supplyReset rail s) := by
  unfold supplyReset
  extract_lets +onlyGivenNames x
  clear_value x
  split
  · exact Keeps.refl _
  · extract_lets +onlyGivenNames x
    refine keeps_through (x := x) ?_ (fun hx => ?_)
    · with_reducible refine setRail_keeps _ _ _
    · clear_value x
      split
      · exact hx
      · extract_lets +onlyGivenNames x
        refine keeps_through (x := x) ?_ (fun hx => ?_)
        · with_reducible refine Keeps.trans ?_ (raiseLevel_keeps _ _ _ _)
          exact hx
        · clear_value x
          split
          · with_reducible refine Keeps.trans ?_ (holdPowerOn_keeps _ _)
            exact hx
          · extract_lets +onlyGivenNames x
            refine keeps_through (x := x) ?_ (fun hx => ?_)
            · with_reducible refine Keeps.trans ?_ (chipReset_keeps _ _)
              exact hx
            · clear_value x
              with_reducible refine keeps_mkc ?_ ⟨rfl, rfl, rfl, rfl, rfl, rfl, rfl, rfl⟩
              exact hx

theorem execSupplyReset_keeps (t rail : Nat) (s : State) {t' : State} (h : execSupplyReset t rail s = .next t') : Keeps s t' := by
  unfold execSupplyReset at h
  split at h
  · cases h; exact supplyReset_keeps _ _
  · cases h; exact (atDt_keeps t s).trans (supplyReset_keeps _ _)

theorem execRailWarningCrossing_keeps (t : Nat) (rail : Nat) (s : State) {t' : State}  (h : execRailWarningCrossing t rail s = .next t') : Keeps s t' := by
  unfold execRailWarningCrossing at h
  refine runAt_keeps (fun s => ?_) h
  extract_lets +onlyGivenNames x
  clear_value x
  split
  · exact Keeps.refl _
  · extract_lets +onlyGivenNames x
    refine keeps_through (x := x) ?_ (fun hx => ?_)
    · with_reducible refine setRail_keeps _ _ _
    · clear_value x
      with_reducible refine Keeps.trans ?_ (raiseLevel_keeps _ _ _ _)
      with_reducible refine keeps_mkc ?_ ⟨rfl, rfl, rfl, rfl, rfl, rfl, rfl, rfl⟩
      exact hx

theorem railRecovered_keeps (rail : Nat) (s : State) : Keeps s (railRecovered rail s) := by
  unfold railRecovered
  extract_lets +onlyGivenNames x
  clear_value x
  split
  · exact Keeps.refl _
  · extract_lets +onlyGivenNames x
    clear_value x
    extract_lets +onlyGivenNames x
    refine keeps_through (x := x) ?_ (fun hx => ?_)
    · with_reducible refine Keeps.trans ?_ (endLevel_keeps _ _)
      with_reducible refine setRail_keeps _ _ _
    · clear_value x
      extract_lets +onlyGivenNames x
      clear_value x
      extract_lets +onlyGivenNames x
      refine keeps_through (x := x) ?_ (fun hx => ?_)
      · unfold x
        split
        · exact hx
        · with_reducible refine keeps_mkc ?_ ⟨rfl, rfl, rfl, rfl, rfl, rfl, rfl, rfl⟩
          exact hx
      · clear_value x
        split
        · with_reducible refine keeps_mkc ?_ ⟨rfl, rfl, rfl, rfl, rfl, rfl, rfl, rfl⟩
          exact hx
        · exact hx

theorem heldRecovered_keeps (rail : Nat) (s : State) : Keeps s (heldRecovered rail s) := by
  unfold heldRecovered
  extract_lets +onlyGivenNames x
  clear_value x
  extract_lets +onlyGivenNames x
  refine keeps_through (x := x) ?_ (fun hx => ?_)
  · with_reducible refine setRail_keeps _ _ _
  · clear_value x
    split
    · with_reducible refine Keeps.trans ?_ (releasePowerOn_keeps _ _)
      exact hx
    · exact hx

theorem execRailRecovered_keeps (t rail : Nat) (s : State) {t' : State} (h : execRailRecovered t rail s = .next t') : Keeps s t' := by
  unfold execRailRecovered at h
  split at h
  · cases h; exact heldRecovered_keeps _ _
  · cases h; exact (atDt_keeps t s).trans (railRecovered_keeps _ _)

theorem execSupplyEscalation_keeps (t : Nat) (rail : Nat) (s : State) {t' : State}  (h : execSupplyEscalation t rail s = .next t') : Keeps s t' := by
  unfold execSupplyEscalation at h
  refine runAt_keeps (fun s => ?_) h
  extract_lets +onlyGivenNames x
  clear_value x
  split
  · with_reducible refine Keeps.trans ?_ (escalate_keeps _ _ _)
    with_reducible refine setRail_keeps _ _ _
  · exact Keeps.refl _

theorem writeRailThr_keeps (rail : Nat) (val : Nat) (s : State) : Keeps s (writeRailThr rail val s) := by
  unfold writeRailThr
  extract_lets +onlyGivenNames x
  clear_value x
  extract_lets +onlyGivenNames x
  clear_value x
  extract_lets +onlyGivenNames x
  clear_value x
  extract_lets +onlyGivenNames x
  clear_value x
  split
  · with_reducible refine setRail_keeps _ _ _
  · split
    · with_reducible refine setRail_keeps _ _ _
    · split
      · with_reducible refine setRail_keeps _ _ _
      · with_reducible refine setRail_keeps _ _ _

theorem execPwrRailThrWrite_keeps (t : Nat) (rail : Nat) (val : Nat) (s : State) {t' : State}  (h : execPwrRailThrWrite t rail val s = .next t') : Keeps s t' := by
  unfold execPwrRailThrWrite at h
  refine runAt_keeps (fun s => ?_) h
  split
  · with_reducible refine writeRailThr_keeps _ _ _
  · exact Keeps.refl _

theorem execAvsTimeout_keeps (t : Nat) (port : Nat) (s : State) {t' : State}  (h : execAvsTimeout t port s = .next t') : Keeps s t' := by
  unfold execAvsTimeout at h
  refine runAt_keeps (fun s => ?_) h
  with_reducible refine raise_keeps _ _ _ _

theorem limitOk_foldl {α : Type} {f : Pwr → α → Pwr} (hf : ∀ p x, (f p x).limit = p.limit ∧ (f p x).limitNext = p.limitNext) :
    ∀ (l : List α) (p : Pwr), (l.foldl f p).limit = p.limit ∧ (l.foldl f p).limitNext = p.limitNext
  | [], _ => ⟨rfl, rfl⟩
  | x :: l, p => by rw [List.foldl_cons]; have h := limitOk_foldl hf l (f p x); rw [h.1, h.2]; exact hf p x

theorem chooseVset_keeps (step : Nat) (s : State) : Keeps s (chooseVset step s) := by
  unfold chooseVset
  extract_lets want
  refine keeps_mk (Keeps.refl _) ⟨rfl, rfl, rfl, rfl, rfl, rfl, rfl, ?_⟩
  have h := limitOk_foldl (f := fun (p : Pwr) k =>
    if want = p.vset.getD k 40 then { p with vsetWant := modifyAt (fun _ => none) k p.vsetWant }
    else if s.dt < p.vsetAt.getD k 0 + 100000 then { p with vsetWant := modifyAt (fun _ => some want) k p.vsetWant }
    else setVset k want s.dt p) (fun p k => by
      split
      · exact ⟨rfl, rfl⟩
      · split <;> exact ⟨rfl, rfl⟩) (List.range 4) s.pwr
  exact ⟨h.1, h.2, rfl, rfl⟩

theorem execRegulatorSettled_keeps (t : Nat) (die : Nat) (s : State) {t' : State}  (h : execRegulatorSettled t die s = .next t') : Keeps s t' := by
  unfold execRegulatorSettled at h
  refine runAt_keeps (fun s => ?_) h
  split
  · with_reducible exact keeps_mkc (Keeps.refl _) ⟨rfl, rfl, rfl, rfl, rfl, rfl, rfl, rfl⟩
  · exact Keeps.refl _

theorem writeLimitW_keeps (val : Nat) (s : State) : Keeps s (writeLimitW val s) := by
  unfold writeLimitW
  split
  · with_reducible exact keeps_mkc (Keeps.refl _) ⟨rfl, rfl, rfl, rfl, rfl, rfl, rfl, rfl⟩
  · with_reducible refine keeps_mkg (Keeps.refl _) ?_ ?_ ?_ ?_ ?_ ?_
    · exact id
    · exact id
    · exact id
    · exact id
    · exact fun h => ⟨h.1, h.2.1, by dsimp only; omega⟩
    · exact Nat.le_refl _

theorem execLimitWWrite_keeps (t : Nat) (val : Nat) (s : State) {t' : State}  (h : execLimitWWrite t val s = .next t') : Keeps s t' := by
  unfold execLimitWWrite at h
  refine runAt_keeps (fun s => ?_) h
  with_reducible refine writeLimitW_keeps _ _

theorem setClock_keeps (mhz : Nat) (s : State) : Keeps s (setClock mhz s) := by
  unfold setClock
  with_reducible refine Keeps.trans ?_ (chooseVset_keeps _ _)
  with_reducible exact keeps_mkc (Keeps.refl _) ⟨rfl, rfl, rfl, rfl, rfl, rfl, rfl, rfl⟩

theorem execGovernorTrim_keeps (t : Nat) (draw : Nat) (s : State) {t' : State}  (h : execGovernorTrim t draw s = .next t') : Keeps s t' := by
  unfold execGovernorTrim at h
  refine runAt_keeps (fun s => ?_) h
  extract_lets +onlyGivenNames x
  extract_lets +onlyGivenNames x
  refine keeps_through (x := x) ?_ (fun hx => ?_)
  · with_reducible exact keeps_mkc (Keeps.refl _) ⟨rfl, rfl, rfl, rfl, rfl, rfl, rfl, rfl⟩
  · clear_value x
    split
    · with_reducible assumption
    · split
      · split
        · with_reducible refine keeps_mkc ?_ ⟨rfl, rfl, rfl, rfl, rfl, rfl, rfl, rfl⟩
          exact hx
        · with_reducible refine Keeps.trans ?_ (setClock_keeps _ _)
          exact hx
      · split
        · with_reducible refine Keeps.trans ?_ (setClock_keeps _ _)
          exact hx
        · with_reducible assumption

theorem execGovernorCalibrate_keeps (t : Nat) (currents : List Nat) (s : State) {t' : State}  (h : execGovernorCalibrate t currents s = .next t') : Keeps s t' := by
  unfold execGovernorCalibrate at h
  refine runAt_keeps (fun s => ?_) h
  with_reducible exact keeps_mkc (Keeps.refl _) ⟨rfl, rfl, rfl, rfl, rfl, rfl, rfl, rfl⟩

theorem execTempSample_keeps (t : Nat) (die : Nat) (temp : Int) (s : State) {t' : State}  (h : execTempSample t die temp s = .next t') : Keeps s t' := by
  unfold execTempSample at h
  refine runAt_keeps (fun s => ?_) h
  split
  · exact Keeps.refl _
  · extract_lets +onlyGivenNames x
    clear_value x
    split
    extract_lets +onlyGivenNames x
    clear_value x
    extract_lets +onlyGivenNames x
    clear_value x
    extract_lets +onlyGivenNames x
    clear_value x
    extract_lets +onlyGivenNames x
    clear_value x
    extract_lets +onlyGivenNames x
    clear_value x
    extract_lets +onlyGivenNames x
    clear_value x
    extract_lets +onlyGivenNames x
    clear_value x
    extract_lets +onlyGivenNames x
    refine keeps_through (x := x) ?_ (fun hx => ?_)
    · with_reducible exact keeps_mkc (Keeps.refl _) ⟨rfl, rfl, rfl, rfl, rfl, rfl, rfl, rfl⟩
    · clear_value x
      extract_lets +onlyGivenNames x
      refine keeps_through (x := x) ?_ (fun hx => ?_)
      · unfold x
        split
        · with_reducible refine Keeps.trans ?_ (raiseLevel_keeps _ _ _ _)
          exact hx
        · with_reducible refine Keeps.trans ?_ (endLevel_keeps _ _)
          exact hx
      · clear_value x
        extract_lets +onlyGivenNames x
        refine keeps_through (x := x) ?_ (fun hx => ?_)
        · unfold x
          split
          · with_reducible refine Keeps.trans ?_ (escalate_keeps _ _ _)
            exact hx
          · exact hx
        · clear_value x
          split
          · with_reducible refine Keeps.trans ?_ (chipReset_keeps _ _)
            exact hx
          · split
            · with_reducible refine Keeps.trans ?_ (setService_keeps _ _)
              with_reducible refine keeps_mkc ?_ ⟨rfl, rfl, rfl, rfl, rfl, rfl, rfl, rfl⟩
              exact hx
            · exact hx

theorem execClockMonitorWindow_keeps (t : Nat) (clk : Nat) (ppm : Nat) (s : State) {t' : State}  (h : execClockMonitorWindow t clk ppm s = .next t') : Keeps s t' := by
  unfold execClockMonitorWindow at h
  refine runAt_keeps (fun s => ?_) h
  extract_lets +onlyGivenNames x
  extract_lets +onlyGivenNames x
  split
  · unfold x
    subst x
    unfold x
    split
    · with_reducible refine Keeps.trans ?_ (raiseLevel_keeps _ _ _ _)
      with_reducible exact keeps_mkc (Keeps.refl _) ⟨rfl, rfl, rfl, rfl, rfl, rfl, rfl, rfl⟩
    · with_reducible refine Keeps.trans ?_ (endLevel_keeps _ _)
      with_reducible exact keeps_mkc (Keeps.refl _) ⟨rfl, rfl, rfl, rfl, rfl, rfl, rfl, rfl⟩
  · split
    · split
      · unfold x
        subst x
        unfold x
        split
        · with_reducible refine Keeps.trans ?_ (raiseLevel_keeps _ _ _ _)
          with_reducible exact keeps_mkc (Keeps.refl _) ⟨rfl, rfl, rfl, rfl, rfl, rfl, rfl, rfl⟩
        · with_reducible refine Keeps.trans ?_ (endLevel_keeps _ _)
          with_reducible exact keeps_mkc (Keeps.refl _) ⟨rfl, rfl, rfl, rfl, rfl, rfl, rfl, rfl⟩
      · exact Keeps.refl _
    · split
      · split
        · exact Keeps.refl _
        · subst x
          unfold x
          split
          · with_reducible refine raiseLevel_keeps _ _ _ _
          · with_reducible refine endLevel_keeps _ _
      · split
        · unfold x
          subst x
          unfold x
          split
          · with_reducible refine raiseLevel_keeps _ _ _ _
          · with_reducible refine endLevel_keeps _ _
        · exact Keeps.refl _

theorem execScrubPassEnd_keeps (t : Nat) (stack : Nat) (finished : Bool) (s : State) {t' : State}  (h : execScrubPassEnd t stack finished s = .next t') : Keeps s t' := by
  unfold execScrubPassEnd at h
  refine runAt_keeps (fun s => ?_) h
  split
  · with_reducible refine raise_keeps _ _ _ _
  · exact Keeps.refl _

theorem injectionFailed_keeps (c : InjChecker) (s : State) : Keeps s (injectionFailed c s) := by
  unfold injectionFailed
  split
  · split
    · exact Keeps.refl _
    · with_reducible refine Keeps.trans ?_ (raise_keeps _ _ _ _)
      with_reducible exact keeps_mkc (Keeps.refl _) ⟨rfl, rfl, rfl, rfl, rfl, rfl, rfl, rfl⟩
  · exact Keeps.refl _

theorem execInjectionTimeout_keeps (t : Nat) (checker : InjChecker) (s : State) {t' : State}  (h : execInjectionTimeout t checker s = .next t') : Keeps s t' := by
  unfold execInjectionTimeout at h
  refine runAt_keeps (fun s => ?_) h
  with_reducible refine injectionFailed_keeps _ _

theorem execStrapSample_keeps (t : Nat) (src : Nat) (chainHead : Bool) (s : State) {t' : State}  (h : execStrapSample t src chainHead s = .next t') : Keeps s t' := by
  unfold execStrapSample at h
  refine runAt_keeps (fun s => ?_) h
  split
  · exact Keeps.refl _
  · extract_lets +onlyGivenNames x
    clear_value x
    extract_lets +onlyGivenNames x
    extract_lets +onlyGivenNames x
    clear_value x
    extract_lets +onlyGivenNames x
    refine keeps_through (x := x) ?_ (fun hx => ?_)
    · with_reducible exact keeps_mkc (Keeps.refl _) ⟨rfl, rfl, rfl, rfl, rfl, rfl, rfl, rfl⟩
    · clear_value x
      split
      · with_reducible refine Keeps.trans ?_ (setService_keeps _ _)
        with_reducible refine keeps_mkc ?_ ⟨rfl, rfl, rfl, rfl, rfl, rfl, rfl, rfl⟩
        exact hx
      · split
        · with_reducible refine Keeps.trans ?_ (deviceEvent_keeps _)
          with_reducible refine keeps_mkc ?_ ⟨rfl, rfl, rfl, rfl, rfl, rfl, rfl, rfl⟩
          exact hx
        · exact hx

theorem bootFails_keeps (s : State) : Keeps s (bootFails s) := by
  unfold bootFails
  extract_lets +onlyGivenNames x
  extract_lets +onlyGivenNames x
  clear_value x
  extract_lets +onlyGivenNames x
  refine keeps_through (x := x) ?_ (fun hx => ?_)
  · with_reducible exact keeps_mkc (Keeps.refl _) ⟨rfl, rfl, rfl, rfl, rfl, rfl, rfl, rfl⟩
  · clear_value x
    split
    · with_reducible refine Keeps.trans ?_ (deviceEvent_keeps _)
      with_reducible refine Keeps.trans ?_ (setService_keeps _ _)
      with_reducible refine keeps_mkc ?_ ⟨rfl, rfl, rfl, rfl, rfl, rfl, rfl, rfl⟩
      exact hx
    · with_reducible refine Keeps.trans ?_ (raise_keeps _ _ _ _)
      with_reducible refine Keeps.trans ?_ (setService_keeps _ _)
      with_reducible refine keeps_mkc ?_ ⟨rfl, rfl, rfl, rfl, rfl, rfl, rfl, rfl⟩
      exact hx

theorem runImage_keeps (slot : Nat) (i : BootImg) (s : State) : Keeps s (runImage slot i s) := by
  unfold runImage
  with_reducible exact keeps_mkc (Keeps.refl _) ⟨rfl, rfl, rfl, rfl, rfl, rfl, rfl, rfl⟩

theorem startStage1_keeps (slot : Nat) (i : BootImg) (s : State) : Keeps s (startStage1 slot i s) := by
  unfold startStage1
  with_reducible refine Keeps.trans ?_ (setService_keeps _ _)
  extract_lets +onlyGivenNames x
  refine keeps_through (x := x) ?_ (fun hx => ?_)
  · with_reducible refine runImage_keeps _ _ _
  · clear_value x
    with_reducible refine keeps_mkc ?_ ⟨rfl, rfl, rfl, rfl, rfl, rfl, rfl, rfl⟩
    exact hx

theorem lockDies_keeps (s : State) : Keeps s (lockDies s) := by
  unfold lockDies
  with_reducible refine Keeps.trans ?_ (setClock_keeps _ _)
  with_reducible exact keeps_mkc (Keeps.refl _) ⟨rfl, rfl, rfl, rfl, rfl, rfl, rfl, rfl⟩

theorem startStage2_keeps (slot : Nat) (i : BootImg) (s : State) : Keeps s (startStage2 slot i s) := by
  unfold startStage2
  extract_lets +onlyGivenNames x
  refine keeps_through (x := x) ?_ (fun hx => ?_)
  · with_reducible refine Keeps.trans ?_ (lockDies_keeps _)
    with_reducible refine runImage_keeps _ _ _
  · clear_value x
    extract_lets +onlyGivenNames x
    clear_value x
    with_reducible refine keeps_mkc ?_ ⟨rfl, rfl, rfl, rfl, rfl, rfl, rfl, rfl⟩
    exact hx

theorem execSecureBoot_keeps (t : Nat) (images : List (Nat × BootImg)) (s : State) {t' : State}  (h : execSecureBoot t images s = .next t') : Keeps s t' := by
  unfold execSecureBoot at h
  refine runAt_keeps (fun s => ?_) h
  split
  · exact Keeps.refl _
  · split
    · split
      · with_reducible refine startStage1_keeps _ _ _
      · with_reducible refine bootFails_keeps _
    · split
      · split
        · with_reducible refine startStage2_keeps _ _ _
        · with_reducible refine bootFails_keeps _
      · exact Keeps.refl _

theorem writeGo_keeps (s : State) : Keeps s (writeGo s) := by
  unfold writeGo
  split
  · with_reducible exact keeps_mkc (Keeps.refl _) ⟨rfl, rfl, rfl, rfl, rfl, rfl, rfl, rfl⟩
  · with_reducible exact keeps_mkc (Keeps.refl _) ⟨rfl, rfl, rfl, rfl, rfl, rfl, rfl, rfl⟩

theorem execGo_keeps (t : Nat) (s : State) {t' : State}  (h : execGo t s = .next t') : Keeps s t' := by
  unfold execGo at h
  refine runAt_keeps (fun s => ?_) h
  with_reducible refine writeGo_keeps _

theorem commitRollback_keeps (s : State) : Keeps s (commitRollback s) := by
  unfold commitRollback
  split
  · exact ⟨rfl, id, id, id, id, id, rfl, Nat.le_max_left _ _⟩
  · exact Keeps.refl _

theorem execCommitRollback_keeps (t : Nat) (s : State) {t' : State}  (h : execCommitRollback t s = .next t') : Keeps s t' := by
  unfold execCommitRollback at h
  refine runAt_keeps (fun s => ?_) h
  with_reducible refine commitRollback_keeps _

theorem requestChipReset_keeps (s : State) : Keeps s (requestChipReset s) := by
  unfold requestChipReset
  split
  · with_reducible refine chipReset_keeps _ _
  · with_reducible exact keeps_mkc (Keeps.refl _) ⟨rfl, rfl, rfl, rfl, rfl, rfl, rfl, rfl⟩

theorem execChipResetRequest_keeps (t : Nat) (s : State) {t' : State}  (h : execChipResetRequest t s = .next t') : Keeps s t' := by
  unfold execChipResetRequest at h
  refine runAt_keeps (fun s => ?_) h
  with_reducible refine requestChipReset_keeps _

theorem enterReduced_keeps (s : State) : Keeps s (enterReduced s) := by
  unfold enterReduced
  split
  · extract_lets +onlyGivenNames x
    refine keeps_through (x := x) ?_ (fun hx => ?_)
    · with_reducible refine setService_keeps _ _
    · clear_value x
      with_reducible refine keeps_mkc ?_ ⟨rfl, rfl, rfl, rfl, rfl, rfl, rfl, rfl⟩
      exact hx
  · exact Keeps.refl _

theorem execStackTrainingComplete_keeps (t : Nat) (full : Bool) (s : State) {t' : State}  (h : execStackTrainingComplete t full s = .next t') : Keeps s t' := by
  unfold execStackTrainingComplete at h
  refine runAt_keeps (fun s => ?_) h
  with_reducible refine Keeps.trans ?_ (enterReduced_keeps _)
  with_reducible exact keeps_mkc (Keeps.refl _) ⟨rfl, rfl, rfl, rfl, rfl, rfl, rfl, rfl⟩

theorem endRotations_keeps (s : State) : Keeps s (endRotations s) := by
  unfold endRotations
  extract_lets +onlyGivenNames x
  clear_value x
  extract_lets +onlyGivenNames x
  refine keeps_through (x := x) ?_ (fun hx => ?_)
  · unfold x
    split
    · with_reducible exact keeps_mkc (Keeps.refl _) ⟨rfl, rfl, rfl, rfl, rfl, rfl, rfl, rfl⟩
    · exact Keeps.refl _
  · clear_value x
    split
    · with_reducible refine keeps_mkc ?_ ⟨rfl, rfl, rfl, rfl, rfl, rfl, rfl, rfl⟩
      exact hx
    · exact hx

theorem requestDormant_keeps (othersAtRest : Bool) (s : State) : Keeps s (requestDormant othersAtRest s) := by
  unfold requestDormant
  split
  · with_reducible exact keeps_mkc (Keeps.refl _) ⟨rfl, rfl, rfl, rfl, rfl, rfl, rfl, rfl⟩
  · with_reducible exact keeps_mkc (Keeps.refl _) ⟨rfl, rfl, rfl, rfl, rfl, rfl, rfl, rfl⟩

theorem execDormantReq_keeps (t : Nat) (othersAtRest : Bool) (s : State) {t' : State}  (h : execDormantReq t othersAtRest s = .next t') : Keeps s t' := by
  unfold execDormantReq at h
  refine runAt_keeps (fun s => ?_) h
  with_reducible refine requestDormant_keeps _ _

theorem beginWake_keeps (s : State) : Keeps s (beginWake s) := by
  unfold beginWake
  with_reducible refine Keeps.trans ?_ (setService_keeps _ _)
  with_reducible exact keeps_mkc (Keeps.refl _) ⟨rfl, rfl, rfl, rfl, rfl, rfl, rfl, rfl⟩

theorem requestWake_keeps (s : State) : Keeps s (requestWake s) := by
  unfold requestWake
  split
  · exact Keeps.refl _
  · split
    · with_reducible refine beginWake_keeps _
    · with_reducible exact keeps_mkc (Keeps.refl _) ⟨rfl, rfl, rfl, rfl, rfl, rfl, rfl, rfl⟩

theorem execWake_keeps (t : Nat) (s : State) {t' : State}  (h : execWake t s = .next t') : Keeps s t' := by
  unfold execWake at h
  refine runAt_keeps (fun s => ?_) h
  with_reducible refine requestWake_keeps _

theorem execI3cWake_keeps (t : Nat) (s : State) {t' : State}  (h : execI3cWake t s = .next t') : Keeps s t' := by
  unfold execI3cWake at h
  refine runAt_keeps (fun s => ?_) h
  split
  · with_reducible refine beginWake_keeps _
  · exact Keeps.refl _

end Sys2Proof.Machine
end

