-- ==== Sys2Proof/Laws/KeepsTick.lean ====
section
/-! SUPPORT. Every operation of Sys2Proof/Machine/Tick.lean keeps what `Keeps` speaks of. -/

namespace Sys2Proof.Machine

theorem tickSettings_keeps (n : Nat) (t : Nat) (s : State) : Keeps s (tickSettings n t s) := by
  unfold tickSettings
  split
  with_reducible refine keeps_mkg (Keeps.refl _) ?_ ?_ ?_ ?_ ?_ ?_
  · exact id
  · exact id
  · exact id
  · exact id
  · exact fun h => ⟨h.2.2.1, h.2.2.2, h.2.2⟩
  · exact Nat.le_refl _

theorem foldSets_wf {α : Type} (f : α → Nat) (g : α → Byte) (l : List α) :
    ∀ {m : List Host.Cell}, Memory.wf m = true → Memory.wf (l.foldl (fun m x => memSet m (f x) (g x)) m) = true := by
  induction l with
  | nil => intro m h; exact h
  | cons x l ih => intro m h; exact ih (memSet_wf _ _ h)

theorem moveSpare_wf (q pos : Nat) (c : Cores) (h : Memory.wf c.mem = true) : Memory.wf (moveSpare q pos c).mem = true :=
  foldSets_wf _ _ _ (memWfFrom_filter _ _ none h)

theorem takeSpare_keeps (n q pos phys : Nat) (s : State) : Keeps s (takeSpare n q pos phys s) := by
  unfold takeSpare
  extract_lets +onlyGivenNames x
  clear_value x
  extract_lets +onlyGivenNames x
  refine keeps_through (x := x) ?_ (fun hx => ?_)
  · with_reducible refine Keeps.trans ?_ (setSpare_keeps _ _ _)
    with_reducible refine keeps_mkg (Keeps.refl _) ?_ ?_ ?_ ?_ ?_ ?_
    · exact id
    · exact moveSpare_wf _ _ _
    · exact id
    · exact id
    · exact id
    · exact Nat.le_refl _
  · clear_value x
    with_reducible refine keeps_mkc ?_ ⟨rfl, rfl, rfl, rfl, rfl, rfl, rfl, rfl⟩
    exact hx

theorem relayout_keeps (n : Nat) (q : Nat) (passed : List Nat) (s : State) : Keeps s (relayout n q passed s) := by
  unfold relayout
  extract_lets +onlyGivenNames x
  clear_value x
  extract_lets +onlyGivenNames x
  clear_value x
  split
  with_reducible refine Keeps.trans ?_ (setSpare_keeps _ _ _)
  with_reducible exact keeps_mkc (Keeps.refl _) ⟨rfl, rfl, rfl, rfl, rfl, rfl, rfl, rfl⟩

theorem mapChange_keeps (n : Nat) (s : State) (c : MapChange) : Keeps s (mapChange n s c) := by
  unfold mapChange
  split
  · split
    · exact Keeps.refl _
    · extract_lets +onlyGivenNames x
      clear_value x
      extract_lets +onlyGivenNames x
      refine keeps_through (x := x) ?_ (fun hx => ?_)
      · unfold x
        split
        · exact Keeps.refl _
        · with_reducible refine logAction_keeps _ _ _ _
      · clear_value x
        with_reducible refine Keeps.trans ?_ (restartSolo_keeps _ _)
        with_reducible refine keeps_mkc ?_ ⟨rfl, rfl, rfl, rfl, rfl, rfl, rfl, rfl⟩
        exact hx
  · split
    · exact Keeps.refl _
    · with_reducible exact keeps_mkc (Keeps.refl _) ⟨rfl, rfl, rfl, rfl, rfl, rfl, rfl, rfl⟩
  · with_reducible exact keeps_mkc (Keeps.refl _) ⟨rfl, rfl, rfl, rfl, rfl, rfl, rfl, rfl⟩
  · split
    · with_reducible refine takeSpare_keeps _ _ _ _ _
    · exact Keeps.refl _
  · split
    · with_reducible refine setSpare_keeps _ _ _
    · exact Keeps.refl _
  · with_reducible refine relayout_keeps _ _ _ _
  · with_reducible exact keeps_mkc (Keeps.refl _) ⟨rfl, rfl, rfl, rfl, rfl, rfl, rfl, rfl⟩

theorem finishUnit_keeps (done : List MapChange) (c : MapChange) (kind : Nat) (w : Work) (s : State) : Keeps s (finishUnit done c kind w s) := by
  unfold finishUnit
  split
  · with_reducible refine Keeps.trans ?_ (finishWork_keeps _ _ _ _ _ _ _)
    with_reducible refine logAction_keeps _ _ _ _
  · exact Keeps.refl _

theorem tickWork_keeps (t : Nat) (done : List MapChange) (s : State) (w : Work) : Keeps s (tickWork t done s w) := by
  unfold tickWork
  split
  · with_reducible refine configTick_keeps _ _ _ _
  · with_reducible refine bodyTick_keeps _ _ _ _ _
  · with_reducible refine completeHaz1_keeps _ _ _
  · with_reducible refine finishUnit_keeps _ _ _ _ _
  · with_reducible refine finishUnit_keeps _ _ _ _ _
  · with_reducible refine finishUnit_keeps _ _ _ _ _
  · exact Keeps.refl _

theorem logMap_keeps (n : Nat) (old : Nat) (s : State) : Keeps s (logMap n old s) := by
  unfold logMap
  split
  · exact Keeps.refl _
  · with_reducible refine logEntry_keeps _ _ _ _ _ _ _ _ _

theorem syncTick_keeps (s : State) : Keeps s (syncTick s) := by
  unfold syncTick
  split
  · exact Keeps.refl _
  · split
    · split
      · with_reducible exact keeps_mkc (Keeps.refl _) ⟨rfl, rfl, rfl, rfl, rfl, rfl, rfl, rfl⟩
      · exact Keeps.refl _
    · split
      · with_reducible exact keeps_mkc (Keeps.refl _) ⟨rfl, rfl, rfl, rfl, rfl, rfl, rfl, rfl⟩
      · with_reducible exact keeps_mkc (Keeps.refl _) ⟨rfl, rfl, rfl, rfl, rfl, rfl, rfl, rfl⟩

theorem everyTick_keeps (n : Nat) (t : Nat) (s : State) : Keeps s (everyTick n t s) := by
  unfold everyTick
  extract_lets +onlyGivenNames x
  refine keeps_through (x := x) ?_ (fun hx => ?_)
  · with_reducible refine Keeps.trans ?_ (hazardTick_keeps _ _)
    with_reducible refine Keeps.trans ?_ (tickSettings_keeps _ _ _)
    with_reducible refine syncTick_keeps _
  · clear_value x
    extract_lets +onlyGivenNames x
    clear_value x
    extract_lets +onlyGivenNames x
    clear_value x
    extract_lets +onlyGivenNames x
    refine keeps_through (x := x) ?_ (fun hx => ?_)
    · with_reducible refine keeps_mkc ?_ ⟨rfl, rfl, rfl, rfl, rfl, rfl, rfl, rfl⟩
      exact hx
    · clear_value x
      extract_lets +onlyGivenNames x
      clear_value x
      extract_lets +onlyGivenNames x
      clear_value x
      extract_lets +onlyGivenNames x
      clear_value x
      extract_lets +onlyGivenNames x
      refine keeps_through (x := x) ?_ (fun hx => ?_)
      · refine keeps_foldl ?_ (fun s x hs => ?_)
        · with_reducible refine keeps_mkc ?_ ⟨rfl, rfl, rfl, rfl, rfl, rfl, rfl, rfl⟩
          exact hx
        · with_reducible refine Keeps.trans ?_ (mapChange_keeps _ _ _)
          exact hs
      · clear_value x
        with_reducible refine Keeps.trans ?_ (logMap_keeps _ _ _)
        with_reducible refine Keeps.trans ?_ (vRaisedTick_keeps _)
        with_reducible refine Keeps.trans ?_ (endRotations_keeps _)
        refine keeps_foldl ?_ (fun s x hs => ?_)
        · exact hx
        · with_reducible refine Keeps.trans ?_ (tickWork_keeps _ _ _ _)
          exact hs

theorem rebindOne_keeps (n : Nat) (s : State) (w : Work) : Keeps s (rebindOne n s w) := by
  unfold rebindOne
  split
  · extract_lets +onlyGivenNames x
    clear_value x
    with_reducible exact keeps_mkc (Keeps.refl _) ⟨rfl, rfl, rfl, rfl, rfl, rfl, rfl, rfl⟩
  · exact Keeps.refl _

theorem rebindAll_keeps (n : Nat) (s : State) : Keeps s (rebindAll n s) := by
  unfold rebindAll
  refine keeps_foldl (Keeps.refl _) (fun s x hs => ?_)
  with_reducible refine Keeps.trans ?_ (rebindOne_keeps _ _ _)
  exact hs

theorem noFrame_keeps (n : Nat) (s : State) : Keeps s (noFrame n s) := by
  unfold noFrame
  with_reducible refine Keeps.trans ?_ (rebindAll_keeps _ _)
  refine keeps_ite (fun h => ?_) (fun h => ?_)
  · with_reducible exact keeps_mkc (Keeps.refl _) ⟨rfl, rfl, rfl, rfl, rfl, rfl, rfl, rfl⟩
  · with_reducible refine Keeps.trans ?_ (runPrims_keeps _ _ _)
    with_reducible exact keeps_mkc (Keeps.refl _) ⟨rfl, rfl, rfl, rfl, rfl, rfl, rfl, rfl⟩

theorem holdSealAuto_keeps (t : Nat) (s : State) : Keeps s (holdSealAuto t s) := by
  unfold holdSealAuto
  split
  · with_reducible exact keeps_mkc (Keeps.refl _) ⟨rfl, rfl, rfl, rfl, rfl, rfl, rfl, rfl⟩
  · exact Keeps.refl _

theorem skipTick_keeps (n : Nat) (t : Nat) (s : State) : Keeps s (skipTick n t s) := by
  unfold skipTick
  extract_lets +onlyGivenNames x
  refine keeps_through (x := x) ?_ (fun hx => ?_)
  · with_reducible refine Keeps.trans ?_ (holdSealAuto_keeps _ _)
    with_reducible refine raise_keeps _ _ _ _
  · clear_value x
    with_reducible refine Keeps.trans ?_ (rebindAll_keeps _ _)
    refine keeps_ite (fun h => ?_) (fun h => ?_)
    · with_reducible refine keeps_mkc ?_ ⟨rfl, rfl, rfl, rfl, rfl, rfl, rfl, rfl⟩
      exact hx
    · with_reducible refine Keeps.trans ?_ (runPrims_keeps _ _ _)
      with_reducible refine keeps_mkc ?_ ⟨rfl, rfl, rfl, rfl, rfl, rfl, rfl, rfl⟩
      exact hx

theorem keepHaz_keeps (s : State) : Keeps s (keepHaz s) := by
  unfold keepHaz
  with_reducible refine modFrame_keeps _ _

theorem wantSeal_keeps (t : Nat) (s : State) : Keeps s (wantSeal t s) := by
  unfold wantSeal
  with_reducible exact keeps_mkc (Keeps.refl _) ⟨rfl, rfl, rfl, rfl, rfl, rfl, rfl, rfl⟩

theorem takePb_keeps (n : Nat) (s : State) : Keeps s (takePb n s) := by
  unfold takePb
  split
  · with_reducible exact keeps_mkc (Keeps.refl _) ⟨rfl, rfl, rfl, rfl, rfl, rfl, rfl, rfl⟩
  · exact Keeps.refl _

theorem restartSeqs_keeps (s : State) : Keeps s (restartSeqs s) := by
  unfold restartSeqs
  with_reducible exact keeps_mkc (Keeps.refl _) ⟨rfl, rfl, rfl, rfl, rfl, rfl, rfl, rfl⟩

theorem governTick_keeps (s : State) : Keeps s (governTick s) := by
  unfold governTick
  extract_lets +onlyGivenNames x
  clear_value x
  extract_lets +onlyGivenNames x
  clear_value x
  extract_lets +onlyGivenNames x
  extract_lets +onlyGivenNames x
  refine keeps_through (x := x) ?_ (fun hx => ?_)
  · with_reducible exact keeps_mkc (Keeps.refl _) ⟨rfl, rfl, rfl, rfl, rfl, rfl, rfl, rfl⟩
  · clear_value x
    split
    · with_reducible refine Keeps.trans ?_ (setClock_keeps _ _)
      exact hx
    · with_reducible refine Keeps.trans ?_ (chooseVset_keeps _ _)
      exact hx

theorem recheckWork_keeps (s : State) : Keeps s (recheckWork s) := by
  unfold recheckWork
  refine keeps_foldl (Keeps.refl _) (fun s x hs => ?_)
  with_reducible refine Keeps.trans ?_ (abortWork_keeps _ _ _ _)
  exact hs

theorem changeover_keeps (n : Nat) (t : Nat) (w : Work) (img : Accord) (ex : Nat) (src : Bool × Nat) (s : State) : Keeps s (changeover n t w img ex src s) := by
  unfold changeover
  extract_lets +onlyGivenNames x
  refine keeps_through (x := x) ?_ (fun hx => ?_)
  · with_reducible refine dropFrameNets_keeps _
  · clear_value x
    extract_lets +onlyGivenNames x
    refine keeps_through (x := x) ?_ (fun hx => ?_)
    · with_reducible refine keeps_mkc ?_ ⟨rfl, rfl, rfl, rfl, rfl, rfl, rfl, rfl⟩
      exact hx
    · clear_value x
      extract_lets +onlyGivenNames x
      extract_lets +onlyGivenNames x
      refine keeps_through (x := x) ?_ (fun hx => ?_)
      · with_reducible refine keeps_mkc ?_ ⟨rfl, rfl, rfl, rfl, rfl, rfl, rfl, rfl⟩
        exact hx
      · clear_value x
        extract_lets +onlyGivenNames x
        refine keeps_through (x := x) ?_ (fun hx => ?_)
        · with_reducible refine Keeps.trans ?_ (setItem_keeps _ _ _)
          exact hx
        · clear_value x
          extract_lets +onlyGivenNames x
          refine keeps_through (x := x) ?_ (fun hx => ?_)
          · with_reducible refine Keeps.trans ?_ (governTick_keeps _)
            with_reducible refine Keeps.trans ?_ (restartSeqs_keeps _)
            with_reducible refine Keeps.trans ?_ (recheckWork_keeps _)
            with_reducible refine Keeps.trans ?_ (bodyChangeover_keeps _)
            exact hx
          · clear_value x
            with_reducible refine Keeps.trans ?_ (holdSealAuto_keeps _ _)
            with_reducible refine Keeps.trans ?_ (rebindAll_keeps _ _)
            refine keeps_ite (fun h => ?_) (fun h => ?_)
            · with_reducible refine keeps_mkc ?_ ⟨rfl, rfl, rfl, rfl, rfl, rfl, rfl, rfl⟩
              exact hx
            · with_reducible refine Keeps.trans ?_ (runPrims_keeps _ _ _)
              with_reducible refine keeps_mkc ?_ ⟨rfl, rfl, rfl, rfl, rfl, rfl, rfl, rfl⟩
              exact hx

theorem admitOne_keeps (a : Accord) (n : Nat) (x : Admit × State) (w : Work) : Keeps x.2 (admitOne a n x w).2 := by
  obtain ⟨m, s⟩ := x
  unfold admitOne
  dsimp only
  split
  · dsimp only
    exact Keeps.refl _
  · dsimp only
    with_reducible refine setItem_keeps _ _ _
  · dsimp only
    exact Keeps.refl _

theorem startSeeds_keeps (a : Accord) (w : Work) (r : FrWork) (s : State) : Keeps s (startSeeds a w r s) := by
  unfold startSeeds
  split
  · extract_lets +onlyGivenNames x
    clear_value x
    with_reducible refine Keeps.trans ?_ (modFrame_keeps _ _)
    with_reducible exact keeps_mkc (Keeps.refl _) ⟨rfl, rfl, rfl, rfl, rfl, rfl, rfl, rfl⟩
  · exact Keeps.refl _

theorem startFrameNet_keeps (want : Bool) (w : Work) (r : FrWork) (x : NetDecl × Nat) (s : State) : Keeps s (startFrameNet want w r x s) := by
  unfold startFrameNet
  extract_lets +onlyGivenNames x
  clear_value x
  extract_lets +onlyGivenNames x
  clear_value x
  with_reducible exact keeps_mkc (Keeps.refl _) ⟨rfl, rfl, rfl, rfl, rfl, rfl, rfl, rfl⟩

theorem startNets_keeps (want : Bool) (w : Work) (r : FrWork) (s : State) : Keeps s (startNets want w r s) := by
  unfold startNets
  extract_lets +onlyGivenNames x
  clear_value x
  extract_lets +onlyGivenNames x
  refine keeps_through (x := x) ?_ (fun hx => ?_)
  · unfold x
    split
    · extract_lets +onlyGivenNames x
      refine keeps_through (x := x) ?_ (fun hx => ?_)
      · with_reducible refine startFrameNet_keeps _ _ _ _ _
      · clear_value x
        with_reducible refine keeps_mkc ?_ ⟨rfl, rfl, rfl, rfl, rfl, rfl, rfl, rfl⟩
        exact hx
    · exact Keeps.refl _
  · clear_value x
    split
    · with_reducible refine Keeps.trans ?_ (startFrameNet_keeps _ _ _ _ _)
      exact hx
    · exact hx

theorem startRows_keeps (a : Accord) (n : Nat) (w : Work) (v : SlWork) (rows : List Nat) (s : State) : Keeps s (startRows a n w v rows s) := by
  unfold startRows
  extract_lets +onlyGivenNames x
  with_reducible refine setItem_keeps _ _ _

theorem startRuns_keeps (hv : View) (d : NetDecl) (n : Nat) (w : Work) (v : TrWork) (runs : List Nat) (s : State) : Keeps s (startRuns hv d n w v runs s) := by
  unfold startRuns
  extract_lets +onlyGivenNames x
  clear_value x
  split
  · with_reducible refine abortRead_keeps _ _ _
  · extract_lets +onlyGivenNames x
    with_reducible refine Keeps.trans ?_ (setItem_keeps _ _ _)
    with_reducible exact keeps_mkc (Keeps.refl _) ⟨rfl, rfl, rfl, rfl, rfl, rfl, rfl, rfl⟩

theorem startItem_keeps (hv : View) (a : Accord) (n : Nat) (x : Starts × State) (w : Work) : Keeps x.2 (startItem hv a n x w).2 := by
  obtain ⟨m, s⟩ := x
  unfold startItem
  dsimp only
  split
  · dsimp only
    exact Keeps.refl _
  · split
    · dsimp only
      refine keeps_foldl (Keeps.refl _) (fun s x hs => ?_)
      split
      · split
        · with_reducible refine Keeps.trans ?_ (startProblem_keeps _ _ _ _)
          exact hs
        · exact hs
      · exact hs
    · split
      · dsimp only
        exact Keeps.refl _
      · dsimp only
        with_reducible refine startRows_keeps _ _ _ _ _ _
    · split
      · dsimp only
        with_reducible refine startRuns_keeps _ _ _ _ _ _ _
      · dsimp only
        exact Keeps.refl _
    · dsimp only
      exact Keeps.refl _

theorem startSolo_keeps (hv : View) (a : Accord) (n : Nat) (s : State) : Keeps s (startSolo hv a n s) := by
  unfold startSolo
  split
  · exact Keeps.refl _
  · refine keeps_foldl_snd (Keeps.refl _) (fun p x => ?_)
    with_reducible refine startItem_keeps _ _ _ _ _

theorem markSolo_keeps (s : State) : Keeps s (markSolo s) := by
  unfold markSolo
  split
  · exact Keeps.refl _
  · with_reducible exact keeps_mkc (Keeps.refl _) ⟨rfl, rfl, rfl, rfl, rfl, rfl, rfl, rfl⟩

theorem dropBodiless_keeps (n : Nat) (s : State) : Keeps s (dropBodiless n s) := by
  unfold dropBodiless
  split
  · exact Keeps.refl _
  · refine keeps_foldl (Keeps.refl _) (fun s x hs => ?_)
    with_reducible refine Keeps.trans ?_ (finishWork_keeps _ _ _ _ _ _ _)
    exact hs

theorem tickFaults_keeps (s : State) : Keeps s (tickFaults s) := by
  unfold tickFaults
  extract_lets +onlyGivenNames x
  clear_value x
  extract_lets +onlyGivenNames x
  clear_value x
  extract_lets +onlyGivenNames x
  refine keeps_foldl (Keeps.refl _) (fun s x hs => ?_)
  with_reducible refine Keeps.trans ?_ (faultFrame_keeps _ _)
  exact hs

theorem admitFrame_keeps (a : Accord) (n : Nat) (f : Frame) (s : State) : Keeps s (admitFrame a n f s) := by
  unfold admitFrame
  extract_lets +onlyGivenNames x
  clear_value x
  split
  extract_lets +onlyGivenNames x
  clear_value x
  extract_lets +onlyGivenNames x
  clear_value x
  extract_lets +onlyGivenNames x
  refine keeps_through (x := x) ?_ (fun hx => ?_)
  · with_reducible refine keeps_mkc ?_ ⟨rfl, rfl, rfl, rfl, rfl, rfl, rfl, rfl⟩
    refine keeps_snd (keeps_foldl_snd ?_ (fun p x => ?_)) (by assumption)
    · dsimp only
      exact Keeps.refl _
    · with_reducible refine admitOne_keeps _ _ _ _
  · clear_value x
    split
    · exact hx
    · with_reducible refine Keeps.trans ?_ (timingChoice_keeps _ _ _ _ _ _)
      exact hx

theorem lateSeal_keeps (n : Nat) (t : Nat) (s : State) : Keeps s (lateSeal n t s) := by
  unfold lateSeal
  split
  · split
    · with_reducible exact keeps_mkc (Keeps.refl _) ⟨rfl, rfl, rfl, rfl, rfl, rfl, rfl, rfl⟩
    · exact Keeps.refl _
  · exact Keeps.refl _

theorem startFrame_keeps (hv : View) (a : Accord) (n : Nat) (t : Nat) (s : State) : Keeps s (startFrame hv a n t s) := by
  unfold startFrame
  extract_lets +onlyGivenNames x
  clear_value x
  extract_lets +onlyGivenNames x
  refine keeps_through (x := x) ?_ (fun hx => ?_)
  · with_reducible refine Keeps.trans ?_ (takePb_keeps _ _)
    with_reducible refine Keeps.trans ?_ (lateSeal_keeps _ _ _)
    with_reducible refine Keeps.trans ?_ (dropBodiless_keeps _ _)
    with_reducible refine restartSeqs_keeps _
  · clear_value x
    extract_lets +onlyGivenNames x
    clear_value x
    extract_lets +onlyGivenNames x
    refine keeps_through (x := x) ?_ (fun hx => ?_)
    · with_reducible refine Keeps.trans ?_ (admitFrame_keeps _ _ _ _)
      with_reducible refine Keeps.trans ?_ (governTick_keeps _)
      exact hx
    · clear_value x
      extract_lets +onlyGivenNames x
      refine keeps_through (x := x) ?_ (fun hx => ?_)
      · unfold x
        split
        · with_reducible refine Keeps.trans ?_ (startNets_keeps _ _ _ _)
          with_reducible refine Keeps.trans ?_ (startSeeds_keeps _ _ _ _)
          exact hx
        · with_reducible assumption
      · clear_value x
        extract_lets +onlyGivenNames x
        refine keeps_through (x := x) ?_ (fun hx => ?_)
        · with_reducible refine Keeps.trans ?_ (tickFaults_keeps _)
          with_reducible refine Keeps.trans ?_ (markSolo_keeps _)
          with_reducible refine Keeps.trans ?_ (startSolo_keeps _ _ _ _)
          exact hx
        · clear_value x
          split
          · with_reducible refine Keeps.trans ?_ (wantSeal_keeps _ _)
            exact hx
          · refine keeps_ite (fun h => ?_) (fun h => ?_)
            · exact hx
            · with_reducible refine Keeps.trans ?_ (runPrims_keeps _ _ _)
              exact hx

theorem planShort_keeps (n : Nat) (s : State) : Keeps s (planShort n s) := by
  unfold planShort
  extract_lets +onlyGivenNames x
  clear_value x
  extract_lets +onlyGivenNames x
  refine keeps_through (x := x) ?_ (fun hx => ?_)
  · with_reducible exact keeps_mkc (Keeps.refl _) ⟨rfl, rfl, rfl, rfl, rfl, rfl, rfl, rfl⟩
  · clear_value x
    with_reducible refine Keeps.trans ?_ (noFrame_keeps _ _)
    refine keeps_foldl ?_ (fun s x hs => ?_)
    · exact hx
    · with_reducible refine Keeps.trans ?_ (finishWork_keeps _ _ _ _ _ _ _)
      exact hs

theorem tooLate_keeps (n : Nat) (t : Nat) (s : State) : Keeps s (tooLate n t s) := by
  unfold tooLate
  refine keeps_foldl (Keeps.refl _) (fun s x hs => ?_)
  with_reducible refine Keeps.trans ?_ (rebindOne_keeps _ _ _)
  exact hs

theorem tickStarts_tickPlan_keeps (hv : View) (n t : Nat) (s : State) : Keeps s (tickStarts.tickPlan hv n t s) := by
  unfold tickStarts.tickPlan
  split
  · with_reducible refine Keeps.trans ?_ (noFrame_keeps _ _)
    with_reducible refine governTick_keeps _
  · split
    · extract_lets +onlyGivenNames x
      refine keeps_through (x := x) ?_ (fun hx => ?_)
      · with_reducible refine Keeps.trans ?_ (governTick_keeps _)
        with_reducible refine Keeps.trans ?_ (setService_keeps _ _)
        with_reducible refine dropFrameNets_keeps _
      · clear_value x
        with_reducible refine Keeps.trans ?_ (holdSealAuto_keeps _ _)
        with_reducible refine Keeps.trans ?_ (rebindAll_keeps _ _)
        refine keeps_ite (fun h => ?_) (fun h => ?_)
        · with_reducible refine keeps_mkc ?_ ⟨rfl, rfl, rfl, rfl, rfl, rfl, rfl, rfl⟩
          exact hx
        · with_reducible refine Keeps.trans ?_ (runPrims_keeps _ _ _)
          with_reducible refine keeps_mkc ?_ ⟨rfl, rfl, rfl, rfl, rfl, rfl, rfl, rfl⟩
          exact hx
    · split
      · with_reducible refine Keeps.trans ?_ (noFrame_keeps _ _)
        with_reducible refine governTick_keeps _
      · split
        · with_reducible refine Keeps.trans ?_ (planShort_keeps _ _)
          with_reducible refine governTick_keeps _
        · extract_lets +onlyGivenNames x
          clear_value x
          extract_lets +onlyGivenNames x
          refine keeps_through (x := x) ?_ (fun hx => ?_)
          · with_reducible exact keeps_mkc (Keeps.refl _) ⟨rfl, rfl, rfl, rfl, rfl, rfl, rfl, rfl⟩
          · clear_value x
            split
            · extract_lets +onlyGivenNames x
              refine keeps_through (x := x) ?_ (fun hx => ?_)
              · with_reducible refine Keeps.trans ?_ (wantSeal_keeps _ _)
                with_reducible refine Keeps.trans ?_ (takePb_keeps _ _)
                with_reducible refine Keeps.trans ?_ (governTick_keeps _)
                exact hx
              · clear_value x
                with_reducible refine Keeps.trans ?_ (rebindAll_keeps _ _)
                with_reducible refine keeps_mkc ?_ ⟨rfl, rfl, rfl, rfl, rfl, rfl, rfl, rfl⟩
                exact hx
            · with_reducible refine Keeps.trans ?_ (startFrame_keeps _ _ _ _ _)
              exact hx

theorem tickStarts_keeps (hv : View) (n t : Nat) (s : State) : Keeps s (tickStarts hv n t s) := by
  unfold tickStarts
  split
  · extract_lets +onlyGivenNames x
    clear_value x
    with_reducible refine Keeps.trans ?_ (noFrame_keeps _ _)
    with_reducible refine Keeps.trans ?_ (setService_keeps _ _)
    with_reducible refine Keeps.trans ?_ (governTick_keeps _)
    split
    · with_reducible refine wantSeal_keeps _ _
    · exact Keeps.refl _
  · split
    · with_reducible refine Keeps.trans ?_ (governTick_keeps _)
      with_reducible exact keeps_mkc (Keeps.refl _) ⟨rfl, rfl, rfl, rfl, rfl, rfl, rfl, rfl⟩
    · split
      · with_reducible refine Keeps.trans ?_ (noFrame_keeps _ _)
        with_reducible refine governTick_keeps _
      · split
        · with_reducible refine Keeps.trans ?_ (holdSealAuto_keeps _ _)
          with_reducible refine Keeps.trans ?_ (noFrame_keeps _ _)
          with_reducible refine governTick_keeps _
        · split
          · split
            · with_reducible refine changeover_keeps _ _ _ _ _ _ _
            · with_reducible refine tickStarts_tickPlan_keeps _ _ _ _
          · with_reducible refine tickStarts_tickPlan_keeps _ _ _ _

theorem keepFlags_keeps (s : State) : Keeps s (keepFlags s) := by
  unfold keepFlags
  split
  · exact Keeps.refl _
  · with_reducible exact keeps_mkc (Keeps.refl _) ⟨rfl, rfl, rfl, rfl, rfl, rfl, rfl, rfl⟩

theorem doTick_keeps (hv : View) (start : Bool) (n : Nat) (t : Nat) (s : State) : Keeps s (doTick hv start n t s) := by
  unfold doTick
  extract_lets +onlyGivenNames x
  clear_value x
  extract_lets +onlyGivenNames x
  refine keeps_through (x := x) ?_ (fun hx => ?_)
  · with_reducible refine Keeps.trans ?_ (lateFound_keeps _ _)
    with_reducible refine applyLate_keeps _
  · clear_value x
    extract_lets +onlyGivenNames x
    refine keeps_through (x := x) ?_ (fun hx => ?_)
    · with_reducible refine Keeps.trans ?_ (keepFlags_keeps _)
      exact hx
    · clear_value x
      extract_lets +onlyGivenNames x
      clear_value x
      extract_lets +onlyGivenNames x
      refine keeps_through (x := x) ?_ (fun hx => ?_)
      · unfold x
        split
        · with_reducible refine Keeps.trans ?_ (keepHaz_keeps _)
          assumption
        · with_reducible refine keeps_mkc ?_ ⟨rfl, rfl, rfl, rfl, rfl, rfl, rfl, rfl⟩
          exact hx
      · clear_value x
        extract_lets +onlyGivenNames x
        clear_value x
        extract_lets +onlyGivenNames x
        refine keeps_through (x := x) ?_ (fun hx => ?_)
        · unfold x
          split
          · with_reducible refine keeps_mkc ?_ ⟨rfl, rfl, rfl, rfl, rfl, rfl, rfl, rfl⟩
            exact hx
          · exact hx
        · clear_value x
          extract_lets +onlyGivenNames x
          refine keeps_through (x := x) ?_ (fun hx => ?_)
          · with_reducible refine Keeps.trans ?_ (tooLate_keeps _ _ _)
            with_reducible refine Keeps.trans ?_ (everyTick_keeps _ _ _)
            exact hx
          · clear_value x
            with_reducible refine Keeps.trans ?_ (markSolo_keeps _)
            with_reducible refine Keeps.trans ?_ (commitLate_keeps _)
            split
            · extract_lets +onlyGivenNames x
              refine keeps_through (x := x) ?_ (fun hx => ?_)
              · with_reducible refine Keeps.trans ?_ (governTick_keeps _)
                exact hx
              · clear_value x
                split
                · with_reducible refine Keeps.trans ?_ (rebindAll_keeps _ _)
                  refine keeps_ite (fun h => ?_) (fun h => ?_)
                  · exact hx
                  · with_reducible refine Keeps.trans ?_ (runPrims_keeps _ _ _)
                    exact hx
                · with_reducible refine Keeps.trans ?_ (noFrame_keeps _ _)
                  exact hx
            · split
              · extract_lets +onlyGivenNames x
                refine keeps_through (x := x) ?_ (fun hx => ?_)
                · with_reducible refine Keeps.trans ?_ (skipTick_keeps _ _ _)
                  with_reducible refine Keeps.trans ?_ (governTick_keeps _)
                  exact hx
                · clear_value x
                  split
                  · with_reducible refine Keeps.trans ?_ (setService_keeps _ _)
                    exact hx
                  · exact hx
              · with_reducible refine Keeps.trans ?_ (tickStarts_keeps _ _ _ _)
                exact hx

theorem announcedTick_keeps (hv : View) (n : Nat) (t : Nat) (s : State) : Keeps s (announcedTick hv n t s) := by
  unfold announcedTick
  extract_lets +onlyGivenNames x
  clear_value x
  extract_lets +onlyGivenNames x
  clear_value x
  extract_lets +onlyGivenNames x
  refine keeps_through (x := x) ?_ (fun hx => ?_)
  · with_reducible refine measurePulse_keeps _ _
  · extract_lets +onlyGivenNames x
    clear_value x
    extract_lets +onlyGivenNames x
    refine keeps_through (x := x) ?_ (fun hx => ?_)
    · with_reducible refine keeps_mkc ?_ ⟨rfl, rfl, rfl, rfl, rfl, rfl, rfl, rfl⟩
      exact hx
    · split
      · exact hx
      · split
        · with_reducible refine Keeps.trans ?_ (doTick_keeps _ _ _ _ _)
          exact hx
        · split
          · with_reducible refine Keeps.trans ?_ (doTick_keeps _ _ _ _ _)
            exact hx
          · with_reducible refine Keeps.trans ?_ (raise_keeps _ _ _ _)
            with_reducible refine Keeps.trans ?_ (doTick_keeps _ _ _ _ _)
            exact hx

theorem downTick_keeps (hv : View) (t : Nat) (s : State) : Keeps s (downTick hv t s) := by
  unfold downTick
  split
  · split
    · exact Keeps.refl _
    · with_reducible refine announcedTick_keeps _ _ _ _
  · split
    · with_reducible refine Keeps.trans ?_ (raise_keeps _ _ _ _)
      with_reducible refine doTick_keeps _ _ _ _ _
    · exact Keeps.refl _

theorem headTick_keeps (hv : View) (t : Nat) (s : State) : Keeps s (headTick hv t s) := by
  unfold headTick
  split
  · exact Keeps.refl _
  · with_reducible refine Keeps.trans ?_ (doTick_keeps _ _ _ _ _)
    with_reducible exact keeps_mkc (Keeps.refl _) ⟨rfl, rfl, rfl, rfl, rfl, rfl, rfl, rfl⟩

theorem execFrameTick_keeps (t : Nat) (v : View) (s : State) {t' : State}  (h : execFrameTick t v s = .next t') : Keeps s t' := by
  unfold execFrameTick at h
  refine runAt_keeps (fun s => ?_) h
  extract_lets +onlyGivenNames x
  refine keeps_through (x := x) ?_ (fun hx => ?_)
  · with_reducible refine applyView_keeps _ _
  · clear_value x
    split
    · with_reducible refine Keeps.trans ?_ (headTick_keeps _ _ _)
      exact hx
    · with_reducible refine Keeps.trans ?_ (downTick_keeps _ _ _)
      exact hx

end Sys2Proof.Machine
end

