-- ==== Sys2Proof/Laws/KeepsAccord.lean ====
section
/-! SUPPORT. Every operation of Sys2Proof/Machine/Accord.lean keeps what `Keeps` speaks of. -/

namespace Sys2Proof.Machine

theorem startHeld_keeps (s : State) : Keeps s (startHeld s) := by
  unfold startHeld
  split
  · exact Keeps.refl _
  · split
    · with_reducible refine setItem_keeps _ _ _
    · exact Keeps.refl _

theorem takeImage_keeps (d : Taken) (img : Accord) (s : State) : Keeps s (takeImage d img s) := by
  unfold takeImage
  split
  · with_reducible refine refuse_keeps _ _ _
  · split
    · with_reducible refine refuse_keeps _ _ _
    · extract_lets +onlyGivenNames x
      clear_value x
      with_reducible refine Keeps.trans ?_ (startHeld_keeps _)
      with_reducible refine addWork_keeps _ _

theorem withImage_keeps (d : Taken) (v : View) (n : Nat) (s : State) (k : Bytes → State → State) (hk : ∀ b s, Keeps s (k b s)) : Keeps s (withImage d v n s k) := by
  unfold withImage
  split
  · with_reducible refine hk _ _
  · with_reducible refine withRead_keeps _ _ _ _ _ _ ?_
    intro x
    intro x
    with_reducible refine hk _ _

theorem execAccordLoad_keeps (d : Taken) (v : View) (img : Accord) (s : State) {t' : State}  (h : execAccordLoad d v img s = .next t') : Keeps s t' := by
  unfold execAccordLoad at h
  refine runAt_keeps (fun s => ?_) h
  split
  · exact Keeps.refl _
  · extract_lets +onlyGivenNames x
    clear_value x
    extract_lets +onlyGivenNames x
    refine keeps_through (x := x) ?_ (fun hx => ?_)
    · with_reducible refine Keeps.trans ?_ (applyView_keeps _ _)
      with_reducible exact keeps_mkc (Keeps.refl _) ⟨rfl, rfl, rfl, rfl, rfl, rfl, rfl, rfl⟩
    · clear_value x
      split
      · with_reducible refine Keeps.trans ?_ (refuse_keeps _ _ _)
        exact hx
      · split
        · with_reducible refine Keeps.trans ?_ (refuse_keeps _ _ _)
          exact hx
        · split
          · with_reducible refine Keeps.trans ?_ (refuse_keeps _ _ _)
            exact hx
          · split
            · with_reducible refine Keeps.trans ?_ (refuse_keeps _ _ _)
              exact hx
            · split
              · with_reducible refine Keeps.trans ?_ (refuse_keeps _ _ _)
                exact hx
              · dsimp only
                with_reducible refine Keeps.trans ?_ (withChecks_keeps _ _ _ _ ?_)
                · exact hx
                · intro x
                  with_reducible refine withImage_keeps _ _ _ _ _ ?_
                  intro x
                  intro x
                  split
                  · with_reducible refine refuse_keeps _ _ _
                  · with_reducible refine withImage_keeps _ _ _ _ _ ?_
                    intro x
                    intro x
                    split
                    · with_reducible refine refuse_keeps _ _ _
                    · with_reducible refine takeImage_keeps _ _ _

theorem endCopy_keeps (pcieError : Bool) (s : State) : Keeps s (endCopy pcieError s) := by
  unfold endCopy
  split
  · exact Keeps.refl _
  · split
    · with_reducible refine Keeps.trans ?_ (startHeld_keeps _)
      with_reducible refine Keeps.trans ?_ (finishWork_keeps _ _ _ _ _ _ _)
      with_reducible refine raise_keeps _ _ _ _
    · extract_lets +onlyGivenNames x
      clear_value x
      extract_lets +onlyGivenNames x
      refine keeps_through (x := x) ?_ (fun hx => ?_)
      · with_reducible refine keyWrite_keeps _ _ _
      · clear_value x
        split
        · with_reducible refine Keeps.trans ?_ (startHeld_keeps _)
          with_reducible refine Keeps.trans ?_ (finishWork_keeps _ _ _ _ _ _ _)
          exact hx
        · split
          · with_reducible refine Keeps.trans ?_ (startHeld_keeps _)
            with_reducible refine Keeps.trans ?_ (finishWork_keeps _ _ _ _ _ _ _)
            exact hx
          · with_reducible refine Keeps.trans ?_ (setItem_keeps _ _ _)
            exact hx

theorem execAccordCopyDone_keeps (t : Nat) (pcieError : Bool) (s : State) {t' : State}  (h : execAccordCopyDone t pcieError s = .next t') : Keeps s t' := by
  unfold execAccordCopyDone at h
  refine runAt_keeps (fun s => ?_) h
  with_reducible refine endCopy_keeps _ _

theorem coresLoaded_keeps (s : State) : Keeps s (coresLoaded s) := by
  unfold coresLoaded
  split
  · with_reducible refine Keeps.trans ?_ (startHeld_keeps _)
    with_reducible refine finishWork_keeps _ _ _ _ _ _ _
  · exact Keeps.refl _

theorem execAccordCoresLoaded_keeps (t : Nat) (s : State) {t' : State}  (h : execAccordCoresLoaded t s = .next t') : Keeps s t' := by
  unfold execAccordCoresLoaded at h
  refine runAt_keeps (fun s => ?_) h
  with_reducible refine coresLoaded_keeps _

end Sys2Proof.Machine
end

