-- ==== Sys2Proof/Laws/KeepsBatch.lean ====
section
/-! SUPPORT. Every operation of Sys2Proof/Machine/Batch.lean keeps what `Keeps` speaks of. -/

namespace Sys2Proof.Machine

theorem cutBatch_keeps (wid : Nat) (nOpt : Nat) (p : Nat) (batch : Nat) (s : State) : Keeps s (cutBatch wid nOpt p batch s) := by
  unfold cutBatch
  extract_lets +onlyGivenNames x
  clear_value x
  refine keeps_foldl (Keeps.refl _) (fun s x hs => ?_)
  split
  · split
    · exact hs
    · with_reducible refine Keeps.trans ?_ (cutOpt_keeps _ _ _)
      with_reducible refine Keeps.trans ?_ (setOpt_keeps _ _)
      exact hs
  · exact hs

theorem leaveFrame_keeps (wid : Nat) (s : State) : Keeps s (leaveFrame wid s) := by
  unfold leaveFrame
  with_reducible refine modFrame_keeps _ _

theorem enterBatch_keeps (a : Accord) (v : View) (x : Adm) (s : State) : Keeps s (enterBatch a v x s) := by
  unfold enterBatch
  extract_lets +onlyGivenNames x
  split
  · exact Keeps.refl _
  · split
    · split
      · extract_lets +onlyGivenNames x
        refine keeps_through (x := x) ?_ (fun hx => ?_)
        · with_reducible refine cutBatch_keeps _ _ _ _ _
        · clear_value x
          with_reducible refine Keeps.trans ?_ (modFrame_keeps _ _)
          exact hx
      · exact Keeps.refl _
    · split
      · with_reducible refine modFrame_keeps _ _
      · with_reducible refine Keeps.trans ?_ (leaveFrame_keeps _ _)
        with_reducible refine abortRead_keeps _ _ _
    · exact Keeps.refl _

theorem stageBatch_keeps (a : Accord) (fl : Flacon) (geo : List (Nat × List Nat)) (deals : List Deal) (s : State) : Keeps s (stageBatch a fl geo deals s) := by
  unfold stageBatch
  refine keeps_foldl (Keeps.refl _) (fun s x hs => ?_)
  refine keeps_foldl ?_ (fun s x hs => ?_)
  · exact hs
  · extract_lets +onlyGivenNames x
    clear_value x
    extract_lets +onlyGivenNames x
    clear_value x
    extract_lets +onlyGivenNames x
    clear_value x
    extract_lets +onlyGivenNames x
    clear_value x
    split
    · with_reducible refine Keeps.trans ?_ (setCore_keeps _ _ _)
      with_reducible refine Keeps.trans ?_ (keyWrite_keeps _ _ _)
      exact hs
    · exact hs

theorem noteCosts_keeps (f : Frame) (w : Work) (net : Nat) (batch : Nat) (layers : Nat) (l : List (Option (Nat × List Nat))) (s : State) : Keeps s (noteCosts f w net batch layers l s) := by
  unfold noteCosts
  refine keeps_foldl (Keeps.refl _) (fun s x hs => ?_)
  split
  · with_reducible assumption
  · extract_lets +onlyGivenNames x
    clear_value x
    extract_lets +onlyGivenNames x
    refine keeps_through (x := x) ?_ (fun hx => ?_)
    · refine keeps_foldl ?_ (fun s x hs => ?_)
      · exact hs
      · with_reducible refine Keeps.trans ?_ (logWork_keeps _ _ _ _ _ _ _ _)
        exact hs
    · clear_value x
      split
      · with_reducible refine Keeps.trans ?_ (modFrame_keeps _ _)
        exact hx
      · with_reducible assumption

theorem checkBatch_keeps (a : Accord) (f : Frame) (s : State) (b : BatchRes) : Keeps s (checkBatch a f s b).2 := by
  unfold checkBatch
  dsimp only
  split
  · split
    · dsimp only
      with_reducible refine Keeps.trans ?_ (noteCosts_keeps _ _ _ _ _ _ _)
      with_reducible refine stageBatch_keeps _ _ _ _ _
    · dsimp only
      with_reducible refine stageBatch_keeps _ _ _ _ _
  · dsimp only
    exact Keeps.refl _

theorem noteEpoch_keeps (s : State) (w : Work) : Keeps s (noteEpoch s w) := by
  unfold noteEpoch
  split
  · extract_lets +onlyGivenNames x
    clear_value x
    with_reducible refine setItem_keeps _ _ _
  · exact Keeps.refl _

theorem checkSlot_keeps (a : Accord) (m : Nat) (s : State) : Keeps s (checkSlot a m s) := by
  unfold checkSlot
  split
  · exact Keeps.refl _
  · split
    · exact Keeps.refl _
    · split
      extract_lets +onlyGivenNames x
      refine keeps_through (x := x) ?_ (fun hx => ?_)
      · unfold x
        split
        · with_reducible refine Keeps.trans ?_ (noteEpoch_keeps _ _)
          refine Keeps.trans ?_ (keeps_snd (checkBatch_keeps _ _ _ _) (by assumption))
          exact Keeps.refl _
        · refine Keeps.trans ?_ (keeps_snd (checkBatch_keeps _ _ _ _) (by assumption))
          exact Keeps.refl _
      · clear_value x
        with_reducible refine Keeps.trans ?_ (modFrame_keeps _ _)
        exact hx

theorem retireBatch_keeps (b : BatchRes) (s : State) : Keeps s (retireBatch b s) := by
  unfold retireBatch
  extract_lets +onlyGivenNames x
  clear_value x
  extract_lets +onlyGivenNames x
  clear_value x
  extract_lets +onlyGivenNames x
  refine keeps_through (x := x) ?_ (fun hx => ?_)
  · with_reducible refine modFrame_keeps _ _
  · clear_value x
    split
    · extract_lets +onlyGivenNames x
      refine keeps_through (x := x) ?_ (fun hx => ?_)
      · with_reducible refine Keeps.trans ?_ (logWork_keeps _ _ _ _ _ _ _ _)
        exact hx
      · clear_value x
        extract_lets +onlyGivenNames x
        refine keeps_through (x := x) ?_ (fun hx => ?_)
        · unfold x
          split
          · with_reducible refine Keeps.trans ?_ (modFrame_keeps _ _)
            exact hx
          · with_reducible assumption
        · clear_value x
          split
          · with_reducible refine Keeps.trans ?_ (setItem_keeps _ _ _)
            exact hx
          · with_reducible refine Keeps.trans ?_ (modFrame_keeps _ _)
            exact hx
    · exact hx

theorem stageGolden_keeps (f : Frame) (s : State) : Keeps s (stageGolden f s) := by
  unfold stageGolden
  split
  · split
    · with_reducible refine stageBatch_keeps _ _ _ _ _
    · exact Keeps.refl _
  · exact Keeps.refl _

theorem retireGolden_keeps (upset : Option Nat) (f : Frame) (s : State) : Keeps s (retireGolden upset f s) := by
  unfold retireGolden
  extract_lets +onlyGivenNames x
  clear_value x
  extract_lets +onlyGivenNames x
  clear_value x
  extract_lets +onlyGivenNames x
  clear_value x
  extract_lets +onlyGivenNames x
  clear_value x
  extract_lets +onlyGivenNames x
  refine keeps_through (x := x) ?_ (fun hx => ?_)
  · with_reducible refine Keeps.trans ?_ (modFrame_keeps _ _)
    with_reducible refine Keeps.trans ?_ (stageGolden_keeps _ _)
    with_reducible exact keeps_mkc (Keeps.refl _) ⟨rfl, rfl, rfl, rfl, rfl, rfl, rfl, rfl⟩
  · clear_value x
    split
    · with_reducible refine Keeps.trans ?_ (raise_keeps _ _ _ _)
      with_reducible refine keeps_mkc ?_ ⟨rfl, rfl, rfl, rfl, rfl, rfl, rfl, rfl⟩
      exact hx
    · split
      · with_reducible refine keeps_mkc ?_ ⟨rfl, rfl, rfl, rfl, rfl, rfl, rfl, rfl⟩
        exact hx
      · exact hx
    · exact hx

theorem boundary_keeps (a : Accord) (upset : Option Nat) (v : View) (f : Frame) (s : State) : Keeps s (boundary a upset v f s) := by
  unfold boundary
  extract_lets +onlyGivenNames x
  clear_value x
  extract_lets +onlyGivenNames x
  refine keeps_through (x := x) ?_ (fun hx => ?_)
  · with_reducible refine applyLate_keeps _
  · clear_value x
    extract_lets +onlyGivenNames x
    refine keeps_through (x := x) ?_ (fun hx => ?_)
    · unfold x
      split
      · with_reducible refine Keeps.trans ?_ (modFrame_keeps _ _)
        exact hx
      · exact hx
    · clear_value x
      extract_lets +onlyGivenNames x
      refine keeps_through (x := x) ?_ (fun hx => ?_)
      · refine keeps_foldl ?_ (fun s x hs => ?_)
        · exact hx
        · with_reducible refine Keeps.trans ?_ (enterBatch_keeps _ _ _ _)
          exact hs
      · clear_value x
        extract_lets +onlyGivenNames x
        refine keeps_through (x := x) ?_ (fun hx => ?_)
        · unfold x
          split
          · exact hx
          · with_reducible refine Keeps.trans ?_ (checkSlot_keeps _ _ _)
            exact hx
        · clear_value x
          extract_lets +onlyGivenNames x
          refine keeps_through (x := x) ?_ (fun hx => ?_)
          · unfold x
            split
            · with_reducible refine Keeps.trans ?_ (retireBatch_keeps _ _)
              exact hx
            · with_reducible assumption
          · clear_value x
            extract_lets +onlyGivenNames x
            refine keeps_through (x := x) ?_ (fun hx => ?_)
            · unfold x
              split
              · split
                · with_reducible refine Keeps.trans ?_ (retireGolden_keeps _ _ _)
                  exact hx
                · exact hx
              · exact hx
            · clear_value x
              with_reducible refine Keeps.trans ?_ (modFrame_keeps _ _)
              exact hx

theorem execBatchSlotBoundary_keeps (t : Nat) (upset : Option Nat) (v : View) (s : State) {t' : State}  (h : execBatchSlotBoundary t upset v s = .next t') : Keeps s t' := by
  unfold execBatchSlotBoundary at h
  refine runAt_keeps (fun s => ?_) h
  extract_lets +onlyGivenNames x
  refine keeps_through (x := x) ?_ (fun hx => ?_)
  · with_reducible refine applyView_keeps _ _
  · clear_value x
    split
    · split
      · with_reducible refine Keeps.trans ?_ (boundary_keeps _ _ _ _ _)
        exact hx
      · with_reducible refine Keeps.trans ?_ (applyLate_keeps _)
        exact hx
    · exact hx

theorem reissue_keeps (f : Frame) (s : State) (w : Work) : Keeps s (reissue f s w) := by
  unfold reissue
  split
  · extract_lets +onlyGivenNames x
    clear_value x
    split
    · exact Keeps.refl _
    · with_reducible refine setItem_keeps _ _ _
  · exact Keeps.refl _

theorem execJugglerMerge_keeps (t : Nat) (s : State) {t' : State}  (h : execJugglerMerge t s = .next t') : Keeps s t' := by
  unfold execJugglerMerge at h
  refine runAt_keeps (fun s => ?_) h
  split
  · exact Keeps.refl _
  · split
    · exact Keeps.refl _
    · extract_lets +onlyGivenNames x
      refine keeps_through (x := x) ?_ (fun hx => ?_)
      · with_reducible refine modFrame_keeps _ _
      · clear_value x
        split
        · with_reducible refine Keeps.trans ?_ (fireNet_keeps _ _)
          exact hx
        · exact hx

end Sys2Proof.Machine
end

