-- ==== Sys2Proof/Laws/KeepsRingm.lean ====
section
/-! SUPPORT. Every operation of Sys2Proof/Machine/Ringm.lean keeps what `Keeps` speaks of. -/

namespace Sys2Proof.Machine

theorem setThread_keeps (e : Nat) (x : Thread) (s : State) : Keeps s (setThread e x s) := by
  unfold setThread
  with_reducible exact keeps_mkc (Keeps.refl _) ⟨rfl, rfl, rfl, rfl, rfl, rfl, rfl, rfl⟩

theorem unready_keeps (e : Nat) (s : State) : Keeps s (unready e s) := by
  unfold unready
  with_reducible exact keeps_mkc (Keeps.refl _) ⟨rfl, rfl, rfl, rfl, rfl, rfl, rfl, rfl⟩

theorem makeReady_keeps (e : Nat) (reason : Nat) (atHead : Bool) (s : State) : Keeps s (makeReady e reason atHead s) := by
  unfold makeReady
  extract_lets +onlyGivenNames x
  clear_value x
  extract_lets +onlyGivenNames x
  clear_value x
  extract_lets +onlyGivenNames x
  refine keeps_through (x := x) ?_ (fun hx => ?_)
  · with_reducible refine unready_keeps _ _
  · clear_value x
    extract_lets +onlyGivenNames x
    refine keeps_through (x := x) ?_ (fun hx => ?_)
    · with_reducible refine Keeps.trans ?_ (setThread_keeps _ _ _)
      exact hx
    · clear_value x
      with_reducible refine keeps_mkc ?_ ⟨rfl, rfl, rfl, rfl, rfl, rfl, rfl, rfl⟩
      exact hx

theorem pick_keeps (p : Nat) (s : State) : Keeps s (pick p s) := by
  unfold pick
  split
  · exact Keeps.refl _
  · with_reducible refine Keeps.trans ?_ (setThread_keeps _ _ _)
    with_reducible refine unready_keeps _ _

theorem wordRelease_keeps (w : Nat) (v : Nat) (s : State) : Keeps s (wordRelease w v s) := by
  unfold wordRelease
  extract_lets +onlyGivenNames x
  clear_value x
  refine keeps_foldl (Keeps.refl _) (fun s x hs => ?_)
  with_reducible refine Keeps.trans ?_ (makeReady_keeps _ _ _ _)
  exact hs

theorem tickRelease_keeps (u : Nat) (s : State) : Keeps s (tickRelease u s) := by
  unfold tickRelease
  extract_lets +onlyGivenNames x
  clear_value x
  extract_lets +onlyGivenNames x
  refine keeps_through (x := x) ?_ (fun hx => ?_)
  · refine keeps_foldl (Keeps.refl _) (fun s x hs => ?_)
    with_reducible refine Keeps.trans ?_ (makeReady_keeps _ _ _ _)
    exact hs
  · clear_value x
    with_reducible refine keeps_mkc ?_ ⟨rfl, rfl, rfl, rfl, rfl, rfl, rfl, rfl⟩
    exact hx

theorem setProg_keeps (u : CUnit) (n : Nat) (s : State) : Keeps s (setProg u n s) := by
  unfold setProg
  with_reducible exact keeps_mkc (Keeps.refl _) ⟨rfl, rfl, rfl, rfl, rfl, rfl, rfl, rfl⟩

theorem clearProg_keeps (q : Nat) (s : State) : Keeps s (clearProg q s) := by
  unfold clearProg
  with_reducible exact keeps_mkc (Keeps.refl _) ⟨rfl, rfl, rfl, rfl, rfl, rfl, rfl, rfl⟩

theorem startSlice_keeps (u : CUnit) (s : State) : Keeps s (startSlice u s) := by
  unfold startSlice
  with_reducible exact keeps_mkc (Keeps.refl _) ⟨rfl, rfl, rfl, rfl, rfl, rfl, rfl, rfl⟩

theorem admitSlice_keeps (u : Nat) (delayed : List (Nat × Thread)) (s : State) : Keeps s (admitSlice u delayed s) := by
  unfold admitSlice
  split
  · exact Keeps.refl _
  · split
    · with_reducible exact keeps_mkc (Keeps.refl _) ⟨rfl, rfl, rfl, rfl, rfl, rfl, rfl, rfl⟩
    · split
      · extract_lets +onlyGivenNames x
        clear_value x
        extract_lets +onlyGivenNames x
        clear_value x
        extract_lets +onlyGivenNames x
        refine keeps_through (x := x) ?_ (fun hx => ?_)
        · with_reducible exact keeps_mkc (Keeps.refl _) ⟨rfl, rfl, rfl, rfl, rfl, rfl, rfl, rfl⟩
        · clear_value x
          split
          · with_reducible refine Keeps.trans ?_ (raise_keeps _ _ _ _)
            with_reducible refine keeps_mkc ?_ ⟨rfl, rfl, rfl, rfl, rfl, rfl, rfl, rfl⟩
            exact hx
          · exact hx
      · with_reducible refine startSlice_keeps _ _

theorem setResult_keeps (p : Nat) (code : Nat) (value : Nat) (s : State) : Keeps s (setResult p code value s) := by
  unfold setResult
  with_reducible exact keeps_mkc (Keeps.refl _) ⟨rfl, rfl, rfl, rfl, rfl, rfl, rfl, rfl⟩

theorem setArgs_keeps (p : Nat) (a0 : Nat) (a1 : Nat) (s : State) : Keeps s (setArgs p a0 a1 s) := by
  unfold setArgs
  with_reducible exact keeps_mkc (Keeps.refl _) ⟨rfl, rfl, rfl, rfl, rfl, rfl, rfl, rfl⟩

theorem createThread_keeps (p : Nat) (a0 : Nat) (a1 : Nat) (s : State) : Keeps s (createThread p a0 a1 s) := by
  unfold createThread
  extract_lets +onlyGivenNames x
  clear_value x
  extract_lets +onlyGivenNames x
  clear_value x
  extract_lets +onlyGivenNames x
  clear_value x
  extract_lets +onlyGivenNames x
  clear_value x
  extract_lets +onlyGivenNames x
  clear_value x
  split
  · with_reducible refine setResult_keeps _ _ _ _
  · split
    · with_reducible refine setResult_keeps _ _ _ _
    · split
      · with_reducible refine setResult_keeps _ _ _ _
      · extract_lets +onlyGivenNames x
        clear_value x
        extract_lets +onlyGivenNames x
        clear_value x
        split
        · with_reducible refine setResult_keeps _ _ _ _
        · with_reducible refine Keeps.trans ?_ (setResult_keeps _ _ _ _)
          with_reducible refine setThread_keeps _ _ _

theorem resumeThread_keeps (p : Nat) (a0 : Nat) (s : State) : Keeps s (resumeThread p a0 s) := by
  unfold resumeThread
  extract_lets +onlyGivenNames x
  clear_value x
  split
  · with_reducible refine setResult_keeps _ _ _ _
  · split
    · with_reducible refine Keeps.trans ?_ (setResult_keeps _ _ _ _)
      with_reducible refine makeReady_keeps _ _ _ _
    · with_reducible refine setResult_keeps _ _ _ _

theorem suspendThread_keeps (p : Nat) (a0 : Nat) (s : State) : Keeps s (suspendThread p a0 s) := by
  unfold suspendThread
  extract_lets +onlyGivenNames x
  clear_value x
  split
  · with_reducible refine setResult_keeps _ _ _ _
  · extract_lets +onlyGivenNames x
    clear_value x
    split
    · with_reducible refine Keeps.trans ?_ (setResult_keeps _ _ _ _)
      with_reducible refine Keeps.trans ?_ (setThread_keeps _ _ _)
      with_reducible refine unready_keeps _ _
    · with_reducible refine setResult_keeps _ _ _ _

theorem deleteThread_keeps (p : Nat) (a0 : Nat) (s : State) : Keeps s (deleteThread p a0 s) := by
  unfold deleteThread
  extract_lets +onlyGivenNames x
  clear_value x
  split
  · with_reducible refine setResult_keeps _ _ _ _
  · split
    · with_reducible refine Keeps.trans ?_ (setResult_keeps _ _ _ _)
      with_reducible refine setThread_keeps _ _ _
    · with_reducible refine setResult_keeps _ _ _ _

theorem disposeThread_keeps (e : Nat) (d : Nat) (a0 : Nat) (a1 : Nat) (s : State) : Keeps s (disposeThread e d a0 a1 s) := by
  unfold disposeThread
  extract_lets +onlyGivenNames x
  clear_value x
  extract_lets +onlyGivenNames x
  clear_value x
  extract_lets +onlyGivenNames x
  extract_lets +onlyGivenNames x
  clear_value x
  extract_lets +onlyGivenNames x
  clear_value x
  extract_lets +onlyGivenNames x
  split
  · with_reducible refine makeReady_keeps _ _ _ _
  · with_reducible refine makeReady_keeps _ _ _ _
  · with_reducible refine keeps_mkc ?_ ⟨rfl, rfl, rfl, rfl, rfl, rfl, rfl, rfl⟩
    with_reducible refine setThread_keeps _ _ _
  · unfold x
    split
    · with_reducible refine makeReady_keeps _ _ _ _
    · with_reducible refine keeps_mkc ?_ ⟨rfl, rfl, rfl, rfl, rfl, rfl, rfl, rfl⟩
      with_reducible refine setThread_keeps _ _ _
  · unfold x
    split
    · with_reducible refine makeReady_keeps _ _ _ _
    · with_reducible refine keeps_mkc ?_ ⟨rfl, rfl, rfl, rfl, rfl, rfl, rfl, rfl⟩
      with_reducible refine setThread_keeps _ _ _
  · with_reducible refine setThread_keeps _ _ _
  · with_reducible refine setThread_keeps _ _ _

theorem switchTo_keeps (p : Nat) (s : State) : Keeps s (switchTo p s) := by
  unfold switchTo
  split
  · with_reducible refine setResult_keeps _ _ _ _
  · with_reducible refine Keeps.trans ?_ (setResult_keeps _ _ _ _)
    with_reducible refine pick_keeps _ _

theorem switchThread_keeps (p : Nat) (a0 : Nat) (a1 : Nat) (s : State) : Keeps s (switchThread p a0 a1 s) := by
  unfold switchThread
  split
  · with_reducible refine switchTo_keeps _ _
  · extract_lets +onlyGivenNames x
    clear_value x
    split
    · with_reducible refine setResult_keeps _ _ _ _
    · with_reducible refine Keeps.trans ?_ (switchTo_keeps _ _)
      with_reducible refine disposeThread_keeps _ _ _ _ _

theorem setPrio_keeps (p : Nat) (a0 : Nat) (a1 : Nat) (s : State) : Keeps s (setPrio p a0 a1 s) := by
  unfold setPrio
  extract_lets +onlyGivenNames x
  clear_value x
  split
  · with_reducible refine setResult_keeps _ _ _ _
  · extract_lets +onlyGivenNames x
    clear_value x
    split
    · with_reducible refine setResult_keeps _ _ _ _
    · split
      · with_reducible refine setResult_keeps _ _ _ _
      · extract_lets +onlyGivenNames x
        refine keeps_through (x := x) ?_ (fun hx => ?_)
        · with_reducible refine setThread_keeps _ _ _
        · clear_value x
          extract_lets +onlyGivenNames x
          refine keeps_through (x := x) ?_ (fun hx => ?_)
          · with_reducible refine Keeps.trans ?_ (unready_keeps _ _)
            exact hx
          · clear_value x
            extract_lets +onlyGivenNames x
            clear_value x
            extract_lets +onlyGivenNames x
            refine keeps_through (x := x) ?_ (fun hx => ?_)
            · unfold x
              split
              · with_reducible refine keeps_mkc ?_ ⟨rfl, rfl, rfl, rfl, rfl, rfl, rfl, rfl⟩
                exact hx
              · assumption
            · clear_value x
              with_reducible refine Keeps.trans ?_ (setResult_keeps _ _ _ _)
              exact hx

theorem setPair_keeps (p : Nat) (a0 : Nat) (a1 : Nat) (s : State) : Keeps s (setPair p a0 a1 s) := by
  unfold setPair
  extract_lets +onlyGivenNames x
  clear_value x
  split
  · with_reducible refine setResult_keeps _ _ _ _
  · extract_lets +onlyGivenNames x
    clear_value x
    extract_lets +onlyGivenNames x
    clear_value x
    split
    · with_reducible refine setResult_keeps _ _ _ _
    · split
      · with_reducible refine setResult_keeps _ _ _ _
      · split
        · with_reducible refine setResult_keeps _ _ _ _
        · extract_lets +onlyGivenNames x
          refine keeps_through (x := x) ?_ (fun hx => ?_)
          · with_reducible refine setThread_keeps _ _ _
          · clear_value x
            extract_lets +onlyGivenNames x
            refine keeps_through (x := x) ?_ (fun hx => ?_)
            · with_reducible refine Keeps.trans ?_ (unready_keeps _ _)
              exact hx
            · clear_value x
              extract_lets +onlyGivenNames x
              clear_value x
              extract_lets +onlyGivenNames x
              refine keeps_through (x := x) ?_ (fun hx => ?_)
              · unfold x
                split
                · with_reducible refine keeps_mkc ?_ ⟨rfl, rfl, rfl, rfl, rfl, rfl, rfl, rfl⟩
                  exact hx
                · assumption
              · clear_value x
                with_reducible refine Keeps.trans ?_ (setResult_keeps _ _ _ _)
                exact hx

theorem wakeThread_keeps (p : Nat) (a0 : Nat) (s : State) : Keeps s (wakeThread p a0 s) := by
  unfold wakeThread
  extract_lets +onlyGivenNames x
  clear_value x
  split
  · with_reducible refine setResult_keeps _ _ _ _
  · extract_lets +onlyGivenNames x
    clear_value x
    split
    · with_reducible refine Keeps.trans ?_ (setResult_keeps _ _ _ _)
      with_reducible refine makeReady_keeps _ _ _ _
    · with_reducible refine setResult_keeps _ _ _ _

theorem readEntry_keeps (p : Nat) (a0 : Nat) (s : State) : Keeps s (readEntry p a0 s) := by
  unfold readEntry
  extract_lets +onlyGivenNames x
  clear_value x
  split
  · with_reducible refine setResult_keeps _ _ _ _
  · split
    · with_reducible refine setResult_keeps _ _ _ _
    · extract_lets +onlyGivenNames x
      clear_value x
      with_reducible refine Keeps.trans ?_ (setResult_keeps _ _ _ _)
      with_reducible refine setArgs_keeps _ _ _ _

theorem rebind_keeps (p : Nat) (s : State) (e : Nat) : Keeps s (rebind p s e) := by
  unfold rebind
  extract_lets +onlyGivenNames x
  clear_value x
  split
  · exact Keeps.refl _
  · split
    · extract_lets +onlyGivenNames x
      refine keeps_through (x := x) ?_ (fun hx => ?_)
      · with_reducible refine setThread_keeps _ _ _
      · clear_value x
        split
        · with_reducible refine Keeps.trans ?_ (makeReady_keeps _ _ _ _)
          exact hx
        · exact hx
    · with_reducible refine Keeps.trans ?_ (setThread_keeps _ _ _)
      with_reducible refine unready_keeps _ _

theorem rebindPair_keeps (p : Nat) (s : State) : Keeps s (rebindPair p s) := by
  unfold rebindPair
  refine keeps_foldl (Keeps.refl _) (fun s x hs => ?_)
  with_reducible refine Keeps.trans ?_ (rebind_keeps _ _ _)
  exact hs

theorem kernelRun_keeps (c : KCmd) (p : Nat) (a0 : Nat) (a1 : Nat) (s : State) : Keeps s (kernelRun c p a0 a1 s) := by
  unfold kernelRun
  split
  · with_reducible refine createThread_keeps _ _ _ _
  · with_reducible refine resumeThread_keeps _ _ _
  · with_reducible refine suspendThread_keeps _ _ _
  · with_reducible refine deleteThread_keeps _ _ _
  · with_reducible refine switchThread_keeps _ _ _ _
  · with_reducible refine setPrio_keeps _ _ _ _
  · with_reducible refine setPair_keeps _ _ _ _
  · with_reducible refine wakeThread_keeps _ _ _
  · with_reducible refine readEntry_keeps _ _ _

theorem applyEvent_keeps (s : State) (e : REvent) : Keeps s (applyEvent s e) := by
  unfold applyEvent
  split
  · with_reducible refine tickRelease_keeps _ _
  · with_reducible refine wordRelease_keeps _ _ _
  · with_reducible refine rebindPair_keeps _ _
  · split
    · exact Keeps.refl _
    · with_reducible refine Keeps.trans ?_ (kernelRun_keeps _ _ _ _ _)
      with_reducible refine setArgs_keeps _ _ _ _

theorem noteRing_keeps (e : REvent) (s : State) : Keeps s (noteRing e s) := by
  unfold noteRing
  extract_lets +onlyGivenNames x
  clear_value x
  with_reducible exact keeps_mkc (Keeps.refl _) ⟨rfl, rfl, rfl, rfl, rfl, rfl, rfl, rfl⟩

theorem ringBefore_keeps (x : RingCycle) (s : State) : Keeps s (ringBefore x s) := by
  unfold ringBefore
  with_reducible exact keeps_mkc (Keeps.refl _) ⟨rfl, rfl, rfl, rfl, rfl, rfl, rfl, rfl⟩

theorem ringEvent_keeps (e : REvent) (s : State) : Keeps s (ringEvent e s) := by
  unfold ringEvent
  split
  · with_reducible refine Keeps.trans ?_ (applyEvent_keeps _ _)
    with_reducible refine noteRing_keeps _ _
  · extract_lets +onlyGivenNames x
    clear_value x
    extract_lets +onlyGivenNames x
    refine keeps_through (x := x) ?_ (fun hx => ?_)
    · with_reducible refine ringBefore_keeps _ _
    · clear_value x
      refine keeps_foldl ?_ (fun s x hs => ?_)
      · with_reducible refine keeps_mkc ?_ ⟨rfl, rfl, rfl, rfl, rfl, rfl, rfl, rfl⟩
        exact hx
      · with_reducible refine Keeps.trans ?_ (applyEvent_keeps _ _)
        exact hs

theorem ringSettled_keeps (s : State) : Keeps s (ringSettled s) := by
  unfold ringSettled
  with_reducible exact keeps_mkc (Keeps.refl _) ⟨rfl, rfl, rfl, rfl, rfl, rfl, rfl, rfl⟩

theorem execEventWordChange_keeps (t : Nat) (w : Nat) (s : State) {t' : State}  (h : execEventWordChange t w s = .next t') : Keeps s t' := by
  unfold execEventWordChange at h
  refine runAt_keeps (fun s => ?_) h
  with_reducible refine ringEvent_keeps _ _

theorem kernelCmd_keeps (t : Nat) (p : Nat) (c : KCmd) (a0 : Nat) (a1 : Nat) (s : State) {t' : State}  (h : kernelCmd t p c a0 a1 s = .next t') : Keeps s t' := by
  unfold kernelCmd at h
  refine runAt_keeps (fun s => ?_) h
  split
  · exact Keeps.refl _
  · with_reducible refine ringEvent_keeps _ _

theorem execCreate_keeps (t : Nat) (p : Nat) (a0 : Nat) (a1 : Nat) (s : State) {t' : State}  (h : execCreate t p a0 a1 s = .next t') : Keeps s t' := by
  unfold execCreate at h
  refine runAt_keeps (fun s => ?_) h
  split
  · exact Keeps.refl _
  · with_reducible refine ringEvent_keeps _ _

theorem execResume_keeps (t : Nat) (p : Nat) (a0 : Nat) (a1 : Nat) (s : State) {t' : State}  (h : execResume t p a0 a1 s = .next t') : Keeps s t' := by
  unfold execResume at h
  refine runAt_keeps (fun s => ?_) h
  split
  · exact Keeps.refl _
  · with_reducible refine ringEvent_keeps _ _

theorem execSuspend_keeps (t : Nat) (p : Nat) (a0 : Nat) (a1 : Nat) (s : State) {t' : State}  (h : execSuspend t p a0 a1 s = .next t') : Keeps s t' := by
  unfold execSuspend at h
  refine runAt_keeps (fun s => ?_) h
  split
  · exact Keeps.refl _
  · with_reducible refine ringEvent_keeps _ _

theorem execDelete_keeps (t : Nat) (p : Nat) (a0 : Nat) (a1 : Nat) (s : State) {t' : State}  (h : execDelete t p a0 a1 s = .next t') : Keeps s t' := by
  unfold execDelete at h
  refine runAt_keeps (fun s => ?_) h
  split
  · exact Keeps.refl _
  · with_reducible refine ringEvent_keeps _ _

theorem execSwitch_keeps (t : Nat) (p : Nat) (a0 : Nat) (a1 : Nat) (s : State) {t' : State}  (h : execSwitch t p a0 a1 s = .next t') : Keeps s t' := by
  unfold execSwitch at h
  refine runAt_keeps (fun s => ?_) h
  split
  · exact Keeps.refl _
  · with_reducible refine ringEvent_keeps _ _

theorem execSetPrio_keeps (t : Nat) (p : Nat) (a0 : Nat) (a1 : Nat) (s : State) {t' : State}  (h : execSetPrio t p a0 a1 s = .next t') : Keeps s t' := by
  unfold execSetPrio at h
  refine runAt_keeps (fun s => ?_) h
  split
  · exact Keeps.refl _
  · with_reducible refine ringEvent_keeps _ _

theorem execSetPair_keeps (t : Nat) (p : Nat) (a0 : Nat) (a1 : Nat) (s : State) {t' : State}  (h : execSetPair t p a0 a1 s = .next t') : Keeps s t' := by
  unfold execSetPair at h
  refine runAt_keeps (fun s => ?_) h
  split
  · exact Keeps.refl _
  · with_reducible refine ringEvent_keeps _ _

theorem execWakeThread_keeps (t : Nat) (p : Nat) (a0 : Nat) (a1 : Nat) (s : State) {t' : State}  (h : execWakeThread t p a0 a1 s = .next t') : Keeps s t' := by
  unfold execWakeThread at h
  refine runAt_keeps (fun s => ?_) h
  split
  · exact Keeps.refl _
  · with_reducible refine ringEvent_keeps _ _

theorem execReadEntry_keeps (t : Nat) (p : Nat) (a0 : Nat) (a1 : Nat) (s : State) {t' : State}  (h : execReadEntry t p a0 a1 s = .next t') : Keeps s t' := by
  unfold execReadEntry at h
  refine runAt_keeps (fun s => ?_) h
  split
  · exact Keeps.refl _
  · with_reducible refine ringEvent_keeps _ _

theorem execRingmasterTick_keeps (t : Nat) (slice : Option (CUnit × Nat)) (s : State) {t' : State}  (h : execRingmasterTick t slice s = .next t') : Keeps s t' := by
  unfold execRingmasterTick at h
  refine runAt_keeps (fun s => ?_) h
  split
  · exact Keeps.refl _
  · extract_lets +onlyGivenNames x
    clear_value x
    extract_lets +onlyGivenNames x
    clear_value x
    extract_lets +onlyGivenNames x
    refine keeps_through (x := x) ?_ (fun hx => ?_)
    · with_reducible refine ringEvent_keeps _ _
    · clear_value x
      extract_lets +onlyGivenNames x
      clear_value x
      extract_lets +onlyGivenNames x
      refine keeps_through (x := x) ?_ (fun hx => ?_)
      · with_reducible refine keeps_mkc ?_ ⟨rfl, rfl, rfl, rfl, rfl, rfl, rfl, rfl⟩
        exact hx
      · clear_value x
        with_reducible refine Keeps.trans ?_ (admitSlice_keeps _ _ _)
        exact hx

theorem execSafetyThreadLatency_keeps (t : Nat) (e : Nat) (s : State) {t' : State}  (h : execSafetyThreadLatency t e s = .next t') : Keeps s t' := by
  unfold execSafetyThreadLatency at h
  refine runAt_keeps (fun s => ?_) h
  extract_lets +onlyGivenNames x
  clear_value x
  split
  · split
    · with_reducible refine Keeps.trans ?_ (raise_keeps _ _ _ _)
      with_reducible refine Keeps.trans ?_ (ringSettled_keeps _)
      with_reducible refine setThread_keeps _ _ _
    · exact Keeps.refl _
  · exact Keeps.refl _

theorem execLockstepMismatch_keeps (t : Nat) (p : Nat) (s : State) {t' : State}  (h : execLockstepMismatch t p s = .next t') : Keeps s t' := by
  unfold execLockstepMismatch at h
  refine runAt_keeps (fun s => ?_) h
  split
  · exact Keeps.refl _
  · extract_lets +onlyGivenNames x
    clear_value x
    extract_lets +onlyGivenNames x
    refine keeps_through (x := x) ?_ (fun hx => ?_)
    · with_reducible exact keeps_mkc (Keeps.refl _) ⟨rfl, rfl, rfl, rfl, rfl, rfl, rfl, rfl⟩
    · clear_value x
      extract_lets +onlyGivenNames x
      refine keeps_through (x := x) ?_ (fun hx => ?_)
      · with_reducible refine Keeps.trans ?_ (raise_keeps _ _ _ _)
        exact hx
      · clear_value x
        extract_lets +onlyGivenNames x
        refine keeps_through (x := x) ?_ (fun hx => ?_)
        · with_reducible refine Keeps.trans ?_ (ringEvent_keeps _ _)
          exact hx
        · clear_value x
          split
          · with_reducible refine Keeps.trans ?_ (raise_keeps _ _ _ _)
            exact hx
          · exact hx

theorem parkThreads_keeps (s : State) : Keeps s (parkThreads s) := by
  unfold parkThreads
  extract_lets +onlyGivenNames x
  refine keeps_through (x := x) ?_ (fun hx => ?_)
  · with_reducible refine ringSettled_keeps _
  · clear_value x
    refine keeps_foldl ?_ (fun s x hs => ?_)
    · exact hx
    · with_reducible refine Keeps.trans ?_ (makeReady_keeps _ _ _ _)
      exact hs

end Sys2Proof.Machine
end

