-- ==== Sys2Proof/Laws/KeepsUnits.lean ====
section
/-! SUPPORT. Every operation of Sys2Proof/Machine/Units.lean keeps what `Keeps` speaks of. -/

namespace Sys2Proof.Machine

theorem unitControl_keeps (d : Taken) (v : View) (op : Nat) (s : State) (k : State → State) {t' : State} (hk : ∀ s, Keeps s (k s)) (h : unitControl d v op s k = .next t') : Keeps s t' := by
  unfold unitControl at h
  split at h
  · exact runAt_keeps (fun s => Keeps.refl s) h
  · refine runAt_keeps (fun s => ?_) h
    split
    · exact Keeps.refl _
    · extract_lets +onlyGivenNames x
      clear_value x
      extract_lets +onlyGivenNames x
      refine keeps_through (x := x) ?_ (fun hx => ?_)
      · with_reducible refine Keeps.trans ?_ (applyView_keeps _ _)
        with_reducible exact keeps_mkc (Keeps.refl _) ⟨rfl, rfl, rfl, rfl, rfl, rfl, rfl, rfl⟩
      · clear_value x
        split
        · with_reducible refine Keeps.trans ?_ (refuse_keeps _ _ _)
          exact hx
        · split
          · with_reducible refine Keeps.trans ?_ (refuse_keeps _ _ _)
            exact hx
          · split
            · with_reducible refine Keeps.trans ?_ (refuse_keeps _ _ _)
              exact hx
            · split
              · with_reducible refine Keeps.trans ?_ (refuse_keeps _ _ _)
                exact hx
              · split
                · with_reducible refine Keeps.trans ?_ (refuse_keeps _ _ _)
                  exact hx
                · dsimp only
                  with_reducible refine Keeps.trans ?_ (withChecks_keeps _ _ _ _ ?_)
                  · exact hx
                  · intro x
                    with_reducible refine hk _

theorem unitOk_keeps (w : Work) (s : State) : Keeps s (unitOk w s) := by
  unfold unitOk
  with_reducible refine finishWork_keeps _ _ _ _ _ _ _

theorem unitNow_keeps (d : Taken) (it : WorkItem) (s : State) : Keeps s (unitNow d it s) := by
  unfold unitNow
  with_reducible refine Keeps.trans ?_ (unitOk_keeps _ _)
  with_reducible refine addWork_keeps _ _

theorem unitLater_keeps (d : Taken) (it : WorkItem) (c : List MapChange) (s : State) : Keeps s (unitLater d it c s) := by
  unfold unitLater
  with_reducible refine Keeps.trans ?_ (addWork_keeps _ _)
  with_reducible exact keeps_mkc (Keeps.refl _) ⟨rfl, rfl, rfl, rfl, rfl, rfl, rfl, rfl⟩

theorem disableFn_keeps (d : Taken) (f : Nat) (s : State) : Keeps s (disableFn d f s) := by
  unfold disableFn
  split
  · with_reducible refine unitNow_keeps _ _ _
  · split
    · with_reducible refine addWork_keeps _ _
    · with_reducible refine Keeps.trans ?_ (logAction_keeps _ _ _ _)
      with_reducible refine Keeps.trans ?_ (addWork_keeps _ _)
      with_reducible exact keeps_mkc (Keeps.refl _) ⟨rfl, rfl, rfl, rfl, rfl, rfl, rfl, rfl⟩

theorem execUnitDisable_keeps (d : Taken) (v : View) (s : State) {t' : State}  (h : execUnitDisable d v s = .next t') : Keeps s t' := by
  unfold execUnitDisable at h
  refine unitControl_keeps _ _ _ _ _  (fun s => ?_) h
  split
  · with_reducible refine disableFn_keeps _ _ _
  · extract_lets +onlyGivenNames x
    clear_value x
    with_reducible refine unitLater_keeps _ _ _ _

theorem execUnitFence_keeps (d : Taken) (v : View) (s : State) {t' : State}  (h : execUnitFence d v s = .next t') : Keeps s t' := by
  unfold execUnitFence at h
  refine unitControl_keeps _ _ _ _ _  (fun s => ?_) h
  with_reducible refine unitLater_keeps _ _ _ _

theorem restoreFn_keeps (f : Nat) (s : State) : Keeps s (restoreFn f s) := by
  unfold restoreFn
  with_reducible refine Keeps.trans ?_ (logAction_keeps _ _ _ _)
  with_reducible exact keeps_mkc (Keeps.refl _) ⟨rfl, rfl, rfl, rfl, rfl, rfl, rfl, rfl⟩

theorem startRecovery_keeps (d : Taken) (q : Nat) (s : State) : Keeps s (startRecovery d q s) := by
  unfold startRecovery
  extract_lets +onlyGivenNames x
  clear_value x
  extract_lets +onlyGivenNames x
  clear_value x
  extract_lets +onlyGivenNames x
  refine keeps_through (x := x) ?_ (fun hx => ?_)
  · with_reducible refine unitLater_keeps _ _ _ _
  · clear_value x
    split
    · exact hx
    · with_reducible refine Keeps.trans ?_ (clearProg_keeps _ _)
      with_reducible refine keeps_mkc ?_ ⟨rfl, rfl, rfl, rfl, rfl, rfl, rfl, rfl⟩
      exact hx

theorem execUnitRestore_keeps (d : Taken) (v : View) (s : State) {t' : State}  (h : execUnitRestore d v s = .next t') : Keeps s t' := by
  unfold execUnitRestore at h
  refine unitControl_keeps _ _ _ _ _  (fun s => ?_) h
  extract_lets +onlyGivenNames x
  clear_value x
  extract_lets +onlyGivenNames x
  clear_value x
  split
  · split
    · with_reducible refine Keeps.trans ?_ (addWork_keeps _ _)
      with_reducible exact keeps_mkc (Keeps.refl _) ⟨rfl, rfl, rfl, rfl, rfl, rfl, rfl, rfl⟩
    · with_reducible refine Keeps.trans ?_ (unitNow_keeps _ _ _)
      with_reducible refine restoreFn_keeps _ _
  · split
    · with_reducible refine startRecovery_keeps _ _ _
    · with_reducible refine unitNow_keeps _ _ _
  · extract_lets +onlyGivenNames x
    clear_value x
    split
    · with_reducible refine startRecovery_keeps _ _ _
    · with_reducible refine unitNow_keeps _ _ _

theorem abortRunning_keeps (f : Nat) (s : State) : Keeps s (abortRunning f s) := by
  unfold abortRunning
  split
  · split
    · with_reducible refine abortFrameRun_keeps _ _ _
    · exact Keeps.refl _
  · exact Keeps.refl _

theorem finishDrain_keeps (f : Nat) (s : State) : Keeps s (finishDrain f s) := by
  unfold finishDrain
  extract_lets +onlyGivenNames x
  clear_value x
  extract_lets +onlyGivenNames x
  refine keeps_through (x := x) ?_ (fun hx => ?_)
  · refine keeps_foldl (Keeps.refl _) (fun s x hs => ?_)
    split
    · split
      · with_reducible refine Keeps.trans ?_ (unitOk_keeps _ _)
        exact hs
      · exact hs
    · exact hs
  · clear_value x
    split
    · exact hx
    · extract_lets +onlyGivenNames x
      clear_value x
      extract_lets +onlyGivenNames x
      refine keeps_through (x := x) ?_ (fun hx => ?_)
      · with_reducible refine Keeps.trans ?_ (restoreFn_keeps _ _)
        with_reducible refine keeps_mkc ?_ ⟨rfl, rfl, rfl, rfl, rfl, rfl, rfl, rfl⟩
        exact hx
      · clear_value x
        refine keeps_foldl ?_ (fun s x hs => ?_)
        · exact hx
        · split
          · split
            · with_reducible refine Keeps.trans ?_ (unitOk_keeps _ _)
              exact hs
            · exact hs
          · exact hs

theorem endDrain_keeps (f : Nat) (s : State) : Keeps s (endDrain f s) := by
  unfold endDrain
  split
  · exact Keeps.refl _
  · split
    · exact Keeps.refl _
    · extract_lets +onlyGivenNames x
      refine keeps_through (x := x) ?_ (fun hx => ?_)
      · with_reducible refine abortRunning_keeps _ _
      · clear_value x
        extract_lets +onlyGivenNames x
        refine keeps_through (x := x) ?_ (fun hx => ?_)
        · refine keeps_foldl ?_ (fun s x hs => ?_)
          · exact hx
          · with_reducible refine Keeps.trans ?_ (abortWork_keeps _ _ _ _)
            exact hs
        · clear_value x
          extract_lets +onlyGivenNames x
          refine keeps_through (x := x) ?_ (fun hx => ?_)
          · unfold x
            split
            · with_reducible refine Keeps.trans ?_ (startHeld_keeps _)
              exact hx
            · exact hx
          · clear_value x
            extract_lets +onlyGivenNames x
            clear_value x
            extract_lets +onlyGivenNames x
            refine keeps_through (x := x) ?_ (fun hx => ?_)
            · with_reducible refine keeps_mkc ?_ ⟨rfl, rfl, rfl, rfl, rfl, rfl, rfl, rfl⟩
              exact hx
            · clear_value x
              with_reducible refine Keeps.trans ?_ (finishDrain_keeps _ _)
              with_reducible refine Keeps.trans ?_ (logAction_keeps _ _ _ _)
              exact hx

theorem execFunctionDrainEnd_keeps (t : Nat) (f : Nat) (s : State) {t' : State}  (h : execFunctionDrainEnd t f s = .next t') : Keeps s t' := by
  unfold execFunctionDrainEnd at h
  refine runAt_keeps (fun s => ?_) h
  with_reducible refine endDrain_keeps _ _

theorem endRecovery_keeps (q : Nat) (s : State) : Keeps s (endRecovery q s) := by
  unfold endRecovery
  split
  · exact Keeps.refl _
  · extract_lets +onlyGivenNames x
    clear_value x
    extract_lets +onlyGivenNames x
    clear_value x
    extract_lets +onlyGivenNames x
    clear_value x
    extract_lets +onlyGivenNames x
    refine keeps_through (x := x) ?_ (fun hx => ?_)
    · with_reducible refine Keeps.trans ?_ (clearProg_keeps _ _)
      with_reducible exact keeps_mkc (Keeps.refl _) ⟨rfl, rfl, rfl, rfl, rfl, rfl, rfl, rfl⟩
    · clear_value x
      split
      · with_reducible refine keeps_mkc ?_ ⟨rfl, rfl, rfl, rfl, rfl, rfl, rfl, rfl⟩
        exact hx
      · refine keeps_foldl ?_ (fun s x hs => ?_)
        · exact hx
        · split
          · split
            · with_reducible refine Keeps.trans ?_ (finishWork_keeps _ _ _ _ _ _ _)
              exact hs
            · exact hs
          · exact hs

theorem execRestoreRotationDone_keeps (t : Nat) (q : Nat) (s : State) {t' : State}  (h : execRestoreRotationDone t q s = .next t') : Keeps s t' := by
  unfold execRestoreRotationDone at h
  refine runAt_keeps (fun s => ?_) h
  with_reducible refine endRecovery_keeps _ _

theorem carouselRun_keeps (s : State) : Keeps s (carouselRun s) := by
  unfold carouselRun
  split
  · with_reducible exact keeps_mkc (Keeps.refl _) ⟨rfl, rfl, rfl, rfl, rfl, rfl, rfl, rfl⟩
  · with_reducible exact keeps_mkc (Keeps.refl _) ⟨rfl, rfl, rfl, rfl, rfl, rfl, rfl, rfl⟩

theorem execCarouselRun_keeps (t : Nat) (s : State) {t' : State}  (h : execCarouselRun t s = .next t') : Keeps s t' := by
  unfold execCarouselRun at h
  refine runAt_keeps (fun s => ?_) h
  with_reducible refine carouselRun_keeps _

theorem clusterThrough_keeps (q : Nat) (s : State) : Keeps s (clusterThrough q s) := by
  unfold clusterThrough
  split
  · exact Keeps.refl _
  · split
    · with_reducible refine Keeps.trans ?_ (endRotations_keeps _)
      with_reducible refine Keeps.trans ?_ (clearProg_keeps _ _)
      with_reducible exact keeps_mkc (Keeps.refl _) ⟨rfl, rfl, rfl, rfl, rfl, rfl, rfl, rfl⟩
    · with_reducible refine Keeps.trans ?_ (endRotations_keeps _)
      with_reducible refine Keeps.trans ?_ (enterReduced_keeps _)
      with_reducible refine Keeps.trans ?_ (clearProg_keeps _ _)
      with_reducible exact keeps_mkc (Keeps.refl _) ⟨rfl, rfl, rfl, rfl, rfl, rfl, rfl, rfl⟩

theorem slicePassed_keeps (u : CUnit) (s : State) : Keeps s (slicePassed u s) := by
  unfold slicePassed
  extract_lets +onlyGivenNames x
  clear_value x
  split
  · split
    · with_reducible refine Keeps.trans ?_ (clusterThrough_keeps _ _)
      with_reducible refine setProg_keeps _ _ _
    · with_reducible refine setProg_keeps _ _ _
  · split
    · with_reducible refine setProg_keeps _ _ _
    · with_reducible refine Keeps.trans ?_ (setProg_keeps _ _ _)
      with_reducible exact keeps_mkc (Keeps.refl _) ⟨rfl, rfl, rfl, rfl, rfl, rfl, rfl, rfl⟩
  · exact Keeps.refl _

theorem sliceFailed_keeps (u : CUnit) (slice : Nat) (s : State) : Keeps s (sliceFailed u slice s) := by
  unfold sliceFailed
  extract_lets +onlyGivenNames x
  clear_value x
  extract_lets +onlyGivenNames x
  refine keeps_through (x := x) ?_ (fun hx => ?_)
  · with_reducible refine Keeps.trans ?_ (raise_keeps _ _ _ _)
    with_reducible refine setProg_keeps _ _ _
  · clear_value x
    split
    · exact hx
    · extract_lets +onlyGivenNames x
      clear_value x
      extract_lets +onlyGivenNames x
      refine keeps_through (x := x) ?_ (fun hx => ?_)
      · with_reducible refine keeps_mkc ?_ ⟨rfl, rfl, rfl, rfl, rfl, rfl, rfl, rfl⟩
        exact hx
      · clear_value x
        split
        · with_reducible refine Keeps.trans ?_ (clusterThrough_keeps _ _)
          exact hx
        · with_reducible refine Keeps.trans ?_ (endRotations_keeps _)
          with_reducible refine Keeps.trans ?_ (clearProg_keeps _ _)
          exact hx

theorem sliceDone_keeps (u : CUnit) (slice : Nat) (pass : Bool) (s : State) : Keeps s (sliceDone u slice pass s) := by
  unfold sliceDone
  split
  · exact Keeps.refl _
  · extract_lets +onlyGivenNames x
    clear_value x
    extract_lets +onlyGivenNames x
    refine keeps_through (x := x) ?_ (fun hx => ?_)
    · with_reducible exact keeps_mkc (Keeps.refl _) ⟨rfl, rfl, rfl, rfl, rfl, rfl, rfl, rfl⟩
    · clear_value x
      split
      · exact hx
      · split
        · with_reducible refine Keeps.trans ?_ (slicePassed_keeps _ _)
          exact hx
        · with_reducible refine Keeps.trans ?_ (sliceFailed_keeps _ _ _)
          exact hx

theorem execCarouselSliceDone_keeps (t : Nat) (u : CUnit) (slice : Nat) (pass : Bool) (s : State) {t' : State}  (h : execCarouselSliceDone t u slice pass s = .next t') : Keeps s t' := by
  unfold execCarouselSliceDone at h
  refine runAt_keeps (fun s => ?_) h
  with_reducible refine sliceDone_keeps _ _ _ _

end Sys2Proof.Machine
end

