-- ==== Sys2Proof/Laws/KeepsCores.lean ====
section
/-! SUPPORT. Every operation of Sys2Proof/Machine/Cores.lean keeps what `Keeps` speaks of. -/

namespace Sys2Proof.Machine

theorem sillageEvent_keeps (a : Nat) (s : State) : Keeps s (sillageEvent a s) := by
  unfold sillageEvent
  with_reducible refine raise_keeps _ _ _ _

theorem sillageEvents_keeps (bad : List (Nat × Bytes × SillageOut)) (s : State) : Keeps s (sillageEvents bad s) := by
  unfold sillageEvents
  refine keeps_foldl (Keeps.refl _) (fun s x hs => ?_)
  split
  · with_reducible assumption
  · with_reducible refine Keeps.trans ?_ (raise_keeps _ _ _ _)
    exact hs
  · with_reducible refine Keeps.trans ?_ (sillageEvent_keeps _ _)
    exact hs

theorem poisonAt_keeps (k : Nat) (ps : List (Nat × Nat × Nat)) (s : State) : Keeps s (poisonAt k ps s) := by
  unfold poisonAt
  refine keeps_foldl (Keeps.refl _) (fun s x hs => ?_)
  with_reducible refine Keeps.trans ?_ (addPoison_keeps _ _ _ _)
  exact hs

theorem codedWrite_keeps (a : Nat) (b : Bytes) (errs : List (Nat × Bytes)) (s : State) : Keeps s (codedWrite a b errs s) := by
  unfold codedWrite
  extract_lets +onlyGivenNames x
  clear_value x
  extract_lets +onlyGivenNames x
  refine keeps_through (x := x) ?_ (fun hx => ?_)
  · refine keeps_foldl (Keeps.refl _) (fun s x hs => ?_)
    split
    · with_reducible refine Keeps.trans ?_ (addPoison_keeps _ _ _ _)
      with_reducible refine Keeps.trans ?_ (keyWrite_keeps _ _ _)
      exact hs
    · exact hs
  · clear_value x
    with_reducible refine Keeps.trans ?_ (sillageEvents_keeps _ _)
    with_reducible refine Keeps.trans ?_ (keyWrite_keeps _ _ _)
    exact hx

theorem applyOp_keeps (code a v c n : Nat) (data : Bytes) (poison : List (Nat × Nat × Nat)) (errs : List (Nat × Bytes)) (s : State) :
    Keeps s (applyOp code a v c n data poison errs s).1 := by
  unfold applyOp
  dsimp only
  split
  · dsimp only
    with_reducible refine Keeps.trans ?_ (poisonAt_keeps _ _ _)
    with_reducible refine codedWrite_keeps _ _ _ _
  · dsimp only
    with_reducible refine sillageEvents_keeps _ _
  · dsimp only
    with_reducible refine Keeps.trans ?_ (ringEvent_keeps _ _)
    with_reducible exact keeps_mkc (Keeps.refl _) ⟨rfl, rfl, rfl, rfl, rfl, rfl, rfl, rfl⟩
  · dsimp only
    with_reducible refine Keeps.trans ?_ (poisonAt_keeps _ _ _)
    with_reducible refine codedWrite_keeps _ _ _ _

theorem advance_keeps (c : CoreId) (s : State) : Keeps s (advance c s) := by
  unfold advance
  extract_lets +onlyGivenNames x
  clear_value x
  with_reducible refine setCore_keeps _ _ _

theorem abortOwner_keeps (c : CoreId) (src : Nat) (s : State) : Keeps s (abortOwner c src s) := by
  unfold abortOwner
  split
  · exact Keeps.refl _
  · split
    · with_reducible refine abortFrameRun_keeps _ _ _
    · split
      · with_reducible refine abortWork_keeps _ _ _ _
      · exact Keeps.refl _

theorem consumePoison_keeps (c : CoreId) (src : Nat) (s : State) : Keeps s (consumePoison c src s) := by
  unfold consumePoison
  split
  · with_reducible refine modFrame_keeps _ _
  · with_reducible refine abortOwner_keeps _ _ _

theorem deliver_keeps (src : OpSrc) (l : Nat) (x : OpAnswer) (s : State) : Keeps s (deliver src l x s) := by
  unfold deliver
  split
  · exact Keeps.refl _
  · split
    · with_reducible refine Keeps.trans ?_ (poisonAt_keeps _ _ _)
      with_reducible refine keyWrite_keeps _ _ _
    · with_reducible exact keeps_mkc (Keeps.refl _) ⟨rfl, rfl, rfl, rfl, rfl, rfl, rfl, rfl⟩
    · exact Keeps.refl _

theorem addressError_keeps (src : OpSrc) (e : Nat) (a : Nat) (l : Nat) (ret : Nat) (s : State) : Keeps s (addressError src e a l ret s) := by
  unfold addressError
  extract_lets +onlyGivenNames x
  refine keeps_through (x := x) ?_ (fun hx => ?_)
  · unfold x
    split
    · with_reducible refine deliver_keeps _ _ _ _
    · exact Keeps.refl _
  · clear_value x
    split
    · with_reducible refine Keeps.trans ?_ (abortOwner_keeps _ _ _)
      with_reducible refine Keeps.trans ?_ (raise_keeps _ _ _ _)
      with_reducible refine Keeps.trans ?_ (setCore_keeps _ _ _)
      exact hx
    · with_reducible refine Keeps.trans ?_ (raise_keeps _ _ _ _)
      exact hx

theorem sendOn_keeps (src : OpSrc) (a : Nat) (n : Nat) (r : Nat) (s : State) : Keeps s (sendOn src a n r s) := by
  unfold sendOn
  refine keeps_foldl (Keeps.refl _) (fun s x hs => ?_)
  split
  · extract_lets +onlyGivenNames x
    clear_value x
    with_reducible refine Keeps.trans ?_ (ringSends_keeps _ _ _ _)
    with_reducible refine Keeps.trans ?_ (ringSends_keeps _ _ _ _)
    exact hs
  · with_reducible assumption

theorem sendOp_keeps (src : OpSrc) (tag : Nat) (code : Nat) (a : Nat) (v : Nat) (c : Nat) (n : Nat) (data : Bytes) (poison : List (Nat × Nat × Nat)) (s : State) : Keeps s (sendOp src tag code a v c n data poison s) := by
  unfold sendOp
  with_reducible refine sendFlit_keeps _ _ _

theorem remoteOp_keeps (src : OpSrc) (code : Nat) (a : Nat) (v : Nat) (c : Nat) (n : Nat) (l : Nat) (data : Bytes) (poison : List (Nat × Nat × Nat)) (s : State) : Keeps s (remoteOp src code a v c n l data poison s) := by
  unfold remoteOp
  extract_lets +onlyGivenNames x
  extract_lets +onlyGivenNames x
  refine keeps_through (x := x) ?_ (fun hx => ?_)
  · unfold x
    split
    · with_reducible exact keeps_mkc (Keeps.refl _) ⟨rfl, rfl, rfl, rfl, rfl, rfl, rfl, rfl⟩
    · exact Keeps.refl _
  · clear_value x
    extract_lets +onlyGivenNames x
    refine keeps_through (x := x) ?_ (fun hx => ?_)
    · unfold x
      split
      · extract_lets +onlyGivenNames x
        clear_value x
        with_reducible refine Keeps.trans ?_ (advance_keeps _ _)
        with_reducible refine Keeps.trans ?_ (setCore_keeps _ _ _)
        exact hx
      · exact hx
    · clear_value x
      with_reducible refine Keeps.trans ?_ (sendOp_keeps _ _ _ _ _ _ _ _ _ _)
      exact hx

theorem doOp_keeps (src : OpSrc) (code : Nat) (a : Nat) (v : Nat) (c : Nat) (n : Nat) (l : Nat) (data : Bytes) (poison : List (Nat × Nat × Nat)) (errs : List (Nat × Bytes)) (s : State) : Keeps s (doOp src code a v c n l data poison errs s) := by
  unfold doOp
  split
  · exact Keeps.refl _
  · extract_lets +onlyGivenNames x
    clear_value x
    split
    · with_reducible refine addressError_keeps _ _ _ _ _ _
    · split
      · with_reducible refine remoteOp_keeps _ _ _ _ _ _ _ _ _ _
      · extract_lets +onlyGivenNames x
        refine keeps_through (x := x) ?_ (fun hx => ?_)
        · unfold x
          split
          · with_reducible refine advance_keeps _ _
          · exact Keeps.refl _
        · clear_value x
          extract_lets +onlyGivenNames x
          refine keeps_through (x := x) ?_ (fun hx => ?_)
          · with_reducible refine Keeps.trans ?_ (sendOn_keeps _ _ _ _ _)
            exact hx
          · clear_value x
            split
            with_reducible refine Keeps.trans ?_ (deliver_keeps _ _ _ _)
            with_reducible refine Keeps.trans ?_ (keeps_fst (applyOp_keeps _ _ _ _ _ _ _ _ _) (by assumption))
            exact hx

theorem execPut_keeps (t : Nat) (src : OpSrc) (addr : Nat) (n : Nat) (local_ : Nat) (data : Bytes) (lerrs : List (Nat × Bytes)) (errs : List (Nat × Bytes)) (s : State) {t' : State}  (h : execPut t src addr n local_ data lerrs errs s = .next t') : Keeps s t' := by
  unfold execPut at h
  refine runAt_keeps (fun s => ?_) h
  split
  · exact Keeps.refl _
  · split
    with_reducible refine Keeps.trans ?_ (doOp_keeps _ _ _ _ _ _ _ _ _ _ _)
    with_reducible refine sillageEvents_keeps _ _

theorem execGet_keeps (t : Nat) (src : OpSrc) (addr : Nat) (n : Nat) (local_ : Nat) (errs : List (Nat × Bytes)) (s : State) {t' : State}  (h : execGet t src addr n local_ errs s = .next t') : Keeps s t' := by
  unfold execGet at h
  refine runAt_keeps (fun s => ?_) h
  with_reducible refine doOp_keeps _ _ _ _ _ _ _ _ _ _ _

theorem execAtomicAdd_keeps (t : Nat) (src : OpSrc) (addr : Nat) (v : Nat) (local_ : Nat) (errs : List (Nat × Bytes)) (s : State) {t' : State}  (h : execAtomicAdd t src addr v local_ errs s = .next t') : Keeps s t' := by
  unfold execAtomicAdd at h
  refine runAt_keeps (fun s => ?_) h
  with_reducible refine doOp_keeps _ _ _ _ _ _ _ _ _ _ _

theorem execAtomicMax_keeps (t : Nat) (src : OpSrc) (addr : Nat) (v : Nat) (local_ : Nat) (isSigned : Bool) (errs : List (Nat × Bytes)) (s : State) {t' : State}  (h : execAtomicMax t src addr v local_ isSigned errs s = .next t') : Keeps s t' := by
  unfold execAtomicMax at h
  refine runAt_keeps (fun s => ?_) h
  with_reducible refine doOp_keeps _ _ _ _ _ _ _ _ _ _ _

theorem execAtomicCas_keeps (t : Nat) (src : OpSrc) (addr : Nat) (c : Nat) (v : Nat) (local_ : Nat) (errs : List (Nat × Bytes)) (s : State) {t' : State}  (h : execAtomicCas t src addr c v local_ errs s = .next t') : Keeps s t' := by
  unfold execAtomicCas at h
  refine runAt_keeps (fun s => ?_) h
  with_reducible refine doOp_keeps _ _ _ _ _ _ _ _ _ _ _

theorem execSignal_keeps (t : Nat) (src : OpSrc) (addr : Nat) (v : Nat) (errs : List (Nat × Bytes)) (s : State) {t' : State}  (h : execSignal t src addr v errs s = .next t') : Keeps s t' := by
  unfold execSignal at h
  refine runAt_keeps (fun s => ?_) h
  with_reducible refine doOp_keeps _ _ _ _ _ _ _ _ _ _ _

theorem fenceStep_keeps (c : CoreId) (s : State) : Keeps s (fenceStep c s) := by
  unfold fenceStep
  extract_lets +onlyGivenNames x
  clear_value x
  split
  · exact Keeps.refl _
  · split
    · with_reducible refine Keeps.trans ?_ (advance_keeps _ _)
      with_reducible refine setCore_keeps _ _ _
    · with_reducible refine setCore_keeps _ _ _

theorem execFence_keeps (t : Nat) (c : CoreId) (s : State) {t' : State}  (h : execFence t c s = .next t') : Keeps s t' := by
  unfold execFence at h
  refine runAt_keeps (fun s => ?_) h
  with_reducible refine fenceStep_keeps _ _

theorem waitStep_keeps (c : CoreId) (w : Nat) (thr : Nat) (s : State) : Keeps s (waitStep c w thr s) := by
  unfold waitStep
  extract_lets +onlyGivenNames x
  clear_value x
  split
  · exact Keeps.refl _
  · split
    · with_reducible refine Keeps.trans ?_ (advance_keeps _ _)
      with_reducible refine setCore_keeps _ _ _
    · with_reducible refine setCore_keeps _ _ _

theorem execWaitSignal_keeps (t : Nat) (c : CoreId) (w : Nat) (thr : Nat) (s : State) {t' : State}  (h : execWaitSignal t c w thr s = .next t') : Keeps s t' := by
  unfold execWaitSignal at h
  refine runAt_keeps (fun s => ?_) h
  with_reducible refine waitStep_keeps _ _ _ _

theorem loopStep_keeps (c : CoreId) (start : Nat) (count : Nat) (s : State) : Keeps s (loopStep c start count s) := by
  unfold loopStep
  split
  · exact Keeps.refl _
  · extract_lets +onlyGivenNames x
    clear_value x
    extract_lets +onlyGivenNames x
    clear_value x
    split
    · with_reducible refine setCore_keeps _ _ _
    · with_reducible refine setCore_keeps _ _ _

theorem execLoop_keeps (t : Nat) (c : CoreId) (start : Nat) (count : Nat) (s : State) {t' : State}  (h : execLoop t c start count s = .next t') : Keeps s t' := by
  unfold execLoop at h
  refine runAt_keeps (fun s => ?_) h
  with_reducible refine loopStep_keeps _ _ _ _

theorem deadlineStep_keeps (c : CoreId) (inner : Nat) (tries : Nat) (s : State) : Keeps s (deadlineStep c inner tries s) := by
  unfold deadlineStep
  split
  · exact Keeps.refl _
  · split
    · split
      · with_reducible refine Keeps.trans ?_ (cutOpt_keeps _ _ _)
        with_reducible refine Keeps.trans ?_ (setOpt_keeps _ _)
        with_reducible refine advance_keeps _ _
      · with_reducible refine advance_keeps _ _
    · with_reducible refine advance_keeps _ _

theorem execDeadline_keeps (t : Nat) (c : CoreId) (inner : Nat) (tries : Nat) (s : State) {t' : State}  (h : execDeadline t c inner tries s = .next t') : Keeps s t' := by
  unfold execDeadline at h
  refine runAt_keeps (fun s => ?_) h
  with_reducible refine deadlineStep_keeps _ _ _ _

theorem retryStep_keeps (c : CoreId) (mark : Nat) (inner : Nat) (s : State) : Keeps s (retryStep c mark inner s) := by
  unfold retryStep
  split
  · exact Keeps.refl _
  · extract_lets +onlyGivenNames x
    clear_value x
    split
    · with_reducible refine setCore_keeps _ _ _
    · split
      · with_reducible refine setCore_keeps _ _ _
      · extract_lets +onlyGivenNames x
        refine keeps_through (x := x) ?_ (fun hx => ?_)
        · with_reducible refine setCore_keeps _ _ _
        · clear_value x
          split
          · extract_lets +onlyGivenNames x
            clear_value x
            with_reducible refine Keeps.trans ?_ (setOpt_keeps _ _)
            exact hx
          · exact hx

theorem execRetry_keeps (t : Nat) (c : CoreId) (mark : Nat) (inner : Nat) (s : State) {t' : State}  (h : execRetry t c mark inner s = .next t') : Keeps s t' := by
  unfold execRetry at h
  refine runAt_keeps (fun s => ?_) h
  with_reducible refine retryStep_keeps _ _ _ _

theorem execRingLinkFailover_keeps (t : Nat) (link : Nat) (lostA : List Nat) (lostB : List Nat) (s : State) {t' : State}  (h : execRingLinkFailover t link lostA lostB s = .next t') : Keeps s t' := by
  unfold execRingLinkFailover at h
  refine runAt_keeps (fun s => ?_) h
  split
  · exact Keeps.refl _
  · with_reducible refine Keeps.trans ?_ (raise_keeps _ _ _ _)
    with_reducible refine ringFail_keeps _ _ _ _

end Sys2Proof.Machine
end

