-- ==== Sys2Proof/Laws/KeepsDiag.lean ====
section
/-! SUPPORT. Every operation of Sys2Proof/Machine/Diag.lean keeps what `Keeps` speaks of. -/

namespace Sys2Proof.Machine

theorem diag_keeps (d : Taken) (v : View) (op : Nat) (s : State) (k : State → State) {t' : State} (hk : ∀ s, Keeps s (k s)) (h : diag d v op s k = .next t') : Keeps s t' := by
  unfold diag at h
  split at h
  · exact runAt_keeps (fun s => Keeps.refl s) h
  · refine runAt_keeps (fun s => ?_) h
    split
    · exact Keeps.refl _
    · extract_lets +onlyGivenNames x
      clear_value x
      extract_lets +onlyGivenNames x
      refine keeps_through (x := x) ?_ (fun hx => ?_)
      · with_reducible refine Keeps.trans ?_ (applyView_keeps _ _)
        with_reducible exact keeps_mkc (Keeps.refl _) ⟨rfl, rfl, rfl, rfl, rfl, rfl, rfl, rfl⟩
      · clear_value x
        split
        · with_reducible refine Keeps.trans ?_ (refuse_keeps _ _ _)
          exact hx
        · split
          · with_reducible refine Keeps.trans ?_ (refuse_keeps _ _ _)
            exact hx
          · split
            · with_reducible refine Keeps.trans ?_ (refuse_keeps _ _ _)
              exact hx
            · split
              · with_reducible refine Keeps.trans ?_ (refuse_keeps _ _ _)
                exact hx
              · split
                · with_reducible refine Keeps.trans ?_ (refuse_keeps _ _ _)
                  exact hx
                · dsimp only
                  with_reducible refine Keeps.trans ?_ (withChecks_keeps _ _ _ _ ?_)
                  · exact hx
                  · intro x
                    with_reducible refine hk _

theorem diagOk_keeps (d : Taken) (s : State) : Keeps s (diagOk d s) := by
  unfold diagOk
  with_reducible refine complete_keeps _ _ _ _ _ _ _

theorem diagFault_keeps (d : Taken) (src : Nat) (addr : Nat) (s : State) : Keeps s (diagFault d src addr s) := by
  unfold diagFault
  with_reducible refine Keeps.trans ?_ (complete_keeps _ _ _ _ _ _ _)
  with_reducible refine raise_keeps _ _ _ _

theorem diagSend_keeps (d : Taken) (code : Nat) (a : Nat) (n : Nat) (data : Bytes) (s : State) : Keeps s (diagSend d code a n data s) := by
  unfold diagSend
  extract_lets +onlyGivenNames x
  clear_value x
  extract_lets +onlyGivenNames x
  clear_value x
  split
  · with_reducible refine complete_keeps _ _ _ _ _ _ _
  · with_reducible refine Keeps.trans ?_ (sendOp_keeps _ _ _ _ _ _ _ _ _ _)
    with_reducible refine addWork_keeps _ _

theorem diagAnswer_keeps (w : Work) (a : Nat) (err : Bool) (data : Bytes) (poison : List (Nat × Nat × Nat)) (s : State) : Keeps s (diagAnswer w a err data poison s) := by
  unfold diagAnswer
  split
  · split
    · split
      · with_reducible refine finishWork_keeps _ _ _ _ _ _ _
      · with_reducible refine Keeps.trans ?_ (finishWork_keeps _ _ _ _ _ _ _)
        split
        · exact Keeps.refl _
        · with_reducible refine hostWrite_keeps _ _ _ _
    · split
      · with_reducible refine finishWork_keeps _ _ _ _ _ _ _
      · with_reducible refine Keeps.trans ?_ (finishWork_keeps _ _ _ _ _ _ _)
        with_reducible refine raise_keeps _ _ _ _
  · exact Keeps.refl _

theorem diagReadTo_keeps (d : Taken) (errs : List (Nat × Bytes)) (s : State) : Keeps s (diagReadTo d errs s) := by
  unfold diagReadTo
  extract_lets +onlyGivenNames x
  clear_value x
  extract_lets +onlyGivenNames x
  clear_value x
  split
  · with_reducible refine diagFault_keeps _ _ _ _
  · split
    · with_reducible refine diagSend_keeps _ _ _ _ _ _
    · split
      extract_lets +onlyGivenNames x
      refine keeps_through (x := x) ?_ (fun hx => ?_)
      · with_reducible refine sillageEvents_keeps _ _
      · clear_value x
        split
        · with_reducible refine Keeps.trans ?_ (complete_keeps _ _ _ _ _ _ _)
          exact hx
        · with_reducible refine Keeps.trans ?_ (diagOk_keeps _ _)
          with_reducible refine Keeps.trans ?_ (hostWrite_keeps _ _ _ _)
          exact hx

theorem execDiagRead_keeps (d : Taken) (v : View) (errs : List (Nat × Bytes)) (s : State) {t' : State}  (h : execDiagRead d v errs s = .next t') : Keeps s t' := by
  unfold execDiagRead at h
  refine diag_keeps _ _ _ _ _  (fun s => ?_) h
  with_reducible refine diagReadTo_keeps _ _ _

theorem diagWriteFrom_keeps (d : Taken) (v : View) (errs : List (Nat × Bytes)) (s : State) : Keeps s (diagWriteFrom d v errs s) := by
  unfold diagWriteFrom
  extract_lets +onlyGivenNames x
  clear_value x
  extract_lets +onlyGivenNames x
  clear_value x
  split
  · with_reducible refine diagFault_keeps _ _ _ _
  · split
    · with_reducible refine refuse_keeps _ _ _
    · with_reducible refine withRead_keeps _ _ _ _ _ _ ?_
      intro x
      intro x
      split
      · with_reducible refine Keeps.trans ?_ (diagOk_keeps _ _)
        with_reducible refine codedWrite_keeps _ _ _ _
      · with_reducible refine diagSend_keeps _ _ _ _ _ _

theorem execDiagWrite_keeps (d : Taken) (v : View) (errs : List (Nat × Bytes)) (s : State) {t' : State}  (h : execDiagWrite d v errs s = .next t') : Keeps s t' := by
  unfold execDiagWrite at h
  refine diag_keeps _ _ _ _ _  (fun s => ?_) h
  with_reducible refine diagWriteFrom_keeps _ _ _ _

theorem execDiagSnapshot_keeps (d : Taken) (v : View) (s : State) {t' : State}  (h : execDiagSnapshot d v s = .next t') : Keeps s t' := by
  unfold execDiagSnapshot at h
  refine diag_keeps _ _ _ _ _  (fun s => ?_) h
  extract_lets +onlyGivenNames x
  clear_value x
  split
  · with_reducible refine refuse_keeps _ _ _
  · with_reducible refine Keeps.trans ?_ (diagOk_keeps _ _)
    with_reducible refine hostWrite_keeps _ _ _ _

end Sys2Proof.Machine
end

