-- ==== Sys2Proof/Laws/KeepsEngine.lean ====
section
/-! SUPPORT. Every operation of Sys2Proof/Machine/Engine.lean keeps what `Keeps` speaks of. -/

namespace Sys2Proof.Machine

theorem engineWrites_keeps (c : CoreId) (op : EngineOp) (o : EOut) (errs : List (Nat × Bytes)) (s : State) : Keeps s (engineWrites c op o errs s) := by
  unfold engineWrites
  extract_lets +onlyGivenNames x
  refine keeps_through (x := x) ?_ (fun hx => ?_)
  · refine keeps_foldl (Keeps.refl _) (fun s x hs => ?_)
    with_reducible refine Keeps.trans ?_ (codedWrite_keeps _ _ _ _)
    exact hs
  · clear_value x
    extract_lets +onlyGivenNames x
    clear_value x
    with_reducible refine Keeps.trans ?_ (setCore_keeps _ _ _)
    exact hx

theorem engineStep_keeps (c : CoreId) (mask : List Bool) (op : EngineOp) (errs : List (Nat × Bytes)) (s : State) : Keeps s (engineStep c mask op errs s) := by
  unfold engineStep
  split
  · exact Keeps.refl _
  · extract_lets +onlyGivenNames x
    clear_value x
    extract_lets +onlyGivenNames x
    clear_value x
    split
    · with_reducible refine addressError_keeps _ _ _ _ _ _
    · extract_lets +onlyGivenNames x
      clear_value x
      extract_lets +onlyGivenNames x
      clear_value x
      extract_lets +onlyGivenNames x
      clear_value x
      extract_lets +onlyGivenNames x
      refine keeps_through (x := x) ?_ (fun hx => ?_)
      · with_reducible refine Keeps.trans ?_ (sillageEvents_keeps _ _)
        with_reducible refine advance_keeps _ _
      · clear_value x
        split
        · with_reducible refine Keeps.trans ?_ (consumePoison_keeps _ _ _)
          exact hx
        · with_reducible refine Keeps.trans ?_ (engineWrites_keeps _ _ _ _ _)
          exact hx

theorem execEngine_keeps (t : Nat) (c : CoreId) (mask : List Bool) (op : EngineOp) (errs : List (Nat × Bytes)) (s : State) {t' : State}  (h : execEngine t c mask op errs s = .next t') : Keeps s t' := by
  unfold execEngine at h
  refine runAt_keeps (fun s => ?_) h
  with_reducible refine engineStep_keeps _ _ _ _ _

end Sys2Proof.Machine
end

