-- ==== Sys2Proof/Laws/KeepsRegs.lean ====
section
/-! SUPPORT. Every operation of Sys2Proof/Machine/Regs.lean keeps what `Keeps` speaks of. -/

namespace Sys2Proof.Machine

theorem writePair_keeps (off : Nat) (v : Nat) (s : State) : Keeps s (writePair off v s) := by
  unfold writePair
  split
  · with_reducible exact keeps_mkc (Keeps.refl _) ⟨rfl, rfl, rfl, rfl, rfl, rfl, rfl, rfl⟩
  · split
    · exact Keeps.refl _
    · with_reducible exact keeps_mkc (Keeps.refl _) ⟨rfl, rfl, rfl, rfl, rfl, rfl, rfl, rfl⟩
  · split
    · exact Keeps.refl _
    · with_reducible exact keeps_mkc (Keeps.refl _) ⟨rfl, rfl, rfl, rfl, rfl, rfl, rfl, rfl⟩
  · split
    · exact Keeps.refl _
    · with_reducible exact keeps_mkc (Keeps.refl _) ⟨rfl, rfl, rfl, rfl, rfl, rfl, rfl, rfl⟩
  · with_reducible exact keeps_mkc (Keeps.refl _) ⟨rfl, rfl, rfl, rfl, rfl, rfl, rfl, rfl⟩
  · split
    · exact Keeps.refl _
    · with_reducible exact keeps_mkc (Keeps.refl _) ⟨rfl, rfl, rfl, rfl, rfl, rfl, rfl, rfl⟩
  · split
    · exact Keeps.refl _
    · with_reducible exact keeps_mkc (Keeps.refl _) ⟨rfl, rfl, rfl, rfl, rfl, rfl, rfl, rfl⟩
  · exact Keeps.refl _

theorem holdLow_keeps (off : Nat) (val : Nat) (s : State) : Keeps s (holdLow off val s) := by
  unfold holdLow
  with_reducible exact keeps_mkc (Keeps.refl _) ⟨rfl, rfl, rfl, rfl, rfl, rfl, rfl, rfl⟩

theorem commitPair_keeps (off : Nat) (val : Nat) (s : State) : Keeps s (commitPair off val s) := by
  unfold commitPair
  extract_lets +onlyGivenNames x
  clear_value x
  with_reducible refine Keeps.trans ?_ (writePair_keeps _ _ _)
  with_reducible exact keeps_mkc (Keeps.refl _) ⟨rfl, rfl, rfl, rfl, rfl, rfl, rfl, rfl⟩

theorem writeHigh_keeps (off : Nat) (val : Nat) (s : State) : Keeps s (writeHigh off val s) := by
  unfold writeHigh
  split
  · exact Keeps.refl _
  · with_reducible refine commitPair_keeps _ _ _

theorem execPairHiWrite_keeps (t : Nat) (off : Nat) (val : Nat) (s : State) {t' : State}  (h : execPairHiWrite t off val s = .next t') : Keeps s t' := by
  unfold execPairHiWrite at h
  refine runAt_keeps (fun s => ?_) h
  with_reducible refine writeHigh_keeps _ _ _

theorem clearOnRead_keeps (off : Nat) (s : State) : Keeps s (clearOnRead off s) := by
  unfold clearOnRead
  split
  · with_reducible exact keeps_mkc (Keeps.refl _) ⟨rfl, rfl, rfl, rfl, rfl, rfl, rfl, rfl⟩
  · with_reducible exact keeps_mkc (Keeps.refl _) ⟨rfl, rfl, rfl, rfl, rfl, rfl, rfl, rfl⟩
  · with_reducible refine Keeps.trans ?_ (ringSettled_keeps _)
    with_reducible exact keeps_mkc (Keeps.refl _) ⟨rfl, rfl, rfl, rfl, rfl, rfl, rfl, rfl⟩
  · exact Keeps.refl _

theorem regRead_keeps (off : Nat) (s : State) : Keeps s (regRead off s).2 := by
  unfold regRead
  split
  · dsimp only
    with_reducible exact keeps_mkc (Keeps.refl _) ⟨rfl, rfl, rfl, rfl, rfl, rfl, rfl, rfl⟩
  · split
    · dsimp only
      with_reducible exact keeps_mkc (Keeps.refl _) ⟨rfl, rfl, rfl, rfl, rfl, rfl, rfl, rfl⟩
    · dsimp only
      with_reducible refine clearOnRead_keeps _ _

theorem hostRead32_keeps (off : Nat) (s : State) : Keeps s (hostRead32 off s) := by
  unfold hostRead32
  split
  · exact Keeps.refl _
  · split
    with_reducible refine keeps_mkc ?_ ⟨rfl, rfl, rfl, rfl, rfl, rfl, rfl, rfl⟩
    refine Keeps.trans ?_ (keeps_snd (regRead_keeps _ _) (by assumption))
    exact Keeps.refl _

theorem execRegisterReadClear_keeps (t : Nat) (off : Nat) (s : State) {t' : State}  (h : execRegisterReadClear t off s = .next t') : Keeps s t' := by
  unfold execRegisterReadClear at h
  refine runAt_keeps (fun s => ?_) h
  with_reducible refine hostRead32_keeps _ _

theorem execPairLoRead_keeps (t : Nat) (off : Nat) (s : State) {t' : State}  (h : execPairLoRead t off s = .next t') : Keeps s t' := by
  unfold execPairLoRead at h
  refine runAt_keeps (fun s => ?_) h
  split
  · with_reducible refine hostRead32_keeps _ _
  · exact Keeps.refl _

theorem writePeriod_keeps (val : Nat) (s : State) : Keeps s (writePeriod val s) := by
  unfold writePeriod
  extract_lets +onlyGivenNames x
  clear_value x
  split
  · exact Keeps.refl _
  · split
    · with_reducible exact keeps_mkc (Keeps.refl _) ⟨rfl, rfl, rfl, rfl, rfl, rfl, rfl, rfl⟩
    · with_reducible exact keeps_mkc (Keeps.refl _) ⟨rfl, rfl, rfl, rfl, rfl, rfl, rfl, rfl⟩

theorem execFramePeriodWrite_keeps (t : Nat) (val : Nat) (s : State) {t' : State}  (h : execFramePeriodWrite t val s = .next t') : Keeps s t' := by
  unfold execFramePeriodWrite at h
  refine runAt_keeps (fun s => ?_) h
  with_reducible refine writePeriod_keeps _ _

theorem writeWindowZ_keeps (val : Nat) (s : State) : Keeps s (writeWindowZ val s) := by
  unfold writeWindowZ
  extract_lets +onlyGivenNames x
  clear_value x
  split
  · with_reducible exact keeps_mkc (Keeps.refl _) ⟨rfl, rfl, rfl, rfl, rfl, rfl, rfl, rfl⟩
  · split
    · exact Keeps.refl _
    · with_reducible exact keeps_mkc (Keeps.refl _) ⟨rfl, rfl, rfl, rfl, rfl, rfl, rfl, rfl⟩

theorem execMapWindowZWrite_keeps (t : Nat) (val : Nat) (s : State) {t' : State}  (h : execMapWindowZWrite t val s = .next t') : Keeps s t' := by
  unfold execMapWindowZWrite at h
  refine runAt_keeps (fun s => ?_) h
  with_reducible refine writeWindowZ_keeps _ _

theorem writeForecast_keeps (val : Nat) (s : State) : Keeps s (writeForecast val s) := by
  unfold writeForecast
  extract_lets +onlyGivenNames x
  clear_value x
  extract_lets +onlyGivenNames x
  clear_value x
  split
  · with_reducible exact keeps_mkc (Keeps.refl _) ⟨rfl, rfl, rfl, rfl, rfl, rfl, rfl, rfl⟩
  · with_reducible exact keeps_mkc (Keeps.refl _) ⟨rfl, rfl, rfl, rfl, rfl, rfl, rfl, rfl⟩

theorem execMapForecastWrite_keeps (t : Nat) (val : Nat) (s : State) {t' : State}  (h : execMapForecastWrite t val s = .next t') : Keeps s t' := by
  unfold execMapForecastWrite at h
  refine runAt_keeps (fun s => ?_) h
  with_reducible refine writeForecast_keeps _ _

theorem writeLogEn_keeps (on : Bool) (s : State) : Keeps s (writeLogEn on s) := by
  unfold writeLogEn
  extract_lets +onlyGivenNames x
  clear_value x
  split
  · with_reducible exact keeps_mkc (Keeps.refl _) ⟨rfl, rfl, rfl, rfl, rfl, rfl, rfl, rfl⟩
  · split
    · exact Keeps.refl _
    · with_reducible exact keeps_mkc (Keeps.refl _) ⟨rfl, rfl, rfl, rfl, rfl, rfl, rfl, rfl⟩

theorem execLogEnWrite_keeps (t : Nat) (on : Bool) (s : State) {t' : State}  (h : execLogEnWrite t on s = .next t') : Keeps s t' := by
  unfold execLogEnWrite at h
  refine runAt_keeps (fun s => ?_) h
  with_reducible refine writeLogEn_keeps _ _

theorem writePwrCtrl_keeps (val : Nat) (s : State) : Keeps s (writePwrCtrl val s) := by
  unfold writePwrCtrl
  extract_lets +onlyGivenNames x
  refine keeps_through (x := x) ?_ (fun hx => ?_)
  · with_reducible refine writeLimitW_keeps _ _
  · clear_value x
    extract_lets +onlyGivenNames x
    refine keeps_through (x := x) ?_ (fun hx => ?_)
    · unfold x
      split
      · with_reducible refine Keeps.trans ?_ (requestDormant_keeps _ _)
        with_reducible refine Keeps.trans ?_ (bumpFresh_keeps _)
        exact hx
      · exact hx
    · clear_value x
      split
      · with_reducible refine Keeps.trans ?_ (requestWake_keeps _)
        exact hx
      · exact hx

theorem writeBootCtrl_keeps (val : Nat) (s : State) : Keeps s (writeBootCtrl val s) := by
  unfold writeBootCtrl
  extract_lets +onlyGivenNames x
  refine keeps_through (x := x) ?_ (fun hx => ?_)
  · unfold x
    split
    · with_reducible refine writeGo_keeps _
    · exact Keeps.refl _
  · clear_value x
    extract_lets +onlyGivenNames x
    refine keeps_through (x := x) ?_ (fun hx => ?_)
    · unfold x
      split
      · with_reducible refine Keeps.trans ?_ (commitRollback_keeps _)
        exact hx
      · exact hx
    · clear_value x
      split
      · with_reducible refine Keeps.trans ?_ (requestChipReset_keeps _)
        exact hx
      · exact hx

theorem writeCtxCmd_keeps (val : Nat) (s : State) : Keeps s (writeCtxCmd val s) := by
  unfold writeCtxCmd
  extract_lets +onlyGivenNames x
  clear_value x
  extract_lets +onlyGivenNames x
  refine keeps_through (x := x) ?_ (fun hx => ?_)
  · with_reducible refine bumpFresh_keeps _
  · clear_value x
    split
    · with_reducible refine Keeps.trans ?_ (ctxCommand_keeps _ _ _ ?_)
      · exact hx
      · intro x
        intro x
        intro x
        with_reducible refine ctxDoWrite_keeps _ _ _
    · with_reducible refine Keeps.trans ?_ (ctxCommand_keeps _ _ _ ?_)
      · exact hx
      · intro x
        intro x
        intro x
        with_reducible refine ctxDoRead_keeps _ _ _
    · with_reducible refine Keeps.trans ?_ (ctxCommand_keeps _ _ _ ?_)
      · exact hx
      · intro x
        intro x
        intro x
        with_reducible refine ctxDoEnable_keeps _ _ _
    · with_reducible refine Keeps.trans ?_ (ctxCommand_keeps _ _ _ ?_)
      · exact hx
      · intro x
        intro x
        intro x
        with_reducible refine ctxDoDisable_keeps _ _ _
    · with_reducible refine Keeps.trans ?_ (ctxBadCommand_keeps _)
      exact hx

theorem writeHostq_keeps (o : Nat) (val : Nat) (s : State) : Keeps s (writeHostq o val s) := by
  unfold writeHostq
  extract_lets +onlyGivenNames x
  clear_value x
  split
  · with_reducible exact keeps_mkc (Keeps.refl _) ⟨rfl, rfl, rfl, rfl, rfl, rfl, rfl, rfl⟩
  · split
    · with_reducible refine writePollEn_keeps _ _
    · split
      · with_reducible exact keeps_mkc (Keeps.refl _) ⟨rfl, rfl, rfl, rfl, rfl, rfl, rfl, rfl⟩
      · exact Keeps.refl _
    · with_reducible refine writeCtxCmd_keeps _ _
    · with_reducible exact keeps_mkc (Keeps.refl _) ⟨rfl, rfl, rfl, rfl, rfl, rfl, rfl, rfl⟩
    · split
      · with_reducible exact keeps_mkc (Keeps.refl _) ⟨rfl, rfl, rfl, rfl, rfl, rfl, rfl, rfl⟩
      · exact Keeps.refl _
    · exact Keeps.refl _

theorem writeChain_keeps (o : Nat) (val : Nat) (s : State) : Keeps s (writeChain o val s) := by
  unfold writeChain
  extract_lets +onlyGivenNames x
  clear_value x
  split
  · split
    · with_reducible refine writeEnumStart_keeps _
    · exact Keeps.refl _
  · split
    · with_reducible exact keeps_mkc (Keeps.refl _) ⟨rfl, rfl, rfl, rfl, rfl, rfl, rfl, rfl⟩
    · exact Keeps.refl _
  · split
    · exact Keeps.refl _
    · with_reducible exact keeps_mkc (Keeps.refl _) ⟨rfl, rfl, rfl, rfl, rfl, rfl, rfl, rfl⟩
  · split
    · exact Keeps.refl _
    · with_reducible exact keeps_mkc (Keeps.refl _) ⟨rfl, rfl, rfl, rfl, rfl, rfl, rfl, rfl⟩
  · split
    · with_reducible exact keeps_mkc (Keeps.refl _) ⟨rfl, rfl, rfl, rfl, rfl, rfl, rfl, rfl⟩
    · exact Keeps.refl _
  · exact Keeps.refl _

theorem writeFault_keeps (o : Nat) (val : Nat) (s : State) : Keeps s (writeFault o val s) := by
  unfold writeFault
  extract_lets +onlyGivenNames x
  split
  · with_reducible refine clearWord_keeps _ _ _
  · split
    · split
      · exact Keeps.refl _
      · with_reducible exact keeps_mkc (Keeps.refl _) ⟨rfl, rfl, rfl, rfl, rfl, rfl, rfl, rfl⟩
    · with_reducible refine writeSrcCfg_keeps _ _
    · split
      · with_reducible refine clearLatch_keeps _
      · exact Keeps.refl _
    · with_reducible exact keeps_mkc (Keeps.refl _) ⟨rfl, rfl, rfl, rfl, rfl, rfl, rfl, rfl⟩
    · with_reducible exact keeps_mkc (Keeps.refl _) ⟨rfl, rfl, rfl, rfl, rfl, rfl, rfl, rfl⟩
    · with_reducible exact keeps_mkc (Keeps.refl _) ⟨rfl, rfl, rfl, rfl, rfl, rfl, rfl, rfl⟩
    · split
      · with_reducible exact keeps_mkc (Keeps.refl _) ⟨rfl, rfl, rfl, rfl, rfl, rfl, rfl, rfl⟩
      · exact Keeps.refl _
    · exact Keeps.refl _

theorem writeSafetyCtrl_keeps (val : Nat) (s : State) : Keeps s (writeSafetyCtrl val s) := by
  unfold writeSafetyCtrl
  extract_lets +onlyGivenNames x
  clear_value x
  extract_lets +onlyGivenNames x
  refine keeps_through (x := x) ?_ (fun hx => ?_)
  · with_reducible exact keeps_mkc (Keeps.refl _) ⟨rfl, rfl, rfl, rfl, rfl, rfl, rfl, rfl⟩
  · clear_value x
    split
    · with_reducible refine Keeps.trans ?_ (carouselRun_keeps _)
      exact hx
    · exact hx

theorem writeDetCtrl_keeps (val : Nat) (s : State) : Keeps s (writeDetCtrl val s) := by
  unfold writeDetCtrl
  extract_lets +onlyGivenNames x
  clear_value x
  extract_lets +onlyGivenNames x
  clear_value x
  extract_lets +onlyGivenNames x
  refine keeps_through (x := x) ?_ (fun hx => ?_)
  · unfold x
    split
    · exact Keeps.refl _
    · with_reducible exact keeps_mkc (Keeps.refl _) ⟨rfl, rfl, rfl, rfl, rfl, rfl, rfl, rfl⟩
  · clear_value x
    split
    · exact hx
    · with_reducible refine Keeps.trans ?_ (writeLogEn_keeps _ _)
      exact hx

theorem writeMsix_keeps (i : Nat) (val : Nat) (s : State) : Keeps s (writeMsix i val s) := by
  unfold writeMsix
  extract_lets +onlyGivenNames x
  extract_lets +onlyGivenNames x
  refine keeps_through (x := x) ?_ (fun hx => ?_)
  · with_reducible exact keeps_mkc (Keeps.refl _) ⟨rfl, rfl, rfl, rfl, rfl, rfl, rfl, rfl⟩
  · extract_lets +onlyGivenNames x
    split
    · with_reducible refine Keeps.trans ?_ (sendMsix_keeps _ _)
      with_reducible refine keeps_mkc ?_ ⟨rfl, rfl, rfl, rfl, rfl, rfl, rfl, rfl⟩
      exact hx
    · exact hx

theorem writeWord_keeps (off : Nat) (val : Nat) (s : State) : Keeps s (writeWord off val s) := by
  unfold writeWord
  extract_lets +onlyGivenNames x
  clear_value x
  split
  · split
    · with_reducible refine writeBootCtrl_keeps _ _
    · split
      · with_reducible exact keeps_mkc (Keeps.refl _) ⟨rfl, rfl, rfl, rfl, rfl, rfl, rfl, rfl⟩
      · exact Keeps.refl _
    · with_reducible exact keeps_mkc (Keeps.refl _) ⟨rfl, rfl, rfl, rfl, rfl, rfl, rfl, rfl⟩
    · exact Keeps.refl _
  · split
    · with_reducible refine writeRailThr_keeps _ _ _
    · split
      · with_reducible refine writePwrCtrl_keeps _ _
      · with_reducible exact keeps_mkc (Keeps.refl _) ⟨rfl, rfl, rfl, rfl, rfl, rfl, rfl, rfl⟩
      · exact Keeps.refl _
  · with_reducible refine writeHostq_keeps _ _ _
  · with_reducible refine writeChain_keeps _ _ _
  · split
    · with_reducible refine writePeriod_keeps _ _
    · with_reducible exact keeps_mkc (Keeps.refl _) ⟨rfl, rfl, rfl, rfl, rfl, rfl, rfl, rfl⟩
    · split
      · with_reducible exact keeps_mkc (Keeps.refl _) ⟨rfl, rfl, rfl, rfl, rfl, rfl, rfl, rfl⟩
      · exact Keeps.refl _
    · exact Keeps.refl _
  · split
    · with_reducible refine writeWindowZ_keeps _ _
    · with_reducible refine writeForecast_keeps _ _
    · with_reducible exact keeps_mkc (Keeps.refl _) ⟨rfl, rfl, rfl, rfl, rfl, rfl, rfl, rfl⟩
    · exact Keeps.refl _
  · with_reducible refine writeFault_keeps _ _ _
  · split
    · with_reducible refine writeSafetyCtrl_keeps _ _
    · split
      · with_reducible exact keeps_mkc (Keeps.refl _) ⟨rfl, rfl, rfl, rfl, rfl, rfl, rfl, rfl⟩
      · exact Keeps.refl _
    · exact Keeps.refl _
  · split
    · with_reducible refine writeDetCtrl_keeps _ _
    · split
      · exact Keeps.refl _
      · with_reducible exact keeps_mkc (Keeps.refl _) ⟨rfl, rfl, rfl, rfl, rfl, rfl, rfl, rfl⟩
    · exact Keeps.refl _
  · exact Keeps.refl _

theorem regWrite_keeps (off : Nat) (val : Nat) (s : State) : Keeps s (regWrite off val s) := by
  unfold regWrite
  split
  · exact Keeps.refl _
  · split
    · with_reducible refine writeMsix_keeps _ _ _
    · split
      · with_reducible refine holdLow_keeps _ _ _
      · split
        · with_reducible refine writeHigh_keeps _ _ _
        · with_reducible refine writeWord_keeps _ _ _

theorem raccStart_keeps (s : State) (val : Option Nat) (k : State → State) (hk : ∀ s, Keeps s (k s)) : Keeps s (raccStart s val k) := by
  unfold raccStart
  split
  · exact Keeps.refl _
  · split
    · with_reducible exact keeps_mkc (Keeps.refl _) ⟨rfl, rfl, rfl, rfl, rfl, rfl, rfl, rfl⟩
    · split
      · with_reducible refine hk _
      · with_reducible refine Keeps.trans ?_ (sendFlit_keeps _ _ _)
        with_reducible exact keeps_mkc (Keeps.refl _) ⟨rfl, rfl, rfl, rfl, rfl, rfl, rfl, rfl⟩

theorem raccRead_keeps (s : State) : Keeps s (raccRead s) := by
  unfold raccRead
  with_reducible refine raccStart_keeps _ _ _ ?_
  intro x
  split
  with_reducible refine keeps_mkc ?_ ⟨rfl, rfl, rfl, rfl, rfl, rfl, rfl, rfl⟩
  refine Keeps.trans ?_ (keeps_snd (regRead_keeps _ _) (by assumption))
  exact Keeps.refl _

theorem raccWrite_keeps (s : State) : Keeps s (raccWrite s) := by
  unfold raccWrite
  with_reducible refine raccStart_keeps _ _ _ ?_
  intro x
  with_reducible refine regWrite_keeps _ _ _

theorem raccAnswer_keeps (v : Option Nat) (s : State) : Keeps s (raccAnswer v s) := by
  unfold raccAnswer
  split
  · exact Keeps.refl _
  · with_reducible exact keeps_mkc (Keeps.refl _) ⟨rfl, rfl, rfl, rfl, rfl, rfl, rfl, rfl⟩

theorem execRaccRead_keeps (t : Nat) (answer : Option Nat) (s : State) {t' : State}  (h : execRaccRead t answer s = .next t') : Keeps s t' := by
  unfold execRaccRead at h
  refine runAt_keeps (fun s => ?_) h
  extract_lets +onlyGivenNames x
  clear_value x
  extract_lets +onlyGivenNames x
  refine keeps_through (x := x) ?_ (fun hx => ?_)
  · with_reducible refine raccRead_keeps _
  · clear_value x
    split
    · exact hx
    · with_reducible refine Keeps.trans ?_ (raccAnswer_keeps _ _)
      exact hx

theorem execRaccWrite_keeps (t : Nat) (answered : Bool) (s : State) {t' : State}  (h : execRaccWrite t answered s = .next t') : Keeps s t' := by
  unfold execRaccWrite at h
  refine runAt_keeps (fun s => ?_) h
  extract_lets +onlyGivenNames x
  clear_value x
  extract_lets +onlyGivenNames x
  refine keeps_through (x := x) ?_ (fun hx => ?_)
  · with_reducible refine raccWrite_keeps _
  · clear_value x
    split
    · exact hx
    · with_reducible refine Keeps.trans ?_ (raccAnswer_keeps _ _)
      exact hx

theorem execRaccTimeout_keeps (t : Nat) (s : State) {t' : State}  (h : execRaccTimeout t s = .next t') : Keeps s t' := by
  unfold execRaccTimeout at h
  refine runAt_keeps (fun s => ?_) h
  split
  · with_reducible exact keeps_mkc (Keeps.refl _) ⟨rfl, rfl, rfl, rfl, rfl, rfl, rfl, rfl⟩
  · exact Keeps.refl _

theorem execRegisterWrite_keeps (t : Nat) (off : Nat) (val : Nat) (s : State) {t' : State}  (h : execRegisterWrite t off val s = .next t') : Keeps s t' := by
  unfold execRegisterWrite at h
  refine runAt_keeps (fun s => ?_) h
  split
  · exact Keeps.refl _
  · extract_lets +onlyGivenNames x
    clear_value x
    extract_lets +onlyGivenNames x
    clear_value x
    extract_lets +onlyGivenNames x
    refine keeps_through (x := x) ?_ (fun hx => ?_)
    · with_reducible refine regWrite_keeps _ _ _
    · clear_value x
      split
      · split
        · with_reducible refine Keeps.trans ?_ (raccRead_keeps _)
          exact hx
        · with_reducible refine Keeps.trans ?_ (raccWrite_keeps _)
          exact hx
        · exact hx
      · exact hx

theorem execBar2Read_keeps (t : Nat) (off : Nat) (n : Nat) (errs : List (Nat × Bytes)) (s : State) {t' : State}  (h : execBar2Read t off n errs s = .next t') : Keeps s t' := by
  unfold execBar2Read at h
  refine runAt_keeps (fun s => ?_) h
  split
  · exact Keeps.refl _
  · extract_lets +onlyGivenNames x
    clear_value x
    split
    with_reducible refine Keeps.trans ?_ (sillageEvents_keeps _ _)
    with_reducible exact keeps_mkc (Keeps.refl _) ⟨rfl, rfl, rfl, rfl, rfl, rfl, rfl, rfl⟩

theorem execBar2Write_keeps (t : Nat) (off : Nat) (data : Bytes) (errs : List (Nat × Bytes)) (s : State) {t' : State}  (h : execBar2Write t off data errs s = .next t') : Keeps s t' := by
  unfold execBar2Write at h
  refine runAt_keeps (fun s => ?_) h
  split
  · exact Keeps.refl _
  · extract_lets +onlyGivenNames x
    clear_value x
    split
    · with_reducible refine codedWrite_keeps _ _ _ _
    · with_reducible exact keeps_mkc (Keeps.refl _) ⟨rfl, rfl, rfl, rfl, rfl, rfl, rfl, rfl⟩

end Sys2Proof.Machine
end

