-- ==== Sys2Proof/Laws/KeepsChainRx.lean ====
section
/-! SUPPORT. Every operation of Sys2Proof/Machine/ChainRx.lean keeps what `Keeps` speaks of. -/

namespace Sys2Proof.Machine

theorem passOn_keeps (u : Nat) (m : FlitMsg) (s : State) : Keeps s (passOn u m s) := by
  unfold passOn
  with_reducible refine sendFlit_keeps _ _ _

theorem serveOp_keeps (src : OpSrc) (unit : Nat) (tag : Nat) (code : Nat) (a : Nat) (v : Nat) (c : Nat) (n : Nat) (data : Bytes) (poison : List (Nat × Nat × Nat)) (errs : List (Nat × Bytes)) (s : State) : Keeps s (serveOp src unit tag code a v c n data poison errs s) := by
  unfold serveOp
  extract_lets +onlyGivenNames x
  clear_value x
  split
  · split
    with_reducible refine Keeps.trans ?_ (passOn_keeps _ _ _)
    with_reducible refine Keeps.trans ?_ (keeps_fst (applyOp_keeps _ _ _ _ _ _ _ _ _) (by assumption))
    exact Keeps.refl _
  · with_reducible refine passOn_keeps _ _ _

theorem takeReply_keeps (src : OpSrc) (tag : Nat) (code : Nat) (a : Nat) (err : Bool) (data : Bytes) (poison : List (Nat × Nat × Nat)) (s : State) : Keeps s (takeReply src tag code a err data poison s) := by
  unfold takeReply
  split
  · split
    · with_reducible refine diagAnswer_keeps _ _ _ _ _ _
    · exact Keeps.refl _
  · extract_lets +onlyGivenNames x
    extract_lets +onlyGivenNames x
    refine keeps_through (x := x) ?_ (fun hx => ?_)
    · unfold x
      split
      · with_reducible exact keeps_mkc (Keeps.refl _) ⟨rfl, rfl, rfl, rfl, rfl, rfl, rfl, rfl⟩
      · exact Keeps.refl _
    · clear_value x
      extract_lets +onlyGivenNames x
      refine keeps_through (x := x) ?_ (fun hx => ?_)
      · unfold x
        split
        · with_reducible refine Keeps.trans ?_ (setCore_keeps _ _ _)
          exact hx
        · exact hx
      · clear_value x
        split
        · with_reducible refine Keeps.trans ?_ (addressError_keeps _ _ _ _ _ _)
          exact hx
        · with_reducible refine Keeps.trans ?_ (deliver_keeps _ _ _ _)
          exact hx

theorem replayFrom_keeps (port : Nat) (seq : Nat) (s : State) : Keeps s (replayFrom port seq s) := by
  unfold replayFrom
  split
  · with_reducible exact execReplayRequest_keeps _ _ _ _ (by assumption)
  · exact Keeps.refl _

theorem returnCompletion_keeps (id : DescId) (b : Bytes) (s : State) : Keeps s (returnCompletion id b s) := by
  unfold returnCompletion
  split
  · exact Keeps.refl _
  · with_reducible refine Keeps.trans ?_ (putCompletion_keeps _ _ _ _ _)
    with_reducible exact keeps_mkc (Keeps.refl _) ⟨rfl, rfl, rfl, rfl, rfl, rfl, rfl, rfl⟩

theorem takeRemoteFault_keeps (unit : Nat) (low : Bool) (s : State) : Keeps s (takeRemoteFault unit low s) := by
  unfold takeRemoteFault
  extract_lets +onlyGivenNames x
  clear_value x
  extract_lets +onlyGivenNames x
  clear_value x
  extract_lets +onlyGivenNames x
  clear_value x
  extract_lets +onlyGivenNames x
  refine keeps_through (x := x) ?_ (fun hx => ?_)
  · with_reducible exact keeps_mkc (Keeps.refl _) ⟨rfl, rfl, rfl, rfl, rfl, rfl, rfl, rfl⟩
  · clear_value x
    split
    · with_reducible refine Keeps.trans ?_ (raiseLevel_keeps _ _ _ _)
      exact hx
    · split
      · with_reducible refine Keeps.trans ?_ (endLevel_keeps _ _)
        exact hx
      · exact hx

theorem serveRacc_keeps (off : Nat) (val : Option Nat) (s : State) : Keeps s (serveRacc off val s) := by
  unfold serveRacc
  split
  · split
    with_reducible refine Keeps.trans ?_ (sendFlit_keeps _ _ _)
    refine Keeps.trans ?_ (keeps_snd (regRead_keeps _ _) (by assumption))
    exact Keeps.refl _
  · with_reducible refine Keeps.trans ?_ (sendFlit_keeps _ _ _)
    with_reducible refine regWrite_keeps _ _ _

theorem takeDescriptor_keeps (ctx : Nat) (num : Nat) (dt : Nat) (prio : Nat) (client : Nat) (b : Bytes) (s : State) : Keeps s (takeDescriptor ctx num dt prio client b s) := by
  unfold takeDescriptor
  extract_lets +onlyGivenNames x
  clear_value x
  extract_lets +onlyGivenNames x
  clear_value x
  extract_lets +onlyGivenNames x
  refine keeps_through (x := x) ?_ (fun hx => ?_)
  · with_reducible refine setCtx_keeps _ _ _
  · clear_value x
    extract_lets +onlyGivenNames x
    refine keeps_through (x := x) ?_ (fun hx => ?_)
    · unfold x
      split
      · with_reducible refine Keeps.trans ?_ (hostHeartbeat_keeps _ _)
        exact hx
      · exact hx
    · clear_value x
      split
      · with_reducible refine Keeps.trans ?_ (complete_keeps _ _ _ _ _ _ _)
        exact hx
      · with_reducible refine keeps_mkc ?_ ⟨rfl, rfl, rfl, rfl, rfl, rfl, rfl, rfl⟩
        exact hx

theorem takeFlit_keeps (port : Nat) (m : FlitMsg) (errs : List (Nat × Bytes)) (s : State) : Keeps s (takeFlit port m errs s) := by
  unfold takeFlit
  split
  · exact Keeps.refl _
  · split
    · split
      · with_reducible refine serveOp_keeps _ _ _ _ _ _ _ _ _ _ _ _
      · with_reducible refine passOn_keeps _ _ _
    · split
      · with_reducible refine takeReply_keeps _ _ _ _ _ _ _ _
      · with_reducible refine passOn_keeps _ _ _
    · split
      · exact Keeps.refl _
      · with_reducible refine hostWrite_keeps _ _ _ _
    · with_reducible refine hostLog_keeps _ _ _
    · split
      · with_reducible refine returnCompletion_keeps _ _ _
      · with_reducible refine sendFlit_keeps _ _ _
    · with_reducible refine sendMsix_keeps _ _
    · split
      · with_reducible refine takeDescriptor_keeps _ _ _ _ _ _ _
      · split
        · with_reducible refine loseBeyond_keeps _ _ _
        · with_reducible refine passOn_keeps _ _ _
    · with_reducible refine takeStartFlit_keeps _ _
    · with_reducible refine takeReport_keeps _ _ _ _ _ _
    · with_reducible refine takeAnnounce_keeps _ _ _ _
    · split
      · with_reducible refine serveRacc_keeps _ _ _
      · with_reducible refine passOn_keeps _ _ _
    · split
      · with_reducible refine raccAnswer_keeps _ _
      · with_reducible refine sendFlit_keeps _ _ _
    · split
      · with_reducible refine takeRemoteFault_keeps _ _ _
      · with_reducible refine sendFlit_keeps _ _ _
    · split
      · with_reducible refine abortForwarded_keeps _ _ _ _
      · with_reducible refine Keeps.trans ?_ (sendFlit_keeps _ _ _)
        with_reducible refine abortDiags_keeps _ _ _ _
    · with_reducible refine replayFrom_keeps _ _ _
    · split
      · with_reducible refine sendFlit_keeps _ _ _
      · exact Keeps.refl _
    · split
      · with_reducible refine takeTimestamp_keeps _ _ _ _
      · exact Keeps.refl _

theorem discardFlit_keeps (port : Nat) (hdr : Nat) (s : State) : Keeps s (discardFlit port hdr s) := by
  unfold discardFlit
  extract_lets +onlyGivenNames x
  clear_value x
  split
  · exact Keeps.refl _
  · with_reducible refine Keeps.trans ?_ (sendFlit_keeps _ _ _)
    with_reducible refine setPort_keeps _ _ _

theorem acceptFlit_keeps (port : Nat) (hdr : Nat) (data : Bytes) (msg : FlitMsg) (errs : List (Nat × Bytes)) (s : State) : Keeps s (acceptFlit port hdr data msg errs s) := by
  unfold acceptFlit
  extract_lets +onlyGivenNames x
  clear_value x
  split
  · with_reducible refine discardFlit_keeps _ _ _
  · with_reducible refine Keeps.trans ?_ (takeFlit_keeps _ _ _ _)
    with_reducible refine setPort_keeps _ _ _

theorem receiveFlit_keeps (port : Nat) (hdr : Nat) (code : Bytes) (msg : FlitMsg) (errs : List (Nat × Bytes)) (s : State) : Keeps s (receiveFlit port hdr code msg errs s) := by
  unfold receiveFlit
  extract_lets +onlyGivenNames x
  clear_value x
  split
  · exact Keeps.refl _
  · split
    · with_reducible refine acceptFlit_keeps _ _ _ _ _ _
    · with_reducible refine Keeps.trans ?_ (acceptFlit_keeps _ _ _ _ _ _)
      with_reducible refine raise_keeps _ _ _ _
    · with_reducible refine discardFlit_keeps _ _ _

theorem execChainFlitReceive_keeps (t : Nat) (port : Nat) (hdr : Nat) (code : Bytes) (msg : FlitMsg) (errs : List (Nat × Bytes)) (s : State) {t' : State}  (h : execChainFlitReceive t port hdr code msg errs s = .next t') : Keeps s t' := by
  unfold execChainFlitReceive at h
  refine runAt_keeps (fun s => ?_) h
  with_reducible refine receiveFlit_keeps _ _ _ _ _ _

end Sys2Proof.Machine
end

