-- ==== Sys2Proof/Laws/KeepsDormant.lean ====
section
/-! SUPPORT. Every operation of Sys2Proof/Machine/Dormant.lean keeps what `Keeps` speaks of. -/

namespace Sys2Proof.Machine

theorem dormantLoss_keeps (s : State) : Keeps s (dormantLoss s) :=
  ⟨rfl, id, memWfFrom_filter _ _ none, fun _ _ => ⟨rfl, rfl⟩, id, id, rfl, Nat.le_refl _⟩

theorem enterDormant_keeps (s : State) : Keeps s (enterDormant s) := by
  unfold enterDormant
  split
  · exact Keeps.refl _
  · with_reducible refine Keeps.trans ?_ (setService_keeps _ _)
    with_reducible refine Keeps.trans ?_ (dormantLoss_keeps _)
    with_reducible refine parkThreads_keeps _

theorem execDormantEntry_keeps (t : Nat) (s : State) {t' : State}  (h : execDormantEntry t s = .next t') : Keeps s t' := by
  unfold execDormantEntry at h
  refine runAt_keeps (fun s => ?_) h
  with_reducible refine enterDormant_keeps _

theorem wakeFailure_keeps (s : State) (f : CUnit × Nat) : Keeps s (wakeFailure s f) := by
  unfold wakeFailure
  extract_lets +onlyGivenNames x
  refine keeps_through (x := x) ?_ (fun hx => ?_)
  · with_reducible refine takeEvent_keeps _ _ _ _
  · clear_value x
    split
    · exact hx
    · with_reducible refine Keeps.trans ?_ (fenceCluster_keeps _ _ _)
      exact hx
    · with_reducible refine Keeps.trans ?_ (fenceCluster_keeps _ _ _)
      exact hx
    · with_reducible refine Keeps.trans ?_ (fenceCluster_keeps _ _ _)
      exact hx

theorem rebuildCaches_keeps (s : State) : Keeps s (rebuildCaches s) := by
  unfold rebuildCaches
  extract_lets +onlyGivenNames x
  clear_value x
  extract_lets +onlyGivenNames x
  clear_value x
  split
  with_reducible exact keeps_mkc (Keeps.refl _) ⟨rfl, rfl, rfl, rfl, rfl, rfl, rfl, rfl⟩

theorem wakeUp_keeps (failed : List (CUnit × Nat)) (s : State) : Keeps s (wakeUp failed s) := by
  unfold wakeUp
  extract_lets +onlyGivenNames x
  refine keeps_through (x := x) ?_ (fun hx => ?_)
  · refine keeps_foldl (Keeps.refl _) (fun s x hs => ?_)
    with_reducible refine Keeps.trans ?_ (wakeFailure_keeps _ _)
    exact hs
  · clear_value x
    extract_lets +onlyGivenNames x
    clear_value x
    extract_lets +onlyGivenNames x
    clear_value x
    extract_lets +onlyGivenNames x
    extract_lets +onlyGivenNames x
    clear_value x
    extract_lets +onlyGivenNames x
    refine keeps_through (x := x) ?_ (fun hx => ?_)
    · with_reducible refine Keeps.trans ?_ (rebuildCaches_keeps _)
      with_reducible refine Keeps.trans ?_ (lockDies_keeps _)
      with_reducible refine keeps_mkc ?_ ⟨rfl, rfl, rfl, rfl, rfl, rfl, rfl, rfl⟩
      exact hx
    · clear_value x
      with_reducible refine Keeps.trans ?_ (setService_keeps _ _)
      exact hx

theorem wakeBootAgain_keeps (s : State) : Keeps s (wakeBootAgain s) := by
  unfold wakeBootAgain
  extract_lets +onlyGivenNames x
  refine keeps_through (x := x) ?_ (fun hx => ?_)
  · with_reducible refine chipReset_keeps _ _
  · clear_value x
    with_reducible refine keeps_mkc ?_ ⟨rfl, rfl, rfl, rfl, rfl, rfl, rfl, rfl⟩
    exact hx

theorem wakeComplete_keeps (fwOk : Bool) (failed : List (CUnit × Nat)) (s : State) : Keeps s (wakeComplete fwOk failed s) := by
  unfold wakeComplete
  split
  · exact Keeps.refl _
  · split
    · with_reducible refine wakeBootAgain_keeps _
    · with_reducible refine wakeUp_keeps _ _

theorem execWakeComplete_keeps (t : Nat) (fwOk : Bool) (failed : List (CUnit × Nat)) (s : State) {t' : State}  (h : execWakeComplete t fwOk failed s = .next t') : Keeps s t' := by
  unfold execWakeComplete at h
  refine runAt_keeps (fun s => ?_) h
  with_reducible refine wakeComplete_keeps _ _ _

end Sys2Proof.Machine
end

