-- ==== Sys2Proof/Laws/KeepsPublish.lean ====
section
/-! SUPPORT. Every operation of Sys2Proof/Machine/Publish.lean keeps what `Keeps` speaks of. -/

namespace Sys2Proof.Machine

theorem publishRun_keeps (a : Accord) (f : Frame) (w : Work) (r : FrWork) (s : State) : Keeps s (publishRun a f w r s) := by
  unfold publishRun
  split
  · exact Keeps.refl _
  · extract_lets +onlyGivenNames x
    clear_value x
    extract_lets +onlyGivenNames x
    clear_value x
    extract_lets +onlyGivenNames x
    clear_value x
    extract_lets +onlyGivenNames x
    clear_value x
    extract_lets +onlyGivenNames x
    clear_value x
    extract_lets +onlyGivenNames x
    clear_value x
    extract_lets +onlyGivenNames x
    clear_value x
    extract_lets +onlyGivenNames x
    refine keeps_through (x := x) ?_ (fun hx => ?_)
    · with_reducible refine hostWrite_keeps _ _ _ _
    · clear_value x
      extract_lets +onlyGivenNames x
      refine keeps_through (x := x) ?_ (fun hx => ?_)
      · refine keeps_foldl ?_ (fun s x hs => ?_)
        · exact hx
        · with_reducible refine Keeps.trans ?_ (logWork_keeps _ _ _ _ _ _ _ _)
          exact hs
      · clear_value x
        extract_lets +onlyGivenNames x
        refine keeps_through (x := x) ?_ (fun hx => ?_)
        · with_reducible refine Keeps.trans ?_ (logWork_keeps _ _ _ _ _ _ _ _)
          exact hx
        · clear_value x
          extract_lets +onlyGivenNames x
          refine keeps_through (x := x) ?_ (fun hx => ?_)
          · with_reducible refine Keeps.trans ?_ (logWork_keeps _ _ _ _ _ _ _ _)
            exact hx
          · clear_value x
            extract_lets +onlyGivenNames x
            refine keeps_through (x := x) ?_ (fun hx => ?_)
            · with_reducible refine Keeps.trans ?_ (finishWork_keeps _ _ _ _ _ _ _)
              exact hx
            · clear_value x
              with_reducible refine keeps_mkc ?_ ⟨rfl, rfl, rfl, rfl, rfl, rfl, rfl, rfl⟩
              exact hx

theorem finishCheck_keeps (w : Work) (c : CkWork) (s : State) : Keeps s (finishCheck w c s) := by
  unfold finishCheck
  extract_lets +onlyGivenNames x
  clear_value x
  extract_lets +onlyGivenNames x
  clear_value x
  extract_lets +onlyGivenNames x
  clear_value x
  extract_lets +onlyGivenNames x
  clear_value x
  extract_lets +onlyGivenNames x
  refine keeps_through (x := x) ?_ (fun hx => ?_)
  · with_reducible refine hostWrite_keeps _ _ _ _
  · clear_value x
    extract_lets +onlyGivenNames x
    refine keeps_through (x := x) ?_ (fun hx => ?_)
    · unfold x
      split
      · exact hx
      · with_reducible refine Keeps.trans ?_ (logWork_keeps _ _ _ _ _ _ _ _)
        exact hx
    · clear_value x
      extract_lets +onlyGivenNames x
      refine keeps_through (x := x) ?_ (fun hx => ?_)
      · with_reducible refine Keeps.trans ?_ (logWork_keeps _ _ _ _ _ _ _ _)
        exact hx
      · clear_value x
        with_reducible refine Keeps.trans ?_ (finishWork_keeps _ _ _ _ _ _ _)
        exact hx

theorem publishCheck_keeps (f : Frame) (s : State) (w : Work) : Keeps s (publishCheck f s w) := by
  unfold publishCheck
  split
  · split
    · exact Keeps.refl _
    · extract_lets +onlyGivenNames x
      clear_value x
      split
      · with_reducible refine finishCheck_keeps _ _ _
      · with_reducible refine setItem_keeps _ _ _
  · exact Keeps.refl _

theorem countSuspect_keeps (f : Frame) (w : Work) (s : State) : Keeps s (countSuspect f w s) := by
  unfold countSuspect
  split
  · exact Keeps.refl _
  · with_reducible refine Keeps.trans ?_ (timingChoice_keeps _ _ _ _ _ _)
    with_reducible refine modFrame_keeps _ _

theorem clearSuspectAtPublish_keeps (f : Frame) (s : State) : Keeps s (clearSuspectAtPublish f s) := by
  unfold clearSuspectAtPublish
  split
  · with_reducible exact keeps_mkc (Keeps.refl _) ⟨rfl, rfl, rfl, rfl, rfl, rfl, rfl, rfl⟩
  · exact Keeps.refl _

theorem settleMerge_keeps (s : State) (f : Frame) : Keeps s (settleMerge s f) := by
  unfold settleMerge
  split
  · exact Keeps.refl _
  · refine keeps_foldl ?_ (fun s x hs => ?_)
    · with_reducible refine modFrame_keeps _ _
    · with_reducible refine Keeps.trans ?_ (reissue_keeps _ _ _)
      exact hs

theorem execPublish_keeps (t : Nat) (s : State) {t' : State}  (h : execPublish t s = .next t') : Keeps s t' := by
  unfold execPublish at h
  refine runAt_keeps (fun s => ?_) h
  split
  · split
    · exact Keeps.refl _
    · extract_lets +onlyGivenNames x
      refine keeps_through (x := x) ?_ (fun hx => ?_)
      · with_reducible refine settleMerge_keeps _ _
      · clear_value x
        extract_lets +onlyGivenNames x
        refine keeps_through (x := x) ?_ (fun hx => ?_)
        · unfold x
          split
          · with_reducible refine Keeps.trans ?_ (countSuspect_keeps _ _ _)
            exact hx
          · with_reducible assumption
        · clear_value x
          extract_lets +onlyGivenNames x
          clear_value x
          extract_lets +onlyGivenNames x
          refine keeps_through (x := x) ?_ (fun hx => ?_)
          · unfold x
            split
            · with_reducible refine Keeps.trans ?_ (publishRun_keeps _ _ _ _ _)
              exact hx
            · with_reducible assumption
          · clear_value x
            extract_lets +onlyGivenNames x
            refine keeps_through (x := x) ?_ (fun hx => ?_)
            · refine keeps_foldl ?_ (fun s x hs => ?_)
              · exact hx
              · with_reducible refine Keeps.trans ?_ (publishCheck_keeps _ _ _)
                exact hs
            · clear_value x
              extract_lets +onlyGivenNames x
              refine keeps_through (x := x) ?_ (fun hx => ?_)
              · with_reducible refine Keeps.trans ?_ (clearSuspectAtPublish_keeps _ _)
                with_reducible refine Keeps.trans ?_ (modFrame_keeps _ _)
                exact hx
              · clear_value x
                split
                · with_reducible refine Keeps.trans ?_ (beginEnum_keeps _)
                  exact hx
                · exact hx
  · exact Keeps.refl _

end Sys2Proof.Machine
end

