-- ==== Sys2Proof/Laws/KeepsSeal.lean ====
section
/-! SUPPORT. Every operation of Sys2Proof/Machine/Seal.lean keeps what `Keeps` speaks of. -/

namespace Sys2Proof.Machine

theorem execSealStart_keeps (t : Nat) (s : State) {t' : State}  (h : execSealStart t s = .next t') : Keeps s t' := by
  unfold execSealStart at h
  refine runAt_keeps (fun s => ?_) h
  split
  · exact Keeps.refl _
  · split
    · exact Keeps.refl _
    · extract_lets +onlyGivenNames x
      refine keeps_through (x := x) ?_ (fun hx => ?_)
      · with_reducible refine buildSeal_keeps _ _
      · clear_value x
        with_reducible refine Keeps.trans ?_ (runPrims_keeps _ _ _)
        exact hx

theorem installSeal_keeps (sl : Sealing) (s : State) : Keeps s (installSeal sl s) := by
  unfold installSeal
  extract_lets +onlyGivenNames x
  clear_value x
  extract_lets +onlyGivenNames x
  extract_lets +onlyGivenNames x
  refine keeps_through (x := x) ?_ (fun hx => ?_)
  · with_reducible refine Keeps.trans ?_ (fillFlacon_keeps _)
    with_reducible exact keeps_mkc (Keeps.refl _) ⟨rfl, rfl, rfl, rfl, rfl, rfl, rfl, rfl⟩
  · clear_value x
    with_reducible refine Keeps.trans ?_ (modFrame_keeps _ _)
    exact hx

theorem execSealComplete_keeps (t : Nat) (s : State) {t' : State}  (h : execSealComplete t s = .next t') : Keeps s t' := by
  unfold execSealComplete at h
  refine runAt_keeps (fun s => ?_) h
  split
  · split
    · exact Keeps.refl _
    · with_reducible refine installSeal_keeps _ _
  · exact Keeps.refl _

theorem execFullSealComplete_keeps (t : Nat) (s : State) {t' : State}  (h : execFullSealComplete t s = .next t') : Keeps s t' := by
  unfold execFullSealComplete at h
  refine runAt_keeps (fun s => ?_) h
  split
  · split
    · with_reducible refine installSeal_keeps _ _
    · exact Keeps.refl _
  · exact Keeps.refl _

end Sys2Proof.Machine
end

