-- ==== Sys2Proof/Laws/Ops.lean ====
section
/-! SUPPORT. What the shared operations do, said once: running a command at its DT, accepting a taken descriptor, and completing one. -/

namespace Sys2Proof.Machine

theorem runAt_live {s : State} (h : Live s) (t : Nat) (f : State → State) : runAt t s f = .next (f (atDt t s)) := by
  unfold runAt; rw [h.1, h.2]; rfl

/-- A unit held in reset does nothing. -/
theorem runAt_held {s : State} (h : ¬ Live s) (t : Nat) (f : State → State) : runAt t s f = .next s := by
  unfold Live at h
  cases h1 : s.pwr.heldReset <;> cases h2 : s.pwr.supplyHeld <;> simp_all [runAt]

/-- A command that runs at its DT always answers a next state. -/
theorem runAt_next (t : Nat) (s : State) (f : State → State) : ∃ u, runAt t s f = .next u := by
  unfold runAt; split <;> exact ⟨_, rfl⟩

theorem withChecks_pass {d : Taken} {l : List (Bool × Fail)} {s : State} {k : State → State} (h : firstFail l = none) :
    withChecks d l s k = k s := by
  unfold withChecks; rw [h]

theorem withChecks_fail {d : Taken} {l : List (Bool × Fail)} {s : State} {k : State → State} {f : Fail} (h : firstFail l = some f) :
    withChecks d l s k = refuse d f s := by
  unfold withChecks; rw [h]

/-- A descriptor that passes the checks common to every kind goes on to its own. -/
theorem acceptDesc_next {r : KindRule} {d : Taken} {s : State} (h : Admits r d s) (v : View) (k : State → State) :
    acceptDesc d v r s k = .next (k (accepted d v s)) := by
  obtain ⟨h1, h2, h0, h3, h4, h5, h6, h7, h8⟩ := h
  unfold acceptDesc
  rw [runAt_live h1]
  have e : ∀ (x : State), x.fault = s.fault → x.chain = s.chain → x.pwr.service = s.pwr.service → x.units = s.units → x.hostq.ctxs = s.hostq.ctxs →
      (if (stackLost x && !r.anyStack) = true then refuse d { status := 0x21, aux0 := stackLostSrc x, aux1 := 0 } x
      else if fld d 1 1 ≥ 4 then refuse d (badField 1) x
      else if (r.control && x.chain.head && !bitOf (ctxOf x d.ctx).flags 1) = true then refuse d (badField 0) x
      else if (!r.reduced && x.pwr.service == 2) = true then refuse d unsupportedFail x
      else if (x.units.disabledFn.contains r.code || x.units.draining.any (fun y => y.1 == r.code)) = true then
        refuse d { status := 0x20, aux0 := 0, aux1 := 0 } x
      else k x) = k x := by
    intro x hf hc hp hu hx
    have hl : stackLost x = stackLost s := by unfold stackLost; rw [hf]
    have hcx : ctxOf x d.ctx = ctxOf s d.ctx := by unfold ctxOf; rw [hx]
    rw [hl, hcx, hc, hp, hu]
    rw [if_neg, if_neg, if_neg, if_neg, if_neg]
    · simp only [Bool.or_eq_true, List.contains_iff_mem, List.any_eq_true, beq_iff_eq, not_or, not_exists, not_and]
      exact ⟨h7, h8⟩
    · rcases h6 with h6 | h6 <;> simp [h6]
    · cases hcc : r.control
      · simp
      · cases hh : s.chain.head
        · simp
        · simp [h5 hcc hh]
    · omega
    · rcases h4 with h4 | h4 <;> simp [h4]
  dsimp only
  rw [if_neg (by simp [h2, atDt, h0])]
  congr 1
  apply e <;> simp

theorem sendMsix_only (v : Nat) (s : State) : ∃ p c, sendMsix v s = { s with pcie := p, chain := c } := by
  unfold sendMsix sendFlit
  (repeat' split) <;> exact ⟨_, _, rfl⟩

theorem ctxIrq_only (c : Nat) (f : Bool) (s : State) : ∃ q p k, ctxIrq c f s = { s with hostq := q, pcie := p, chain := k } := by
  unfold ctxIrq setCtx; dsimp only; split
  · exact ⟨_, _, _, rfl⟩
  · split
    · obtain ⟨p, k, e⟩ := sendMsix_only (ctxOf s c).vector _
      exact ⟨_, p, k, e.trans rfl⟩
    · exact ⟨_, _, _, rfl⟩

theorem ctxIrq_after (c : Nat) (f : Bool) {s x : State} (h : ∃ m q, x = { s with hostMem := m, hostq := q }) :
    ∃ m q p k, ctxIrq c f x = { s with hostMem := m, hostq := q, pcie := p, chain := k } := by
  obtain ⟨m, q, rfl⟩ := h
  obtain ⟨q, p, k, e⟩ := ctxIrq_only c f { s with hostMem := m, hostq := q }
  exact ⟨m, q, p, k, e⟩

/-- What a completion can do (09 R318, R322): it writes its slot, the context, the interrupt and, downstream, the chain. -/
theorem complete_only (h : Hdr) (status flags aux0 aux1 : Nat) (frame : Option Nat) (s : State) :
    ∃ m q p k, complete h status flags aux0 aux1 frame s = { s with hostMem := m, hostq := q, pcie := p, chain := k } := by
  unfold complete putCompletion; dsimp only
  split
  · split
    · exact ⟨_, _, _, _, rfl⟩
    · exact ctxIrq_after _ _ ⟨_, _, rfl⟩
  · exact ⟨_, _, _, _, rfl⟩

/-- A work item that finishes leaves the list, and nothing else changes but what its completion writes. -/
theorem finishWork_only (w : Work) (status flags aux0 aux1 : Nat) (frame : Option Nat) (s : State) :
    ∃ m q p k, finishWork w status flags aux0 aux1 frame s =
      { s with hostMem := m, hostq := q, pcie := p, chain := k, work := s.work.filter (fun x => x.wid != w.wid) } := by
  obtain ⟨m, q, p, k, e⟩ := complete_only w.hdr status flags aux0 aux1 frame s
  exact ⟨m, q, p, k, by unfold finishWork dropWork; rw [e]⟩

/-- A key that was inserted is found. -/
@[simp] theorem lookup_insert_same {α : Type} (d : α) (k : Nat) (v : α) (l : List (Nat × α)) :
    lookupO k (insertKey k v l) = some v ∧ lookupD d k (insertKey k v l) = v := by
  induction l with
  | nil => simp [insertKey, lookupO, lookupD]
  | cons x r ih =>
    unfold insertKey; split
    · simp only [lookupO, lookupD]; rw [if_neg (by omega), if_neg (by omega)]; exact ih
    · split <;> simp [lookupO, lookupD]

@[simp] theorem ctxOf_setCtx (s : State) (c : Nat) (x : Ctx) : ctxOf (setCtx s c x) c = x := by
  unfold ctxOf setCtx; exact (lookup_insert_same _ c x s.hostq.ctxs).2

end Sys2Proof.Machine
end

