-- ==== Sys2Proof/Tests/Slice0.lean ====
section
/-! SUPPORT. The model's own tests: an ill-formed command for each check of WellFormed.lean, values that the spec works out, the table's
words, and for each statement of Obligations.lean states and operands that meet its hypotheses (`wit_<statement>`). -/

set_option Elab.async false

namespace Sys2Proof.Tests

open Sys2Proof Sys2Proof.Machine

/-! ## Small states and descriptors -/

def s0 : State := State.reset

/-- Bytes with little-endian fields (offset, size, value) in place. -/
def bytesOf (n : Nat) (l : List (Nat × Nat × Nat)) : Bytes := l.foldl (fun b x => patchAt b x.1 (leBytes x.2.1 x.2.2)) (zeros n)

/-- A taken descriptor of context 0. -/
def dsc (l : List (Nat × Nat × Nat)) : Taken := { ctx := 0, num := 0, dt := 0, desc := bytesOf 64 l }

/-- Context 0 is ENABLED and has CONTROL. -/
def s1 : State := { s0 with hostq := { s0.hostq with ctxs := [(0, { state := 1, flags := 2 })] } }

/-- `d` is the one descriptor taken and not yet dealt with. -/
def tk (d : Taken) (s : State) : State := { s with hostq := { s.hostq with taken := [d] } }

def admitsB (r : KindRule) (d : Taken) (s : State) : Bool :=
  !s.pwr.heldReset && !s.pwr.supplyHeld && fld d 0 1 == r.code && s.hostq.taken.head? == some d && decide (fld d 1 1 < 4) && (r.anyStack || !stackLost s) &&
  (!r.control || !s.chain.head || bitOf (ctxOf s d.ctx).flags 1) && (r.reduced || s.pwr.service != 2) &&
  !s.units.disabledFn.contains r.code && s.units.draining.all (fun x => x.1 != r.code)

theorem admits_of {r : KindRule} {d : Taken} {s : State} (h : admitsB r d s = true) : Admits r d s := by
  simp only [admitsB, Bool.and_eq_true, Bool.or_eq_true, Bool.not_eq_true', beq_iff_eq, decide_eq_true_eq, bne_iff_ne, List.all_eq_true] at h
  obtain ⟨⟨⟨⟨⟨⟨⟨⟨⟨a, b⟩, c⟩, k⟩, d'⟩, e⟩, f⟩, g⟩, i⟩, j⟩ := h
  refine ⟨⟨a, b⟩, c, k, d', e, ?_, g, by simpa using i, j⟩
  intro x y; rcases f with (f | f) | f
  · rw [x] at f; cases f
  · rw [y] at f; cases f
  · exact f

def net0 : NetRec :=
  { netId := 7, p0 := 0, e := 1000, certFrame := 7, stopTimeUs := 400000, stopMargin := 320, stepUs := 2000, nSamples := 0, clearance := 0,
    epoch := 0, ax := 0, ay := 0, az := 0, yaw := 0, dk := 4000000, nx := 0, nu := 0, slot := 0, pert := 0, traj := [], knots := [],
    boxes := [], hazTested := [] }

/-- ARMED with `net0` in force. -/
def sArmed : State := { s0 with net := { s0.net with state := 1, newest := some net0, padA := false, padB := false } }

def frame0 : Frame := { number := 5, tickDt := 0, kind := .run, periodUs := 1000 }

def withFrame (f : Frame) : State := { s0 with frame := { s0.frame with cur := some f } }

def cls0 : PClass := { h := 0, nx := 0, nu := 0, dk := 1000000, solve := true }

def acc0 : Accord := { classes := [cls0], solveStarts := 1, selectStarts := 1, tensorStarts := 1, sections := [(2, 0, 0), (3, 0, 0), (9, 0, 0)] }

def body0 : Body := { baseKind := 1, joints := [], spheres := [], cover := [], payload := [], id := 0 }

def meas0 : Meas := parseMeas (zeros 352)

def fr0 : FrWork := { target := 0, resultAddr := 0, nWarm := 1, nProp := 0, k := 1, optClass := 0, sealReq := false, meas := meas0, people := [] }

def work0 (it : WorkItem) : Work :=
  { wid := 1, ctx := 0, num := 0, tag := 0, seq := 0, kind := 6, irq := false, prio := 0, client := 0, accept := 0, bound := 5, item := it }

def opt0 : Opt := { wid := 1, idx := 0, core := 0, start := [], deadline := some 100, cur := [] }

def core0 : CoreId := { die := 0, cluster := 0, core := 0 }

/-! ## WellFormed: a term for each check that the check refuses -/

def badDsc : Taken := { ctx := 0, num := 0, dt := 0, desc := [] }
def badView : View := { bad := [(5, 5)] }
def badCore : CoreId := { die := 4, cluster := 0, core := 0 }

/-- Each check refuses a term that breaks it. -/
theorem test_wf_refuses :
    errsWf [(0, [])] = false ∧ word32 (2 ^ 32) = false ∧ word64 (2 ^ 64) = false ∧ regWf 2 = false ∧ regWf (2 ^ 24) = false ∧ takenWf badDsc = false ∧
    takenWf { dsc [] with ctx := 2 ^ 20 } = false ∧ takenWf { dsc [] with num := 2 ^ 32 } = false ∧ viewWf badView = false ∧
    coreWf badCore = false ∧ coreWf { core0 with cluster := 16 } = false ∧ coreWf { core0 with core := 8 } = false ∧
    cfgWf { maxPayload := 64 } = false ∧ cfgWf { maxReadReq := 64 } = false ∧ injWf (.lockstep 12) = false ∧ srcWf (.core badCore) = false ∧ srcWf (.pair 8) = false ∧ unitWf (.core 64 0) = false ∧ unitWf (.core 0 9) = false ∧
    unitWf (.mapCache 64) = false ∧ unitWf (.fabric 64) = false ∧ unitWf (.pair 8) = false ∧ blkWf (.cluster 64) = false ∧
    blkWf (.link 8) = false ∧ blkWf (.port 2) = false ∧ blkWf (.netChannel 2) = false ∧ blkWf (.pair 8) = false := by decide +kernel

/-- An ill-formed command for each bound in `Instr.wf`. -/
theorem test_wf_refuses_commands :
    [Instr.mapIngest badDsc {}, .frameRun (dsc []) badView, .irqDelayExpiry 0 (2 ^ 20), .ctxInvalidCommand 0 3, .ctxDrainEnd 0 (2 ^ 20),
     .bar2Read 0 (2 ^ 28) 4 [], .bar2Write 0 (2 ^ 28) [] [], .registerWrite 0 1 0, .registerWrite 0 0 (2 ^ 32), .framePeriodWrite 0 (2 ^ 32),
     .pwrRailThrWrite 0 10 0, .strapSample 0 4 false, .supplyReset 0 10, .avsTimeout 0 4, .tempSample 0 9 0, .injectionTimeout 0 (.clock 7),
     .driveHeartbeatEdge 0 2, .safeStopMismatch 0 2 true, .faultEvent 0 416 0 0, .faultEvent 0 0 (2 ^ 64) 0, .spareLoadDone 0 64,
     .faultStickyClear 0 13 0, .restoreRotationDone 0 64, .eventWordChange 0 512, .safetyThreadLatency 0 4096, .create 0 8 0 0,
     .create 0 0 (2 ^ 64) 0, .lockstepMismatch 0 8, .put 0 (.pair 8) 0 0 0 [] [] [], .atomicCas 0 .diag 0 0 (2 ^ 64) 0 [], .waitSignal 0 core0 512 0,
     .fence 0 badCore, .ringLinkFailover 0 3 [] [], .ringLinkFailover 0 8 [] [], .enumerationStartFlit 0 8, .enumToken 0 256,
     .enumReport 0 8 false false 0 0, .linkTraining 0 2 0, .linkTraining 0 0 5, .chainFlitReceive 0 0 256 [] (.replayFrom 0) [],
     .replayRequest 0 2 0, .regulatorSettled 0 4].all (fun c => !c.wf) = true := by decide +kernel

/-- Well-formed commands pass. -/
theorem test_wf_accepts :
    [Instr.mapIngest (dsc []) {}, .registerWrite 0 0x60000 1000, .fence 0 core0, .linkTraining 0 1 4, .faultEvent 0 415 0 0].all
      (fun c => c.wf) = true := by decide +kernel

/-- The table gives no row any bits. -/
theorem test_no_word_decodes : decodeTableWord 0 0 = none ∧ s0.withFetchWord 8 0 = s0 := ⟨rfl, rfl⟩

/-! ## Values that the spec works out -/

/-- The table of 02 R50: T_b for Q = 512, 768, 544, 521 and 32,768 at 1.4 GHz. -/
theorem test_batch_interval :
    [512, 768, 544, 521, 32768].map (batchInterval 1400) = [2000, 3000, 2125, 2036, 128000] := by decide +kernel

/-- Reset: SAFE_STOP asserted, NO_NET, LIMIT_W 180 (08 R279, 17). -/
theorem test_reset : s0.net.padA = true ∧ s0.net.state = 0 ∧ regVal s0 0x20000 = 180 := by decide +kernel

/-- A token of address 3 and generation 5: bits 3:0, 6:4 and odd parity (10 R334). -/
theorem test_token : tokenByte 3 5 = 0b11010011 := by decide +kernel

/-- A step on a queue of one command: DRV_REQ_A fires the Net in force, SAFE_STOP is asserted, the queue is empty (08 R280). -/
theorem test_drive_request_fires :
    (match step { sArmed with pending := [.driveRequest 10 true false] } with
    | .next t => t.net.state == 2 && t.net.padA && t.net.padB && t.net.lastSource == 4 && t.pending.isEmpty
    | _ => false) = true := by decide +kernel

/-- FRAME_PERIOD outside 500 to 10,000 is ignored and PERIOD_ERR set (02 R37). -/
theorem test_frame_period_range :
    (match exec (.framePeriodWrite 0 499) s0 with | .next t => t.frame.periodErr && t.frame.periodNext == s0.frame.periodNext | _ => false) = true ∧
    (match exec (.framePeriodWrite 0 10000) s0 with | .next t => !t.frame.periodErr && t.frame.periodNext == 10000 | _ => false) = true := by
  decide +kernel

/-! ## Witnesses -/

theorem live_s0 : Live s0 := ⟨rfl, rfl⟩

theorem wit_StepOfTheQueue : ∃ s : State, s.pending = [.publish 0] := ⟨{ s0 with pending := [.publish 0] }, rfl⟩

theorem wit_MemoryFormKeptByStep : MemoriesOk s0 ∧ step s0 = .next s0 := ⟨⟨rfl, rfl⟩, rfl⟩

theorem wit_SafeStopKeptByStep : SafeStopOk s0 ∧ SafeStopOk sArmed := ⟨fun _ => ⟨rfl, rfl⟩, fun h => absurd rfl h⟩

theorem wit_RangesKeptByStep : SrcsOk s0.fault.srcs ∧ LimitOk s0.pwr ∧ LimitOk { s0.pwr with limit := 90, limitNext := 240 } := by
  unfold SrcsOk SrcOk LimitOk; decide +kernel

theorem wit_HeldUnitDoesNothing :
    ¬ Live { s0 with pwr := { s0.pwr with heldReset := true } } ∧ ¬ Live { s0 with pwr := { s0.pwr with supplyHeld := true } } := by
  exact ⟨fun h => absurd h.1 (by decide +kernel), fun h => absurd h.2 (by decide +kernel)⟩

theorem wit_ContextCommands :
    Live s0 ∧ s0.chain.head = true ∧ { s0.chain with head := false }.head = false ∧ s0.hostq.busyUntil ≤ s0.dt ∧ (ctxOf s0 0).state = 0 ∧ (ctxOf s1 0).state = 1 ∧
    (atDt 0 { s0 with hostq := { s0.hostq with busyUntil := 1 } }).dt < 1 ∧
    (ctxOf { s0 with hostq := { s0.hostq with ctxs := [(0, { state := 2 })] } } 0).state = 2 ∧
    ctxOk s0 { sqBase := 0x1000, cqBase := 0x2000, sqTailAddr := 0x3000, cqHeadAddr := 0x4000, sqLog2 := 4, cqLog2 := 4, irqCount := 1 } = true ∧
    (List.replicate 16 (2 ^ 32 - 1)).length = 16 := by
  refine ⟨live_s0, ?_⟩; decide +kernel

theorem wit_CompletionsAndInterrupts :
    s1.chain.head = true ∧ (ctxOf s1 0).state ≠ 0 ∧ Memory.wf s1.hostMem = true ∧
    (let x : Ctx := { state := 1, flags := 1, unsignalled := 1 }
     bitOf x.flags 0 = true ∧ 0 < x.unsignalled ∧ x.firstUnsig + 1000 * x.irqUs ≤ s0.dt) ∧ msixMasked s0 0 = true ∧
    s0.pcie.cfg.msixEn = false ∧ { s0.pcie.cfg with msixEn := true, msixMask := true }.msixMask = true ∧ s0.pcie.msixPending = [] ∧
    msixMasked { s0 with pcie := { s0.pcie with msixTable := [(3, 0)] } } 0 = false := by decide +kernel

theorem wit_PollerRuns :
    (0 : Nat) % 2000 = 0 ∧ (1999 : Nat) % 2000 ≠ 0 ∧ (applyView { cfg := some { atomicReq := true } } s0).pcie.cfg.atomicReq = true ∧
    (applyView {} s0).pcie.perst = false ∧ ({ found := [], stopped := false, st := s0 } : Walk).stopped = false := by decide +kernel

theorem wit_DoorbellWalk :
    s0.hostq.waiting = [] ∧ badRead {} s0.hostq.dbTop 32 = false ∧ (∀ k < 32, memRead s0.hostMem (s0.hostq.dbTop + k) = 0) ∧
    Memory.wf s0.hostMem = true ∧ (64 : Nat) % 64 = 0 := by decide +kernel

theorem wit_SequenceCount :
    fieldN (bytesOf 64 [(0, 1, 1)]) 2 2 = (ctxOf s1 0).seqBase + (ctxOf s1 0).sqHead ∧ fieldN (bytesOf 64 [(2, 2, 9)]) 2 2 ≠ 0 ∧
    (ctxOf s1 0).unit = s1.chain.unit ∧ fieldN (bytesOf 64 [(0, 1, 0x0D)]) 0 1 = 0x0D ∧ 0x0D < fieldN (bytesOf 64 [(0, 1, 0x0E)]) 0 1 ∧
    isHeartbeat (bytesOf 64 [(0, 1, 6)]) = true ∧ isHeartbeat (bytesOf 64 [(0, 1, 0x0B), (0x20, 1, 3)]) = true := by
  decide +kernel

theorem wit_BarAccesses :
    s0.chain.head = true ∧ (let s : State := { s0 with hostq := { s0.hostq with stageBase := 64, stageSize := 64, bar2Base := 0 } }
     s.hostq.stageBase ≤ s.hostq.bar2Base + 64 ∧ s.hostq.bar2Base + 64 + 64 ≤ s.hostq.stageBase + s.hostq.stageSize ∧
     s.hostq.stageBase + s.hostq.stageSize < s.hostq.bar2Base + 64 + 65 ∧ s.hostq.bar2Base + 63 < s.hostq.stageBase) := by decide +kernel

theorem wit_RegisterReads :
    lookupO 0x20008 s0.hi = none ∧ lookupO 0x40004 s0.hi = none ∧ lookupO 0x90000 s0.hi = none ∧ (pairVal s0 0x10008).isSome = true ∧
    pairVal s0 0x60004 = none ∧ lookupO 0x1000C { s0 with hi := [(0x1000C, 3)] }.hi = some 3 := by decide +kernel

theorem wit_PairAccess :
    pairWritable 0x10008 = true ∧ pairWritable 0x40098 = true ∧ lookupO 0x10008 s0.hi = none ∧ (pairVal (atDt 0 s0) 0x10008).isSome = true ∧
    lookupO 0x10008 s0.lo = none := by decide +kernel

theorem wit_RegisterWrites :
    (2 ^ 32 - 1) % 512 > 415 ∧ 415 % 512 ≤ 415 ∧ s0.det.logEn = false ∧ bitOf 31 5 = false ∧ s0.chain.head = true ∧
    { s0.chain with head := false }.head = false := by decide +kernel

/-- Each range at both ends and one beyond. -/
theorem wit_RangedRegisters :
    s0.world.sealedOnce = false ∧ s0.world.windowZWritten = false ∧ signed 32 ((2 ^ 32 - 16384) % 2 ^ 32) = -16384 ∧
    signed 32 ((2 ^ 32 - 16385) % 2 ^ 32) < -16384 ∧ signed 32 16352 = 16352 ∧
    (let v := 10 + 256 * 1; 10 ≤ v % 256 ∧ 1 ≤ bitsOf v 8 5) ∧ (let v := 200 + 256 * 16; v % 256 ≤ 200 ∧ bitsOf v 8 5 ≤ 16) ∧
    (let v := 200 + 256 * 17; 16 < bitsOf v 8 5) ∧ (railOf s0 9).low = false ∧
    (let v := 98 + 256 * 95; v % 256 ≤ 98 ∧ bitsOf v 8 8 + 3 ≤ v % 256) ∧ (let v := 80 + 256 * 78; v % 256 < bitsOf v 8 8 + 3) ∧
    8 ≤ { s0.det with logSize := 8 }.logSize ∧ s0.det.logBase % 64 = 0 := by decide +kernel

theorem wit_PowerAndChipReset :
    s0.pwr.pwrOk = true ∧ { s0.pwr with pwrOk := false }.pwrOk = false ∧ (5 : Nat) ∈ [5] ∧ (5 : Nat) ∉ [3] ∧ s0.fault.srcs.length = 416 := by
  decide +kernel

theorem wit_Supplies :
    Live s0 ∧ (railOf s0 0).low = false ∧ 0 < s0.pwr.rails.length ∧
    (let s := setRail 0 { railOf s0 0 with low := true } s0
     (railOf s 0).low = true ∧ (railOf s 0).escalated = false ∧ (railOf s 0).since + 50000 ≤ (atDt 50000 s).dt ∧
     (atDt 49999 s).dt < (railOf s 0).since + 50000) := by
  refine ⟨live_s0, ?_⟩; decide +kernel

theorem wit_Dormancy :
    Live s0 ∧ s0.chain.head = true ∧ s0.net.state = 0 ∧ carouselBusy s0 = false ∧ accordLoading s0 = false ∧ dormantReady s0 = false ∧
    dormantReady { s0 with pwr := { s0.pwr with service := 4 } } = true ∧ s0.fault.evtEn = false := by
  refine ⟨live_s0, ?_⟩; decide +kernel

theorem wit_FaultEvents :
    Live s0 ∧ s0.fault.srcs.length = 416 ∧ silent s0 0 = false ∧ (srcOf s0 0).en = true ∧ (srcOf s0 0).lastDt = none ∧ s0.fault.prev = none ∧
    s0.fault.latch = none ∧ (srcOf s0 0).latch = true ∧ silent s0 13 = true ∧
    hubCycle 0 = hubCycle (atDt 0 (setSrc 0 { srcOf s0 0 with lastDt := some 0 } s0)).dt := by
  refine ⟨live_s0, ?_⟩; decide +kernel

theorem wit_UnitsOutAndBack :
    Blk.hub 16 ∉ s0.fault.blockReset ∧ Blk.hub 16 ∈ { s0.fault with blockReset := [.hub 16] }.blockReset ∧ (0 : Nat) ∉ s0.safety.pairsOut ∧ spareOf s0 0 = .unused ∧
    spareOf (setSpare 0 (.loading 2 2) s0) 0 = .loading 2 2 := by decide +kernel

theorem wit_RingmasterTick :
    s0.ringm.running = false ∧ (1000 : Nat) % 1000 = 0 ∧ delayList s0 = [] ∧
    (let s : State := { s0 with safety := { s0.safety with pairsOut := [0] }, ringm := { s0.ringm with running := true, slice := some (.pair 0, 25), deferrals := 63, threads := [(0, { state := 4, safety := true, wakeUs := 31 })] } }
     s.ringm.slice = some (.pair 0, 25) ∧ sliceFree s (.pair 0) = true ∧ ringCycle (atDt 1000 s) = none ∧ 64 ≤ s.ringm.deferrals + 1 ∧ s.ringm.starved = false ∧
     ((delayList s).any fun x => x.2.safety && decide (1 ≤ x.2.wakeUs) && decide (x.2.wakeUs = 1 + 25 + 5)) = true) := by
  decide +kernel

theorem wit_ThreadRelease :
    (let x : Thread := { state := 2, safety := true, latencyUs := 1, releasedAt := some 0 }
     x.releasedAt = some 0 ∧ x.safety = true ∧ x.latencyUs ≠ 0 ∧ x.state ≠ 3 ∧ 0 + 1000 * x.latencyUs < 1001) ∧
    s0.ringm.threads.filter (fun x => x.2.state == 5) = [] := by decide +kernel

theorem wit_KernelEntryCommands :
    (0 : Nat) < 8 ∧ (0 : Nat) ∉ s0.safety.pairsOut ∧ (threadOf s0 4095).state = 0 ∧ (4096 : Nat) ≤ 4096 ∧
    (threadOf (setThread 511 { state := 1 } s0) 511).state = 1 ∧ (threadOf (setThread 512 { state := 4 } s0) 512).state = 4 := by decide +kernel

theorem wit_KernelCreateRead :
    bitsOf (7 * 256 + 7 * 65536 + 1000 * 2 ^ 32) 8 8 = 7 ∧ bitsOf (7 * 256 + 7 * 65536 + 1000 * 2 ^ 32) 16 8 = 7 ∧
    bitsOf (7 * 256 + 7 * 65536 + 1000 * 2 ^ 32) 32 10 = 1000 ∧ 7 < bitsOf (8 * 256) 8 8 ∧ (threadOf s0 0).state = 0 := by decide +kernel

theorem wit_KernelSwitch :
    runningOf s0 0 = none ∧ runningOf (setThread 3 { state := 3 } s0) 0 = some 3 ∧ (6 : Nat) % 16 ≤ 6 ∧ (7 : Nat) % 16 > 6 ∧
    bitsOf (511 * 65536) 16 16 = 511 ∧ 511 < bitsOf (512 * 65536) 16 16 := by decide +kernel

theorem wit_NetFiring :
    Live sArmed ∧ sArmed.net.state = 1 ∧ netInForce sArmed sArmed.dt = some net0 ∧ netInForce sArmed 999 = some net0 ∧
    netInForce sArmed (atDt 1000 sArmed).dt = none ∧ lastExpired (atDt 1000 sArmed) = some net0 ∧
    (let s : State := { sArmed with net := { sArmed.net with state := 0 } }
     s.net.state = 0 ∧ (netInForce s (atDt 0 s).dt).isSome = true) ∧
    (let s := fireWith 1 net0 sArmed
     s.net.state = 2 ∧ (s.net.firing.map (fun f => f.tf + f.stopNs)) = some 400000000) := by
  refine ⟨⟨rfl, rfl⟩, ?_⟩; decide +kernel

theorem wit_HeartbeatsAndRequests :
    (let s : State := { s0 with net := { s0.net with hbArmed := true, cfg := some { hostHbUs := 1000, drvHbUs := 100 } } }
     s.net.hbArmed = true ∧ s.net.hbStart + 1000 * (netCfg s).hostHbUs ≤ (atDt 1000000 s).dt ∧
     ¬ (s.net.hbStart + 1000 * (netCfg s).hostHbUs ≤ (atDt 999999 s).dt) ∧ chanOn s 1 = true ∧ (netCfg s).drvHbUs ≠ 0 ∧
     (chanOf s 1).hbLapsed = false ∧ (chanOf s 1).hbLast + 1000 * (netCfg s).drvHbUs ≤ (atDt 100000 s).dt) ∧
    s0.net.chA.req = false ∧ s0.net.hbArmed = false := by decide +kernel

def netRule : KindRule := { code := 0x0B, control := true, anyStack := true }

theorem wit_NetControl :
    Admits netRule (dsc [(0, 1, 0x0B), (0x20, 1, 1)]) (tk (dsc [(0, 1, 0x0B), (0x20, 1, 1)]) s1) ∧ fld (dsc [(0, 1, 0x0B), (0x20, 1, 4)]) 0x20 1 = 4 ∧
    (let d := dsc [(0, 1, 0x0B), (8, 4, 20000), (0x0C, 4, 400000), (0x10, 4, 2000), (0x1C, 2, 8192), (0x1E, 2, 5000), (0x22, 1, 20), (0x23, 1, 3)]
     firstFail (cfgChecks (accepted d {} s1) d) = none) ∧ (firstFail (cfgChecks s1 (dsc [(0, 1, 0x0B)]))).isSome = true ∧
    { s1.net with state := 3 }.state = 3 := by
  refine ⟨admits_of (by decide +kernel), ?_⟩; decide +kernel

theorem wit_CertificationAndBanking :
    (let f : Frame := { frame0 with fr := some 1, mergeDone := true, retired := true, cert := some net0 }
     (withFrame f).frame.cur = some f ∧ f.certDone = false ∧ netBusy (applyLate (atDt 0 (withFrame f))) f = false ∧
     netBusy { withFrame f with net := { s0.net with state := 3 } } f = true ∧ derivedNet (withFrame f) f = none ∧
     (withFrame f).world.hazards = [] ∧ (((atDt 40000 (withFrame f)).dt : Int) ≥ f.tickDt + f.tLastRetire + certAllowance (withFrame f))) := by
  decide +kernel

theorem wit_Recertification :
    (let f : Frame := { frame0 with mergeDone := true }
     suspectNow s0 = false ∧ f.certFail = false ∧ f.goldenResult ≠ 1 ∧ frameEmpty f = true ∧ netBusy (withFrame f) f = false ∧
     validityEnd s0 net0 f.tickDt = none ∧ (withFrame f).net.recertTodo = []) ∧
    (let s : State := { sArmed with net := { sArmed.net with recertTodo := [7] } }
     s.net.state < 2 ∧ (banked s).find? (fun n => n.netId == 7) = some net0) ∧
    (netInForce sArmed sArmed.dt).any (fun x => x.netId == net0.netId) = true := by decide +kernel

theorem wit_SetpointFrames :
    (let s : State := { s0 with pwr := { s0.pwr with service := 3 } }
     frameDue s = true ∧ frameDue (atDt 1 s) = false ∧ replyBad 0 [] s = true ∧ sends s 1 = true ∧
     replyBad 0 (List.replicate 12 0 ++ leBytes 4 (crc32c (List.replicate 12 0))) s = false) := by decide +kernel

theorem wit_RemoteOperations :
    Memory.wf s0.cores.mem = true ∧ addrUnit (7 * 2 ^ 58) = s0.chain.unit ∧ addrError (atDt 0 s0) (.pair 0) 0 (7 * 2 ^ 58) 8 0 = none ∧
    addrError (atDt 0 s0) (.pair 0) 1 (7 * 2 ^ 58) 8 0 = none ∧ addrError (atDt 0 s0) (.pair 0) 5 (7 * 2 ^ 58) 8 0 = none := by decide +kernel

theorem wit_RemoteOperationsElsewhere :
    (addrError (atDt 0 s0) (.pair 0) 0 (7 * 2 ^ 58 + 4) 8 0).isSome = true ∧ coreReady s0 core0 = true ∧ coreReady s0 badCore = false ∧
    addrError (atDt 0 s0) (.core core0) 2 (7 * 2 ^ 58 + 4) 8 0 = some 100 ∧ addrError (atDt 0 s0) (.pair 0) 0 (7 * 2 ^ 58 + 2 ^ 61) 8 0 = some 153 ∧
    addrError { s0 with chain := { s0.chain with unitCount := 2 } } (.pair 0) 0 (7 * 2 ^ 58 + 2 ^ 61) 8 0 = none ∧
    addrUnit (7 * 2 ^ 58 + 2 ^ 61) ≠ s0.chain.unit := by decide +kernel

theorem wit_RingLinkFailover :
    (4 : Nat) ∉ s0.cores.hubRoute ∧ (7 : Nat) ∈ { s0.cores with hubRoute := [7] }.hubRoute ∧ (∀ i < 2, lookupO (5 + i) [(5, 10), (6, 11)] = some (10 + i)) ∧ lookupO (5 + 2) [(5, 10), (6, 11)] = none ∧
    2 ≤ [((5 : Nat), (10 : Nat)), (6, 11)].length := by decide +kernel

/-- A unit further down the chain. -/
def sDown : State := { s0 with chain := { s0.chain with head := false, addressed := false, state := 1, gen := 5 } }

theorem wit_ChainEnumeration :
    Live sDown ∧ sDown.chain.head = false ∧ sDown.chain.addressed = false ∧ tokenOk (tokenByte 6 5) sDown.chain.gen = true ∧
    tokenByte 6 5 % 16 + 1 ≤ 7 ∧ 7 < tokenByte 7 5 % 16 + 1 ∧ tokenOk (tokenByte 6 4) sDown.chain.gen = false ∧ frameRunning s0 = false ∧
    frameRunning (withFrame frame0) = true ∧ s0.chain.state ≠ 1 ∧ s0.chain.enumStart + 1000000 ≤ (atDt 1000000 s0).dt := by
  refine ⟨⟨rfl, rfl⟩, ?_⟩; decide +kernel

theorem wit_ChainLinks :
    (let s : State := { s0 with chain := { s0.chain with dn := { s0.chain.dn with state := 2 } } }
     (portOf s 1).state = 2 ∧ sillageDecode (zeros 32 ++ sillageCheck (zeros 32)) = .clean ∧ (portOf s 1).rxNext = 0 ∧ (portOf s 1).dropping = false) := by
  decide +kernel

theorem wit_RemoteRegisterAccess :
    (let s : State := { s0 with chain := { s0.chain with unitCount := 2, raccUnit := 1 } }
     s.chain.head = true ∧ s.chain.raccBusy = false ∧ s.chain.raccUnit < s.chain.unitCount ∧ s0.chain.raccUnit = 0 ∧
     { s.chain with raccUnit := 2 }.unitCount ≤ 2) := by decide +kernel

theorem wit_UnitControl :
    Admits { code := 0x0C, control := true } (dsc [(0, 1, 0x0C), (8, 1, 1), (0x0A, 2, 13)]) (tk (dsc [(0, 1, 0x0C), (8, 1, 1), (0x0A, 2, 13)]) s1) ∧
    firstFail (unitChecks (dsc [(0, 1, 0x0C), (8, 1, 1), (0x0A, 2, 13)])) = none ∧
    firstFail (unitChecks (dsc [(0, 1, 0x0C), (8, 1, 2), (9, 1, 1), (0x0C, 1, 4), (0x0D, 1, 15)])) = none ∧
    (firstFail (unitChecks (dsc [(0, 1, 0x0C), (8, 1, 1), (0x0A, 2, 11)]))).isSome = true ∧
    clusterOut { s1 with units := { s1.units with fenced := [63] } } 63 = true ∧ clusterOut s1 63 = false ∧
    [((1 : Nat), (0 : Nat))].find? (fun x => x.1 == 1) = some (1, 0) := by
  refine ⟨admits_of (by decide +kernel), ?_⟩; decide +kernel

theorem wit_Carousel :
    s0.net.state = 0 ∧ testable s0 (.pair 0) = false ∧
    (let s : State := { s0 with safety := { s0.safety with pairsOut := [0], prog := [(.pair 0, 31)] } }
     testable s (.pair 0) = true ∧ progOf s (.pair 0) = 31) ∧ 8 ≤ ((List.range 9).filter (fun c => (List.range 8).contains c)).length := by decide +kernel

theorem wit_Diag :
    Admits { code := 0x0D, anyStack := true } (dsc [(0, 1, 0x0D), (8, 8, 7 * 2 ^ 58), (0x18, 4, 32)]) (tk (dsc [(0, 1, 0x0D), (8, 8, 7 * 2 ^ 58), (0x18, 4, 32)]) s0) ∧
    firstFail (diagChecks (dsc [(0, 1, 0x0D), (8, 8, 7 * 2 ^ 58), (0x18, 4, 32)])) = none ∧
    firstFail (diagChecks (dsc [(0, 1, 0x0D), (0x18, 4, 16777216), (0x1C, 1, 2), (0x1D, 1, 4)])) = none ∧
    (firstFail (diagChecks (dsc [(0, 1, 0x0D), (0x18, 4, 33)]))).isSome = true ∧ (snapshotBytes 4 s0).length = 520 ∧
    Admits { code := 0x0D, control := true, anyStack := true } (dsc [(0, 1, 0x0D), (0x1C, 1, 1), (0x18, 4, 32)]) (tk (dsc [(0, 1, 0x0D), (0x1C, 1, 1), (0x18, 4, 32)]) s1) := by
  refine ⟨admits_of (by decide +kernel), by decide +kernel, by decide +kernel, by decide +kernel, by decide +kernel, admits_of (by decide +kernel)⟩

/-- A hazard record in host memory at 0: an add of radius 1. -/
def sHaz : State := { s0 with hostMem := memWrites [] 0 (bytesOf 32 [(0, 1, 1), (16, 4, 1)]) }

theorem wit_MapDescriptors :
    Admits { code := 1 } (dsc [(0, 1, 1), (0x10, 4, 0x80)]) (tk (dsc [(0, 1, 1), (0x10, 4, 0x80)]) s0) ∧ Admits { code := 2 } (dsc [(0, 1, 2), (0x14, 2, 1)]) (tk (dsc [(0, 1, 2), (0x14, 2, 1)]) s0) ∧
    Admits { code := 3 } (dsc [(0, 1, 3), (0x10, 2, 1)]) (tk (dsc [(0, 1, 3), (0x10, 2, 1)]) sHaz) ∧
    (reservedCheck (dsc [(0, 1, 1), (0x10, 4, 0x80)]) [(8, 8), (0x10, 4)]).1 = false ∧
    ingestHeaderOk (bytesOf 128 [(0, 1, 2), (8, 4, 1), (0x20, 4, 0x3F800000)]) = true ∧ hSource (bytesOf 128 [(0, 1, 2)]) < 4 ∧
    readPrims {} s0 1 0 0 0 = .error .short ∧
    (hostRead {} sHaz 0 32).map (fun b => (parseHaz 0 b).isSome) = some true ∧ parseHaz 0 (zeros 32) = none := by
  refine ⟨admits_of (by decide +kernel), admits_of (by decide +kernel), admits_of (by decide +kernel), by decide +kernel, by decide +kernel,
    by decide +kernel, rfl, by decide +kernel, by decide +kernel⟩

theorem wit_AtomiserAndSeal :
    Live s0 ∧ s0.world.groups = [] ∧ s0.world.sealWanted = none ∧ s0.world.sealing = none ∧ s0.world.fcastOwed = [] ∧
    (let g : Group := { wid := 1, kind := 0, first := 0, count := 1, c := 5, last := true }
     let s : State := { s0 with world := { s0.world with groups := [g], sealWanted := some 0 }, work := [work0 (.ingest { bufAddr := 0, hdr := [] })] }
     groupHeld { s with world := { s.world with sealWanted := none } } g = false ∧ (findWork s g.wid).isSome = true ∧
     g.c + 100000 < (atDt 100006 s).dt ∧ s.frame.tickDt < g.c + 20000) := by
  refine ⟨live_s0, ?_⟩; decide +kernel

/-- An Accord and a body in force. -/
def sPlan : State := { s0 with accord := some acc0, body := some body0, hostMem := [] }

theorem wit_PlanningDescriptors :
    Admits { code := 6 } (dsc [(0, 1, 6)]) (tk (dsc [(0, 1, 6)]) sPlan) ∧ Admits { code := 8 } (dsc [(0, 1, 8)]) (tk (dsc [(0, 1, 8)]) sPlan) ∧ Admits { code := 7, reduced := false } (dsc [(0, 1, 7)]) (tk (dsc [(0, 1, 7)]) sPlan) ∧
    firstFail (frameRunChecks (accepted (dsc [(0, 1, 6), (0x2C, 2, 1), (0x30, 2, 1)]) {} sPlan) (dsc [(0, 1, 6), (0x2C, 2, 1), (0x30, 2, 1)])) = none ∧
    firstFail (checkChecks sPlan (dsc [(0, 1, 8), (0x20, 4, 1), (0x2C, 2, 32)])) = none ∧ hasSection sPlan 2 = true ∧ hasSection sPlan 3 = true ∧
    hasSection sPlan 9 = true ∧ bodyReady sPlan 0 = true ∧ (frameClass sPlan 0).isSome = true ∧ acc0.solveStarts ≠ 0 ∧ cls0.solve = true := by
  refine ⟨admits_of (by decide +kernel), admits_of (by decide +kernel), admits_of (by decide +kernel), ?_⟩; decide +kernel

theorem wit_Loads :
    Admits { code := 4, control := true } (dsc [(0, 1, 4), (0x10, 4, 16)]) (tk (dsc [(0, 1, 4), (0x10, 4, 16)]) s1) ∧ Admits { code := 5, control := true } (dsc [(0, 1, 5)]) (tk (dsc [(0, 1, 5)]) s1) ∧
    (reservedCheck (dsc [(0, 1, 4), (0x10, 4, 16)]) [(8, 8), (0x10, 4)]).1 = false ∧ fieldN (bytesOf 16 [(0, 1, 3)]) 0 1 = 3 ∧
    bodyFitsNow sPlan body0 = true ∧ imageOk { acc0 with magic := 0 } = false ∧ accordCopying s0 = none := by
  refine ⟨admits_of (by decide +kernel), admits_of (by decide +kernel), ?_⟩; decide +kernel

theorem wit_Optimisations :
    (let s : State := { sPlan with opts := [opt0], work := [work0 (.frameRun fr0)] }
     findOpt s 1 0 = some opt0 ∧ findWork s 1 = some (work0 (.frameRun fr0)) ∧ (optClass s 1).isSome = true ∧
     deadlinePassed opt0 99 = false ∧ deadlinePassed opt0 100 = true ∧ opt0.started = false ∧ opt0.stop = none) := by decide +kernel

theorem wit_NetworksAndRows :
    netOf s0 0 0 = none ∧ finishedRun s0 .forecast = none ∧ findWork s0 1 = none ∧
    (let s : State := { s0 with world := { s0.world with fcastOwed := [(0, 0, 50, 16, 128)] }, frame := { s0.frame with tickDt := 1 } }
     (∃ o ∈ s.world.fcastOwed, o.2.1 < s.frame.tickDt) ∧ s.world.fcastLate ≠ s.frame.tickDt) := by decide +kernel

theorem wit_PlanningFrame :
    Live s0 ∧ tickDue 0 s0 = false ∧ tickDue 10000000 { s0 with pwr := { s0.pwr with service := 3 } } = true ∧
    accordPassed s0 = none ∧ stackLost s0 = false ∧ chainHold s0 = false ∧
    (let f : Frame := { frame0 with fr := some 1, retired := true }
     let s : State := { withFrame f with accord := some acc0, work := [work0 (.frameRun fr0)] }
     admitted s f = [work0 (.frameRun fr0)] ∧ (netCfg s).advisory = false ∧ boundaryDue s f = false ∧ boundaryDue s frame0 = true ∧
     readyToPublish s f = false ∧ readyToPublish s { f with mergeDone := true, certDone := true } = true ∧
     (runOf s f).isSome = true ∧ (classOf s fr0.optClass).isSome = true) := by
  refine ⟨live_s0, ?_⟩; decide +kernel

theorem wit_HostInterfaceResets : Live s0 ∧ s0.pcie.perst = false ∧ s0.work = [] := ⟨live_s0, rfl, rfl⟩

theorem wit_VoltageAndGovernor :
    Live s0 ∧ s0.frame.cur = none ∧ (withFrame frame0).frame.cur = some frame0 ∧ 10 * s0.pwr.limit < 1801 ∧ 1710 * 10 ≤ 95 * s0.pwr.limit ∧
    95 * s0.pwr.limit < 1711 * 10 ∧ { s0.pwr with clock := 1425 }.clock > 1400 := by
  refine ⟨live_s0, ?_⟩; decide +kernel

theorem wit_Temperature :
    Live s0 ∧ s0.pwr.service ≠ 7 ∧ s0.temp.temps.length = 9 ∧ s0.boot.authFail = false ∧ s0.boot.strapErr = false ∧
    { s0.pwr with service := 7 }.service = 7 ∧ s0.temp.trip.getD 0 false = false ∧
    { s0.temp with trip := true :: s0.temp.trip.tail }.trip.getD 0 false = true := by
  refine ⟨live_s0, ?_⟩; decide +kernel

theorem wit_Monitors :
    Live s0 ∧ (979999 < 1000000 - 10000 * 2) ∧ ¬ (980000 < 1000000 - 10000 * 2 ∨ 1000000 + 10000 * 2 < 980000) ∧ s0.chain.head = true ∧
    { s0.clk with refclkMon := true }.refclkMon = true ∧ { s0.safety with injFailed := [] }.injFailed = [] ∧
    (let s : State := { s0 with safety := { s0.safety with ctrl := { s0.safety.ctrl with scrubEn := true, injectEn := true }, injecting := some 0 } }
     s.safety.ctrl.scrubEn = true ∧ s.safety.injecting = some 0 ∧ injects (atDt 10000 s) (.temp 8) = true ∧ 0 + 10000 ≤ (atDt 10000 s).dt ∧
     InjChecker.temp 8 ∉ s.safety.injFailed) := by
  refine ⟨live_s0, ?_⟩; decide +kernel

theorem wit_Boot :
    Live s0 ∧ s0.pwr.service = 0 ∧ s0.boot.sampled = false ∧ s0.boot.stage2 = false ∧ s0.boot.hostGo = false ∧ s0.net.state = 0 ∧
    (let b := { s0.boot with sampled := true, bootSrc := 0, hostWaiting := true, imgAddr := 8, imgLen := 983552, stage2 := true, imgRollback := 1 }
     b.sampled = true ∧ b.hostWaiting = true ∧ b.imgAddr % 8 = 0 ∧ b.imgLen ≤ 983552 ∧ b.otpRollback < b.imgRollback) := by
  refine ⟨live_s0, ?_⟩; decide +kernel

theorem wit_LevelSources :
    Live s0 ∧ isStackLost 20 = false ∧ isStackLost 114 = true ∧ (20 : Nat) ∉ s0.fault.levels ∧ (114 + 4 * 3 : Nat) ∉ s0.fault.levels ∧
    (∀ k ∈ [0, 111, 128], (k : Nat) < 112 ∨ 128 ≤ k) := by
  refine ⟨live_s0, ?_⟩; decide +kernel

theorem wit_CollectorAccess :
    Live s0 ∧ s0.fault.srcs.length = 416 ∧ (srcOf (setSrc 415 { srcOf s0 415 with sticky := true } s0) 415).sticky = true ∧
    bitOf (2 ^ 31) (415 % 32) = true ∧ 415 / 32 = 12 ∧ (srcDefault 0).isSome = true ∧ srcDefault 159 = none ∧ s0.fault.levels = [] := by
  refine ⟨live_s0, ?_⟩; decide +kernel

theorem wit_SequencerSteps :
    Live s0 ∧ coreReady s0 core0 = true ∧ signalWord s0 core0 0 < 1 ∧ 0 ≤ signalWord s0 core0 511 ∧
    lookupD (1 - 1) (coreSt s0 core0).pos (coreSt s0 core0).loops = 0 ∧ lookupD (3 - 1) (coreSt s0 core0).pos (coreSt s0 core0).loops = 1 + 1 ∧
    (coreSt s0 core0).pivotFailed = false ∧ findOpt s0 1 0 = none ∧
    (let s : State := setCore core0 { coreSt s0 core0 with pivotFailed := true, retries := 2 } { s0 with opts := [{ opt0 with started := true }] }
     coreReady s core0 = true ∧ (coreSt s core0).pivotFailed = true ∧ 2 ≤ (coreSt s core0).retries ∧
     (findOpt s 1 0).map (fun o => o.started && o.stop.isNone) = some true) := by
  refine ⟨live_s0, ?_⟩; decide +kernel

theorem wit_EngineSteps :
    Live s0 ∧ coreReady s0 badCore = false ∧ coreReady s0 core0 = true ∧ poisonIn s0 (coreAddr core0 0) 8 = none ∧
    poisonIn (addPoison s0 (coreAddr core0 0) 8 100) (coreAddr core0 0) 8 = some 100 := by
  refine ⟨live_s0, ?_⟩; decide +kernel

theorem wit_ChainTime :
    Live s0 ∧ s0.chain.head = true ∧ (atDt 0 s0).dt + 10000 ≤ 10000 ∧ 9999 < (atDt 0 s0).dt + 10000 ∧
    (let c := { s0.chain with head := false, addressed := true, announce := some (5, 1, 1000), pulses := List.replicate 15 0 }
     c.head = false ∧ c.addressed = true ∧ c.announce = some (5, 1, 1000) ∧ c.aligned = false ∧ (c.pulses ++ [0]).length = 16) := by
  refine ⟨live_s0, ?_⟩; decide +kernel

/-- Several of the flags at once, with the Net in force: what `react` is given at ARMED. -/
theorem wit_ReactionSets : (match sArmed with | s => (fireNet 2 s).net.state == 2 && (s.net.state == 1)) = true := by decide +kernel

/-! ## Witnesses of single clauses -/

/-- An image of two 8-byte stages whose signature verifies: version 2, the numbers of key and signature big-endian. -/
def img1 : BootImg :=
  { bytes := bytesOf 528 [(0, 4, 2), (5, 4, 8), (9, 4, 8),
      (13, 48, 2396738642935105968843804675189332666030183286839334895520006710620391888402392060938462701240151971987393394584078),
      (61, 48, 1339271377613502327717223273539655587722178895538374798982973940594679273266595640559204772501540032287921258733419),
      (109, 48, 36455278620298996296711297402786194240663760701716890679708342874247449500181194983328956597734519492803641727577690),
      (157, 48, 29330065949954393040984974550617775641227531171934567357404442776397650951439749549692466458954972100049286454199286),
      (512, 8, 0x0101010101010101), (520, 8, 0x0202020202020202)], auth1 := true }

/-- A part that holds the hash of that image's key. -/
def boot1 : Boot := { s0.boot with sampled := true, otpKeyHash := sha384 (imgKey img1) }

theorem test_image_verifies : imgVerifies img1 = true := by decide +kernel

/-- A changed byte of stage 2 breaks the signature. -/
theorem test_image_altered : imgVerifies { img1 with bytes := patchAt img1.bytes 520 [0] } = false := by decide +kernel

/-- The hash of "abc" as the standard that 16 R490 names gives it. -/
theorem test_sha384 : beNat (sha384 [0x61, 0x62, 0x63]) =
    0xcb00753f45a35e8bb5a03d699ac65007272c32ab0eded1631a8b605a43ff5bed8086072ba1e7cc2358baeca134c825a7 := by decide +kernel

theorem wit_Boot_secure :
    boot1.sampled = true ∧ boot1.stage2 = false ∧ boot1.bootSrc = 0 ∧ boot1.hostGo = false ∧ boot1.hostWaiting = false ∧
    stage1Ok boot1 img1 = true ∧ imgOk boot1 img1 = true ∧ stage1Ok s0.boot img1 = false ∧ imgOk s0.boot img1 = false ∧
    imgVersion { img1 with bytes := patchAt img1.bytes 0 [1] } < imgVersion img1 := by decide +kernel

theorem wit_Supplies_held :
    (let s := setRail 9 { railOf s0 9 with low := true } { s0 with pwr := { s0.pwr with supplyHeld := true } }
     s.pwr.heldReset = false ∧ s.pwr.supplyHeld = true ∧ (railOf s 9).low = true ∧ ∀ k < 9, (railOf s k).low = false) ∧
    { s0.pwr with service := 5 }.service = 5 := by decide +kernel

theorem wit_Monitors_power :
    (let s : State := { s0 with boot := { s0.boot with stage2 := true } }; s.boot.stage2 = true ∧ s.pwr.service ≠ 5) ∧ s0.boot.stage2 = false := by
  decide +kernel

def sph1 : Sph := { link := 0, radius := 32, c := [0, 0, 0] }
def body1 : Body := { body0 with spheres := [sph1] }
def k0 : Knot := { x := 655360, y := 655360, z := 0, yaw := 0, quat := [], joints := [] }

/-- A class of one knot interval that the bodies of `sCert` stand still in. -/
def cls1 : PClass := { h := 2, nx := 0, nu := 0, dk := 1000000000 }
def acc1 : Accord := { acc0 with classes := [cls1], perturb := [{ sigma := 0x3F800000, lateral := 0, ramp := 0, jointRow := 0, startOffset := 0, cost := 0 }] }
def cfg1 : NetCfg := { stopTimeUs := 1000, sampleStepUs := 5000 }

/-- A frame whose best candidate stands still at (10 m, 10 m) in an empty map that is sealed. -/
def fCert : Frame :=
  { frame0 with
    body := some body1, cfg := cfg1, fr := some 1, mergeDone := true, retired := true,
    merged := [(1, { entries := [{ u := 0, index := 0, key := 0 }] })] }

def sCert : State :=
  { sPlan with
    accord := some acc1, body := some body1, world := { sPlan.world with fl := { blocking := false } },
    frame := { sPlan.frame with cur := some fCert }, opts := [opt0],
    work := [work0 (.frameRun { fr0 with meas := { meas0 with ax := 655360, ay := 655360 } })] }

/-- Every hypothesis of a passing and of a failing certification at once: the Net, its validity end and its queries, CLEAR and not. -/
def certWitness (s : State) : Option (Bool × Bool × Bool) :=
  match derivedNet s fCert with
  | some n => (match validityEnd s n fCert.tickDt with
    | some e => (certEval n e [] s).map fun r => (r.ok, copiesOk s 0 r, copiesOk s 1 r)
    | none => none)
  | none => none

theorem wit_CertificationAndBanking_queries :
    certWitness sCert = some (true, true, false) ∧ (certWitness { sCert with world := s0.world }).map (fun x => x.1) = some false ∧
    suspectNow sCert = false ∧ netBusy sCert fCert = false ∧ fCert.goldenResult ≠ 1 ∧ fCert.certFail = false ∧
    (let h : Haz := { id := 1, cx := 655360, cy := 655360, cz := 0, r := 1, expire := 0, ord := 3 }
     h.ord = 3 ∧ (∀ g ∈ net0.hazTested, g.ord ≠ h.ord) ∧ netHit { net0 with boxes := [[655360, 655360, 0, 655361, 655361, 1]] } h = true ∧
     netHit net0 h = false) := by decide +kernel

theorem wit_Recertification_queries :
    (let n : NetRec := { net0 with knots := [some k0, some k0], dk := 1000000000, stopTimeUs := 1000, stepUs := 5000, kind := 1 }
     (validityEnd sCert n 0).isSome = true ∧ (certEval n n.e [] sCert).map (fun r => (r.ok, copiesOk sCert 0 r)) = some (true, true) ∧
     (certEval n n.e [] { sCert with world := s0.world }).map (fun r => (r.ok, r.hit)) = some (false, false) ∧ certUnitLost sCert = false ∧
     certUnitLost (withFrame { frame0 with certFail := true }) = true ∧ { cfg1 with strict := true }.strict = true) := by decide +kernel

theorem wit_RemoteOperationsElsewhere_full :
    (coreSt s0 core0).out < 64 ∧ 64 ≤ (coreSt (setCore core0 { coreSt s0 core0 with out := 64 } s0) core0).out ∧
    (let s := setCore core0 { coreSt s0 core0 with out := 1 } s0; (coreSt s core0).out ≠ 0 ∧ (coreSt s core0).stopped = false) := by decide +kernel

theorem wit_ChainTime_announce :
    (let s : State := { s0 with pwr := { s0.pwr with service := 3 } }
     s.dt + 10000 ≤ 10000000 ∧ tickDue 10000000 s = true ∧ tickDue 1 s = false) := by decide +kernel

theorem wit_ChainLinks_failed :
    (let s : State := { s0 with chain := { s0.chain with up := { s0.chain.up with state := 1, fails := 2 } } }
     (portOf s 0).state = 1 ∧ 2 ≤ (portOf s 0).fails ∧ (portOf s0 0).fails < 3) := by decide +kernel

/-- A SPHERE record of radius 1 mm at 0 in host memory. -/
def sPrim : State := { s0 with hostMem := memWrites [] 0 (bytesOf 48 [(0, 4, 1), (4, 1, 1), (6, 1, 1), (0x20, 4, 1)]) }

theorem wit_MapDescriptors_hazards :
    (match readPrims {} sPrim 1 0 48 0 with | .ok l => l.length == 1 | .error _ => false) = true ∧
    lateForTick s0 0 = false ∧ primsWaiting s0 = false ∧ forecastLoaded s0 = false ∧
    forecastLoaded { s0 with accord := some { acc0 with nets := [{ role := .forecast, safety := false, tr := false, layers := [], inputs := [], outputs := [], outIdx := [] }] } } = true ∧
    lateForTick { s0 with pwr := { s0.pwr with service := 3 }, frame := { s0.frame with ticking := true, tickDt := 0 } } 990000 = true ∧
    ((List.range 257).foldl (fun l i => hazIds l 1 i) []).length = 257 ∧ ((List.range 256).foldl (fun l i => hazIds l 1 i) []).length = 256 := by
  decide +kernel

/-- A network of one layer with one input and one output word. -/
def net1 : NetDecl :=
  { role := .general, safety := true, tr := true, layers := [{ op := .reshape, ins := [0], fmt := 2, shape := [1] }],
    inputs := [{ source := 6, fmt := 2, shape := [1] }], outputs := [{ source := 0, fmt := 2, shape := [1] }], outIdx := [0] }

def sSolo : State := { sPlan with accord := some { acc0 with classes := [{ cls0 with h := 1 }], nets := [net1] } }

theorem wit_PlanningDescriptors_standalone :
    (let d := dsc [(0, 1, 7), (0x20, 4, 352), (0x24, 4, 4096), (0x2C, 2, 1)]
     Admits { code := 7, reduced := false } d (tk d sSolo) ∧ targetPast sSolo d = false ∧ probBytes false (some { cls0 with h := 1 }) ≤ fld d 0x20 4 ∧
     (reservedCheck d [(8, 0x28)]).1 = false ∧ probOk false (some { cls0 with h := 1 }) (zeros 352) = true ∧
     0x40 + 1 * solveResultBytes { cls0 with h := 1 } ≤ fld d 0x24 4) ∧
    (let d := dsc [(0, 1, 9), (0x28, 4, 1), (0x2C, 4, 8), (0x30, 4, 96), (0x34, 2, 1), (0x36, 2, 1)]
     Admits { code := 9, reduced := false } d (tk d sSolo) ∧ fld d 0x28 4 * (keyBits (fld d 0x3A 1) / 8) ≤ fld d 0x2C 4 ∧
     (reservedCheck d [(8, 0x34)]).1 = false ∧ 64 + fld d 0x36 2 * (16 + 16 * fld d 0x34 2) ≤ fld d 0x30 4) ∧
    (let d := dsc [(0, 1, 0x0A), (0x20, 4, 64), (0x24, 4, 256), (0x28, 2, 1)]
     Admits { code := 0x0A, reduced := false } d (tk d sSolo) ∧ fld d 0x28 2 * inputSet net1 ≤ fld d 0x20 4 ∧
     (reservedCheck d [(8, 0x24)]).1 = false ∧ 64 + fld d 0x28 2 * runBytes net1 false ≤ fld d 0x24 4) := by
  refine ⟨⟨admits_of (by decide +kernel), ?_⟩, ⟨admits_of (by decide +kernel), ?_⟩, ⟨admits_of (by decide +kernel), ?_⟩⟩ <;> decide +kernel

theorem wit_Loads_bodies :
    (let h := bytesOf 16 [(0, 1, 1), (1, 1, 1), (4, 2, 1)]; let b := bytesOf 16 [(2, 2, 1)]
     (match buildBody h b with | .ok x => bodyFitsNow sPlan x && !bodyFitsNow { sPlan with accord := some { acc0 with baseKind := 0 } } x | .error _ => false) = true ∧
     (match buildBody h (zeros 16) with | .ok _ => false | .error _ => true) = true) ∧
    (match parseAll (fun _ => parseSphere 0) (bytesOf 16 [(2, 2, 1)]) 0 16 0 1 with
     | .ok l => payloadFits body0 l && !payloadFits { body0 with spheres := List.replicate 256 sph1 } l &&
        bodyFitsNow sPlan { body0 with payload := l } | .error _ => false) = true ∧
    bodyFitsNow sPlan { body0 with payload := [] } = true ∧
    (let im := { acc0 with imageBytes := 128, hash := sha384 (zeros 128) }
     let w := work0 (.accord im 0 .copying (false, 4096))
     let s : State := { s0 with work := [w] }
     accordCopying s = some (w, im, 0, (false, 4096)) ∧ sha384 (patchAt (imageBytesAt s (false, 4096) 128) 0x20 (zeros 48)) = im.hash ∧
     sha384 (patchAt (imageBytesAt s (false, 4096) 128) 0x20 (zeros 48)) ≠ acc0.hash ∧ (1 : Nat) ≠ im.hash64) := by decide +kernel

theorem wit_Optimisations_classes :
    (let s : State := { sPlan with opts := [opt0], work := [work0 (.frameRun fr0)] }
     (optIn cls0 s 1 0).isSome = true ∧ (findOpt { s with opts := [{ opt0 with started := true, stop := some 2 }] } 1 0).map (fun o => o.stop) = some (some 2)) ∧
    (let r : OuterResult := { inner := 3, retries := 0, factorFail := false, infeasible := false, z := [0], mult := [], residual := 0, merit := 0, trace := [] }
     (outerStep cls0 opt0 r).outer = opt0.outer + 1 ∧ (outerStep cls0 opt0 r).stop = some 0 ∧
     (outerStep cls0 opt0 { r with infeasible := true }).stop = some 4 ∧ (outerStep cls0 opt0 { r with factorFail := true }).stop = some 5 ∧
     (outerStep cls0 opt0 { r with z := [0x7F800000] }).stop = some 3 ∧
     (outerStep { cls0 with outerCap := 1 } opt0 { r with residual := 0x3FF0000000000000 }).stop = some 1 ∧
     (outerStep cls0 opt0 { r with residual := 0x3FF0000000000000 }).stop = none) := by decide +kernel

def run1 : NetRun := { wid := 1, run := 0, net := 0, frame := 0, dual := true, clusters := [], cores := [], ins := [some [5]] }

/-- A TENSOR_RUN of `net1` with one run in progress. -/
def sRun : State :=
  { sSolo with netRuns := [run1], work := [work0 (.tensorRun { target := 0, net := 0, writeDigests := false, runCount := 1, inAddr := 0,
                                                                  outAddr := 0, todo := [], running := [(0, 7)] })] }

theorem wit_NetworksAndRows_runs :
    netOf sRun 1 0 = some net1 ∧ findRun sRun 1 0 0 = some run1 ∧ runFinal sRun run1 = false ∧ runFinal sRun { run1 with final := 1 } = true ∧
    run1.mismatch = none ∧ copyDigest net1 (withHistory sRun run1) 1 0 = none ∧ (copyDigest net1 (withHistory sRun run1) 0 0).isSome = true ∧
    (copyDigest net1 (withHistory sRun run1) 0 0 != copyDigest net1 (withHistory sRun run1) 0 1) = true ∧
    (findWork sRun 1).isSome = true ∧ lookupO 0 [((0 : Nat), (7 : Nat))] = some 7 ∧
    (let sl : SlWork := { target := 0, keyType := 0, order := 0, explicitIdx := false, k := 1, rowCount := 1, rowLen := 1, rowStride := 8,
                          keyAddr := 0, idxAddr := 0, resultAddr := 0, todo := [], running := [(0, 0)] }
     (∃ r ∈ sl.running, r.1 = 0) ∧ hostRead {} s0 (sl.keyAddr + 0 * sl.rowStride) (sl.rowLen * (keyBits sl.keyType / 8)) ≠ none ∧
     hostRead { bad := [(0, 8)] } s0 0 4 = none) := by decide +kernel

/-- A FORECAST and a PROPOSAL network of a frame whose runs are final. -/
def sNets : State :=
  { sCert with
    accord := some { acc1 with nets := [{ net1 with role := .forecast, outputs := [{ source := 0, fmt := 2, shape := [1, 256, 256] }] },
                                        { net1 with role := .proposal, nProp := 1, outputs := [{ source := 0, fmt := 7, shape := [1, 1, 0] }] }] },
    netRuns := [{ run1 with wid := 0, run := 5, frame := 5, final := 1 }, { run1 with wid := 0, run := 5, net := 1, frame := 5, final := 1 }],
    world := { sCert.world with fcastOwed := [(5, 0, 50, 1, 128)], sealWanted := some 0 } }

theorem wit_NetworksAndRows_frame :
    (finishedRun sNets .forecast).map (fun x => x.1.frame) = some 5 ∧ (finishedRun sNets .proposal).map (fun x => x.1.frame) = some 5 ∧
    sNets.world.fcastOwed.find? (fun o => o.1 == 5) = some (5, 0, 50, 1, 128) ∧ (frameWork sNets).isSome = true ∧
    (classOf sNets fr0.optClass).isSome = true ∧ fCert.proposalState = 0 ∧ fCert.number = 5 := by decide +kernel

/-- The stacks have trained, so that the context table is ready (16 R493). -/
theorem wit_ContextCommands_ready :
    (let s : State := { s0 with boot := { s0.boot with stacksTrained := true } }
     s.pwr.heldReset = false ∧ s.chain.head = true ∧ s.boot.stacksTrained = true ∧ s.hostq.busyUntil ≤ (atDt 0 s).dt ∧ (ctxOf s 0).state = 0 ∧
     (atDt 0 { s with hostq := { s.hostq with busyUntil := 1 } }).dt < 1) ∧ s0.boot.stacksTrained = false ∧
    (ctxOf { s0 with hostq := { s0.hostq with ctxs := [(0, { state := 2, inFlight := [3] })] } } 0).inFlight ≠ [] := by decide +kernel

theorem wit_BarAccesses_endpoint :
    (s0.chain.head = true ∧ s0.pcie.perst = false) ∧ ¬ ({ s0.chain with head := false }.head = true ∧ s0.pcie.perst = false) ∧
    poisonRead (atDt 0 s0) (bar2Addr s0 0) 4 [] = [] := by decide +kernel

theorem wit_HostInterfaceResets_downstream :
    s0.chain.head = true ∧ { s0.chain with head := false }.head = false ∧ { s0.pcie with perst := true }.perst = true := by decide +kernel

theorem wit_Supplies_under :
    (let s := setRail 9 { railOf s0 9 with low := true, under := true } { s0 with pwr := { s0.pwr with supplyHeld := true } }
     s.pwr.heldReset = false ∧ s.pwr.supplyHeld = true ∧ (railOf s 9).low = true ∧ (∀ k < 9, (railOf s k).under = false) ∧
     (railOf (setRail 3 { railOf s 3 with under := true } s) 3).under = true) ∧
    (let s : State := { s0 with pwr := { s0.pwr with heldReset := true } }; s.pwr.heldReset = true ∧ s.pwr.pwrOk = true ∧ s.pwr.service ≠ 5) ∧
    (let s : State := { s0 with pwr := { s0.pwr with heldReset := true, pwrOk := false } }; s.pwr.heldReset = true ∧ s.pwr.pwrOk = false) := by
  decide +kernel

theorem wit_VoltageAndGovernor_setpoints :
    (let p := { s0.pwr with raised := [true, false, false, false], thrNext := [none, some (44, 7), none, none], vsetWant := [none, none, none, some 50] }
     p.raised.getD 0 false = true ∧ p.raised.getD 1 false = false ∧ p.thr.length = 4 ∧ p.vset.length = 4 ∧ p.vsetWant.getD 1 none = none ∧
     p.thrNext.getD 1 none = some (44, 7) ∧ p.vsetWant.getD 3 none = some 50 ∧ (10 * p.limit < 1801 ∧ p.clock ≤ p.fFrame)) ∧
    (let s : State := { withFrame frame0 with pwr := { s0.pwr with clock := 1425, fFrame := 1400 } }
     s.frame.cur ≠ none ∧ 10 * s.pwr.limit < 1801 ∧ s.pwr.fFrame < s.pwr.clock) := by decide +kernel

theorem wit_Temperature_halted :
    (let s : State := { s0 with pwr := { s0.pwr with service := 7 }, temp := { s0.temp with tripped := true, temps := List.replicate 9 800 } }
     s.pwr.service = 7 ∧ s.temp.tripped = true ∧ s.temp.temps.length = 9 ∧ (∀ k < 9, k ≠ 0 → -32768 < s.temp.temps.getD k 0 ∧ s.temp.temps.getD k 0 < 1440)) ∧
    ((s0.pwr.service = 5 ∨ s0.boot.stage2 = false) ∧ 1 ≤ 4 ∧ 4 ≤ 4) ∧ ¬ (1 ≤ 0 ∧ 0 ≤ 4) := by decide +kernel

theorem wit_Boot_ready :
    (let s : State := { s0 with pwr := { s0.pwr with service := 1 }, boot := { s0.boot with stage2 := true, otpRollback := 3, imgRollback := 4 },
                                safety := { s0.safety with startDone := [0] } }
     s.pwr.service = 1 ∧ s.boot.stage2 = true ∧ (0 : Nat) ∈ s.safety.startDone ∧ s.boot.otpRollback < s.boot.imgRollback) ∧
    ¬ (s0.pwr.service = 1) ∧ (sArmed.net.state ≠ 0 ∧ sArmed.net.state ≠ 3) ∧ s0.boot.imgRollback ≤ s0.boot.otpRollback := by decide +kernel

/-- A level source of 14 R420 whose condition lasts, and one whose condition does not. -/
theorem wit_FaultEvents_level :
    srcLevel 48 = true ∧ srcLevel 0 = false ∧ isStackLost 48 = false ∧ (48 : Nat) ∉ s0.fault.levels ∧ (48 : Nat) ∈ { s0.fault with levels := [48] }.levels ∧
    silent (atDt 0 s0) 48 = false ∧ (srcOf s0 48).en = true ∧ (srcOf (setSrc 0 { srcOf s0 0 with en := false } s0) 0).en = false := by decide +kernel

theorem wit_CollectorAccess_level :
    (let s := setSrc 48 { srcOf s0 48 with sticky := true } { s0 with fault := { s0.fault with levels := [48] } }
     48 ∈ s.fault.levels ∧ (srcOf s 48).sticky = true ∧ sameCycle (srcOf s 48) (max s.dt 0) = false ∧
     (∀ k ∈ s.fault.levels, k / 32 ≠ 0 ∨ bitOf 1 (k % 32) = false)) ∧
    (let s := setSrc 0 { srcOf s0 0 with sticky := true, lastDt := some 0 } s0
     (srcOf s 0).sticky = true ∧ sameCycle (srcOf s 0) (max s.dt 0) = true) := by decide +kernel

/-- The first event of a hub cycle, and one that is not. -/
def cyc0 : RingCycle := { cycle := 0, events := [.tick 0], threads := [], ready := [], seqCtr := 0, late := 0, args := [], results := [] }
def sCyc : State := { s0 with ringm := { s0.ringm with running := true, cyc := some cyc0 } }

theorem wit_Ringmaster_cycles :
    ringCycle (atDt 0 s0) = none ∧ ringCycle (atDt 0 sCyc) = some cyc0 ∧ ringCycle (atDt 1000 sCyc) = none ∧ (0 : Nat) ∉ sCyc.safety.pairsOut ∧
    [REvent.tick 0, REvent.word 3 7].Pairwise (fun a b => eventOrder a ≤ eventOrder b) ∧
    delayList (atDt 1000 sCyc) = [] ∧ sCyc.ringm.slice = none ∧ sCyc.ringm.late ≤ 65535 ∧
    (let s : State := { s0 with ringm := { s0.ringm with slice := some (.mapCache 1, 25) } }; sliceFree s (.mapCache 1) = false) ∧
    (let x : Thread := { state := 2, safety := true, latencyUs := 1, releasedAt := some 0 }; x.releasedAt = some 0 ∧ 1000 ≤ 0 + 1000 * x.latencyUs) := by
  decide +kernel

/-- Pair 0, then pair 1. -/
theorem wit_UnitsOutAndBack_pairs :
    (let s : State := { s0 with safety := { s0.safety with pairsOut := [0] } }
     (1 : Nat) ∉ s.safety.pairsOut ∧ (0 : Nat) ∈ s.safety.pairsOut ∧ ringCycle (raise 1 0 0 { atDt 0 s with safety := { s.safety with pairsOut := [0, 1] } }) = none) := by
  decide +kernel

/-- Sources that may issue, one that has a write under way, and a pair out of service. -/
theorem wit_RemoteOperations_sources :
    (let src := OpSrc.core core0
     coreReady s0 core0 = true ∧ (coreSt s0 core0).out < 64 ∧ src ∉ s0.cores.outW ∧ src ∈ { s0.cores with outW := [src] }.outW ∧
     localOk src 1 8 0 = true ∧ addrError (atDt 0 s0) src 0 (coreAddr core0 331776) 8 0 = none ∧
     addrError (atDt 0 s0) src 2 (coreAddr core0 331776) 8 0 = none ∧ addrError (atDt 0 s0) src 6 (coreAddr core0 327680) 8 0 = none ∧
     addrUnit (coreAddr core0 331776) = s0.chain.unit ∧ addrError (atDt 0 s0) src 2 (7 * 2 ^ 58) 8 0 = some 100 ∧
     addrError (atDt 0 s0) (.pair 0) 6 0 8 0 = none ∧ placeOf 0 = some (.hub 0)) ∧
    (0 : Nat) ∉ s0.safety.pairsOut ∧ (0 : Nat) ∈ { s0.safety with pairsOut := [0] }.pairsOut := by decide +kernel

theorem wit_SequencerSteps_running :
    (let s : State := { s0 with opts := [{ opt0 with started := true }] }
     coreOk s core0 = true ∧ (coreSt s core0).stopped = false ∧ (coreOpt s core0).isSome = true ∧
     (coreOpt s core0).map (fun o => deadlinePassed o (atDt 100 s).dt) = some true ∧
     (coreOpt s core0).map (fun o => deadlinePassed o (atDt 0 s).dt) = some false) ∧
    coreOpt s0 core0 = none := by decide +kernel

theorem wit_EngineSteps_ranges :
    (let op := EngineOp.vector .add 2 0 8 0 16
     ((engineReads s0 core0 [] op).filter (fun r => r.2 != 0)).all (fun r => decide (r.1 + r.2 ≤ 786432)) = true ∧
     (engineOut s0 core0 [] op).writes.all (fun w => decide (w.1 + w.2.length ≤ 786432)) = true) ∧
    ((engineReads s0 core0 [] (.vector .add 2 786428 8 0 16)).filter (fun r => r.2 != 0)).all (fun r => decide (r.1 + r.2 ≤ 786432)) = false ∧
    (let s : State := { sCert with accord := some { acc1 with certCores := [core0] },
                                   frame := { sCert.frame with cur := some { fCert with certDone := false } }, opts := [] }
     certifying s core0 = true ∧ s.frame.cur.isSome = true) := by decide +kernel

theorem wit_RingLinkFailover_order :
    (let d : RingDir := { txNext := 9, unacked := [(7, 0, 0), (8, 0, 0)] }
     let un := d.unacked.filter fun f => decide ((atDt 100 s0).dt < f.2.1 + 200)
     un.map (fun f => f.1) = List.range' (d.txNext - un.length) un.length ∧ un.length ≤ d.txNext) ∧ (4 : Nat) ∉ s0.cores.hubRoute := by decide +kernel

theorem wit_ChainEnumeration_states :
    (let s : State := { sDown with chain := { sDown.chain with addressed := true } }; s.chain.head = false ∧ s.chain.addressed = true) ∧
    (let s : State := { s0 with chain := { s0.chain with state := 1 } }
     s.chain.head = true ∧ s.chain.state = 1 ∧ (∀ x ∈ s.chain.reports, x.addr ≠ 7) ∧ s.chain.enumStart + 1000000 ≤ (atDt 1000000 s).dt ∧
     ¬ (atDt 999999 s).dt ≥ s.chain.enumStart + 1000000) ∧
    ¬ (s0.chain.state = 1 ∨ s0.chain.state = 2 ∨ s0.hostq.ctxs.any (fun x => x.2.unit != 0 && x.2.state != 0) = true) := by decide +kernel

theorem wit_ChainTime_downstream :
    (let c := { sDown.chain with addressed := true, pulse := some 998000, pulses := List.replicate 15 0 }
     let s : State := { sDown with chain := c }
     c.pulse = some 998000 ∧ (c.pulses ++ [(998000 : Int) - 1000000 + 2000]).length = 16 ∧ pulseInTime s 1000000 = true ∧ pulseInTime s 1000051 = false ∧
     c.head = false ∧ c.addressed = true ∧ c.unit ≠ 7) ∧ s0.chain.pulse = none := by decide +kernel

/-- An open port and a good header; one that is not. -/
theorem wit_ChainLinks_header :
    (let x := { s0.chain.dn with state := 2 }
     (x.state = 2 ∨ x.state = 3) ∧ flitHeader x.rxNext (.remoteFault 1 true) = 192 ∧ (193 : Nat) ≠ flitHeader x.rxNext (.remoteFault 1 true) ∧
     x.dropping = false ∧ { x with dropping := true }.dropping = true ∧ (1 : Nat) % 16 ≠ x.rxNext % 16) ∧
    ({ s0.chain with head := false }.head = false ∧ { s0.chain with head := false }.addressed = true) := by decide +kernel

theorem wit_UnitControl_restore :
    (let d := dsc [(0, 1, 0x0C), (8, 1, 3), (9, 1, 2), (0x0C, 1, 4), (0x0D, 1, 15)]
     let s := tk d { s1 with units := { s1.units with geoDisabled := [(63, 0, 0)] } }
     Admits { code := 0x0C, control := true } d s ∧ firstFail (unitChecks d) = none ∧ unitCluster d = 63 ∧ clusterOut (accepted d {} s) 63 = false ∧
     (63, fld d 0x0E 1, fld d 0x0F 1) ∈ s.units.geoDisabled ∧ s.units.restoring = []) ∧
    (let s : State := { s0 with units := { s0.units with draining := [(6, 5)] },
                                work := [{ work0 (.frameRun fr0) with kind := 6 }], frame := { s0.frame with cur := some { frame0 with fr := some 1 } } }
     s.units.draining.find? (fun x => x.1 == 6) = some (6, 5) ∧ 5 ≤ (atDt 5 s).dt ∧ (atDt 4 s).dt < 5 ∧ (∃ w ∈ s.work, w.kind = 6) ∧
     (findWork s 1).isSome = true) := by
  refine ⟨⟨admits_of (by decide +kernel), ?_⟩, ?_⟩ <;> decide +kernel

theorem wit_Carousel_rotation :
    (let s : State := { s0 with safety := { s0.safety with pairsOut := [0] }, ringm := { s0.ringm with sliceRunning := [(.pair 0, 0)] } }
     (CUnit.pair 0, 0) ∈ s.ringm.sliceRunning ∧ testable s (.pair 0) = true) ∧ (CUnit.pair 0, 0) ∉ s0.ringm.sliceRunning ∧
    (let s : State := { s0 with
       units := { s0.units with fenced := [5], restoring := [(5, 1)] }, work := [work0 (.unitRestore 5)],
       ringm := { s0.ringm with sliceRunning := [(.fabric 5, 7)] },
       safety := { s0.safety with prog := ((List.range 8).map fun c => (CUnit.core 5 c, 40)) ++ [(.mapCache 5, 64)], failed := [.core 5 8, .fabric 5] } }
     inRotation s 5 = true ∧ testable s (.fabric 5) = true ∧ unitCl (.fabric 5) = some 5 ∧ rotationOver s 5 = true ∧
     ¬ progOf s (.fabric 5) = 8 ∧ (∃ y ∈ s.units.restoring, y.1 = 5) ∧ (∃ y ∈ s.work, y.item = .unitRestore 5)) ∧ rotationOver s0 5 = false := by
  decide +kernel

theorem wit_Diag_far :
    (let d := dsc [(0, 1, 0x0D), (8, 8, 7 * 2 ^ 58 + 2 ^ 61), (0x18, 4, 32)]
     let s := tk d { s0 with chain := { s0.chain with unitCount := 2, dn := { s0.chain.dn with state := 2 } } }
     Admits { code := 0x0D, anyStack := true } d s ∧ firstFail (diagChecks d) = none ∧ diagAddrError (accepted d {} s) (fld d 8 8) 32 = none ∧
     addrUnit (fld d 8 8) ≠ s.chain.unit ∧ (portOf s 1).state = 2) ∧
    (let d := dsc [(0, 1, 0x0D), (8, 8, 7 * 2 ^ 58), (0x1C, 1, 1), (0x18, 4, 32)]
     let s := tk d { s1 with hostq := { s1.hostq with stageBase := 0, stageSize := 4096 } }
     Admits { code := 0x0D, control := true, anyStack := true } d s ∧ firstFail (diagChecks d) = none ∧
     inStaging (accepted d {} s) (fld d 8 8) 32 = true ∧ (hostRead {} (accepted d {} s) (fld d 0x10 8) 32).isSome = true) := by
  refine ⟨⟨admits_of (by decide +kernel), ?_⟩, ⟨admits_of (by decide +kernel), ?_⟩⟩ <;> decide +kernel

/-- A late add, one that commits before the tick and one that does not. -/
theorem wit_MapDescriptors_late :
    (let s : State := { sHaz with pwr := { s0.pwr with service := 3 }, frame := { s0.frame with ticking := true, tickDt := 0 } }
     let d : Taken := { dsc [(0, 1, 3), (0x10, 2, 1)] with dt := 999000 }
     Admits { code := 3 } d (tk d s) ∧ lateForTick (accepted d {} (tk d s)) d.dt = true ∧ nextTick (accepted d {} (tk d s)) = 1000000 ∧
     max d.dt (min 1001000 (d.dt + 2000)) = 1001000 ∧ max d.dt (min 999500 (d.dt + 2000)) = 999500) := by
  refine ⟨admits_of (by decide +kernel), ?_⟩; decide +kernel

/-- The header and directory of an Accord image of five sections, and what its sections hold. -/
def header1 : Bytes :=
  bytesOf 336 [(0, 8, 0x44524F434341515A), (8, 4, 1), (0x10, 8, 65536), (0x18, 4, 5), (0x1C, 4, 4096), (0x50, 4, 500), (0x54, 4, 1000), (0x58, 2, 180),
    (0x5A, 2, 1400), (0x5C, 4, 120000), (0x60, 4, 750000), (0x6A, 2, 64), (0x6C, 1, 8), (0x100, 2, 1), (0x104, 4, 1), (0x110, 2, 4), (0x114, 4, 1),
    (0x120, 2, 5), (0x124, 4, 1), (0x130, 2, 6), (0x134, 4, 1), (0x140, 2, 7), (0x144, 4, 1)]
def content1 : Accord :=
  { classes := [{ h := 2, nx := 1, nu := 1, dk := 1000000, solve := true }],
    perturb := [{ sigma := 0x3F800000, lateral := 0, ramp := 0, jointRow := 0, startOffset := 0, cost := 0 }] }

theorem wit_Loads_image :
    (let d := dsc [(0, 1, 5), (0x10, 8, 65536)]
     let s := tk d { s1 with hostMem := memWrites [] 0 header1 }
     Admits { code := 5, control := true } d s ∧ (reservedCheck d [(8, 8), (0x10, 8), (0x18, 8), (0x20, 1)]).1 = false ∧
     (hostRead {} (accepted d {} s) 0 256).map (fun h => fieldN h 0x1C 4) = some 4096 ∧
     (hostRead {} (accepted d {} s) 0 4096).map (fun b => ((readHeader content1 b).imageBytes, imageOk (readHeader content1 b),
       imageOk (readHeader acc0 b), (readHeader content1 b).format, (readHeader content1 b).minFirmware)) = some (65536, true, false, 1, 0)) := by
  refine ⟨admits_of (by decide +kernel), ?_⟩; decide +kernel

theorem wit_NetworksAndRows_late :
    finishedRun (dropLate s0) .proposal = none ∧
    (finishedRun (dropLate sNets) .proposal).map (fun x => x.1.frame) = some 5 ∧
    finishedRun (dropLate { sNets with frame := { sNets.frame with cur := some { fCert with number := 6 } } }) .proposal = none := by decide +kernel

theorem wit_PlanningFrame_chain :
    (let s : State := { s0 with pwr := { s0.pwr with service := 3 }, chain := { s0.chain with unitCount := 2, announce := some (10000000, 0, 1000) } }
     tickDue 10000000 s = true ∧ announced 10000000 s = true ∧ announced 10000001 s = false) ∧
    (let s : State := { sDown with pwr := { s0.pwr with service := 3 }, frame := { s0.frame with ticking := true, tickDt := 0 },
                                   chain := { sDown.chain with addressed := true, aligned := true, pulse := some 998000 } }
     s.chain.head = false ∧ s.chain.announce = none ∧ tickKnown s = true ∧ s.chain.aligned = true ∧ nextTick s = 1000000 ∧ pulseInTime s 1000000 = true) ∧
    (let s : State := { s0 with pwr := { s0.pwr with service := 3 } }
     accordPassed s = none ∧ s.pwr.dormantWanted = false ∧ chainHold s = false ∧ s.safety.testRotation = false ∧ fullSealRuns s = false ∧ s.accord = none) := by
  decide +kernel

end Sys2Proof.Tests
end

section
/-! SUPPORT. The register map as software sees it (00 R11, 17 R503 to R506): what a read of one BAR0 word answers and clears, what a write of
one changes, and the statements about reads (O15) and writes (O17). -/

namespace Sys2Proof.Machine

/-! ## The endpoint -/

/-- An access of the host reaches the unit whose endpoint trained a link (10 R328), and not under PERST_N (09 R299). -/
theorem endpointUp_iff (s : State) : endpointUp s = true ↔ s.chain.head = true ∧ s.pcie.perst = false := by
  simp [endpointUp]

theorem endpointUp_eq_false_iff (s : State) : endpointUp s = false ↔ ¬ (s.chain.head = true ∧ s.pcie.perst = false) := by
  rw [← endpointUp_iff, Bool.not_eq_true]

@[simp] theorem endpointUp_atDt (t : Nat) (s : State) : endpointUp (atDt t s) = endpointUp s := rfl

/-- The offset of an aligned access is the offset of its word. -/
theorem word_offset_of_aligned {off : Nat} (ha : off % 4 = 0) : off / 4 * 4 = off := by omega

/-! ## Reads -/

section Reads

variable {t off v : Nat} {s : State}

theorem exec_registerReadClear_live (hs : Live s) (ha : off % 4 = 0) :
    exec (.registerReadClear t off) s = .next (hostRead32 off (atDt t s)) := by
  change runAt t s (hostRead32 (off / 4 * 4)) = _
  rw [word_offset_of_aligned ha, runAt_live hs]

theorem exec_pairLoRead_live (hs : Live s) :
    exec (.pairLoRead t off) s = .next (if (pairVal (atDt t s) off).isSome then hostRead32 off (atDt t s) else atDt t s) :=
  runAt_live hs t _

theorem hostRead32_down (hd : endpointUp s = false) : hostRead32 off s = s := by
  simp [hostRead32, hd]

/-- The host receives what the register answers; the register's own effect stands. -/
theorem hostRead32_up (hup : endpointUp s = true) :
    hostRead32 off s = { (regRead off s).2 with
      pcie := { (regRead off s).2.pcie with readData := [(regRead off s).1], readOk := true, poisoned := false } } := by
  simp [hostRead32, hup]

theorem regRead_captured (hc : lookupO off s.hi = some v) : regRead off s = (v, { s with hi := eraseKey off s.hi }) := by
  simp only [regRead, hc]

theorem regRead_pair (hn : lookupO off s.hi = none) (hp : pairVal s off = some v) :
    regRead off s = (v % 2 ^ 32, { s with hi := insertKey (off + 4) (v / 2 ^ 32 % 2 ^ 32) s.hi }) := by
  simp only [regRead, hn, hp, lowHalf, highHalf]

theorem regRead_word (hn : lookupO off s.hi = none) (hp : pairVal s off = none) : regRead off s = (regVal s off, clearOnRead off s) := by
  simp only [regRead, hn, hp]

/-- Only three words hold fields marked RC (00 R11). -/
theorem clearOnRead_of_ne (h1 : off ≠ 0x20008) (h2 : off ≠ 0x40004) (h3 : off ≠ 0x90000) : clearOnRead off s = s := by
  unfold clearOnRead
  split
  · exact absurd rfl h1
  · exact absurd rfl h2
  · exact absurd rfl h3
  · rfl

theorem regVal_pwrDraw (s : State) : regVal s 0x20008 = s.pwr.draw % 65536 + 2 ^ 16 * (s.pwr.peak % 65536) := rfl

theorem regVal_hostqStatus (s : State) : regVal s 0x40004 =
    b2n s.hostq.noAtomic + 2 ^ 8 * s.hostq.badTail + 2 ^ 16 * s.hostq.badHead + 2 ^ 24 * s.hostq.bar2Drop := rfl

theorem regVal_ringmStatus (s : State) : regVal s 0x90000 = s.ringm.late + 2 ^ 16 * min s.ringm.deferrals 255 := rfl

/-- A read that reaches the unit, given what the register answers and what the answer leaves. -/
theorem exec_registerReadClear_up {w : Nat} {z : State} (hs : Live s) (hup : endpointUp s = true) (ha : off % 4 = 0)
    (hr : regRead off (atDt t s) = (w, z)) :
    exec (.registerReadClear t off) s =
      .next { z with pcie := { z.pcie with readData := [w], readOk := true, poisoned := false } } := by
  rw [exec_registerReadClear_live hs ha, hostRead32_up (by simpa using hup), hr]

/-- A read of a pair's low half is the same command under its other name. -/
theorem exec_pairLoRead_of_pair (hs : Live s) (ha : off % 4 = 0) (hp : pairVal (atDt t s) off = some v) :
    exec (.pairLoRead t off) s = exec (.registerReadClear t off) s := by
  rw [exec_pairLoRead_live hs, exec_registerReadClear_live hs ha, hp]; rfl

theorem exec_pairLoRead_of_no_pair (hs : Live s) (hp : pairVal (atDt t s) off = none) :
    exec (.pairLoRead t off) s = .next (atDt t s) := by
  rw [exec_pairLoRead_live hs, hp]; rfl

/-- A read of a word that is no half of a pair and was not captured. -/
theorem exec_registerReadClear_word (hs : Live s) (hup : endpointUp s = true) (ha : off % 4 = 0)
    (hn : lookupO off s.hi = none) (hp : pairVal (atDt t s) off = none) :
    exec (.registerReadClear t off) s = .next { clearOnRead off (atDt t s) with
      pcie := { (clearOnRead off (atDt t s)).pcie with readData := [regVal (atDt t s) off], readOk := true, poisoned := false } } :=
  exec_registerReadClear_up hs hup ha (regRead_word hn hp)

theorem reads_down (hs : Live s) (ha : off % 4 = 0) (hd : endpointUp s = false) :
    exec (.registerReadClear t off) s = .next (atDt t s) ∧ exec (.pairLoRead t off) s = .next (atDt t s) := by
  have hr : hostRead32 off (atDt t s) = atDt t s := hostRead32_down (by simpa using hd)
  refine ⟨?_, ?_⟩
  · rw [exec_registerReadClear_live hs ha, hr]
  · rw [exec_pairLoRead_live hs, hr, ite_self]

end Reads

/-- Settles O15: a read takes one of the three ways of `regRead` (a captured half, a pair, a word), and of the words only the three with RC
fields change. -/
theorem registerReads : Obligations.RegisterReads := by
  unfold Obligations.RegisterReads
  intro t off v s hs ha u
  refine ⟨fun hd => reads_down hs ha ((endpointUp_eq_false_iff s).2 hd), fun hh hp => ?_⟩
  have hup : endpointUp s = true := (endpointUp_iff s).2 ⟨hh, hp⟩
  refine ⟨fun hc => ?captured, fun hn hv => ?pair, exec_pairLoRead_of_no_pair hs, fun hn hv h1 h2 h3 => ?word, fun hn => ?pwrDraw,
    fun hn => ?hostqStatus, fun hn => ?ringmStatus⟩
  case captured => exact exec_registerReadClear_up hs hup ha (regRead_captured hc)
  case pair => exact ⟨exec_registerReadClear_up hs hup ha (regRead_pair hn hv), exec_pairLoRead_of_pair hs ha hv⟩
  case word => rw [exec_registerReadClear_word hs hup ha hn hv, clearOnRead_of_ne h1 h2 h3]; rfl
  case pwrDraw =>
    rw [exec_registerReadClear_word hs hup rfl hn rfl, regVal_pwrDraw, atDt_pwr, avsDue_draw, avsDue_peak]; rfl
  case hostqStatus => rw [exec_registerReadClear_word hs hup rfl hn rfl, regVal_hostqStatus]; rfl
  case ringmStatus => rw [exec_registerReadClear_word hs hup rfl hn rfl, regVal_ringmStatus]; rfl

/-! ## Writes -/

/-- An aligned word below the MSI-X table that is neither half of a pair that software writes, nor CHAIN_RACC_CTRL, whose OP starts an access
to another unit (10 R344): a write of it does what its block says and no more. -/
abbrev PlainWord (off : Nat) : Prop :=
  off % 4 = 0 ∧ off ≠ 0x5001C ∧ off < 0xF00000 ∧ pairWritable off = false ∧ pairWritable (off - 4) = false

/-- The blocks ID, CLK, NET, RINGM, UNITS and TEMP, which hold no writable field, and the block past the last one. -/
abbrev ReadOnlyBlock (b : Nat) : Prop := b ∈ [0x0, 0x3, 0x8, 0x9, 0xD, 0xE, 0xF]

section Writes

variable {t off v : Nat} {s : State}

theorem exec_registerWrite_down (hs : Live s) (hd : endpointUp s = false) : exec (.registerWrite t off v) s = .next (atDt t s) := by
  change execRegisterWrite t off v s = _
  rw [execRegisterWrite, runAt_live hs]
  simp [hd]

/-- A unit other than unit 0 ignores writes to the registers of unit 0 (17 R506). -/
theorem regWrite_headOnly (hh : s.chain.head = false) (ho : headOnly off = true) : regWrite off v s = s := by
  simp [regWrite, hh, ho]

theorem headOnly_of_mem (ho : off / 65536 = 4 ∨ off ∈ [0x50000, 0x50014, 0x50018, 0x5001C, 0x60000]) : headOnly off = true := by
  simpa [headOnly, or_assoc] using ho

theorem regWrite_plain (hh : s.chain.head = true) (hp : PlainWord off) : regWrite off v s = writeWord off v s := by
  obtain ⟨-, -, hlt, hlo, hhi⟩ := hp
  simp [regWrite, hh, hlo, hhi, Nat.not_le.2 hlt]

theorem exec_registerWrite_plain (hs : Live s) (hup : endpointUp s = true) (hv : v < 2 ^ 32) (hp : PlainWord off) :
    exec (.registerWrite t off v) s = .next (writeWord off v (atDt t s)) := by
  have hw : regWrite off v (atDt t s) = writeWord off v (atDt t s) := regWrite_plain ((endpointUp_iff s).1 hup).1 hp
  obtain ⟨ha, hr, -⟩ := hp
  change execRegisterWrite t off v s = _
  rw [execRegisterWrite, runAt_live hs, word_offset_of_aligned ha, Nat.mod_eq_of_lt hv]
  simp [hup, hr, hw]

/-- The pairs that software writes lie, high halves included, in the blocks BOOT, HOSTQ and DET. -/
theorem pairWritable_of_readOnlyBlock (hb : ReadOnlyBlock (off / 65536)) : pairWritable off = false ∧ pairWritable (off - 4) = false := by
  simp only [ReadOnlyBlock, List.mem_cons, List.not_mem_nil, or_false] at hb
  simp only [pairWritable, List.contains_eq_mem, List.mem_cons, List.not_mem_nil, or_false, decide_eq_false_iff_not]
  omega

theorem plainWord_of_readOnlyBlock (ha : off % 4 = 0) (hb : ReadOnlyBlock (off / 65536)) : PlainWord off := by
  obtain ⟨hlo, hhi⟩ := pairWritable_of_readOnlyBlock hb
  simp only [ReadOnlyBlock, List.mem_cons, List.not_mem_nil, or_false] at hb
  exact ⟨ha, by omega, by omega, hlo, hhi⟩

theorem writeWord_readOnlyBlock (hb : ReadOnlyBlock (off / 65536)) : writeWord off v s = s := by
  simp only [ReadOnlyBlock, List.mem_cons, List.not_mem_nil, or_false] at hb
  rcases hb with h | h | h | h | h | h | h <;> simp only [writeWord, h]

/-! ### The writable words, one equation each -/

theorem writeWord_imgLen : writeWord 0x10010 v s = { s with boot := { s.boot with imgLen := v % 2 ^ 20 } } := rfl

theorem writeWord_pwrStatus : writeWord 0x20004 v s = { s with pwr := { s.pwr with
    overLimit := s.pwr.overLimit && !bitOf v 1, limitErr := s.pwr.limitErr && !bitOf v 2, refused := s.pwr.refused && !bitOf v 3 } } := rfl

theorem writeWord_ctxCmd : writeWord 0x40008 v s = writeCtxCmd v s := rfl

theorem writeWord_ctxIndex : writeWord 0x4000C v s = { s with hostq := { s.hostq with ctxIndex := v % 2 ^ 20 } } := rfl

/-- The sixteen words of HOSTQ_CTX_DATA (09 R302). -/
theorem plainWord_ctxData {k : Nat} (hk : k < 16) : PlainWord (0x40040 + 4 * k) := by
  have h : ∀ k < 16, PlainWord (0x40040 + 4 * k) := by decide
  exact h k hk

theorem writeWord_ctxData {k : Nat} (hk : k < 16) :
    writeWord (0x40040 + 4 * k) v s = { s with hostq := { s.hostq with data := modifyAt (fun _ => v) k s.hostq.data } } := by
  have hb : (0x40040 + 4 * k) / 65536 = 4 := by omega
  have ho : (0x40040 + 4 * k) % 65536 = 0x40 + 4 * k := by omega
  have hin : 0x40 ≤ 0x40 + 4 * k ∧ 0x40 + 4 * k < 0x80 := by omega
  have hi : (0x40 + 4 * k - 0x40) / 4 = k := by omega
  simp only [writeWord, hb, ho, writeHostq, if_pos hin, hi]

theorem writeWord_frameCtrl : writeWord 0x60004 v s = { s with frame := { s.frame with sealAutoNext := bitOf v 0 } } := rfl

theorem writeWord_mapStatus : writeWord 0x70010 v s = { s with world := { s.world with
    fcastErr := s.world.fcastErr && !bitOf v 16, zErr := s.world.zErr && !bitOf v 17 } } := rfl

theorem writeWord_faultSel : writeWord 0xA00C0 v s =
    if v % 512 > 415 then s else { s with fault := { s.fault with sel := v % 512 } } := rfl

theorem writeWord_nmiPairs : writeWord 0xA00DC v s = { s with fault := { s.fault with nmiPairs := v % 256 } } := rfl

theorem writeWord_faultVectors : writeWord 0xA00E0 v s =
    { s with fault := { s.fault with minorVec := v % 2048, severeVec := bitsOf v 16 11 } } := rfl

theorem writeWord_eventVector : writeWord 0xA00E4 v s =
    { s with fault := { s.fault with evtVec := v % 2048, evtEn := bitOf v 16 } } := rfl

theorem writeWord_faultCfgErr : writeWord 0xA00E8 v s =
    if bitOf v 0 then { s with fault := { s.fault with cfgErr := false } } else s := rfl

/-- Without CAROUSEL_RUN (bit 5) a write of SAFETY_CTRL only sets what the next tick puts in force (15 R462). -/
theorem writeWord_safetyCtrl (h : bitOf v 5 = false) : writeWord 0xB0000 v s = { s with safety := { s.safety with next :=
    { goldenEn := bitOf v 0, dualNetworks := bitOf v 1, injectEn := bitOf v 2, scrubEn := bitOf v 3, certDual := bitOf v 4 } } } := by
  change writeSafetyCtrl v s = _
  simp [writeSafetyCtrl, h]

theorem writeWord_logSize : writeWord 0xC0008 v s =
    if s.det.logEn then s else { s with det := { s.det with logSize := v % 32 } } := rfl

/-! ### The four commands of HOSTQ_CTX_CMD (09 R302) -/

theorem writeCtxCmd_write (h : v % 8 = 1) : writeCtxCmd v s = ctxCommand (Config.busyNs s.fresh) ctxDoWrite (bumpFresh s) := by
  simp only [writeCtxCmd, h]

theorem writeCtxCmd_read (h : v % 8 = 2) : writeCtxCmd v s = ctxCommand (Config.busyNs s.fresh) ctxDoRead (bumpFresh s) := by
  simp only [writeCtxCmd, h]

theorem writeCtxCmd_enable (h : v % 8 = 3) : writeCtxCmd v s = ctxCommand (Config.busyNs s.fresh) ctxDoEnable (bumpFresh s) := by
  simp only [writeCtxCmd, h]

theorem writeCtxCmd_disable (h : v % 8 = 4) : writeCtxCmd v s = ctxCommand (Config.busyNs s.fresh) ctxDoDisable (bumpFresh s) := by
  simp only [writeCtxCmd, h]

end Writes

/-- Settles O17: every register the statement names is a plain word, so its write through the endpoint is its block's own equation. -/
theorem registerWrites : Obligations.RegisterWrites := by
  unfold Obligations.RegisterWrites
  intro t v s hs hv u
  refine ⟨fun hh hp => ?_, fun hd off => exec_registerWrite_down hs ((endpointUp_eq_false_iff s).2 hd),
    fun hh off _ ho => regWrite_headOnly hh (headOnly_of_mem ho)⟩
  have write {off : Nat} (hw : PlainWord off) : exec (.registerWrite t off v) s = .next (writeWord off v u) :=
    exec_registerWrite_plain hs ((endpointUp_iff s).2 ⟨hh, hp⟩) hv hw
  refine ⟨?frameCtrl, ?imgLen, ?nmiPairs, ?faultVectors, ?eventVector, fun hsel => ?faultSel, fun hsel => ?faultSelIgnored, fun hlog => ?logSize,
    fun hrun => ?safetyCtrl, ?ctxIndex, fun k hk => ?ctxData, fun c h1 h4 hc => ?ctxCmd, ?pwrStatus, ?mapStatus, fun h0 => ?cfgErrOne,
    fun h0 => ?cfgErrZero, fun off ha hb => ?readOnly⟩
  case frameCtrl => rw [write (by decide), writeWord_frameCtrl]; rfl
  case imgLen => rw [write (by decide), writeWord_imgLen]; rfl
  case nmiPairs => rw [write (by decide), writeWord_nmiPairs]; rfl
  case faultVectors => rw [write (by decide), writeWord_faultVectors]; rfl
  case eventVector => rw [write (by decide), writeWord_eventVector]; rfl
  case faultSel => rw [write (by decide), writeWord_faultSel, if_neg (Nat.not_lt.2 hsel)]; rfl
  case faultSelIgnored => rw [write (by decide), writeWord_faultSel, if_pos hsel]
  case logSize => rw [write (by decide), writeWord_logSize, atDt_det, hlog]; rfl
  case safetyCtrl => rw [write (by decide), writeWord_safetyCtrl hrun]; rfl
  case ctxIndex => rw [write (by decide), writeWord_ctxIndex]; rfl
  case ctxData => rw [write (plainWord_ctxData hk), writeWord_ctxData hk]; rfl
  case ctxCmd =>
    rw [write (by decide), writeWord_ctxCmd]
    obtain rfl | rfl | rfl | rfl : c = 1 ∨ c = 2 ∨ c = 3 ∨ c = 4 := by omega
    · rw [writeCtxCmd_write hc]; rfl
    · rw [writeCtxCmd_read hc]; rfl
    · rw [writeCtxCmd_enable hc]; rfl
    · rw [writeCtxCmd_disable hc]; rfl
  case pwrStatus =>
    rw [write (by decide), writeWord_pwrStatus, atDt_pwr, avsDue_overLimit, avsDue_limitErr, avsDue_refused]
  case mapStatus => rw [write (by decide), writeWord_mapStatus]; rfl
  case cfgErrOne => rw [write (by decide), writeWord_faultCfgErr, if_pos h0]; rfl
  case cfgErrZero => rw [write (by decide), writeWord_faultCfgErr, h0]; rfl
  case readOnly => rw [write (plainWord_of_readOnlyBlock ha hb), writeWord_readOnlyBlock hb]

end Sys2Proof.Machine
end

section
/-! SUPPORT. What every command and every step keeps (`Keeps`), and the statement about the canonical form of the two memories (O3). -/

namespace Sys2Proof.Machine

/-! ## Every step -/

/-- Every command keeps what `Keeps` speaks of: each arm of `exec` is one meaning, and its own file has shown it of that meaning. -/
theorem exec_keeps (c : Instr) {s u : State} (h : exec c s = .next u) : Keeps s u := by
  cases c with
  | pollInstantWalk t v atomicOk => exact execPollInstantWalk_keeps h
  | mapIngest d v => exact execMapIngest_keeps d v s h
  | mapPrimitives d v => exact execMapPrimitives_keeps d v s h
  | mapHazard d v commit => exact execMapHazard_keeps d v commit s h
  | bodyLoad d v => exact execBodyLoad_keeps d v s h
  | accordLoad d v img => exact execAccordLoad_keeps d v img s h
  | frameRun d v => exact execFrameRun_keeps d v s h
  | solve d v => exact execSolve_keeps d v s h
  | check d v => exact execCheck_keeps d v s h
  | select d v => exact execSelect_keeps d v s h
  | tensorRun d v => exact execTensorRun_keeps d v s h
  | configure d v => exact execConfigure_keeps d v s h
  | fire d v => exact execFire_keeps d v s h
  | release d v => exact execRelease_keeps d v s h
  | heartbeat d v => exact execHeartbeat_keeps d v s h
  | unitDisable d v => exact execUnitDisable_keeps d v s h
  | unitFence d v => exact execUnitFence_keeps d v s h
  | unitRestore d v => exact execUnitRestore_keeps d v s h
  | diagRead d v errs => exact execDiagRead_keeps d v errs s h
  | diagWrite d v errs => exact execDiagWrite_keeps d v errs s h
  | diagSnapshot d v => exact execDiagSnapshot_keeps d v s h
  | irqDelayExpiry t ctx => exact execIrqDelayExpiry_keeps t ctx s h
  | ctxWrite t dur => exact execCtxWrite_keeps t dur s h
  | ctxRead t dur => exact execCtxRead_keeps t dur s h
  | ctxEnable t dur => exact execCtxEnable_keeps t dur s h
  | ctxDisable t dur => exact execCtxDisable_keeps t dur s h
  | ctxInvalidCommand t code => exact execCtxInvalidCommand_keeps t code s h
  | ctxDrainEnd t ctx => exact execCtxDrainEnd_keeps t ctx s h
  | pollEnWrite t on => exact execPollEnWrite_keeps t on s h
  | bar0UnsupportedAccess t addr size isWrite => exact execBar0UnsupportedAccess_keeps t addr size isWrite s h
  | bar2Read t off n errs => exact execBar2Read_keeps t off n errs s h
  | bar2Write t off data errs => exact execBar2Write_keeps t off data errs s h
  | perstN t => exact execPerstN_keeps t s h
  | hotReset t => exact execHotReset_keeps t s h
  | functionLevelReset t => exact execFunctionLevelReset_keeps t s h
  | registerWrite t off val => exact execRegisterWrite_keeps t off val s h
  | registerReadClear t off => exact execRegisterReadClear_keeps t off s h
  | pairLoRead t off => exact execPairLoRead_keeps t off s h
  | pairHiWrite t off val => exact execPairHiWrite_keeps t off val s h
  | framePeriodWrite t val => exact execFramePeriodWrite_keeps t val s h
  | mapWindowZWrite t val => exact execMapWindowZWrite_keeps t val s h
  | mapForecastWrite t val => exact execMapForecastWrite_keeps t val s h
  | pwrRailThrWrite t rail val => exact execPwrRailThrWrite_keeps t rail val s h
  | limitWWrite t val => exact execLimitWWrite_keeps t val s h
  | dormantReq t othersAtRest => exact execDormantReq_keeps t othersAtRest s h
  | dormantEntry t => exact execDormantEntry_keeps t s h
  | wake t => exact execWake_keeps t s h
  | i3cWake t => exact execI3cWake_keeps t s h
  | wakeComplete t fwOk failed => exact execWakeComplete_keeps t fwOk failed s h
  | go t => exact execGo_keeps t s h
  | chipResetRequest t => exact execChipResetRequest_keeps t s h
  | commitRollback t => exact execCommitRollback_keeps t s h
  | strapSample t src chainHead => exact execStrapSample_keeps t src chainHead s h
  | secureBoot t images => exact execSecureBoot_keeps t images s h
  | pwrOkRise t lowRails => exact execPwrOkRise_keeps t lowRails s h
  | pwrOkFall t => exact execPwrOkFall_keeps t s h
  | supplyReset t rail => exact execSupplyReset_keeps t rail s h
  | railWarningCrossing t rail => exact execRailWarningCrossing_keeps t rail s h
  | railRecovered t rail => exact execRailRecovered_keeps t rail s h
  | supplyEscalation t rail => exact execSupplyEscalation_keeps t rail s h
  | avsTimeout t port => exact execAvsTimeout_keeps t port s h
  | governorTrim t draw => exact execGovernorTrim_keeps t draw s h
  | governorCalibrate t currents => exact execGovernorCalibrate_keeps t currents s h
  | tempSample t die temp => exact execTempSample_keeps t die temp s h
  | clockMonitorWindow t clk ppm => exact execClockMonitorWindow_keeps t clk ppm s h
  | scrubPassEnd t stack finished => exact execScrubPassEnd_keeps t stack finished s h
  | frameTick t v => exact execFrameTick_keeps t v s h
  | injectionTimeout t checker => exact execInjectionTimeout_keeps t checker s h
  | sealStart t => exact execSealStart_keeps t s h
  | sealComplete t => exact execSealComplete_keeps t s h
  | fullSealComplete t => exact execFullSealComplete_keeps t s h
  | atomiserGroup t v => exact execAtomiserGroup_keeps t v s h
  | atomiserOverrun t => exact execAtomiserOverrun_keeps t s h
  | batchSlotBoundary t upset v => exact execBatchSlotBoundary_keeps t upset v s h
  | jugglerMerge t => exact execJugglerMerge_keeps t s h
  | netCertification t upset => exact execNetCertification_keeps t upset s h
  | netBank t => exact execNetBank_keeps t s h
  | certificationOverrun t => exact execCertificationOverrun_keeps t s h
  | netRecertification t upset => exact execNetRecertification_keeps t upset s h
  | immediateRecertification t upset => exact execImmediateRecertification_keeps t upset s h
  | publish t => exact execPublish_keeps t s h
  | optimisationStart t wid idx => exact execOptimisationStart_keeps t wid idx s h
  | outerCommit t wid idx cmp => exact execOuterCommit_keeps t wid idx cmp s h
  | deadlineCut t wid idx inner tries => exact execDeadlineCut_keeps t wid idx inner tries s h
  | solveProblemStop t wid idx => exact execSolveProblemStop_keeps t wid idx s h
  | layerDigestCompare t wid run net layer copyB upset => exact execLayerDigestCompare_keeps t wid run net layer copyB upset s h
  | forecastSetWrite t => exact execForecastSetWrite_keeps t s h
  | proposalReady t => exact execProposalReady_keeps t s h
  | networkOverrun t => exact execNetworkOverrun_keeps t s h
  | tensorRunEnd t wid run => exact execTensorRunEnd_keeps t wid run s h
  | selectRowEnd t wid row v => exact execSelectRowEnd_keeps t wid row v s h
  | accordCopyDone t pcieError => exact execAccordCopyDone_keeps t pcieError s h
  | accordCoresLoaded t => exact execAccordCoresLoaded_keeps t s h
  | netComesIntoForce t => exact execNetComesIntoForce_keeps t s h
  | netExpiry t => exact execNetExpiry_keeps t s h
  | hostHeartbeatTimeout t => exact execHostHeartbeatTimeout_keeps t s h
  | driveRequest t a b => exact execDriveRequest_keeps t a b s h
  | driveHeartbeatEdge t ch => exact execDriveHeartbeatEdge_keeps t ch s h
  | driveHeartbeatTimeout t ch => exact execDriveHeartbeatTimeout_keeps t ch s h
  | setpointFrame t replyA replyB => exact execSetpointFrame_keeps t replyA replyB s h
  | netStandstill t => exact execNetStandstill_keeps t s h
  | safeStopMismatch t ch level => exact execSafeStopMismatch_keeps t ch level s h
  | streamerMismatch t => exact execStreamerMismatch_keeps t s h
  | faultEvent t src addr syn => exact execFaultEvent_keeps t src addr syn s h
  | levelSourceBegin t src addr syn ended => exact execLevelSourceBegin_keeps t src addr syn ended s h
  | blockResetDone t b => exact execBlockResetDone_keeps t b s h
  | spareLoadDone t q => exact execSpareLoadDone_keeps t q s h
  | faultStickyClear t word val => exact execFaultStickyClear_keeps t word val s h
  | fflClear t => exact execFflClear_keeps t s h
  | faultSrcCfgWrite t val => exact execFaultSrcCfgWrite_keeps t val s h
  | functionDrainEnd t f => exact execFunctionDrainEnd_keeps t f s h
  | restoreRotationDone t q => exact execRestoreRotationDone_keeps t q s h
  | carouselRun t => exact execCarouselRun_keeps t s h
  | carouselSliceDone t u slice pass => exact execCarouselSliceDone_keeps t u slice pass s h
  | ringmasterTick t slice => exact execRingmasterTick_keeps t slice s h
  | eventWordChange t w => exact execEventWordChange_keeps t w s h
  | safetyThreadLatency t e => exact execSafetyThreadLatency_keeps t e s h
  | create t p a0 a1 => exact execCreate_keeps t p a0 a1 s h
  | resume t p a0 a1 => exact execResume_keeps t p a0 a1 s h
  | suspend t p a0 a1 => exact execSuspend_keeps t p a0 a1 s h
  | delete t p a0 a1 => exact execDelete_keeps t p a0 a1 s h
  | switch t p a0 a1 => exact execSwitch_keeps t p a0 a1 s h
  | setPrio t p a0 a1 => exact execSetPrio_keeps t p a0 a1 s h
  | setPair t p a0 a1 => exact execSetPair_keeps t p a0 a1 s h
  | wakeThread t p a0 a1 => exact execWakeThread_keeps t p a0 a1 s h
  | readEntry t p a0 a1 => exact execReadEntry_keeps t p a0 a1 s h
  | lockstepMismatch t p => exact execLockstepMismatch_keeps t p s h
  | put t src addr n local_ data lerrs errs => exact execPut_keeps t src addr n local_ data lerrs errs s h
  | get t src addr n local_ errs => exact execGet_keeps t src addr n local_ errs s h
  | atomicAdd t src addr v local_ errs => exact execAtomicAdd_keeps t src addr v local_ errs s h
  | atomicMax t src addr v local_ isSigned errs => exact execAtomicMax_keeps t src addr v local_ isSigned errs s h
  | atomicCas t src addr c v local_ errs => exact execAtomicCas_keeps t src addr c v local_ errs s h
  | signal t src addr v errs => exact execSignal_keeps t src addr v errs s h
  | fence t c => exact execFence_keeps t c s h
  | waitSignal t c w thr => exact execWaitSignal_keeps t c w thr s h
  | engine t c mask op errs => exact execEngine_keeps t c mask op errs s h
  | loop t c start count => exact execLoop_keeps t c start count s h
  | deadline t c inner tries => exact execDeadline_keeps t c inner tries s h
  | retry t c mark inner => exact execRetry_keeps t c mark inner s h
  | ringLinkFailover t link lostA lostB => exact execRingLinkFailover_keeps t link lostA lostB s h
  | enumStart t => exact execEnumStart_keeps t s h
  | enumerationStartFlit t gen => exact execEnumerationStartFlit_keeps t gen s h
  | enumToken t byte => exact execEnumToken_keeps t byte s h
  | enumReport t addr last overflow grade fw => exact execEnumReport_keeps t addr last overflow grade fw s h
  | enumerationTimeout t => exact execEnumerationTimeout_keeps t s h
  | timeSyncExchange t answer => exact execTimeSyncExchange_keeps t answer s h
  | tickAnnounce t tickDt frame period => exact execTickAnnounce_keeps t tickDt frame period s h
  | tickInPulse t => exact execTickInPulse_keeps t s h
  | linkTraining t port state => exact execLinkTraining_keeps t port state s h
  | chainFlitReceive t port hdr code msg errs => exact execChainFlitReceive_keeps t port hdr code msg errs s h
  | replayRequest t port seq => exact execReplayRequest_keeps t port seq s h
  | raccRead t answer => exact execRaccRead_keeps t answer s h
  | raccWrite t answered => exact execRaccWrite_keeps t answered s h
  | raccTimeout t => exact execRaccTimeout_keeps t s h
  | logEnWrite t on => exact execLogEnWrite_keeps t on s h
  | regulatorSettled t die => exact execRegulatorSettled_keeps t die s h
  | perstNRelease t => exact execPerstNRelease_keeps t s h
  | stackTrainingComplete t full => exact execStackTrainingComplete_keeps t full s h

theorem step_of_pending_nil {s : State} (hp : s.pending = []) : step s = .next s := by
  simp only [step, hp]

theorem step_of_pending_cons {s : State} {c : Instr} {rest : List Instr} (hp : s.pending = c :: rest) :
    step s = exec c { s with pending := rest } := by
  simp only [step, hp]

/-- A step idles, or it is a command that runs on the state with the rest of the queue. -/
theorem step_keeps {s u : State} (h : step s = .next u) : ∃ rest, Keeps { s with pending := rest } u := by
  cases hp : s.pending with
  | nil =>
    rw [step_of_pending_nil hp] at h
    cases h
    exact ⟨s.pending, Keeps.refl s⟩
  | cons c rest =>
    rw [step_of_pending_cons hp] at h
    exact ⟨rest, exec_keeps c h⟩

/-- Settles O3: the queue is no part of either memory, and every command keeps the canonical form of both. -/
theorem memoryFormKeptByStep : Obligations.MemoryFormKeptByStep := by
  unfold Obligations.MemoryFormKeptByStep
  intro s u ⟨hhost, hpackage⟩ h
  obtain ⟨rest, hk⟩ := step_keeps h
  exact ⟨hk.mem hhost, hk.cmem hpackage⟩

end Sys2Proof.Machine
end

section
/-! SUPPORT. The lossless failover of a ring link (01 R31): what the receiving die fabric does with a flit, what it delivers of the flits that a
direction sends again, and the statement about the failover (O46). -/

namespace Sys2Proof.Machine

/-! ## Sparse tables -/

section SparseTables

variable {α : Type} {k j : Nat}

theorem lookupO_insertKey_of_ne (h : j ≠ k) (v : α) (l : List (Nat × α)) : lookupO j (insertKey k v l) = lookupO j l := by
  induction l with
  | nil => simp [insertKey, lookupO, h.symm]
  | cons x r ih =>
    unfold insertKey
    split
    · simp only [lookupO, ih]
    · split
      · rename_i hk
        simp [lookupO, hk, h.symm]
      · simp [lookupO, h.symm]

theorem lookupD_eq_getD_lookupO (d : α) (k : Nat) (l : List (Nat × α)) : lookupD d k l = (lookupO k l).getD d := by
  induction l with
  | nil => rfl
  | cons x r ih =>
    simp only [lookupD, lookupO, ih]
    split <;> rfl

theorem lookupD_insertKey_of_ne (h : j ≠ k) (d v : α) (l : List (Nat × α)) : lookupD d j (insertKey k v l) = lookupD d j l := by
  rw [lookupD_eq_getD_lookupO, lookupD_eq_getD_lookupO, lookupO_insertKey_of_ne h]

theorem lookupO_eq_none {l : List (Nat × α)} (h : ∀ x ∈ l, x.1 ≠ k) : lookupO k l = none := by
  induction l with
  | nil => rfl
  | cons x r ih =>
    rw [lookupO, if_neg (h x List.mem_cons_self)]
    exact ih fun y hy => h y (List.mem_cons_of_mem x hy)

theorem eraseKey_cons_of_forall_ne {x : Nat × α} {l : List (Nat × α)} (hx : x.1 = k) (h : ∀ y ∈ l, y.1 ≠ k) : eraseKey k (x :: l) = l := by
  rw [eraseKey, List.filter_cons_of_neg (by simp [hx]), List.filter_eq_self]
  simpa using h

end SparseTables

/-! ## Flits in sequence -/

/-- The flits (number, address) carry the sequence numbers from `n` on, without a gap. -/
def InSequence (n : Nat) (l : List (Nat × Nat)) : Prop := l.map Prod.fst = List.range' n l.length

section InSequence

variable {n : Nat} {f : Nat × Nat} {l l' : List (Nat × Nat)}

theorem inSequence_cons : InSequence n (f :: l) ↔ f.1 = n ∧ InSequence (n + 1) l := by
  simp [InSequence, List.range'_succ]

theorem inSequence_append : InSequence n (l ++ l') ↔ InSequence n l ∧ InSequence (n + l.length) l' := by
  induction l generalizing n with
  | nil => simp [InSequence]
  | cons x l ih => simp only [List.cons_append, inSequence_cons, ih, List.length_cons, and_assoc, Nat.add_right_comm n 1, Nat.add_assoc]

theorem InSequence.split (h : InSequence n l) (p : Nat × Nat → Bool) :
    InSequence n (l.takeWhile p) ∧ InSequence (n + (l.takeWhile p).length) (l.dropWhile p) := by
  rwa [← inSequence_append, List.takeWhile_append_dropWhile]

theorem InSequence.le (h : InSequence n l) (hf : f ∈ l) : n ≤ f.1 ∧ f.1 < n + l.length := by
  have : f.1 ∈ List.range' n l.length := h ▸ List.mem_map_of_mem hf
  simpa [List.mem_range'_1] using this

theorem InSequence.nodup (h : InSequence n l) : (l.map Prod.fst).Nodup := h ▸ List.nodup_range'

end InSequence

/-! ## The receiving die fabric -/

section Receiver

variable {d : RingDir} {out : List Nat} {f : Nat × Nat} {l : List (Nat × Nat)} {n k : Nat} {p : Nat × Nat → Bool}

/-- A flit that was delivered already is discarded. -/
theorem ringTake_of_lt (h : f.1 < d.rxNext) : ringTake (d, out) f = (d, out) := by
  simp [ringTake, h]

/-- A flit that is neither delivered nor held is held if it is ahead of a missing one, and otherwise delivered. -/
theorem ringTake_of_new (h : d.rxNext ≤ f.1) (hd : ∀ x ∈ d.held, x.1 ≠ f.1) :
    ringTake (d, out) f = if f.1 ≠ d.rxNext then ({ d with held := d.held ++ [f] }, out)
      else ringTake.ringDrain d.held.length ({ d with rxNext := d.rxNext + 1 }, out ++ [f.2]) := by
  have hnew : ¬ (f.1 < d.rxNext ∨ d.held.any (fun x => x.1 == f.1) = true) := by
    simpa [h] using fun a ha => by simpa using hd _ ha
  simp only [ringTake, if_neg hnew]

theorem ringTake_of_ahead (h : d.rxNext < f.1) (hd : ∀ x ∈ d.held, x.1 ≠ f.1) :
    ringTake (d, out) f = ({ d with held := d.held ++ [f] }, out) := by
  rw [ringTake_of_new (Nat.le_of_lt h) hd, if_pos (Nat.ne_of_gt h)]

/-- The missing flit is delivered, and lets those behind it go. -/
theorem ringTake_of_next (h : f.1 = d.rxNext) (hd : ∀ x ∈ d.held, x.1 ≠ f.1) :
    ringTake (d, out) f = ringTake.ringDrain d.held.length ({ d with rxNext := d.rxNext + 1 }, out ++ [f.2]) := by
  rw [ringTake_of_new (Nat.le_of_eq h.symm) hd, if_neg (not_not_intro h)]

theorem foldl_ringTake_of_lt (h : ∀ f ∈ l, f.1 < d.rxNext) : l.foldl ringTake (d, out) = (d, out) := by
  induction l with
  | nil => rfl
  | cons x l ih =>
    rw [List.foldl_cons, ringTake_of_lt (h x List.mem_cons_self)]
    exact ih fun y hy => h y (List.mem_cons_of_mem x hy)

theorem foldl_ringTake_of_ahead (h : ∀ f ∈ l, d.rxNext < f.1) (hnd : ((d.held ++ l).map Prod.fst).Nodup) :
    l.foldl ringTake (d, out) = ({ d with held := d.held ++ l }, out) := by
  induction l generalizing d with
  | nil => simp
  | cons x l ih =>
    have hx : ∀ y ∈ d.held, y.1 ≠ x.1 := by
      rw [List.map_append, List.nodup_append] at hnd
      exact fun y hy => hnd.2.2 _ (List.mem_map_of_mem hy) _ (by simp)
    rw [List.foldl_cons, ringTake_of_ahead (h x List.mem_cons_self) hx, ih]
    · simp
    · exact fun y hy => h y (List.mem_cons_of_mem x hy)
    · simpa using hnd

theorem ringDrain_of_missing (h : ∀ x ∈ d.held, x.1 ≠ d.rxNext) (k : Nat) : ringTake.ringDrain k (d, out) = (d, out) := by
  cases k with
  | zero => rfl
  | succ k => simp only [ringTake.ringDrain, lookupO_eq_none h]

theorem ringDrain_of_held (h : f.1 = d.rxNext) (hd : d.held = f :: l) (hl : ∀ x ∈ l, x.1 ≠ d.rxNext) (k : Nat) :
    ringTake.ringDrain (k + 1) (d, out) = ringTake.ringDrain k ({ d with rxNext := d.rxNext + 1, held := l }, out ++ [f.2]) := by
  have hget : lookupO d.rxNext d.held = some f.2 := by simp [hd, lookupO, h]
  have herase : eraseKey d.rxNext d.held = l := by rw [hd, eraseKey_cons_of_forall_ne h hl]
  simp only [ringTake.ringDrain, hget, herase]

/-- The receiver of the flits `l`, numbered from `n`, that has delivered what came before them, has got those of `l` that `p` names, and therefore
has delivered those up to the first that had not arrived and holds the ones behind it. -/
def receiverAt (d : RingDir) (p : Nat × Nat → Bool) (n : Nat) (l : List (Nat × Nat)) (out : List Nat) : RingDir × List Nat :=
  ({ d with rxNext := n + (l.takeWhile p).length, held := (l.dropWhile p).filter p }, out ++ (l.takeWhile p).map Prod.snd)

theorem receiverAt_cons_of_arrived (hf : p f = true) : receiverAt d p n (f :: l) out = receiverAt d p (n + 1) l (out ++ [f.2]) := by
  simp [receiverAt, hf, Nat.add_assoc, Nat.add_comm 1]

theorem receiverAt_cons_of_missing (hf : p f = false) :
    receiverAt d p n (f :: l) out = ({ d with rxNext := n, held := l.filter p }, out) := by
  simp [receiverAt, hf]

theorem filter_takeWhile (p : Nat × Nat → Bool) (l : List (Nat × Nat)) : (l.takeWhile p).filter p = l.takeWhile p :=
  List.filter_eq_self.2 (List.all_eq_true.1 List.all_takeWhile)

theorem length_takeWhile_le_length_filter (p : Nat × Nat → Bool) (l : List (Nat × Nat)) : (l.takeWhile p).length ≤ (l.filter p).length := by
  simpa only [filter_takeWhile] using ((List.takeWhile_sublist (l := l) p).filter p).length_le

/-- Draining what is held of the flits `l` delivers those up to the first that had not arrived. -/
theorem ringDrain_eq_receiverAt (hl : InSequence n l) (hk : (l.takeWhile p).length ≤ k) :
    ringTake.ringDrain k ({ d with rxNext := n, held := l.filter p }, out) = receiverAt d p n l out := by
  induction l generalizing n k out with
  | nil => simpa [receiverAt] using ringDrain_of_missing (by simp) k
  | cons f l ih =>
    obtain ⟨hn, hl⟩ := inSequence_cons.1 hl
    have hrest : ∀ x ∈ l.filter p, x.1 ≠ n := fun x hx => by
      have := (hl.le (List.mem_filter.1 hx).1).1
      omega
    cases hf : p f with
    | false =>
      rw [receiverAt_cons_of_missing hf, List.filter_cons_of_neg (by simp [hf])]
      exact ringDrain_of_missing hrest k
    | true =>
      obtain ⟨k, rfl⟩ : ∃ j, k = j + 1 := ⟨k - 1, by simp [hf] at hk; omega⟩
      rw [receiverAt_cons_of_arrived hf, List.filter_cons_of_pos hf, ringDrain_of_held hn rfl hrest]
      exact ih hl (by simpa [hf] using hk)

theorem receiverAt_dropWhile : receiverAt d p n (l.dropWhile p) out = ({ d with rxNext := n, held := (l.dropWhile p).filter p }, out) := by
  induction l with
  | nil => simp [receiverAt]
  | cons f l ih =>
    cases hf : p f with
    | false => simp [hf, receiverAt_cons_of_missing]
    | true => simpa [hf] using ih

theorem lt_of_mem_filter_dropWhile (hl : InSequence n (l.dropWhile p)) (hf : f ∈ (l.dropWhile p).filter p) : n < f.1 := by
  have hhead := List.head?_dropWhile_not p l
  cases hs : l.dropWhile p with
  | nil => simp [hs] at hf
  | cons x r =>
    rw [hs] at hl hf hhead
    rw [List.filter_cons_of_neg (by simpa using hhead)] at hf
    exact ((inSequence_cons.1 hl).2.le (List.mem_filter.1 hf).1).1

/-- What arrives of the flits `l` over the link, at a receiver that waits for the first that does not: those before it were delivered already, those
behind it are held. -/
theorem foldl_ringTake_filter (hl : InSequence n l) :
    (l.filter p).foldl ringTake ({ d with rxNext := n + (l.takeWhile p).length, held := [] }, out) =
      receiverAt d p (n + (l.takeWhile p).length) (l.dropWhile p) out := by
  have hsplit : l.filter p = l.takeWhile p ++ (l.dropWhile p).filter p := by
    rw [← filter_takeWhile, ← List.filter_append, List.takeWhile_append_dropWhile]
  obtain ⟨hpre, hsuf⟩ := hl.split p
  rw [hsplit, List.foldl_append, foldl_ringTake_of_lt fun f hf => (hpre.le hf).2, receiverAt_dropWhile, foldl_ringTake_of_ahead]
  · rfl
  · exact fun f hf => lt_of_mem_filter_dropWhile hsuf hf
  · exact hsuf.nodup.sublist (List.filter_sublist.map Prod.fst)

/-- Sent again in order, the flits `l` are all delivered, each once: one that was delivered when it arrived is discarded, a missing one is delivered
and lets those behind it go. -/
theorem foldl_ringTake_receiverAt (hl : InSequence n l) : (l.foldl ringTake (receiverAt d p n l out)).2 = out ++ l.map Prod.snd := by
  induction l generalizing n out with
  | nil => simp [receiverAt]
  | cons f l ih =>
    obtain ⟨hn, hl⟩ := inSequence_cons.1 hl
    have hstep : ringTake (receiverAt d p n (f :: l) out) f = receiverAt d p (n + 1) l (out ++ [f.2]) := by
      cases hf : p f with
      | true =>
        rw [receiverAt_cons_of_arrived hf]
        exact ringTake_of_lt (by simp only; omega)
      | false =>
        have hrest : ∀ x ∈ l.filter p, x.1 ≠ f.1 := fun x hx => by
          have := (hl.le (List.mem_filter.1 hx).1).1
          omega
        rw [receiverAt_cons_of_missing hf, ringTake_of_next hn hrest]
        exact ringDrain_eq_receiverAt hl (length_takeWhile_le_length_filter p l)
    rw [List.foldl_cons, hstep, ih hl]
    simp

end Receiver

/-! ## What a direction sends again -/

/-- A flit of the link that reached the receiver. -/
def arrived (lost : List Nat) (f : Nat × Nat) : Bool := !lost.contains f.1

/-- The unacknowledged flits of a direction, as (number, address). -/
def pendingFlits (now : Nat) (d : RingDir) : List (Nat × Nat) := (ringUnacked now d).map fun f => (f.1, f.2.2)

/-- The number that the receiver waits for. -/
def firstLost (d : RingDir) (lost : List Nat) (l : List (Nat × Nat)) : Nat :=
  ((l.filter fun f => lost.contains f.1).head?.map Prod.fst).getD d.txNext

/-- The receiver of a direction, and the addresses that it delivers, once every unacknowledged flit has been sent again. -/
def ringReplay (now : Nat) (d : RingDir) (lost : List Nat) : RingDir × List Nat :=
  let l := pendingFlits now d
  l.foldl ringTake (((l.filter (arrived lost)).foldl ringTake ({ d with rxNext := firstLost d lost l, held := [] }, [])).1, [])

/-- The ring links once a direction has sent again. -/
def coresResend (now dir : Nat) (lost : List Nat) (c : Cores) : Cores :=
  let r := ringReplay now (lookupD {} dir c.ring) lost
  { c with ring := insertKey dir { r.1 with unacked := [] } c.ring, delivered := insertKey dir r.2 c.delivered }

theorem ringResend_eq (dir : Nat) (lost : List Nat) (s : State) :
    ringResend dir lost s = { s with cores := coresResend s.dt dir lost s.cores } := rfl

section Replay

variable {now n : Nat} {d : RingDir} {lost : List Nat} {l : List (Nat × Nat)}

theorem head?_filter_lost : (l.filter fun f => lost.contains f.1).head? = (l.dropWhile (arrived lost)).head? := by
  induction l with
  | nil => rfl
  | cons f l ih =>
    cases hf : lost.contains f.1 with
    | false => simpa only [List.filter_cons, List.dropWhile_cons, arrived, hf, Bool.not_false, Bool.false_eq_true, if_true, if_false] using ih
    | true => simp only [List.filter_cons, List.dropWhile_cons, arrived, hf, Bool.not_true, Bool.false_eq_true, if_true, if_false, List.head?_cons]

theorem firstLost_eq (hl : InSequence (d.txNext - l.length) l) (hle : l.length ≤ d.txNext) :
    firstLost d lost l = d.txNext - l.length + (l.takeWhile (arrived lost)).length := by
  have hsuf := (hl.split (arrived lost)).2
  rw [firstLost, head?_filter_lost]
  cases hs : l.dropWhile (arrived lost) with
  | nil =>
    have hall : l.takeWhile (arrived lost) = l := by
      rw [← List.append_nil (l.takeWhile _), ← hs, List.takeWhile_append_dropWhile]
    simp [hall, hle]
  | cons f r =>
    rw [hs, inSequence_cons] at hsuf
    exact hsuf.1

/-- The receiver delivers, each once and in order, those from the first that had not arrived. -/
theorem ringReplay_delivers (hl : InSequence (d.txNext - (pendingFlits now d).length) (pendingFlits now d))
    (hle : (pendingFlits now d).length ≤ d.txNext) :
    (ringReplay now d lost).2 = ((pendingFlits now d).dropWhile (arrived lost)).map Prod.snd := by
  have hgot := foldl_ringTake_filter (d := d) (out := []) (p := arrived lost) hl
  obtain ⟨hpre, hsuf⟩ := hl.split (arrived lost)
  have hagain := foldl_ringTake_receiverAt (d := d) (p := arrived lost) (out := []) hsuf
  rw [receiverAt_dropWhile] at hgot hagain
  have hsplit {x : RingDir × List Nat} : (pendingFlits now d).foldl ringTake x =
      ((pendingFlits now d).dropWhile (arrived lost)).foldl ringTake (((pendingFlits now d).takeWhile (arrived lost)).foldl ringTake x) := by
    rw [← List.foldl_append, List.takeWhile_append_dropWhile]
  rw [ringReplay, firstLost_eq hl hle, hgot, hsplit, foldl_ringTake_of_lt fun f hf => (hpre.le hf).2, hagain, List.nil_append]

/-- The flits from the first that had not arrived, as the statement names them. -/
theorem filter_any_lost (hl : InSequence n l) :
    (l.filter fun f => l.any fun g => lost.contains g.1 && decide (g.1 ≤ f.1)) = l.dropWhile (arrived lost) := by
  induction l generalizing n with
  | nil => rfl
  | cons x l ih =>
    obtain ⟨hx, hl⟩ := inSequence_cons.1 hl
    have hlt : ∀ f ∈ l, x.1 < f.1 := fun f hf => by have := (hl.le hf).1; omega
    by_cases hlost : x.1 ∈ lost
    · rw [List.dropWhile_cons_of_neg (by simp [arrived, hlost]), List.filter_eq_self]
      intro f hf
      have hle : x.1 ≤ f.1 := by
        rcases List.mem_cons.1 hf with rfl | hf
        · exact Nat.le_refl _
        · exact Nat.le_of_lt (hlt f hf)
      simp [hlost, hle]
    · rw [List.dropWhile_cons_of_pos (by simp [arrived, hlost]), ← ih hl, List.filter_cons_of_neg]
      · simp [hlost]
      · simpa [hlost] using fun a b hab _ => hlt (a, b) hab

/-- What the receiver delivers, as the statement writes it of the unacknowledged flits (number, DT of sending, address). -/
theorem ringReplay_delivers_late {un : List (Nat × Nat × Nat)} (hun : ringUnacked now d = un)
    (hseq : un.map (fun f => f.1) = List.range' (d.txNext - un.length) un.length) (hle : un.length ≤ d.txNext) :
    (ringReplay now d lost).2 =
      (un.filter fun f => un.any fun g => lost.contains g.1 && decide (g.1 ≤ f.1)).map fun f => f.2.2 := by
  have hlen : (pendingFlits now d).length = un.length := by simp [pendingFlits, hun]
  have hl : InSequence (d.txNext - (pendingFlits now d).length) (pendingFlits now d) := by
    simpa [InSequence, pendingFlits, hun, Function.comp_def] using hseq
  rw [ringReplay_delivers hl (hlen ▸ hle), ← filter_any_lost hl, pendingFlits, hun]
  simp [List.filter_map, List.any_map, Function.comp_def]

end Replay

section Resend

variable {now dir j : Nat} {lost : List Nat} {c : Cores}

theorem coresResend_delivered : lookupO dir (coresResend now dir lost c).delivered = some (ringReplay now (lookupD {} dir c.ring) lost).2 :=
  (lookup_insert_same [] _ _ _).1

theorem coresResend_delivered_of_ne (h : j ≠ dir) : lookupO j (coresResend now dir lost c).delivered = lookupO j c.delivered :=
  lookupO_insertKey_of_ne h _ _

theorem coresResend_unacked : (lookupD {} dir (coresResend now dir lost c).ring).unacked = [] := by
  simp [coresResend]

theorem coresResend_ring_of_ne (h : j ≠ dir) : lookupD {} j (coresResend now dir lost c).ring = lookupD {} j c.ring :=
  lookupD_insertKey_of_ne h _ _ _

end Resend

/-! ## The failover -/

/-- The ring links once link `link` has failed over: both directions have sent again, and the traffic takes the hub route. -/
def coresFailover (now link : Nat) (lostA lostB : List Nat) (c : Cores) : Cores :=
  { coresResend now (2 * link + 1) lostB (coresResend now (2 * link) lostA c) with hubRoute := c.hubRoute ++ [link] }

section Failover

variable {t now link : Nat} {lostA lostB : List Nat} {s : State} {c : Cores}

theorem coresFailover_delivered_even : lookupO (2 * link) (coresFailover now link lostA lostB c).delivered =
    some (ringReplay now (lookupD {} (2 * link) c.ring) lostA).2 :=
  (coresResend_delivered_of_ne (by omega)).trans coresResend_delivered

theorem coresFailover_delivered_odd : lookupO (2 * link + 1) (coresFailover now link lostA lostB c).delivered =
    some (ringReplay now (lookupD {} (2 * link + 1) c.ring) lostB).2 :=
  coresResend_delivered.trans (by rw [coresResend_ring_of_ne (by omega)])

theorem coresFailover_unacked_even : (lookupD {} (2 * link) (coresFailover now link lostA lostB c).ring).unacked = [] :=
  (congrArg RingDir.unacked (coresResend_ring_of_ne (by omega))).trans coresResend_unacked

theorem coresFailover_unacked_odd : (lookupD {} (2 * link + 1) (coresFailover now link lostA lostB c).ring).unacked = [] :=
  coresResend_unacked

theorem ringFail_eq (h : ¬ (link < 4 ∨ link > 7 ∨ s.cores.hubRoute.contains link = true)) :
    ringFail link lostA lostB s = { s with cores := coresFailover s.dt link lostA lostB s.cores } := by
  rw [ringFail, if_neg h]
  simp only [ringResend_eq]
  rfl

theorem exec_ringLinkFailover_live (hs : Live s) : exec (.ringLinkFailover t link lostA lostB) s =
    .next (if link < 4 ∨ link > 7 ∨ s.cores.hubRoute.contains link then atDt t s
      else raise (129 + 2 * link) 0 0 (ringFail link lostA lostB (atDt t s))) := by
  change execRingLinkFailover t link lostA lostB s = _
  rw [execRingLinkFailover, runAt_live hs]; rfl

/-- A link that is none of the ring links, or that has failed over already, changes nothing. -/
theorem exec_ringLinkFailover_ignored (hs : Live s) (h : link < 4 ∨ 7 < link ∨ link ∈ s.cores.hubRoute) :
    exec (.ringLinkFailover t link lostA lostB) s = .next (atDt t s) := by
  rw [exec_ringLinkFailover_live hs, if_pos (by simpa using h)]

theorem exec_ringLinkFailover_first (hs : Live s) (h4 : 4 ≤ link) (h7 : link ≤ 7) (hnew : link ∉ s.cores.hubRoute) :
    exec (.ringLinkFailover t link lostA lostB) s =
      .next (raise (129 + 2 * link) 0 0 { atDt t s with cores := coresFailover (atDt t s).dt link lostA lostB s.cores }) := by
  have hring : ¬ (link < 4 ∨ link > 7 ∨ s.cores.hubRoute.contains link = true) := by
    simp [hnew, h4, h7]
  rw [exec_ringLinkFailover_live hs, if_neg hring, ringFail_eq (s := atDt t s) hring]; rfl

end Failover

/-- Settles O46: the failover sends both directions again, and each delivers what `ringReplay_delivers_late` says; the two directions have entries
of their own. -/
theorem ringLinkFailover : Obligations.RingLinkFailover := by
  unfold Obligations.RingLinkFailover
  intro t link lostA lostB s hs u dir un inOrder late
  refine ⟨exec_ringLinkFailover_ignored hs, fun h4 h7 hnew =>
    ⟨coresFailover u.dt link lostA lostB s.cores, exec_ringLinkFailover_first hs h4 h7 hnew, rfl, rfl, rfl, rfl, ?even, ?odd,
      coresFailover_unacked_even, coresFailover_unacked_odd⟩⟩
  case even =>
    rintro ⟨hseq, hle⟩
    rw [coresFailover_delivered_even, ringReplay_delivers_late rfl hseq hle]; rfl
  case odd =>
    rintro ⟨hseq, hle⟩
    rw [coresFailover_delivered_odd, ringReplay_delivers_late rfl hseq hle]; rfl

end Sys2Proof.Machine
end

section
/-! SUPPORT. The set-up registers whose values have a range (02 R37, 16 R479, 17 R511, R519, R528) and the commit of a 64-bit pair (17 R504, R508,
R514): one equation per case of each write, and the statement about them (O18). -/

namespace Sys2Proof.Machine

/-! ## Registers with a range check -/

section RangedWrites

variable {t v r : Nat} {s : State}

theorem exec_framePeriodWrite_live (hs : Live s) : exec (.framePeriodWrite t v) s = .next (writePeriod v (atDt t s)) := runAt_live hs t _

theorem exec_mapWindowZWrite_live (hs : Live s) : exec (.mapWindowZWrite t v) s = .next (writeWindowZ v (atDt t s)) := runAt_live hs t _

theorem exec_mapForecastWrite_live (hs : Live s) : exec (.mapForecastWrite t v) s = .next (writeForecast v (atDt t s)) := runAt_live hs t _

theorem exec_limitWWrite_live (hs : Live s) : exec (.limitWWrite t v) s = .next (writeLimitW (v % 256) (atDt t s)) := runAt_live hs t _

theorem exec_logEnWrite_live {on : Bool} (hs : Live s) : exec (.logEnWrite t on) s = .next (writeLogEn on (atDt t s)) := runAt_live hs t _

theorem exec_pwrRailThrWrite_live (hs : Live s) (hr : r < 10) : exec (.pwrRailThrWrite t r v) s = .next (writeRailThr r v (atDt t s)) := by
  change execPwrRailThrWrite t r v s = _
  rw [execPwrRailThrWrite, runAt_live hs, if_pos hr]

/-- FRAME_PERIOD belongs to unit 0 (02 R38). -/
theorem writePeriod_downstream (hh : s.chain.head = false) : writePeriod v s = s := by
  simp [writePeriod, hh]

theorem writePeriod_in_range (hh : s.chain.head = true) (hlo : 500 ≤ v % 2 ^ 14) (hhi : v % 2 ^ 14 ≤ 10000) :
    writePeriod v s = { s with frame := { s.frame with periodNext := v % 2 ^ 14 } } := by
  have hin : ¬ (v % 2 ^ 14 < 500 ∨ v % 2 ^ 14 > 10000) := by omega
  simp only [writePeriod, hh, if_neg hin]
  rfl

theorem writePeriod_out_of_range (hh : s.chain.head = true) (hout : v % 2 ^ 14 < 500 ∨ 10000 < v % 2 ^ 14) :
    writePeriod v s = { s with frame := { s.frame with periodErr := true } } := by
  simp only [writePeriod, hh, gt_iff_lt, if_pos hout]
  rfl

/-- The write of MAP_WINDOW_Z errs after the first seal, and on a value outside the window's travel. -/
theorem writeWindowZ_refused (h : s.world.sealedOnce = true ∨ signed 32 (v % 2 ^ 32) < -16384 ∨ 16352 < signed 32 (v % 2 ^ 32)) :
    writeWindowZ v s = { s with world := { s.world with zErr := true } } := by
  simp only [writeWindowZ, gt_iff_lt, if_pos h]

theorem not_windowZ_refused (hs : s.world.sealedOnce = false) {z : Int} (hlo : -16384 ≤ z) (hhi : z ≤ 16352) :
    ¬ (s.world.sealedOnce = true ∨ z < -16384 ∨ z > 16352) := by
  simp only [hs, Bool.false_eq_true, false_or]
  omega

theorem writeWindowZ_first (hs : s.world.sealedOnce = false) (hlo : -16384 ≤ signed 32 (v % 2 ^ 32)) (hhi : signed 32 (v % 2 ^ 32) ≤ 16352)
    (hw : s.world.windowZWritten = false) :
    writeWindowZ v s = { s with world := { s.world with windowZWritten := true, windowZ := signed 32 (v % 2 ^ 32),
                                                        fl := { s.world.fl with oz := signed 32 (v % 2 ^ 32) } } } := by
  simp only [writeWindowZ, if_neg (not_windowZ_refused hs hlo hhi), hw]
  rfl

/-- MAP_WINDOW_Z takes one write only (00 R11 RW1). -/
theorem writeWindowZ_again (hs : s.world.sealedOnce = false) (hlo : -16384 ≤ signed 32 (v % 2 ^ 32)) (hhi : signed 32 (v % 2 ^ 32) ≤ 16352)
    (hw : s.world.windowZWritten = true) : writeWindowZ v s = s := by
  simp only [writeWindowZ, if_neg (not_windowZ_refused hs hlo hhi), hw, if_true]

theorem writeForecast_in_range (ha : 10 ≤ v % 256) (ha' : v % 256 ≤ 200) (hb : 1 ≤ bitsOf v 8 5) (hb' : bitsOf v 8 5 ≤ 16) :
    writeForecast v s = { s with world := { s.world with fcastNext := some (v % 256, bitsOf v 8 5, bitsOf v 16 8) } } := by
  have hin : ¬ (v % 256 < 10 ∨ v % 256 > 200 ∨ bitsOf v 8 5 < 1 ∨ bitsOf v 8 5 > 16) := by omega
  simp only [writeForecast, if_neg hin]

theorem writeForecast_out_of_range (h : v % 256 < 10 ∨ 200 < v % 256 ∨ bitsOf v 8 5 < 1 ∨ 16 < bitsOf v 8 5) :
    writeForecast v s = { s with world := { s.world with fcastErr := true } } := by
  simp only [writeForecast, gt_iff_lt, if_pos h]

theorem writeLimitW_in_range (hlo : 90 ≤ v) (hhi : v ≤ 240) : writeLimitW v s = { s with pwr := { s.pwr with limitNext := v } } :=
  if_neg (by omega)

theorem writeLimitW_out_of_range (h : v < 90 ∨ 240 < v) : writeLimitW v s = { s with pwr := { s.pwr with limitErr := true } } :=
  if_pos h

theorem writeLogEn_off : writeLogEn false s = { s with det := { s.det with logEn := false } } := rfl

/-- The log starts where its geometry allows it and it does not run already (17 R528). -/
theorem writeLogEn_on (hoff : s.det.logEn = false) (hlo : 8 ≤ s.det.logSize) (hhi : s.det.logSize ≤ 24) (hb : s.det.logBase % 64 = 0)
    (ha : s.det.headAddr % 4 = 0) :
    writeLogEn true s = { s with det := { s.det with logEn := true, dropped := 0, droppedSince := 0, written := 0 } } := by
  have hok : ¬ (s.det.logEn = true ∨ s.det.logSize < 8 ∨ s.det.logSize > 24 ∨ s.det.logBase % 64 ≠ 0 ∨ s.det.headAddr % 4 ≠ 0) := by
    simp only [hoff, Bool.false_eq_true, false_or]
    omega
  simp only [writeLogEn, if_neg hok]
  rfl

theorem writeLogEn_on_ignored
    (h : s.det.logEn = true ∨ s.det.logSize < 8 ∨ 24 < s.det.logSize ∨ s.det.logBase % 64 ≠ 0 ∨ s.det.headAddr % 4 ≠ 0) :
    writeLogEn true s = s := by
  simp only [writeLogEn, gt_iff_lt, if_pos h]
  rfl

/-! ### The rail thresholds -/

@[simp] theorem railOf_atDt : railOf (atDt t s) r = railOf s r := by
  simp only [railOf, atDt_pwr, avsDue_rails]

/-- The warning threshold `a` and the reset threshold `w` of a rail, in percent, lie in their ranges and 3 apart (17 R511). -/
abbrev RailThrOk (a w : Nat) : Prop := 80 ≤ a ∧ a ≤ 98 ∧ 75 ≤ w ∧ w ≤ 95 ∧ w + 3 ≤ a

/-- A rail whose error bit a write may clear. -/
def railCleared (v : Nat) (x : Rail) : Rail := { x with err := x.err && !bitOf v 16 }

@[simp] theorem railCleared_low (x : Rail) : (railCleared v x).low = x.low := rfl

/-- A write of a rail's thresholds, but that of two zeros, which only clears. -/
theorem writeRailThr_eq (h0 : ¬ (v % 256 = 0 ∧ bitsOf v 8 8 = 0)) :
    writeRailThr r v s = setRail r
      (if ¬ RailThrOk (v % 256) (bitsOf v 8 8) then { railCleared v (railOf s r) with err := true }
       else if (railOf s r).low then { railCleared v (railOf s r) with held := some (v % 256, bitsOf v 8 8) }
       else { railCleared v (railOf s r) with warnPct := v % 256, resetPct := bitsOf v 8 8 }) s := by
  have hclear : (if bitOf v 16 then { railOf s r with err := false } else railOf s r) = railCleared v (railOf s r) := by
    cases hb : bitOf v 16 <;> simp [railCleared, hb]
  have hrange : (v % 256 < 80 ∨ v % 256 > 98 ∨ bitsOf v 8 8 < 75 ∨ bitsOf v 8 8 > 95 ∨ bitsOf v 8 8 + 3 > v % 256) ↔
      ¬ RailThrOk (v % 256) (bitsOf v 8 8) := by omega
  simp only [writeRailThr, hclear, if_neg h0, hrange, railCleared_low, apply_ite (fun x => setRail r x s)]

theorem RailThrOk.not_zero {a w : Nat} (h : RailThrOk a w) : ¬ (a = 0 ∧ w = 0) := by omega

theorem writeRailThr_in_range (h : RailThrOk (v % 256) (bitsOf v 8 8)) (hl : (railOf s r).low = false) :
    writeRailThr r v s = setRail r { railCleared v (railOf s r) with warnPct := v % 256, resetPct := bitsOf v 8 8 } s := by
  rw [writeRailThr_eq h.not_zero, if_neg (not_not_intro h), hl]; rfl

/-- A rail that is low holds the write until it has recovered (17 R511). -/
theorem writeRailThr_held (h : RailThrOk (v % 256) (bitsOf v 8 8)) (hl : (railOf s r).low = true) :
    writeRailThr r v s = setRail r { railCleared v (railOf s r) with held := some (v % 256, bitsOf v 8 8) } s := by
  rw [writeRailThr_eq h.not_zero, if_neg (not_not_intro h), hl]; rfl

theorem writeRailThr_out_of_range (h0 : ¬ (v % 256 = 0 ∧ bitsOf v 8 8 = 0)) (h : ¬ RailThrOk (v % 256) (bitsOf v 8 8)) :
    writeRailThr r v s = setRail r { railCleared v (railOf s r) with err := true } s := by
  rw [writeRailThr_eq h0, if_pos h]

end RangedWrites

/-! ## The commit of a pair -/

section PairCommit

variable {off a : Nat} {s : State}

/-- The doorbell tree's addresses stand while the poller runs (17 R514). -/
theorem writePair_doorbell_ignored (h : off ∈ [0x40080, 0x40088, 0x40090]) (hp : s.hostq.pollEn = true) : writePair off a s = s := by
  simp only [List.mem_cons, List.not_mem_nil, or_false] at h
  rcases h with rfl | rfl | rfl <;> exact if_pos hp

/-- The log's addresses stand while the log runs (17 R528). -/
theorem writePair_log_ignored (h : off ∈ [0xC000C, 0xC0014]) (hl : s.det.logEn = true) : writePair off a s = s := by
  simp only [List.mem_cons, List.not_mem_nil, or_false] at h
  rcases h with rfl | rfl <;> exact if_pos hl

end PairCommit

/-- Settles O18: each write is one command at its DT, and its equation of the case applies. -/
theorem rangedRegisters : Obligations.RangedRegisters := by
  unfold Obligations.RangedRegisters
  refine ⟨?commands, ?pairs⟩
  case commands =>
    intro t v r s hs u z a b w x y
    have hx : railOf u r = x := railOf_atDt
    refine ⟨fun hh hlo hhi => ?period, fun hh hout => ?periodErr, fun hh => ?periodDown, fun h => ?zErr, fun h hlo hhi hw => ?zFirst,
      fun h hlo hhi hw => ?zAgain, fun ha ha' hb hb' => ?forecast, fun h => ?forecastErr, fun hlo hhi => ?limit, fun h => ?limitErr,
      fun hr h1 h2 h3 h4 h5 hl => ?thr, fun hr h1 h2 h3 h4 h5 hl => ?thrHeld, fun hr h0 h => ?thrErr, exec_logEnWrite_live hs,
      fun hoff hlo hhi hb ha => ?logOn, fun h => ?logIgnored⟩
    case period => rw [exec_framePeriodWrite_live hs, writePeriod_in_range (s := u) hh hlo hhi]; rfl
    case periodErr => rw [exec_framePeriodWrite_live hs, writePeriod_out_of_range (s := u) hh hout]; rfl
    case periodDown => rw [exec_framePeriodWrite_live hs, writePeriod_downstream (s := u) hh]
    case zErr => rw [exec_mapWindowZWrite_live hs, writeWindowZ_refused (s := u) h]; rfl
    case zFirst => rw [exec_mapWindowZWrite_live hs, writeWindowZ_first (s := u) h hlo hhi hw]; rfl
    case zAgain => rw [exec_mapWindowZWrite_live hs, writeWindowZ_again (s := u) h hlo hhi hw]
    case forecast => rw [exec_mapForecastWrite_live hs, writeForecast_in_range ha ha' hb hb']; rfl
    case forecastErr => rw [exec_mapForecastWrite_live hs, writeForecast_out_of_range h]; rfl
    case limit => rw [exec_limitWWrite_live hs, writeLimitW_in_range hlo hhi]
    case limitErr => rw [exec_limitWWrite_live hs, writeLimitW_out_of_range h]
    case thr => rw [exec_pwrRailThrWrite_live hs hr, writeRailThr_in_range (s := u) ⟨h1, h2, h3, h4, h5⟩ (hx ▸ hl), hx]; rfl
    case thrHeld => rw [exec_pwrRailThrWrite_live hs hr, writeRailThr_held (s := u) ⟨h1, h2, h3, h4, h5⟩ (hx ▸ hl), hx]; rfl
    case thrErr =>
      have hout : ¬ RailThrOk (v % 256) (bitsOf v 8 8) := by omega
      rw [exec_pwrRailThrWrite_live hs hr, writeRailThr_out_of_range (s := u) h0 hout, hx]; rfl
    case logOn => rw [exec_logEnWrite_live hs, writeLogEn_on (s := u) hoff hlo hhi hb ha]; rfl
    case logIgnored => rw [exec_logEnWrite_live hs, writeLogEn_on_ignored (s := u) h]
  case pairs =>
    intro off a u
    refine ⟨?_, ?_, ?_, ?_, ?_, ?_, ?_, writePair_doorbell_ignored, writePair_log_ignored⟩
    · rintro rfl; rfl
    · rintro rfl; rfl
    all_goals
      rintro rfl hoff
      exact if_neg (by simp [hoff])

end Sys2Proof.Machine
end

section
/-! SUPPORT. The acceptance of FRAME_RUN, CHECK, SOLVE, SELECT and TENSOR_RUN (02 R41, R42, 04 R155, 05 R198, 06 R234, 07 R258): each kind's own
steps on the state in which a taken descriptor is accepted, and the statement about them (O56). -/

namespace Sys2Proof.Machine

/-! ## The steps that the kinds share -/

section Steps

variable {d : Taken} {v : View} {s : State}

theorem firstFail_eq_none_iff {l : List (Bool × Fail)} : firstFail l = none ↔ ∀ c ∈ l, c.1 = false := by
  simp [firstFail]

theorem withRead_some {a n : Nat} {b : Bytes} {k : Bytes → State → State} (h : hostRead v s a n = some b) : withRead d v a n s k = k b s := by
  rw [withRead, h]

/-- No record is the first that fails when none does. -/
theorem find?_zipIdx_of_all {α : Type} {p : α → Bool} {l : List α} (h : l.all p = true) : l.zipIdx.find? (fun x => !p x.1) = none := by
  rw [List.find?_eq_none]
  intro x hx
  simpa using List.all_eq_true.1 h x.1 (List.fst_mem_of_mem_zipIdx hx)

/-- Work joins when its result buffer holds `need` bytes, and is refused with the size needed when it does not. -/
theorem result_buffer_fits {size need : Nat} {x y : State} (h : need ≤ size) : (if size < need then x else y) = y :=
  if_neg (Nat.not_lt.2 h)

end Steps

/-! ## FRAME_RUN and CHECK -/

section FrameWork

variable {d : Taken} {v : View} {s : State}

/-- The people records of a FRAME_RUN, cut from their buffer (06 R217). -/
abbrev peopleOf (d : Taken) (pb : Bytes) : List Bytes := (List.range (fld d 0x32 2)).map fun i => (pb.drop (48 * i)).take 48

/-- What a FRAME_RUN's descriptor says, with its measurement `mb` and its people `pb` as read. -/
def frameRunItem (d : Taken) (mb pb : Bytes) : FrWork :=
  { target := fld d 8 8, resultAddr := fld d 0x10 8, nWarm := fld d 0x2C 2, nProp := fld d 0x2E 2, k := fld d 0x30 2, optClass := fld d 0x34 1,
    sealReq := fld d 0x35 1 == 1, meas := parseMeas mb, people := peopleOf d pb }

/-- What a CHECK's descriptor says. -/
def checkItem (d : Taken) : CkWork :=
  { target := fld d 8 8, candAddr := fld d 0x10 8, candCount := fld d 0x20 4, stride := fld d 0x2C 2, resultAddr := fld d 0x18 8,
    weight := fld d 0x28 4, margin := fld d 0x2E 2, k := fld d 0x30 2, learned := fld d 0x32 2 == 1, todo := List.range (batchCount (fld d 0x20 4)) }

theorem classOf_of_frameClass {i : Nat} {c : PClass} (h : frameClass s i = some c) : classOf s i = some c :=
  (Option.filter_eq_some_iff.1 h).1

theorem exec_frameRun_fits {mb pb : Bytes} {c : PClass} (ha : Admits { code := 6 } d s) (hck : firstFail (frameRunChecks (accepted d v s) d) = none)
    (hm : hostRead v (accepted d v s) (fld d 0x18 8) 352 = some mb)
    (hp : hostRead v (accepted d v s) (fld d 0x20 8) (48 * fld d 0x32 2) = some pb)
    (hc : frameClass (accepted d v s) (fld d 0x34 1) = some c) (hmeas : measOk (some c) mb = true)
    (hpeople : (peopleOf d pb).all personOk = true) (hsec : hasSection (accepted d v s) 2 = true)
    (hprop : fld d 0x2E 2 ≤ proposalCount (accepted d v s)) (hbody : bodyReady (accepted d v s) (frameRunBound (accepted d v s) d) = true) :
    exec (.frameRun d v) s = .next (
      if fld d 0x28 4 < frameRunBytes (fld d 0x30 2) c then refuse d (tooSmall (frameRunBytes (fld d 0x30 2) c)) (accepted d v s)
      else addWork (mkWork d (frameRunBound (accepted d v s) d) (.frameRun (frameRunItem d mb pb)) (accepted d v s)) (accepted d v s)) := by
  change execFrameRun d v s = _
  rw [execFrameRun, acceptDesc_next ha, withChecks_pass hck, withRead_some hm, withRead_some hp]
  simp only [classOf_of_frameClass hc, hmeas, find?_zipIdx_of_all hpeople, hc]
  simp only [hsec, hbody, Nat.not_lt.2 hprop]
  rfl

theorem exec_check_fits (ha : Admits { code := 8 } d s) (hck : firstFail (checkChecks (accepted d v s) d) = none)
    (hsec : hasSection (accepted d v s) 3 = true) (hbody : bodyReady (accepted d v s) (boundOf (accepted d v s) d) = true) :
    exec (.check d v) s = .next (
      if fld d 0x24 4 < checkBytes (fld d 0x20 4) (fld d 0x30 2) then
        refuse d (tooSmall (checkBytes (fld d 0x20 4) (fld d 0x30 2))) (accepted d v s)
      else addWork (mkWork d (boundOf (accepted d v s) d) (.check (checkItem d)) (accepted d v s)) (accepted d v s)) := by
  change execCheck d v s = _
  rw [execCheck, acceptDesc_next ha, withChecks_pass hck]
  simp only [hsec, hbody]
  rfl

end FrameWork

/-! ## Standalone work -/

section Standalone

variable {d : Taken} {v : View} {s : State} {g : Accord}

/-- The checks of a SOLVE's fields (05 R198, R201), with records of `rb` bytes. -/
abbrev solveChecks (s : State) (d : Taken) (rb : Nat) : List (Bool × Fail) :=
  [(targetPast s d, badField 8), (fld d 0x10 8 % 8 != 0, badField 0x10), (fld d 0x18 8 % 8 != 0, badField 0x18),
   (fld d 0x20 4 % 8 != 0 || decide (fld d 0x20 4 < rb), badField 0x20),
   (fld d 0x28 4 != 0 && (decide (fld d 0x28 4 < 1000) || decide (fld d 0x28 4 > 10000000)), badField 0x28),
   (fld d 0x2C 2 == 0 || decide (fld d 0x2C 2 > 4096), badField 0x2C), (decide (fld d 0x2F 1 > 1), badField 0x2F), reservedCheck d [(8, 0x28)]]

theorem solveChecks_pass {rb : Nat} (ht : targetPast s d = false) (hp : fld d 0x10 8 % 8 = 0) (hr : fld d 0x18 8 % 8 = 0)
    (hst : fld d 0x20 4 % 8 = 0) (hrb : rb ≤ fld d 0x20 4) (hb : fld d 0x28 4 = 0 ∨ (1000 ≤ fld d 0x28 4 ∧ fld d 0x28 4 ≤ 10000000))
    (h1 : 1 ≤ fld d 0x2C 2) (hn : fld d 0x2C 2 ≤ 4096) (hf : fld d 0x2F 1 ≤ 1) (hres : (reservedCheck d [(8, 0x28)]).1 = false) :
    firstFail (solveChecks s d rb) = none := by
  have hbudget : (fld d 0x28 4 != 0 && (decide (fld d 0x28 4 < 1000) || decide (fld d 0x28 4 > 10000000))) = false := by
    simp only [Bool.and_eq_false_iff, bne_eq_false_iff_eq, Bool.or_eq_false_iff, decide_eq_false_iff_not]
    omega
  simp [firstFail_eq_none_iff, ht, hp, hr, hst, hrb, hbudget, Nat.ne_of_gt h1, hn, hf, hres]

/-- The record of problem `i` of a SOLVE, as read. -/
abbrev problemAt (d : Taken) (v : View) (s : State) (rb i : Nat) : Option Bytes := hostRead v s (fld d 0x10 8 + fld d 0x20 4 * i) rb

/-- No record meets a PCIe error when every one is read. -/
theorem filter_isNone_eq_nil {n : Nat} {f : Nat → Option Bytes} {p : Bytes → Bool} (h : ∀ i < n, ∃ b, f i = some b ∧ p b = true) :
    ((List.range n).map fun i => (i, f i)).filter (fun r => r.2.isNone) = [] := by
  simp only [List.filter_eq_nil_iff, List.forall_mem_map, List.mem_range]
  intro i hi
  obtain ⟨b, hb, -⟩ := h i hi
  simp [hb]

/-- No record is at fault when every one that is read passes. -/
theorem find?_getD_eq_none {n : Nat} {f : Nat → Option Bytes} {p : Bytes → Bool} (h : ∀ i < n, ∃ b, f i = some b ∧ p b = true) :
    (((List.range n).map fun i => (i, f i)).map fun r => (r.1, r.2.getD [])).find? (fun r => !p r.2) = none := by
  simp only [List.find?_eq_none, List.forall_mem_map, List.mem_range]
  intro i hi
  obtain ⟨b, hb, hp⟩ := h i hi
  simp [hb, hp]

/-- What a SOLVE's descriptor says, with its problems as read. -/
def solveItem (d : Taken) (v : View) (s : State) (c : PClass) : SvWork :=
  let warm := bitOf (fld d 0x2F 1) 0
  { target := fld d 8 8, cls := fld d 0x2E 1,
    probs := (List.range (fld d 0x2C 2)).map fun i => parseProb warm (some c) ((problemAt d v s (probBytes warm (some c)) i).getD []),
    resultAddr := fld d 0x18 8, budget := fld d 0x28 4, todo := List.range (fld d 0x2C 2) }

theorem exec_solve_fits {c : PClass} (ha : Admits { code := 7, reduced := false } d s) (hg : (accepted d v s).accord = some g)
    (hc : classOf (accepted d v s) (fld d 0x2E 1) = some c) (hsolve : c.solve = true) (hst : g.solveStarts ≠ 0)
    (hsec : hasSection (accepted d v s) 9 = true)
    (hck : firstFail (solveChecks (accepted d v s) d (probBytes (bitOf (fld d 0x2F 1) 0) (some c))) = none)
    (hread : ∀ i < fld d 0x2C 2, ∃ b, problemAt d v (accepted d v s) (probBytes (bitOf (fld d 0x2F 1) 0) (some c)) i = some b ∧
      probOk (bitOf (fld d 0x2F 1) 0) (some c) b = true)
    (hfit : 0x40 + fld d 0x2C 2 * solveResultBytes c ≤ fld d 0x24 4) :
    exec (.solve d v) s = .next (addWork (mkWork d (boundOf (accepted d v s) d) (.solve (solveItem d v (accepted d v s) c)) (accepted d v s))
      (accepted d v s)) := by
  change execSolve d v s = _
  rw [execSolve, acceptDesc_next ha]
  dsimp only
  rw [hc, withChecks_pass hck]
  rw [filter_isNone_eq_nil hread, find?_getD_eq_none hread]
  simp only [List.isEmpty_nil, List.foldl_nil, hg, hsolve, hsec, beq_eq_false_iff_ne.2 hst]
  rw [if_neg (by simp), if_neg (by simp), result_buffer_fits hfit]
  simp only [solveItem, List.map_map]
  rfl

/-- The checks of a SELECT's fields (07 R258). -/
abbrev selectChecks (s : State) (d : Taken) : List (Bool × Fail) :=
  [(targetPast s d, badField 8), (fld d 0x10 8 % 8 != 0, badField 0x10),
   (if fld d 0x38 2 % 2 = 1 then fld d 0x18 8 % 4 != 0 else fld d 0x18 8 != 0, badField 0x18), (fld d 0x20 8 % 8 != 0, badField 0x20),
   (fld d 0x28 4 == 0 || decide (fld d 0x28 4 > 1048576) || decide (fld d 0x36 2 * fld d 0x28 4 > 67108864), badField 0x28),
   (fld d 0x2C 4 % 8 != 0 || decide (fld d 0x2C 4 < fld d 0x28 4 * (keyBits (fld d 0x3A 1) / 8)), badField 0x2C),
   (fld d 0x34 2 == 0 || decide (fld d 0x34 2 > 4096), badField 0x34), (fld d 0x36 2 == 0 || decide (fld d 0x36 2 > 4096), badField 0x36),
   (decide (fld d 0x38 2 > 1), badField 0x38), (decide (fld d 0x3A 1 > 4), badField 0x3A), (decide (fld d 0x3B 1 > 1), badField 0x3B),
   reservedCheck d [(8, 0x34)]]

/-- Without explicit indices no index buffer is named; with them its words are aligned (07 R258). -/
theorem selectIndex_pass (h0 : fld d 0x38 2 = 0 → fld d 0x18 8 = 0) (h1 : fld d 0x38 2 = 1 → fld d 0x18 8 % 4 = 0) (hf : fld d 0x38 2 ≤ 1) :
    (if fld d 0x38 2 % 2 = 1 then fld d 0x18 8 % 4 != 0 else fld d 0x18 8 != 0) = false := by
  obtain hfl | hfl : fld d 0x38 2 = 0 ∨ fld d 0x38 2 = 1 := by omega
  · simp [hfl, h0 hfl]
  · simp [hfl, h1 hfl]

theorem selectChecks_pass (ht : targetPast s d = false) (hkey : fld d 0x10 8 % 8 = 0) (h0 : fld d 0x38 2 = 0 → fld d 0x18 8 = 0)
    (h1 : fld d 0x38 2 = 1 → fld d 0x18 8 % 4 = 0) (hout : fld d 0x20 8 % 8 = 0) (hlen : 1 ≤ fld d 0x28 4) (hlen' : fld d 0x28 4 ≤ 1048576)
    (hsize : fld d 0x36 2 * fld d 0x28 4 ≤ 67108864) (hst : fld d 0x2C 4 % 8 = 0)
    (hrow : fld d 0x28 4 * (keyBits (fld d 0x3A 1) / 8) ≤ fld d 0x2C 4) (hk : 1 ≤ fld d 0x34 2) (hk' : fld d 0x34 2 ≤ 4096)
    (hrows : 1 ≤ fld d 0x36 2) (hrows' : fld d 0x36 2 ≤ 4096) (hf : fld d 0x38 2 ≤ 1) (hty : fld d 0x3A 1 ≤ 4) (hord : fld d 0x3B 1 ≤ 1)
    (hres : (reservedCheck d [(8, 0x34)]).1 = false) : firstFail (selectChecks s d) = none := by
  simp [firstFail_eq_none_iff, selectIndex_pass h0 h1 hf, ht, hkey, hout, Nat.ne_of_gt hlen, hlen', hsize, hst, hrow, Nat.ne_of_gt hk, hk',
    Nat.ne_of_gt hrows, hrows', hf, hty, hord, hres]

/-- What a SELECT's descriptor says. -/
def selectItem (d : Taken) : SlWork :=
  { target := fld d 8 8, keyType := fld d 0x3A 1, order := fld d 0x3B 1, explicitIdx := fld d 0x38 2 == 1, k := fld d 0x34 2,
    rowCount := fld d 0x36 2, rowLen := fld d 0x28 4, rowStride := fld d 0x2C 4, keyAddr := fld d 0x10 8, idxAddr := fld d 0x18 8,
    resultAddr := fld d 0x20 8, todo := List.range (fld d 0x36 2) }

theorem exec_select_fits (ha : Admits { code := 9, reduced := false } d s) (hg : (accepted d v s).accord = some g) (hst : g.selectStarts ≠ 0)
    (hsec : hasSection (accepted d v s) 9 = true) (hck : firstFail (selectChecks (accepted d v s) d) = none)
    (hfit : 64 + fld d 0x36 2 * (16 + 16 * fld d 0x34 2) ≤ fld d 0x30 4) :
    exec (.select d v) s = .next (addWork (mkWork d (boundOf (accepted d v s) d) (.select (selectItem d)) (accepted d v s)) (accepted d v s)) := by
  change execSelect d v s = _
  rw [execSelect, acceptDesc_next ha]
  dsimp only
  rw [withChecks_pass hck]
  simp only [hg, hsec, hst]
  rw [if_neg (by simp), result_buffer_fits hfit]
  rfl

/-- The checks of a TENSOR_RUN's fields (06 R234), with input sets of `size` bytes. -/
abbrev tensorChecks (s : State) (d : Taken) (size : Nat) : List (Bool × Fail) :=
  [(targetPast s d, badField 8), (fld d 0x10 8 % 64 != 0, badField 0x10), (fld d 0x18 8 % 64 != 0, badField 0x18),
   (decide (fld d 0x20 4 < fld d 0x28 2 * size), badField 0x20), (fld d 0x28 2 == 0 || decide (fld d 0x28 2 > 256), badField 0x28),
   (decide (fld d 0x2B 1 > 1), badField 0x2B), reservedCheck d [(8, 0x24)]]

theorem tensorChecks_pass {size : Nat} (ht : targetPast s d = false) (hin : fld d 0x10 8 % 64 = 0) (hout : fld d 0x18 8 % 64 = 0)
    (hsize : fld d 0x28 2 * size ≤ fld d 0x20 4) (h1 : 1 ≤ fld d 0x28 2) (hruns : fld d 0x28 2 ≤ 256) (hdig : fld d 0x2B 1 ≤ 1)
    (hres : (reservedCheck d [(8, 0x24)]).1 = false) : firstFail (tensorChecks s d size) = none := by
  simp [firstFail_eq_none_iff, ht, hin, hout, hsize, Nat.ne_of_gt h1, hruns, hdig, hres]

/-- What a TENSOR_RUN's descriptor says. -/
def tensorItem (d : Taken) : TrWork :=
  { target := fld d 8 8, net := fld d 0x2A 1, writeDigests := fld d 0x2B 1 == 1, runCount := fld d 0x28 2, inAddr := fld d 0x10 8,
    outAddr := fld d 0x18 8, todo := List.range (fld d 0x28 2) }

theorem exec_tensorRun_fits {n : NetDecl} (ha : Admits { code := 0x0A, reduced := false } d s) (hg : (accepted d v s).accord = some g)
    (hn : g.nets[fld d 0x2A 1]? = some n) (htr : n.tr = true) (hst : g.tensorStarts ≠ 0) (hsec : hasSection (accepted d v s) 9 = true)
    (hck : firstFail (tensorChecks (accepted d v s) d (inputSet n)) = none)
    (hfit : 64 + fld d 0x28 2 * runBytes n (fld d 0x2B 1 == 1) ≤ fld d 0x24 4) :
    exec (.tensorRun d v) s =
      .next (addWork (mkWork d (boundOf (accepted d v s) d) (.tensorRun (tensorItem d)) (accepted d v s)) (accepted d v s)) := by
  have hnet : ((accepted d v s).accord.map (fun a => a.nets)).bind (fun l => l[fld d 0x2A 1]?) = some n := by
    rw [hg]; exact hn
  change execTensorRun d v s = _
  rw [execTensorRun, acceptDesc_next ha]
  dsimp only
  rw [hnet, withChecks_pass hck]
  simp only [hg, hsec, htr, beq_eq_false_iff_ne.2 hst]
  rw [if_neg (by simp), result_buffer_fits hfit]
  rfl

end Standalone

/-- Settles O56: the fields' conditions pass the kind's list of checks, the work fits the Accord, and the result buffer decides. -/
theorem planningDescriptors : Obligations.PlanningDescriptors := by
  unfold Obligations.PlanningDescriptors
  intro d v s a
  refine ⟨?frameRun, ?check, ?solve, ?select, ?tensorRun⟩
  case frameRun =>
    intro mb pb c ha hck hm hp hc hmeas people hpeople hsec hprop hbody
    rw [exec_frameRun_fits ha hck hm hp hc hmeas hpeople hsec hprop hbody]
    exact ⟨fun hsmall => by rw [if_pos hsmall], fun hfit => by rw [result_buffer_fits hfit]; rfl⟩
  case check =>
    intro ha hck hsec hbody
    rw [exec_check_fits ha hck hsec hbody]
    exact ⟨fun hsmall => by rw [if_pos hsmall], fun hfit => by rw [result_buffer_fits hfit]; rfl⟩
  case solve =>
    intro c g ha hg hc hsolve hst hsec warm rb n read_ ht hp hr hstride hrb hb h1 hn hf hres hread hfit
    exact exec_solve_fits ha hg hc hsolve hst hsec (solveChecks_pass ht hp hr hstride hrb hb h1 hn hf hres) hread hfit
  case select =>
    intro g ha hg hst hsec w len k rows ht hkey h0 h1 hres hlen hlen' hsize hstride hrow hk hk' hrows hrows' hfl hty hord hresv hfit
    exact exec_select_fits ha hg hst hsec
      (selectChecks_pass ht hkey h0 h1 hres hlen hlen' hsize hstride hrow hk hk' hrows hrows' hfl hty hord hresv) hfit
  case tensorRun =>
    intro g n ha hg hn htr hst hsec runs ht hin hout hsize h1 hruns hdig hres hfit
    exact exec_tensorRun_fits ha hg hn htr hst hsec (tensorChecks_pass ht hin hout hsize h1 hruns hdig hres) hfit

end Sys2Proof.Machine
end

section
/-! SUPPORT. What the outputs of a unit leave alone: a record written for the host, a log entry and a completion change no work, no optimisation, no
frame, and no plan to enumerate the chain (09 R318, 10 R343, 13 R413). -/

namespace Sys2Proof.Machine

/-- `b` comes of `a` by outputs alone: the work, the optimisations, the warm store and the frame stand, and so does a wanted enumeration. -/
structure OutputOnly (a b : State) : Prop where
  work : b.work = a.work
  opts : b.opts = a.opts
  warm : b.warm = a.warm
  frame : b.frame = a.frame
  enumPending : b.chain.enumPending = a.chain.enumPending

theorem OutputOnly.refl (s : State) : OutputOnly s s := ⟨rfl, rfl, rfl, rfl, rfl⟩

theorem OutputOnly.trans {a b c : State} (h : OutputOnly a b) (g : OutputOnly b c) : OutputOnly a c :=
  ⟨g.work.trans h.work, g.opts.trans h.opts, g.warm.trans h.warm, g.frame.trans h.frame, g.enumPending.trans h.enumPending⟩

theorem OutputOnly.ite {s x y : State} {p : Prop} {i : Decidable p} (hx : OutputOnly s x) (hy : OutputOnly s y) :
    OutputOnly s (@ite _ p i x y) := by
  split
  · exact hx
  · exact hy

theorem OutputOnly.foldl {α : Type} {g : State → α → State} (hg : ∀ s x, OutputOnly s (g s x)) (l : List α) (s : State) :
    OutputOnly s (l.foldl g s) := by
  induction l generalizing s with
  | nil => exact .refl s
  | cons x l ih => exact (hg s x).trans (ih (g s x))

theorem sendFlit_outputOnly (port : Nat) (m : FlitMsg) (s : State) : OutputOnly s (sendFlit port m s) := by
  refine ⟨rfl, rfl, rfl, rfl, ?_⟩
  unfold sendFlit
  dsimp only
  split <;> rfl

theorem hostWrite_outputOnly (id : DescId) (a : Nat) (bs : Bytes) (s : State) : OutputOnly s (hostWrite id s a bs) :=
  .ite ⟨rfl, rfl, rfl, rfl, rfl⟩ (sendFlit_outputOnly _ _ s)

theorem hostLog_outputOnly (a : Nat) (bs : Bytes) (s : State) : OutputOnly s (hostLog s a bs) :=
  .ite ⟨rfl, rfl, rfl, rfl, rfl⟩ (sendFlit_outputOnly _ _ s)

theorem sendMsix_outputOnly (v : Nat) (s : State) : OutputOnly s (sendMsix v s) :=
  .ite (.ite (sendFlit_outputOnly _ _ s) (.refl s))
    (.ite (.refl s) (.ite (.ite (.refl s) ⟨rfl, rfl, rfl, rfl, rfl⟩) ⟨rfl, rfl, rfl, rfl, rfl⟩))

theorem setCtx_outputOnly (c : Nat) (x : Ctx) (s : State) : OutputOnly s (setCtx s c x) := ⟨rfl, rfl, rfl, rfl, rfl⟩

theorem ctxIrq_outputOnly (c : Nat) (force : Bool) (s : State) : OutputOnly s (ctxIrq c force s) :=
  .ite (.refl s) (.ite ((setCtx_outputOnly _ _ s).trans (sendMsix_outputOnly _ _)) (setCtx_outputOnly _ _ s))

theorem putCompletion_outputOnly (c num : Nat) (force : Bool) (mk : Nat → Bytes) (s : State) : OutputOnly s (putCompletion c num force mk s) :=
  .ite (.refl s) (.trans (b := setCtx { s with hostMem := _ } c _) ⟨rfl, rfl, rfl, rfl, rfl⟩ (ctxIrq_outputOnly c force _))

theorem complete_outputOnly (h : Hdr) (status flags aux0 aux1 : Nat) (frame : Option Nat) (s : State) :
    OutputOnly s (complete h status flags aux0 aux1 frame s) :=
  .ite (putCompletion_outputOnly _ _ _ _ s) (sendFlit_outputOnly _ _ s)

theorem logPut_outputOnly (digest frame tag object sub client dkind : Nat) (s : State) :
    OutputOnly s (logPut digest frame tag object sub client dkind s) :=
  (hostLog_outputOnly _ _ s).trans ⟨rfl, rfl, rfl, rfl, rfl⟩

theorem logEntry_outputOnly (level digest frame tag object sub client dkind : Nat) (s : State) :
    OutputOnly s (logEntry level digest frame tag object sub client dkind s) := by
  unfold logEntry
  refine .ite (.refl s) (.ite ⟨rfl, rfl, rfl, rfl, rfl⟩ ?_)
  have hdropped : OutputOnly s (if s.det.droppedSince = 0 then s else
      { logPut 0 s.frame.number 0 s.det.droppedSince 0 0 11 s with
        det := { (logPut 0 s.frame.number 0 s.det.droppedSince 0 0 11 s).det with droppedSince := 0 } }) :=
    .ite (.refl s) ((logPut_outputOnly _ _ _ _ _ _ _ s).trans ⟨rfl, rfl, rfl, rfl, rfl⟩)
  exact .ite (hdropped.trans ⟨rfl, rfl, rfl, rfl, rfl⟩) (hdropped.trans (logPut_outputOnly _ _ _ _ _ _ _ _))

theorem logWork_outputOnly (w : Work) (level digest frame object sub dkind : Nat) (s : State) :
    OutputOnly s (logWork w level digest frame object sub dkind s) := logEntry_outputOnly _ _ _ _ _ _ _ _ s

end Sys2Proof.Machine
end

section
/-! SUPPORT. The order of ranked entries and the k best of a set (07 R242 to R245), and the batch interval (02 R50). -/

namespace Sys2Proof.Machine

/-! ## Sorting -/

section Sorting

variable {α : Type} {le : α → α → Bool}

theorem insertBy_perm (x : α) (l : List α) : (insertBy le x l).Perm (x :: l) := by
  induction l with
  | nil => exact .refl _
  | cons y l ih =>
    unfold insertBy
    split
    · exact (ih.cons y).trans (.swap x y l)
    · exact .refl _

theorem pairwise_insertBy (htotal : ∀ a b, le a b = true ∨ le b a = true) (htrans : ∀ a b c, le a b = true → le b c = true → le a c = true)
    (x : α) {l : List α} (hl : l.Pairwise fun a b => le a b = true) : (insertBy le x l).Pairwise fun a b => le a b = true := by
  induction l with
  | nil => exact List.pairwise_singleton _ x
  | cons y l ih =>
    obtain ⟨hy, hl'⟩ := List.pairwise_cons.1 hl
    unfold insertBy
    split
    next hyx =>
      refine List.pairwise_cons.2 ⟨fun z hz => ?_, ih hl'⟩
      rcases List.mem_cons.1 ((insertBy_perm x l).mem_iff.1 hz) with rfl | hz
      · exact hyx
      · exact hy z hz
    next hyx =>
      have hxy : le x y = true := (htotal x y).resolve_right hyx
      refine List.pairwise_cons.2 ⟨fun z hz => ?_, hl⟩
      rcases List.mem_cons.1 hz with rfl | hz
      · exact hxy
      · exact htrans x y z hxy (hy z hz)

theorem foldl_insertBy_perm (l acc : List α) : (l.foldl (fun acc x => insertBy le x acc) acc).Perm (l ++ acc) := by
  induction l generalizing acc with
  | nil => exact .refl _
  | cons x l ih => exact (ih (insertBy le x acc)).trans (((insertBy_perm x acc).append_left l).trans List.perm_middle)

theorem sortBy_perm (l : List α) : (sortBy le l).Perm l :=
  (foldl_insertBy_perm l []).trans (.of_eq (List.append_nil l))

theorem pairwise_sortBy (htotal : ∀ a b, le a b = true ∨ le b a = true) (htrans : ∀ a b c, le a b = true → le b c = true → le a c = true)
    (l : List α) : (sortBy le l).Pairwise fun a b => le a b = true := by
  have hfold (l acc : List α) (hacc : acc.Pairwise fun a b => le a b = true) :
      (l.foldl (fun acc x => insertBy le x acc) acc).Pairwise fun a b => le a b = true := by
    induction l generalizing acc with
    | nil => exact hacc
    | cons x l ih => exact ih _ (pairwise_insertBy htotal htrans x hacc)
  exact hfold l [] .nil

end Sorting

/-! ## Ranked entries -/

theorem rankEntry_iff (a b : PEntry) :
    rankEntry a b = true ↔ a.u < b.u ∨ a.u = b.u ∧ (a.index < b.index ∨ a.index = b.index ∧ a.pos ≤ b.pos) := by
  simp [rankEntry]

theorem rankEntry_total (a b : PEntry) : rankEntry a b = true ∨ rankEntry b a = true := by
  simp only [rankEntry_iff]
  omega

theorem rankEntry_trans (a b c : PEntry) (hab : rankEntry a b = true) (hbc : rankEntry b c = true) : rankEntry a c = true := by
  simp only [rankEntry_iff] at *
  omega

theorem selectBest_entries (k : Nat) (l : List PEntry) : (selectBest k l).entries = (sortBy rankEntry l).take k := by
  unfold selectBest
  dsimp only
  split
  · split <;> rfl
  · rfl

/-- The k best are in order, and every entry that is left out ranks after each of them. -/
theorem selectBest_best (k : Nat) (l : List PEntry) :
    (selectBest k l).entries.Pairwise (fun a b => rankEntry a b = true) ∧
    ∀ e ∈ l, e ∉ (selectBest k l).entries → ∀ x ∈ (selectBest k l).entries, rankEntry x e = true := by
  have hsorted := pairwise_sortBy rankEntry_total rankEntry_trans l
  rw [selectBest_entries]
  rw [← List.take_append_drop k (sortBy rankEntry l), List.pairwise_append] at hsorted
  obtain ⟨htake, -, hcross⟩ := hsorted
  refine ⟨htake, fun e he hout x hx => hcross x hx e ?_⟩
  have hmem : e ∈ (sortBy rankEntry l).take k ++ (sortBy rankEntry l).drop k := by
    rw [List.take_append_drop]; exact (sortBy_perm l).mem_iff.2 he
  exact (List.mem_append.1 hmem).resolve_left hout

theorem selectBest_subset {k : Nat} {l : List PEntry} {e : PEntry} (he : e ∈ (selectBest k l).entries) : e ∈ l := by
  rw [selectBest_entries] at he
  exact (sortBy_perm l).mem_iff.1 (List.mem_of_mem_take he)

theorem selectBest_length (k : Nat) (l : List PEntry) : (selectBest k l).entries.length = min k l.length := by
  rw [selectBest_entries, List.length_take, (sortBy_perm l).length_eq]

/-! ## The batch interval -/

theorem ceilDiv_le_iff {a d : Nat} (hd : 0 < d) (x : Nat) : ceilDiv a d ≤ x ↔ a ≤ d * x := by
  have hbound : (a + d - 1) / d < x + 1 ↔ a + d - 1 < d * x + d := by
    rw [Nat.div_lt_iff_lt_mul hd, Nat.add_one_mul, Nat.mul_comm x d]
  rw [ceilDiv, if_neg (Nat.ne_of_gt hd)]
  omega

/-- The batch interval covers the work of `q` queries a slot, and no shorter one does (02 R50). -/
theorem batchInterval_le_iff {f : Nat} (hf : 0 < f) (q x : Nat) : batchInterval f q ≤ x ↔ 2000 * 1400 * q ≤ f * 512 * x :=
  ceilDiv_le_iff (Nat.mul_pos hf (by decide)) x

end Sys2Proof.Machine
end

section
/-! SUPPORT. The ticks of unit 0 and of a downstream unit (02 R39, 10 R340, R341) and the slot boundary (02 R49): what each does at its DT. -/

namespace Sys2Proof.Machine

/-! ## Ticks -/

section Ticks

variable {t n p : Nat} {v : View} {s : State}

theorem exec_frameTick_head (hs : Live s) (hh : s.chain.head = true) : exec (.frameTick t v) s = .next (headTick v t (applyView v (atDt t s))) := by
  change execFrameTick t v s = _
  rw [execFrameTick, runAt_live hs, if_pos (by simpa using hh)]

theorem exec_frameTick_down (hs : Live s) (hh : s.chain.head = false) :
    exec (.frameTick t v) s = .next (downTick v t (applyView v (atDt t s))) := by
  change execFrameTick t v s = _
  rw [execFrameTick, runAt_live hs, if_neg (by simp [hh])]

/-! What the host did before a tick decides nothing about the tick. -/

@[simp] theorem tickKnown_applyView : tickKnown (applyView v s) = tickKnown s := by rw [applyView_eq]; rfl

@[simp] theorem nextTick_applyView : nextTick (applyView v s) = nextTick s := by rw [applyView_eq]; rfl

@[simp] theorem tickDue_applyView : tickDue t (applyView v s) = tickDue t s := by rw [applyView_eq]; rfl

@[simp] theorem announced_applyView : announced t (applyView v s) = announced t s := by rw [applyView_eq]; rfl

@[simp] theorem chainHold_applyView : chainHold (applyView v s) = chainHold s := by rw [applyView_eq]; rfl

@[simp] theorem nextNumber_applyView : nextNumber (applyView v s) = nextNumber s := by rw [applyView_eq]; rfl

@[simp] theorem pulseInTime_applyView : pulseInTime (applyView v s) t = pulseInTime s t := by rw [applyView_eq]; rfl

@[simp] theorem pulseInTime_atDt {u : Nat} : pulseInTime (atDt u s) t = pulseInTime s t := rfl

theorem headTick_not_due (h : tickDue t s = false ∨ announced t s = false) : headTick v t s = s := by
  rcases h with h | h <;> simp [headTick, h]

theorem headTick_due (hd : tickDue t s = true) (ha : announced t s = true) :
    headTick v t s = doTick v (!chainHold s) (nextNumber s) t { s with chain := { s.chain with announce := none } } := by
  simp [headTick, hd, ha]

theorem downTick_announced_other {td : Nat} (ha : s.chain.announce = some (td, n, p)) (hne : td ≠ t) : downTick v t s = s := by
  simp [downTick, ha, hne]

theorem downTick_announced (ha : s.chain.announce = some (t, n, p)) : downTick v t s = announcedTick v n t s := by
  simp [downTick, ha]

/-- A tick that was never announced is lost to an aligned unit that knows when it is due (10 R341). -/
theorem downTick_unannounced (ha : s.chain.announce = none) :
    downTick v t s = if tickKnown s ∧ s.chain.addressed ∧ s.chain.aligned ∧ t = nextTick s then
      raise 152 0 0 (doTick v false (s.frame.number + 1) t s) else s := by
  simp only [downTick, ha]

@[simp] theorem measurePulse_pwr : (measurePulse t s).pwr = s.pwr := by
  unfold measurePulse
  split
  · dsimp only; split <;> rfl
  · rfl

/-- The state of a downstream unit that has used its announcement and its pulse (10 R340). -/
def pulseUsed (t : Nat) (s : State) : State :=
  { measurePulse t s with chain := { (measurePulse t s).chain with announce := none, pulse := none } }

/-- An announced tick, once the pulse is measured: outside reduced and full service there are no ticks; a unit that was not aligned starts no frame,
and neither does one whose pulse did not come in time (10 R340, R341). -/
theorem announcedTick_eq : announcedTick v n t s =
    if s.pwr.service ≠ 2 ∧ s.pwr.service ≠ 3 then pulseUsed t s
    else if s.chain.aligned = false then doTick v false n t (pulseUsed t s)
    else if pulseInTime s t then doTick v true n t (pulseUsed t s)
    else raise 152 0 0 (doTick v false n t (pulseUsed t s)) := by
  simp [announcedTick, pulseUsed]

theorem exec_frameTick_announced (hs : Live s) (hh : s.chain.head = false) (ha : s.chain.announce = some (t, n, p)) :
    exec (.frameTick t v) s = .next (
      if s.pwr.service ≠ 2 ∧ s.pwr.service ≠ 3 then pulseUsed t (applyView v (atDt t s))
      else if s.chain.aligned = false then doTick v false n t (pulseUsed t (applyView v (atDt t s)))
      else if pulseInTime s t then doTick v true n t (pulseUsed t (applyView v (atDt t s)))
      else raise 152 0 0 (doTick v false n t (pulseUsed t (applyView v (atDt t s))))) := by
  rw [exec_frameTick_down hs hh, downTick_announced (by simpa using ha), announcedTick_eq]
  simp

theorem exec_frameTick_unannounced (hs : Live s) (hh : s.chain.head = false) (ha : s.chain.announce = none) :
    exec (.frameTick t v) s = .next (
      if tickKnown (atDt t s) ∧ s.chain.addressed ∧ s.chain.aligned ∧ t = nextTick (atDt t s) then
        raise 152 0 0 (doTick v false (s.frame.number + 1) t (applyView v (atDt t s)))
      else applyView v (atDt t s)) := by
  rw [exec_frameTick_down hs hh, downTick_unannounced (by simpa using ha)]
  simp

/-- With no Accord in force a tick that nothing holds starts no frame of the plan (02 R45). -/
theorem tickStarts_no_accord (hp : ∀ a, accordPassed s ≠ some a) (hst : stackLost s = false) (hd : s.pwr.dormantWanted = false)
    (hc : chainHold s = false) (ht : s.safety.testRotation = false) (hf : fullSealRuns s = false) (ha : s.accord = none) :
    tickStarts v n t s = noFrame n (governTick s) := by
  have hpassed : accordPassed s = none := Option.eq_none_iff_forall_ne_some.2 hp
  simp [tickStarts, tickStarts.tickPlan, hpassed, hst, hd, hc, ht, hf, ha]

end Ticks

/-! ## The slot boundary -/

section Boundary

variable {t : Nat} {upset : Option Nat} {v : View} {s : State}

theorem exec_batchSlotBoundary_no_frame (hs : Live s) (h : s.frame.cur = none ∨ s.accord = none) :
    exec (.batchSlotBoundary t upset v) s = .next (applyView v (atDt t s)) := by
  change execBatchSlotBoundary t upset v s = _
  rw [execBatchSlotBoundary, runAt_live hs]
  rcases h with h | h
  · simp [h]
  · cases hf : s.frame.cur <;> simp [h, hf]

/-- A boundary that is not due only brings late hazards into effect (03 R116). -/
theorem exec_batchSlotBoundary_frame {f : Frame} {a : Accord} (hs : Live s) (hf : s.frame.cur = some f) (ha : s.accord = some a) :
    exec (.batchSlotBoundary t upset v) s = .next (
      if boundaryDue (applyView v (atDt t s)) f then boundary a upset v f (applyView v (atDt t s)) else applyLate (applyView v (atDt t s))) := by
  change execBatchSlotBoundary t upset v s = _
  rw [execBatchSlotBoundary, runAt_live hs]
  simp [hf, ha]

end Boundary

end Sys2Proof.Machine
end

section
/-! SUPPORT. The Juggler's merge and the publishing of a frame (02 R63, 07 R250, R254), and the statement about the planning frame (O60). -/

namespace Sys2Proof.Machine

/-! ## The frame in progress -/

section CurrentFrame

variable {f : Frame} {s : State}

/-- The state with `f` as the frame in progress. -/
abbrev withCur (f : Frame) (s : State) : State := { s with frame := { s.frame with cur := some f } }

theorem withCur_self (hf : s.frame.cur = some f) : withCur f s = s := by
  rw [withCur, ← hf]

theorem modFrame_some (hf : s.frame.cur = some f) (g : Frame → Frame) : modFrame g s = withCur (g f) s := by
  rw [modFrame, hf]

/-- A frame that runs no FRAME_RUN and no batch of work still there has no work admitted. -/
theorem admitted_eq_nil (hr : f.fr = none) (hw : ∀ w ∈ s.work, ∀ a ∈ f.adm, a.wid ≠ w.wid) : admitted s f = [] := by
  rw [admitted, List.filter_eq_nil_iff]
  intro w hmem
  simpa [hr] using hw w hmem

/-- Work of which a batch runs in the frame is admitted to it. -/
theorem mem_admitted {w : Work} {a : Adm} (hw : w ∈ s.work) (ha : a ∈ f.adm) (haw : a.wid = w.wid) : w ∈ admitted s f :=
  List.mem_filter.2 ⟨hw, Bool.or_eq_true_iff.2 (.inr (List.any_eq_true.2 ⟨a, ha, beq_iff_eq.2 haw⟩))⟩

theorem mergeAll_of_none (h : admitted s f = []) : mergeAll s f = [] := by
  rw [mergeAll, h]; rfl

theorem mergeAll_of_run {w : Work} {r : FrWork} (h : admitted s f = [w]) (hi : w.item = .frameRun r) :
    mergeAll s f = [(w.wid, jugglerMerge r.k (mergeInputs f w))] := by
  simp [mergeAll, h, mergeItem, rankedK, hi]

end CurrentFrame

/-! ## The merge -/

section Merge

variable {t : Nat} {f : Frame} {s : State}

/-- The merge has run (07 R250). -/
abbrev mergedFrame (s : State) (f : Frame) : Frame := { f with merged := mergeAll s f, mergeDone := true }

theorem exec_jugglerMerge_no_frame (hs : Live s) (hf : s.frame.cur = none) : exec (.jugglerMerge t) s = .next (atDt t s) := by
  change execJugglerMerge t s = _
  rw [execJugglerMerge, runAt_live hs]
  simp [hf]

/-- The merge waits for the last batch and runs once. -/
theorem exec_jugglerMerge_not_due (hs : Live s) (hf : s.frame.cur = some f)
    (h : f.published = true ∨ f.retired = false ∨ f.mergeDone = true) : exec (.jugglerMerge t) s = .next (atDt t s) := by
  change execJugglerMerge t s = _
  rw [execJugglerMerge, runAt_live hs]
  rcases h with h | h | h <;> simp [hf, h]

/-- The merge fires the Net for a FRAME_RUN without a CLEAR candidate, unless ADVISORY is on (02 R66, 08 R280). -/
theorem exec_jugglerMerge_due (hs : Live s) (hf : s.frame.cur = some f) (hp : f.published = false) (hr : f.retired = true)
    (hm : f.mergeDone = false) : exec (.jugglerMerge t) s = .next (
      if f.fr.isSome ∧ f.clear = 0 ∧ (netCfg s).advisory = false then fireNet 6 (withCur (mergedFrame (atDt t s) f) (atDt t s))
      else withCur (mergedFrame (atDt t s) f) (atDt t s)) := by
  have hcur : (atDt t s).frame.cur = some f := hf
  change execJugglerMerge t s = _
  rw [execJugglerMerge, runAt_live hs]
  simp only [hcur, modFrame_some hcur]
  rw [if_neg (by simp [hp, hr, hm])]
  simp only [Bool.not_eq_true']
  rfl

end Merge

/-! ## Publishing -/

section Publish

variable {t : Nat} {a : Accord} {f : Frame} {w : Work} {r : FrWork} {s : State}

/-- The frame as it publishes: a fault frame's lists are merged again, without the lost cluster's (07 R254). -/
abbrev settledFrame (s : State) (f : Frame) : Frame := if !f.faultClusters.isEmpty then { f with merged := mergeAll s f } else f

theorem settledFrame_adm : (settledFrame s f).adm = f.adm := by
  unfold settledFrame; split <;> rfl

theorem settledFrame_fr : (settledFrame s f).fr = f.fr := by
  unfold settledFrame; split <;> rfl

theorem settledFrame_goldenEn : (settledFrame s f).goldenEn = f.goldenEn := by
  unfold settledFrame; split <;> rfl

theorem settledFrame_goldenResult : (settledFrame s f).goldenResult = f.goldenResult := by
  unfold settledFrame; split <;> rfl

theorem settledFrame_of_none (h : admitted s f = []) :
    settledFrame s f = { f with merged := if !f.faultClusters.isEmpty then [] else f.merged } := by
  unfold settledFrame
  rw [mergeAll_of_none h]
  split <;> rfl

/-- Only a CHECK's batches are run again after a fault frame. -/
theorem reissue_frameRun (hi : w.item = .frameRun r) : reissue f s w = s := by
  rw [reissue, hi]

theorem foldl_reissue_frameRuns {l : List Work} (hl : ∀ w ∈ l, ∃ r, w.item = .frameRun r) : l.foldl (reissue f) s = s := by
  induction l with
  | nil => rfl
  | cons w l ih =>
    obtain ⟨⟨r, hr⟩, hl⟩ := List.forall_mem_cons.1 hl
    rw [List.foldl_cons, reissue_frameRun hr, ih hl]

/-- Where no CHECK is admitted, a fault frame settles its lists and no more. -/
theorem settleMerge_eq (hf : s.frame.cur = some f) (hi : ∀ w ∈ admitted s f, ∃ r, w.item = .frameRun r) :
    settleMerge s f = withCur (settledFrame s f) s := by
  cases he : f.faultClusters.isEmpty with
  | true => simp [settleMerge, settledFrame, he, withCur_self hf]
  | false => simp [settleMerge, settledFrame, he, foldl_reissue_frameRuns hi, modFrame_some hf]

theorem countSuspect_calm (h : s.safety.suspect = false) : countSuspect f w s = s := by
  simp [countSuspect, suspectNow, h]

theorem runOf_withCur {g : Frame} : runOf (withCur g s) f = runOf s f := rfl

theorem runOf_settledFrame {z : State} : runOf z (settledFrame s f) = runOf z f := by
  rw [runOf, settledFrame_fr]; rfl

theorem runOf_eq_none (hr : f.fr = none) : runOf s f = none := by
  rw [runOf, hr]; rfl

theorem item_of_runOf (h : runOf s f = some (w, r)) : w.item = .frameRun r := by
  rw [runOf, Option.bind_eq_some_iff] at h
  obtain ⟨wid, -, h⟩ := h
  rw [Option.bind_eq_some_iff] at h
  obtain ⟨x, -, h⟩ := h
  split at h
  next hx => cases h; exact hx
  next => cases h

/-- What publishing does once the FRAME_RUN has its record: the CHECKs of the frame, and the frame's end. -/
def publishRest (f : Frame) (s : State) : State :=
  let s := (s.work.filter (fun w => f.adm.any (fun a => a.wid == w.wid))).foldl (publishCheck f) s
  let s := clearSuspectAtPublish f (modFrame (fun f => { f with published := true, batches := [], lists := [] }) s)
  if s.chain.enumPending then beginEnum s else s

/-- With no CHECK left in the frame, and no enumeration waiting, the frame ends and nothing else happens. -/
theorem publishRest_quiet {g : Frame} (hf : s.frame.cur = some g) (hw : ∀ w ∈ s.work, ∀ a ∈ f.adm, a.wid ≠ w.wid) (hg : f.goldenEn = true)
    (he : s.chain.enumPending = false) :
    publishRest f s = withCur { g with published := true, batches := [], lists := [] } s := by
  have hnone : s.work.filter (fun w => f.adm.any (fun a => a.wid == w.wid)) = [] := by
    rw [List.filter_eq_nil_iff]
    intro w hmem
    simpa using hw w hmem
  rw [publishRest, hnone]
  simp [modFrame_some hf, clearSuspectAtPublish, hg, he]

theorem exec_publish_no_frame (hs : Live s) (hf : s.frame.cur = none) : exec (.publish t) s = .next (atDt t s) := by
  change execPublish t s = _
  rw [execPublish, runAt_live hs]
  simp [hf]

theorem exec_publish_not_ready (hs : Live s) (hf : s.frame.cur = some f) (hr : readyToPublish (atDt t s) f = false) :
    exec (.publish t) s = .next (atDt t s) := by
  change execPublish t s = _
  rw [execPublish, runAt_live hs]
  cases ha : s.accord <;> simp [hf, ha, hr]

/-- A frame without a FRAME_RUN, and with no work of its own left, publishes. -/
theorem exec_publish_idle (hs : Live s) (hf : s.frame.cur = some f) (ha : s.accord = some a) (hr : readyToPublish (atDt t s) f = true)
    (hfr : f.fr = none) (hnone : admitted (atDt t s) f = []) :
    exec (.publish t) s =
      .next (publishRest (settledFrame (atDt t s) f) (withCur (settledFrame (atDt t s) f) (atDt t s))) := by
  have hcur : (atDt t s).frame.cur = some f := hf
  change execPublish t s = _
  rw [execPublish, runAt_live hs]
  simp only [hcur, atDt_accord, ha, hr, settleMerge_eq hcur (by simp [hnone]), runOf_settledFrame, runOf_eq_none hfr, Option.getD_some]
  rfl

/-- A frame with a FRAME_RUN publishes its record, completion and warm store first. -/
theorem exec_publish_run (hs : Live s) (hf : s.frame.cur = some f) (ha : s.accord = some a) (hr : readyToPublish (atDt t s) f = true)
    (hrun : runOf (atDt t s) f = some (w, r)) (hsus : s.safety.suspect = false) (hadm : admitted (atDt t s) f = [w]) :
    exec (.publish t) s = .next (publishRest (settledFrame (atDt t s) f)
      (publishRun a (settledFrame (atDt t s) f) w r (withCur (settledFrame (atDt t s) f) (atDt t s)))) := by
  have hcur : (atDt t s).frame.cur = some f := hf
  have hitem : ∀ x ∈ admitted (atDt t s) f, ∃ r, x.item = .frameRun r := by
    rw [hadm]
    exact List.forall_mem_singleton.2 ⟨r, item_of_runOf hrun⟩
  have hcalm : countSuspect f w (withCur (settledFrame (atDt t s) f) (atDt t s)) = withCur (settledFrame (atDt t s) f) (atDt t s) :=
    countSuspect_calm hsus
  change execPublish t s = _
  rw [execPublish, runAt_live hs]
  simp only [hcur, atDt_accord, ha, hr, settleMerge_eq hcur hitem, runOf_withCur, runOf_settledFrame, hrun, hcalm, Option.getD_some]
  rfl

/-! ### What the FRAME_RUN leaves -/

theorem finishWork_work (w : Work) (status flags aux0 aux1 : Nat) (frame : Option Nat) (s : State) :
    (finishWork w status flags aux0 aux1 frame s).work = s.work.filter (fun x => x.wid != w.wid) :=
  congrArg (List.filter fun x : Work => x.wid != w.wid) (complete_outputOnly w.hdr status flags aux0 aux1 frame s).work

/-- A FRAME_RUN publishes by its outputs, its completion, the end of its optimisations, and the warm store unless its golden batch failed (02 R63,
05 R187). -/
theorem publishRun_eq {c : PClass} (hc : classOf s r.optClass = some c) : ∃ z st fl a0 a1 fr l, OutputOnly s z ∧ publishRun a f w r s =
    { finishWork w st fl a0 a1 fr z with
      opts := (finishWork w st fl a0 a1 fr z).opts.filter (fun o => o.wid != w.wid),
      warm := if f.goldenResult = 1 then (finishWork w st fl a0 a1 fr z).warm else l } := by
  unfold publishRun
  simp only [hc]
  refine ⟨_, _, _, _, _, _, _, ?_, rfl⟩
  refine .trans ?_ (logWork_outputOnly _ _ _ _ _ _ _ _)
  refine .trans ?_ (logWork_outputOnly _ _ _ _ _ _ _ _)
  exact .trans (hostWrite_outputOnly _ _ _ _) (.foldl (fun s x => logWork_outputOnly _ _ _ _ _ _ _ s) _ _)

/-- The FRAME_RUN and its optimisations are gone, the frame stands, and so does the warm store after a failed golden batch. -/
structure RunPublished (f : Frame) (w : Work) (s y : State) : Prop where
  work : y.work = s.work.filter fun x => x.wid != w.wid
  opts : y.opts = s.opts.filter fun x => x.wid != w.wid
  warm : f.goldenResult = 1 → y.warm = s.warm
  frame : y.frame = s.frame
  enumPending : y.chain.enumPending = s.chain.enumPending

theorem RunPublished.mem_work {y : State} (h : RunPublished f w s y) {x : Work} (hx : x ∈ y.work) : x ∈ s.work ∧ x.wid ≠ w.wid := by
  simpa [h.work] using hx

theorem RunPublished.mem_opts {y : State} (h : RunPublished f w s y) {x : Opt} (hx : x ∈ y.opts) : x ∈ s.opts ∧ x.wid ≠ w.wid := by
  simpa [h.opts] using hx

/-- With the FRAME_RUN gone no work that the frame admitted is left. -/
theorem RunPublished.none_admitted {g : Frame} {y : State} (h : RunPublished f w s y) (hadm : admitted s g = [w]) :
    ∀ x ∈ y.work, ∀ b ∈ g.adm, b.wid ≠ x.wid := by
  intro x hx b hb hbx
  obtain ⟨hxs, hne⟩ := h.mem_work hx
  have hxw : x ∈ admitted s g := mem_admitted hxs hb hbx
  rw [hadm, List.mem_singleton] at hxw
  exact hne (congrArg Work.wid hxw)

theorem publishRun_published {c : PClass} (hc : classOf s r.optClass = some c) : RunPublished f w s (publishRun a f w r s) := by
  obtain ⟨z, st, fl, a0, a1, fr, l, hz, hy⟩ := publishRun_eq (a := a) (f := f) (w := w) hc
  have hout := hz.trans (complete_outputOnly w.hdr st fl a0 a1 fr z)
  rw [hy]
  exact ⟨(finishWork_work w st fl a0 a1 fr z).trans (congrArg _ hz.work), congrArg _ hout.opts, fun hg => (if_pos hg).trans hout.warm,
    hout.frame, hout.enumPending⟩

end Publish

/-! ## The planning frame -/

/-- Settles O60: the equations of the tick, the boundary, the merge and the publish, one per case; a frame whose only admitted work is its FRAME_RUN
leaves no CHECK to publish once the run has left the work. -/
theorem planningFrame : Obligations.PlanningFrame := by
  unfold Obligations.PlanningFrame
  refine ⟨?frames, fun f q hf => ⟨(batchInterval_le_iff hf q _).1 (Nat.le_refl _), fun x => (batchInterval_le_iff hf q x).2⟩, ?selection⟩
  case selection =>
    intro k l r
    exact ⟨selectBest_length k l, fun e => selectBest_subset, selectBest_best k l⟩
  intro t upset v s hs u x taken
  refine ⟨fun hh h => ?notDue, fun hh hd ha => ?due, fun td n p hh ha hne => ?otherTick, fun n p hh ha => ?announced, fun hh ha => ?unannounced,
    fun n hp hst hd hc ht hf ha => tickStarts_no_accord hp hst hd hc ht hf ha, exec_batchSlotBoundary_no_frame hs, fun f a hf ha => ?boundary,
    fun hf => ⟨exec_jugglerMerge_no_frame hs hf, exec_publish_no_frame hs hf⟩, fun f hf => ?current⟩
  case notDue =>
    rw [exec_frameTick_head hs hh, headTick_not_due (by simpa using h)]
  case due =>
    rw [exec_frameTick_head hs hh, headTick_due (by simpa using hd) (by simpa using ha)]
    simp only [chainHold_applyView, nextNumber_applyView]
    rfl
  case otherTick =>
    rw [exec_frameTick_down hs hh, downTick_announced_other (by simpa using ha) hne]
  case announced =>
    intro used
    rw [exec_frameTick_announced hs hh ha]
    refine ⟨fun h2 h3 => by rw [if_pos ⟨h2, h3⟩]; rfl, fun hserv => ?_⟩
    rw [if_neg (by omega)]
    exact ⟨fun hal => by rw [if_pos hal]; rfl, fun hal hp => by rw [if_neg (ne_false_of_eq_true hal), if_pos hp]; rfl,
      fun hal hp => by rw [if_neg (ne_false_of_eq_true hal), if_neg (ne_true_of_eq_false hp)]; rfl⟩
  case unannounced =>
    intro lost
    rw [exec_frameTick_unannounced hs hh ha]
    exact ⟨fun h => by rw [if_pos h], fun h => by rw [if_neg h]⟩
  case boundary =>
    rw [exec_batchSlotBoundary_frame hs hf ha]
    exact ⟨fun hb => by rw [if_neg (ne_true_of_eq_false hb)], fun hb => by rw [if_pos hb]⟩
  case current =>
    intro fault
    refine ⟨exec_jugglerMerge_not_due hs hf, fun hp hr hm hfr hw => ?mergeIdle, fun w r hp hr hm hfr hadm hi => ?mergeRun,
      exec_publish_not_ready hs hf, fun a ha hr hfr hw he hg => ?publishIdle, fun a w r c ha hr hrun hsus hc => ?publishRun⟩
    case mergeIdle =>
      rw [exec_jugglerMerge_due hs hf hp hr hm, if_neg (by simp [hfr]), mergedFrame, mergeAll_of_none (admitted_eq_nil (s := u) hfr hw)]
    case mergeRun =>
      intro m y
      rw [exec_jugglerMerge_due hs hf hp hr hm, mergedFrame, mergeAll_of_run hadm hi]
      exact ⟨fun hclear hadv => by rw [if_pos ⟨by simp [hfr], hclear, hadv⟩], fun h => by
        rw [if_neg]
        rintro ⟨-, hclear, hadv⟩
        simp [hclear, hadv] at h⟩
    case publishIdle =>
      have hnone : admitted u f = [] := admitted_eq_nil hfr hw
      rw [exec_publish_idle hs hf ha hr hfr hnone,
        publishRest_quiet (s := withCur (settledFrame u f) u) rfl (by rwa [settledFrame_adm]) (settledFrame_goldenEn.trans hg) he,
        settledFrame_of_none hnone]
    case publishRun =>
      intro f' y
      have hy : RunPublished f' w (withCur f' u) y := publishRun_published hc
      refine ⟨fun z => hy.mem_work, fun z => hy.mem_opts, fun hg => hy.warm (settledFrame_goldenResult.trans hg), fun hadm he hg => ?_⟩
      have hrest : ∀ z ∈ y.work, ∀ b ∈ f'.adm, b.wid ≠ z.wid := by
        rw [settledFrame_adm]
        exact hy.none_admitted hadm
      rw [exec_publish_run hs hf ha hr hrun hsus hadm, publishRest_quiet (s := y) (congrArg FrameB.cur hy.frame) hrest
        (settledFrame_goldenEn.trans hg) (hy.enumPending.trans he), withCur, hy.frame]
      rfl

end Sys2Proof.Machine
end

section
/-! SUPPORT. The descriptors of the map (03 R90 to R119): what MAP_INGEST, MAP_PRIMITIVES and MAP_HAZARD do once their fields pass, and the
statement about them (O54). -/

namespace Sys2Proof.Machine

/-! ## MAP_INGEST -/

section Ingest

variable {d : Taken} {v : View} {h : Bytes} {s : State}

theorem withRead_none {a n : Nat} {k : Bytes → State → State} (hr : hostRead v s a n = none) : withRead d v a n s k = refuseRead d a s := by
  rw [withRead, hr]

/-- The checks of a MAP_INGEST's fields (03 R119). -/
abbrev ingestChecks (d : Taken) : List (Bool × Fail) :=
  [(fld d 8 8 % 64 != 0, badField 8), (decide (fld d 0x10 4 < 0x80), badField 0x10), reservedCheck d [(8, 8), (0x10, 4)]]

theorem ingestChecks_pass (hbuf : fld d 8 8 % 64 = 0) (hn : 0x80 ≤ fld d 0x10 4) (hres : (reservedCheck d [(8, 8), (0x10, 4)]).1 = false) :
    firstFail (ingestChecks d) = none := by
  simp [firstFail_eq_none_iff, hbuf, hn, hres]

/-- The checks of a header `h` as read (03 R556, R119). -/
abbrev headerChecks (d : Taken) (h : Bytes) : List (Bool × Fail) :=
  [(!ingestHeaderOk h, badWhole), (decide (fld d 0x10 4 < 0x80 + elemBytes (hSource h) * hCount h), badField 0x10)]

theorem headerChecks_pass (hok : ingestHeaderOk h = true) (hfit : 0x80 + elemBytes (hSource h) * hCount h ≤ fld d 0x10 4) :
    firstFail (headerChecks d h) = none := by
  simp [firstFail_eq_none_iff, hok, hfit]

/-- The box of an EVICT's data (03 R90). -/
abbrev boxOf (b : Bytes) : List Int := (List.range 6).map fun k => fieldI b (2 * k) 2

/-- Some minimum of the box lies above its maximum. -/
abbrev boxInverted (box : List Int) : Bool := (List.range 3).any fun k => decide (box.getD k 0 > box.getD (k + 3) 0)

theorem boxInverted_iff {box : List Int} : boxInverted box = true ↔ ∃ k < 3, box.getD (k + 3) 0 < box.getD k 0 := by
  simp only [boxInverted, List.any_eq_true, List.mem_range, decide_eq_true_eq, gt_iff_lt]

/-- What acceptance does by the source of a header that passes (03 R96, R112). -/
def acceptSource (d : Taken) (v : View) (h : Bytes) (s : State) : State :=
  if hSource h = 4 then
    withRead d v (fld d 8 8 + 0x80) 12 s fun b s => withChecks d [(boxInverted (boxOf b), badWhole)] s fun s => scheduleIngest d h (boxOf b) s
  else if hSource h = 5 && forecastLoaded s then refuse d unsupportedFail s
  else scheduleIngest d h [] s

theorem exec_mapIngest_accepted (ha : Admits { code := 1 } d s) (hck : firstFail (ingestChecks d) = none) :
    exec (.mapIngest d v) s = .next (withRead d v (fld d 8 8) 0x80 (accepted d v s) fun h z =>
      withChecks d (headerChecks d h) z fun z => acceptSource d v h z) := by
  change execMapIngest d v s = _
  rw [execMapIngest, acceptDesc_next ha, withChecks_pass hck]
  rfl

theorem exec_mapIngest_unread (ha : Admits { code := 1 } d s) (hck : firstFail (ingestChecks d) = none)
    (hread : hostRead v (accepted d v s) (fld d 8 8) 0x80 = none) :
    exec (.mapIngest d v) s = .next (refuseRead d (fld d 8 8) (accepted d v s)) := by
  rw [exec_mapIngest_accepted ha hck, withRead_none hread]

theorem exec_mapIngest_bad_header (ha : Admits { code := 1 } d s) (hck : firstFail (ingestChecks d) = none)
    (hread : hostRead v (accepted d v s) (fld d 8 8) 0x80 = some h) (hbad : ingestHeaderOk h = false) :
    exec (.mapIngest d v) s = .next (refuse d badWhole (accepted d v s)) := by
  have hfail : firstFail (headerChecks d h) = some badWhole := by rw [headerChecks, hbad]; rfl
  rw [exec_mapIngest_accepted ha hck, withRead_some hread, withChecks_fail hfail]

theorem exec_mapIngest_header (ha : Admits { code := 1 } d s) (hck : firstFail (ingestChecks d) = none)
    (hread : hostRead v (accepted d v s) (fld d 8 8) 0x80 = some h) (hpass : firstFail (headerChecks d h) = none) :
    exec (.mapIngest d v) s = .next (acceptSource d v h (accepted d v s)) := by
  rw [exec_mapIngest_accepted ha hck, withRead_some hread, withChecks_pass hpass]

theorem acceptSource_sensor (hsrc : hSource h < 4) : acceptSource d v h s = scheduleIngest d h [] s := by
  rw [acceptSource, if_neg (by omega), if_neg (by simp; omega)]

theorem acceptSource_evict {b : Bytes} (hsrc : hSource h = 4) (hread : hostRead v s (fld d 8 8 + 0x80) 12 = some b) :
    acceptSource d v h s = if boxInverted (boxOf b) then refuse d badWhole s else scheduleIngest d h (boxOf b) s := by
  rw [acceptSource, if_pos hsrc, withRead_some hread]
  cases hbox : boxInverted (boxOf b) with
  | false => exact withChecks_pass rfl
  | true => exact withChecks_fail rfl

theorem acceptSource_forecast (hsrc : hSource h = 5) :
    acceptSource d v h s = if forecastLoaded s then refuse d unsupportedFail s else scheduleIngest d h [] s := by
  simp [acceptSource, hsrc]

/-- Points and pixels are scheduled behind the backlog `start`, 5 ns each, or refused whole (03 R96, R99). -/
theorem scheduleIngest_sensor (hsrc : hSource h < 4) :
    let start := max d.dt s.world.lastC
    let gs := makeGroups s.nextWid 0 (hCount h) (hCount h / 4096 + 1) 0 start
    let last := gs.foldl (fun _ g => g.c) start
    let b := addWork (mkWork d 0 (.ingest { bufAddr := fld d 8 8, hdr := h, box := [] }) s) s
    scheduleIngest d h [] s = if d.dt + 50000000 < start + 5 * hCount h then refuse d badWhole s else
      { b with world := { b.world with
        groups := s.world.groups ++ gs, lastC := last,
        ingestSeals := if bitOf (fieldN h 2 2) 0 then s.world.ingestSeals ++ [last] else s.world.ingestSeals } } := by
  have htotal : ingestTotal h [] = hCount h := by
    unfold ingestTotal
    split
    next h4 => omega
    next h5 => omega
    next => rfl
  have h4 : hSource h ≠ 4 := by omega
  have h5 : hSource h ≠ 5 := by omega
  simp [scheduleIngest, htotal, h4, h5]

end Ingest

/-! ## MAP_PRIMITIVES -/

section Primitives

variable {d : Taken} {v : View} {recs : List PrimRec} {s : State}

/-- The checks of a MAP_PRIMITIVES' fields (03 R107, R119). -/
abbrev primsChecks (d : Taken) : List (Bool × Fail) :=
  [(fld d 8 8 % 16 != 0, badField 8), (decide (fld d 0x10 4 > 270336), badField 0x10),
   (fld d 0x14 2 == 0 || decide (fld d 0x14 2 > 256), badField 0x14), reservedCheck d [(8, 8), (0x10, 4), (0x14, 2)]]

theorem primsChecks_pass (hbuf : fld d 8 8 % 16 = 0) (hn : fld d 0x10 4 ≤ 270336) (h1 : 1 ≤ fld d 0x14 2) (hcnt : fld d 0x14 2 ≤ 256)
    (hres : (reservedCheck d [(8, 8), (0x10, 4), (0x14, 2)]).1 = false) : firstFail (primsChecks d) = none := by
  simp [firstFail_eq_none_iff, hbuf, hn, Nat.ne_of_gt h1, hcnt, hres]

/-- The records of a MAP_PRIMITIVES as acceptance reads them. -/
abbrev primsRead (d : Taken) (v : View) (s : State) : Except PrimStop (List PrimRec) :=
  readPrims v s (fld d 0x14 2) (fld d 8 8) (fld d 0x10 4) 0

/-- An accepted MAP_PRIMITIVES as work. -/
abbrev primsWork (d : Taken) (recs : List PrimRec) (s : State) : Work := mkWork d 0 (.prims recs false) s

/-- A MAP_PRIMITIVES that is held for a later epoch (03 R107). -/
def heldPrims (w : Work) : Bool := match w.item with | .prims _ h => h | _ => false

theorem heldPrims_iff {w : Work} : heldPrims w = true ↔ ∃ r, w.item = .prims r true := by
  unfold heldPrims
  split
  next r held hi => simp [hi]
  next hi => exact iff_of_false Bool.false_ne_true fun ⟨r, hr⟩ => hi r true hr

theorem any_heldPrims_iff {l : List Work} : l.any heldPrims = true ↔ ∃ x ∈ l, ∃ r, x.item = .prims r true := by
  simp only [List.any_eq_true, heldPrims_iff]

/-- Acceptance waits for a tick or a seal that comes first, and behind descriptors that wait (03 R107). -/
abbrev primsWait (d : Taken) (s : State) : Bool := closeToTick s d.dt || s.world.sealWanted.isSome || primsWaiting s

theorem exec_mapPrimitives_short (ha : Admits { code := 2 } d s) (hck : firstFail (primsChecks d) = none)
    (hread : primsRead d v (accepted d v s) = .error .short) :
    exec (.mapPrimitives d v) s = .next (refuse d (badField 0x10) (accepted d v s)) := by
  change execMapPrimitives d v s = _
  rw [execMapPrimitives, acceptDesc_next ha, withChecks_pass hck]
  simp only [hread]

theorem exec_mapPrimitives_at_once (ha : Admits { code := 2 } d s) (hck : firstFail (primsChecks d) = none)
    (hread : primsRead d v (accepted d v s) = .ok recs) (hnow : primsWait d (accepted d v s) = false) :
    exec (.mapPrimitives d v) s = .next (
      runPrims false [primsWork d recs (accepted d v s)] (addWork (primsWork d recs (accepted d v s)) (accepted d v s))) := by
  change execMapPrimitives d v s = _
  rw [execMapPrimitives, acceptDesc_next ha, withChecks_pass hck]
  simp only [hread]
  rw [if_neg (ne_true_of_eq_false hnow)]

theorem exec_mapPrimitives_waits (ha : Admits { code := 2 } d s) (hck : firstFail (primsChecks d) = none)
    (hread : primsRead d v (accepted d v s) = .ok recs) (hwait : primsWait d (accepted d v s) = true) :
    exec (.mapPrimitives d v) s = .next (
      let z := addWork (primsWork d recs (accepted d v s)) (accepted d v s)
      if z.work.any heldPrims then holdPrims z else z) := by
  change execMapPrimitives d v s = _
  rw [execMapPrimitives, acceptDesc_next ha, withChecks_pass hck]
  simp only [hread]
  rw [if_pos hwait]
  rfl

end Primitives

/-! ## MAP_HAZARD -/

section Hazards

variable {d : Taken} {v : View} {commit : Nat} {b : Bytes} {s : State}

/-- The checks of a MAP_HAZARD's fields (03 R113, R119). -/
abbrev hazardChecks (d : Taken) : List (Bool × Fail) :=
  [(fld d 8 8 % 8 != 0, badField 8), (fld d 0x10 2 == 0 || decide (fld d 0x10 2 > 256), badField 0x10), reservedCheck d [(8, 8), (0x10, 2)]]

theorem hazardChecks_pass (hbuf : fld d 8 8 % 8 = 0) (h1 : 1 ≤ fld d 0x10 2) (hn : fld d 0x10 2 ≤ 256)
    (hres : (reservedCheck d [(8, 8), (0x10, 2)]).1 = false) : firstFail (hazardChecks d) = none := by
  simp [firstFail_eq_none_iff, hbuf, Nat.ne_of_gt h1, hn, hres]

/-- Record `i` of a MAP_HAZARD, from its buffer as read. -/
abbrev hazRecord (s : State) (b : Bytes) (i : Nat) : Option (Nat × Haz) := parseHaz (256 * s.nextWid + i) ((b.drop (32 * i)).take 32)

/-- The records in order. -/
abbrev hazRecords (d : Taken) (s : State) (b : Bytes) : List (Nat × Haz) := (List.range (fld d 0x10 2)).filterMap (hazRecord s b)

/-- The ids that the list holds once the records have joined the waiting changes (03 R114). -/
abbrev hazIdsAfter (d : Taken) (s : State) (b : Bytes) : List Nat :=
  (hazRecords d s b).foldl (fun l c => hazIds l c.1 c.2.id)
    (s.world.hazChanges.foldl (fun l c => hazIds l c.op c.haz.id) ((s.world.hazards.map fun h => h.id).eraseDups))

/-- When the adds of a MAP_HAZARD commit: at most 2 us after acceptance (03 R118). -/
abbrev hazCommit (d : Taken) (commit : Nat) : Nat := max d.dt (min commit (d.dt + 2000))

/-- The change of one record; `late` when acceptance is late for the next tick (03 R115). -/
def hazChange (d : Taken) (commit : Nat) (s : State) (late : Bool) (c : Nat × Haz) : HazChange :=
  { wid := s.nextWid, op := c.1, haz := c.2, accept := d.dt, late := late && c.1 == 1, commit := hazCommit d commit,
    committed := late && decide (hazCommit d commit < nextTick s) }

abbrev hazChangesOf (d : Taken) (commit : Nat) (s : State) (b : Bytes) (late : Bool) : List HazChange :=
  (hazRecords d s b).map (hazChange d commit s late)

/-- The descriptor is accepted and its changes wait. -/
def hazJoined (d : Taken) (commit : Nat) (b : Bytes) (late : Bool) (s : State) : State :=
  let w := addWork (mkWork d 0 (.hazard (fld d 0x10 2) ((hazChangesOf d commit s b late).any fun c => c.late)) s) s
  { w with world := { w.world with hazChanges := s.world.hazChanges ++ hazChangesOf d commit s b late } }

/-- The changes counted at acceptance: late adds that have committed (03 R118). -/
abbrev hazCounted (d : Taken) (commit : Nat) (s : State) (b : Bytes) (late : Bool) : List HazChange :=
  (hazChangesOf d commit s b late).filter fun c => c.late && c.committed

theorem hazCounted_on_time : hazCounted d commit s b false = [] := by
  refine List.filter_eq_nil_iff.2 (List.forall_mem_map.2 fun r _ => ?_)
  simp [hazChange]

theorem hazCounted_after_tick (h : nextTick s ≤ hazCommit d commit) : hazCounted d commit s b true = [] := by
  refine List.filter_eq_nil_iff.2 (List.forall_mem_map.2 fun r _ => ?_)
  simp [hazChange, Nat.not_lt.2 h]

theorem hazCounted_before_tick (h : hazCommit d commit < nextTick s) :
    hazCounted d commit s b true = (hazChangesOf d commit s b true).filter fun c => c.late := by
  refine List.filter_congr fun c hc => ?_
  obtain ⟨r, -, rfl⟩ := List.mem_map.1 hc
  simp [hazChange, h]

/-- The first of `n` records that is bad. -/
theorem find?_bad_record {n i : Nat} {α : Type} {f : Nat → Option α} (hi : i < n) (hbad : f i = none) (hok : ∀ j < i, f j ≠ none) :
    ((List.range n).map fun i => (i, f i)).find? (fun r => r.2.isNone) = some (i, none) := by
  have hfirst : (List.range n).find? ((fun r : Nat × Option α => r.2.isNone) ∘ fun i => (i, f i)) = some i :=
    List.find?_range_eq_some.2 ⟨by simp [hbad], List.mem_range.2 hi, fun j hj => by simpa [Option.isSome_iff_ne_none] using hok j hj⟩
  rw [List.find?_map, hfirst, Option.map_some, hbad]

theorem find?_no_bad_record {n : Nat} {α : Type} {f : Nat → Option α} (hok : ∀ i < n, f i ≠ none) :
    ((List.range n).map fun i => (i, f i)).find? (fun r => r.2.isNone) = none := by
  simp only [List.find?_eq_none, List.forall_mem_map, List.mem_range]
  intro i hi
  simpa using hok i hi

theorem exec_mapHazard_bad_record {i : Nat} (ha : Admits { code := 3 } d s) (hck : firstFail (hazardChecks d) = none)
    (hread : hostRead v (accepted d v s) (fld d 8 8) (32 * fld d 0x10 2) = some b) (hi : i < fld d 0x10 2)
    (hbad : hazRecord (accepted d v s) b i = none) (hok : ∀ j < i, hazRecord (accepted d v s) b j ≠ none) :
    exec (.mapHazard d v commit) s = .next (refuse d (badRecord i) (accepted d v s)) := by
  change execMapHazard d v commit s = _
  rw [execMapHazard, acceptDesc_next ha, withChecks_pass hck, withRead_some hread]
  simp only [find?_bad_record (f := hazRecord (accepted d v s) b) hi hbad hok]

theorem exec_mapHazard_records (ha : Admits { code := 3 } d s) (hck : firstFail (hazardChecks d) = none)
    (hread : hostRead v (accepted d v s) (fld d 8 8) (32 * fld d 0x10 2) = some b)
    (hok : ∀ i < fld d 0x10 2, hazRecord (accepted d v s) b i ≠ none) :
    exec (.mapHazard d v commit) s = .next (
      let a := accepted d v s
      let late := lateForTick a d.dt
      if (hazIdsAfter d a b).length > 256 then refuse d badWhole a
      else (hazCounted d commit a b late).foldl (fun z c => countLate c z) (hazJoined d commit b late a)) := by
  change execMapHazard d v commit s = _
  rw [execMapHazard, acceptDesc_next ha, withChecks_pass hck, withRead_some hread]
  simp only [find?_no_bad_record (f := hazRecord (accepted d v s) b) hok, List.filterMap_map]
  rfl

theorem exec_mapHazard_too_many (ha : Admits { code := 3 } d s) (hck : firstFail (hazardChecks d) = none)
    (hread : hostRead v (accepted d v s) (fld d 8 8) (32 * fld d 0x10 2) = some b)
    (hok : ∀ i < fld d 0x10 2, hazRecord (accepted d v s) b i ≠ none) (hmany : 256 < (hazIdsAfter d (accepted d v s) b).length) :
    exec (.mapHazard d v commit) s = .next (refuse d badWhole (accepted d v s)) := by
  rw [exec_mapHazard_records ha hck hread hok]
  exact congrArg _ (if_pos hmany)

theorem exec_mapHazard_joins {late : Bool} (ha : Admits { code := 3 } d s) (hck : firstFail (hazardChecks d) = none)
    (hread : hostRead v (accepted d v s) (fld d 8 8) (32 * fld d 0x10 2) = some b)
    (hok : ∀ i < fld d 0x10 2, hazRecord (accepted d v s) b i ≠ none) (hfew : (hazIdsAfter d (accepted d v s) b).length ≤ 256)
    (hl : lateForTick (accepted d v s) d.dt = late) :
    exec (.mapHazard d v commit) s = .next (
      (hazCounted d commit (accepted d v s) b late).foldl (fun z c => countLate c z) (hazJoined d commit b late (accepted d v s))) := by
  subst hl
  rw [exec_mapHazard_records ha hck hread hok]
  exact congrArg _ (if_neg (Nat.not_lt.2 hfew))

end Hazards

/-! ## The three descriptors -/

/-- Settles O54: the fields' conditions pass each kind's list of checks; what the buffer holds decides the rest, one equation for each outcome. -/
theorem mapDescriptors : Obligations.MapDescriptors := by
  unfold Obligations.MapDescriptors
  intro d v commit s a buf n cnt hz
  have hworld : s.world = a.world := (accepted_world d v s).symm
  rw [hworld]
  refine ⟨fun h ha hbuf hn hres => ?ingest, fun recs ha hbuf hn h1 hcnt hres => ?prims, fun b ha hbuf h1 hn hres hread => ?hazard⟩
  case ingest =>
    have hck := ingestChecks_pass hbuf hn hres
    refine ⟨exec_mapIngest_unread ha hck, exec_mapIngest_bad_header ha hck, fun hread hok hfit hsrc => ?sensor, fun hread hok hfit => ?other⟩
    case sensor =>
      intro start gs
      rw [exec_mapIngest_header ha hck hread (headerChecks_pass hok hfit), acceptSource_sensor hsrc, scheduleIngest_sensor hsrc]
      exact ⟨fun hlate => by rw [if_pos hlate], fun hin => by rw [if_neg (Nat.not_lt.2 hin)]⟩
    case other =>
      rw [exec_mapIngest_header ha hck hread (headerChecks_pass hok hfit)]
      refine ⟨fun b hsrc hbox => ?evict, fun hsrc hl => ?refused, fun hsrc hl => ?forecast⟩
      case evict =>
        intro box
        rw [acceptSource_evict hsrc hbox]
        refine ⟨fun hordered => ?_, fun hinverted => by rw [if_pos (boxInverted_iff.2 hinverted)]⟩
        rw [if_neg]
        intro hinverted
        obtain ⟨k, hk, hlt⟩ := boxInverted_iff.1 hinverted
        exact Int.not_le.2 hlt (hordered k hk)
      case refused => rw [acceptSource_forecast hsrc, if_pos hl]
      case forecast => rw [acceptSource_forecast hsrc, if_neg (ne_true_of_eq_false hl)]
  case prims =>
    have hck := primsChecks_pass hbuf hn h1 hcnt hres
    refine ⟨exec_mapPrimitives_short ha hck, fun hread htick hseal hwait => ?apply, fun hread hwait => ?wait⟩
    case apply =>
      have hnow : primsWait d a = false := by simp only [primsWait, htick, hseal, hwait]; rfl
      exact exec_mapPrimitives_at_once ha hck hread hnow
    case wait =>
      intro w
      have hw : primsWait d a = true := by
        simpa only [primsWait, Bool.or_eq_true, or_assoc, Option.isSome_iff_ne_none] using hwait
      rw [exec_mapPrimitives_waits ha hck hread hw]
      refine ⟨fun hheld => congrArg _ (if_pos (any_heldPrims_iff.2 hheld)), fun hnone => congrArg _ (if_neg fun hheld => ?_)⟩
      obtain ⟨x, hx, r, hr⟩ := any_heldPrims_iff.1 hheld
      exact hnone x hx r hr
  case hazard =>
    have hck := hazardChecks_pass hbuf h1 hn hres
    intro rec_ ch held
    refine ⟨fun i hi hbad hok => exec_mapHazard_bad_record ha hck hread hi hbad hok, exec_mapHazard_too_many ha hck hread,
      fun hok hfew => ⟨fun hl => ?onTime, fun hl hat => ?afterTick, fun hl hat => ?beforeTick⟩⟩
    all_goals rw [exec_mapHazard_joins ha hck hread hok hfew hl]
    case onTime => rw [hazCounted_on_time]; rfl
    case afterTick => rw [hazCounted_after_tick hat]; rfl
    case beforeTick => rw [hazCounted_before_tick hat]; rfl

end Sys2Proof.Machine
end

section
/-! SUPPORT. The Atomiser's queue and the seal (03 R97, R103 to R105): what each of their commands does in each case, and the statement about
them (O55). -/

namespace Sys2Proof.Machine

/-! ## The Atomiser -/

section Atomiser

variable {t : Nat} {v : View} {s : State} {g : Group} {gs : List Group}

theorem exec_atomiserGroup_idle (hs : Live s) (hg : s.world.groups = []) : exec (.atomiserGroup t v) s = .next (applyView v (atDt t s)) := by
  change execAtomiserGroup t v s = _
  rw [execAtomiserGroup, runAt_live hs]
  simp [hg]

theorem exec_atomiserGroup_held (hs : Live s) (hg : s.world.groups = g :: gs) (hheld : groupHeld (applyView v (atDt t s)) g = true) :
    exec (.atomiserGroup t v) s = .next (applyView v (atDt t s)) := by
  change execAtomiserGroup t v s = _
  rw [execAtomiserGroup, runAt_live hs]
  simp [hg, hheld]

theorem exec_atomiserGroup_runs {w : Work} {i : IgWork} (hs : Live s) (hg : s.world.groups = g :: gs)
    (hfree : groupHeld (applyView v (atDt t s)) g = false) (hw : findWork (applyView v (atDt t s)) g.wid = some w) (hi : w.item = .ingest i) :
    exec (.atomiserGroup t v) s = .next (runGroup v g w i (applyView v (atDt t s))) := by
  change execAtomiserGroup t v s = _
  rw [execAtomiserGroup, runAt_live hs]
  simp [hg, hfree, hw, hi]

/-- The group is past its overrun allowance and has not been reported (03 R97). -/
def overrunDue (s : State) (g : Group) : Bool := decide (g.c + 100000 < s.dt) && !s.world.overrunDone.contains (g.wid, g.first)

theorem overrunDue_eq_false_iff : overrunDue s g = false ↔ s.dt ≤ g.c + 100000 ∨ (g.wid, g.first) ∈ s.world.overrunDone := by
  rw [overrunDue, Bool.and_eq_false_iff, decide_eq_false_iff_not, Nat.not_lt, Bool.not_eq_false', List.contains_iff_mem]

theorem exec_atomiserOverrun_none (hs : Live s) (h : s.world.groups.find? (overrunDue (atDt t s)) = none) :
    exec (.atomiserOverrun t) s = .next (atDt t s) := by
  change execAtomiserOverrun t s = _
  rw [execAtomiserOverrun, runAt_live hs]
  unfold overrunDue at h
  simp only [atDt_world] at h ⊢
  rw [h]

theorem exec_atomiserOverrun_some (hs : Live s) (h : s.world.groups.find? (overrunDue (atDt t s)) = some g) :
    exec (.atomiserOverrun t) s = .next (raise 97 0 0 { atDt t s with world := { s.world with
      overrunDone := s.world.overrunDone ++ [(g.wid, g.first)] } }) := by
  change execAtomiserOverrun t s = _
  rw [execAtomiserOverrun, runAt_live hs]
  unfold overrunDue at h
  simp only [atDt_world] at h ⊢
  rw [h]

end Atomiser

/-! ## The flacon that a seal builds -/

/-- The seal of an entry changes the index and the brick pool alone (03 R103 seal_entry). -/
theorem sealEntry_only (e : Nat) (w : World) (k : Key) : ∃ i p, sealEntry e w k = { w with index := i, pool := p } := by
  unfold sealEntry
  split
  case h_1 => exact ⟨_, _, rfl⟩
  case h_2 =>
    dsimp only
    split
    · exact ⟨_, _, rfl⟩
    · split
      · exact ⟨_, _, rfl⟩
      · exact ⟨_, _, rfl⟩

theorem foldl_sealEntry_only (e : Nat) (l : List Key) (w : World) : ∃ i p, l.foldl (sealEntry e) w = { w with index := i, pool := p } := by
  induction l generalizing w with
  | nil => exact ⟨_, _, rfl⟩
  | cons k l ih =>
    obtain ⟨i, p, hk⟩ := sealEntry_only e w k
    obtain ⟨i', p', hl⟩ := ih (sealEntry e w k)
    exact ⟨i', p', by rw [List.foldl_cons, hl, hk]⟩

/-- The open epoch as a flacon, over the sealed index `i` and pool `p`, with the residents `res` (03 R103). -/
def sealedFlacon (full : Bool) (w : World) (i : List (Nat × IdxEntry)) (p : List (Nat × List Vox)) (res : List (Key × Nat)) : Flacon :=
  let o := sealOrigin full w
  { epoch := w.openEpoch, blocking := false, index := i, pool := p, prims := w.prims, ox := o.1, oy := o.2.1, oz := o.2.2,
    fset := (w.fsetOpen.or w.fl.fset).map (shiftFSet o.1 o.2.1), resident := res }

/-- A seal opens the next epoch, empty but for a forecast set that came early, and leaves the flacon in force until it completes. -/
theorem buildSeal_eq (full : Bool) (s : State) : ∃ fresh i p res, buildSeal full s = { s with
    fresh := fresh,
    world := { s.world with
      index := i, pool := p, openEpoch := (s.world.openEpoch + 1) % 2 ^ 32, dirty := [], fsetOpen := s.world.fsetLater, fsetLater := none,
      sealedOnce := true, sealing := some { full := full, next := sealedFlacon full s.world i p res }, sealWanted := none, primsChanged := 0 } } := by
  obtain ⟨i, p, h⟩ := foldl_sealEntry_only s.world.openEpoch (sortBy canonLe s.world.dirty) s.world
  unfold buildSeal sealedFlacon
  dsimp only
  rw [h]
  cases s.world.fsetOpen with
  | none => exact ⟨_, i, p, _, rfl⟩
  | some f => exact ⟨_, i, p, _, rfl⟩

/-! ## The seal's commands -/

section Seal

variable {t t0 : Nat} {s : State} {sl : Sealing}

theorem sealBlocked_eq_false_iff :
    sealBlocked t0 s = false ↔ (∀ g ∈ s.world.groups, t0 < g.c + 20000) ∧ ∀ o ∈ s.world.fcastOwed, t0 ≤ o.2.1 := by
  simp [sealBlocked]

theorem exec_sealStart_unwanted (hs : Live s) (hw : s.world.sealWanted = none) : exec (.sealStart t) s = .next (atDt t s) := by
  change execSealStart t s = _
  rw [execSealStart, runAt_live hs]
  simp [hw]

theorem exec_sealStart_wanted (hs : Live s) (hw : s.world.sealWanted = some t0) : exec (.sealStart t) s = .next (
    if s.world.sealing.isSome || sealBlocked t0 s then atDt t s
    else runPrims true (buildSeal (!s.world.sealedOnce) (atDt t s)).work (buildSeal (!s.world.sealedOnce) (atDt t s))) := by
  change execSealStart t s = _
  rw [execSealStart, runAt_live hs]
  simp only [atDt_world, hw]
  rfl

/-- The seal's own command brings its flacon into force, and the other of the two does nothing (03 R104, R105). -/
theorem exec_sealComplete_sealing (hs : Live s) (h : s.world.sealing = some sl) :
    exec (.sealComplete t) s = .next (if sl.full then atDt t s else installSeal sl (atDt t s)) := by
  change execSealComplete t s = _
  rw [execSealComplete, runAt_live hs]
  simp [h]

theorem exec_fullSealComplete_sealing (hs : Live s) (h : s.world.sealing = some sl) :
    exec (.fullSealComplete t) s = .next (if sl.full then installSeal sl (atDt t s) else atDt t s) := by
  change execFullSealComplete t s = _
  rw [execFullSealComplete, runAt_live hs]
  simp [h]

theorem exec_sealComplete_idle (hs : Live s) (h : s.world.sealing = none) : exec (.sealComplete t) s = .next (atDt t s) := by
  change execSealComplete t s = _
  rw [execSealComplete, runAt_live hs]
  simp [h]

theorem exec_fullSealComplete_idle (hs : Live s) (h : s.world.sealing = none) : exec (.fullSealComplete t) s = .next (atDt t s) := by
  change execFullSealComplete t s = _
  rw [execFullSealComplete, runAt_live hs]
  simp [h]

end Seal

/-- Settles O55: an equation for each case of each command, and what the built seal leaves of the world. -/
theorem atomiserAndSeal : Obligations.AtomiserAndSeal := by
  unfold Obligations.AtomiserAndSeal
  intro t v s hs u x ready
  refine ⟨exec_atomiserGroup_idle hs, fun g gs hg => ⟨exec_atomiserGroup_held hs hg, fun w i => exec_atomiserGroup_runs hs hg⟩,
    fun g => exec_atomiserOverrun_some hs, fun hdone => exec_atomiserOverrun_none hs ?overrun, exec_sealStart_unwanted hs,
    fun t0 hw hnot => ?wait, fun t0 hw hready => ?start, fun sl h => ?complete,
    fun h => ⟨exec_sealComplete_idle hs h, exec_fullSealComplete_idle hs h⟩⟩
  case overrun =>
    exact List.find?_eq_none.2 fun g hg => Bool.not_eq_true _ ▸ overrunDue_eq_false_iff.2 (hdone g hg)
  case wait =>
    have hwait : (s.world.sealing.isSome || sealBlocked t0 s) = true := by
      rw [← Bool.not_eq_false, Bool.or_eq_false_iff, Option.isSome_eq_false_iff, Option.isNone_iff_eq_none, sealBlocked_eq_false_iff]
      exact hnot
    rw [exec_sealStart_wanted hs hw, if_pos hwait]
  case start =>
    obtain ⟨hidle, hblock⟩ := hready
    obtain ⟨fresh, i, p, res, hb⟩ := buildSeal_eq (!s.world.sealedOnce) u
    refine ⟨buildSeal (!s.world.sealedOnce) u, ?_, ?_⟩
    · rw [exec_sealStart_wanted hs hw, if_neg (by simp [hidle, sealBlocked_eq_false_iff.2 hblock])]
    · rw [hb]
      exact ⟨rfl, rfl, rfl, rfl, rfl, rfl, _, rfl, rfl, rfl, rfl, rfl, rfl, rfl, rfl⟩
  case complete =>
    intro done
    rw [exec_sealComplete_sealing hs h, exec_fullSealComplete_sealing hs h]
    exact ⟨fun hf => by simp only [hf]; exact ⟨rfl, rfl⟩, fun hf => by simp only [hf]; exact ⟨rfl, rfl⟩⟩

end Sys2Proof.Machine
end

section
/-! SUPPORT. BODY_LOAD and ACCORD_LOAD (04 R121 to R126, 11 R366 to R372): what each does once its fields pass, how the copy of an image and the
load of its cores end, and the statement about them (O57). -/

namespace Sys2Proof.Machine

/-! ## BODY_LOAD -/

section BodyLoad

variable {d : Taken} {v : View} {h b : Bytes} {op : Nat} {x : Body} {s : State}

/-- The checks of a BODY_LOAD's fields (04 R121). -/
abbrev bodyChecks (d : Taken) : List (Bool × Fail) :=
  [(fld d 8 8 % 8 != 0, badField 8), (decide (fld d 0x10 4 < 16), badField 0x10), reservedCheck d [(8, 8), (0x10, 4)]]

theorem bodyChecks_pass (hbuf : fld d 8 8 % 8 = 0) (hn : 16 ≤ fld d 0x10 4) (hres : (reservedCheck d [(8, 8), (0x10, 4)]).1 = false) :
    firstFail (bodyChecks d) = none := by
  simp [firstFail_eq_none_iff, hbuf, hn, hres]

/-- Bytes of the buffer that the header `h` announces: itself, the joints, the spheres and the capsules (04 R121). -/
abbrev bodyBytes (h : Bytes) : Nat := 16 + 48 * fieldN h 2 1 + 16 * fieldN h 4 2 + 32 * fieldN h 3 1

/-- The payload's link is past the joints of the body in force, or no body is (04 R125). -/
abbrev linkOutside (h : Bytes) (o : Option Body) : Bool := match o with | some b => decide (fieldN h 6 1 > b.joints.length) | none => true

/-- The checks of the header `h` (04 R121, R125), the body `o` being in force. -/
abbrev bodyHeaderChecks (d : Taken) (h : Bytes) (o : Option Body) : List (Bool × Fail) :=
  [(fieldN h 0 1 == 0 || decide (fieldN h 0 1 > 3) || fieldN h 7 1 != 0 || fieldN h 0xC 4 != 0, badWhole),
   (decide (fieldN h 2 1 > 48) || decide (fieldN h 3 1 > 64) ||
     (fieldN h 0 1 == 1 && (decide (fieldN h 1 1 > 2) || decide (fieldN h 4 2 > 256))), badWhole),
   (fieldN h 0 1 == 2 && (decide (fieldN h 4 2 > 32) || linkOutside h o), badWhole),
   (fieldN h 0 1 == 3 && fieldN h 4 2 != 0, badWhole), (decide (fld d 0x10 4 < bodyBytes h), badField 0x10)]

/-- What every header must hold, whatever its `op` (04 R121). -/
structure BodyHeaderOk (d : Taken) (h : Bytes) : Prop where
  reserved7 : fieldN h 7 1 = 0
  reservedC : fieldN h 0xC 4 = 0
  joints : fieldN h 2 1 ≤ 48
  capsules : fieldN h 3 1 ≤ 64
  size : bodyBytes h ≤ fld d 0x10 4

theorem bodyHeaderChecks_load {o : Option Body} (hh : BodyHeaderOk d h) (hop : fieldN h 0 1 = 1) (hkind : fieldN h 1 1 ≤ 2)
    (hns : fieldN h 4 2 ≤ 256) : firstFail (bodyHeaderChecks d h o) = none := by
  obtain ⟨h7, hC, hnj, hnc, hsize⟩ := hh
  simp [firstFail_eq_none_iff, hop, h7, hC, hnj, hnc, hsize, hkind, hns]

theorem bodyHeaderChecks_attach {o : Body} (hh : BodyHeaderOk d h) (hop : fieldN h 0 1 = 2) (hns : fieldN h 4 2 ≤ 32)
    (hlink : fieldN h 6 1 ≤ o.joints.length) : firstFail (bodyHeaderChecks d h (some o)) = none := by
  obtain ⟨h7, hC, hnj, hnc, hsize⟩ := hh
  simp [firstFail_eq_none_iff, hop, h7, hC, hnj, hnc, hsize, hns, hlink]

theorem bodyHeaderChecks_detach {o : Option Body} (hh : BodyHeaderOk d h) (hop : fieldN h 0 1 = 3) (hns : fieldN h 4 2 = 0) :
    firstFail (bodyHeaderChecks d h o) = none := by
  obtain ⟨h7, hC, hnj, hnc, hsize⟩ := hh
  simp [firstFail_eq_none_iff, hop, h7, hC, hnj, hnc, hsize, hns]

/-- The payload records of the header `h` on a body of `joints` joints. -/
abbrev payloadRecords (h b : Bytes) (joints : Nat) : Except Nat (List Sph) :=
  parseAll (fun _ => parseSphere joints) b (48 * fieldN h 2 1) 16 (fieldN h 2 1) (fieldN h 4 2)

/-- The payload spheres, carried by the link that the header names (04 R125). -/
abbrev linkedTo (h : Bytes) (l : List Sph) : List Sph := l.map fun x => { x with link := fieldN h 6 1 }

/-- What acceptance does with a header and records that are read, by the header's `op` (04 R121). -/
def acceptBody (d : Taken) (h b : Bytes) (s : State) : State :=
  match fieldN h 0 1 with
  | 1 => (match buildBody h b with
    | .error f => refuse d f s
    | .ok x => queueBody d 1 x s)
  | 2 => (match payloadRecords h b ((s.body.map fun x => x.joints.length).getD 0) with
    | .error i => refuse d (badRecord i) s
    | .ok l => if !(match s.body with | some o => payloadFits o l | none => false) then refuse d badWhole s
      else queueBody d 2 (payloadBody (fieldN h 8 4) (linkedTo h l)) s)
  | _ => queueBody d 3 (payloadBody (fieldN h 8 4) []) s

theorem exec_bodyLoad_read (ha : Admits { code := 4, control := true } d s) (hck : firstFail (bodyChecks d) = none)
    (hread : hostRead v (accepted d v s) (fld d 8 8) 16 = some h) (hhdr : firstFail (bodyHeaderChecks d h s.body) = none)
    (hrecs : hostRead v (accepted d v s) (fld d 8 8 + 16) (bodyBytes h - 16) = some b) :
    exec (.bodyLoad d v) s = .next (acceptBody d h b (accepted d v s)) := by
  rw [← accepted_body d v s] at hhdr
  change execBodyLoad d v s = _
  rw [execBodyLoad, acceptDesc_next ha]
  dsimp only
  rw [withChecks_pass hck, withRead_some hread]
  exact congrArg _ ((withChecks_pass hhdr).trans (withRead_some hrecs))

/-! ### By `op` -/

theorem acceptBody_load (hop : fieldN h 0 1 = 1) (hb : buildBody h b = .ok x) : acceptBody d h b s = queueBody d 1 x s := by
  simp only [acceptBody, hop, hb]

theorem acceptBody_load_invalid {f : Fail} (hop : fieldN h 0 1 = 1) (hb : buildBody h b = .error f) :
    acceptBody d h b s = refuse d f s := by
  simp only [acceptBody, hop, hb]

theorem acceptBody_attach {o : Body} {l : List Sph} (hop : fieldN h 0 1 = 2) (ho : s.body = some o)
    (hl : payloadRecords h b o.joints.length = .ok l) :
    acceptBody d h b s = if payloadFits o l then queueBody d 2 (payloadBody (fieldN h 8 4) (linkedTo h l)) s else refuse d badWhole s := by
  simp only [acceptBody, hop, ho, Option.map_some, Option.getD_some, hl]
  cases payloadFits o l <;> rfl

theorem acceptBody_attach_invalid {o : Body} {i : Nat} (hop : fieldN h 0 1 = 2) (ho : s.body = some o)
    (hl : payloadRecords h b o.joints.length = .error i) : acceptBody d h b s = refuse d (badRecord i) s := by
  simp only [acceptBody, hop, ho, Option.map_some, Option.getD_some, hl]

theorem acceptBody_detach (hop : fieldN h 0 1 = 3) : acceptBody d h b s = queueBody d 3 (payloadBody (fieldN h 8 4) []) s := by
  simp only [acceptBody, hop]

/-! ### The body that is left, against the Accord (04 R126) -/

/-- The body `y` that the work would leave in force decides. -/
theorem queueBody_of_left {y : Body} (hy : applyBody op x s.body = some y) :
    queueBody d op x s = if bodyFitsNow s y then addWork (mkWork d 0 (.body op x) s) s else refuse d mismatchFail s := by
  simp only [queueBody, hy]

theorem queueBody_of_none (hn : applyBody op x s.body = none) : queueBody d op x s = addWork (mkWork d 0 (.body op x) s) s := by
  simp only [queueBody, hn]

/-- A load leaves its own body, whatever was in force. -/
theorem queueBody_load :
    queueBody d 1 x s = if bodyFitsNow s x then addWork (mkWork d 0 (.body 1 x) s) s else refuse d mismatchFail s :=
  queueBody_of_left rfl

theorem queueBody_attach {o : Body} (ho : s.body = some o) :
    queueBody d 2 x s =
      if bodyFitsNow s { o with payload := x.payload } then addWork (mkWork d 0 (.body 2 x) s) s else refuse d mismatchFail s :=
  queueBody_of_left (by rw [ho]; rfl)

theorem queueBody_detach {o : Body} (ho : s.body = some o) :
    queueBody d 3 x s = if bodyFitsNow s { o with payload := [] } then addWork (mkWork d 0 (.body 3 x) s) s else refuse d mismatchFail s :=
  queueBody_of_left (by rw [ho]; rfl)

theorem queueBody_detach_none (ho : s.body = none) : queueBody d 3 x s = addWork (mkWork d 0 (.body 3 x) s) s :=
  queueBody_of_none (by rw [ho]; rfl)

end BodyLoad

/-! ## ACCORD_LOAD -/

section AccordLoad

variable {d : Taken} {v : View} {img : Accord} {h b : Bytes} {s : State}

/-- The image stands in the staging region (11 R369). -/
abbrev imageStaged (d : Taken) : Bool := bitOf (fld d 0x20 1) 0

/-- The checks of an ACCORD_LOAD's fields (11 R369). -/
abbrev accordChecks (d : Taken) (s : State) : List (Bool × Fail) :=
  [(fld d 8 8 % 4096 != 0, badField 8), (imageStaged d && decide (fld d 8 8 + fld d 0x10 8 > s.hostq.stageSize), badField 8),
   (decide (fld d 0x20 1 > 1), badField 0x20), reservedCheck d [(8, 8), (0x10, 8), (0x18, 8), (0x20, 1)]]

theorem accordChecks_pass (hal : fld d 8 8 % 4096 = 0) (hfl : fld d 0x20 1 ≤ 1)
    (hres : (reservedCheck d [(8, 8), (0x10, 8), (0x18, 8), (0x20, 1)]).1 = false)
    (hin : imageStaged d = true → fld d 8 8 + fld d 0x10 8 ≤ s.hostq.stageSize) : firstFail (accordChecks d s) = none := by
  simpa [firstFail_eq_none_iff, hal, hfl, hres] using hin

theorem accordChecks_outside (hal : fld d 8 8 % 4096 = 0) (hst : imageStaged d = true) (hout : s.hostq.stageSize < fld d 8 8 + fld d 0x10 8) :
    firstFail (accordChecks d s) = some (badField 8) := by
  simp [firstFail, hal, hst, hout]

@[simp] theorem accepted_stageSize (d : Taken) (v : View) (s : State) : (accepted d v s).hostq.stageSize = s.hostq.stageSize := by
  simp [accepted]

/-- The first `n` bytes of the image, as acceptance reads them: the staging region always answers, host memory may fail. -/
abbrev imageRead (d : Taken) (v : View) (s : State) (n : Nat) : Option Bytes :=
  if imageStaged d then some (imageBytesAt s (true, fld d 8 8) n) else hostRead v s (fld d 8 8) n

theorem withImage_some {n : Nat} {k : Bytes → State → State} (hr : imageRead d v s n = some b) : withImage d v n s k = k b s := by
  cases hst : imageStaged d with
  | true =>
    rw [imageRead, if_pos hst] at hr
    rw [withImage, if_pos hst, Option.some.inj hr]
  | false =>
    rw [imageRead, if_neg (ne_true_of_eq_false hst)] at hr
    rw [withImage, if_neg (ne_true_of_eq_false hst), withRead_some hr]

theorem withImage_none {n : Nat} {k : Bytes → State → State} (hr : imageRead d v s n = none) :
    withImage d v n s k = refuseRead d (fld d 8 8) s := by
  cases hst : imageStaged d with
  | true =>
    rw [imageRead, if_pos hst] at hr
    exact absurd hr (Option.some_ne_none _)
  | false =>
    rw [imageRead, if_neg (ne_true_of_eq_false hst)] at hr
    rw [withImage, if_neg (ne_true_of_eq_false hst), withRead_none hr]

theorem inN_eq_false_iff {lo n hi : Nat} : inN lo n hi = false ↔ n < lo ∨ hi < n := by
  simp only [inN, Bool.and_eq_false_iff, decide_eq_false_iff_not, Nat.not_le]

theorem inN_eq_true_iff {lo n hi : Nat} : inN lo n hi = true ↔ lo ≤ n ∧ n ≤ hi := by
  simp only [inN, Bool.and_eq_true, decide_eq_true_eq]

/-- What acceptance does with the header `h`: it reads the manifest, and takes up an image of the size that the descriptor names. -/
abbrev acceptHeader (d : Taken) (v : View) (img : Accord) (h : Bytes) (s : State) : State :=
  if !inN 4096 (fieldN h 0x1C 4) 262144 then refuse d badWhole s else
  withImage d v (fieldN h 0x1C 4) s fun b s =>
    if fld d 0x10 8 ≠ (readHeader img b).imageBytes then refuse d (badField 0x10) s else takeImage d (readHeader img b) s

theorem exec_accordLoad_outside (ha : Admits { code := 5, control := true } d s) (hck : firstFail (accordChecks d s) = some (badField 8)) :
    exec (.accordLoad d v img) s = .next (refuse d (badField 8) (accepted d v s)) := by
  have hck' : firstFail (accordChecks d (accepted d v s)) = some (badField 8) := by rwa [accordChecks, accepted_stageSize]
  change execAccordLoad d v img s = _
  rw [execAccordLoad, acceptDesc_next ha]
  exact congrArg _ (withChecks_fail hck')

theorem exec_accordLoad_image (ha : Admits { code := 5, control := true } d s) (hck : firstFail (accordChecks d s) = none) :
    exec (.accordLoad d v img) s = .next (withImage d v 256 (accepted d v s) (acceptHeader d v img)) := by
  have hck' : firstFail (accordChecks d (accepted d v s)) = none := by rwa [accordChecks, accepted_stageSize]
  change execAccordLoad d v img s = _
  rw [execAccordLoad, acceptDesc_next ha]
  exact congrArg _ (withChecks_pass hck')

theorem acceptHeader_bad_size (hm : fieldN h 0x1C 4 < 4096 ∨ 262144 < fieldN h 0x1C 4) :
    acceptHeader d v img h s = refuse d badWhole s := by
  rw [acceptHeader, inN_eq_false_iff.2 hm]; rfl

theorem acceptHeader_read (hlo : 4096 ≤ fieldN h 0x1C 4) (hhi : fieldN h 0x1C 4 ≤ 262144) :
    acceptHeader d v img h s = withImage d v (fieldN h 0x1C 4) s fun b s =>
      if fld d 0x10 8 ≠ (readHeader img b).imageBytes then refuse d (badField 0x10) s else takeImage d (readHeader img b) s := by
  rw [acceptHeader, inN_eq_true_iff.2 ⟨hlo, hhi⟩]; rfl

theorem takeImage_unacceptable (hok : imageOk img = false) : takeImage d img s = refuse d badWhole s := by
  simp [takeImage, hok]

theorem takeImage_unsupported (hok : imageOk img = true) (hnew : 1 < img.format ∨ s.boot.fwVersion < img.minFirmware) :
    takeImage d img s = refuse d unsupportedFail s := by
  simp [takeImage, hok, hnew]

theorem takeImage_acceptable (hok : imageOk img = true) (hfmt : img.format ≤ 1) (hfw : img.minFirmware ≤ s.boot.fwVersion) :
    takeImage d img s = startHeld (addWork (mkWork d 0 (.accord img (fld d 0x18 8) .held (imageStaged d, fld d 8 8)) s) s) := by
  simp [takeImage, hok, Nat.not_lt.2 hfmt, Nat.not_lt.2 hfw]

end AccordLoad

/-! ## The end of a copy and of the cores' load -/

section Copy

variable {t : Nat} {e : Bool} {w : Work} {img : Accord} {ex : Nat} {src : Bool × Nat} {s : State}

@[simp] theorem accordCopying_atDt (t : Nat) (s : State) : accordCopying (atDt t s) = accordCopying s := rfl

theorem exec_accordCopyDone_live (hs : Live s) : exec (.accordCopyDone t e) s = .next (endCopy e (atDt t s)) := runAt_live hs t _

theorem exec_accordCoresLoaded_live (hs : Live s) : exec (.accordCoresLoaded t) s = .next (coresLoaded (atDt t s)) := runAt_live hs t _

theorem endCopy_idle (hc : accordCopying s = none) : endCopy e s = s := by
  simp only [endCopy, hc]

/-- Only a copy from host memory can fail (11 R370). -/
theorem endCopy_failed (hc : accordCopying s = some (w, img, ex, src)) (hsrc : src.1 = false) :
    endCopy true s = startHeld (finishWork w 0x21 0 155 0 none (raise 155 src.2 0 s)) := by
  simp [endCopy, hc, hsrc]

/-- The image that was copied, in its pending region. -/
abbrev copiedImage (img : Accord) (src : Bool × Nat) (s : State) : State := keyWrite s (pendingAt s) (imageBytesAt s src img.imageBytes)

/-- Its hash decides, and then the bits that the descriptor expects (11 R370). -/
theorem endCopy_copied (hc : accordCopying s = some (w, img, ex, src)) (hgood : e = false ∨ src.1 = true) :
    endCopy e s =
      if imageHash (imageBytesAt s src img.imageBytes) ≠ img.hash then
        startHeld (finishWork w 0x10 0 0xFFFFFFFF 0xFFFFFFFF none (copiedImage img src s))
      else if ex ≠ 0 ∧ ex ≠ img.hash64 then startHeld (finishWork w 0x13 0 0 0 none (copiedImage img src s))
      else setItem w.wid (.accord img ex (.passed s.dt) src) (copiedImage img src s) := by
  have hnofail : (e && !src.1) = false := by
    obtain he | hsrc := hgood
    · simp [he]
    · simp [hsrc]
  simp only [endCopy, hc, hnofail]
  rfl

/-- The ACCORD_LOAD whose cores load, with the frame of its changeover. -/
abbrev loadingFrame (w : Work) : Option (Work × Nat) := match w.item with | .accord _ _ (.loading n) _ => some (w, n) | _ => none

theorem loadingFrame_eq_none (h : ∀ i x n p, w.item ≠ .accord i x (.loading n) p) : loadingFrame w = none := by
  unfold loadingFrame
  split
  next i x n p hi => exact absurd hi (h i x n p)
  next => rfl

theorem coresLoaded_some {n : Nat} (hl : s.work.findSome? loadingFrame = some (w, n)) :
    coresLoaded s = startHeld (finishWork w 0 (susFlag s) 0 0 (some n) s) := by
  unfold coresLoaded
  split
  next x k hx =>
    obtain ⟨rfl, rfl⟩ := Prod.mk.inj (Option.some.inj (hx.symm.trans hl))
    rfl
  next hx => exact absurd (hx.symm.trans hl) (Option.some_ne_none _).symm

theorem coresLoaded_none (hl : s.work.findSome? loadingFrame = none) : coresLoaded s = s := by
  unfold coresLoaded
  split
  next x k hx => exact absurd (hx.symm.trans hl) (Option.some_ne_none _)
  next => rfl

end Copy

/-- Settles O57: the fields and the header pass their checks, what is read decides by the header's `op` or by the image's own conditions, and the
copy ends in one of the four ways of `endCopy`; the load completes for the work whose cores load, if any does. -/
theorem loads : Obligations.Loads := by
  unfold Obligations.Loads
  intro d v img t s a u
  have hbody : a.body = s.body := accepted_body d v s
  refine ⟨fun h b ha hbuf hn hres => ?body, fun ha hal hfl hres => ?accord, fun hs => ?copy⟩
  case body =>
    intro nj nc ns size hread h7 hC hnj hnc hsize hrecs
    have hck := bodyChecks_pass hbuf hn hres
    have hhdr : BodyHeaderOk d h := ⟨h7, hC, hnj, hnc, hsize⟩
    refine ⟨fun hop hkind hns => ?load, fun o hop hns ho hlink => ?attach, fun hop hns => ?detach⟩
    case load =>
      rw [exec_bodyLoad_read ha hck hread (bodyHeaderChecks_load hhdr hop hkind hns) hrecs]
      refine ⟨fun f hf => by rw [acceptBody_load_invalid hop hf], fun x hx => ?_⟩
      rw [acceptBody_load hop hx, queueBody_load]
      exact ⟨fun hfit => by rw [if_pos hfit], fun hfit => by rw [if_neg (ne_true_of_eq_false hfit)]⟩
    case attach =>
      have hao : a.body = some o := hbody.trans ho
      rw [exec_bodyLoad_read ha hck hread (ho ▸ bodyHeaderChecks_attach hhdr hop hns hlink) hrecs]
      refine ⟨fun i hi => by rw [acceptBody_attach_invalid hop hao hi], fun l hl => ?_⟩
      intro p
      rw [acceptBody_attach hop hao hl, queueBody_attach hao]
      exact ⟨fun htot => by rw [if_neg (ne_true_of_eq_false htot)], fun htot hfit => by rw [if_pos htot]; exact congrArg _ (if_pos hfit),
        fun htot hfit => by rw [if_pos htot]; exact congrArg _ (if_neg (ne_true_of_eq_false hfit))⟩
    case detach =>
      intro left
      rw [exec_bodyLoad_read ha hck hread (bodyHeaderChecks_detach hhdr hop hns) hrecs, acceptBody_detach hop]
      refine ⟨fun o ho hfit => ?_, fun o ho hfit => ?_, fun ho => by rw [queueBody_detach_none (hbody.trans ho)]⟩
      · rw [queueBody_detach (hbody.trans ho), if_pos hfit]
      · rw [queueBody_detach (hbody.trans ho), if_neg (ne_true_of_eq_false hfit)]
  case accord =>
    intro st read
    refine ⟨fun hst hout => exec_accordLoad_outside ha (accordChecks_outside hal hst hout), fun hin => ?_⟩
    rw [exec_accordLoad_image ha (accordChecks_pass hal hfl hres hin)]
    refine ⟨fun hr => by rw [withImage_none hr], fun h hr => ?_⟩
    intro m
    rw [withImage_some hr]
    refine ⟨fun hm => by rw [acceptHeader_bad_size hm], fun hlo hhi => ?_⟩
    rw [acceptHeader_read hlo hhi]
    refine ⟨fun hb => by rw [withImage_none hb], fun b hb => ?_⟩
    intro im
    rw [withImage_some hb]
    refine ⟨fun hne => by rw [if_pos hne], fun heq => ?_⟩
    rw [if_neg fun hne => hne heq]
    have hfw : a.boot = s.boot := accepted_boot d v s
    exact ⟨fun hok => by rw [takeImage_unacceptable hok], fun hok hnew => by rw [takeImage_unsupported hok (by rwa [hfw])],
      fun hok hfmt hmin => by rw [takeImage_acceptable hok hfmt (by rwa [hfw])]⟩
  case copy =>
    refine ⟨fun e hc => ?idle, fun w im ex src hc => ?ends, fun w n hl => ?loaded, fun hno => ?notLoading⟩
    case idle => rw [exec_accordCopyDone_live hs, endCopy_idle ((accordCopying_atDt t s).trans hc)]
    case ends =>
      have hcu : accordCopying u = some (w, im, ex, src) := (accordCopying_atDt t s).trans hc
      refine ⟨fun hsrc => by rw [exec_accordCopyDone_live hs, endCopy_failed hcu hsrc], fun e hgood => ?_⟩
      intro b z hash
      rw [exec_accordCopyDone_live hs, endCopy_copied hcu hgood]
      exact ⟨fun hbad => congrArg _ (if_pos hbad),
        fun hok h0 hex => congrArg _ ((if_neg fun hbad => hbad hok).trans (if_pos ⟨h0, hex⟩)),
        fun hok hex => congrArg _ ((if_neg fun hbad => hbad hok).trans (if_neg fun hno => hex.elim hno.1 hno.2))⟩
    case loaded => exact (exec_accordCoresLoaded_live hs).trans (congrArg _ (coresLoaded_some hl))
    case notLoading =>
      have hnone : s.work.findSome? loadingFrame = none :=
        List.findSome?_eq_none_iff.2 fun w hw => loadingFrame_eq_none (hno w hw)
      exact (exec_accordCoresLoaded_live hs).trans (congrArg _ (coresLoaded_none hnone))

end Sys2Proof.Machine
end

section
/-! SUPPORT. Optimisations (05 R168 to R200): what each of their commands does in each case, the ends of one outer iteration, and the statement
about them (O58). -/

namespace Sys2Proof.Machine

/-! ## The commands of one optimisation -/

section Commands

variable {t wid idx cmp inner tries : Nat} {o : Opt} {w : Work} {sv : SvWork} {c : PClass} {q : QIn} {s : State}

@[simp] theorem findOpt_atDt (t : Nat) (s : State) : findOpt (atDt t s) = findOpt s := rfl
@[simp] theorem findWork_atDt (t : Nat) (s : State) : findWork (atDt t s) = findWork s := rfl
@[simp] theorem optClass_atDt (t : Nat) (s : State) : optClass (atDt t s) = optClass s := rfl
@[simp] theorem optIn_atDt (t : Nat) (s : State) : optIn c (atDt t s) = optIn c s := rfl
@[simp] theorem classOf_atDt (t : Nat) (s : State) : classOf (atDt t s) = classOf s := rfl

/-- A seed from a proposal whose proposals the frame in progress still waits for. -/
abbrev awaitsProposal (s : State) (o : Opt) : Bool :=
  o.fromProposal && (match s.frame.cur with | some f => f.proposalState == 0 | none => false)

/-- The optimisation cannot start now (05 R168, R199). -/
abbrev startBlocked (s : State) (w : Work) (o : Opt) : Bool :=
  o.started || o.stop.isSome || mustWait s w o || awaitsProposal s o || deadlinePassed o s.dt

/-- The deadline that a start sets (05 R183, R199): the budget of a SOLVE runs from it. -/
def startDeadline (w : Work) (o : Opt) (now : Nat) : Option Nat :=
  match w.item with
  | .solve v => if v.budget = 0 then none else some (now + v.budget)
  | _ => o.deadline

theorem startDeadline_solve (hi : w.item = .solve sv) (now : Nat) :
    startDeadline w o now = if sv.budget = 0 then none else some (now + sv.budget) := by
  simp only [startDeadline, hi]

theorem startDeadline_seed (hi : ∀ v, w.item ≠ .solve v) (now : Nat) : startDeadline w o now = o.deadline := by
  unfold startDeadline
  split
  next v hv => exact absurd hv (hi v)
  next => rfl

theorem exec_optimisationStart (hs : Live s) (ho : findOpt s wid idx = some o) (hw : findWork s wid = some w) :
    exec (.optimisationStart t wid idx) s = .next (
      if startBlocked (atDt t s) w o then atDt t s
      else setOpt { o with started := true, startDt := (atDt t s).dt, merit := optMerit (atDt t s) o o.cur,
                           deadline := startDeadline w o (atDt t s).dt } (atDt t s)) := by
  change execOptimisationStart t wid idx s = _
  rw [execOptimisationStart, runAt_live hs]
  simp only [findOpt_atDt, findWork_atDt, ho, hw]
  rfl

/-- No outer iteration is in progress, it ends later, or the deadline comes first (05 R183). -/
abbrev commitBlocked (now cmp : Nat) (o : Opt) : Bool := !o.started || o.stop.isSome || decide (now < cmp) || deadlinePassed o cmp

theorem commitBlocked_eq_true_iff {now : Nat} :
    commitBlocked now cmp o = true ↔ o.started = false ∨ o.stop.isSome = true ∨ now < cmp ∨ deadlinePassed o cmp = true := by
  simp [commitBlocked, or_assoc]

theorem commitBlocked_eq_false {now : Nat} (hst : o.started = true) (hrun : o.stop = none) (hnow : cmp ≤ now)
    (hdl : deadlinePassed o cmp = false) : commitBlocked now cmp o = false := by
  simp [commitBlocked, hst, hrun, hnow, hdl]

/-- The state with the optimisation as its outer iteration left it. -/
abbrev iterated (o : Opt) (s : State) : State := setOpt { o with stopFrame := s.frame.number } s

theorem exec_outerCommit (hs : Live s) (ho : findOpt s wid idx = some o) (hw : findWork s wid = some w) (hc : optClass s wid = some c)
    (hq : optIn c s wid idx = some q) {x : Opt} (hx : outerStep c o (outerIter c q o.cur) = x) :
    exec (.outerCommit t wid idx cmp) s = .next (
      if commitBlocked (atDt t s).dt cmp o then atDt t s
      else if x.outer = o.outer then iterated x (atDt t s)
      else logWork w 2 (x.digests.getLastD 0) w.bound idx x.outer 3 (iterated x (atDt t s))) := by
  change execOuterCommit t wid idx cmp s = _
  rw [execOuterCommit, runAt_live hs]
  simp only [findOpt_atDt, findWork_atDt, optClass_atDt, optIn_atDt, ho, hw, hc, hq, hx]

theorem exec_deadlineCut (hs : Live s) (ho : findOpt s wid idx = some o) :
    exec (.deadlineCut t wid idx inner tries) s = .next (
      if o.stop.isSome || !deadlinePassed o (atDt t s).dt then atDt t s
      else cutOpt wid idx (setOpt (atCut (atDt t s) o inner tries) (atDt t s))) := by
  change execDeadlineCut t wid idx inner tries s = _
  rw [execDeadlineCut, runAt_live hs]
  simp only [findOpt_atDt, ho]

theorem exec_deadlineCut_past (hs : Live s) (ho : findOpt s wid idx = some o) (hrun : o.stop = none)
    (hdl : deadlinePassed o (atDt t s).dt = true) :
    exec (.deadlineCut t wid idx inner tries) s = .next (cutOpt wid idx (setOpt (atCut (atDt t s) o inner tries) (atDt t s))) := by
  rw [exec_deadlineCut hs ho, if_neg (by rw [hrun, hdl]; exact Bool.false_ne_true)]

theorem atCut_started (hst : o.started = true) : atCut s o inner tries =
    { o with inner := o.inner + (cutCounts s o inner tries).1, retries := o.retries + (cutCounts s o inner tries).2 } := if_pos hst

theorem atCut_unstarted (hst : o.started = false) : atCut s o inner tries = { o with merit := optMerit s o o.cur } :=
  if_neg (ne_true_of_eq_false hst)

/-- The result of an optimisation that stopped for the reason `why` (05 R200). -/
abbrev stoppedResult (o : Opt) (why : Nat) : OptRes :=
  { stop := why, valid := o.valid, outer := o.outer, retries := o.retries, inner := o.inner, residual := o.resid, merit := o.merit,
    traj := o.cur, digests := o.digests }

/-- The SOLVE with the result of its problem `idx`. -/
abbrev withResult (sv : SvWork) (idx : Nat) (o : Opt) (why : Nat) : SvWork :=
  { sv with running := sv.running.filter (fun i => i != idx), results := insertKey idx (stoppedResult o why) sv.results,
            lastFrame := max sv.lastFrame o.stopFrame }

/-- The state in which that SOLVE stands without its optimisation of problem `idx`. -/
abbrev problemStopped (wid idx : Nat) (sv : SvWork) (s : State) : State :=
  setItem wid (.solve sv) { s with opts := s.opts.filter (fun x => !(x.wid == wid && x.idx == idx)) }

theorem exec_solveProblemStop_running (hs : Live s) (ho : findOpt s wid idx = some o) (hw : findWork s wid = some w) (hrun : o.stop = none) :
    exec (.solveProblemStop t wid idx) s = .next (atDt t s) := by
  change execSolveProblemStop t wid idx s = _
  rw [execSolveProblemStop, runAt_live hs]
  simp only [findOpt_atDt, findWork_atDt, ho, hw, hrun]

theorem exec_solveProblemStop_stopped {why : Nat} (hs : Live s) (ho : findOpt s wid idx = some o) (hw : findWork s wid = some w)
    (hstop : o.stop = some why) (hi : w.item = .solve sv) (hc : classOf s sv.cls = some c) {sv' : SvWork} (hsv : withResult sv idx o why = sv') :
    exec (.solveProblemStop t wid idx) s = .next (
      if sv'.results.length = sv.probs.length then finishSolve w c sv' (problemStopped wid idx sv' (atDt t s))
      else problemStopped wid idx sv' (atDt t s)) := by
  subst hsv
  change execSolveProblemStop t wid idx s = _
  rw [execSolveProblemStop, runAt_live hs]
  simp only [findOpt_atDt, findWork_atDt, classOf_atDt, ho, hw, hstop, hi, hc]

end Commands

/-! ## The end of one outer iteration (05 R172) -/

section OuterStep

variable {c : PClass} {o : Opt} {r : OuterResult}

/-- The iteration counts, and the optimisation stops for the reason `why` with its last committed iterate. -/
abbrev stopUncommitted (o : Opt) (r : OuterResult) (why : Nat) : Opt :=
  { o with inner := o.inner + r.inner, retries := o.retries + r.retries, stop := some why }

/-- The residual has grown a thousandfold since the first outer iteration. -/
abbrev residualRanAway (o : Opt) (r : OuterResult) : Bool := decide (o.outer + 1 ≥ 2) && dlt (dmul (dofInt 1000) o.r1) r.residual

/-- The stop tests of a committed iterate in their order: the tolerance, then the cap. -/
def commitStop (c : PClass) (o : Opt) (r : OuterResult) : Option Nat :=
  if dle r.residual c.tol then some 0 else if o.outer + 1 = c.outerCap then some 1 else none

/-- The optimisation with its new iterate committed. -/
def committed (c : PClass) (o : Opt) (r : OuterResult) : Opt :=
  { o with inner := o.inner + r.inner, retries := o.retries + r.retries, outer := o.outer + 1, valid := true, cur := r.z, merit := r.merit,
           resid := r.residual, r1 := if o.outer + 1 = 1 then r.residual else o.r1, digests := o.digests ++ [iterateDigest r.z r.mult],
           stop := commitStop c o r }

theorem residualRanAway_eq_true_iff :
    residualRanAway o r = true ↔ 1 ≤ o.outer ∧ dlt (dmul (dofInt 1000) o.r1) r.residual = true := by
  simp [residualRanAway]

theorem residualRanAway_eq_false_iff :
    residualRanAway o r = false ↔ o.outer = 0 ∨ dlt (dmul (dofInt 1000) o.r1) r.residual = false := by
  have hfirst : ¬o.outer + 1 ≥ 2 ↔ o.outer = 0 := by omega
  rw [residualRanAway, Bool.and_eq_false_iff, decide_eq_false_iff_not, hfirst]

theorem outerStep_factorFail (hf : r.factorFail = true) : outerStep c o r = stopUncommitted o r 5 := by
  simp [outerStep, hf]

theorem outerStep_infeasible (hf : r.factorFail = false) (hi : r.infeasible = true) : outerStep c o r = stopUncommitted o r 4 := by
  simp [outerStep, hf, hi]

/-- A QP that ended well leaves the decision to its iterate. -/
theorem outerStep_solved (hf : r.factorFail = false) (hi : r.infeasible = false) : outerStep c o r =
    if !r.z.all ffin || exceedsMagnitude c r.z then stopUncommitted o r 3
    else if residualRanAway o r then stopUncommitted o r 3 else committed c o r := by
  simp only [outerStep, hf, hi]
  rfl

theorem outerStep_runaway (hf : r.factorFail = false) (hi : r.infeasible = false)
    (hbad : r.z.all ffin = false ∨ exceedsMagnitude c r.z = true ∨ residualRanAway o r = true) :
    outerStep c o r = stopUncommitted o r 3 := by
  rw [outerStep_solved hf hi]
  obtain hfin | hmag | hres := hbad
  · rw [if_pos (by simp only [hfin, Bool.not_false, Bool.true_or])]
  · rw [if_pos (by simp only [hmag, Bool.or_true])]
  · rw [if_pos hres, ite_self]

theorem outerStep_commits (hf : r.factorFail = false) (hi : r.infeasible = false) (hfin : r.z.all ffin = true)
    (hmag : exceedsMagnitude c r.z = false) (hres : residualRanAway o r = false) : outerStep c o r = committed c o r := by
  rw [outerStep_solved hf hi, if_neg (by simp [hfin, hmag]), if_neg (ne_true_of_eq_false hres)]

theorem commitStop_tolerance (ht : dle r.residual c.tol = true) : commitStop c o r = some 0 := if_pos ht

theorem commitStop_cap (ht : dle r.residual c.tol = false) (hcap : o.outer + 1 = c.outerCap) : commitStop c o r = some 1 :=
  (if_neg (ne_true_of_eq_false ht)).trans (if_pos hcap)

theorem commitStop_none (ht : dle r.residual c.tol = false) (hcap : o.outer + 1 ≠ c.outerCap) : commitStop c o r = none :=
  (if_neg (ne_true_of_eq_false ht)).trans (if_neg hcap)

end OuterStep

/-- Settles O58: each command's equation with its guard decided by the case, and the end of an outer iteration by the tests of 05 R172 in their
order. -/
theorem optimisations : Obligations.Optimisations := by
  unfold Obligations.Optimisations
  refine ⟨fun t wid idx cmp inner tries o w s hs ho hw => ?commands, fun c o r => ?outer⟩
  case commands =>
    intro u solves busy waits blocked m
    have hstart : exec (.optimisationStart t wid idx) s = .next (
        if blocked then u
        else setOpt { o with started := true, startDt := u.dt, merit := m, deadline := startDeadline w o u.dt } u) :=
      exec_optimisationStart hs ho hw
    refine ⟨fun hb => by rw [hstart, if_pos hb], fun hb hi => ?seed, fun v hb hi => ?solve, fun c q hc hq => ?commit, fun hidle => ?early,
      fun hrun hdl hst => ?cut, fun hrun hdl hst => ?cutUnstarted, fun why sv c hstop hi hc => ?result,
      exec_solveProblemStop_running hs ho hw⟩
    case seed => rw [hstart, if_neg (ne_true_of_eq_false hb), startDeadline_seed hi]
    case solve => rw [hstart, if_neg (ne_true_of_eq_false hb), startDeadline_solve hi]
    case commit =>
      refine ⟨fun hb => ?_, fun hst hrun hnow hdl => ?_⟩
      · rw [exec_outerCommit hs ho hw hc hq rfl, if_pos (commitBlocked_eq_true_iff.2 hb)]
      · intro o' v
        have hgo := ne_true_of_eq_false (commitBlocked_eq_false hst hrun hnow hdl)
        rw [exec_outerCommit hs ho hw hc hq (x := o') rfl, if_neg hgo]
        exact ⟨fun hsame => congrArg _ (if_pos hsame), fun hnew => congrArg _ (if_neg hnew)⟩
    case early =>
      have hnot : (o.stop.isSome || !deadlinePassed o u.dt) = true := by simpa using hidle
      rw [exec_deadlineCut hs ho, if_pos hnot]
    case cut => rw [exec_deadlineCut_past hs ho hrun hdl, atCut_started hst]
    case cutUnstarted => rw [exec_deadlineCut_past hs ho hrun hdl, atCut_unstarted hst]
    case result =>
      intro res sv' u'
      rw [exec_solveProblemStop_stopped hs ho hw hstop hi hc (sv' := sv') rfl]
      exact ⟨fun hmore => by rw [if_neg hmore], fun hlast => by rw [if_pos hlast]⟩
  case outer =>
    refine ⟨outerStep_factorFail, outerStep_infeasible, fun hf hi hbad => ?runaway, fun hf hi hfin hmag hres => ?commits⟩
    case runaway => exact outerStep_runaway hf hi (by rwa [residualRanAway_eq_true_iff])
    case commits =>
      rw [outerStep_commits hf hi hfin hmag (residualRanAway_eq_false_iff.2 hres)]
      exact ⟨rfl, rfl, rfl, rfl, rfl, rfl, commitStop_tolerance, commitStop_cap, commitStop_none⟩

end Sys2Proof.Machine
end

section
/-! SUPPORT. Networks, their runs and the rows of a SELECT (06 R219 to R237, 07 R260): what each of their commands does in each case, and the
statement about them (O59). -/

namespace Sys2Proof.Machine

section Lookups

variable {n : NetRun} {s : State}

@[simp] theorem netOf_atDt (t : Nat) (s : State) : netOf (atDt t s) = netOf s := by
  funext wid net
  simp only [netOf, frameNets, atDt_accord, atDt_pwr, avsDue_service]
@[simp] theorem findRun_atDt (t : Nat) (s : State) : findRun (atDt t s) = findRun s := rfl
@[simp] theorem frameWork_atDt (t : Nat) (s : State) : frameWork (atDt t s) = frameWork s := rfl
@[simp] theorem findWork_applyView (v : View) (s : State) : findWork (applyView v s) = findWork s := by rw [applyView_eq]; rfl
@[simp] theorem frameWork_dropLate (s : State) : frameWork (dropLate s) = frameWork s := rfl
@[simp] theorem classOf_dropLate (s : State) : classOf (dropLate s) = classOf s := rfl

theorem mem_netRuns_dropRun {m : NetRun} :
    m ∈ (dropRun n s).netRuns ↔ m ∈ s.netRuns ∧ ¬(m.wid = n.wid ∧ m.run = n.run ∧ m.net = n.net) := by
  simp only [dropRun, List.mem_filter, Bool.not_eq_true', ← Bool.not_eq_true, Bool.and_eq_true, beq_iff_eq, and_assoc]

end Lookups

/-! ## Layer digests (06 R230, R231) -/

section Comparator

variable {t wid run net layer upset k a b g : Nat} {copyB : Bool} {d : NetDecl} {n : NetRun} {s : State}

theorem exec_layerDigestCompare_absent (hs : Live s) (h : netOf s wid net = none ∨ findRun s wid run net = none) :
    exec (.layerDigestCompare t wid run net layer copyB upset) s = .next (atDt t s) := by
  change execLayerDigestCompare t wid run net layer copyB upset s = _
  rw [execLayerDigestCompare, runAt_live hs]
  simp only [netOf_atDt, findRun_atDt]
  split
  next d n hd hn => simp [hd, hn] at h
  next => rfl

/-- The run takes no digest of this copy any more, or has no such copy. -/
abbrev takesNoDigest (s : State) (n : NetRun) (copyB : Bool) : Bool := n.mismatch.isSome || runFinal s n || (copyB && !n.dual)

theorem takesNoDigest_eq_true_iff :
    takesNoDigest s n copyB = true ↔ n.mismatch ≠ none ∨ runFinal s n = true ∨ (copyB = true ∧ n.dual = false) := by
  simp [takesNoDigest, Option.isSome_iff_ne_none, or_assoc]

theorem takesNoDigest_eq_false (hm : n.mismatch = none) (hf : runFinal s n = false) (hc : copyB = false ∨ n.dual = true) :
    takesNoDigest s n copyB = false := by
  obtain hc | hc := hc <;> simp [takesNoDigest, hm, hf, hc]

/-- The run with a digest of one of its copies. -/
abbrev withDigest (copyB : Bool) (layer g : Nat) (n : NetRun) : NetRun :=
  if copyB then { n with digB := insertKey layer g n.digB } else { n with digA := insertKey layer g n.digA }

theorem exec_layerDigestCompare_closed (hs : Live s) (hd : netOf s wid net = some d) (hn : findRun s wid run net = some n)
    (hc : takesNoDigest (atDt t s) n copyB = true) :
    exec (.layerDigestCompare t wid run net layer copyB upset) s = .next (atDt t s) := by
  change execLayerDigestCompare t wid run net layer copyB upset s = _
  rw [execLayerDigestCompare, runAt_live hs]
  simp only [netOf_atDt, findRun_atDt, hd, hn]
  rw [if_pos hc]

/-- An open run gets its recurrent state, and the comparator what the copy has computed for the layer. -/
theorem exec_layerDigestCompare_open (hs : Live s) (hd : netOf s wid net = some d) (hn : findRun s wid run net = some n)
    (hc : takesNoDigest (atDt t s) n copyB = false) :
    exec (.layerDigestCompare t wid run net layer copyB upset) s = .next (
      match copyDigest d (withHistory (atDt t s) n) layer upset with
      | none => setRun (withHistory (atDt t s) n) (atDt t s)
      | some g => compareLayers d d.layers.length (withDigest copyB layer g (withHistory (atDt t s) n)) (atDt t s)) := by
  change execLayerDigestCompare t wid run net layer copyB upset s = _
  rw [execLayerDigestCompare, runAt_live hs]
  simp only [netOf_atDt, findRun_atDt, hd, hn]
  exact congrArg _ (if_neg (ne_true_of_eq_false hc))

theorem compareLayers_waits (h : lookupO n.final n.digA = none ∨ (n.dual = true ∧ lookupO n.final n.digB = none)) :
    compareLayers d (k + 1) n s = setRun n s := by
  rw [compareLayers]
  obtain ha | ⟨hdual, hb⟩ := h
  · rw [ha]
  · rw [if_pos hdual, hb]
    split
    next hab => cases hab
    next => rfl

/-- The digest that the first copy's is compared with: its own where the run has one copy. -/
theorem comparedDigest_eq (ha : lookupO n.final n.digA = some a) (h : n.dual = false ∨ lookupO n.final n.digB = some a) :
    (if n.dual then lookupO n.final n.digB else lookupO n.final n.digA) = some a := by
  obtain h | h := h <;> simp [ha, h]

theorem compareLayers_agrees (ha : lookupO n.final n.digA = some a) (hb : n.dual = false ∨ lookupO n.final n.digB = some a) :
    compareLayers d (k + 1) n s =
      if n.final + 1 = d.layers.length then settleRun d { n with final := n.final + 1 } (noteLayer n n.final a s)
      else compareLayers d k { n with final := n.final + 1 } (noteLayer n n.final a s) := by
  rw [compareLayers, comparedDigest_eq ha hb, ha]
  exact if_pos rfl

theorem compareLayers_differs (ha : lookupO n.final n.digA = some a) (hdual : n.dual = true) (hb : lookupO n.final n.digB = some b)
    (hne : a ≠ b) {m : NetRun} {z : State} (hm : { n with mismatch := some n.final } = m) (hz : raise 82 0 (65536 * n.net + n.final) s = z) :
    compareLayers d (k + 1) n s = if n.wid = 0 then netOutcome m (dropRun m z) else setRun m z := by
  subst hm hz
  simp only [compareLayers, ha, hb, hdual, if_true, if_neg hne]

end Comparator

/-! ## The forecast (06 R222, R223) -/

section Forecast

variable {t : Nat} {n : NetRun} {d : NetDecl} {s : State}

/-- The set of a forecast asked for at `tRef` belongs to the epoch after a seal that is still to be built. -/
abbrev entersLater (s : State) (tRef : Nat) : Bool := match s.world.sealWanted with | some q => decide (q ≤ tRef) | none => false

theorem putFSet_eq (tRef : Nat) (fs : FSet) (s : State) : putFSet tRef fs s =
    if entersLater s tRef then { s with world := { s.world with fsetLater := some fs } }
    else { s with world := { s.world with fsetOpen := some fs } } := by
  unfold putFSet entersLater
  cases s.world.sealWanted with
  | none => rfl
  | some q => simp only [decide_eq_true_eq]

theorem exec_forecastSetWrite_none (hs : Live s) (h : finishedRun (atDt t s) .forecast = none) :
    exec (.forecastSetWrite t) s = .next (atDt t s) := by
  change execForecastSetWrite t s = _
  rw [execForecastSetWrite, runAt_live hs]
  simp only [h]

theorem exec_forecastSetWrite_unowed (hs : Live s) (h : finishedRun (atDt t s) .forecast = some (n, d))
    (ho : s.world.fcastOwed.find? (fun o => o.1 == n.frame) = none) :
    exec (.forecastSetWrite t) s = .next (dropRun n (atDt t s)) := by
  change execForecastSetWrite t s = _
  rw [execForecastSetWrite, runAt_live hs]
  have ho' : (dropRun n (atDt t s)).world.fcastOwed.find? (fun o => o.1 == n.frame) = none := ho
  simp only [h, ho']

/-- The forecast set that a finished run makes of its first output. -/
abbrev forecastSet (d : NetDecl) (n : NetRun) (fl : Flacon) (tRef step cnt hard : Nat) : FSet :=
  let o := d.outputs.headD { source := 0, fmt := 2, shape := [] }
  makeFSet { fl with ox := n.ox, oy := n.oy } hard tRef step (outputSlices o.fmt (min (o.shape.headD 1) cnt) (n.outs.headD []))

/-- The state without the run `n`, to whose frame no forecast set is owed any more. -/
abbrev forecastPaid (n : NetRun) (s : State) : State :=
  { dropRun n s with world := { s.world with fcastOwed := s.world.fcastOwed.filter (fun o => o.1 != n.frame) } }

theorem exec_forecastSetWrite_owed {k tRef step cnt hard : Nat} (hs : Live s) (h : finishedRun (atDt t s) .forecast = some (n, d))
    (ho : s.world.fcastOwed.find? (fun o => o.1 == n.frame) = some (k, tRef, step, cnt, hard)) :
    exec (.forecastSetWrite t) s = .next (putFSet tRef (forecastSet d n s.world.fl tRef step cnt hard) (forecastPaid n (atDt t s))) := by
  change execForecastSetWrite t s = _
  rw [execForecastSetWrite, runAt_live hs]
  have ho' : (dropRun n (atDt t s)).world.fcastOwed.find? (fun o => o.1 == n.frame) = some (k, tRef, step, cnt, hard) := ho
  simp only [h, ho']
  rfl

/-- A forecast set is overdue, and its source has not been raised since the last tick. -/
abbrev forecastLate (s : State) : Prop :=
  s.world.fcastOwed.any (fun o => decide (o.2.1 < s.frame.tickDt)) ∧ s.world.fcastLate ≠ s.frame.tickDt

theorem exec_networkOverrun (hs : Live s) : exec (.networkOverrun t) s = .next (
    if forecastLate s then raise 98 0 0 { atDt t s with world := { (atDt t s).world with fcastLate := (atDt t s).frame.tickDt } }
    else atDt t s) := by
  change execNetworkOverrun t s = _
  rw [execNetworkOverrun, runAt_live hs]
  rfl

theorem forecastLate_iff :
    forecastLate s ↔ (∃ o ∈ s.world.fcastOwed, o.2.1 < s.frame.tickDt) ∧ s.world.fcastLate ≠ s.frame.tickDt := by
  simp [forecastLate]

theorem not_forecastLate (h : (∀ o ∈ s.world.fcastOwed, s.frame.tickDt ≤ o.2.1) ∨ s.world.fcastLate = s.frame.tickDt) : ¬forecastLate s := by
  rw [forecastLate_iff]
  rintro ⟨⟨o, hmem, hlt⟩, hnew⟩
  obtain hnone | hdone := h
  · exact Nat.not_lt.2 (hnone o hmem) hlt
  · exact hnew hdone

end Forecast

/-! ## Proposals (06 R224, R225, 05 R186) -/

section Proposals

variable {t now : Nat} {f : Frame} {n : NetRun} {d : NetDecl} {w : Work} {r : FrWork} {c : PClass} {ps : List Traj} {o : Opt} {s : State}

theorem lt_deadline_iff : now < o.deadline.getD (now + 1) ↔ deadlinePassed o now = false := by
  unfold deadlinePassed
  cases o.deadline <;> simp

/-- A seed of the FRAME_RUN `w` that has not started and waits for a proposal at `now`. -/
abbrev awaitsServing (w : Work) (now : Nat) (o : Opt) : Prop :=
  o.wid = w.wid ∧ o.fromProposal ∧ !o.started ∧ o.stop.isNone ∧ now < o.deadline.getD (now + 1)

/-- A seed after the proposals `ps` have come: one that waits starts from its own. -/
def serveSeed (w : Work) (r : FrWork) (c : PClass) (ps : List Traj) (now : Nat) (o : Opt) : Opt :=
  if awaitsServing w now o then
    { o with start := proposalStart c r.meas.x0 ps[proposalNo r o.idx]?, cur := proposalStart c r.meas.x0 ps[proposalNo r o.idx]? }
  else o

theorem serveSeed_waiting (hw : o.wid = w.wid) (hp : o.fromProposal = true) (hst : o.started = false) (hrun : o.stop = none)
    (hdl : deadlinePassed o now = false) : serveSeed w r c ps now o =
      { o with start := proposalStart c r.meas.x0 ps[proposalNo r o.idx]?, cur := proposalStart c r.meas.x0 ps[proposalNo r o.idx]? } :=
  if_pos ⟨hw, hp, by rw [hst]; rfl, by rw [hrun]; rfl, lt_deadline_iff.2 hdl⟩

theorem serveSeed_other (h : o.wid ≠ w.wid ∨ o.fromProposal = false ∨ o.started = true ∨ o.stop.isSome = true ∨ deadlinePassed o now = true) :
    serveSeed w r c ps now o = o := by
  refine if_neg fun ⟨hw, hp, hst, hrun, hdl⟩ => ?_
  rw [lt_deadline_iff] at hdl
  rw [Bool.not_eq_true'] at hst
  rw [Option.isNone_iff_eq_none] at hrun
  simp [hw, hp, hst, hrun, hdl] at h

theorem exec_proposalReady_none (hs : Live s) (h : finishedRun (dropLate (atDt t s)) .proposal = none) :
    exec (.proposalReady t) s = .next (dropLate (atDt t s)) := by
  change execProposalReady t s = _
  rw [execProposalReady, runAt_live hs]
  simp only [h]
  split
  next hn _ => cases hn
  next => rfl

/-- The frame in progress with its proposals. -/
abbrev withProposals (ps : List Traj) (f : Frame) : Frame := { f with proposalState := 1, proposals := ps }

theorem exec_proposalReady_run (hs : Live s) (hf : s.frame.cur = some f) (hn : finishedRun (dropLate (atDt t s)) .proposal = some (n, d))
    (hw : frameWork s = some w) (hi : w.item = .frameRun r) (hc : classOf s r.optClass = some c) :
    exec (.proposalReady t) s = .next (
      if f.proposalState ≠ 0 ∨ n.frame ≠ f.number then dropLate (atDt t s)
      else dropRun n (withCur (withProposals (proposalsOf d c n) f)
        { dropLate (atDt t s) with opts := s.opts.map (serveSeed w r c (proposalsOf d c n) (atDt t s).dt) })) := by
  change execProposalReady t s = _
  have hf' : (dropLate (atDt t s)).frame.cur = some f := hf
  rw [execProposalReady, runAt_live hs]
  simp only [hf', hn, frameWork_dropLate, frameWork_atDt, hw, hi, classOf_dropLate, classOf_atDt, hc]
  rw [modFrame_some (f := f)]
  · rfl
  · exact hf

end Proposals

/-! ## The end of a TENSOR_RUN's run (06 R231, R237) -/

section Runs

variable {t wid run dt0 m : Nat} {w : Work} {tr : TrWork} {d : NetDecl} {n : NetRun} {s : State}

theorem exec_tensorRunEnd_absent (hs : Live s) (h : findWork s wid = none) : exec (.tensorRunEnd t wid run) s = .next (atDt t s) := by
  change execTensorRunEnd t wid run s = _
  rw [execTensorRunEnd, runAt_live hs]
  simp only [findWork_atDt, h]

/-- The TENSOR_RUN with the result of one of its runs. -/
abbrev withRunResult (tr : TrWork) (run : Nat) (q : RunRes) (frame : Nat) : TrWork :=
  { tr with running := tr.running.filter (fun y => y.1 != run), results := insertKey run q tr.results, lastFrame := frame }

theorem exec_tensorRunEnd_run (hs : Live s) (hw : findWork s wid = some w) (hi : w.item = .tensorRun tr) (hd : netOf s wid tr.net = some d)
    (hn : findRun s wid run tr.net = some n) (hr : lookupO run tr.running = some dt0) {tr' : TrWork}
    (htr : withRunResult tr run (runResOf d n dt0) s.frame.number = tr') :
    exec (.tensorRunEnd t wid run) s = .next (
      if !runFinal (atDt t s) n && n.mismatch.isNone then atDt t s
      else if tr'.results.length = tr.runCount then finishTensor w d tr' (setItem wid (.tensorRun tr') (dropRun n (atDt t s)))
      else setItem wid (.tensorRun tr') (dropRun n (atDt t s))) := by
  subst htr
  change execTensorRunEnd t wid run s = _
  rw [execTensorRunEnd, runAt_live hs]
  simp only [findWork_atDt, netOf_atDt, findRun_atDt, hw, hi, hd, hn, hr]
  rfl

theorem runResOf_finished (h : n.mismatch = none) : (runResOf d n dt0).status = 0 ∧ (runResOf d n dt0).mismatch = 0xFFFF ∧
    (runResOf d n dt0).sat = n.sat ∧ (runResOf d n dt0).range = n.range := by
  simp [runResOf, h, b2n]

theorem runResOf_mismatch (h : n.mismatch = some m) : (runResOf d n dt0).status = 1 ∧ (runResOf d n dt0).mismatch = m := by
  simp [runResOf, h, b2n]

end Runs

/-! ## The end of a SELECT's row (07 R260) -/

section Rows

variable {t wid row : Nat} {v : View} {w : Work} {sl : SlWork} {keys idx : Bytes} {s : State}

/-- Where the keys of a row stand in the host's memory. -/
abbrev rowKeyAddr (sl : SlWork) (row : Nat) : Nat := sl.keyAddr + row * sl.rowStride

/-- Where its explicit indices stand. -/
abbrev rowIdxAddr (sl : SlWork) (row : Nat) : Nat := sl.idxAddr + 4 * (row * sl.rowLen)

/-- What the host gives for the keys of a row. -/
abbrev rowKeys (v : View) (s : State) (sl : SlWork) (row : Nat) : Option Bytes :=
  hostRead v s (rowKeyAddr sl row) (sl.rowLen * (keyBits sl.keyType / 8))

/-- What it gives for the row's indices: nothing is read where they are not explicit. -/
abbrev rowIndices (v : View) (s : State) (sl : SlWork) (row : Nat) : Option Bytes :=
  if sl.explicitIdx then hostRead v s (rowIdxAddr sl row) (4 * sl.rowLen) else some []

/-- The SELECT with the result of one of its rows. -/
abbrev withRowResult (sl : SlWork) (row : Nat) (keys idx : Bytes) (frame : Nat) : SlWork :=
  { sl with running := sl.running.filter (fun r => r.1 != row), results := insertKey row (selectRow sl keys idx) sl.results, lastFrame := frame }

theorem exec_selectRowEnd_absent (hs : Live s) (h : findWork s wid = none) :
    exec (.selectRowEnd t wid row v) s = .next (applyView v (atDt t s)) := by
  change execSelectRowEnd t wid row v s = _
  rw [execSelectRowEnd, runAt_live hs]
  simp only [findWork_applyView, findWork_atDt, h]

/-- A running row ends with what its two reads give. -/
theorem exec_selectRowEnd_row (hs : Live s) (hw : findWork s wid = some w) (hi : w.item = .select sl) (hr : ∃ r ∈ sl.running, r.1 = row)
    {x : State} (hx : applyView v (atDt t s) = x) :
    exec (.selectRowEnd t wid row v) s = .next (match rowKeys v x sl row, rowIndices v x sl row with
      | some keys, some idx =>
        let sl' := withRowResult sl row keys idx x.frame.number
        let x' := setItem wid (.select sl') x
        if sl'.results.length = sl.rowCount then finishSelect w sl' x' else x'
      | none, _ => abortRead w (rowKeyAddr sl row) x
      | _, none => abortRead w (rowIdxAddr sl row) x) := by
  subst hx
  have hrun : ¬(!sl.running.any (fun r => r.1 == row)) = true := by simpa using hr
  change execSelectRowEnd t wid row v s = _
  rw [execSelectRowEnd, runAt_live hs]
  simp only [findWork_applyView, findWork_atDt, hw, hi]
  exact congrArg _ (if_neg hrun)

theorem exec_selectRowEnd_noKeys (hs : Live s) (hw : findWork s wid = some w) (hi : w.item = .select sl) (hr : ∃ r ∈ sl.running, r.1 = row)
    {x : State} (hx : applyView v (atDt t s) = x) (hk : rowKeys v x sl row = none) :
    exec (.selectRowEnd t wid row v) s = .next (abortRead w (rowKeyAddr sl row) x) := by
  rw [exec_selectRowEnd_row hs hw hi hr hx, hk]

theorem exec_selectRowEnd_noIndices (hs : Live s) (hw : findWork s wid = some w) (hi : w.item = .select sl) (hr : ∃ r ∈ sl.running, r.1 = row)
    {x : State} (hx : applyView v (atDt t s) = x) (hk : rowKeys v x sl row ≠ none) (hidx : rowIndices v x sl row = none) :
    exec (.selectRowEnd t wid row v) s = .next (abortRead w (rowIdxAddr sl row) x) := by
  obtain ⟨keys, hkeys⟩ := Option.ne_none_iff_exists'.1 hk
  rw [exec_selectRowEnd_row hs hw hi hr hx, hkeys, hidx]

theorem exec_selectRowEnd_read (hs : Live s) (hw : findWork s wid = some w) (hi : w.item = .select sl) (hr : ∃ r ∈ sl.running, r.1 = row)
    {x : State} (hx : applyView v (atDt t s) = x) (hk : rowKeys v x sl row = some keys) (hidx : rowIndices v x sl row = some idx)
    {sl' : SlWork} (hsl : withRowResult sl row keys idx s.frame.number = sl') :
    exec (.selectRowEnd t wid row v) s = .next (
      if sl'.results.length = sl.rowCount then finishSelect w sl' (setItem wid (.select sl') x) else setItem wid (.select sl') x) := by
  have hframe : x.frame.number = s.frame.number := by rw [← hx, applyView_frame, atDt_frame]
  subst hsl
  rw [exec_selectRowEnd_row hs hw hi hr hx, hk, hidx, hframe]

end Rows

/-- Settles O59: an equation for each case of each command, and one for each case of the comparator. -/
theorem networksAndRows : Obligations.NetworksAndRows := by
  unfold Obligations.NetworksAndRows
  intro t wid run net layer upset copyB v s hs u x y
  refine ⟨exec_layerDigestCompare_absent hs, fun d n hd hn => ?digest, fun d k n => ?compare, exec_forecastSetWrite_none hs,
    fun n d hn => ⟨fun ho => ?unowed, fun k tRef step cnt hard ho => ?forecast⟩, fun hlate hnew => ?late, fun hearly => ?early,
    exec_proposalReady_none hs, fun f n d w r c hf hn hw hi hc => ?proposals,
    fun h => ⟨exec_tensorRunEnd_absent hs h, exec_selectRowEnd_absent hs h⟩, fun w tr d n dt0 hw hi hd hn hr => ?run,
    fun d n dt0 => ⟨rfl, runResOf_finished, fun m => runResOf_mismatch⟩, fun w sl hw hi hr => ?row⟩
  case digest =>
    intro h
    refine ⟨fun hclosed => exec_layerDigestCompare_closed hs hd hn (takesNoDigest_eq_true_iff.2 hclosed), fun hm hf hc => ?_⟩
    have hopen := takesNoDigest_eq_false hm hf hc
    exact ⟨fun hg => by rw [exec_layerDigestCompare_open hs hd hn hopen, hg],
      fun g hg => by rw [exec_layerDigestCompare_open hs hd hn hopen, hg]⟩
  case compare =>
    refine ⟨compareLayers_waits, fun a b ha hdual hb hne => ?_, fun a ha hb => ?_⟩
    · intro m z
      rw [compareLayers_differs ha hdual hb hne (m := m) (z := z) rfl rfl]
      exact ⟨fun hw => if_neg hw, fun hw => if_pos hw⟩
    · rw [compareLayers_agrees ha hb]
      exact ⟨fun hlast => if_pos hlast, fun hmore => if_neg hmore⟩
  case unowed =>
    exact exec_forecastSetWrite_unowed hs hn (List.find?_eq_none.2 fun o hmem => by simpa using ho o hmem)
  case forecast =>
    intro o fs later
    refine ⟨_, exec_forecastSetWrite_owed hs hn ho, ?_⟩
    rw [putFSet_eq]
    have hlater : entersLater (forecastPaid n u) tRef = later := rfl
    rw [hlater]
    cases later with
    | false => exact ⟨rfl, fun _ => ⟨rfl, rfl⟩, nofun, fun m hm => mem_netRuns_dropRun.1 hm, rfl, rfl, rfl, rfl, rfl⟩
    | true => exact ⟨rfl, nofun, fun _ => ⟨rfl, rfl⟩, fun m hm => mem_netRuns_dropRun.1 hm, rfl, rfl, rfl, rfl, rfl⟩
  case late => rw [exec_networkOverrun hs, if_pos (forecastLate_iff.2 ⟨hlate, hnew⟩)]
  case early => rw [exec_networkOverrun hs, if_neg (not_forecastLate hearly)]
  case proposals =>
    rw [exec_proposalReady_run hs hf hn hw hi hc]
    refine ⟨fun hidle => by rw [if_pos hidle], fun hst hnum => ?_⟩
    rw [if_neg (by simp [hst, hnum])]
    have hseed (i : Nat) (hi : i < s.opts.length) :
        (s.opts.map (serveSeed w r c (proposalsOf d c n) u.dt))[i]? = some (serveSeed w r c (proposalsOf d c n) u.dt s.opts[i]) := by
      rw [List.getElem?_map, List.getElem?_eq_getElem hi, Option.map_some]
    refine ⟨_, rfl, List.length_map _, ⟨_, rfl, rfl, rfl, rfl⟩, fun i hi hother => ?_, fun i hi hw hp hst hrun hdl => ?_, rfl, rfl⟩
    · exact (hseed i hi).trans (congrArg some (serveSeed_other hother))
    · exact (hseed i hi).trans (congrArg some (serveSeed_waiting hw hp hst hrun hdl))
  case run =>
    intro tr' u'
    rw [exec_tensorRunEnd_run hs hw hi hd hn hr (tr' := tr') rfl]
    refine ⟨fun hf hm => by rw [if_pos (by simp [u, hf, hm])], fun hended => ?_⟩
    rw [if_neg (by obtain h | h := hended <;> simp [u, h])]
    exact ⟨fun hmore => by rw [if_neg hmore], fun hlast => by rw [if_pos hlast]⟩
  case row =>
    intro ka kb ib
    have hw' : findWork s wid = some w := by simpa [x, u] using hw
    refine ⟨exec_selectRowEnd_noKeys hs hw' hi hr rfl, exec_selectRowEnd_noIndices hs hw' hi hr rfl, fun keys idx hk hidx => ?_⟩
    intro sl' x'
    rw [exec_selectRowEnd_read hs hw' hi hr (x := x) rfl hk hidx (sl' := sl') rfl]
    exact ⟨fun hmore => by rw [if_neg hmore], fun hlast => by rw [if_pos hlast]⟩

end Sys2Proof.Machine
end

section
/-! SUPPORT. The states of the Net block and its firing events (08 R279 to R282), and the statements about SAFE_STOP over every step (O4) and about
a firing event (O36). -/

namespace Sys2Proof.Machine

/-! ## SAFE_STOP over every step -/

/-- Settles O4: the queue is no part of the Net block, and every command keeps SAFE_STOP asserted outside ARMED. -/
theorem safeStopKeptByStep : Obligations.SafeStopKeptByStep := by
  unfold Obligations.SafeStopKeptByStep
  intro s u hpads h
  obtain ⟨rest, hk⟩ := step_keeps h
  exact hk.pads hpads

/-! ## A firing event -/

section FiringEvent

variable {src : Nat} {n : NetRec} {s : State}

/-- The Net block once `n` has fired (08 R280, R282). -/
def firedNet (src : Nat) (n : NetRec) (s : State) : Net :=
  { s.net with state := 2, padA := true, padB := true, firing := some { net := n, tf := s.dt, stopNs := 1000 * n.stopTimeUs },
               lastSource := src, refire := 0, fireDt := s.dt }

/-- A firing changes the Net block, and of the rest only that the frame in progress records it. -/
theorem fireWith_eq : fireWith src n s =
    { s with net := firedNet src n s, frame := (modFrame (fun f => { f with netFired := true }) s).frame } := by
  unfold fireWith modFrame assertSafeStop firedNet
  dsimp only
  cases s.frame.cur <;> rfl

theorem fireNet_armed (h : s.net.state = 1) (hn : netInForce s s.dt = some n) : fireNet src s = fireWith src n s := by
  rw [fireNet, if_pos h, hn]

theorem fireNet_fired (h : s.net.state = 2 ∨ s.net.state = 3) :
    fireNet src s = { s with net := { s.net with refire := min (s.net.refire + 1) 65535 } } := by
  rw [fireNet, if_neg (by omega), if_neg (by omega)]

theorem fireNet_noNet (h : s.net.state = 0) : fireNet src s = s := by
  rw [fireNet, if_neg (by omega), if_pos h]

end FiringEvent

/-! ## The states of the Net block -/

section NetStates

variable {t : Nat} {n : NetRec} {f : Firing} {s : State}

theorem armNet_of_inForce (h : s.net.state = 0) (hn : (netInForce s s.dt).isSome = true) :
    armNet s = { s with net := { s.net with state := 1, padA := false, padB := false } } :=
  if_pos ⟨h, hn⟩

theorem armNet_of_not (h : s.net.state ≠ 0 ∨ netInForce s s.dt = none) : armNet s = s := by
  refine if_neg fun ⟨h0, hn⟩ => ?_
  obtain h | h := h
  · exact h h0
  · simp [h] at hn

theorem exec_netComesIntoForce_live (hs : Live s) : exec (.netComesIntoForce t) s = .next (armNet (atDt t s)) := runAt_live hs t _

theorem exec_netExpiry_expired (hs : Live s) (h : s.net.state = 1) (hn : netInForce s (atDt t s).dt = none)
    (hl : lastExpired (atDt t s) = some n) : exec (.netExpiry t) s = .next (fireWith 7 n (atDt t s)) := by
  refine (runAt_live hs t _).trans ?_
  rw [if_pos ⟨h, Option.isNone_iff_eq_none.2 hn⟩, hl]

theorem exec_netExpiry_ignored (hs : Live s) (h : s.net.state ≠ 1 ∨ (netInForce s (atDt t s).dt).isSome = true) :
    exec (.netExpiry t) s = .next (atDt t s) := by
  refine (runAt_live hs t _).trans (congrArg _ (if_neg fun ⟨h1, hn⟩ => ?_))
  obtain h | h := h
  · exact h h1
  · exact absurd (Option.isNone_iff_eq_none.1 hn) (Option.isSome_iff_ne_none.1 h)

theorem exec_netStandstill_firing (hs : Live s) (hf : s.net.firing = some f) : exec (.netStandstill t) s = .next (
    if s.net.state = 2 ∧ f.tf + f.stopNs ≤ (atDt t s).dt then { atDt t s with net := { s.net with state := 3 } } else atDt t s) := by
  change execNetStandstill t s = _
  rw [execNetStandstill, runAt_live hs, atDt_net, hf]

end NetStates

/-- Settles O36: a firing event by the state of the block, then each change of state under its condition. -/
theorem netFiring : Obligations.NetFiring := by
  unfold Obligations.NetFiring
  refine ⟨fun src s => ⟨fun n h hn => ?armed, fireNet_fired, fireNet_noNet⟩, fun t s hs => ?states⟩
  case armed =>
    rw [fireNet_armed h hn, fireWith_eq]
    exact ⟨_, rfl, rfl, rfl, rfl, rfl, rfl, rfl, rfl, rfl, rfl, fun f hf => by rw [modFrame_some hf], rfl, rfl, rfl, rfl, rfl⟩
  case states =>
    intro u
    refine ⟨fun h hn => ?arms, fun h => ?idle, fun n => exec_netExpiry_expired hs, exec_netExpiry_ignored hs, fun f hf h hT => ?stands,
      fun f hf h => ?moving⟩
    case arms => rw [exec_netComesIntoForce_live hs, armNet_of_inForce (s := u) h hn]
    case idle => rw [exec_netComesIntoForce_live hs, armNet_of_not (s := u) h]
    case stands => rw [exec_netStandstill_firing hs hf, if_pos ⟨h, hT⟩]; rfl
    case moving => rw [exec_netStandstill_firing hs hf, if_neg (by change _ ∨ (atDt t s).dt < _ at h; omega)]

end Sys2Proof.Machine
end

section
/-! SUPPORT. What brings a firing event from outside, the host's and the drives' heartbeats, the drive requests, and what supervises the outputs (08
R280, R283 to R285), and the statement about them (O37). -/

namespace Sys2Proof.Machine

variable {t ch : Nat} {a b : Bool} {s : State}

/-! ## The host's heartbeat -/

theorem exec_hostHeartbeatTimeout_live (hs : Live s) : exec (.hostHeartbeatTimeout t) s = .next (
    if s.net.hbArmed && decide (s.net.hbStart + 1000 * (netCfg s).hostHbUs ≤ (atDt t s).dt) then
      fireNet 3 (raise 38 0 0 { atDt t s with net := { s.net with hbArmed := false } })
    else atDt t s) := runAt_live hs t _

/-! ## The drives' heartbeats -/

theorem hbHeld_eq_true (h : ∀ e, (chanOf s ch).hbRaw = some e → e + 200 ≤ s.dt) : hbHeld s ch = true := by
  unfold hbHeld
  cases hr : (chanOf s ch).hbRaw with
  | none => rfl
  | some e => simpa using h e hr

theorem hbHeld_eq_false {e : Nat} (hr : (chanOf s ch).hbRaw = some e) (h : s.dt < e + 200) : hbHeld s ch = false := by
  simp [hbHeld, hr, h]

theorem exec_driveHeartbeatEdge_live (hs : Live s) (hch : ch < 2) : exec (.driveHeartbeatEdge t ch) s = .next (
    let x := { chanOf s ch with hbRaw := some (atDt t s).dt }
    setChan ch (if hbHeld (atDt t s) ch then { x with hbLast := (atDt t s).dt, hbLapsed := false } else x) (atDt t s)) :=
  (runAt_live hs t _).trans (congrArg _ (if_pos hch))

/-- A drive's timer has run out, and its lapse has not been reported (08 R285). -/
def drvLapsed (s : State) (ch : Nat) : Bool :=
  ch < 2 && chanOn s ch && (netCfg s).drvHbUs != 0 && s.net.cfg.isSome && !(chanOf s ch).hbLapsed &&
    decide ((chanOf s ch).hbLast + 1000 * (netCfg s).drvHbUs ≤ s.dt)

theorem drvLapsed_iff : drvLapsed s ch = true ↔ ch < 2 ∧ chanOn s ch = true ∧ (netCfg s).drvHbUs ≠ 0 ∧ s.net.cfg.isSome = true ∧
    (chanOf s ch).hbLapsed = false ∧ (chanOf s ch).hbLast + 1000 * (netCfg s).drvHbUs ≤ s.dt := by
  simp [drvLapsed, and_assoc]

theorem exec_driveHeartbeatTimeout_live (hs : Live s) : exec (.driveHeartbeatTimeout t ch) s = .next (
    if drvLapsed (atDt t s) ch then raise (39 + ch) 0 0 (setChan ch { chanOf s ch with hbLapsed := true } (atDt t s)) else atDt t s) := by
  change execDriveHeartbeatTimeout t ch s = _
  rw [execDriveHeartbeatTimeout, runAt_live hs]; rfl

/-! ## The drive requests -/

/-- The levels of the filtered requests as sampled (08 R280). -/
abbrev withRequests (a b : Bool) (s : State) : State :=
  { s with net := { s.net with chA := { s.net.chA with req := a }, chB := { s.net.chB with req := b } } }

theorem exec_driveRequest_live (hs : Live s) : exec (.driveRequest t a b) s = .next (
    if a && !s.net.chA.req then fireNet 4 (withRequests a b (atDt t s))
    else if b && !s.net.chB.req then fireNet 5 (withRequests a b (atDt t s)) else withRequests a b (atDt t s)) := by
  change execDriveRequest t a b s = _
  rw [execDriveRequest, runAt_live hs]; rfl

/-- A request rises: it is high and was low. -/
theorem rises_eq_true {x y : Bool} (hx : x = true) (hy : y = false) : (x && !y) = true := by rw [hx, hy]; rfl

theorem rises_eq_false {x y : Bool} (h : x = false ∨ y = true) : (x && !y) = false := by
  obtain rfl | rfl := h
  · rfl
  · exact Bool.and_false x

/-! ## The outputs -/

theorem exec_safeStopMismatch_live {level : Bool} (hs : Live s) (hch : ch < 2) : exec (.safeStopMismatch t ch level) s = .next (
    if level = padOf s ch then setChan ch { chanOf s ch with pad := none } (atDt t s)
    else raise (36 + ch) 0 0 (setChan ch { chanOf s ch with pad := some level } (atDt t s))) := by
  change execSafeStopMismatch t ch level s = _
  rw [execSafeStopMismatch, runAt_live hs, if_neg (Nat.not_le_of_lt hch)]; rfl

theorem exec_streamerMismatch_live (hs : Live s) : exec (.streamerMismatch t) s =
    .next (raise 35 0 0 { atDt t s with net := { s.net with padA := true, padB := true, streamerStopped := true } }) := by
  change execStreamerMismatch t s = _
  rw [execStreamerMismatch, runAt_live hs]; rfl

/-- Settles O37: each timer, request and read-back under its condition and without it. -/
theorem heartbeatsAndRequests : Obligations.HeartbeatsAndRequests := by
  unfold Obligations.HeartbeatsAndRequests
  intro t a b s hs u due w
  refine ⟨fun harm hdue => ?host, fun h => ?hostIdle, fun ch hch hheld => ?edge, fun ch hch e hr he => ?glitch,
    fun ch hch hon hus hcfg hnew hdue => ?drive, fun ch h => ?driveIdle, fun ha hra => ?requestA, fun ha hb hrb => ?requestB,
    fun ha hb => ?noRequest, fun ch hch => ?padOff, fun ch hch => ?padBack, exec_streamerMismatch_live hs⟩
  case host => rw [exec_hostHeartbeatTimeout_live hs, harm, decide_eq_true hdue]; rfl
  case hostIdle =>
    rw [exec_hostHeartbeatTimeout_live hs, Bool.and_eq_false_iff.2 (h.imp_right decide_eq_false), if_neg Bool.false_ne_true]
  case edge => rw [exec_driveHeartbeatEdge_live hs hch, hbHeld_eq_true hheld]; rfl
  case glitch => rw [exec_driveHeartbeatEdge_live hs hch, hbHeld_eq_false (s := atDt t s) hr he]; rfl
  case drive => rw [exec_driveHeartbeatTimeout_live hs, if_pos ((drvLapsed_iff (s := u)).2 ⟨hch, hon, hus, hcfg, hnew, hdue⟩)]
  case driveIdle =>
    rw [exec_driveHeartbeatTimeout_live hs, if_neg]
    rw [drvLapsed_iff]
    rintro ⟨-, hon, hus, -, hnew, hdue⟩
    obtain hoff | hzero | hold | hearly := h
    · exact absurd (hoff.symm.trans hon) nofun
    · exact hus hzero
    · exact absurd (hnew.symm.trans hold) nofun
    · exact Nat.not_le_of_lt hearly hdue
  case requestA => rw [exec_driveRequest_live hs, if_pos (rises_eq_true ha hra)]; rfl
  case requestB => rw [exec_driveRequest_live hs, rises_eq_false ha, if_neg nofun, if_pos (rises_eq_true hb hrb)]; rfl
  case noRequest => rw [exec_driveRequest_live hs, rises_eq_false ha, rises_eq_false hb]; rfl
  case padOff => rw [exec_safeStopMismatch_live hs hch, if_neg (Bool.not_eq_self _).1]
  case padBack => rw [exec_safeStopMismatch_live hs hch, if_pos rfl]

end Sys2Proof.Machine
end

section
/-! SUPPORT. NET_CONTROL: the row of an `op`, and what each of the four does when its descriptor is accepted (08 R284, R286, R291 to R293), and
the statement about them (O38). -/

namespace Sys2Proof.Machine

variable {d : Taken} {v : View} {s : State}

/-- The checks that every NET_CONTROL passes (09 R304, R323). -/
abbrev netRule : KindRule := { code := 0x0B, control := true, anyStack := true }

theorem netControl_own {op : Nat} (ha : Admits netRule d s) (hop : fld d 0x20 1 = op) (h3 : op ≤ 3) (k : State → State) :
    netControl d v op s k = .next (k (accepted d v s)) := by
  rw [netControl, if_neg (fun h => h.2.1 hop), acceptDesc_next ha, if_neg (by omega)]

/-- An unknown `op` fails as CONFIGURE's row. -/
theorem netControl_unknown (ha : Admits netRule d s) (hop : 3 < fld d 0x20 1) (k : State → State) :
    netControl d v 0 s k = .next (refuse d (badField 0x20) (accepted d v s)) := by
  rw [netControl, if_neg (fun h => h.2.2 ⟨rfl, hop⟩), acceptDesc_next ha, if_pos hop]

theorem flagIf_state_changed (x y : Nat) : flagIf (x != y) 7 = if x = y then 0 else 128 := by
  by_cases h : x = y <;> simp [flagIf, h]

theorem exec_fire_accepted (ha : Admits netRule d s) (hop : fld d 0x20 1 = 1) : exec (.fire d v) s = .next (
    netDone d (if (accepted d v s).net.state = (fireNet 1 (accepted d v s)).net.state then 0 else 128) (fireNet 1 (accepted d v s))) := by
  refine (netControl_own ha hop (by omega) _).trans ?_
  dsimp only
  rw [flagIf_state_changed]

theorem exec_heartbeat_accepted (ha : Admits netRule d s) (hop : fld d 0x20 1 = 3) :
    exec (.heartbeat d v) s = .next (netDone d 0 (hostHeartbeat d.dt (accepted d v s))) :=
  netControl_own ha hop (by omega) _

theorem exec_release_accepted (ha : Admits netRule d s) (hop : fld d 0x20 1 = 2) : exec (.release d v) s = .next (
    if s.net.state ≠ 3 ∨ s.net.chA.req = true ∨ s.net.chB.req = true then refuse d (badField 0x20) (accepted d v s)
    else netDone d 0 { accepted d v s with net := { (accepted d v s).net with
      state := 0, newest := none, previous := none, firing := none, recertTodo := [] } }) := by
  refine (netControl_own ha hop (by omega) _).trans ?_
  rw [accepted_net]

theorem exec_configure_accepted (ha : Admits netRule d s) (hop : fld d 0x20 1 = 0) : exec (.configure d v) s = .next (
    withChecks d (cfgChecks (accepted d v s) d) (accepted d v s) fun s => addWork (mkWork d 0 (.configure (cfgOf d)) s) s) :=
  netControl_own ha hop (by omega) _

/-! ## CONFIGURE at its tick -/

section ConfigureTick

variable {tick : Nat} {c : NetCfg} {w : Work}

theorem configTick_early (h : tick < w.accept + 20000) : configTick tick c w s = s := if_neg (Nat.not_le_of_lt h)

theorem finishWork_net (w : Work) (status flags aux0 aux1 : Nat) (frame : Option Nat) (s : State) :
    (finishWork w status flags aux0 aux1 frame s).net = s.net := by
  obtain ⟨m, q, p, k, e⟩ := finishWork_only w status flags aux0 aux1 frame s
  rw [e]

theorem configTick_net (h : w.accept + 20000 ≤ tick) : ∃ a b r, (configTick tick c w s).net = { s.net with
    cfg := some c, hbStart := tick, hbArmed := decide (c.hostHbUs ≠ 0), vHeld := none, vRaised := r, chA := a, chB := b } := by
  rw [configTick, if_pos h, finishWork_net]
  exact ⟨_, _, _, rfl⟩

end ConfigureTick

/-- Settles O38: each `op` of an accepted descriptor, then a CONFIGURE at its tick (`netControl` is a function of the model). -/
theorem netControlOps : Obligations.NetControl := by
  unfold Obligations.NetControl
  intro d v s ha a
  refine ⟨exec_fire_accepted ha, exec_heartbeat_accepted ha, fun hop hst hA hB => ?release, fun hop h => ?refused, fun hop hck => ?configure,
    fun hop f hck => ?bad, fun hop => netControl_unknown ha hop _, fun tick w => configTick_early, fun tick w h => ?tick⟩
  case release => rw [exec_release_accepted ha hop, if_neg (by simp [hst, hA, hB])]
  case refused => rw [exec_release_accepted ha hop, if_pos h]
  case configure => rw [exec_configure_accepted ha hop, withChecks_pass hck]
  case bad => rw [exec_configure_accepted ha hop, withChecks_fail hck]
  case tick =>
    obtain ⟨x, y, r, e⟩ := configTick_net (c := cfgOf d) (s := s) h
    rw [e]
    exact ⟨rfl, rfl, rfl, rfl, rfl⟩

end Sys2Proof.Machine
end

section
/-! SUPPORT. The Net port: one transaction of a channel, the frames of a DT and the replies (08 R282, R287 to R289), and the statement about
them (O41). -/

namespace Sys2Proof.Machine

variable {t c : Nat} {reply ra rb : Bytes} {x : Chan} {s : State}

/-! ## One transaction -/

/-- A channel after the frame of this DT: it has gone out if the channel takes part, and a good reply has been logged (08 R288, R289). -/
def servedChan (s : State) (c : Nat) (reply : Bytes) (x : Chan) : Chan :=
  if sends s c = true then
    { x with seq := (x.seq + 1) % 65536, sent := true, lastSent := s.dt, out := x.out ++ [deviceFrame s c],
             drvState := if replyOk x reply = true then fieldN reply 2 1 else x.drvState,
             drvStatus := if replyOk x reply = true then fieldN reply 4 4 else x.drvStatus }
  else x

theorem setChan_chanOf (c : Nat) (s : State) : setChan c (chanOf s c) s = s := by
  unfold setChan chanOf
  split <;> rfl

theorem transact_eq (c : Nat) (reply : Bytes) (s : State) : transact c reply s = setChan c (servedChan s c reply (chanOf s c)) s := by
  unfold transact servedChan
  cases hs : sends s c with
  | false => exact (setChan_chanOf c s).symm
  | true => rfl

theorem setChan_zero (x : Chan) (s : State) : setChan 0 x s = { s with net := { s.net with chA := x } } := rfl

/-- What channel B sends does not depend on channel A. -/
theorem servedChan_one_setChan_zero (x y : Chan) (s : State) : servedChan (setChan 0 x s) 1 reply y = servedChan s 1 reply y := by
  rw [setChan_zero]; rfl

/-- Both channels after the frames of this DT. -/
def servedBoth (ra rb : Bytes) (s : State) : State :=
  { s with net := { s.net with chA := servedChan s 0 ra s.net.chA, chB := servedChan s 1 rb s.net.chB } }

theorem transact_both (ra rb : Bytes) (s : State) : transact 1 rb (transact 0 ra s) = servedBoth ra rb s := by
  rw [transact_eq 0, transact_eq 1, servedChan_one_setChan_zero]
  rfl

/-! ## The frames of a DT -/

theorem exec_setpointFrame_undue (hs : Live s) (h : frameDue (atDt t s) = false) : exec (.setpointFrame t ra rb) s = .next (atDt t s) := by
  change execSetpointFrame t ra rb s = _
  rw [execSetpointFrame, runAt_live hs, h]
  rfl

/-- Source `i` after a reply that was judged (08 R289). -/
def judged (i : Nat) (bad : Bool) (s : State) : State := if bad then raise i 0 0 s else s

/-- Both frames go out before either reply is judged. -/
theorem exec_setpointFrame_due (hs : Live s) (h : frameDue (atDt t s) = true) : exec (.setpointFrame t ra rb) s = .next (
    judged 42 (replyBad 1 rb (atDt t s)) (judged 41 (replyBad 0 ra (atDt t s))
      (bumpFresh (markFirst (servedBoth ra rb (atDt t s)))))) := by
  change execSetpointFrame t ra rb s = _
  rw [execSetpointFrame, runAt_live hs, if_neg (by simp [h]), ← transact_both, judged, judged]

/-- Settles O41: no frame is due, or one is; then by the two replies. -/
theorem setpointFrames : Obligations.SetpointFrames := by
  unfold Obligations.SetpointFrames
  intro t ra rb s hs u served w
  refine ⟨exec_setpointFrame_undue hs, fun hd ha hb => ?good, fun hd ha hb => ?badA, fun hd ha hb => ?badB, fun hd ha hb => ?badBoth⟩
  all_goals
    rw [exec_setpointFrame_due hs hd, ha, hb]
    rfl

end Sys2Proof.Machine
end

section
/-! SUPPORT. Banking a certified Net while a late hazard takes effect (03 R116, 08 R272, 02 R62), and the refutation of the statement about
certification and banking (O39). -/

namespace Sys2Proof.Machine

/-! ## A frame with its own hazards, and a late add whose slot boundary has come -/

/-- A hazard that was added late, at the origin. -/
def lateHazard : Haz := { id := 1, cx := 0, cy := 0, cz := 0, r := 65536, expire := 0, ord := 256 }

/-- A certified Net whose cover lies 100 m away, tested against the frame's list of hazards while it was empty. -/
def clearNet : NetRec :=
  { netId := 1, p0 := 0, e := 20000000, certFrame := 1, stopTimeUs := 400000, stopMargin := 320, stepUs := 2000, nSamples := 1, clearance := 0,
    epoch := 1, ax := 0, ay := 0, az := 0, yaw := 0, dk := 1, nx := 1, nu := 1, slot := 0, pert := 0, traj := [], knots := [],
    boxes := [[6553600, 6553600, 6553600, 6619136, 6619136, 6619136]], hazTested := [] }

/-- A FRAME_RUN frame that a skipped tick has given its own list of hazards (02 R62), with a certified Net to bank. -/
def ownHazardsFrame : Frame :=
  { number := 1, tickDt := 0, kind := .run, periodUs := 1000, fr := some 1, slots := 400, retired := true, mergeDone := true,
    haz := some [], cert := some clearNet, certDone := true }

/-- That frame in progress, while a committed late add waits for its slot boundary. -/
def lateAddState : State :=
  { State.reset with
    frame := { State.reset.frame with cur := some ownHazardsFrame }
    world := { State.reset.world with
      hazChanges := [{ wid := 1, op := 1, haz := lateHazard, accept := 0, late := true, commit := 0, committed := true }] } }

/-- NET_BANK banks the Net, and the late add enters the frame's own list before that (03 R116). -/
theorem exec_netBank_lateAddState : ∃ v, exec (.netBank 2000) lateAddState = .next v ∧
    v.frame.cur.bind Frame.haz = some [{ lateHazard with lateFrame := some 1 }] :=
  ⟨_, rfl, by decide +kernel⟩

/-- Refutes O39: the clause on a banked Net fixes every field of the frame but `netResult` and `cert`, yet NET_BANK first lets the late adds take
effect whose slot boundary has come, and these enter the frame's own list of hazards where a skipped tick has given it one. -/
theorem not_certificationAndBanking : ¬ Obligations.CertificationAndBanking := by
  unfold Obligations.CertificationAndBanking
  intro h
  obtain ⟨-, hbank, -, -⟩ := h 2000 0 ownHazardsFrame lateAddState ⟨rfl, rfl⟩ rfl rfl
  obtain ⟨-, -, -, hpasses⟩ := hbank clearNet rfl
  obtain ⟨v, hv, -, -, hcur, -⟩ := hpasses (by decide +kernel) (by decide) (by decide +kernel)
  obtain ⟨u, hu, hhaz⟩ := exec_netBank_lateAddState
  obtain rfl : v = u := by rw [hv] at hu; exact Host.Outcome.next.inj hu
  rw [hcur] at hhaz
  exact absurd hhaz (by decide)

end Sys2Proof.Machine
end

section
/-! SUPPORT. Recertification of the banked Nets, in a frame and at once after a late hazard (08 R276, R278), and the statement about it (O40). -/

namespace Sys2Proof.Machine

/-! ## The bank -/

section Bank

variable {n : NetRec} {s : State}

@[simp] theorem settleForce_banked (s : State) : banked (settleForce s) = banked s := by
  unfold settleForce
  split <;> rfl

theorem strikeNet_inForce (h : (netInForce s s.dt).any (fun x => x.netId == n.netId) = true) : strikeNet n s = fireNet 8 s := if_pos h

/-- A refused Net that is not in force leaves its slot, and only it (08 R276, R278). -/
theorem banked_strikeNet (h : (netInForce s s.dt).any (fun x => x.netId == n.netId) = false) :
    banked (strikeNet n s) = (banked s).filter (fun m => m.netId != n.netId) := by
  rw [strikeNet, if_neg (by simp [h]), settleForce_banked]
  simp only [banked, List.filter_append, Option.toList_filter]

end Bank

/-! ## In a frame -/

section InFrame

variable {t upset e : Nat} {f : Frame} {n : NetRec} {r : CertRes} {s : State}

theorem recertify_golden (hg : f.goldenResult = 1) : recertify upset f s n = s := by
  simp [recertify, hg]

/-- No validity end, a suspect supply or a lost unit: the recertification fails before any query. -/
theorem recertify_impossible (hg : f.goldenResult ≠ 1)
    (h : suspectNow s = true ∨ f.certFail = true ∨ validityEnd s n f.tickDt = none) : recertify upset f s n = raise 32 0 0 s := by
  have hnone : (if (suspectNow s || f.certFail || f.goldenResult == 1) = true then none else validityEnd s n f.tickDt) = none := by
    obtain h | h | h := h <;> simp [h]
  rw [recertify, hnone]
  exact if_neg hg

theorem recertify_evaluated (hg : f.goldenResult ≠ 1) (hsup : suspectNow s = false) (hunit : f.certFail = false)
    (he : validityEnd s n f.tickDt = some e) (hr : certEval n e (frameHaz s) s = some r) : recertify upset f s n =
      if r.ok && copiesOk s upset r then logNet (withCert s f.number e r n) 1 (replaceNet (withCert s f.number e r n) s)
      else if (netCfg (raise 32 0 0 s)).strict && r.hit then strikeNet n (raise 32 0 0 s) else raise 32 0 0 s := by
  have hsome : (if (suspectNow s || f.certFail || f.goldenResult == 1) = true then none else validityEnd s n f.tickDt) = some e := by
    simp [hsup, hunit, hg, he]
  rw [recertify, hsome, Option.bind_some, hr]

theorem exec_netRecertification_due (hs : Live s) (hf : s.frame.cur = some f)
    (hdue : (f.published || f.recertDone || !f.mergeDone || !frameEmpty f || (f.fr.isSome && !f.certDone) || netBusy s f) = false) :
    exec (.netRecertification t upset) s = .next (
      ((banked (applyLate (modFrame (fun g => { g with recertDone := true }) (atDt t s)))).filter fun n =>
        decide (nextTick (applyLate (modFrame (fun g => { g with recertDone := true }) (atDt t s))) < n.e)).foldl (recertify upset f)
          (applyLate (modFrame (fun g => { g with recertDone := true }) (atDt t s)))) := by
  change execNetRecertification t upset s = _
  rw [execNetRecertification, runAt_live hs, atDt_frame, hf]
  exact congrArg _ (if_neg (Bool.eq_false_iff.1 hdue))

end InFrame

/-! ## At once -/

section AtOnce

variable {t upset i : Nat} {rest : List Nat} {n : NetRec} {r : CertRes} {s : State}

/-- Every hazard in effect, the late ones that are committed among them (08 R278). -/
def hazardsInEffect (s : State) : List Haz :=
  s.world.hazards ++ (s.world.hazChanges.filter fun c => c.late && c.committed).map (fun c => c.haz)

/-- What the recertification of the banked Net `n` at once does (08 R278). -/
def recertifyBanked (upset : Nat) (n : NetRec) (s : State) : State :=
  match if certUnitLost s then none else certEval n n.e (hazardsInEffect s) s with
  | some r =>
    if r.ok && copiesOk s upset r then
      logNet (withCert s s.frame.number n.e r n) 1 (replaceNet (withCert s s.frame.number n.e r n) s)
    else strikeNet n (raise 32 0 0 s)
  | none => strikeNet n (raise 32 0 0 s)

/-- What the recertification at once of the Net with id `i` does: nothing while a Net fires, or when the Net has left the bank. -/
def recertifyTodo (upset i : Nat) (s : State) : State :=
  if s.net.state = 2 ∨ s.net.state = 3 then s
  else match (banked s).find? (fun n => n.netId == i) with
    | none => s
    | some n => recertifyBanked upset n s

theorem exec_immediateRecertification_none (hs : Live s) (h : s.net.recertTodo = []) :
    exec (.immediateRecertification t upset) s = .next (atDt t s) := by
  change execImmediateRecertification t upset s = _
  rw [execImmediateRecertification, runAt_live hs, atDt_net, h]

theorem exec_immediateRecertification_some (hs : Live s) (h : s.net.recertTodo = i :: rest) :
    exec (.immediateRecertification t upset) s =
      .next (recertifyTodo upset i (applyLate { atDt t s with net := { s.net with recertTodo := rest } })) := by
  change execImmediateRecertification t upset s = _
  rw [execImmediateRecertification, runAt_live hs, atDt_net, h]
  rfl

theorem recertifyTodo_busy (h : s.net.state = 2 ∨ s.net.state = 3) : recertifyTodo upset i s = s := if_pos h

theorem recertifyTodo_gone (h : s.net.state < 2) (hi : ∀ n ∈ banked s, n.netId ≠ i) : recertifyTodo upset i s = s := by
  rw [recertifyTodo, if_neg (by omega), List.find?_eq_none.2 fun n hn => by simpa using hi n hn]

theorem recertifyTodo_banked (h : s.net.state < 2) (hn : (banked s).find? (fun n => n.netId == i) = some n) :
    recertifyTodo upset i s = recertifyBanked upset n s := by
  rw [recertifyTodo, if_neg (by omega), hn]

theorem recertifyBanked_unitLost (h : certUnitLost s = true) : recertifyBanked upset n s = strikeNet n (raise 32 0 0 s) := by
  rw [recertifyBanked, if_pos h]

theorem recertifyBanked_evaluated (h : certUnitLost s = false) (hr : certEval n n.e (hazardsInEffect s) s = some r) :
    recertifyBanked upset n s =
      if r.ok && copiesOk s upset r then
        logNet (withCert s s.frame.number n.e r n) 1 (replaceNet (withCert s s.frame.number n.e r n) s)
      else strikeNet n (raise 32 0 0 s) := by
  rw [recertifyBanked, if_neg (Bool.eq_false_iff.1 h), hr]

end AtOnce

/-- Settles O40: one Net in a frame, the Nets of a frame, the Net that a late hazard hit, and what a refusal does to the bank. -/
theorem recertification : Obligations.Recertification := by
  unfold Obligations.Recertification
  intro t upset s hs
  refine ⟨fun f n => ?oneNet, fun f hf hpub hnew hmerge hempty hrun hbusy => ?inFrame, exec_immediateRecertification_none hs,
    fun i rest htodo => ?atOnce, fun n => strikeNet_inForce, fun n hforce m hm => ?struck⟩
  case oneNet =>
    intro z
    refine ⟨recertify_golden, recertify_impossible, fun e r hg hsup hunit he hr => ?_⟩
    rw [recertify_evaluated hg hsup hunit he hr]
    refine ⟨fun hok hcopies => ?passes, fun hbad hlax => ?fails, fun hbad hstrict hhit => ?strict⟩
    case passes => rw [if_pos (Bool.and_eq_true_iff.2 ⟨hok, hcopies⟩)]
    case fails => rw [Bool.and_eq_false_iff.2 hbad, if_neg Bool.false_ne_true, Bool.and_eq_false_iff.2 hlax, if_neg Bool.false_ne_true]
    case strict => rw [Bool.and_eq_false_iff.2 hbad, if_neg Bool.false_ne_true, if_pos (Bool.and_eq_true_iff.2 ⟨hstrict, hhit⟩)]
  case inFrame =>
    refine exec_netRecertification_due hs hf ?_
    obtain h | h := hrun <;> simp [hpub, hnew, hmerge, hempty, hbusy, h]
  case atOnce =>
    intro u w hs'
    rw [show exec (.immediateRecertification t upset) s = .next (recertifyTodo upset i w) from exec_immediateRecertification_some hs htodo]
    refine ⟨fun h => congrArg _ (recertifyTodo_busy h), fun h hi => congrArg _ (recertifyTodo_gone h hi), fun n h hn => ?_⟩
    rw [recertifyTodo_banked h hn]
    refine ⟨fun hlost => by rw [recertifyBanked_unitLost hlost], fun r hunit hr => ?_⟩
    rw [recertifyBanked_evaluated hunit hr]
    exact ⟨fun hok hcopies => by rw [if_pos (Bool.and_eq_true_iff.2 ⟨hok, hcopies⟩)],
      fun hbad => by rw [Bool.and_eq_false_iff.2 hbad, if_neg Bool.false_ne_true]⟩
  case struck =>
    rw [banked_strikeNet hforce, List.mem_filter, bne_iff_ne] at hm
    exact hm

end Sys2Proof.Machine
end

section
/-! SUPPORT. POLL_EN, the walk of the doorbell tree over a quiet tree, a Swap, and what becomes of a descriptor that has been read (09 R307 to
R316, 17 R514), and the statement about them (O11). -/

namespace Sys2Proof.Machine

/-! ## POLL_EN -/

section PollEnable

variable {t : Nat} {b : Bool} {s : State}

/-- A bitmap address of the doorbell tree that a walk can use (17 R514). -/
abbrev BitmapAddr (a : Nat) : Prop := a ≠ 0 ∧ a % 64 = 0

theorem exec_pollEnWrite_live (hs : Live s) : exec (.pollEnWrite t b) s = .next (writePollEn b (atDt t s)) := runAt_live hs t _

theorem writePollEn_downstream (h : s.chain.head = false) : writePollEn b s = s := by
  rw [writePollEn, h]; rfl

theorem writePollEn_off (h : s.chain.head = true) :
    writePollEn false s = { s with hostq := { s.hostq with pollEn := false } } := by
  rw [writePollEn, h]; rfl

/-- The three bitmap addresses are neither 0 nor misaligned (17 R514). -/
abbrev BitmapsOk (q : HostQ) : Prop := BitmapAddr q.dbLeaf ∧ BitmapAddr q.dbMid ∧ BitmapAddr q.dbTop

theorem writePollEn_on (h : s.chain.head = true) : writePollEn true s = { s with hostq := { s.hostq with
    pollEn := s.hostq.pollEn || decide (BitmapsOk s.hostq) } } := by
  have hok (a : Nat) : (a != 0 && a % 64 == 0) = decide (BitmapAddr a) := by
    rw [Bool.eq_iff_iff]; simp
  simp only [writePollEn, h, hok, Bool.decide_and, Bool.not_true, Bool.false_eq_true, if_false, if_true, Bool.and_assoc]

theorem writePollEn_on_ok (h : s.chain.head = true) (hok : BitmapsOk s.hostq) :
    writePollEn true s = { s with hostq := { s.hostq with pollEn := true } } := by
  rw [writePollEn_on h, decide_eq_true hok, Bool.or_true]

theorem writePollEn_on_bad (h : s.chain.head = true) (hbad : ¬ BitmapsOk s.hostq) : writePollEn true s = s := by
  rw [writePollEn_on h, decide_eq_false hbad, Bool.or_false]

end PollEnable

/-! ## A walk over a quiet tree -/

section QuietWalk

variable {t : Nat} {v : View} {ok : Bool} {s : State}

theorem memReads_of_zero {m : List Host.Cell} {a n : Nat} (h : ∀ k < n, memRead m (a + k) = 0) : memReads m a n = zeros n := by
  rw [memReads, zeros, List.map_eq_replicate_iff.2 fun k hk => h k (List.mem_range.1 hk), List.length_range]

theorem leNat_zeros (n : Nat) : leNat (zeros n) = 0 := by
  induction n with
  | zero => rfl
  | succ n ih => rw [zeros, List.replicate_succ, leNat, ← zeros, ih]; rfl

theorem fieldN_zeros (n o k : Nat) : fieldN (zeros n) o k = 0 := by
  rw [fieldN, zeros, List.drop_replicate, List.take_replicate, ← zeros, leNat_zeros]

/-- A top word that the read showed as 0 is not swapped. -/
theorem walkTop_zeros (n i : Nat) (w : Walk) : walkTop v ok (zeros n) w i = w := if_pos (fieldN_zeros n _ _)

theorem foldl_walkTop_zeros (n : Nat) (l : List Nat) (w : Walk) : l.foldl (walkTop v ok (zeros n)) w = w := by
  induction l with
  | nil => rfl
  | cons i l ih => rw [List.foldl_cons, walkTop_zeros, ih]

theorem walkTree_quiet (hr : badRead v s.hostq.dbTop 32 = false) (h : ∀ k < 32, memRead s.hostMem (s.hostq.dbTop + k) = 0) :
    walkTree v ok s = { st := s, found := [], stopped := false } := by
  rw [walkTree, hostRead, hr, memReads_of_zero h]
  exact foldl_walkTop_zeros 32 _ _

/-- No context waits and none was found: nothing is taken. -/
theorem takeStep_nothing (h : s.hostq.waiting = []) : takeStep v [] s = s := by
  have hself : { s with hostq := { s.hostq with waiting := [] } } = s := by rw [← h]
  rw [takeStep, h]
  exact hself

theorem exec_pollInstantWalk_due (hs : Live s) (hdue : t % 2000 = 0) (hen : s.hostq.pollEn = true)
    (hreq : (applyView v (atDt t s)).pcie.cfg.atomicReq = true) (hperst : (applyView v (atDt t s)).pcie.perst = false) :
    exec (.pollInstantWalk t v ok) s = .next (
      takeStep v (walkTree v ok (applyView v (atDt t s))).found (walkTree v ok (applyView v (atDt t s))).st) := by
  change execPollInstantWalk t v ok s = _
  rw [execPollInstantWalk, runAt_live hs]
  dsimp only
  rw [if_neg (by simp [hdue, hen, hreq, hperst])]

end QuietWalk

/-! ## A Swap -/

section Swap

variable {v : View} {a : Nat} {w : Walk}

/-- A Swap that the host answers takes the word and leaves 0 in its place (09 R307). -/
theorem swapWord_answered (hrun : w.stopped = false) (hr : badRead v a 8 = false) : swapWord v true a w =
    (leNat (memReads w.st.hostMem a 8), { w with st := { w.st with hostMem := memWrites w.st.hostMem a (zeros 8) } }) := by
  rw [swapWord, hrun, hostRead, hr]; rfl

theorem memRead_memWrites_zeros {m : List Host.Cell} (hm : Memory.wf m = true) (a n k : Nat) :
    memRead (memWrites m a (zeros n)) k = if a ≤ k ∧ k < a + n then 0 else memRead m k := by
  have hlen : (zeros n).length = n := List.length_replicate
  split
  next h =>
    obtain ⟨i, rfl⟩ := Nat.exists_eq_add_of_le h.1
    rw [memRead_memWrites_of_mem (zeros n) a i (by omega) hm]
    exact List.getElem_replicate _
  next h => exact memRead_memWrites_of_not_mem (zeros n) a k hm (by omega)

end Swap

/-! ## A descriptor that has been read -/

section Accept

variable {c : Nat} {b : Bytes} {s : State}

/-- The descriptor `b` of context `c` as taken at this DT. -/
def readDesc (c : Nat) (b : Bytes) (s : State) : Taken := { ctx := c, num := (ctxOf s c).sqHead, dt := s.dt, desc := b }

/-- The `seq` that the context's next descriptor must carry (09 R316). -/
def wantedSeq (c : Nat) (s : State) : Nat := ((ctxOf s c).seqBase + (ctxOf s c).sqHead) % 65536

/-- The descriptor has its completion slot, whatever comes of it (09 R311). -/
def slotReserved (c : Nat) (s : State) : State :=
  setCtx s c { ctxOf s c with sqHead := ((ctxOf s c).sqHead + 1) % 2 ^ 32, reserved := (ctxOf s c).reserved + 1,
                              inFlight := (ctxOf s c).inFlight ++ [(ctxOf s c).sqHead] }

/-- The state in which a descriptor's first checks run: its slot is reserved, and one that is a heartbeat for this unit has restarted the timer (08
R284). -/
def descRead (c : Nat) (b : Bytes) (s : State) : State :=
  if (ctxOf s c).unit = s.chain.unit ∧ isHeartbeat b = true then hostHeartbeat s.dt (slotReserved c s) else slotReserved c s

theorem unknownKind_iff : unknownKind b = true ↔ fieldN b 0 1 = 0 ∨ 0x0D < fieldN b 0 1 := by
  simp [unknownKind]

/-- The first checks of a descriptor that was read: its `seq`, its kind, and whose unit it is for (09 R311, R315, R316). -/
theorem acceptOne_read : acceptOne c (some b) s =
    if fieldN b 2 2 ≠ wantedSeq c s then complete (takenHdr (readDesc c b s)) 0x12 0 (wantedSeq c s) 0 none (descRead c b s)
    else if unknownKind b then complete (takenHdr (readDesc c b s)) 0x10 0 0 0xFFFFFFFF none (descRead c b s)
    else if (ctxOf s c).unit ≠ (descRead c b s).chain.unit then
      if needsControl b && !bitOf (ctxOf s c).flags 1 then
        complete (takenHdr (readDesc c b s)) 0x10 0 (b2n (decide (fieldN b 1 1 ≥ 4))) 0xFFFFFFFF none (descRead c b s)
      else forwardDesc (readDesc c b s) (ctxOf s c) (descRead c b s)
    else { descRead c b s with hostq := { (descRead c b s).hostq with taken := (descRead c b s).hostq.taken ++ [readDesc c b s] } } :=
  rfl

@[simp] theorem descRead_chain : (descRead c b s).chain = s.chain := by
  unfold descRead; split <;> rfl

theorem acceptOne_wrong_seq (h : fieldN b 2 2 ≠ wantedSeq c s) :
    acceptOne c (some b) s = complete (takenHdr (readDesc c b s)) 0x12 0 (wantedSeq c s) 0 none (descRead c b s) := by
  rw [acceptOne_read, if_pos h]

theorem acceptOne_unknown (hq : fieldN b 2 2 = wantedSeq c s) (hk : unknownKind b = true) :
    acceptOne c (some b) s = complete (takenHdr (readDesc c b s)) 0x10 0 0 0xFFFFFFFF none (descRead c b s) := by
  rw [acceptOne_read, if_neg (not_not_intro hq), if_pos hk]

theorem acceptOne_taken (hq : fieldN b 2 2 = wantedSeq c s) (hk : ¬ unknownKind b = true) (hu : (ctxOf s c).unit = s.chain.unit) :
    acceptOne c (some b) s =
      { descRead c b s with hostq := { (descRead c b s).hostq with taken := (descRead c b s).hostq.taken ++ [readDesc c b s] } } := by
  rw [acceptOne_read, if_neg (not_not_intro hq), if_neg hk, descRead_chain, if_neg (not_not_intro hu)]

end Accept

/-- Settles O11: POLL_EN by its write, the quiet walk, the Swap, and a descriptor by its first check. -/
theorem doorbellWalk : Obligations.DoorbellWalk := by
  unfold Obligations.DoorbellWalk
  refine ⟨fun t s hs => ?pollEn, fun t v ok s hs => ?quiet,
    fun v a w hrun hr hm => ?swap, fun c b s => ?desc⟩
  case pollEn =>
    intro u q ok
    refine ⟨fun hh => ?off, fun hh hleaf hmid htop => ?on, fun hh hbad => ?refused, fun hh b => ?downstream⟩
    case off => rw [exec_pollEnWrite_live hs, writePollEn_off (s := u) hh]; rfl
    case on => rw [exec_pollEnWrite_live hs, writePollEn_on_ok (s := u) hh ⟨hleaf, hmid, htop⟩]; rfl
    case refused => rw [exec_pollEnWrite_live hs, writePollEn_on_bad (s := u) hh hbad]
    case downstream => rw [exec_pollEnWrite_live hs, writePollEn_downstream (s := u) hh]
  case quiet =>
    intro u hdue hen hreq hperst hwait hr hquiet
    have htop : u.hostq = s.hostq := applyView_hostq v (atDt t s)
    have hwalk : walkTree v ok u = { st := u, found := [], stopped := false } :=
      walkTree_quiet (by rwa [htop]) (by rwa [htop])
    rw [exec_pollInstantWalk_due hs hdue hen hreq hperst, hwalk, takeStep_nothing (by rwa [htop])]
  case swap =>
    rw [swapWord_answered hrun hr]
    exact ⟨rfl, memRead_memWrites_zeros hm a 8, hrun, rfl⟩
  case desc =>
    intro x want d w u
    exact ⟨acceptOne_wrong_seq, fun hq hu hlo hhi => acceptOne_taken hq (by rw [unknownKind_iff]; omega) hu,
      fun hq hu hk => acceptOne_unknown hq (unknownKind_iff.2 hk)⟩

end Sys2Proof.Machine
end

section
/-! SUPPORT. The context commands of HOSTQ_CTX_CMD, the end of a drain, and the host's words of a context read back (09 R300 to R305), and the
statement about them (O8). -/

namespace Sys2Proof.Machine

/-! ## The context commands -/

section ContextCommand

variable {t dur code : Nat} {f : Nat → Ctx → State → State} {i : Nat} {x : Ctx} {s : State}

theorem ctxCommand_downstream (hh : s.chain.head = false) : ctxCommand dur f s = s := by
  simp [ctxCommand, hh]

theorem ctxCommand_untrained (hh : s.chain.head = true) (ht : s.boot.stacksTrained = false) :
    ctxCommand dur f s = { s with hostq := { s.hostq with refused := true } } := by
  simp [ctxCommand, hh, ht]

theorem ctxCommand_busy (hh : s.chain.head = true) (ht : s.boot.stacksTrained = true) (hb : s.dt < s.hostq.busyUntil) :
    ctxCommand dur f s = { s with hostq := { s.hostq with overrun := true } } := by
  simp [ctxCommand, hh, ht, hb]

/-- A command has begun: REFUSED is cleared and BUSY lasts `dur` (09 R302). -/
abbrev ctxBegun (dur : Nat) (s : State) : State := { s with hostq := { s.hostq with refused := false, busyUntil := s.dt + dur } }

theorem ctxCommand_begun (hh : s.chain.head = true) (ht : s.boot.stacksTrained = true) (hb : s.hostq.busyUntil ≤ s.dt) :
    ctxCommand dur f s = f s.hostq.ctxIndex (ctxOf s s.hostq.ctxIndex) (ctxBegun dur s) := by
  simp only [ctxCommand, hh, ht, Nat.not_lt.2 hb, Bool.not_true, Bool.false_eq_true, if_false]
  rfl

theorem exec_ctxWrite_live (hs : Live s) : exec (.ctxWrite t dur) s = .next (ctxCommand dur ctxDoWrite (atDt t s)) := runAt_live hs t _

theorem exec_ctxRead_live (hs : Live s) : exec (.ctxRead t dur) s = .next (ctxCommand dur ctxDoRead (atDt t s)) := runAt_live hs t _

theorem exec_ctxEnable_live (hs : Live s) : exec (.ctxEnable t dur) s = .next (ctxCommand dur ctxDoEnable (atDt t s)) := runAt_live hs t _

theorem exec_ctxDisable_live (hs : Live s) : exec (.ctxDisable t dur) s = .next (ctxCommand dur ctxDoDisable (atDt t s)) := runAt_live hs t _

/-- Where no command begins, the four do the same. -/
theorem exec_ctxCommands_unbegun {u : State} (hs : Live s) (h : ∀ f, ctxCommand dur f (atDt t s) = u) :
    exec (.ctxWrite t dur) s = .next u ∧ exec (.ctxRead t dur) s = .next u ∧ exec (.ctxEnable t dur) s = .next u ∧
    exec (.ctxDisable t dur) s = .next u := by
  rw [exec_ctxWrite_live hs, exec_ctxRead_live hs, exec_ctxEnable_live hs, exec_ctxDisable_live hs, h, h, h, h]
  exact ⟨rfl, rfl, rfl, rfl⟩

theorem exec_ctxInvalidCommand_live (hs : Live s) :
    exec (.ctxInvalidCommand t code) s = .next (if 1 ≤ code ∧ code ≤ 4 then atDt t s else ctxBadCommand (atDt t s)) := by
  change execCtxInvalidCommand t code s = _
  rw [execCtxInvalidCommand, runAt_live hs]

theorem exec_ctxInvalidCommand_bad (hs : Live s) (hc : code = 0 ∨ 4 < code) :
    exec (.ctxInvalidCommand t code) s = .next (ctxBadCommand (atDt t s)) := by
  rw [exec_ctxInvalidCommand_live hs, if_neg (by omega)]

theorem ctxBadCommand_downstream (hh : s.chain.head = false) : ctxBadCommand s = s := by
  simp [ctxBadCommand, hh]

theorem ctxBadCommand_busy (hh : s.chain.head = true) (hb : s.dt < s.hostq.busyUntil) :
    ctxBadCommand s = { s with hostq := { s.hostq with overrun := true } } := by
  simp [ctxBadCommand, hh, hb]

theorem ctxBadCommand_idle (hh : s.chain.head = true) (hb : s.hostq.busyUntil ≤ s.dt) : ctxBadCommand s = setRefused true s := by
  simp [ctxBadCommand, hh, Nat.not_lt.2 hb]

/-! ### What a command that has begun does -/

theorem ctxDoWrite_disabled (hx : x.state = 0) : ctxDoWrite i x s = setCtx s i (ctxOfBytes x (s.hostq.data.flatMap (leBytes 4))) :=
  if_neg (not_not_intro hx)

theorem ctxDoWrite_refused (hx : x.state ≠ 0) : ctxDoWrite i x s = setRefused true s := if_pos hx

/-- What ENABLE clears of a context (09 R302). -/
abbrev clearedCtx (x : Ctx) : Ctx := { x with sqHead := 0, cqTail := 0, phase := 1, reserved := 0, unsignalled := 0, inFlight := [] }

/-- None of the fields that ENABLE clears is among those it checks (09 R300). -/
theorem ctxOk_clearedCtx : ctxOk s (clearedCtx x) = ctxOk s x := rfl

theorem ctxDoEnable_disabled (hx : x.state = 0) : ctxDoEnable i x s =
    if ctxOk s x then setCtx s i { clearedCtx x with state := 1 } else setRefused true (setCtx s i (clearedCtx x)) := by
  rw [← ctxOk_clearedCtx]
  exact if_neg (not_not_intro hx)

theorem ctxDoEnable_refused (hx : x.state ≠ 0) : ctxDoEnable i x s = setRefused true s := if_pos hx

theorem ctxDoDisable_enabled (hx : x.state = 1) : ctxDoDisable i x s = { setCtx s i { x with state := 2 } with
    hostq := { (setCtx s i { x with state := 2 }).hostq with waiting := s.hostq.waiting.filter (fun q => q != i) } } :=
  if_neg (not_not_intro hx)

theorem ctxDoDisable_refused (hx : x.state ≠ 1) : ctxDoDisable i x s = setRefused true s := if_pos hx

end ContextCommand

/-! ## The end of a drain -/

theorem exec_ctxDrainEnd_live {t c : Nat} {s : State} (hs : Live s) : exec (.ctxDrainEnd t c) s = .next (
    if (ctxOf s c).state = 2 ∧ (ctxOf s c).inFlight = [] then setCtx (atDt t s) c { ctxOf s c with state := 0 } else atDt t s) := by
  change execCtxDrainEnd t c s = _
  rw [execCtxDrainEnd, runAt_live hs]
  rfl

/-! ## Little-endian fields (00 R10) -/

section Fields

variable {b l r : Bytes} {o k m n w : Nat}

@[simp] theorem leBytes_length (k n : Nat) : (leBytes k n).length = k := by
  induction k generalizing n with
  | zero => rfl
  | succ k ih => rw [leBytes, List.length_cons, ih]

theorem leNat_leBytes (k n : Nat) : leNat (leBytes k n) = n % 256 ^ k := by
  induction k generalizing n with
  | zero => simp [leBytes, leNat, Nat.mod_one]
  | succ k ih =>
    have hb : (byteOf (n % 256)).toNat = n % 256 := by simp [byteOf]
    rw [leBytes, leNat, ih, hb, Nat.pow_succ', Nat.mod_mul]

theorem leBytes_leNat (b : Bytes) : leBytes b.length (leNat b) = b := by
  induction b with
  | nil => rfl
  | cons x b ih =>
    have hx : x.toNat < 256 := x.isLt
    have hmod : (x.toNat + 256 * leNat b) % 256 = x.toNat := by omega
    have hdiv : (x.toNat + 256 * leNat b) / 256 = leNat b := by omega
    rw [List.length_cons, leNat, leBytes, hmod, hdiv, ih]
    simp [byteOf]

theorem leNat_append (l r : Bytes) : leNat (l ++ r) = leNat l + 256 ^ l.length * leNat r := by
  induction l with
  | nil => simp [leNat]
  | cons x l ih => rw [List.cons_append, leNat, leNat, ih, List.length_cons, Nat.pow_succ', Nat.mul_add, Nat.mul_assoc, Nat.add_assoc]

/-- The bytes of a field, written again. -/
theorem leBytes_fieldN (h : o + k ≤ b.length) : leBytes k (fieldN b o k) = (b.drop o).take k := by
  have hk : ((b.drop o).take k).length = k := by rw [List.length_take, List.length_drop]; omega
  simpa only [fieldN, hk] using leBytes_leNat ((b.drop o).take k)

theorem fieldN_append_left (h : o + k ≤ l.length) : fieldN (l ++ r) o k = fieldN l o k := by
  rw [fieldN, fieldN, List.drop_append_of_le_length (by omega), List.take_append_of_le_length (by rw [List.length_drop]; omega)]

theorem fieldN_append_right (h : l.length ≤ o) : fieldN (l ++ r) o k = fieldN r (o - l.length) k := by
  rw [fieldN, fieldN, List.drop_append, List.drop_of_length_le h, List.nil_append]

theorem fieldN_take (h : o + k ≤ m) : fieldN (b.take m) o k = fieldN b o k := by
  rw [fieldN, fieldN, List.drop_take, List.take_take, Nat.min_eq_left (by omega)]

/-- A field is its low bytes and, above them, its high bytes. -/
theorem fieldN_add (h : o + m ≤ b.length) : fieldN b o (m + n) = fieldN b o m + 256 ^ m * fieldN b (o + m) n := by
  have hm : ((b.drop o).take m).length = m := by rw [List.length_take, List.length_drop]; omega
  rw [fieldN, List.take_add, leNat_append, hm, List.drop_drop]
  rfl

theorem leNat_lt (b : Bytes) : leNat b < 256 ^ b.length := by
  have h := Nat.mod_lt (leNat b) (Nat.pow_pos (n := b.length) (show 0 < 256 by decide))
  rwa [← leNat_leBytes, leBytes_leNat] at h

theorem fieldN_lt (b : Bytes) (o k : Nat) : fieldN b o k < 256 ^ k :=
  Nat.lt_of_lt_of_le (leNat_lt _) (Nat.pow_le_pow_right (by decide) (List.length_take_le k _))

theorem words_length (ws : List Nat) : (ws.flatMap (leBytes 4)).length = 4 * ws.length := by
  induction ws with
  | nil => rfl
  | cons w ws ih => rw [List.flatMap_cons, List.length_append, leBytes_length, ih, List.length_cons, Nat.mul_succ, Nat.add_comm]

/-- Word `k` of a string of 32-bit words. -/
theorem fieldN_words {ws : List Nat} (h : ∀ w ∈ ws, w < 2 ^ 32) (k : Nat) : fieldN (ws.flatMap (leBytes 4)) (4 * k) 4 = ws.getD k 0 := by
  induction ws generalizing k with
  | nil => rw [List.flatMap_nil]; simp [fieldN, leNat]
  | cons w ws ih =>
    obtain ⟨hw, hws⟩ := List.forall_mem_cons.1 h
    rw [List.flatMap_cons]
    cases k with
    | zero => 
      have hl : (leBytes 4 w).take 4 = leBytes 4 w := List.take_of_length_le (by simp)
      rw [fieldN_append_left (by simp), fieldN, List.drop_zero, hl, leNat_leBytes, List.getD_cons_zero]
      exact Nat.mod_eq_of_lt hw
    | succ k =>
      have hl : (leBytes 4 w).length = 4 := leBytes_length 4 w
      rw [fieldN_append_right (by omega), hl, Nat.mul_succ, Nat.add_sub_cancel, ih hws, List.getD_cons_succ]

end Fields

/-! ## What WRITE puts into a context is what READ returns -/

section ReadBack

variable {b : Bytes} {x : Ctx}

/-- A context over whose host bytes `b` was written holds them again, but for the reserved byte 0x2B (00 R12); the device's bytes follow. -/
theorem ctxBytes_ctxOfBytes (h : 48 ≤ b.length) : ∃ r, ctxBytes (ctxOfBytes x b) = b.take 43 ++ ([0] ++ ((b.drop 44).take 4 ++ r)) := by
  refine ⟨leBytes 4 x.sqHead ++ leBytes 4 x.cqTail ++ leBytes 1 x.state ++ leBytes 1 x.phase ++ zeros 6, ?_⟩
  have field {o k : Nat} (hk : o + k ≤ 48) : leBytes k (fieldN b o k) = (b.drop o).take k := leBytes_fieldN (Nat.le_trans hk h)
  have h1 : b.take 43 = leBytes 8 (fieldN b 0 8) ++ leBytes 8 (fieldN b 8 8) ++ leBytes 8 (fieldN b 0x10 8) ++ leBytes 8 (fieldN b 0x18 8) ++
      leBytes 1 (fieldN b 0x20 1) ++ leBytes 1 (fieldN b 0x21 1) ++ leBytes 1 (fieldN b 0x22 1) ++ leBytes 1 (fieldN b 0x23 1) ++
      leBytes 2 (fieldN b 0x24 2) ++ leBytes 2 (fieldN b 0x26 2) ++ leBytes 2 (fieldN b 0x28 2) ++ leBytes 1 (fieldN b 0x2A 1) := by
    simp (disch := decide) only [field, List.drop_zero, ← List.take_add]
  have h2 : (b.drop 44).take 4 = leBytes 2 (fieldN b 0x2C 2) ++ leBytes 2 (fieldN b 0x2E 2) := by
    rw [field (by decide), field (by decide), show 0x2E = 44 + 2 from rfl, ← List.drop_drop, ← List.take_add]
  have h0 : leBytes 1 0 = [0] := rfl
  unfold ctxBytes ctxOfBytes
  simp only [h0, h1, h2, List.append_assoc]

theorem fieldN_ctxBytes_low {o k : Nat} (h : 48 ≤ b.length) (hk : o + k ≤ 43) : fieldN (ctxBytes (ctxOfBytes x b)) o k = fieldN b o k := by
  obtain ⟨r, hr⟩ := ctxBytes_ctxOfBytes (x := x) h
  have hlen : (b.take 43).length = 43 := List.length_take_of_le (by omega)
  rw [hr, fieldN_append_left (by omega), fieldN_take hk]

theorem fieldN_ctxBytes_reserved (h : 48 ≤ b.length) : fieldN (ctxBytes (ctxOfBytes x b)) 43 1 = 0 := by
  obtain ⟨r, hr⟩ := ctxBytes_ctxOfBytes (x := x) h
  have hlen : (b.take 43).length = 43 := List.length_take_of_le (by omega)
  rw [hr, fieldN_append_right (Nat.le_of_eq hlen), hlen]
  rfl

/-- The last host word of a context. -/
theorem fieldN_ctxBytes_last (h : 48 ≤ b.length) : fieldN (ctxBytes (ctxOfBytes x b)) 44 4 = fieldN b 44 4 := by
  obtain ⟨r, hr⟩ := ctxBytes_ctxOfBytes (x := x) h
  have hlen : (b.take 43 ++ [0]).length = 44 := by rw [List.length_append, List.length_take_of_le (by omega)]; rfl
  have hlast : ((b.drop 44).take 4).length = 4 := by rw [List.length_take, List.length_drop]; omega
  rw [hr, ← List.append_assoc, fieldN_append_right (Nat.le_of_eq hlen), hlen, fieldN_append_left (by omega), fieldN_take (by decide), fieldN, fieldN,
    List.drop_drop]

/-- The word that holds the reserved byte. -/
theorem fieldN_ctxBytes_flags (h : 48 ≤ b.length) : fieldN (ctxBytes (ctxOfBytes x b)) 40 4 = fieldN b 40 4 % 2 ^ 24 := by
  have hlen : 48 ≤ (ctxBytes (ctxOfBytes x b)).length := by
    obtain ⟨r, hr⟩ := ctxBytes_ctxOfBytes (x := x) h
    rw [hr]; simp only [List.length_append, List.length_take, List.length_drop, List.length_singleton]; omega
  have hlow : fieldN b 40 3 < 2 ^ 24 := fieldN_lt b 40 3
  calc fieldN (ctxBytes (ctxOfBytes x b)) 40 (3 + 1)
    _ = fieldN b 40 3 := by
      rw [fieldN_add (by omega), fieldN_ctxBytes_low h (by decide), fieldN_ctxBytes_reserved h, Nat.mul_zero, Nat.add_zero]
    _ = fieldN b 40 (3 + 1) % 2 ^ 24 := by rw [fieldN_add (by omega)]; omega

end ReadBack

/-- Settles O8: each command by the state in which it finds the table, the drain, then the host's words of a context read back. -/
theorem contextCommands : Obligations.ContextCommands := by
  unfold Obligations.ContextCommands
  refine ⟨fun t dur code s hs => ?commands, fun t c s hs => ?drain, fun x data hlen hw => ?readBack⟩
  case commands =>
    intro u i x begun refusedBegun overrun clean
    refine ⟨fun hh => ?downstream, fun hh ht => ?untrained, fun hh ht hb => ?busy, fun hh ht hb => ?begun⟩
    case downstream =>
      obtain ⟨hwr, hrd, hen, hdis⟩ := exec_ctxCommands_unbegun (t := t) (dur := dur) hs fun _ => ctxCommand_downstream hh
      refine ⟨hwr, hrd, hen, hdis, ?_⟩
      rw [exec_ctxInvalidCommand_live hs, ctxBadCommand_downstream (s := atDt t s) hh, ite_self]
    case untrained => exact exec_ctxCommands_unbegun hs fun _ => ctxCommand_untrained hh ht
    case busy =>
      obtain ⟨hwr, hrd, hen, hdis⟩ := exec_ctxCommands_unbegun (t := t) (dur := dur) hs fun _ => ctxCommand_busy hh ht hb
      exact ⟨hwr, hrd, hen, hdis, fun hc => by rw [exec_ctxInvalidCommand_bad hs hc, ctxBadCommand_busy (s := u) hh hb]⟩
    case begun =>
      have hcmd (f : Nat → Ctx → State → State) : ctxCommand dur f (atDt t s) = f i x begun := ctxCommand_begun hh ht hb
      rw [exec_ctxWrite_live hs, exec_ctxRead_live hs, exec_ctxEnable_live hs, exec_ctxDisable_live hs, hcmd, hcmd, hcmd, hcmd]
      refine ⟨fun hx => ?_, fun hx => ?_, rfl, fun hx hok => ?_, fun hx hok => ?_, fun hx => ?_, fun hx => ?_, fun hx => ?_, fun hc => ?_⟩
      · exact congrArg _ (ctxDoWrite_disabled hx)
      · exact congrArg _ (ctxDoWrite_refused hx)
      · exact congrArg _ ((ctxDoEnable_disabled hx).trans (if_pos hok))
      · exact congrArg _ ((ctxDoEnable_disabled hx).trans (if_neg (Bool.eq_false_iff.1 hok)))
      · exact congrArg _ (ctxDoEnable_refused hx)
      · exact congrArg _ (ctxDoDisable_enabled hx)
      · exact congrArg _ (ctxDoDisable_refused hx)
      · rw [exec_ctxInvalidCommand_bad hs hc, ctxBadCommand_idle (s := u) hh hb]; rfl
  case drain =>
    rw [exec_ctxDrainEnd_live hs]
    exact ⟨fun hx hf => by rw [if_pos ⟨hx, hf⟩], fun h => by rw [if_neg fun hd => h.elim (· hd.1) (· hd.2)]⟩
  case readBack =>
    intro y
    have hbytes : 48 ≤ (data.flatMap (leBytes 4)).length := by
      rw [words_length, hlen]
      decide
    refine ⟨fun k hk hne => ?words, ?flags, rfl, rfl, rfl, rfl⟩
    case words =>
      rw [← fieldN_words hw k]
      rcases Nat.lt_or_ge k 10 with h | h
      · exact fieldN_ctxBytes_low hbytes (by omega)
      · obtain rfl : k = 11 := by omega
        exact fieldN_ctxBytes_last hbytes
    case flags => rw [← fieldN_words hw 10]; exact fieldN_ctxBytes_flags hbytes


end Sys2Proof.Machine
end

section
/-! SUPPORT. What a completion writes on unit 0, what becomes of its context, and the interrupt delay (09 R318 to R322), and the statement about them
(O9). -/

namespace Sys2Proof.Machine

/-! ## A completion on unit 0 -/

section Completion

variable {h : Hdr} {c num status flags aux0 aux1 : Nat} {force : Bool} {fr : Option Nat} {mk : Nat → Bytes} {s : State}

theorem completionBytes_length (h : Hdr) (unit status flags aux0 aux1 frameLo phase : Nat) :
    (completionBytes h unit status flags aux0 aux1 frameLo phase).length = 32 := by
  simp only [completionBytes, List.length_append, leBytes_length]

/-- The context after its next completion (09 R318). -/
def completedCtx (num : Nat) (x : Ctx) : Ctx :=
  { x with cqTail := (x.cqTail + 1) % 2 ^ 32, reserved := x.reserved - 1, inFlight := x.inFlight.erase num,
           phase := if (x.cqTail + 1) % 2 ^ 32 % 2 ^ x.cqLog2 = 0 then 1 - x.phase else x.phase }

/-- The address of the slot for the next completion (09 R318). -/
def cqSlot (x : Ctx) : Nat := x.cqBase + 32 * (x.cqTail % 2 ^ x.cqLog2)

theorem putCompletion_written (hx : (ctxOf s c).state ≠ 0) : putCompletion c num force mk s =
    ctxIrq c force (setCtx { s with hostMem := memWrites s.hostMem (cqSlot (ctxOf s c)) (mk (ctxOf s c).phase) } c
      (completedCtx num (ctxOf s c))) :=
  if_neg hx

/-- A context that is DISABLED takes no completion. -/
theorem complete_disabled (hh : s.chain.head = true) (hx : (ctxOf s h.ctx).state = 0) : complete h status flags aux0 aux1 fr s = s := by
  unfold complete
  dsimp only
  rw [if_pos hh, putCompletion, if_pos hx]

/-- A downstream unit returns its completion to unit 0 (10 R343). -/
theorem complete_downstream_hostq (hh : s.chain.head = false) : (complete h status flags aux0 aux1 fr s).hostq = s.hostq := by
  unfold complete
  dsimp only
  rw [if_neg (by simp [hh])]
  rfl

/-- The frame field of a completion (09 R318). -/
def frameField (fr : Option Nat) : Nat := fr.elim 0xFFFFFFFF fun n => n % 2 ^ 32

/-- The bytes of a completion in the phase that its context is in. -/
def slotBytes (h : Hdr) (status flags aux0 aux1 : Nat) (fr : Option Nat) (x : Ctx) : Bytes :=
  completionBytes h x.unit status (if status ≥ 0x10 then 0 else flags % 4096) aux0 aux1 (frameField fr) x.phase

theorem complete_written (hh : s.chain.head = true) (hx : (ctxOf s h.ctx).state ≠ 0) : complete h status flags aux0 aux1 fr s =
    ctxIrq h.ctx h.irq (setCtx { s with
      hostMem := memWrites s.hostMem (cqSlot (ctxOf s h.ctx)) (slotBytes h status flags aux0 aux1 fr (ctxOf s h.ctx)) } h.ctx
      (completedCtx h.num (ctxOf s h.ctx))) := by
  unfold complete
  dsimp only
  rw [if_pos hh, putCompletion_written hx]
  cases fr <;> rfl

@[simp] theorem sendMsix_hostq (v : Nat) (s : State) : (sendMsix v s).hostq = s.hostq := by
  obtain ⟨p, k, e⟩ := sendMsix_only v s
  rw [e]

@[simp] theorem ctxIrq_hostMem (c : Nat) (force : Bool) (s : State) : (ctxIrq c force s).hostMem = s.hostMem := by
  obtain ⟨q, p, k, e⟩ := ctxIrq_only c force s
  rw [e]

@[simp] theorem ctxOf_sendMsix (v : Nat) (s : State) (c : Nat) : ctxOf (sendMsix v s) c = ctxOf s c := by
  rw [ctxOf, sendMsix_hostq, ctxOf]

/-- The interrupt decision changes only what its context counts as not signalled (09 R322). -/
theorem ctxOf_ctxIrq (c : Nat) (force : Bool) (s : State) :
    ∃ n f, ctxOf (ctxIrq c force s) c = { ctxOf s c with unsignalled := n, firstUnsig := f } := by
  unfold ctxIrq
  dsimp only
  split
  · exact ⟨_, _, rfl⟩
  · split
    · rw [ctxOf_sendMsix, ctxOf_setCtx]; exact ⟨_, _, rfl⟩
    · rw [ctxOf_setCtx]; exact ⟨_, _, rfl⟩

theorem complete_hostMem (hh : s.chain.head = true) (hx : (ctxOf s h.ctx).state ≠ 0) : (complete h status flags aux0 aux1 fr s).hostMem =
    memWrites s.hostMem (cqSlot (ctxOf s h.ctx)) (slotBytes h status flags aux0 aux1 fr (ctxOf s h.ctx)) := by
  rw [complete_written hh hx, ctxIrq_hostMem, setCtx_hostMem]

/-- The context's own completion leaves it as `completedCtx` says, but for what it counts as not signalled. -/
theorem ctxOf_complete (hh : s.chain.head = true) (hx : (ctxOf s h.ctx).state ≠ 0) : ∃ n f,
    ctxOf (complete h status flags aux0 aux1 fr s) h.ctx = { completedCtx h.num (ctxOf s h.ctx) with unsignalled := n, firstUnsig := f } := by
  obtain ⟨n, f, e⟩ := ctxOf_ctxIrq h.ctx h.irq (setCtx { s with
      hostMem := memWrites s.hostMem (cqSlot (ctxOf s h.ctx)) (slotBytes h status flags aux0 aux1 fr (ctxOf s h.ctx)) } h.ctx
      (completedCtx h.num (ctxOf s h.ctx)))
  rw [complete_written hh hx]
  rw [ctxOf_setCtx] at e
  exact ⟨n, f, e⟩

end Completion

/-! ## The interrupt delay -/

section IrqDelay

variable {t c v : Nat} {s : State}

theorem sendMsix_disabled (hh : s.chain.head = true) (he : s.pcie.cfg.msixEn = false) : sendMsix v s = s := by
  simp [sendMsix, hh, he]

theorem sendMsix_sent (hh : s.chain.head = true) (he : s.pcie.cfg.msixEn = true) (hm : s.pcie.cfg.msixMask = false)
    (hv : msixMasked s v = false) : sendMsix v s = { s with pcie := { s.pcie with msixOut := s.pcie.msixOut ++ [v] } } := by
  simp [sendMsix, hh, he, hm, hv]

/-- A message whose vector, or the whole function, is masked stays pending, once. -/
theorem sendMsix_masked (hh : s.chain.head = true) (he : s.pcie.cfg.msixEn = true)
    (hm : s.pcie.cfg.msixMask = true ∨ msixMasked s v = true) : sendMsix v s =
      if v ∈ s.pcie.msixPending then s else { s with pcie := { s.pcie with msixPending := s.pcie.msixPending ++ [v] } } := by
  simp [sendMsix, hh, he, hm]

theorem sendMsix_downstream (hh : s.chain.head = false) :
    sendMsix v s = if s.chain.addressed then sendFlit 0 (.msix v) s else s := by
  simp [sendMsix, hh]

/-- A completion waits for its message, and its delay has run out (09 R322). -/
abbrev irqDue (t c : Nat) (s : State) : Prop :=
  bitOf (ctxOf s c).flags 0 = true ∧ 0 < (ctxOf s c).unsignalled ∧ (ctxOf s c).firstUnsig + 1000 * (ctxOf s c).irqUs ≤ (atDt t s).dt

theorem exec_irqDelayExpiry_live (hs : Live s) : exec (.irqDelayExpiry t c) s = .next (
    if irqDue t c s then sendMsix (ctxOf s c).vector (setCtx (atDt t s) c { ctxOf s c with unsignalled := 0 }) else atDt t s) := by
  change execIrqDelayExpiry t c s = _
  rw [execIrqDelayExpiry, runAt_live hs]
  have hx : ctxOf (atDt t s) c = ctxOf s c := rfl
  simp only [hx, gt_iff_lt, Bool.and_eq_true, decide_eq_true_eq, and_assoc]

end IrqDelay

/-- Settles O9: a completion by the slot it writes and the context it leaves, then the delay by the four ways of a message. -/
theorem completionsAndInterrupts : Obligations.CompletionsAndInterrupts := by
  unfold Obligations.CompletionsAndInterrupts
  refine ⟨fun h status flags aux0 aux1 fr s => ?completion, fun t c s hs => ?delay⟩
  case completion =>
    intro x a bs u hh hx hwf
    have hlen : bs.length = 32 := completionBytes_length ..
    have hmem : u.hostMem = memWrites s.hostMem a bs := complete_hostMem hh hx
    obtain ⟨n, f, hctx⟩ : ∃ n f, ctxOf u h.ctx = { completedCtx h.num x with unsignalled := n, firstUnsig := f } := ctxOf_complete hh hx
    rw [hmem, hctx]
    refine ⟨hlen, fun k hk => ?_, fun k hk => memRead_memWrites_of_not_mem bs a k hwf (by omega), rfl, rfl, rfl⟩
    rw [memRead_memWrites_of_mem bs a k (by omega) hwf, List.getD_eq_getElem?_getD, List.getElem?_eq_getElem (by omega), Option.getD_some]
  case delay =>
    intro x u due
    have hdue (h : due) : exec (.irqDelayExpiry t c) s = .next (sendMsix x.vector u) := by
      rw [exec_irqDelayExpiry_live hs, if_pos h]
    refine ⟨fun h => by rw [exec_irqDelayExpiry_live hs, if_neg h], fun h hh he hm hv => ?sent, fun h hh he hm hp => ?pending,
      fun h hh he hm hp => ?again, fun h hh he => ?disabled, fun h hh => ?downstream⟩ <;> rw [hdue h]
    case sent => exact congrArg _ (sendMsix_sent (s := u) hh he hm hv)
    case pending => exact congrArg _ ((sendMsix_masked (s := u) hh he hm).trans (if_neg hp))
    case again => exact congrArg _ ((sendMsix_masked (s := u) hh he hm).trans (if_pos hp))
    case disabled => exact congrArg _ (sendMsix_disabled (s := u) hh he)
    case downstream => exact congrArg _ (sendMsix_downstream (s := u) hh)

end Sys2Proof.Machine
end

section
/-! SUPPORT. When the poller walks, and a Swap that the root complex does not support (09 R307 to R310), and the statement about them (O10). -/

namespace Sys2Proof.Machine

variable {t a : Nat} {v : View} {ok : Bool} {w : Walk} {s : State}

/-- Between the poll instants, and while the poller is off, only what the host did becomes visible. -/
theorem exec_pollInstantWalk_undue (hs : Live s) (h : t % 2000 ≠ 0 ∨ s.hostq.pollEn = false ∨
    (applyView v (atDt t s)).pcie.cfg.atomicReq = false ∨ (applyView v (atDt t s)).pcie.perst = true) :
    exec (.pollInstantWalk t v ok) s = .next (applyView v (atDt t s)) := by
  change execPollInstantWalk t v ok s = _
  rw [execPollInstantWalk, runAt_live hs]
  dsimp only
  rw [if_pos (by simpa using h)]

/-- Once the walk has stopped, no Swap reads or clears a word (09 R309). -/
theorem swapWord_stopped (h : w.stopped = true) : swapWord v ok a w = (0, w) := if_pos h

/-- An Unsupported Request (09 R309). -/
theorem swapWord_unsupported (h : w.stopped = false) : swapWord v false a w =
    (0, { w with st := takeEvent 155 a 0 { w.st with hostq := { w.st.hostq with noAtomic := true } }, stopped := true }) := by
  rw [swapWord, h]
  rfl

/-- Settles O10: the poller by its instant and its two enables, then a Swap that the root complex does not support. -/
theorem pollerRuns : Obligations.PollerRuns := by
  unfold Obligations.PollerRuns
  refine ⟨fun t v ok s hs => ⟨exec_pollInstantWalk_due hs, exec_pollInstantWalk_undue hs⟩, fun v a b w hrun => ?_⟩
  rw [swapWord_unsupported hrun]
  exact ⟨rfl, rfl, fun ok w' hstop => swapWord_stopped hstop⟩

end Sys2Proof.Machine
end

section
/-! SUPPORT. The count of a context that its descriptors are checked against (09 R316), and the statement about it (O12). -/

namespace Sys2Proof.Machine

variable {c : Nat} {b : Bytes} {d : Taken} {h : Hdr} {s : State}

/-- A completion leaves the count of its context as it was. -/
theorem complete_sqHead (h : Hdr) (status flags aux0 aux1 : Nat) (fr : Option Nat) (s : State) :
    (ctxOf (complete h status flags aux0 aux1 fr s) h.ctx).sqHead = (ctxOf s h.ctx).sqHead := by
  cases hh : s.chain.head with
  | false => rw [ctxOf, complete_downstream_hostq hh, ctxOf]
  | true =>
    by_cases hx : (ctxOf s h.ctx).state = 0
    · rw [complete_disabled hh hx]
    · obtain ⟨n, f, e⟩ := ctxOf_complete (status := status) (flags := flags) (aux0 := aux0) (aux1 := aux1) (fr := fr) hh hx
      rw [e]; rfl

theorem ctxOf_descRead : ctxOf (descRead c b s) c = ctxOf (slotReserved c s) c := by
  unfold descRead
  split <;> rfl

/-- Reading a descriptor advances the count. -/
theorem descRead_sqHead : (ctxOf (descRead c b s) c).sqHead = ((ctxOf s c).sqHead + 1) % 2 ^ 32 := by
  rw [ctxOf_descRead, slotReserved, ctxOf_setCtx]

theorem forwardDesc_sqHead (x : Ctx) (d : Taken) (s : State) : (ctxOf (forwardDesc d x s) d.ctx).sqHead = (ctxOf s d.ctx).sqHead := by
  unfold forwardDesc
  split
  · exact complete_sqHead (takenHdr d) 0x21 0 149 0 none s
  · rfl

/-- None of the first checks of a descriptor touches the count again. -/
theorem acceptOne_sqHead : (ctxOf (acceptOne c (some b) s) c).sqHead = (ctxOf (descRead c b s) c).sqHead := by
  have hdone (status aux0 aux1 : Nat) : (ctxOf (complete (takenHdr (readDesc c b s)) status 0 aux0 aux1 none (descRead c b s)) c).sqHead =
      (ctxOf (descRead c b s) c).sqHead := complete_sqHead (takenHdr (readDesc c b s)) status 0 aux0 aux1 none (descRead c b s)
  rw [acceptOne_read]
  split
  · exact hdone ..
  split
  · exact hdone ..
  split
  · split
    · exact hdone ..
    · exact forwardDesc_sqHead (ctxOf s c) (readDesc c b s) (descRead c b s)
  · rfl

/-- What reading a descriptor leaves as it was: it changes the context, and the host's heartbeat where the descriptor is one (08 R284). -/
theorem descRead_frame : (descRead c b s).hostq.taken = s.hostq.taken ∧ (descRead c b s).work = s.work ∧ (descRead c b s).chain = s.chain ∧
    (descRead c b s).hostMem = s.hostMem ∧ (descRead c b s).fault = s.fault := by
  unfold descRead
  split <;> exact ⟨rfl, rfl, rfl, rfl, rfl⟩

/-- Settles O12: reading a descriptor advances the count, and its first check compares the two. -/
theorem sequenceCount : Obligations.SequenceCount := by
  unfold Obligations.SequenceCount
  intro c b s x want d r
  exact ⟨acceptOne_sqHead.trans descRead_sqHead, fun hq => ⟨descRead c b s, acceptOne_wrong_seq hq, descRead_frame⟩⟩

end Sys2Proof.Machine
end

section
/-! SUPPORT. BAR0 accesses of a wrong shape, and reads and writes of the BAR2 window (09 R296, R297, 15 R448), and the statement about them (O13). -/

namespace Sys2Proof.Machine

variable {t addr size off n a : Nat} {w : Bool} {data : Bytes} {errs : List (Nat × Bytes)} {s : State}

/-! ## BAR0 -/

theorem exec_bar0UnsupportedAccess_none (hs : Live s) (h : endpointUp s = false ∨ (size = 4 ∧ addr % 4 = 0)) :
    exec (.bar0UnsupportedAccess t addr size w) s = .next (atDt t s) := by
  change execBar0UnsupportedAccess t addr size w s = _
  rw [execBar0UnsupportedAccess, runAt_live hs, endpointUp_atDt, if_pos (by simpa using h)]

/-- The access ends as Unsupported Request, which AER records (09 R296). -/
theorem exec_bar0UnsupportedAccess_recorded (hs : Live s) (hup : endpointUp s = true) (h : size ≠ 4 ∨ addr % 4 ≠ 0) :
    exec (.bar0UnsupportedAccess t addr size w) s = .next { atDt t s with pcie := { s.pcie with
      readOk := false, readData := if w then s.pcie.readData else [], aer := s.pcie.aer ||| 2 ^ 20 } } := by
  change execBar0UnsupportedAccess t addr size w s = _
  rw [execBar0UnsupportedAccess, runAt_live hs, endpointUp_atDt, if_neg (by simp only [hup, Bool.not_true, Bool.false_eq_true, false_or]; omega)]
  rfl

/-! ## Reads of the BAR2 window -/

theorem exec_bar2Read_down (hs : Live s) (hd : endpointUp s = false) : exec (.bar2Read t off n errs) s = .next (atDt t s) := by
  change execBar2Read t off n errs s = _
  rw [execBar2Read, runAt_live hs, endpointUp_atDt, if_pos (by simp [hd])]

/-- What the host receives of a read of `n` bytes at `a` (15 R448, 14 R435). -/
def bar2Got (a n : Nat) (errs : List (Nat × Bytes)) (s : State) : State := { s with pcie := { s.pcie with
  readData := (sillageData a (faultyGranules s a n errs) (devRead s a n)).map (fun b => b.toNat), readOk := true,
  poisoned := !(poisonRead s a n (faultyGranules s a n errs)).isEmpty } }

theorem exec_bar2Read_up (hs : Live s) (hup : endpointUp s = true) : exec (.bar2Read t off n errs) s = .next (
    sillageEvents (faultyGranules (atDt t s) (bar2Addr s off) n errs) (bar2Got (bar2Addr s off) n errs (atDt t s))) := by
  change execBar2Read t off n errs s = _
  rw [execBar2Read, runAt_live hs, endpointUp_atDt, if_neg (by simp [hup])]
  rfl

/-- Bytes of granules without errors come as they stand. -/
theorem sillageData_nil (a : Nat) (b : Bytes) : sillageData a [] b = b := by
  simp [sillageData, lookupO]

theorem bar2Got_clean (h : poisonRead s a n [] = []) : bar2Got a n [] s = { s with pcie := { s.pcie with
    readData := (devRead s a n).map (fun b => b.toNat), readOk := true, poisoned := false } } := by
  have hbad : faultyGranules s a n [] = [] := rfl
  rw [bar2Got, hbad, sillageData_nil, h]
  rfl

/-! ## Writes of the BAR2 window -/

theorem exec_bar2Write_down (hs : Live s) (hd : endpointUp s = false) : exec (.bar2Write t off data errs) s = .next (atDt t s) := by
  change execBar2Write t off data errs s = _
  rw [execBar2Write, runAt_live hs, endpointUp_atDt, if_pos (by simp [hd])]

/-- The written bytes all lie in the staging region (09 R297). -/
abbrev bar2Staged (s : State) (off len : Nat) : Prop :=
  s.hostq.stageBase ≤ s.hostq.bar2Base + off % 2 ^ 28 ∧ s.hostq.bar2Base + off % 2 ^ 28 + len ≤ s.hostq.stageBase + s.hostq.stageSize

theorem exec_bar2Write_up (hs : Live s) (hup : endpointUp s = true) : exec (.bar2Write t off data errs) s = .next (
    if bar2Staged s off data.length then codedWrite (bar2Addr s off) data errs (atDt t s)
    else { atDt t s with hostq := { s.hostq with bar2Drop := min (s.hostq.bar2Drop + 1) 255 } }) := by
  change execBar2Write t off data errs s = _
  rw [execBar2Write, runAt_live hs, endpointUp_atDt, if_neg (by simp [hup])]
  rfl

/-- A write that meets no error stores its bytes and raises nothing. -/
theorem codedWrite_nil : codedWrite a data [] s = keyWrite s (keyOfAddr a) data := rfl

/-- Settles O13: each access where the endpoint is down, and each of its cases where it is up. -/
theorem barAccesses : Obligations.BarAccesses := by
  unfold Obligations.BarAccesses
  intro t addr size off n w data errs s hs u a bad got p up
  have hup (h : up) : endpointUp s = true := (endpointUp_iff s).2 h
  refine ⟨fun h => exec_bar0UnsupportedAccess_recorded hs (hup h), fun hsz ha => exec_bar0UnsupportedAccess_none hs (.inr ⟨hsz, ha⟩),
    fun h => exec_bar2Read_up hs (hup h), fun h hclean => ?clean, fun h hlo hhi => ?staged, fun h hout => ?dropped, fun h => ?down⟩
  case clean => rw [exec_bar2Read_up hs (hup h), bar2Got_clean hclean]; rfl
  case staged =>
    have hin : bar2Staged s off data.length := ⟨hlo, hhi⟩
    constructor
    · rw [exec_bar2Write_up hs (hup h), if_pos hin]
    · rw [exec_bar2Write_up hs (hup h), if_pos hin, codedWrite_nil]
  case dropped => rw [exec_bar2Write_up hs (hup h), if_neg (by omega)]
  case down =>
    have hd : endpointUp s = false := (endpointUp_eq_false_iff s).2 h
    exact ⟨exec_bar2Read_down hs hd, exec_bar2Write_down hs hd, exec_bar0UnsupportedAccess_none hs (.inl hd)⟩

end Sys2Proof.Machine
end

section
/-! SUPPORT. PERST_N, hot reset and function-level reset: what a reset of the host interface clears and what it leaves (09 R299, 16 R486), and the
statement about them (O14). -/

namespace Sys2Proof.Machine

variable {t : Nat} {s u : State}

/-- What a reset of the host interface clears: the poller, the contexts, the work from descriptors, what waits in the chain, and configuration
space; messages already sent stand, and the reset cause is 5 (09 R299, 16 R486). -/
structure HostIfCleared (s u : State) : Prop where
  pollEn : u.hostq.pollEn = false
  ctxs : ∀ p ∈ u.hostq.ctxs, p.2.state = 0
  taken : u.hostq.taken = []
  waiting : u.hostq.waiting = []
  work : u.work = []
  opts : u.opts = []
  netRuns : u.netRuns = []
  fwd : u.chain.fwd = []
  cfg : u.pcie.cfg = {}
  msixOut : u.pcie.msixOut = s.pcie.msixOut
  cause : u.boot.resetCause = 5

/-- What a reset of the host interface leaves as it was (09 R299). -/
structure HostIfKept (s u : State) : Prop where
  hostMem : u.hostMem = s.hostMem
  cores : u.cores = s.cores
  net : u.net = s.net
  fault : u.fault = s.fault
  pwr : u.pwr = s.pwr
  safety : u.safety = s.safety
  body : u.body = s.body
  accord : u.accord = s.accord
  ringm : u.ringm = s.ringm
  det : u.det = s.det
  warm : u.warm = s.warm
  fl : u.world.fl = s.world.fl
  index : u.world.index = s.world.index
  pool : u.world.pool = s.world.pool
  hazards : u.world.hazards = s.world.hazards

/-- Changing the frame in progress changes nothing but the frame block. -/
theorem modFrame_eq (g : Frame → Frame) (s : State) : modFrame g s = { s with frame := (modFrame g s).frame } := by
  unfold modFrame
  split <;> rfl

/-- A reset of the host interface changes the frame in progress after everything else it resets. -/
theorem hostIfReset_spec (s : State) :
    HostIfCleared s (hostIfReset s) ∧ HostIfKept s (hostIfReset s) ∧ (hostIfReset s).pcie.perst = s.pcie.perst := by
  unfold hostIfReset
  rw [modFrame_eq]
  refine ⟨⟨rfl, fun p hp => ?ctxs, rfl, rfl, rfl, rfl, rfl, rfl, rfl, rfl, rfl⟩,
    ⟨rfl, rfl, rfl, rfl, rfl, rfl, rfl, rfl, rfl, rfl, rfl, rfl, rfl, rfl, rfl⟩, rfl⟩
  case ctxs =>
    obtain ⟨c, -, rfl⟩ := List.mem_map.1 hp
    rfl

theorem endpointReset_head (hh : s.chain.head = true) : endpointReset s = hostIfReset s := if_pos hh

theorem endpointReset_downstream (hh : s.chain.head = false) : endpointReset s = s := if_neg (by simp [hh])

/-- PERST_N is asserted, and the REFCLK monitor is off meanwhile (15 R458). -/
abbrev perstAsserted (s : State) : State := { s with pcie := { s.pcie with perst := true }, clk := { s.clk with refclkMon := false } }

theorem HostIfCleared.perstAsserted (h : HostIfCleared s u) : HostIfCleared s (perstAsserted u) := { h with }

theorem HostIfKept.perstAsserted (h : HostIfKept s u) : HostIfKept s (perstAsserted u) := { h with }

theorem exec_perstN_live (hs : Live s) : exec (.perstN t) s = .next (perstAsserted (endpointReset (atDt t s))) := by
  change execPerstN t s = _
  rw [execPerstN, runAt_live hs]

theorem exec_hotReset_live (hs : Live s) : exec (.hotReset t) s = .next (endpointReset (atDt t s)) := runAt_live hs t _

theorem exec_functionLevelReset_live (hs : Live s) : exec (.functionLevelReset t) s = .next (endpointReset (atDt t s)) := runAt_live hs t _

theorem exec_perstNRelease_live (hs : Live s) : exec (.perstNRelease t) s = .next { atDt t s with
    pcie := { s.pcie with perst := false }, clk := { s.clk with refclkMon := s.chain.head, refclk := s.chain.head } } := by
  change execPerstNRelease t s = _
  rw [execPerstNRelease, runAt_live hs]
  rfl

/-- The three resets do the same on the unit whose endpoint they reach; PERST_N alone stays asserted. -/
theorem exec_hostReset_head {c : Instr} (hs : Live s) (hh : s.chain.head = true)
    (hc : c = .perstN t ∨ c = .hotReset t ∨ c = .functionLevelReset t) : ∃ u, exec c s = .next u ∧ HostIfCleared s u ∧
      HostIfKept (atDt t s) u ∧ u.pcie.perst = if c = .perstN t then true else s.pcie.perst := by
  have hreset : endpointReset (atDt t s) = hostIfReset (atDt t s) := endpointReset_head hh
  obtain ⟨hcleared, hkept, hperst⟩ := hostIfReset_spec (atDt t s)
  have hcleared : HostIfCleared s (hostIfReset (atDt t s)) := { hcleared with }
  obtain rfl | rfl | rfl := hc
  · exact ⟨_, by rw [exec_perstN_live hs, hreset], hcleared.perstAsserted, hkept.perstAsserted, (if_pos rfl).symm⟩
  · exact ⟨_, by rw [exec_hotReset_live hs, hreset], hcleared, hkept, hperst.trans (if_neg nofun).symm⟩
  · exact ⟨_, by rw [exec_functionLevelReset_live hs, hreset], hcleared, hkept, hperst.trans (if_neg nofun).symm⟩

/-- Settles O14: the three resets on the unit with the endpoint, on the others, and the release of PERST_N. -/
theorem hostInterfaceResets : Obligations.HostInterfaceResets := by
  unfold Obligations.HostInterfaceResets
  refine fun t s hs => ⟨fun c hh hc => ?head, fun hh => ?downstream, exec_perstNRelease_live hs⟩
  case head =>
    obtain ⟨u, hu, h, k, hperst⟩ := exec_hostReset_head hs hh hc
    exact ⟨u, hu, h.pollEn, h.ctxs, h.taken, h.waiting, h.work, h.opts, h.netRuns, h.fwd, h.cfg, h.msixOut, h.cause, hperst,
      k.hostMem, k.cores, k.net, k.fault, k.pwr, k.safety, k.body, k.accord, k.ringm, k.det, k.warm, k.fl, k.index, k.pool, k.hazards⟩
  case downstream =>
    have hno : endpointReset (atDt t s) = atDt t s := endpointReset_downstream hh
    rw [exec_hotReset_live hs, exec_functionLevelReset_live hs, exec_perstN_live hs, hno]
    exact ⟨rfl, rfl, rfl⟩

end Sys2Proof.Machine
end

section
/-! SUPPORT. DIAG: the row of an `op`, READ, WRITE and SNAPSHOT of an accepted descriptor, and the answer of another unit (09 R317, 10 R343, R345), and
the statement about them (O53). -/

namespace Sys2Proof.Machine

/-! ## The row of an `op` -/

section Row

variable {d : Taken} {v : View} {op : Nat} {x : Fail} {errs : List (Nat × Bytes)} {s : State}

/-- The checks that every DIAG passes (09 R304, R323); WRITE needs CONTROL. -/
abbrev diagRule (op : Nat) : KindRule := { code := 0x0D, control := op == 1, anyStack := true }

/-- A DIAG meets its own checks in its `op`'s row; an unknown `op` meets them in READ's. -/
theorem diag_own (ha : Admits (diagRule op) d s) (hop : fld d 0x1C 1 = op ∨ (op = 0 ∧ 2 < fld d 0x1C 1)) (k : State → State) :
    diag d v op s k = .next (withChecks d (diagChecks d) (accepted d v s) k) := by
  rw [diag, if_neg (fun h => hop.elim h.2.1 h.2.2), acceptDesc_next ha]

theorem diag_pass (ha : Admits (diagRule op) d s) (hop : fld d 0x1C 1 = op) (hck : firstFail (diagChecks d) = none) (k : State → State) :
    diag d v op s k = .next (k (accepted d v s)) := by
  rw [diag_own ha (.inl hop), withChecks_pass hck]

theorem exec_diagRead_refused (ha : Admits (diagRule 0) d s) (hop : fld d 0x1C 1 = 0 ∨ 2 < fld d 0x1C 1)
    (hck : firstFail (diagChecks d) = some x) : exec (.diagRead d v errs) s = .next (refuse d x (accepted d v s)) := by
  refine (diag_own ha (hop.imp id fun h => ⟨rfl, h⟩) (diagReadTo d errs)).trans ?_
  rw [withChecks_fail hck]

theorem exec_diagRead_accepted (ha : Admits (diagRule 0) d s) (hop : fld d 0x1C 1 = 0) (hck : firstFail (diagChecks d) = none) :
    exec (.diagRead d v errs) s = .next (diagReadTo d errs (accepted d v s)) := diag_pass ha hop hck _

theorem exec_diagWrite_accepted (ha : Admits (diagRule 1) d s) (hop : fld d 0x1C 1 = 1) (hck : firstFail (diagChecks d) = none) :
    exec (.diagWrite d v errs) s = .next (diagWriteFrom d v errs (accepted d v s)) := diag_pass ha hop hck _

/-- The object of an accepted SNAPSHOT. -/
abbrev snapshotOf (d : Taken) (s : State) : Bytes := snapshotBytes (fld d 0x1D 1) s

theorem exec_diagSnapshot_accepted (ha : Admits (diagRule 2) d s) (hop : fld d 0x1C 1 = 2) (hck : firstFail (diagChecks d) = none) :
    exec (.diagSnapshot d v) s = .next (
      if fld d 0x18 4 < (snapshotOf d (accepted d v s)).length then
        refuse d (tooSmall (snapshotOf d (accepted d v s)).length) (accepted d v s)
      else diagOk d (hostWrite (takenId d) (accepted d v s) (fld d 0x10 8) (snapshotOf d (accepted d v s)))) := diag_pass ha hop hck _

end Row

/-! ## READ and WRITE -/

section Transfer

variable {d : Taken} {v : View} {code a n e : Nat} {b : Bytes} {errs : List (Nat × Bytes)} {s : State}

/-- The port towards the unit that the address names (10 R342). -/
abbrev portTo (s : State) (a : Nat) : Nat := if s.chain.unit < addrUnit a then 1 else 0

/-- The link of port `p` is up (10 R343). -/
abbrev linkUp (s : State) (p : Nat) : Prop := (portOf s p).state = 2 ∨ (portOf s p).state = 3

/-- The DIAG waits for the answer to the request that it has sent (10 R345). -/
abbrev diagAsked (d : Taken) (code a n : Nat) (b : Bytes) (s : State) : State :=
  sendFlit (portTo s a) (.op .diag s.chain.unit s.nextWid code a 0 0 n b [])
    (addWork (mkWork d 0 (.diag (code == 0) (fld d 0x10 8) (addrUnit a)) s) s)

theorem diagSend_up (h : linkUp s (portTo s a)) : diagSend d code a n b s = diagAsked d code a n b s := by
  rw [diagSend]
  exact if_neg fun hn => h.elim hn.1 hn.2

theorem diagSend_down (h : ¬ linkUp s (portTo s a)) :
    diagSend d code a n b s = complete (takenHdr d) 0x21 0 (portSrc (portTo s a) 2) 0 none s := by
  rw [diagSend]
  exact if_pos (not_or.1 h)

/-- The address of a READ or WRITE. -/
abbrev devAddr (d : Taken) : Nat := fld d 8 8

/-- The bytes that a READ or WRITE moves. -/
abbrev devLen (d : Taken) : Nat := fld d 0x18 4

theorem diagReadTo_addrError (h : diagAddrError s (devAddr d) (devLen d) = some e) :
    diagReadTo d errs s = diagFault d e (devAddr d) s := by
  unfold diagReadTo
  dsimp only
  rw [h]

theorem diagReadTo_away (h : diagAddrError s (devAddr d) (devLen d) = none) (hu : addrUnit (devAddr d) ≠ s.chain.unit) :
    diagReadTo d errs s = diagSend d 1 (devAddr d) (devLen d) [] s := by
  unfold diagReadTo
  dsimp only
  rw [h]
  exact if_pos hu

/-- The end of a READ in this unit, by the first poisoned range of what it read (14 R435). -/
theorem diagReadTo_here (h : diagAddrError s (devAddr d) (devLen d) = none) (hu : addrUnit (devAddr d) = s.chain.unit) :
    let found := codedRead s (devAddr d) (devLen d) errs
    let z := sillageEvents found.2.2 s
    (found.2.1 = [] → diagReadTo d errs s = diagOk d (hostWrite (takenId d) z (fld d 0x10 8) found.1)) ∧
    (∀ g l, found.2.1 = g :: l → diagReadTo d errs s = complete (takenHdr d) 0x21 0 g.2.2 0 none z) := by
  intro found z
  unfold diagReadTo
  dsimp only
  rw [h]
  dsimp only
  rw [if_neg (not_not_intro hu)]
  refine ⟨fun hp => ?_, fun g l hp => ?_⟩ <;> rw [show (codedRead s (devAddr d) (devLen d) errs).2.1 = _ from hp] <;> rfl

theorem beyondChain_eq_true_iff : beyondChain s a = true ↔ addrUnit a ≠ s.chain.unit ∧ s.chain.unitCount ≤ addrUnit a := by
  simp [beyondChain]

theorem diagWriteFrom_beyond (h : beyondChain s (devAddr d) = true) : diagWriteFrom d v errs s = diagFault d 153 (devAddr d) s := if_pos h

theorem diagWriteFrom_misplaced (h : beyondChain s (devAddr d) = false) (hst : inStaging s (devAddr d) (devLen d) = false) :
    diagWriteFrom d v errs s = refuse d (badField 8) s := by
  simp [diagWriteFrom, h, hst]

theorem diagWriteFrom_placed (h : beyondChain s (devAddr d) = false) (hst : inStaging s (devAddr d) (devLen d) = true) :
    diagWriteFrom d v errs s = withRead d v (fld d 0x10 8) (devLen d) s fun b s =>
      if addrUnit (devAddr d) = s.chain.unit then diagOk d (codedWrite (devAddr d) b errs s)
      else diagSend d 0 (devAddr d) (devLen d) b s := by
  simp [diagWriteFrom, h, hst]

end Transfer

/-! ## The answer of another unit -/

section Answer

variable {w : Work} {buf x k : Nat} {wr : Bool} {b : Bytes} {ps : List (Nat × Nat × Nat)} {z : State}

theorem diagAnswer_clean (h : w.item = .diag wr buf k) : diagAnswer w x false b [] z =
    finishWork w 0 (susFlag z) 0 0 none (if wr then z else hostWrite w.id z buf b) := by
  simp [diagAnswer, h]

theorem diagAnswer_poisoned {g : Nat × Nat × Nat} {l : List (Nat × Nat × Nat)} (h : w.item = .diag wr buf k) :
    diagAnswer w x false b (g :: l) z = finishWork w 0x21 0 g.2.2 0 none z := by
  simp [diagAnswer, h]

theorem diagAnswer_error (h : w.item = .diag wr buf k) : diagAnswer w x true b ps z =
    if wr then finishWork w 0x10 0 8 0xFFFFFFFF none z else finishWork w 0x21 0 100 0 none (raise 100 x x z) := by
  simp [diagAnswer, h]

end Answer

/-- Settles O53: an accepted READ, SNAPSHOT and WRITE, then the answers (`diag` is a function of the model). -/
theorem diagOps : Obligations.Diag := by
  unfold Obligations.Diag
  intro d v errs s a p n port beyond up asked cut found
  have hchain : a.chain = s.chain := accepted_chain d v s
  have hport : portTo a p = port := by rw [portTo, hchain]
  have hup : linkUp a (portTo a p) ↔ up := by rw [hport, linkUp, portOf, hchain]; rfl
  have hsent (code : Nat) (b : Bytes) (h : up) : diagSend d code p n b a = asked code b := by
    rw [diagSend_up (hup.2 h), diagAsked, hport, hchain]
  have hcut (code : Nat) (b : Bytes) (h : ¬ up) : diagSend d code p n b a = cut := by rw [diagSend_down fun h' => h (hup.1 h'), hport]
  refine ⟨fun ha => ⟨fun x hop hck => exec_diagRead_refused ha hop hck, fun hop hck => ?read, fun hop hck => ?snapshot⟩,
    fun ha hop hck => ?write, fun w buf x k b ps z => ?answer⟩
  case read =>
    rw [exec_diagRead_accepted ha hop hck]
    refine ⟨fun e he => congrArg _ (diagReadTo_addrError he), fun he hu hp => congrArg _ ((diagReadTo_here he (hchain ▸ hu)).1 hp),
      fun g l he hu hp => congrArg _ ((diagReadTo_here he (hchain ▸ hu)).2 g l hp), fun he hu hl => ?_, fun he hu hl => ?_⟩
    · rw [diagReadTo_away he (hchain ▸ hu), hsent 1 [] hl]
    · rw [diagReadTo_away he (hchain ▸ hu), hcut 1 [] hl]
  case snapshot =>
    rw [exec_diagSnapshot_accepted ha hop hck]
    exact ⟨fun h => by rw [if_neg (Nat.not_lt.2 h)], fun h => by rw [if_pos h]⟩
  case write =>
    have hbeyond : beyondChain a p = true ↔ beyond := by rw [beyondChain_eq_true_iff, hchain]
    have hnot (h : ¬ beyond) : beyondChain a p = false := Bool.eq_false_iff.2 fun h' => h (hbeyond.1 h')
    rw [exec_diagWrite_accepted ha hop hck]
    refine ⟨fun h => congrArg _ (diagWriteFrom_beyond (hbeyond.2 h)), fun h hst => congrArg _ (diagWriteFrom_misplaced (hnot h) hst),
      fun b h hst hb hu => ?here, fun b h hst hb hu => ?away, fun h hst hb => ?unread⟩
    case here => rw [diagWriteFrom_placed (hnot h) hst, withRead_some hb, if_pos (hchain ▸ hu)]
    case away =>
      rw [diagWriteFrom_placed (hnot h) hst, withRead_some hb, if_neg (hchain ▸ hu)]
      exact ⟨fun hl => by rw [hsent 0 b hl], fun hl => by rw [hcut 0 b hl]⟩
    case unread => rw [diagWriteFrom_placed (hnot h) hst, withRead_none hb]
  case answer =>
    refine ⟨diagAnswer_clean, fun wr g l h hp => ?_, diagAnswer_error, diagAnswer_clean, diagAnswer_error⟩
    rw [hp, diagAnswer_poisoned h]

end Sys2Proof.Machine
end

section
/-! SUPPORT. Remote operations: when one may issue, and what becomes of one that leaves the unit or fails (10 R342, 11 R349 to R356), and
the statement about them (O43). -/

namespace Sys2Proof.Machine

variable {src : OpSrc} {t code a v c n l p e : Nat} {core : CoreId} {data : Bytes} {ps : List (Nat × Nat × Nat)}
  {errs : List (Nat × Bytes)} {s : State}

/-! ## When an operation may issue -/

/-- A core that runs with fewer than 64 outstanding operations, a pair in service, and every other source (11 R356, 12 R376). -/
abbrev SourceRuns (src : OpSrc) (s : State) : Prop :=
  (∀ k, src = .core k → coreReady s k = true ∧ (coreSt s k).out < 64) ∧ (∀ p, src = .pair p → p ∉ s.safety.pairsOut)

theorem mayIssue_eq_true (h : SourceRuns src s) (hc : code ≠ 6 ∨ src ∉ s.cores.outW) : mayIssue src code s = true := by
  obtain ⟨hcore, hpair⟩ := h
  have horder : (!(code == 6 && s.cores.outW.contains src)) = true := by
    rcases hc with hc | hc <;> simp [hc]
  unfold mayIssue
  rw [horder, Bool.and_true]
  cases src with
  | core k => simp [hcore k rfl]
  | pair p => simp [hpair p rfl]
  | diag => rfl
  | selfTest => rfl

theorem mayIssue_core_stopped (h : coreReady s core = false ∨ 64 ≤ (coreSt s core).out) : mayIssue (.core core) code s = false := by
  rcases h with h | h <;> simp [mayIssue, h]

theorem mayIssue_pair_out (h : p ∈ s.safety.pairsOut) : mayIssue (.pair p) code s = false := by
  simp [mayIssue, h]

/-- A SIGNAL waits for the PUTs and atomics of its source (11 R353). -/
theorem mayIssue_signal_behind (h : src ∈ s.cores.outW) : mayIssue src 6 s = false := by
  simp [mayIssue, h]

/-! ## The three ways of an operation that does not take effect here -/

/-- Bytes of memory that an operation moves or works on. -/
abbrev opLen (code n : Nat) : Nat := if code ≤ 1 then n else 8

theorem doOp_stalled (h : mayIssue src code s = false) : doOp src code a v c n l data ps errs s = s := by
  have hstall : (!mayIssue src code s) = true := by simp [h]
  unfold doOp
  rw [if_pos hstall]

theorem doOp_failed (hm : mayIssue src code s = true) (he : addrError s src code a (opLen code n) l = some e) :
    doOp src code a v c n l data ps errs s = addressError src e a l (returned code n) s := by
  have hgo : ¬ (!mayIssue src code s) = true := by simp [hm]
  unfold doOp
  rw [if_neg hgo]
  dsimp only
  rw [he]

theorem doOp_away (hm : mayIssue src code s = true) (he : addrError s src code a (opLen code n) l = none) (hu : addrUnit a ≠ s.chain.unit) :
    doOp src code a v c n l data ps errs s = remoteOp src code a v c n l data ps s := by
  have hgo : ¬ (!mayIssue src code s) = true := by simp [hm]
  unfold doOp
  rw [if_neg hgo]
  dsimp only
  rw [he]
  exact if_pos hu

/-! ## What a PUT carries -/

/-- A read without errors delivers what memory holds. -/
theorem codedRead_clean (s : State) (a n : Nat) : codedRead s a n [] = (devRead s a n, poisonRead s a n [], []) := by
  have hdata : sillageData a [] (devRead s a n) = devRead s a n := List.zipIdx_map_fst _ _
  change (sillageData a [] (devRead s a n), _) = _
  rw [hdata]
  rfl

theorem putData_core (h : localOk (.core core) 0 n l = true) :
    putData (.core core) n l data [] s = (devRead s (coreAddr core l) n, poisonRead s (coreAddr core l) n [], []) := by
  rw [← codedRead_clean]
  exact if_pos h

/-- An operation whose address is in order has its issuer's end in order too (11 R350). -/
theorem localOk_of_addrError_eq_none (h : addrError s src code a n l = none) : localOk src code n l = true := by
  by_contra hl
  have hshape : shapeOk src code a n l = false := by rw [shapeOk, Bool.eq_false_iff.2 hl, Bool.and_false]
  rw [addrError, hshape] at h
  split at h <;> simp at h

theorem exec_put_live (hs : Live s) : exec (.put t src a n l data [] errs) s = .next (
    if !mayIssue src 0 (atDt t s) then atDt t s
    else
      let x := putData src n l data [] (atDt t s)
      doOp src 0 a 0 0 n l x.1 x.2.1 errs (sillageEvents x.2.2 (atDt t s))) := by
  change execPut t src a n l data [] errs s = _
  rw [execPut, runAt_live hs]

theorem exec_put_stalled (hs : Live s) (hm : mayIssue src 0 (atDt t s) = false) :
    exec (.put t src a n l data [] errs) s = .next (atDt t s) := by
  rw [exec_put_live hs, if_pos (by simp [hm])]

/-- What a PUT reads without errors raises no event. -/
theorem exec_put_clean (hs : Live s) (hm : mayIssue src 0 (atDt t s) = true) {b : Bytes}
    (hd : putData src n l data [] (atDt t s) = (b, ps, [])) :
    exec (.put t src a n l data [] errs) s = .next (doOp src 0 a 0 0 n l b ps errs (atDt t s)) := by
  rw [exec_put_live hs, if_neg (by simp [hm]), hd]
  rfl

theorem exec_get_live (hs : Live s) : exec (.get t src a n l errs) s = .next (doOp src 1 a 0 0 n l [] [] errs (atDt t s)) := runAt_live hs t _

theorem exec_atomicAdd_live (hs : Live s) : exec (.atomicAdd t src a v l errs) s = .next (doOp src 2 a v 0 8 l [] [] errs (atDt t s)) :=
  runAt_live hs t _

theorem exec_atomicMax_live {b : Bool} (hs : Live s) :
    exec (.atomicMax t src a v l b errs) s = .next (doOp src (if b then 4 else 3) a v 0 8 l [] [] errs (atDt t s)) := runAt_live hs t _

theorem exec_atomicCas_live (hs : Live s) : exec (.atomicCas t src a c v l errs) s = .next (doOp src 5 a v c 8 l [] [] errs (atDt t s)) :=
  runAt_live hs t _

theorem exec_signal_live (hs : Live s) : exec (.signal t src a v errs) s = .next (doOp src 6 a v 0 8 0 [] [] errs (atDt t s)) :=
  runAt_live hs t _

/-! ## Operations that leave the unit -/

/-- Of the seven codes all but GET and SIGNAL hold back a SIGNAL that follows (11 R353). -/
theorem ordersSignal_iff (h : code < 7) : ordersSignal code = true ↔ ¬ (code = 1 ∨ code = 6) := by
  have hall : ∀ k < 7, ordersSignal k = true ↔ ¬ (k = 1 ∨ k = 6) := by decide
  exact hall code h

/-! ## Address errors -/

/-- An address error of a source without memory of its own is an event and no more (11 R349). -/
theorem addressError_hub (hcore : ∀ k, src ≠ .core k) (hpair : ∀ p, src ≠ .pair p) : addressError src e a l n s = raise e a a s := by
  have hdeliver (x : OpAnswer) : deliver src l x s = s := by
    unfold deliver
    cases src with
    | core k => exact absurd rfl (hcore k)
    | pair p => exact absurd rfl (hpair p)
    | diag => exact ite_self _
    | selfTest => exact ite_self _
  unfold addressError
  rw [hdeliver, ite_self]
  cases src with
  | core k => exact absurd rfl (hcore k)
  | pair p => exact absurd rfl (hpair p)
  | diag => rfl
  | selfTest => rfl

/-- The word that a failed atomic was to return to its core is ones, poisoned by the source of the error; the sequencer stops and its work aborts
(11 R349). -/
theorem addressError_core_word : addressError (.core core) e a l 8 s =
    let x := if localOk (.core core) 1 8 l = true then
        addPoison (keyWrite s (coreAddr core l) (List.replicate 8 255)) (coreAddr core l) 8 e else s
    abortOwner core e (raise e a a (setCore core { coreSt s core with stopped := true } x)) := by
  unfold addressError
  cases hl : localOk (.core core) 1 8 l <;> rfl

/-- Settles O43: an operation that may issue leaves the unit or fails by its address, and one that may not issue changes nothing. -/
theorem remoteOperationsElsewhere : Obligations.RemoteOperationsElsewhere := by
  unfold Obligations.RemoteOperationsElsewhere
  intro t addr v c n l src data errs s hs u issued gone sent stalls
  have hstalls (h : ∀ code, mayIssue src code u = false) : stalls :=
    ⟨exec_put_stalled hs (h 0), by rw [exec_get_live hs, doOp_stalled (h 1)], by rw [exec_atomicAdd_live hs, doOp_stalled (h 2)],
      fun b => by rw [exec_atomicMax_live hs, doOp_stalled (h _)], by rw [exec_atomicCas_live hs, doOp_stalled (h 5)],
      by rw [exec_signal_live hs, doOp_stalled (h 6)]⟩
  have hgone {code : Nat} (hc : code < 7) (v c n l : Nat) (b : Bytes) (ps : List (Nat × Nat × Nat)) :
      remoteOp src code addr v c n l b ps u = gone code v c n l b ps := by
    have hiff := ordersSignal_iff hc
    by_cases hq : code = 1 ∨ code = 6
    · have ho : ordersSignal code = false := Bool.eq_false_iff.2 fun ho => hiff.1 ho hq
      simp only [remoteOp, gone, issued, ho, if_pos hq]
      cases src <;> rfl
    · have ho : ordersSignal code = true := hiff.2 hq
      simp only [remoteOp, gone, issued, ho, if_neg hq]
      cases src <;> rfl
  refine ⟨fun hcore hpair => ?runs, fun k hk h => ?coreStopped, fun p hp h => ?pairOut⟩
  case coreStopped =>
    subst hk
    exact hstalls fun _ => mayIssue_core_stopped h
  case pairOut =>
    subst hp
    exact hstalls fun _ => mayIssue_pair_out h
  case runs =>
    have hruns : SourceRuns src u := ⟨hcore, hpair⟩
    have hmay {code : Nat} (h : code ≠ 6) : mayIssue src code u = true := mayIssue_eq_true hruns (.inl h)
    refine ⟨fun hu => ?away, fun h => ?signalBehind, fun e he hnc hnp => ?failedHub, fun e k he hk => ?failedCore⟩
    case away =>
      have leaves {code v c n l : Nat} {b : Bytes} {ps : List (Nat × Nat × Nat)} (hc : code < 7) (hm : mayIssue src code u = true)
          (he : addrError u src code addr (opLen code n) l = none) : doOp src code addr v c n l b ps errs u = gone code v c n l b ps := by
        rw [doOp_away hm he hu, hgone hc]
      refine ⟨fun he => ?put, fun he => ?get, fun he => ?add, fun he => ?max, fun he => ?maxSigned, fun he => ?cas, fun hw he => ?signal⟩
      case put =>
        have hdata : putData src n l data [] u = (sent.1, sent.2, []) := by
          cases src with
          | core k => exact putData_core (localOk_of_addrError_eq_none he)
          | _ => rfl
        rw [exec_put_clean hs (hmay (by decide)) hdata, leaves (by decide) (hmay (by decide)) he]
      case get => rw [exec_get_live hs, leaves (by decide) (hmay (by decide)) he]
      case add => rw [exec_atomicAdd_live hs, leaves (by decide) (hmay (by decide)) he]
      case max => exact (exec_atomicMax_live hs).trans (congrArg _ (leaves (by decide) (hmay (by decide)) he))
      case maxSigned => exact (exec_atomicMax_live hs).trans (congrArg _ (leaves (by decide) (hmay (by decide)) he))
      case cas => rw [exec_atomicCas_live hs, leaves (by decide) (hmay (by decide)) he]
      case signal => rw [exec_signal_live hs, leaves (by decide) (mayIssue_eq_true hruns (.inr hw)) he]
    case signalBehind => rw [exec_signal_live hs, doOp_stalled (s := u) (mayIssue_signal_behind (s := u) h)]
    case failedHub => rw [exec_atomicAdd_live hs, doOp_failed (hmay (by decide)) he, addressError_hub hnc hnp]
    case failedCore =>
      subst hk
      rw [exec_atomicAdd_live hs, doOp_failed (hmay (by decide)) he]
      exact congrArg _ addressError_core_word

end Sys2Proof.Machine
end

section
/-! SUPPORT. Enumeration: the token's check, ENUM_START, the start flit, the token, the reports and the timeout (10 R333 to R337), and the statement
about them (O47). -/

namespace Sys2Proof.Machine

/-! ## The token -/

/-- A token passes the check of its own generation, and none with one bit flipped does (10 R334). -/
theorem tokenOk_tokenByte : ∀ addr < 16, ∀ gen < 8,
    tokenOk (tokenByte addr gen) gen = true ∧ ∀ i < 8, tokenOk (tokenByte addr gen ^^^ 2 ^ i) gen = false := by decide +kernel

section Enumeration

variable {t gen byte addr grade fw : Nat} {last ovf : Bool} {s : State}

/-! ## ENUM_START -/

/-- What refuses a start (10 R333): the chain enumerates or syncs, or a context of another unit is in use. -/
abbrev EnumRefused (s : State) : Prop :=
  s.chain.state = 1 ∨ s.chain.state = 2 ∨ s.hostq.ctxs.any (fun x => x.2.unit != 0 && x.2.state != 0) = true

/-- ENUM_START has been taken, and OVERFLOW is clear (10 R333). -/
abbrev enumTaken (s : State) : State := { s with chain := { s.chain with overflow := false } }

theorem writeEnumStart_downstream (hh : s.chain.head = false) : writeEnumStart s = s := by
  simp [writeEnumStart, hh]

theorem writeEnumStart_refused (hh : s.chain.head = true) (h : EnumRefused s) :
    writeEnumStart s = { s with chain := { s.chain with refused := true } } := by
  rw [writeEnumStart, hh]
  exact if_pos h

theorem writeEnumStart_taken (hh : s.chain.head = true) (h : ¬ EnumRefused s) : writeEnumStart s =
    if frameRunning s then { s with chain := { s.chain with overflow := false, enumPending := true } } else beginEnum (enumTaken s) := by
  rw [writeEnumStart, hh]
  exact if_neg h

theorem exec_enumStart_live (hs : Live s) : exec (.enumStart t) s = .next (writeEnumStart (atDt t s)) := runAt_live hs t _

/-! ## The start flit and the token -/

theorem exec_enumerationStartFlit_live (hs : Live s) : exec (.enumerationStartFlit t gen) s = .next (takeStartFlit gen (atDt t s)) :=
  runAt_live hs t _

theorem takeStartFlit_head (hh : s.chain.head = true) : takeStartFlit gen s = s := if_pos hh

theorem takeStartFlit_downstream (hh : s.chain.head = false) : takeStartFlit gen s = sendFlit 1 (.startFlit gen) { s with chain := { s.chain with
    addressed := false, unit := 0, unitCount := 1, gen := gen % 8, state := 1, aligned := false, pulses := [], announce := none, pulse := none } } :=
  if_neg (by simp [hh])

/-- A unit takes a token (10 R334, R335): one down the chain that has no address and expects one, if the token is good and an address is left. -/
abbrev TokenTaken (byte : Nat) (s : State) : Prop :=
  s.chain.head = false ∧ s.chain.addressed = false ∧ s.chain.state = 1 ∧ tokenOk byte s.chain.gen = true ∧ byte % 16 + 1 ≤ 7

/-- The unit has the address `a`, passes it on and reports with its grade and firmware version, and tells whether it has recorded a fault (10 R335,
R345). -/
abbrev unitNamed (a : Nat) (s : State) : State :=
  let down := s.chain.dn.state == 0 || s.chain.dn.state == 4
  let last := a == 7 || down
  let ovf := a == 7 && (s.chain.dn.state == 2 || s.chain.dn.state == 3)
  let v : State := { s with chain := { s.chain with
    unit := a, addressed := true, state := 2, tokensOut := s.chain.tokensOut ++ [tokenByte a s.chain.gen],
    reportsUp := s.chain.reportsUp ++ [{ addr := a, last := last, overflow := ovf, grade := s.grade, fw := s.boot.fwVersion }],
    unitCount := a + 1 } }
  sendFlit 0 (.remoteFault a (faultN v)) (sendFlit 0 (.report a last ovf s.grade s.boot.fwVersion) v)

theorem exec_enumToken_live (hs : Live s) : exec (.enumToken t byte) s = .next (
    if s.chain.head = true ∨ s.chain.addressed = true ∨ s.chain.state ≠ 1 ∨ (!tokenOk byte s.chain.gen) = true then atDt t s
    else if byte % 16 + 1 > 7 then atDt t s
    else unitNamed (byte % 16 + 1) (atDt t s)) := by
  change execEnumToken t byte s = _
  rw [execEnumToken, runAt_live hs]
  rfl

theorem exec_enumToken_taken (hs : Live s) (h : TokenTaken byte s) :
    exec (.enumToken t byte) s = .next (unitNamed (byte % 16 + 1) (atDt t s)) := by
  obtain ⟨hh, ha, h1, hok, hle⟩ := h
  rw [exec_enumToken_live hs, if_neg (by simp [hh, ha, h1, hok]), if_neg (Nat.not_lt.2 hle)]

theorem exec_enumToken_ignored (hs : Live s) (h : ¬ TokenTaken byte s) : exec (.enumToken t byte) s = .next (atDt t s) := by
  rw [exec_enumToken_live hs]
  split
  · rfl
  · next hfree =>
    rw [if_pos]
    by_contra hle
    exact h (by simpa [TokenTaken, and_assoc, Nat.not_lt.1 hle] using hfree)

/-! ## Reports -/

theorem exec_enumReport_live (hs : Live s) :
    exec (.enumReport t addr last ovf grade fw) s = .next (takeReport addr last ovf grade fw (atDt t s)) := runAt_live hs t _

theorem takeReport_passed (hh : s.chain.head = false) (ha : s.chain.addressed = true) : takeReport addr last ovf grade fw s =
    sendFlit 0 (.report addr last ovf grade fw) { s with chain := { s.chain with
      reportsUp := s.chain.reportsUp ++ [{ addr := addr, last := last, overflow := ovf, grade := grade, fw := fw }],
      unitCount := max s.chain.unitCount (addr + 1) } } := by
  rw [takeReport, hh, ha]
  rfl

theorem takeReport_unaddressed (hh : s.chain.head = false) (ha : s.chain.addressed = false) : takeReport addr last ovf grade fw s = s := by
  rw [takeReport, hh, ha]
  rfl

theorem takeReport_head (hh : s.chain.head = true) : takeReport addr last ovf grade fw s =
    if s.chain.state ≠ 1 ∨ s.chain.reports.any (fun x => x.addr == addr) = true then s
    else collectReport { addr := addr, last := last, overflow := ovf, grade := grade, fw := fw } s := by
  rw [takeReport, hh]
  rfl

/-- Unit 0 takes a report that is not due, or the second of an address, no further (10 R336). -/
theorem takeReport_ignored (hh : s.chain.head = true) (h : s.chain.state ≠ 1 ∨ ∃ x ∈ s.chain.reports, x.addr = addr) :
    takeReport addr last ovf grade fw s = s := by
  rw [takeReport_head hh, if_pos (by simpa using h)]

theorem takeReport_collected (hh : s.chain.head = true) (h1 : s.chain.state = 1) (hnew : ∀ x ∈ s.chain.reports, x.addr ≠ addr) :
    takeReport addr last ovf grade fw s = collectReport { addr := addr, last := last, overflow := ovf, grade := grade, fw := fw } s := by
  rw [takeReport_head hh, if_neg (by simpa [h1] using hnew)]

/-- A report among those that unit 0 holds. -/
abbrev reportHeld (x : UnitReport) (s : State) : State := { s with chain := { s.chain with reports := s.chain.reports ++ [x] } }

theorem collectReport_plain {x : UnitReport} (h : ¬ (x.overflow = true ∧ x.addr = 7)) : collectReport x s = enumCheck (reportHeld x s) :=
  congrArg enumCheck (if_neg (by simpa using h))

theorem collectReport_overflow {x : UnitReport} (ho : x.overflow = true) (h7 : x.addr = 7) : collectReport x s =
    enumCheck (raise 150 0 0 { s with chain := { s.chain with reports := s.chain.reports ++ [x], overflow := true } }) :=
  congrArg enumCheck (if_pos (by simp [ho, h7]))

/-! ## The timeout -/

theorem exec_enumerationTimeout_live (hs : Live s) : exec (.enumerationTimeout t) s = .next (
    if (!s.chain.head) = true ∨ s.chain.state ≠ 1 ∨ (atDt t s).dt < s.chain.enumStart + 1000000 then atDt t s
    else deviceEvent (raise 151 0 0 { atDt t s with chain := { s.chain with
      unitCount := reportPrefix s.chain.reports, state := 4, syncing := decide (reportPrefix s.chain.reports > 1), syncTicks := 0 } })) := by
  change execEnumerationTimeout t s = _
  rw [execEnumerationTimeout, runAt_live hs]
  rfl

theorem exec_enumerationTimeout_early (hs : Live s)
    (h : s.chain.head = false ∨ s.chain.state ≠ 1 ∨ (atDt t s).dt < s.chain.enumStart + 1000000) :
    exec (.enumerationTimeout t) s = .next (atDt t s) := by
  rw [exec_enumerationTimeout_live hs, if_pos (h.imp_left fun hh => by simp [hh])]

/-- The last report did not come within 1 ms (10 R336). -/
theorem exec_enumerationTimeout_late (hs : Live s) (hh : s.chain.head = true) (h1 : s.chain.state = 1)
    (h : s.chain.enumStart + 1000000 ≤ (atDt t s).dt) :
    exec (.enumerationTimeout t) s = .next (deviceEvent (raise 151 0 0 { atDt t s with chain := { s.chain with
      unitCount := reportPrefix s.chain.reports, state := 4, syncing := decide (reportPrefix s.chain.reports > 1), syncTicks := 0 } })) := by
  rw [exec_enumerationTimeout_live hs, if_neg]
  rintro (hd | hn | hlt)
  · simp [hh] at hd
  · exact hn h1
  · exact Nat.not_lt.2 h hlt

end Enumeration

/-- Settles O47: the token's bytes, then each command by the state in which it finds the unit. -/
theorem chainEnumeration : Obligations.ChainEnumeration := by
  unfold Obligations.ChainEnumeration
  refine ⟨tokenOk_tokenByte, fun t gen byte addr grade fw last ovf s hs => ?_⟩
  intro u c used down refused report
  rw [exec_enumStart_live hs, exec_enumerationStartFlit_live hs, exec_enumReport_live hs]
  refine ⟨fun hh => congrArg _ (writeEnumStart_downstream hh), fun hh hr => congrArg _ (writeEnumStart_refused hh hr),
    fun hh hr hf => ?waits, fun hh hr hf => ?begins, fun hh => congrArg _ (takeStartFlit_head hh),
    fun hh => congrArg _ (takeStartFlit_downstream hh), fun h => ?tokenIgnored,
    fun hh ha h1 hok hle => exec_enumToken_taken hs ⟨hh, ha, h1, hok, hle⟩,
    fun hh ha => congrArg _ (takeReport_passed hh ha), fun hh ha => congrArg _ (takeReport_unaddressed hh ha),
    fun hh h => congrArg _ (takeReport_ignored hh h), fun hh h1 hnew hno => ?collected, fun hh h1 hnew ho h7 => ?overflow,
    exec_enumerationTimeout_late hs, exec_enumerationTimeout_early hs⟩
  case waits =>
    rw [writeEnumStart_taken (s := u) hh hr, if_pos hf]
    rfl
  case begins =>
    rw [writeEnumStart_taken (s := u) hh hr, if_neg (by simp [hf])]
    rfl
  case tokenIgnored =>
    refine exec_enumToken_ignored hs fun hk => ?_
    obtain ⟨hh, ha, h1, hok, hle⟩ := hk
    simp [c, hh, ha, h1, hok, Nat.not_lt.2 hle] at h
  case collected => exact congrArg _ ((takeReport_collected (s := u) hh h1 hnew).trans (collectReport_plain hno))
  case overflow => exact congrArg _ ((takeReport_collected (s := u) hh h1 hnew).trans (collectReport_overflow ho h7))

end Sys2Proof.Machine
end

section
/-! SUPPORT. Time and tick of the chain: the timestamp exchange, the tick announcement, and TICK_IN with the offsets that SYNCING measures (10 R339 to
R341), and the statement about them (O48). -/

namespace Sys2Proof.Machine

variable {t t1 t2 t3 t4 td frame period p : Nat} {answer : Option (Nat × Nat × Nat)} {s : State}

/-- A downstream unit with an address: it takes time and tick from the unit above it (10 R339, R340). -/
abbrev Follows (s : State) : Prop := s.chain.head = false ∧ s.chain.addressed = true

theorem idle_of_not_follows (h : s.chain.head = true ∨ s.chain.addressed = false) : s.chain.head = true ∨ (!s.chain.addressed) = true :=
  h.imp_right fun ha => by simp [ha]

theorem Follows.not_idle (h : Follows s) : ¬ (s.chain.head = true ∨ (!s.chain.addressed) = true) := by
  simp [h.1, h.2]

theorem Follows.sendFlit {port : Nat} {m : FlitMsg} (h : Follows s) : Follows (sendFlit port m s) := by
  unfold Machine.sendFlit
  split <;> exact h

/-! ## The timestamp exchange -/

/-- The unit above has been asked for its time. -/
abbrev timeAsked (s : State) : State := sendFlit 0 (.tsRequest s.dt) s

theorem takeTimestamp_follows (h : Follows s) : takeTimestamp t1 t2 t3 s =
    { s with dt := ((s.dt : Int) + roundDiv (((t2 : Int) - t1) + ((t3 : Int) - s.dt)) 2).toNat } := if_neg h.not_idle

theorem exec_timeSyncExchange_idle (hs : Live s) (h : s.chain.head = true ∨ s.chain.addressed = false) :
    exec (.timeSyncExchange t answer) s = .next (atDt t s) := by
  change execTimeSyncExchange t answer s = _
  rw [execTimeSyncExchange, runAt_live hs]
  exact congrArg _ (if_pos (idle_of_not_follows h))

theorem exec_timeSyncExchange_asks (hs : Live s) (h : Follows s) :
    exec (.timeSyncExchange t none) s = .next (timeAsked (atDt t s)) := by
  change execTimeSyncExchange t none s = _
  rw [execTimeSyncExchange, runAt_live hs]
  exact congrArg _ (if_neg h.not_idle)

theorem exec_timeSyncExchange_answered (hs : Live s) (h : Follows s) : exec (.timeSyncExchange t (some (t2, t3, t4))) s =
    .next (takeTimestamp (atDt t s).dt t2 t3 (atDt t4 (timeAsked (atDt t s)))) := by
  change execTimeSyncExchange t (some (t2, t3, t4)) s = _
  rw [execTimeSyncExchange, runAt_live hs]
  exact congrArg _ (if_neg h.not_idle)

/-- A unit answers its downstream neighbour, if that is one of the chain: unit 7 has none. -/
theorem takeFlit_tsRequest (ha : s.chain.addressed = true) (h7 : s.chain.unit ≠ 7) :
    takeFlit 1 (.tsRequest t1) [] s = sendFlit 1 (.tsReply t1 s.dt s.dt) s := by
  have hkept : dropsFlit s 1 (.tsRequest t1) = false := by simp [dropsFlit, ha, h7]
  simp [takeFlit, hkept]

/-! ## The tick announcement -/

/-- Unit 0 announces its next tick and drives TICK_OUT 2,000 ns before it (10 R340). -/
abbrev tickAnnounced (td : Nat) (s : State) : State :=
  sendFlit 1 (.announce td (nextNumber s) s.frame.periodNext) { s with chain := { s.chain with
    announce := some (td, nextNumber s, s.frame.periodNext), tickOut := s.chain.tickOut ++ [td - 2000] } }

theorem exec_tickAnnounce_live (hs : Live s) : exec (.tickAnnounce t td frame period) s = .next (
    if s.chain.head = true then
      if (atDt t s).dt + 10000 ≤ td ∧ tickDue td (atDt t s) = true then tickAnnounced td (atDt t s) else atDt t s
    else takeAnnounce td frame period (atDt t s)) := by
  change execTickAnnounce t td frame period s = _
  rw [execTickAnnounce, runAt_live hs]
  rfl

theorem exec_tickAnnounce_sent (hs : Live s) (hh : s.chain.head = true) (hle : (atDt t s).dt + 10000 ≤ td) (hd : tickDue td (atDt t s) = true) :
    exec (.tickAnnounce t td frame period) s = .next (tickAnnounced td (atDt t s)) := by
  rw [exec_tickAnnounce_live hs, if_pos hh, if_pos ⟨hle, hd⟩]

theorem exec_tickAnnounce_none (hs : Live s) (hh : s.chain.head = true)
    (h : td < (atDt t s).dt + 10000 ∨ tickDue td (atDt t s) = false) : exec (.tickAnnounce t td frame period) s = .next (atDt t s) := by
  rw [exec_tickAnnounce_live hs, if_pos hh, if_neg]
  rintro ⟨hle, hd⟩
  exact h.elim (Nat.not_lt.2 hle) (by simp [hd])

theorem takeAnnounce_follows (h : Follows s) : takeAnnounce td frame period s =
    sendFlit 1 (.announce td frame period) { s with
      chain := { s.chain with announce := some (td, frame, period) }, frame := { s.frame with periodNext := period } } := if_neg h.not_idle

theorem exec_tickAnnounce_taken (hs : Live s) (h : Follows s) :
    exec (.tickAnnounce t td frame period) s = .next (takeAnnounce td frame period (atDt t s)) := by
  rw [exec_tickAnnounce_live hs, if_neg (by simp [h.1])]

/-! ## TICK_IN -/

theorem exec_tickInPulse_live (hs : Live s) : exec (.tickInPulse t) s = .next (
    if s.chain.head = true then atDt t s
    else { atDt t s with chain := { s.chain with
      tickOut := s.chain.tickOut ++ [t], pulse := if s.chain.addressed then some t else none } }) := by
  change execTickInPulse t s = _
  rw [execTickInPulse, runAt_live hs]
  rfl

theorem pulseInTime_some (hp : s.chain.pulse = some p) :
    pulseInTime s td = true ↔ (16 * pulseDev p td - s.chain.delta).natAbs ≤ 800 := by
  rw [pulseInTime, hp]
  exact decide_eq_true_iff

theorem pulseInTime_none (hp : s.chain.pulse = none) : pulseInTime s td = false := by
  rw [pulseInTime, hp]

/-- An aligned unit measures no further offset, and a tick without a pulse gives none (10 R340). -/
theorem measurePulse_unmeasured (h : s.chain.aligned = true ∨ s.chain.pulse = none) : measurePulse td s = s := by
  rcases h with h | h
  · rw [measurePulse, h]
  · rw [measurePulse, h]
    cases s.chain.aligned <;> rfl

/-- The offsets measured so far and that of this tick's pulse. -/
abbrev offsetsTo (p td : Nat) (s : State) : List Int := s.chain.pulses ++ [pulseDev p td]

theorem measurePulse_measured (ha : s.chain.aligned = false) (hp : s.chain.pulse = some p) (hl : (offsetsTo p td s).length < 16) :
    measurePulse td s = { s with chain := { s.chain with pulses := offsetsTo p td s } } := by
  rw [measurePulse, ha, hp]
  exact if_neg (Nat.not_le.2 hl)

/-- The sixteenth offset completes the mean, and the unit is READY (10 R340). -/
theorem measurePulse_aligned (ha : s.chain.aligned = false) (hp : s.chain.pulse = some p) (hl : 16 ≤ (offsetsTo p td s).length) :
    measurePulse td s =
      { s with chain := { s.chain with pulses := [], delta := (offsetsTo p td s).foldl (· + ·) 0, aligned := true, state := 3 } } := by
  rw [measurePulse, ha, hp]
  exact if_pos hl

/-- Settles O48: the exchange, the announcement and the pulse, each by the unit that takes part; then a tick by the pulse that it has. -/
theorem chainTime : Obligations.ChainTime := by
  unfold Obligations.ChainTime
  intro t t2 t3 t4 td frame period s hs u c asked v
  refine ⟨fun x h => exec_timeSyncExchange_idle hs h, fun hh ha => ?exchange, fun t1 w ha h7 => takeFlit_tsRequest ha h7,
    exec_tickAnnounce_sent hs, exec_tickAnnounce_none hs, fun hh ha => ?announced, fun hh => ?pulseHead, fun hh => ?pulseDownstream,
    fun p hp => ?pulse, fun hp => ⟨pulseInTime_none hp, measurePulse_unmeasured (.inr hp)⟩⟩
  case exchange =>
    have hv : Follows v := Follows.sendFlit (s := u) ⟨hh, ha⟩
    refine ⟨exec_timeSyncExchange_asks hs ⟨hh, ha⟩, ?_⟩
    rw [exec_timeSyncExchange_answered hs ⟨hh, ha⟩]
    exact congrArg _ (takeTimestamp_follows hv)
  case announced =>
    rw [exec_tickAnnounce_taken hs ⟨hh, ha⟩]
    exact congrArg _ (takeAnnounce_follows ⟨hh, ha⟩)
  case pulseHead => rw [exec_tickInPulse_live hs, if_pos hh]
  case pulseDownstream => rw [exec_tickInPulse_live hs, if_neg (by simpa using hh)]
  case pulse =>
    exact ⟨pulseInTime_some hp, fun ha => measurePulse_unmeasured (.inl ha), fun ha hl => measurePulse_measured ha hp hl,
      fun ha hl => measurePulse_aligned ha hp hl⟩

end Sys2Proof.Machine
end

section
/-! SUPPORT. The links of the chain: training, the flits that arrive, and replay (10 R328 to R332, R343), and the statement about them (O49). -/

namespace Sys2Proof.Machine

variable {t port p st seq hdr status src : Nat} {code data : Bytes} {msg : FlitMsg} {errs : List (Nat × Bytes)} {s : State}

/-- A port that exists: CHN_UP of unit 0 is unused (10 R328). -/
abbrev PortUsed (s : State) (port : Nat) : Prop := port ≤ 1 ∧ ¬ (s.chain.head = true ∧ port = 0)

theorem portUsed_iff : portUsed s port = true ↔ PortUsed s port := by
  cases hh : s.chain.head <;> simp [portUsed, PortUsed, hh]

theorem portUsed_eq_false_iff : portUsed s port = false ↔ ¬ PortUsed s port := by
  rw [← portUsed_iff, Bool.not_eq_true]

/-! ## Training -/

theorem exec_linkTraining_live (hs : Live s) : exec (.linkTraining t port st) s = .next (
    if portUsed s port = true ∧ st ≤ 4 then enterLink port st (atDt t s) else atDt t s) := runAt_live hs t _

theorem exec_linkTraining_ignored (hs : Live s) (h : ¬ PortUsed s port ∨ 4 < st) :
    exec (.linkTraining t port st) s = .next (atDt t s) := by
  rw [exec_linkTraining_live hs, if_neg]
  rintro ⟨hu, hle⟩
  exact h.elim (fun hn => hn (portUsed_iff.1 hu)) (Nat.not_lt.2 hle)

theorem exec_linkTraining_used (hs : Live s) (hu : PortUsed s port) (hst : st ≤ 4) :
    exec (.linkTraining t port st) s = .next (enterLink port st (atDt t s)) := by
  rw [exec_linkTraining_live hs, if_pos ⟨portUsed_iff.2 hu, hst⟩]

theorem enterLink_up (h : st = 2 ∨ st = 3) :
    enterLink p st s = endLevel (portSrc p 2) (setPort p { portOf s p with state := st, fails := 0 } s) := by
  simp [enterLink, h]

theorem enterLink_untrained (h : (portOf s p).state = 1) (hf : (portOf s p).fails < 2) : enterLink p 0 s =
    setPort p { portOf s p with state := 0, fails := (portOf s p).fails + 1 } s := by
  simp [enterLink, h, Nat.not_le.2 hf]

/-- The third training that fails is the last (10 R330). -/
theorem enterLink_failed (h : (portOf s p).state = 1) (hf : 2 ≤ (portOf s p).fails) : enterLink p 0 s =
    setPort p { portOf s p with state := 4, fails := (portOf s p).fails + 1 } s := by
  simp [enterLink, h, hf]

/-- The condition of a link that has gone down begins (10 R330, 14 R423). -/
abbrev linkDown (p : Nat) (s : State) : State := raiseLevel (portSrc p 2) 0 0 (setPort p { portOf s p with state := 0 } s)

theorem enterLink_down (hf : (portOf s p).fails < 3) (hup : (portOf s p).state = 2 ∨ (portOf s p).state = 3) : enterLink p 0 s =
    if p = 1 then loseBeyond 0x21 (portSrc p 2) (linkDown p s)
    else abortDiags (fun k => decide (k < (linkDown p s).chain.unit)) 0x21 (portSrc p 2) (linkDown p s) := by
  have hf' : ¬ 3 ≤ (portOf s p).fails := Nat.not_le.2 hf
  rcases hup with h | h <;> simp [enterLink, h, hf']

theorem loseBeyond_head (hh : s.chain.head = true) : loseBeyond status src s = abortForwarded s.chain.unit status src s := if_pos hh

theorem loseBeyond_downstream (hh : s.chain.head = false) (ha : s.chain.addressed = true) : loseBeyond status src s =
    sendFlit 0 (.lost s.chain.unit status src) (abortDiags (fun k => decide (s.chain.unit < k)) status src s) := by
  rw [loseBeyond, hh, ha]
  rfl

/-! ## Flits that arrive -/

/-- A port that takes flits: one that is used, whose link is up (10 R331). -/
abbrev PortOpen (s : State) (port : Nat) : Prop := PortUsed s port ∧ ((portOf s port).state = 2 ∨ (portOf s port).state = 3)

theorem shut_iff : ((!portUsed s port) = true ∨ ((portOf s port).state ≠ 2 ∧ (portOf s port).state ≠ 3)) ↔ ¬ PortOpen s port := by
  rw [Bool.not_eq_true', portUsed_eq_false_iff]
  exact (or_congr_right not_or.symm).trans not_and_or.symm

theorem exec_chainFlitReceive_live (hs : Live s) :
    exec (.chainFlitReceive t port hdr code msg errs) s = .next (receiveFlit port hdr code msg errs (atDt t s)) := runAt_live hs t _

theorem receiveFlit_shut (h : ¬ PortOpen s port) : receiveFlit port hdr code msg errs s = s := by
  exact if_pos (shut_iff.2 h)

/-- The flit is delivered, and the next number is expected (10 R331). -/
abbrev flitDelivered (port : Nat) (data : Bytes) (msg : FlitMsg) (errs : List (Nat × Bytes)) (s : State) : State :=
  takeFlit port msg errs (setPort port { portOf s port with
    rxNext := (portOf s port).rxNext + 1, dropping := false, rx := (portOf s port).rx ++ [(data, msg)] } s)

theorem acceptFlit_expected (h : hdr = flitHeader (portOf s port).rxNext msg) :
    acceptFlit port hdr data msg errs s = flitDelivered port data msg errs s := if_neg (not_not_intro h)

theorem acceptFlit_unexpected (h : hdr ≠ flitHeader (portOf s port).rxNext msg) :
    acceptFlit port hdr data msg errs s = discardFlit port hdr s := if_pos h

/-- A replay is asked for once, from the number expected; that flit, when it is the one that is bad again, is asked for again (10 R331, R332). -/
theorem discardFlit_asks (h : (portOf s port).dropping = false ∨ hdr % 16 = (portOf s port).rxNext % 16) : discardFlit port hdr s =
    sendFlit port (.replayFrom (portOf s port).rxNext) (setPort port { portOf s port with dropping := true } s) :=
  if_neg (by rcases h with h | h <;> simp [h])

theorem discardFlit_drops (hd : (portOf s port).dropping = true) (h : hdr % 16 ≠ (portOf s port).rxNext % 16) : discardFlit port hdr s = s :=
  if_pos (by simp [hd, h])

theorem receiveFlit_clean (h : PortOpen s port) (hc : sillageDecode code = .clean) :
    receiveFlit port hdr code msg errs s = acceptFlit port hdr (code.take 32) msg errs s := by
  rw [receiveFlit, if_neg fun hshut => shut_iff.1 hshut h, hc]

theorem receiveFlit_corrected (h : PortOpen s port) (hc : sillageDecode code = .corrected data) :
    receiveFlit port hdr code msg errs s = acceptFlit port hdr data msg errs (raise (portSrc port 0) 0 hdr s) := by
  rw [receiveFlit, if_neg fun hshut => shut_iff.1 hshut h, hc]

theorem receiveFlit_uncorrectable (h : PortOpen s port) (hc : sillageDecode code = .uncorrectable) :
    receiveFlit port hdr code msg errs s = discardFlit port hdr s := by
  rw [receiveFlit, if_neg fun hshut => shut_iff.1 hshut h, hc]

/-- A flit that is not delivered: its code cannot be corrected, or its header is not the one expected (10 R331). -/
theorem receiveFlit_bad (h : PortOpen s port) (hbad : sillageDecode code = .uncorrectable ∨
    (sillageDecode code = .clean ∧ hdr ≠ flitHeader (portOf s port).rxNext msg)) :
    receiveFlit port hdr code msg errs s = discardFlit port hdr s := by
  rcases hbad with hc | ⟨hc, hne⟩
  · exact receiveFlit_uncorrectable h hc
  · rw [receiveFlit_clean h hc, acceptFlit_unexpected hne]

/-! ## Replay -/

/-- The replays of the flit `seq` with this request (10 R332). -/
abbrev replayCount (x : Port) (seq : Nat) : Nat := if x.replaySeq = seq then x.replays + 1 else 1

/-- The kept flits from `seq` on, in order (10 R332). -/
abbrev replayed (x : Port) (seq : Nat) : List (Nat × FlitMsg) := x.txBuf.filter fun f => decide (seq ≤ f.1)

/-- The flits have left again. -/
abbrev sentAgain (port : Nat) (again : List (Nat × FlitMsg)) (s : State) : State :=
  { s with chain := { s.chain with flitsOut := s.chain.flitsOut ++ again.map fun f => (port, flitHeader f.1 f.2, f.2) } }

theorem exec_replayRequest_live (hs : Live s) : exec (.replayRequest t port seq) s = .next (
    let x := portOf s port
    if (!portUsed s port) = true then atDt t s
    else if replayCount x seq > 8 then
      enterLink port 4 (setPort port { x with replays := replayCount x seq, replaySeq := seq } (atDt t s))
    else raise (portSrc port 1) 0 seq (sentAgain port (replayed x seq)
      (setPort port { x with replays := replayCount x seq, replaySeq := seq, resent := replayed x seq } (atDt t s)))) := by
  change execReplayRequest t port seq s = _
  rw [execReplayRequest, runAt_live hs]
  rfl

theorem exec_replayRequest_unused (hs : Live s) (h : ¬ PortUsed s port) : exec (.replayRequest t port seq) s = .next (atDt t s) := by
  rw [exec_replayRequest_live hs]
  exact congrArg _ (if_pos (by simpa using portUsed_eq_false_iff.2 h))

theorem exec_replayRequest_replays (hs : Live s) (h : PortUsed s port) (hn : replayCount (portOf s port) seq ≤ 8) :
    exec (.replayRequest t port seq) s = .next (raise (portSrc port 1) 0 seq (sentAgain port (replayed (portOf s port) seq)
      (setPort port { portOf s port with
        replays := replayCount (portOf s port) seq, replaySeq := seq, resent := replayed (portOf s port) seq } (atDt t s)))) := by
  rw [exec_replayRequest_live hs]
  refine congrArg _ ((if_neg (by simpa using portUsed_iff.2 h)).trans ?_)
  exact if_neg (Nat.not_lt.2 hn)

theorem exec_replayRequest_fails (hs : Live s) (h : PortUsed s port) (hn : 8 < replayCount (portOf s port) seq) :
    exec (.replayRequest t port seq) s = .next (enterLink port 4 (setPort port { portOf s port with
      replays := replayCount (portOf s port) seq, replaySeq := seq } (atDt t s))) := by
  rw [exec_replayRequest_live hs]
  refine congrArg _ ((if_neg (by simpa using portUsed_iff.2 h)).trans ?_)
  exact if_pos hn

/-- Settles O49: a change of a link's state by the state that it leaves, a flit by the outcome of its code and header, and a replay request by the
number of replays. -/
theorem chainLinks : Obligations.ChainLinks := by
  unfold Obligations.ChainLinks
  intro t port st seq hdr code msg errs s hs u x used isOpen good n
  have enters {k : Nat} {w : State} (hu : used) (hk : k ≤ 4) (h : enterLink port k u = w) : exec (.linkTraining t port k) s = .next w :=
    (exec_linkTraining_used hs hu hk).trans (congrArg _ h)
  rw [exec_chainFlitReceive_live hs]
  refine ⟨exec_linkTraining_ignored hs, fun hu hst => enters hu (by omega) (enterLink_up hst),
    fun hu h1 hf => enters hu (by decide) (enterLink_failed h1 hf), fun hu h1 hf => enters hu (by decide) (enterLink_untrained h1 hf),
    fun hu h0 hf hst => ?upstreamDown, fun h1 hf hst => ?downstreamDown, fun status src v => ⟨loseBeyond_head, loseBeyond_downstream⟩,
    fun h => congrArg _ (receiveFlit_shut h), fun ho hc hh => ?delivered, fun b ho hc => congrArg _ (receiveFlit_corrected (s := u) ho hc),
    fun ho hbad hd => ?asked, fun ho hbad hd hh => ?dropped, exec_replayRequest_unused hs, exec_replayRequest_replays hs,
    exec_replayRequest_fails hs⟩
  case upstreamDown =>
    subst h0
    exact enters hu (by decide) (enterLink_down hf hst)
  case downstreamDown =>
    subst h1
    exact enters (by simp [used]) (by decide) (enterLink_down hf hst)
  case delivered => exact congrArg _ ((receiveFlit_clean (s := u) ho hc).trans (acceptFlit_expected hh))
  case asked => exact congrArg _ ((receiveFlit_bad (s := u) ho hbad).trans (discardFlit_asks hd))
  case dropped => exact congrArg _ ((receiveFlit_bad (s := u) ho hbad).trans (discardFlit_drops hd hh))

end Sys2Proof.Machine
end

section
/-! SUPPORT. Register accesses to another unit: what starts one and what ends it (10 R344, 17 R516), and the statement about them (O50). -/

namespace Sys2Proof.Machine

/-! ## An access -/

section Access

variable {t v : Nat} {answer val : Option Nat} {k : State → State} {s : State}

/-- The access has left for its unit, and is busy until the answer (10 R344). -/
abbrev raccAsked (val : Option Nat) (s : State) : State :=
  sendFlit 1 (.racc s.chain.raccUnit s.chain.raccOffset val) { s with chain := { s.chain with raccBusy := true, raccStart := s.dt } }

/-- Neither a downstream unit nor a unit whose access is busy starts one. -/
theorem raccStart_idle (h : s.chain.head = false ∨ s.chain.raccBusy = true) : raccStart s val k = s := by
  rw [raccStart, if_pos (by simpa using h)]

theorem raccStart_ready (hh : s.chain.head = true) (hb : s.chain.raccBusy = false) : raccStart s val k =
    if s.chain.unitCount ≤ s.chain.raccUnit then { s with chain := { s.chain with raccErr := true } }
    else if s.chain.raccUnit = 0 then k s
    else raccAsked val s := by
  rw [raccStart, if_neg (by simp [hh, hb])]

theorem raccStart_beyond (hh : s.chain.head = true) (hb : s.chain.raccBusy = false) (h : s.chain.unitCount ≤ s.chain.raccUnit) :
    raccStart s val k = { s with chain := { s.chain with raccErr := true } } := by
  rw [raccStart_ready hh hb, if_pos h]

theorem raccStart_own (hh : s.chain.head = true) (hb : s.chain.raccBusy = false) (h : s.chain.raccUnit < s.chain.unitCount)
    (h0 : s.chain.raccUnit = 0) : raccStart s val k = k s := by
  rw [raccStart_ready hh hb, if_neg (Nat.not_le.2 h), if_pos h0]

theorem raccStart_away (hh : s.chain.head = true) (hb : s.chain.raccBusy = false) (h : s.chain.raccUnit < s.chain.unitCount)
    (h0 : s.chain.raccUnit ≠ 0) : raccStart s val k = raccAsked val s := by
  rw [raccStart_ready hh hb, if_neg (Nat.not_le.2 h), if_neg h0]

theorem raccAnswer_busy (hb : s.chain.raccBusy = true) :
    raccAnswer val s = { s with chain := { s.chain with raccBusy := false, raccData := val.getD s.chain.raccData } } := by
  simp [raccAnswer, hb]

/-! ### The commands -/

theorem exec_raccRead_live (hs : Live s) : exec (.raccRead t answer) s = .next (
    if s.chain.raccBusy || answer.isNone then raccRead (atDt t s) else raccAnswer answer (raccRead (atDt t s))) := by
  change execRaccRead t answer s = _
  rw [execRaccRead, runAt_live hs]
  rfl

theorem exec_raccWrite_live {answered : Bool} (hs : Live s) : exec (.raccWrite t answered) s = .next (
    if s.chain.raccBusy || !answered then raccWrite (atDt t s) else raccAnswer none (raccWrite (atDt t s))) := by
  change execRaccWrite t answered s = _
  rw [execRaccWrite, runAt_live hs]
  rfl

theorem exec_raccTimeout_live (hs : Live s) : exec (.raccTimeout t) s = .next (
    if s.chain.raccBusy ∧ s.chain.raccStart + 10000 ≤ (atDt t s).dt then
      { atDt t s with chain := { s.chain with raccBusy := false, raccErr := true } }
    else atDt t s) := runAt_live hs t _

theorem exec_raccRead_unanswered (hs : Live s) : exec (.raccRead t none) s = .next (raccRead (atDt t s)) := by
  rw [exec_raccRead_live hs, if_pos (by simp)]

theorem exec_raccWrite_unanswered (hs : Live s) : exec (.raccWrite t false) s = .next (raccWrite (atDt t s)) := by
  rw [exec_raccWrite_live hs, if_pos (by simp)]

theorem exec_raccRead_answered (hs : Live s) (hb : s.chain.raccBusy = false) :
    exec (.raccRead t (some v)) s = .next (raccAnswer (some v) (raccRead (atDt t s))) := by
  rw [exec_raccRead_live hs, if_neg (by simp [hb])]

theorem exec_raccWrite_answered (hs : Live s) (hb : s.chain.raccBusy = false) :
    exec (.raccWrite t true) s = .next (raccAnswer none (raccWrite (atDt t s))) := by
  rw [exec_raccWrite_live hs, if_neg (by simp [hb])]

theorem exec_raccTimeout_late (hs : Live s) (hb : s.chain.raccBusy = true) (h : s.chain.raccStart + 10000 ≤ (atDt t s).dt) :
    exec (.raccTimeout t) s = .next { atDt t s with chain := { s.chain with raccBusy := false, raccErr := true } } := by
  rw [exec_raccTimeout_live hs, if_pos ⟨hb, h⟩]

theorem exec_raccTimeout_early (hs : Live s) (h : s.chain.raccBusy = false ∨ (atDt t s).dt < s.chain.raccStart + 10000) :
    exec (.raccTimeout t) s = .next (atDt t s) := by
  rw [exec_raccTimeout_live hs, if_neg]
  rintro ⟨hb, hlate⟩
  exact h.elim (by simp [hb]) (Nat.not_lt.2 hlate)

end Access

/-- Settles O50: what `raccStart` does in each of its four cases, the answer to an access that has left, and the timeout. -/
theorem remoteRegisterAccess : Obligations.RemoteRegisterAccess := by
  unfold Obligations.RemoteRegisterAccess
  intro t v s hs u c sent
  rw [exec_raccRead_unanswered hs, exec_raccWrite_unanswered hs]
  refine ⟨fun h => ?idle, fun hh hb h => ?beyond, fun hh hb h h0 => ?own, fun hh hb h h0 => ?away, exec_raccTimeout_late hs,
    exec_raccTimeout_early hs⟩
  case idle => exact ⟨congrArg _ (raccStart_idle h), congrArg _ (raccStart_idle h)⟩
  case beyond => exact ⟨congrArg _ (raccStart_beyond hh hb h), congrArg _ (raccStart_beyond hh hb h)⟩
  case own => exact ⟨⟨_, congrArg _ (raccStart_own hh hb h h0), rfl⟩, congrArg _ (raccStart_own hh hb h h0)⟩
  case away =>
    have hread : raccRead u = sent none := raccStart_away hh hb h h0
    have hwrite : raccWrite u = sent (some c.raccData) := raccStart_away hh hb h h0
    have hbusy (val : Option Nat) : (sent val).chain.raccBusy = true := rfl
    rw [hread, hwrite]
    refine ⟨rfl, rfl, ⟨_, exec_raccRead_answered hs hb, ?_⟩, ⟨_, exec_raccWrite_answered hs hb, ?_⟩⟩
    · rw [show raccRead (atDt t s) = _ from hread, raccAnswer_busy (hbusy _)]
      exact ⟨rfl, rfl⟩
    · rw [show raccWrite (atDt t s) = _ from hwrite, raccAnswer_busy (hbusy _)]
      exact ⟨rfl, rfl⟩

end Sys2Proof.Machine
end

section
/-! SUPPORT. A write of the package's memory, the effect of a remote operation in its own unit (11 R350 to R355, 15 R447, R448), and the statement
about both (O42). -/

namespace Sys2Proof.Machine

/-! ## A write of the package's memory -/

section KeyWrite

variable {k a i : Nat} {data : Bytes} {s : State}

theorem memRead_keyWrite_inside (hm : Memory.wf s.cores.mem = true) (hi : i < data.length) :
    memRead (keyWrite s k data).cores.mem (k + i) = data.getD i 0 :=
  (memRead_memWrites_of_mem data k i hi hm).trans (List.getD_eq_getElem _ _ hi).symm

theorem memRead_keyWrite_outside (hm : Memory.wf s.cores.mem = true) (h : a < k ∨ k + data.length ≤ a) :
    memRead (keyWrite s k data).cores.mem a = memRead s.cores.mem a := memRead_memWrites_of_not_mem data k a hm h

/-- A poisoned word stays poisoned unless the write covers it entirely (14 R435). -/
theorem mem_poison_keyWrite {p : Nat × Nat} : p ∈ (keyWrite s k data).cores.poison ↔
    p ∈ s.cores.poison ∧ ¬ (k ≤ p.1 ∧ p.1 + 8 ≤ k + data.length) := by
  refine List.mem_filter.trans (and_congr_right fun _ => ?_)
  simp only [Bool.not_eq_true', ← Bool.not_eq_true, Bool.and_eq_true, decide_eq_true_eq]

end KeyWrite

/-! ## The way of an operation to its destination -/

section Here

variable {src : OpSrc} {t code a v c n l m r o : Nat} {data : Bytes} {ps : List (Nat × Nat × Nat)} {errs : List (Nat × Bytes)} {s : State}

/-- The operation is issued, which takes a core's sequencer on by one step, and travels its route (01 R30). -/
def travels (src : OpSrc) (a m r : Nat) (s : State) : State :=
  sendOn src a m r (match src with | .core k => advance k s | _ => s)

/-- No route to the hub takes a ring link, so an operation for it takes no sequence number (01 R30, R31). -/
theorem sendOn_hub (h : placeOf a = some (.hub o)) : sendOn src a m r s = s := by
  have hend : endOfAddr a = .hub := by rw [endOfAddr, h]
  rw [sendOn, hend]
  cases src <;> rfl

theorem wordOf_travels_hub (h : placeOf a = some (.hub o)) (i : Nat) : wordOf (travels src a m r s) i = wordOf s i := by
  refine (congrArg (wordOf · i) (sendOn_hub h)).trans ?_
  cases src <;> rfl

/-- An operation that returns nothing leaves its issuer's memory alone. -/
theorem deliver_nothing : deliver src l ([], ps) s = s := rfl

/-- An operation that is allowed in its own unit has its effect there, and what it returns reaches its issuer (11 R350). -/
theorem doOp_here (hm : mayIssue src code s = true) (he : addrError s src code a (opLen code n) l = none) (hu : addrUnit a = s.chain.unit) :
    doOp src code a v c n l data ps errs s =
      let x := applyOp code a v c n data ps errs (travels src a (if code = 1 then 0 else opLen code n) (returned code n) s)
      deliver src l x.2 x.1 := by
  have hgo : ¬ (!mayIssue src code s) = true := by simp [hm]
  unfold doOp
  rw [if_neg hgo]
  dsimp only
  rw [he]
  exact if_neg (not_not_intro hu)

/-! ## The effect there, by the operation -/

/-- The word at the address takes a new value; the poison of what was read stays with it (14 R435). -/
def putWord (a : Nat) (held : Bytes × List (Nat × Nat × Nat) × List (Nat × Bytes × SillageOut)) (errs : List (Nat × Bytes)) (x : Nat) (s : State) :
    State :=
  poisonAt (keyOfAddr a) held.2.1 (codedWrite a (leBytes 8 x) errs s)

theorem applyOp_put : applyOp 0 a v c n data ps errs s = (poisonAt (keyOfAddr a) ps (codedWrite a data errs s), [], []) := rfl

theorem applyOp_get :
    let held := codedRead s a n errs
    applyOp 1 a v c n data ps errs s = (sillageEvents held.2.2 s, held.1, held.2.1) := rfl

theorem applyOp_atomic (h2 : 2 ≤ code) (h5 : code ≤ 5) :
    let held := codedRead s a 8 errs
    applyOp code a v c n data ps errs s = (putWord a held errs (atomicNew code (leNat held.1) v c) s, held.1, held.2.1) := by
  obtain rfl | rfl | rfl | rfl : code = 2 ∨ code = 3 ∨ code = 4 ∨ code = 5 := by omega
  all_goals rfl

theorem applyOp_signal_word (h : ∀ o, placeOf a ≠ some (.hub o)) :
    let held := codedRead s a 8 errs
    applyOp 6 a v c n data ps errs s = (putWord a held errs ((leNat held.1 + v) % 2 ^ 64) s, [], []) := by
  unfold applyOp
  split
  · contradiction
  · contradiction
  · exact absurd ‹_› (h _)
  · rfl

theorem applyOp_signal_hub (h : placeOf a = some (.hub o)) :
    let x := (wordOf s (o / 8) + v) % 2 ^ 64
    applyOp 6 a v c n data ps errs s =
      (ringEvent (.word (o / 8) x) { s with ringm := { s.ringm with words := insertKey (o / 8) x s.ringm.words } }, [], []) := by
  unfold applyOp
  rw [h]
  rfl

/-- An atomic operation in its own unit writes the new word and returns the old one (11 R350). -/
theorem doOp_atomic_here (h2 : 2 ≤ code) (h5 : code ≤ 5) (hm : mayIssue src code s = true) (he : addrError s src code a 8 l = none)
    (hu : addrUnit a = s.chain.unit) :
    let z := travels src a 8 8 s
    let held := codedRead z a 8 errs
    doOp src code a v c 8 l data ps errs s = deliver src l (held.1, held.2.1) (putWord a held errs (atomicNew code (leNat held.1) v c) z) := by
  have hlen : opLen code 8 = 8 := ite_self _
  have hbytes : (if code = 1 then 0 else opLen code 8) = 8 := by rw [if_neg (by omega), hlen]
  have hret : returned code 8 = 8 := by
    obtain rfl | rfl | rfl | rfl : code = 2 ∨ code = 3 ∨ code = 4 ∨ code = 5 := by omega
    all_goals rfl
  rw [doOp_here hm (hlen.symm ▸ he) hu, hbytes, hret, applyOp_atomic h2 h5]

end Here

/-- Settles O42: the equation of a write, then each operation by its effect at the end of its way. -/
theorem remoteOperations : Obligations.RemoteOperations := by
  unfold Obligations.RemoteOperations
  refine ⟨fun k data s hm => ?write, ?operations⟩
  case write =>
    exact ⟨fun i hi => memRead_keyWrite_inside hm hi, fun a ha => memRead_keyWrite_outside hm ha,
      fun p hp hc => mem_poison_keyWrite.2 ⟨hp, hc⟩, fun p hp => mem_poison_keyWrite.1 hp, rfl⟩
  case operations =>
    intro t addr v c n l src data errs s hs hu hcore hpair u w k held word put sent
    have hruns : SourceRuns src u := ⟨hcore, hpair⟩
    have hmay {code : Nat} (h : code ≠ 6) : mayIssue src code u = true := mayIssue_eq_true hruns (.inl h)
    have hsignal (h : src ∉ s.cores.outW) : mayIssue src 6 u = true := mayIssue_eq_true hruns (.inr h)
    have hatomic {code : Nat} (h2 : 2 ≤ code) (h5 : code ≤ 5) {v c : Nat} (he : addrError u src code addr 8 l = none) :
        doOp src code addr v c 8 l [] [] errs u = put (atomicNew code word v c) := doOp_atomic_here h2 h5 (hmay (by omega)) he hu
    refine ⟨fun he => ?put, fun he => ?get, fun he => ?add, fun he => ?max, fun he => ?maxSigned, fun he => ?cas, fun hq he hp => ?signal,
      fun hq he o ho => ?signalHub, fun a m b x => ⟨codedRead_clean x a m, codedWrite_nil⟩⟩
    case put =>
      have hdata : putData src n l data [] u = (sent.1, sent.2, []) := by
        cases src with
        | core k => exact putData_core (localOk_of_addrError_eq_none he)
        | _ => rfl
      rw [exec_put_clean hs (hmay (by decide)) hdata, doOp_here (hmay (by decide)) he hu, applyOp_put]
      exact congrArg _ deliver_nothing
    case get => rw [exec_get_live hs, doOp_here (hmay (by decide)) he hu, applyOp_get]; rfl
    case add => exact (exec_atomicAdd_live hs).trans (congrArg _ (hatomic (by decide) (by decide) he))
    case max => exact (exec_atomicMax_live hs).trans (congrArg _ (hatomic (by decide) (by decide) he))
    case maxSigned => exact (exec_atomicMax_live hs).trans (congrArg _ (hatomic (by decide) (by decide) he))
    case cas => exact (exec_atomicCas_live hs).trans (congrArg _ (hatomic (by decide) (by decide) he))
    case signal =>
      rw [exec_signal_live hs, doOp_here (hsignal hq) he hu, applyOp_signal_word hp]
      exact congrArg _ deliver_nothing
    case signalHub =>
      rw [exec_signal_live hs, doOp_here (hsignal hq) he hu, applyOp_signal_hub ho, wordOf_travels_hub ho]
      exact congrArg _ deliver_nothing

end Sys2Proof.Machine
end

section
/-! SUPPORT. The sequencer of a core (11 R355, R356, R362, 05 R178, R184, R200): its state after a step, FENCE, WAIT_SIGNAL, LOOP, DEADLINE and RETRY,
and the statement about them (O44). -/

namespace Sys2Proof.Machine

variable {c : CoreId} {s : State}

/-! ## The state of a sequencer -/

@[simp] theorem coreSt_setCore (c : CoreId) (x : CoreSt) (s : State) : coreSt (setCore c x s) c = x := (lookup_insert_same _ _ _ _).2

@[simp] theorem coreSt_advance (c : CoreId) (s : State) : coreSt (advance c s) c = { coreSt s c with pos := (coreSt s c).pos + 1 } :=
  coreSt_setCore _ _ _

@[simp] theorem setCore_mem (c : CoreId) (x : CoreSt) (s : State) : (setCore c x s).cores.mem = s.cores.mem := rfl

@[simp] theorem advance_mem (c : CoreId) (s : State) : (advance c s).cores.mem = s.cores.mem := rfl

theorem coreReady_running (hok : coreOk s c = true) (hrun : (coreSt s c).stopped = false) (hw : (coreSt s c).waiting = false) :
    coreReady s c = true := by
  simp [coreReady, hok, hrun, hw]

theorem coreReady_waiting (hw : (coreSt s c).waiting = true) : coreReady s c = false := by
  simp [coreReady, hw]

/-! ## FENCE and WAIT_SIGNAL -/

section Waits

variable {w thr : Nat} (hok : coreOk s c = true) (hrun : (coreSt s c).stopped = false)

/-- What the step waited for has come, so it is done (11 R355). -/
def waitOver (c : CoreId) (s : State) : State := advance c (setCore c { coreSt s c with waiting := false } s)

theorem waitOver_coreSt : coreSt (waitOver c s) c = { coreSt s c with pos := (coreSt s c).pos + 1, waiting := false } := by
  simp [waitOver]

include hok hrun

theorem fenceStep_done (h : (coreSt s c).out = 0) : fenceStep c s = waitOver c s := by
  simp [fenceStep, waitOver, hok, hrun, h]

theorem fenceStep_waits (h : (coreSt s c).out ≠ 0) : fenceStep c s = setCore c { coreSt s c with waiting := true } s := by
  simp [fenceStep, hok, hrun, h]

theorem waitStep_done (h : thr ≤ signalWord s c w) : waitStep c w thr s = waitOver c s := by
  simp [waitStep, waitOver, hok, hrun, h]

theorem waitStep_waits (h : signalWord s c w < thr) : waitStep c w thr s = setCore c { coreSt s c with waiting := true } s := by
  simp [waitStep, hok, hrun, Nat.not_le.2 h]

end Waits

/-! ## LOOP, DEADLINE and RETRY -/

section Branches

variable {start count mark inner tries k : Nat} {o : Opt}

theorem loopStep_held (h : coreReady s c = false) : loopStep c start count s = s := by
  simp [loopStep, h]

theorem deadlineStep_held (h : coreReady s c = false) : deadlineStep c inner tries s = s := by
  simp [deadlineStep, h]

theorem retryStep_held (h : coreReady s c = false) : retryStep c mark inner s = s := by
  simp [retryStep, h]

variable (hr : coreReady s c = true)
include hr

theorem loopStep_last (h : lookupD (count - 1) (coreSt s c).pos (coreSt s c).loops = 0) : loopStep c start count s =
    setCore c { coreSt s c with pos := (coreSt s c).pos + 1, loops := eraseKey (coreSt s c).pos (coreSt s c).loops } s := by
  simp [loopStep, hr, h]

theorem loopStep_again (h : lookupD (count - 1) (coreSt s c).pos (coreSt s c).loops = k + 1) : loopStep c start count s =
    setCore c { coreSt s c with pos := start, loops := insertKey (coreSt s c).pos k (coreSt s c).loops } s := by
  simp [loopStep, hr, h]

theorem deadlineStep_none (h : coreOpt s c = none) : deadlineStep c inner tries s = advance c s := by
  simp [deadlineStep, hr, h]

theorem deadlineStep_early (h : coreOpt s c = some o) (hd : deadlinePassed o s.dt = false) : deadlineStep c inner tries s = advance c s := by
  simp [deadlineStep, hr, h, hd]

theorem deadlineStep_passed (h : coreOpt s c = some o) (hd : deadlinePassed o s.dt = true) :
    deadlineStep c inner tries s = cutOpt o.wid o.idx (setOpt (atCut s o inner tries) (advance c s)) := by
  simp [deadlineStep, hr, h, hd]

theorem retryStep_passed (h : (coreSt s c).pivotFailed = false) :
    retryStep c mark inner s = setCore c { coreSt s c with pos := (coreSt s c).pos + 1, retries := 0 } s := by
  simp [retryStep, hr, h]

theorem retryStep_again (h : (coreSt s c).pivotFailed = true) (hn : (coreSt s c).retries < 2) : retryStep c mark inner s =
    setCore c { coreSt s c with pos := mark, pivotFailed := false, retries := (coreSt s c).retries + 1 } s := by
  simp [retryStep, hr, h, hn]

/-- The sequencer after the third failure: it goes on past the RETRY (05 R178). -/
abbrev retriesOver (c : CoreId) (s : State) : State :=
  setCore c { coreSt s c with pos := (coreSt s c).pos + 1, pivotFailed := false, retries := 0 } s

theorem retryStep_third_none (h : (coreSt s c).pivotFailed = true) (hn : 2 ≤ (coreSt s c).retries) (ho : coreOpt s c = none) :
    retryStep c mark inner s = retriesOver c s := by
  have ho : coreOpt (retriesOver c s) c = none := ho
  simp [retryStep, hr, h, Nat.not_lt.2 hn, ho]

theorem retryStep_third (h : (coreSt s c).pivotFailed = true) (hn : 2 ≤ (coreSt s c).retries) (ho : coreOpt s c = some o) :
    let n := cutCounts (retriesOver c s) o inner 0
    retryStep c mark inner s = setOpt
      { o with stop := some 5, stopFrame := s.frame.number, inner := o.inner + n.1, retries := o.retries + n.2 + 2 } (retriesOver c s) := by
  have ho : coreOpt (retriesOver c s) c = some o := ho
  simp [retryStep, hr, h, Nat.not_lt.2 hn, ho]

end Branches

section Exec

variable {t w thr start count inner tries mark : Nat} (hs : Live s)
include hs

theorem exec_fence_live : exec (.fence t c) s = .next (fenceStep c (atDt t s)) := runAt_live hs t _

theorem exec_waitSignal_live : exec (.waitSignal t c w thr) s = .next (waitStep c w thr (atDt t s)) := runAt_live hs t _

theorem exec_loop_live : exec (.loop t c start count) s = .next (loopStep c start count (atDt t s)) := runAt_live hs t _

theorem exec_deadline_live : exec (.deadline t c inner tries) s = .next (deadlineStep c inner tries (atDt t s)) := runAt_live hs t _

theorem exec_retry_live : exec (.retry t c mark inner) s = .next (retryStep c mark inner (atDt t s)) := runAt_live hs t _

end Exec

/-- Settles O44: the two waits by what they wait for, a sequencer that waits, then each branch by its condition. -/
theorem sequencerSteps : Obligations.SequencerSteps := by
  unfold Obligations.SequencerSteps
  intro t start count thr w mark inner tries c s hs hok hrun u x goOn stepped
  have hok : coreOk u c = true := hok
  have hrun : (coreSt u c).stopped = false := hrun
  have hover : stepped (waitOver c u) := ⟨waitOver_coreSt, rfl, rfl⟩
  rw [exec_fence_live hs, exec_waitSignal_live hs, exec_loop_live hs, exec_deadline_live hs, exec_retry_live hs]
  refine ⟨fun h => ⟨_, congrArg _ (fenceStep_done hok hrun h), hover⟩, fun h => congrArg _ (fenceStep_waits hok hrun h),
    fun h => ⟨_, congrArg _ (waitStep_done hok hrun h), hover⟩, fun h => congrArg _ (waitStep_waits hok hrun h),
    fun h => ?waiting, fun h => ?running⟩
  case waiting =>
    have hr : coreReady u c = false := coreReady_waiting h
    exact ⟨congrArg _ (loopStep_held hr), congrArg _ (deadlineStep_held hr), congrArg _ (retryStep_held hr)⟩
  case running =>
    have hr : coreReady u c = true := coreReady_running hok hrun h
    exact ⟨fun h => congrArg _ (loopStep_last hr h), fun k h => congrArg _ (loopStep_again hr h),
      fun h => congrArg _ (deadlineStep_none hr h), fun o h hd => congrArg _ (deadlineStep_early hr h hd),
      fun o h hd => congrArg _ (deadlineStep_passed hr h hd), fun h => congrArg _ (retryStep_passed hr h),
      fun h hn => congrArg _ (retryStep_again hr h hn), fun h hn => ⟨fun ho => congrArg _ (retryStep_third_none hr h hn ho),
        fun o ho => congrArg _ (retryStep_third hr h hn ho)⟩⟩

end Sys2Proof.Machine
end

section
/-! SUPPORT. The ENGINE step (11 R358, R361, R362, 14 R435): the ranges that an operation touches, what it writes into its core's memory, a poisoned
operand, and the statement about them (O45). -/

namespace Sys2Proof.Machine

variable {c : CoreId} {mask : List Bool} {op : EngineOp} {errs : List (Nat × Bytes)} {s : State}

/-! ## The ranges of an operation -/

/-- The range lies in a core's memory, or is empty (11 R358). -/
abbrev InCore (r : Nat × Nat) : Prop := r.2 = 0 ∨ r.1 + r.2 ≤ 786432

theorem outOfCore_eq_true_iff {r : Nat × Nat} : outOfCore r = true ↔ ¬ InCore r := by
  simp [outOfCore, InCore]

theorem find?_outOfCore_eq_none {l : List (Nat × Nat)} (h : ∀ r ∈ l, InCore r) : l.find? outOfCore = none :=
  List.find?_eq_none.2 fun r hr hout => outOfCore_eq_true_iff.1 hout (h r hr)

theorem find?_outOfCore_some {l : List (Nat × Nat)} (h : ¬ ∀ r ∈ l, InCore r) : ∃ r ∈ l, 786432 < r.1 + r.2 ∧ l.find? outOfCore = some r := by
  obtain ⟨r, hr⟩ : ∃ r, l.find? outOfCore = some r := by
    refine Option.ne_none_iff_exists'.1 fun hnone => h fun r hr => ?_
    by_contra hout
    exact List.find?_eq_none.1 hnone r hr (outOfCore_eq_true_iff.2 hout)
  have hout : ¬ InCore r := outOfCore_eq_true_iff.1 (List.find?_some hr)
  exact ⟨r, List.mem_of_find?_eq_some hr, by omega, hr⟩

/-! ## Writes into a core's memory -/

/-- The fields that name the core are in their ranges (11 R346). -/
structure OnPackage (c : CoreId) : Prop where
  die : c.die < 4
  cluster : c.cluster < 16
  core : c.core < 8

theorem onPackage_of_coreReady (h : coreReady s c = true) : OnPackage c := by
  simp only [coreReady, coreOk, Bool.and_eq_true, decide_eq_true_eq] at h
  obtain ⟨⟨⟨⟨⟨⟨⟨hdie, hcluster⟩, hcore⟩, -⟩, -⟩, -⟩, -⟩, -⟩ := h
  exact ⟨hdie, hcluster, hcore⟩

/-- An offset in a core's memory leaves the bits of the address that name its unit at 0 (11 R346). -/
theorem keyOfAddr_coreAddr (hc : OnPackage c) {off : Nat} (h : off < 2 ^ 50) : keyOfAddr (coreAddr c off) = coreAddr c off := by
  obtain ⟨hdie, hcluster, hcore⟩ := hc
  refine Nat.mod_eq_of_lt ?_
  unfold coreAddr
  omega

theorem codedWrite_core (hc : OnPackage c) {off : Nat} {b : Bytes} (h : InCore (off, b.length)) : ∃ d p,
    codedWrite (coreAddr c off) b [] s =
      { s with cores := { s.cores with mem := memWrites s.cores.mem (coreAddr c off) b, dirMem := d, poison := p } } := by
  have hmem : memWrites s.cores.mem (keyOfAddr (coreAddr c off)) b = memWrites s.cores.mem (coreAddr c off) b := by
    cases b with
    | nil => rw [memWrites, memWrites]
    | cons x b => rw [keyOfAddr_coreAddr hc (by simp only [InCore, List.length_cons] at h; omega)]
  rw [codedWrite_nil, keyWrite, hmem]
  exact ⟨_, _, rfl⟩

/-- Byte strings at offsets of a core's memory, one after the other. -/
abbrev coreWrites (c : CoreId) (ws : List (Nat × Bytes)) (m : List Host.Cell) : List Host.Cell :=
  ws.foldl (fun m w => memWrites m (coreAddr c w.1) w.2) m

theorem foldl_codedWrite_core (hc : OnPackage c) (ws : List (Nat × Bytes)) (hin : ∀ w ∈ ws, InCore (w.1, w.2.length)) (s : State) : ∃ d p,
    ws.foldl (fun s w => codedWrite (coreAddr c w.1) w.2 [] s) s =
      { s with cores := { s.cores with mem := coreWrites c ws s.cores.mem, dirMem := d, poison := p } } := by
  induction ws generalizing s with
  | nil => exact ⟨_, _, rfl⟩
  | cons w ws ih =>
    obtain ⟨d, p, hw⟩ := codedWrite_core (s := s) hc (hin w List.mem_cons_self)
    rw [List.foldl_cons, hw]
    exact ih (fun w hw => hin w (List.mem_cons_of_mem _ hw)) _

/-- The core's state after an operation: its counts, the pivot test and the slots staged (11 R361, R362). -/
abbrev countedBy (op : EngineOp) (o : EOut) (x : CoreSt) : CoreSt :=
  { x with sat := x.sat + o.sat, range := x.range + o.range, pivotFailed := o.pivot.getD x.pivotFailed, staged := stagedAfter op x.staged }

theorem errsFrom_nil (off : Nat) : errsFrom off [] = [] := rfl

theorem engineWrites_clean (hc : OnPackage c) {o : EOut} (hin : ∀ w ∈ o.writes, InCore (w.1, w.2.length)) : ∃ d p,
    engineWrites c op o [] s = setCore c (countedBy op o (coreSt s c))
      { s with cores := { s.cores with mem := coreWrites c o.writes s.cores.mem, dirMem := d, poison := p } } := by
  obtain ⟨d, p, hw⟩ := foldl_codedWrite_core hc o.writes hin s
  refine ⟨d, p, ?_⟩
  simp only [engineWrites, errsFrom_nil, hw]
  rfl

/-! ## The step -/

/-- The ranges that an operation reads, without empty ones. -/
abbrev operandRanges (s : State) (c : CoreId) (mask : List Bool) (op : EngineOp) : List (Nat × Nat) :=
  (engineReads s c mask op).filter (fun r => r.2 != 0)

/-- The ranges that an operation reads and writes. -/
abbrev engineRanges (s : State) (c : CoreId) (mask : List Bool) (op : EngineOp) : List (Nat × Nat) :=
  operandRanges s c mask op ++ (engineOut s c mask op).writes.map (fun w => (w.1, w.2.length))

/-- The source of the first poisoned operand (14 R435). -/
abbrev operandPoison (s : State) (c : CoreId) (mask : List Bool) (op : EngineOp) : Option Nat :=
  (operandRanges s c mask op).findSome? fun r => poisonIn s (coreAddr c r.1) r.2

theorem engineStep_held (h : coreReady s c = false) : engineStep c mask op errs s = s := by
  simp [engineStep, h]

theorem engineStep_outside (hr : coreReady s c = true) {r : Nat × Nat} (h : (engineRanges s c mask op).find? outOfCore = some r) :
    engineStep c mask op errs s = addressError (.core c) 100 (coreAddr c r.1) 0 0 s := by
  rw [engineStep, if_neg (by simp [hr])]
  dsimp only
  rw [h]

/-- Without errors in memory the poison of the operands alone decides (14 R435). -/
theorem engineStep_inside (hr : coreReady s c = true) (h : (engineRanges s c mask op).find? outOfCore = none) :
    engineStep c mask op [] s = match operandPoison s c mask op with
      | some i => consumePoison c i (advance c s)
      | none => engineWrites c op (engineOut s c mask op) [] (advance c s) := by
  rw [engineStep, if_neg (by simp [hr])]
  dsimp only
  rw [h]
  rfl

theorem exec_engine_live {t : Nat} (hs : Live s) : exec (.engine t c mask op errs) s = .next (engineStep c mask op errs (atDt t s)) :=
  runAt_live hs t _

/-- A certification that consumes poisoned data fails its frame (14 R435). -/
theorem consumePoison_certifying {src : Nat} {f : Frame} (h : certifying s c = true) (hf : s.frame.cur = some f) :
    consumePoison c src s = withCur { f with certFail := true } s := by
  rw [consumePoison, if_pos h, modFrame_some hf]

/-- Settles O45: a core that cannot run, a range outside its memory, then the poison of the operands decides; last the certification. -/
theorem engineSteps : Obligations.EngineSteps := by
  unfold Obligations.EngineSteps
  intro t c mask op errs s hs u reads o ranges poison within
  rw [exec_engine_live hs, exec_engine_live hs]
  refine ⟨fun h => congrArg _ (engineStep_held (s := u) h), fun hr h => ?outside, fun hr h src hp => ?poisoned, fun hr h hp => ?clean,
    fun src v hcert ⟨f, hf⟩ => ⟨_, congrArg (·.frame.cur) (consumePoison_certifying hcert hf), rfl⟩⟩
  case outside =>
    obtain ⟨r, hmem, hlt, hfind⟩ := find?_outOfCore_some h
    exact ⟨r, hmem, hlt, congrArg _ (engineStep_outside (s := u) hr hfind)⟩
  case poisoned =>
    have hp : operandPoison u c mask op = some src := hp
    rw [engineStep_inside (s := u) hr (find?_outOfCore_eq_none h), hp]
  case clean =>
    have hp : operandPoison u c mask op = none := hp
    have hin (w : Nat × Bytes) (hw : w ∈ o.writes) : InCore (w.1, w.2.length) :=
      h _ (List.mem_append_right _ (List.mem_map_of_mem hw))
    obtain ⟨d, p, hv⟩ := engineWrites_clean (op := op) (s := advance c u) (onPackage_of_coreReady hr) hin
    rw [engineStep_inside (s := u) hr (find?_outOfCore_eq_none h), hp]
    refine ⟨_, congrArg _ hv, rfl, ?_⟩
    rw [coreSt_setCore, coreSt_advance]
    exact ⟨rfl, rfl, rfl, rfl, rfl, rfl, rfl, rfl, rfl, rfl, rfl⟩

end Sys2Proof.Machine
end

section
/-! SUPPORT. What every command does: it runs at its DT and does nothing on a unit held in reset, or it is one of the four rows of the power block that
act under a hold (16 R472, R485, 18 R538). The statements about every command and every step (O1, O5, O6, O7). -/

namespace Sys2Proof.Machine

/-! ## The queue -/

/-- Settles O1: the two cases of `step`. -/
theorem stepOfTheQueue : Obligations.StepOfTheQueue := by
  unfold Obligations.StepOfTheQueue
  exact ⟨fun c rest s hp => step_of_pending_cons hp, fun s hp => step_of_pending_nil hp⟩

/-- Settles O5: the queue is no part of the collector or of the power block, and every command keeps the ranges of both. -/
theorem rangesKeptByStep : Obligations.RangesKeptByStep := by
  unfold Obligations.RangesKeptByStep
  intro s u hsrcs hlimit h
  obtain ⟨rest, hk⟩ := step_keeps h
  exact ⟨hk.srcs hsrcs, hk.limit hlimit⟩

/-! ## Every command -/

/-- The outcome is an effect that runs at a DT: a unit held in reset has none (`runAt`). -/
def RunsAtDt (s : State) (o : Out) : Prop := ∃ t f, o = runAt t s f

section RunsAtDt

variable {s : State} {d : Taken} {v : View} {op : Nat} {k : State → State}

theorem runsAtDt_runAt (t : Nat) (f : State → State) : RunsAtDt s (runAt t s f) := ⟨t, f, rfl⟩

theorem runsAtDt_acceptDesc (r : KindRule) : RunsAtDt s (acceptDesc d v r s k) := runsAtDt_runAt _ _

theorem runsAtDt_netControl : RunsAtDt s (netControl d v op s k) := by
  unfold netControl
  split
  · exact runsAtDt_runAt _ _
  · exact runsAtDt_acceptDesc _

theorem runsAtDt_unitControl : RunsAtDt s (unitControl d v op s k) := by
  unfold unitControl
  split
  · exact runsAtDt_runAt _ _
  · exact runsAtDt_acceptDesc _

theorem runsAtDt_diag : RunsAtDt s (diag d v op s k) := by
  unfold diag
  split
  · exact runsAtDt_runAt _ _
  · exact runsAtDt_acceptDesc _

theorem runsAtDt_kernelCmd (t p : Nat) (c : KCmd) (a0 a1 : Nat) : RunsAtDt s (kernelCmd t p c a0 a1 s) := runsAtDt_runAt _ _

end RunsAtDt

/-- The four rows of the power block that act on a unit held in reset. -/
inductive ActsUnderHold : Instr → Prop
  | pwrOkFall (t : Nat) : ActsUnderHold (.pwrOkFall t)
  | pwrOkRise (t : Nat) (low : List Nat) : ActsUnderHold (.pwrOkRise t low)
  | supplyReset (t r : Nat) : ActsUnderHold (.supplyReset t r)
  | railRecovered (t r : Nat) : ActsUnderHold (.railRecovered t r)

/-- Every command runs at its DT, but for the four rows that act under a hold. -/
theorem exec_cases (c : Instr) (s : State) : ActsUnderHold c ∨ RunsAtDt s (exec c s) := by
  cases c with
  | pwrOkFall t => exact .inl (.pwrOkFall t)
  | pwrOkRise t low => exact .inl (.pwrOkRise t low)
  | supplyReset t r => exact .inl (.supplyReset t r)
  | railRecovered t r => exact .inl (.railRecovered t r)
  | configure | fire | release | heartbeat => exact .inr runsAtDt_netControl
  | unitDisable | unitFence | unitRestore => exact .inr runsAtDt_unitControl
  | diagRead | diagWrite | diagSnapshot => exact .inr runsAtDt_diag
  | mapIngest | mapPrimitives | mapHazard | bodyLoad | accordLoad | frameRun | solve | check | select | tensorRun =>
    right; simp only [exec]; exact runsAtDt_acceptDesc _
  | create | resume | suspend | delete | switch | setPrio | setPair | wakeThread | readEntry =>
    exact .inr (runsAtDt_kernelCmd _ _ _ _ _)
  | _ => right; simp only [exec]; exact runsAtDt_runAt _ _

/-- A row that acts under a hold answers a next state too. -/
theorem ActsUnderHold.answers {c : Instr} (h : ActsUnderHold c) (s : State) : ∃ u, exec c s = .next u := by
  cases h with
  | pwrOkFall t => exact ⟨_, rfl⟩
  | pwrOkRise t low =>
    change ∃ u, execPwrOkRise t low s = .next u
    unfold execPwrOkRise
    split
    · exact ⟨_, rfl⟩
    · split <;> exact ⟨_, rfl⟩
  | supplyReset t r =>
    change ∃ u, execSupplyReset t r s = .next u
    unfold execSupplyReset
    split <;> exact ⟨_, rfl⟩
  | railRecovered t r =>
    change ∃ u, execRailRecovered t r s = .next u
    unfold execRailRecovered
    split <;> exact ⟨_, rfl⟩

theorem exec_answers (c : Instr) (s : State) : ∃ u, exec c s = .next u := by
  rcases exec_cases c s with h | ⟨t, f, h⟩
  · exact h.answers s
  · rw [h]
    exact runAt_next t s f

/-- Settles O6: a command that runs at its DT answers, so do the four others, and what the answer keeps is `exec_keeps`. -/
theorem everyCommandAnswers : Obligations.EveryCommandAnswers := by
  unfold Obligations.EveryCommandAnswers
  intro c s
  obtain ⟨u, hu⟩ := exec_answers c s
  have hk := exec_keeps c hu
  exact ⟨u, hu, hk.pending, hk.grade, hk.otp⟩

/-- Settles O7: a command that is none of the four runs at its DT, and `runAt` has no effect on a held unit. -/
theorem heldUnitDoesNothing : Obligations.HeldUnitDoesNothing := by
  unfold Obligations.HeldUnitDoesNothing
  intro c s hheld hfall hrise hreset hrecovered
  rcases exec_cases c s with h | ⟨t, f, h⟩
  · cases h with
    | pwrOkFall t => exact absurd rfl (hfall t)
    | pwrOkRise t low => exact absurd rfl (hrise t low)
    | supplyReset t r => exact absurd rfl (hreset t r)
    | railRecovered t r => exact absurd rfl (hrecovered t r)
  · rw [h]
    exact runAt_held hheld t f

end Sys2Proof.Machine
end

section
/-! SUPPORT. Ringmaster's state (12): what its thread table, its registers and the events of a hub cycle hold after each update, and the statements
about releases (O31) and about the tick (O32). -/

namespace Sys2Proof.Machine

/-! ## The thread table and the registers of a pair -/

section Table

variable {α : Type} {e k p q : Nat} {s : State}

theorem lookupD_eraseKey_same (d : α) (l : List (Nat × α)) : lookupD d k (eraseKey k l) = d := by
  rw [lookupD_eq_getD_lookupO, eraseKey, lookupO_eq_none fun x hx => by simpa using (List.mem_filter.1 hx).2]
  rfl

theorem lookupD_eraseKey_of_ne (h : k ≠ e) (d : α) (l : List (Nat × α)) : lookupD d k (eraseKey e l) = lookupD d k l := by
  induction l with
  | nil => rfl
  | cons x l ih =>
    rw [eraseKey, List.filter_cons]
    by_cases hx : x.1 = e
    · rw [if_neg (by simp [hx]), lookupD, if_neg (by omega)]
      exact ih
    · rw [if_pos (by simp [hx]), lookupD, lookupD]
      exact congrArg (ite _ _) ih

@[simp] theorem threadOf_setThread_same (e : Nat) (x : Thread) (s : State) : threadOf (setThread e x s) e = x := by
  by_cases hx : x = {}
  · rw [threadOf, setThread, if_pos hx, hx]
    exact lookupD_eraseKey_same _ _
  · rw [threadOf, setThread, if_neg hx]
    exact (lookup_insert_same _ _ _ _).2

theorem threadOf_setThread_of_ne (h : k ≠ e) (x : Thread) : threadOf (setThread e x s) k = threadOf s k := by
  by_cases hx : x = {}
  · rw [threadOf, setThread, if_pos hx]
    exact lookupD_eraseKey_of_ne h _ _
  · rw [threadOf, setThread, if_neg hx]
    exact lookupD_insertKey_of_ne h _ _ _

@[simp] theorem threadOf_atDt (t : Nat) (s : State) (e : Nat) : threadOf (atDt t s) e = threadOf s e := rfl
@[simp] theorem threadOf_unready (k : Nat) (s : State) (e : Nat) : threadOf (unready k s) e = threadOf s e := rfl
@[simp] theorem threadOf_noteRing (x : REvent) (s : State) (e : Nat) : threadOf (noteRing x s) e = threadOf s e := rfl
@[simp] theorem threadOf_setArgs (p a0 a1 : Nat) (s : State) (e : Nat) : threadOf (setArgs p a0 a1 s) e = threadOf s e := rfl
@[simp] theorem threadOf_setResult (p c v : Nat) (s : State) (e : Nat) : threadOf (setResult p c v s) e = threadOf s e := rfl

theorem find?_setResult_of_ne (h : q ≠ p) (c v : Nat) (s : State) :
    (setResult p c v s).ringm.results.find? (fun r => r.1 == q) = s.ringm.results.find? (fun r => r.1 == q) := by
  have hother (r : Nat × Nat × Nat) : decide ((r.1 != p) = true ∧ (r.1 == q) = true) = (r.1 == q) := by
    by_cases hr : r.1 = q
    · simp [hr, h]
    · simp [hr]
  rw [setResult, List.find?_cons_of_neg (by simpa using h.symm), List.find?_filter]
  exact congrArg (fun f => s.ringm.results.find? f) (funext hother)

end Table

/-! ## A thread that becomes READY -/

section Ready

variable {e k reason : Nat} {front : Bool} {s : State}

/-- The entry of a thread that becomes READY at DT `t` (12 R378, R380, R393). -/
def readied (reason t : Nat) (x : Thread) : Thread :=
  { x with state := 2, wakeReason := reason, timed := false, eventWord := 0xFFFF,
           releasedAt := if x.safety && (x.state == 4 || x.state == 5) then some t else x.releasedAt }

theorem threadOf_makeReady_same (e reason : Nat) (front : Bool) (s : State) :
    threadOf (makeReady e reason front s) e = readied reason s.dt (threadOf s e) :=
  threadOf_setThread_same e (readied reason s.dt (threadOf s e)) (unready e s)

theorem threadOf_makeReady_of_ne (h : k ≠ e) : threadOf (makeReady e reason front s) k = threadOf s k :=
  threadOf_setThread_of_ne (s := unready e s) h (readied reason s.dt (threadOf s e))

end Ready

/-! ## The events of one hub cycle -/

section Events

variable {e : REvent} {x : RingCycle} {l : List REvent} {s : State}

theorem ringEvent_first (h : ringCycle s = none) : ringEvent e s = applyEvent (noteRing e s) e := by
  rw [ringEvent, h]

/-- Ringmaster as it was before the events `x` of this hub cycle, with `e` noted among them (12 R392). -/
def ringAgain (e : REvent) (x : RingCycle) (s : State) : State :=
  { ringBefore x s with ringm := { (ringBefore x s).ringm with cyc := some { x with events := insertEvent e x.events } } }

theorem ringEvent_later (h : ringCycle s = some x) : ringEvent e s = (insertEvent e x.events).foldl applyEvent (ringAgain e x s) := by
  rw [ringEvent, h]
  rfl

theorem insertEvent_perm (e : REvent) (l : List REvent) : (insertEvent e l).Perm (e :: l) := by
  have hnot : (fun x => decide (eventOrder e < eventOrder x)) = fun x => !decide (eventOrder x ≤ eventOrder e) := by
    funext x
    rw [← decide_not]
    simp only [Nat.not_le]
  rw [insertEvent, List.append_assoc, hnot]
  exact List.perm_middle.trans ((List.filter_append_perm _ l).cons e)

theorem pairwise_insertEvent (h : l.Pairwise fun a b => eventOrder a ≤ eventOrder b) :
    (insertEvent e l).Pairwise fun a b => eventOrder a ≤ eventOrder b := by
  have hle {a : REvent} (ha : a ∈ l.filter fun x => decide (eventOrder x ≤ eventOrder e)) : eventOrder a ≤ eventOrder e := by
    simpa using (List.mem_filter.1 ha).2
  have hlt {b : REvent} (hb : b ∈ l.filter fun x => decide (eventOrder e < eventOrder x)) : eventOrder e < eventOrder b := by
    simpa using (List.mem_filter.1 hb).2
  rw [insertEvent, List.append_assoc, List.pairwise_append, List.singleton_append, List.pairwise_cons]
  refine ⟨h.filter _, ⟨fun b hb => (hlt hb).le, h.filter _⟩, fun a ha b hb => ?_⟩
  rcases List.mem_cons.1 hb with rfl | hb
  · exact hle ha
  · exact (hle ha).trans (hlt hb).le

end Events

/-! ## Changes of an event word -/

section EventWord

variable {t w e : Nat} {s : State}

/-- The threads that wait on an event word with a threshold that `v` has reached (12 R391). -/
abbrev metBy (w v : Nat) (s : State) : List (Nat × Thread) :=
  s.ringm.threads.filter (fun x => x.2.state == 5 && x.2.eventWord == w && decide (x.2.threshold ≤ v))

theorem wordRelease_in_order (w v : Nat) (s : State) : ∃ l : List (Nat × Thread), l.Perm (metBy w v s) ∧
    l.Pairwise (fun a b => a.2.releaseSeq ≤ b.2.releaseSeq) ∧ wordRelease w v s = l.foldl (fun v x => makeReady x.1 4 false v) s := by
  refine ⟨_, sortBy_perm _, ?_, rfl⟩
  simpa using pairwise_sortBy (le := fun (a b : Nat × Thread) => decide (a.2.releaseSeq ≤ b.2.releaseSeq))
    (fun a b => by simpa using Nat.le_total _ _) (fun a b c => by simpa using Nat.le_trans) (metBy w v s)

theorem exec_eventWordChange_live (hs : Live s) :
    exec (.eventWordChange t w) s = .next (ringEvent (.word w (wordOf s w)) (atDt t s)) := runAt_live hs t _

theorem exec_eventWordChange_first (hs : Live s) (h : ringCycle (atDt t s) = none) : exec (.eventWordChange t w) s =
    .next (wordRelease w (wordOf s w) (noteRing (.word w (wordOf s w)) (atDt t s))) := by
  rw [exec_eventWordChange_live hs, ringEvent_first h]
  rfl

end EventWord

/-! ## The latency of a SAFETY thread -/

section Latency

variable {t e r : Nat} {s : State}

theorem exec_safetyThreadLatency_late (hs : Live s) (hr : (threadOf s e).releasedAt = some r) (hsafe : (threadOf s e).safety = true)
    (hl : (threadOf s e).latencyUs ≠ 0) (hst : (threadOf s e).state ≠ 3) (hlate : r + 1000 * (threadOf s e).latencyUs < (atDt t s).dt) :
    exec (.safetyThreadLatency t e) s =
      .next (raise 10 0 e (ringSettled (setThread e { threadOf s e with releasedAt := none } (atDt t s)))) := by
  change execSafetyThreadLatency t e s = _
  rw [execSafetyThreadLatency, runAt_live hs]
  simp only [threadOf_atDt, hr]
  exact congrArg _ (if_pos ⟨hsafe, hl, hst, hlate⟩)

theorem exec_safetyThreadLatency_quiet (hs : Live s)
    (h : ∀ r, (threadOf s e).releasedAt = some r → ¬ ((threadOf s e).safety = true ∧ (threadOf s e).latencyUs ≠ 0 ∧
      (threadOf s e).state ≠ 3 ∧ r + 1000 * (threadOf s e).latencyUs < (atDt t s).dt)) :
    exec (.safetyThreadLatency t e) s = .next (atDt t s) := by
  change execSafetyThreadLatency t e s = _
  rw [execSafetyThreadLatency, runAt_live hs]
  cases hr : (threadOf s e).releasedAt with
  | none => simp only [threadOf_atDt, hr]
  | some r =>
    simp only [threadOf_atDt, hr]
    exact congrArg _ (if_neg (h r hr))

end Latency

/-- Settles O31: the table and the registers, a READY thread, the events of a hub cycle by whether they are its first, and the latency by its bound. -/
theorem threadRelease : Obligations.ThreadRelease := by
  unfold Obligations.ThreadRelease
  refine ⟨fun e k p c v a0 a1 x s => ?table, fun e reason front s => ?ready, fun t w s hs => ?word, fun t e s hs => ?latency⟩
  case table =>
    exact ⟨threadOf_setThread_same e x s, fun h => threadOf_setThread_of_ne h x, rfl, fun q hq => find?_setResult_of_ne hq c v s,
      rfl, rfl, rfl, rfl⟩
  case ready =>
    intro x v
    have hv := threadOf_makeReady_same e reason front s
    exact ⟨congrArg (·.state) hv, congrArg (·.wakeReason) hv, congrArg (·.timed) hv, congrArg (·.eventWord) hv, congrArg (·.prio) hv,
      congrArg (·.pair) hv,
      fun k hk => threadOf_makeReady_of_ne hk, rfl, rfl, rfl, rfl, rfl⟩
  case word =>
    intro u e met
    have hfirst (h : ringCycle u = none) : ∃ l : List (Nat × Thread), l.Perm met ∧ l.Pairwise (fun a b => a.2.releaseSeq ≤ b.2.releaseSeq) ∧
        exec (.eventWordChange t w) s = .next (l.foldl (fun v x => makeReady x.1 4 false v) (noteRing e u)) := by
      obtain ⟨l, hperm, hpair, hl⟩ := wordRelease_in_order w (wordOf s w) (noteRing e u)
      exact ⟨l, hperm, hpair, (exec_eventWordChange_first hs h).trans (congrArg _ hl)⟩
    refine ⟨hfirst, fun h hmet => ?_, fun x h => ⟨ringAgain e x u, ?_, rfl, rfl, rfl, rfl, rfl⟩,
      fun e l hl => ⟨pairwise_insertEvent hl, insertEvent_perm e l⟩⟩
    · obtain ⟨l, hperm, -, hl⟩ := hfirst h
      rw [hmet] at hperm
      rw [hl, hperm.eq_nil, List.foldl_nil]
    · rw [exec_eventWordChange_live hs, ringEvent_later h]
  case latency =>
    intro u x
    refine ⟨fun r hr => exec_safetyThreadLatency_late hs hr, fun h => ?_, fun r hr hle => ?_⟩
    · refine exec_safetyThreadLatency_quiet hs fun r hr ⟨hsafe, hl, hst, _⟩ => ?_
      rcases h with h | h | h | h
      · exact absurd (hr.symm.trans h) nofun
      · exact absurd (hsafe.symm.trans h) nofun
      · exact hl h
      · exact hst h
    · refine exec_safetyThreadLatency_quiet hs fun r' hr' ⟨_, _, _, hlate⟩ => ?_
      obtain rfl : r = r' := Option.some.inj (hr.symm.trans hr')
      exact absurd hlate (Nat.not_lt.2 hle)

/-! ## The tick and the admission of slices -/

section Tick

variable {t us l : Nat} {slice : Option (CUnit × Nat)} {c : CUnit} {delayed : List (Nat × Thread)} {s : State}

theorem exec_ringmasterTick_idle (hs : Live s) (h : s.ringm.running = false ∨ t % 1000 ≠ 0) :
    exec (.ringmasterTick t slice) s = .next (atDt t s) := by
  change execRingmasterTick t slice s = _
  rw [execRingmasterTick, runAt_live hs]
  dsimp only
  rw [if_pos]
  simpa using h

/-- The slice that waits for admission: the one that waits already, or else the one that the tick passes, of 25 us at most (12 R394). -/
def sliceAfter (slice : Option (CUnit × Nat)) (s : State) : Option (CUnit × Nat) :=
  match s.ringm.slice with
  | some x => some x
  | none => slice.map (fun x => (x.1, min x.2 25))

/-- The threads of the delay list whose time has come (12 R389). -/
def dueAt (us : Nat) (s : State) : List (Nat × Thread) := (delayList s).filter (fun x => decide (x.2.wakeUs ≤ us))

/-- A tick's releases: up to 32 threads, in the order of the delay list (12 R389). -/
def releaseDue (us : Nat) (s : State) : State :=
  ((dueAt us s).take 32).foldl (fun s x => makeReady x.1 (if x.2.state = 4 then 3 else 5) false s) s

/-- The rest of a tick: the threads left count as late, and the slice waits for admission. -/
abbrev tickNoted (left : Nat) (slice : Option (CUnit × Nat)) (s : State) : State :=
  { s with ringm := { s.ringm with late := min (s.ringm.late + left) 65535, slice := sliceAfter slice s } }

theorem tickNoted_nothing (hl : s.ringm.late ≤ 65535) (hn : s.ringm.slice = none) : tickNoted 0 none s = s := by
  have hslice : sliceAfter none s = s.ringm.slice := by
    rw [sliceAfter, hn]
    rfl
  rw [tickNoted, hslice, Nat.add_zero, Nat.min_eq_left hl]

theorem tickRelease_eq (us : Nat) (s : State) : tickRelease us s = { releaseDue us s with ringm :=
    { (releaseDue us s).ringm with late := min ((releaseDue us s).ringm.late + ((dueAt us s).length - 32)) 65535 } } := rfl

theorem tickRelease_noted (us : Nat) (slice : Option (CUnit × Nat)) (s : State) :
    { tickRelease us s with ringm := { (tickRelease us s).ringm with slice := sliceAfter slice (tickRelease us s) } } =
      tickNoted ((dueAt us s).length - 32) slice (releaseDue us s) := by
  rw [tickRelease_eq]
  generalize releaseDue us s = v
  rfl

theorem exec_ringmasterTick_first (hs : Live s) (hrun : s.ringm.running = true) (ht : t % 1000 = 0) (hc : ringCycle (atDt t s) = none) :
    exec (.ringmasterTick t slice) s = .next (admitSlice (t / 1000) (delayList (atDt t s))
      (tickNoted ((dueAt (t / 1000) (atDt t s)).length - 32) slice (releaseDue (t / 1000) (noteRing (.tick (t / 1000)) (atDt t s))))) := by
  change execRingmasterTick t slice s = _
  rw [execRingmasterTick, runAt_live hs]
  dsimp only
  rw [if_neg (by simp [hrun, ht]), hc, ringEvent_first hc]
  exact congrArg (fun v => (.next (admitSlice (t / 1000) (delayList (atDt t s)) v) : Out))
    (tickRelease_noted (t / 1000) slice (noteRing (.tick (t / 1000)) (atDt t s)))

theorem admitSlice_none (h : s.ringm.slice = none) : admitSlice us delayed s = s := by
  rw [admitSlice, h]

/-- A SAFETY thread is due before a slice of `l` us would end, at `us` itself too (12 R394). -/
abbrev SafetyDue (us l : Nat) (delayed : List (Nat × Thread)) : Prop :=
  ∃ x ∈ delayed, x.2.safety = true ∧ us ≤ x.2.wakeUs ∧ x.2.wakeUs ≤ us + l + 5

theorem any_safetyDue : (delayed.any fun x => x.2.safety && decide (us ≤ x.2.wakeUs) && decide (x.2.wakeUs ≤ us + l + 5)) = true ↔
    SafetyDue us l delayed := by
  simp [and_assoc]

theorem admitSlice_dropped (h : s.ringm.slice = some (c, l)) (hf : sliceFree s c = false) :
    admitSlice us delayed s = { s with ringm := { s.ringm with slice := none, deferrals := 0, starved := false } } := by
  simp only [admitSlice, h]
  rw [if_pos (by simp [hf])]

theorem admitSlice_admitted (h : s.ringm.slice = some (c, l)) (hf : sliceFree s c = true) (hw : ¬ SafetyDue us l delayed) :
    admitSlice us delayed s = startSlice c s := by
  simp only [admitSlice, h]
  rw [if_neg (by simp [hf]), if_neg (any_safetyDue.not.2 hw)]

theorem admitSlice_deferred (h : s.ringm.slice = some (c, l)) (hf : sliceFree s c = true) (hw : SafetyDue us l delayed)
    (hmore : ¬ (s.ringm.deferrals + 1 ≥ 64 ∧ (!s.ringm.starved) = true)) :
    admitSlice us delayed s = { s with ringm := { s.ringm with deferrals := s.ringm.deferrals + 1 } } := by
  simp only [admitSlice, h]
  rw [if_neg (by simp [hf]), if_pos (any_safetyDue.2 hw)]
  exact if_neg hmore

theorem admitSlice_starved (h : s.ringm.slice = some (c, l)) (hf : sliceFree s c = true) (hw : SafetyDue us l delayed)
    (h64 : s.ringm.deferrals + 1 ≥ 64 ∧ (!s.ringm.starved) = true) :
    admitSlice us delayed s = raise 83 0 0 { s with ringm := { s.ringm with deferrals := s.ringm.deferrals + 1, starved := true } } := by
  simp only [admitSlice, h]
  rw [if_neg (by simp [hf]), if_pos (any_safetyDue.2 hw)]
  exact if_pos h64

theorem startSlice_spareSliced {q k : Nat} (hr : inRotation s q = false) :
    (startSlice (.core q k) s).safety.spareSliced = s.safety.spareSliced ++ [q] := by
  simp [startSlice, hr]

theorem startSlice_prog : (startSlice c s).safety.prog = s.safety.prog := by
  unfold startSlice
  cases c with
  | core q k => dsimp only; split <;> rfl
  | _ => rfl

end Tick

/-- Settles O32: the tick by whether it runs and what is due, then the admission of a slice by its unit and by the threads that are due. -/
theorem ringmasterTick : Obligations.RingmasterTick := by
  unfold Obligations.RingmasterTick
  refine ⟨fun t slice s hs => ?tick, fun us l c delayed s hslice => ?admission⟩
  case tick =>
    intro u w due v
    have hv : releaseDue (t / 1000) w = v := rfl
    have hfirst (hrun : s.ringm.running = true) (ht : t % 1000 = 0) (hc : ringCycle u = none) : exec (.ringmasterTick t slice) s =
        .next (admitSlice (t / 1000) (delayList u) (tickNoted (due.length - 32) slice v)) := exec_ringmasterTick_first hs hrun ht hc
    refine ⟨exec_ringmasterTick_idle hs, hfirst, fun hrun ht hc hdue hnone hslice hlate => ?_⟩
    have hvw : v = w := by rw [← hv, releaseDue, show dueAt (t / 1000) w = [] from hdue]; rfl
    have hw : w.ringm.slice = none := hslice
    have hnoted : tickNoted (due.length - 32) slice w = w := by
      rw [hdue, hnone]
      exact tickNoted_nothing hlate hw
    rw [hfirst hrun ht hc, hvw, hnoted, admitSlice_none hw]
  case admission =>
    intro wait d
    refine ⟨admitSlice_dropped hslice, fun hf => ⟨fun hw => ?_, fun hw h => ?_, fun hw h64 hst => ?_⟩⟩
    · exact ⟨startSlice c s, admitSlice_admitted hslice hf hw, rfl, rfl, rfl, rfl, rfl, startSlice_prog,
        fun q k hq hr => hq ▸ startSlice_spareSliced hr⟩
    · refine admitSlice_deferred hslice hf hw fun ⟨h64, hst⟩ => ?_
      rcases h with h | h
      · omega
      · simp [h] at hst
    · exact admitSlice_starved hslice hf hw ⟨h64, by simp [hst]⟩

end Sys2Proof.Machine
end

section
/-! SUPPORT. The kernel port (12 R375, R382 to R386): how a command reaches Ringmaster, what each command does to the entry that it names, and the
statements about them (O33, O34, O35). -/

namespace Sys2Proof.Machine

/-! ## How a command reaches Ringmaster -/

section Port

variable {t p a0 a1 : Nat} {c : KCmd} {x : RingCycle} {s : State}

/-- A pair of the unit that has not been lost. -/
abbrev InService (p : Nat) (s : State) : Prop := p < 8 ∧ p ∉ s.safety.pairsOut

theorem kernelCmd_out (hs : Live s) (h : 8 ≤ p ∨ p ∈ s.safety.pairsOut) : kernelCmd t p c a0 a1 s = .next (atDt t s) := by
  rw [kernelCmd, runAt_live hs]
  exact congrArg _ (if_pos (by simpa using h))

theorem kernelCmd_live (hs : Live s) (hp : InService p s) : kernelCmd t p c a0 a1 s = .next (ringEvent (.cmd p c a0 a1) (atDt t s)) := by
  rw [kernelCmd, runAt_live hs]
  exact congrArg _ (if_neg (by simpa using hp))

/-- The state in which the first command of a hub cycle runs: it is noted, and the operand registers hold its operands. -/
abbrev commanded (t p : Nat) (c : KCmd) (a0 a1 : Nat) (s : State) : State := setArgs p a0 a1 (noteRing (.cmd p c a0 a1) (atDt t s))

theorem kernelCmd_first (hs : Live s) (hp : InService p s) (hc : ringCycle (atDt t s) = none) :
    kernelCmd t p c a0 a1 s = .next (kernelRun c p a0 a1 (commanded t p c a0 a1 s)) := by
  rw [kernelCmd_live hs hp, ringEvent_first hc]
  exact congrArg _ (if_neg (by simpa using hp.2))

theorem kernelCmd_later (hs : Live s) (hp : InService p s) (hc : ringCycle (atDt t s) = some x) : kernelCmd t p c a0 a1 s =
    .next ((insertEvent (.cmd p c a0 a1) x.events).foldl applyEvent (ringAgain (.cmd p c a0 a1) x (atDt t s))) := by
  rw [kernelCmd_live hs hp, ringEvent_later hc]

end Port

/-! ## Commands that name an entry -/

section Entry

variable {p e a0 a1 : Nat} {s : State}

theorem entryCheck_range (h : 4096 ≤ e) : entryCheck p e s = some 3 := if_pos h

theorem entryCheck_denied (h : e < 4096) (hp : 2 ≤ p) (he : e < 512) : entryCheck p e s = some 6 := by
  rw [entryCheck, if_neg (Nat.not_le.2 h), if_pos ⟨hp, he⟩]

theorem entryCheck_free (h : e < 4096) (hp : p < 2 ∨ 512 ≤ e) (h0 : (threadOf s e).state = 0) : entryCheck p e s = some 4 := by
  rw [entryCheck, if_neg (Nat.not_le.2 h), if_neg (by omega), if_pos h0]

theorem entryCheck_used (h : e < 4096) (hp : p < 2 ∨ 512 ≤ e) (h0 : (threadOf s e).state ≠ 0) : entryCheck p e s = none := by
  rw [entryCheck, if_neg (Nat.not_le.2 h), if_neg (by omega), if_neg h0]

/-- The commands that name an entry and act on its thread. -/
abbrev entryCmds : List KCmd := [.resume, .suspend, .delete, .wake, .setPrio, .setPair]

theorem kernelRun_refused {c : KCmd} {code : Nat} (hc : c ∈ entryCmds) (h : entryCheck p (a0 % 65536) s = some code) :
    kernelRun c p a0 a1 s = setResult p code 0 s := by
  cases c with
  | resume => simp only [kernelRun, resumeThread, h]
  | suspend => simp only [kernelRun, suspendThread, h]
  | delete => simp only [kernelRun, deleteThread, h]
  | wake => simp only [kernelRun, wakeThread, h]
  | setPrio => simp only [kernelRun, Sys2Proof.Machine.setPrio, h]
  | setPair => simp only [kernelRun, Sys2Proof.Machine.setPair, h]
  | _ => simp at hc

variable (h : entryCheck p (a0 % 65536) s = none)

include h

theorem resumeThread_suspended (h1 : (threadOf s (a0 % 65536)).state = 1) :
    resumeThread p a0 s = setResult p 0 0 (makeReady (a0 % 65536) 0 false s) := by
  simp only [resumeThread, h, h1, if_true]

theorem resumeThread_other (h1 : (threadOf s (a0 % 65536)).state ≠ 1) : resumeThread p a0 s = setResult p 4 0 s := by
  simp only [resumeThread, h, h1, if_false]

theorem deleteThread_suspended (h1 : (threadOf s (a0 % 65536)).state = 1) :
    deleteThread p a0 s = setResult p 0 0 (setThread (a0 % 65536) {} s) := by
  simp only [deleteThread, h, h1, if_true]

theorem deleteThread_other (h1 : (threadOf s (a0 % 65536)).state ≠ 1) : deleteThread p a0 s = setResult p 4 0 s := by
  simp only [deleteThread, h, h1, if_false]

theorem suspendThread_waiting (h1 : (threadOf s (a0 % 65536)).state ∈ [2, 4, 5]) : suspendThread p a0 s =
    setResult p 0 0 (setThread (a0 % 65536) { threadOf s (a0 % 65536) with state := 1, timed := false, eventWord := 0xFFFF }
      (unready (a0 % 65536) s)) := by
  simp only [suspendThread, h]
  exact if_pos (by simpa using h1)

theorem suspendThread_other (h1 : (threadOf s (a0 % 65536)).state ∉ [2, 4, 5]) : suspendThread p a0 s = setResult p 4 0 s := by
  simp only [suspendThread, h]
  exact if_neg (by simpa using h1)

theorem wakeThread_asleep (h1 : (threadOf s (a0 % 65536)).state = 4 ∨ (threadOf s (a0 % 65536)).state = 5) :
    wakeThread p a0 s = setResult p 0 (threadOf s (a0 % 65536)).state (makeReady (a0 % 65536) 6 false s) := by
  simp only [wakeThread, h]
  exact if_pos h1

theorem wakeThread_other (h4 : (threadOf s (a0 % 65536)).state ≠ 4) (h5 : (threadOf s (a0 % 65536)).state ≠ 5) :
    wakeThread p a0 s = setResult p 4 0 s := by
  simp only [wakeThread, h]
  exact if_neg (by omega)

theorem setPrio_out_of_range (h1 : 255 < a1) : setPrio p a0 a1 s = setResult p 5 0 s := by
  simp only [setPrio, h]
  exact if_pos h1

theorem setPrio_denied (hp : 2 ≤ p) (h1 : a1 < 16) : setPrio p a0 a1 s = setResult p 6 0 s := by
  simp only [setPrio, h]
  rw [if_neg (by omega), if_pos ⟨hp, h1⟩]

/-- A READY thread whose entry changes moves to the tail of its new queue (12 R383). -/
def requeued (e : Nat) (x : Thread) (s : State) : State :=
  { unready e (setThread e x s) with ringm :=
    { (unready e (setThread e x s)).ringm with ready := (unready e (setThread e x s)).ringm.ready ++ [e] } }

theorem setPrio_not_ready (h1 : a1 ≤ 255) (hp : p < 2 ∨ 16 ≤ a1) (h2 : (threadOf s (a0 % 65536)).state ≠ 2) :
    setPrio p a0 a1 s = setResult p 0 0 (setThread (a0 % 65536) { threadOf s (a0 % 65536) with prio := a1 } s) := by
  simp only [setPrio, h]
  rw [if_neg (by omega), if_neg (by omega), if_neg h2]

theorem setPrio_ready (h1 : a1 ≤ 255) (hp : p < 2 ∨ 16 ≤ a1) (h2 : (threadOf s (a0 % 65536)).state = 2) :
    setPrio p a0 a1 s = setResult p 0 0 (requeued (a0 % 65536) { threadOf s (a0 % 65536) with prio := a1 } s) := by
  simp only [setPrio, h]
  rw [if_neg (by omega), if_neg (by omega), if_pos h2]
  rfl

theorem setPair_out_of_range (h1 : 7 < a1 % 256) : setPair p a0 a1 s = setResult p 5 0 s := by
  simp only [setPair, h]
  exact if_pos h1

theorem setPair_denied (h1 : a1 % 256 ≤ 7) (hp : 2 ≤ p) (h2 : a1 % 256 < 2) : setPair p a0 a1 s = setResult p 6 0 s := by
  simp only [setPair, h]
  rw [if_neg (by omega), if_pos ⟨hp, h2⟩]

theorem setPair_running (h1 : a1 % 256 ≤ 7) (hp : p < 2 ∨ 2 ≤ a1 % 256) (h3 : (threadOf s (a0 % 65536)).state = 3) :
    setPair p a0 a1 s = setResult p 4 0 s := by
  simp only [setPair, h]
  rw [if_neg (by omega), if_neg (by omega), if_pos h3]

theorem setPair_not_ready (h1 : a1 % 256 ≤ 7) (hp : p < 2 ∨ 2 ≤ a1 % 256) (h3 : (threadOf s (a0 % 65536)).state ≠ 3)
    (h2 : (threadOf s (a0 % 65536)).state ≠ 2) :
    setPair p a0 a1 s = setResult p 0 0 (setThread (a0 % 65536) { threadOf s (a0 % 65536) with pair := a1 % 256 } s) := by
  simp only [setPair, h]
  rw [if_neg (by omega), if_neg (by omega), if_neg h3, if_neg h2]

theorem setPair_ready (h1 : a1 % 256 ≤ 7) (hp : p < 2 ∨ 2 ≤ a1 % 256) (h2 : (threadOf s (a0 % 65536)).state = 2) :
    setPair p a0 a1 s = setResult p 0 0 (requeued (a0 % 65536) { threadOf s (a0 % 65536) with pair := a1 % 256 } s) := by
  simp only [setPair, h]
  rw [if_neg (by omega), if_neg (by omega), if_neg (by omega), if_pos h2]
  rfl

end Entry

@[simp] theorem threadOf_requeued (e : Nat) (x : Thread) (s : State) : threadOf (requeued e x s) e = x := threadOf_setThread_same e x s

/-- Settles O33: the common refusals by the check of the entry, then each command by the state of its thread. -/
theorem kernelEntryCommands : Obligations.KernelEntryCommands := by
  unfold Obligations.KernelEntryCommands
  intro t p a0 a1 s hs hp hin hc e x u isolated cmds
  have hfirst (c : KCmd) : kernelCmd t p c a0 a1 s = .next (kernelRun c p a0 a1 (u c)) := kernelCmd_first hs ⟨hp, hin⟩ hc
  have hcmds (c : Instr × KCmd) (hmem : c ∈ cmds) : c.2 ∈ entryCmds ∧ exec c.1 s = .next (kernelRun c.2 p a0 a1 (u c.2)) := by
    simp only [cmds, List.mem_cons, List.not_mem_nil, or_false] at hmem
    rcases hmem with rfl | rfl | rfl | rfl | rfl | rfl <;> exact ⟨by simp, hfirst _⟩
  have hrefused {code : Nat} (h : ∀ v : State, threadOf v e = x → entryCheck p e v = some code) (c : Instr × KCmd) (hmem : c ∈ cmds) :
      exec c.1 s = .next (setResult p code 0 (u c.2)) := by
    rw [(hcmds c hmem).2, kernelRun_refused (hcmds c hmem).1 (h (u c.2) rfl)]
  refine ⟨fun h => hrefused fun v _ => entryCheck_range h, fun h hp2 h512 => hrefused fun v _ => entryCheck_denied h hp2 h512,
    fun h hmay h0 => hrefused fun v hv => entryCheck_free h hmay (hv ▸ h0), fun h hmay h0 => ?_⟩
  have hnone (c : KCmd) : entryCheck p (a0 % 65536) (u c) = none := entryCheck_used h hmay h0
  have resumeRun {v : State} (hv : resumeThread p a0 (u .resume) = v) : exec (.resume t p a0 a1) s = .next v := hv ▸ hfirst .resume
  have deleteRun {v : State} (hv : deleteThread p a0 (u .delete) = v) : exec (.delete t p a0 a1) s = .next v := hv ▸ hfirst .delete
  have suspendRun {v : State} (hv : suspendThread p a0 (u .suspend) = v) : exec (.suspend t p a0 a1) s = .next v := hv ▸ hfirst .suspend
  have wakeRun {v : State} (hv : wakeThread p a0 (u .wake) = v) : exec (.wakeThread t p a0 a1) s = .next v := hv ▸ hfirst .wake
  have setPrioRun {v : State} (hv : setPrio p a0 a1 (u .setPrio) = v) : exec (.setPrio t p a0 a1) s = .next v := hv ▸ hfirst .setPrio
  have setPairRun {v : State} (hv : setPair p a0 a1 (u .setPair) = v) : exec (.setPair t p a0 a1) s = .next v := hv ▸ hfirst .setPair
  refine ⟨fun h1 => ⟨resumeRun (resumeThread_suspended (hnone _) h1), deleteRun (deleteThread_suspended (hnone _) h1)⟩,
    fun h1 => ⟨resumeRun (resumeThread_other (hnone _) h1), deleteRun (deleteThread_other (hnone _) h1)⟩,
    fun h1 => suspendRun (suspendThread_waiting (hnone _) h1), fun h1 => suspendRun (suspendThread_other (hnone _) h1),
    fun h1 => wakeRun (wakeThread_asleep (hnone _) h1), fun h4 h5 => wakeRun (wakeThread_other (hnone _) h4 h5),
    fun h1 => setPrioRun (setPrio_out_of_range (hnone _) h1), fun h2 h1 => setPrioRun (setPrio_denied (hnone _) h2 h1),
    fun h1 h2 h3 => setPrioRun (setPrio_not_ready (hnone _) h1 h2 h3),
    fun h1 h2 h3 => ⟨_, setPrioRun (setPrio_ready (hnone _) h1 h2 h3), threadOf_requeued e { x with prio := a1 } (u .setPrio), rfl⟩,
    fun h1 => setPairRun (setPair_out_of_range (hnone _) h1), fun h1 h2 h3 => setPairRun (setPair_denied (hnone _) h1 h2 h3),
    fun h1 h2 h3 => setPairRun (setPair_running (hnone _) h1 h2 h3), fun h1 h2 h3 h4 => setPairRun (setPair_not_ready (hnone _) h1 h2 h3 h4),
    fun h1 h2 h3 => ⟨_, setPairRun (setPair_ready (hnone _) h1 h2 h3), threadOf_requeued e { x with pair := a1 % 256 } (u .setPair), rfl⟩⟩

/-! ## CREATE and READ_ENTRY -/

section Create

variable {p a0 a1 i : Nat} {s : State}

/-- The fields of CREATE are in range (12 R383). -/
abbrev CreateOk (a1 : Nat) : Prop := bitsOf a1 8 8 ≤ 7 ∧ bitsOf a1 16 8 ≤ 7 ∧ bitsOf a1 32 10 ≤ 1000

/-- The pair may create a thread of that priority and those pairs (12 R375, R383). -/
abbrev CreateMay (p a1 : Nat) : Prop := p < 2 ∨ (16 ≤ a1 % 256 ∧ 2 ≤ bitsOf a1 8 8 ∧ 2 ≤ bitsOf a1 16 8)

/-- The thread that CREATE makes (12 R383). -/
abbrev createdThread (a1 : Nat) : Thread :=
  { state := 1, prio := a1 % 256, pair := bitsOf a1 8 8, fallback := bitsOf a1 16 8, safety := bitOf a1 24, latencyUs := bitsOf a1 32 10 }

/-- The first entry of the caller's range and the end of the range (12 R375). -/
abbrev rangeLo (p : Nat) : Nat := if p < 2 then 0 else 512
abbrev rangeHi (p : Nat) : Nat := if p < 2 then 512 else 4096

/-- The entry that CREATE finds: the one named if it is free, or else the lowest free one of the caller's range. -/
def createEntry (p e : Nat) (s : State) : Option Nat :=
  if e = 0xFFFF then (if p < 2 then List.range 512 else (List.range 3584).map (fun i => i + 512)).find? (fun i => (threadOf s i).state == 0)
  else if (threadOf s e).state = 0 then some e else none

theorem createThread_bad (h : ¬ CreateOk a1) : createThread p a0 a1 s = setResult p 5 0 s := if_pos (by omega)

theorem createThread_range (h : CreateOk a1) (hne : a0 % 65536 ≠ 0xFFFF) (hr : 4096 ≤ a0 % 65536) :
    createThread p a0 a1 s = setResult p 3 0 s := by
  simp only [createThread]
  rw [if_neg (by omega), if_pos ⟨hne, hr⟩]

theorem createThread_denied (h : CreateOk a1) (hr : a0 % 65536 = 0xFFFF ∨ a0 % 65536 < 4096)
    (hd : 2 ≤ p ∧ ((a0 % 65536 ≠ 0xFFFF ∧ a0 % 65536 < 512) ∨ a1 % 256 < 16 ∨ bitsOf a1 8 8 < 2 ∨ bitsOf a1 16 8 < 2)) :
    createThread p a0 a1 s = setResult p 6 0 s := by
  simp only [createThread]
  rw [if_neg (by omega), if_neg (by omega), if_pos hd]

variable (h : CreateOk a1) (hr : a0 % 65536 = 0xFFFF ∨ a0 % 65536 < 4096 ∧ (p < 2 ∨ 512 ≤ a0 % 65536)) (hm : CreateMay p a1)

include h hr hm

theorem createThread_made (hf : createEntry p (a0 % 65536) s = some i) :
    createThread p a0 a1 s = setResult p 0 i (setThread i (createdThread a1) s) := by
  simp only [createThread]
  rw [if_neg (by omega), if_neg (by omega), if_neg (by omega)]
  rw [createEntry] at hf
  rw [hf]

theorem createThread_none (hf : createEntry p (a0 % 65536) s = none) :
    createThread p a0 a1 s = setResult p (if a0 % 65536 = 0xFFFF then 2 else 3) 0 s := by
  simp only [createThread]
  rw [if_neg (by omega), if_neg (by omega), if_neg (by omega)]
  rw [createEntry] at hf
  rw [hf]

end Create

section CreateEntry

variable {p e i : Nat} {s : State}

theorem createEntry_named_free (hne : e ≠ 0xFFFF) (h0 : (threadOf s e).state = 0) : createEntry p e s = some e := by
  rw [createEntry, if_neg hne, if_pos h0]

theorem createEntry_named_used (hne : e ≠ 0xFFFF) (h0 : (threadOf s e).state ≠ 0) : createEntry p e s = none := by
  rw [createEntry, if_neg hne, if_neg h0]

/-- The caller's range as an interval of entries. -/
theorem createRange_eq (p : Nat) : (if p < 2 then List.range 512 else (List.range 3584).map (fun i => i + 512)) =
    List.range' (rangeLo p) (rangeHi p - rangeLo p) := by
  by_cases hp : p < 2
  · rw [if_pos hp, rangeLo, rangeHi, if_pos hp, if_pos hp, List.range_eq_range']
  · rw [if_neg hp, rangeLo, rangeHi, if_neg hp, if_neg hp, List.range'_eq_map_range]
    simp only [Nat.add_comm]

theorem createEntry_lowest (hlo : rangeLo p ≤ i) (hhi : i < rangeHi p) (h0 : (threadOf s i).state = 0)
    (hlow : ∀ j, rangeLo p ≤ j → j < i → (threadOf s j).state ≠ 0) : createEntry p 0xFFFF s = some i := by
  rw [createEntry, if_pos rfl, createRange_eq, List.find?_range'_eq_some]
  refine ⟨by simpa using h0, ?_, fun j hj hji => by simpa using hlow j hj hji⟩
  simp only [List.mem_range'_1]
  omega

theorem createEntry_full (hfull : ∀ j, rangeLo p ≤ j → j < rangeHi p → (threadOf s j).state ≠ 0) : createEntry p 0xFFFF s = none := by
  rw [createEntry, if_pos rfl, createRange_eq, List.find?_eq_none]
  intro j hj
  simp only [List.mem_range'_1] at hj
  simpa using hfull j hj.1 (by omega)

end CreateEntry

section ReadEntry

variable {p a0 : Nat} {s : State}

theorem readEntry_range (h : 4096 ≤ a0 % 65536) : readEntry p a0 s = setResult p 3 0 s := if_pos h

theorem readEntry_denied (h : a0 % 65536 < 512) (hp : 2 ≤ p) : readEntry p a0 s = setResult p 6 0 s := by
  simp only [readEntry]
  rw [if_neg (by omega), if_pos ⟨hp, h⟩]

theorem readEntry_read (h : a0 % 65536 < 4096) (hp : p < 2 ∨ 512 ≤ a0 % 65536) : readEntry p a0 s =
    setResult p 0 (a0 % 65536) (setArgs p (leNat ((threadBytes (a0 % 65536) (threadOf s (a0 % 65536))).take 8))
      (leNat (((threadBytes (a0 % 65536) (threadOf s (a0 % 65536))).drop 8).take 8)) s) := by
  simp only [readEntry]
  rw [if_neg (by omega), if_neg (by omega)]

end ReadEntry

/-- Settles O34: the port of a lost pair, a later command of a hub cycle, then CREATE in the order of its checks, and READ_ENTRY. -/
theorem kernelCreateRead : Obligations.KernelCreateRead := by
  unfold Obligations.KernelCreateRead
  intro t p a0 a1 s hs e w u r prio pair fb lat made ok may
  refine ⟨fun h => ⟨kernelCmd_out hs h, kernelCmd_out hs h, kernelCmd_out hs h, kernelCmd_out hs h⟩, fun hp hin x hc c hmem => ?later,
    fun hp hin hc => ?first⟩
  case later =>
    have hlater : exec c.1 s = kernelCmd t p c.2 a0 a1 s := by
      simp only [List.mem_cons, List.not_mem_nil, or_false] at hmem
      rcases hmem with rfl | rfl | rfl | rfl | rfl | rfl | rfl | rfl | rfl <;> rfl
    exact ⟨_, hlater.trans (kernelCmd_later hs ⟨hp, hin⟩ hc), rfl, rfl, rfl, rfl, rfl⟩
  case first =>
    have hrun (c : KCmd) {v : State} (hv : kernelRun c p a0 a1 (w c) = v) : kernelCmd t p c a0 a1 s = .next v := by
      rw [kernelCmd_first hs ⟨hp, hin⟩ hc, hv]
    refine ⟨fun h => hrun .create (createThread_bad h), fun h hne hr => hrun .create (createThread_range h hne hr),
      fun h hr hd => hrun .create (createThread_denied h (.inr hr) ?_),
      fun h hr hm he h0 => hrun .create (createThread_made h (.inr ⟨hr, he⟩) hm (createEntry_named_free (s := u) ?_ h0)),
      fun h hr hm he h0 => hrun .create ((createThread_none h (.inr ⟨hr, he⟩) hm (createEntry_named_used (s := u) ?_ h0)).trans ?_),
      fun h hr hm => hrun .create (createThread_denied h (.inl hr) ?_),
      fun h hr hm i hlo hhi h0 hlow => hrun .create (createThread_made h (.inl hr) hm ?_),
      fun h hr hm hfull => hrun .create ((createThread_none h (.inl hr) hm ?_).trans ?_),
      fun h => hrun .read (readEntry_range h), fun h hp2 => hrun .read (readEntry_denied h hp2), fun h hmay => hrun .read (readEntry_read h hmay)⟩
    · omega
    · omega
    · omega
    · rw [if_neg (by omega)]
    · omega
    · rw [show a0 % 65536 = 0xFFFF from hr]
      exact createEntry_lowest (s := u) hlo hhi h0 hlow
    · rw [show a0 % 65536 = 0xFFFF from hr]
      exact createEntry_full (s := u) hfull
    · rw [if_pos hr]

/-! ## SWITCH -/

section Switch

variable {p e a0 a1 : Nat} {s : State}

/-- The pair runs the head of its best queue, or idles (12 R380, R384). -/
theorem switchTo_eq (p : Nat) (v : State) : switchTo p v = match bestReady v p with
    | none => setResult p 1 0xFFFF v
    | some e => setResult p 0 (e + 65536 * (threadOf v e).wakeReason)
        (setThread e { threadOf v e with state := 3, releasedAt := none } (unready e v)) := by
  rw [switchTo, pick]
  cases bestReady v p <;> rfl

/-- The disposition of a SWITCH is none, or names an event word that is none (12 R384, R385). -/
abbrev BadDisposition (a0 a1 : Nat) : Prop := bitsOf a1 4 4 ≠ 0 ∨ 6 < a1 % 16 ∨ ((a1 % 16 = 3 ∨ a1 % 16 = 4) ∧ 511 < bitsOf a0 16 16)

theorem switchThread_idle (h : runningOf s p = none) : switchThread p a0 a1 s = switchTo p s := by
  rw [switchThread, h]

theorem switchThread_bad (h : runningOf s p = some e) (hb : BadDisposition a0 a1) : switchThread p a0 a1 s = setResult p 5 0 s := by
  simp only [switchThread, h]
  exact if_pos hb

theorem switchThread_disposed (h : runningOf s p = some e) (hb : ¬ BadDisposition a0 a1) :
    switchThread p a0 a1 s = switchTo p (disposeThread e (a1 % 16) a0 a1 s) := by
  simp only [switchThread, h]
  exact if_neg hb

/-- A thread that waits on an event word, with or without a time (12 R385). -/
def waitingThread (timed : Bool) (us a0 a1 seq : Nat) (x : Thread) : Thread :=
  { x with state := 5, eventWord := bitsOf a0 16 16, threshold := a1 / 256 % 2 ^ 56, timed := timed,
           wakeUs := if timed then us else x.wakeUs, releaseSeq := seq }

/-- The next `release_seq` (12 R388). -/
def bumpSeq (s : State) : State := { s with ringm := { s.ringm with seqCtr := (s.ringm.seqCtr + 1) % 2 ^ 32 } }

@[simp] theorem threadOf_bumpSeq (s : State) (e : Nat) : threadOf (bumpSeq s) e = threadOf s e := rfl

theorem disposeThread_delayed : disposeThread e 2 a0 a1 s =
    bumpSeq (setThread e { threadOf s e with state := 4, wakeUs := a0 / 65536 % 2 ^ 48, releaseSeq := s.ringm.seqCtr } s) := rfl

theorem disposeThread_suspended : disposeThread e 5 a0 a1 s = setThread e { threadOf s e with state := 1, releasedAt := none } s := rfl

theorem disposeThread_wait_met (h : a1 / 256 % 2 ^ 56 ≤ wordOf s (bitsOf a0 16 16)) :
    disposeThread e 3 a0 a1 s = makeReady e 4 false s := if_pos h

theorem disposeThread_wait (h : wordOf s (bitsOf a0 16 16) < a1 / 256 % 2 ^ 56) : disposeThread e 3 a0 a1 s =
    bumpSeq (setThread e (waitingThread false 0 a0 a1 s.ringm.seqCtr (threadOf s e)) s) := if_neg (Nat.not_le.2 h)

theorem disposeThread_timed_wait (h : wordOf s (bitsOf a0 16 16) < a1 / 256 % 2 ^ 56) : disposeThread e 4 a0 a1 s =
    bumpSeq (setThread e (waitingThread true (s.dt / 1000 + a0 / 2 ^ 32 % 2 ^ 32) a0 a1 s.ringm.seqCtr (threadOf s e)) s) :=
  if_neg (Nat.not_le.2 h)

end Switch

/-- Settles O35: the caller's RUNNING thread by the disposition, then the pick; and each disposition by its own equation. -/
theorem kernelSwitch : Obligations.KernelSwitch := by
  unfold Obligations.KernelSwitch
  intro t p a0 a1 s hs hp hin hc u d bad run
  have hrun {v w : State} (hv : switchThread p a0 a1 u = v) (hw : v = w) : exec (.switch t p a0 a1) s = .next w := by
    rw [← hw, ← hv]
    exact kernelCmd_first hs ⟨hp, hin⟩ hc
  refine ⟨fun h => hrun (switchThread_idle h) (switchTo_eq p u), fun e h hb => hrun (switchThread_bad h hb) rfl,
    fun e h hb => hrun (switchThread_disposed h hb) (switchTo_eq p _), fun e => ⟨rfl, rfl, rfl, ?_, ?_, rfl, ?_, fun h => ⟨?_, ?_, ?_⟩, fun h => ⟨?_, ?_⟩⟩⟩
  · rw [disposeThread_delayed, threadOf_bumpSeq, threadOf_setThread_same]
  · rw [disposeThread_delayed, threadOf_bumpSeq, threadOf_setThread_same]
  · rw [disposeThread_suspended, threadOf_setThread_same]
  · rw [disposeThread_wait (s := u) h, threadOf_bumpSeq, threadOf_setThread_same]; rfl
  · rw [disposeThread_wait (s := u) h, threadOf_bumpSeq, threadOf_setThread_same]; rfl
  · rw [disposeThread_timed_wait (s := u) h, threadOf_bumpSeq, threadOf_setThread_same]; rfl
  · rw [disposeThread_wait_met (s := u) h, threadOf_makeReady_same]; rfl
  · rw [disposeThread_wait_met (s := u) h, threadOf_makeReady_same]; rfl

end Sys2Proof.Machine
end

section
/-! SUPPORT. What the reactions of a fault leave of the collector (14 R428): the sources, the latch and OVERFLOW stand through every reaction but the
reset of the chip, which keeps the state of each source and loads its configuration again (R431). -/

namespace Sys2Proof.Machine

/-! ## Reactions short of a chip reset -/

/-- From `a` to `b` the sources of the collector, its latch and OVERFLOW stand; the log may have grown. -/
structure CollectorKept (a b : State) : Prop where
  srcs : b.fault.srcs = a.fault.srcs
  latch : b.fault.latch = a.fault.latch
  overflow : b.fault.overflow = a.fault.overflow

namespace CollectorKept

variable {a b c : State}

theorem refl (s : State) : CollectorKept s s := ⟨rfl, rfl, rfl⟩

theorem trans (h : CollectorKept a b) (g : CollectorKept b c) : CollectorKept a c :=
  ⟨g.srcs.trans h.srcs, g.latch.trans h.latch, g.overflow.trans h.overflow⟩

theorem after (g : CollectorKept b c) (h : CollectorKept a b) : CollectorKept a c := h.trans g

theorem of_fault (h : b.fault = a.fault) : CollectorKept a b := ⟨congrArg _ h, congrArg _ h, congrArg _ h⟩

theorem ite {p : Prop} {i : Decidable p} (hb : CollectorKept a b) (hc : CollectorKept a c) : CollectorKept a (@ite _ p i b c) := by
  split
  · exact hb
  · exact hc

theorem foldl {α : Type} {g : State → α → State} (hg : ∀ s x, CollectorKept s (g s x)) (l : List α) (s : State) :
    CollectorKept s (l.foldl g s) := by
  induction l generalizing s with
  | nil => exact refl s
  | cons x l ih => exact (hg s x).trans (ih (g s x))

end CollectorKept

section Kept

variable {s : State}

theorem modFrame_collectorKept (f : Frame → Frame) (s : State) : CollectorKept s (modFrame f s) := by
  rw [modFrame_eq]
  exact .of_fault rfl

theorem logAction_collectorKept (kind src syn : Nat) (s : State) : CollectorKept s (logAction kind src syn s) := by
  unfold logAction logFault
  exact ⟨rfl, rfl, rfl⟩

theorem sendMsix_collectorKept (v : Nat) (s : State) : CollectorKept s (sendMsix v s) := by
  obtain ⟨p, c, h⟩ := sendMsix_only v s
  rw [h]
  exact .of_fault rfl

theorem sendFlit_collectorKept (port : Nat) (m : FlitMsg) (s : State) : CollectorKept s (sendFlit port m s) := .of_fault rfl

theorem complete_collectorKept (h : Hdr) (status flags aux0 aux1 : Nat) (frame : Option Nat) (s : State) :
    CollectorKept s (complete h status flags aux0 aux1 frame s) := by
  obtain ⟨m, q, p, k, h⟩ := complete_only h status flags aux0 aux1 frame s
  rw [h]
  exact .of_fault rfl

theorem finishWork_collectorKept (w : Work) (status flags aux0 aux1 : Nat) (frame : Option Nat) (s : State) :
    CollectorKept s (finishWork w status flags aux0 aux1 frame s) := by
  obtain ⟨m, q, p, k, h⟩ := finishWork_only w status flags aux0 aux1 frame s
  rw [h]
  exact .of_fault rfl

/-! ### The digest log -/

theorem hostLog_collectorKept (a : Nat) (bs : Bytes) (s : State) : CollectorKept s (hostLog s a bs) :=
  .ite (.of_fault rfl) (sendFlit_collectorKept _ _ s)

theorem logPut_collectorKept (digest frame tag object sub client dkind : Nat) (s : State) :
    CollectorKept s (logPut digest frame tag object sub client dkind s) :=
  (hostLog_collectorKept _ _ s).trans (.of_fault rfl)

theorem logEntry_collectorKept (level digest frame tag object sub client dkind : Nat) (s : State) :
    CollectorKept s (logEntry level digest frame tag object sub client dkind s) := by
  unfold logEntry
  refine .ite (.refl s) (.ite (.of_fault rfl) ?_)
  have hdropped : CollectorKept s (if s.det.droppedSince = 0 then s else
      { logPut 0 s.frame.number 0 s.det.droppedSince 0 0 11 s with
        det := { (logPut 0 s.frame.number 0 s.det.droppedSince 0 0 11 s).det with droppedSince := 0 } }) :=
    .ite (.refl s) ((logPut_collectorKept _ _ _ _ _ _ _ s).trans (.of_fault rfl))
  exact .ite (hdropped.trans (.of_fault rfl)) (hdropped.trans (logPut_collectorKept _ _ _ _ _ _ _ _))

theorem timingChoice_collectorKept (code object frame tag client : Nat) (s : State) :
    CollectorKept s (timingChoice code object frame tag client s) :=
  .after (logEntry_collectorKept _ _ _ _ _ _ _ _ _) (.of_fault rfl)

/-! ### Firing and fault frames -/

theorem fireNet_collectorKept (src : Nat) (s : State) : CollectorKept s (fireNet src s) := by
  have hfire (n : NetRec) : CollectorKept s (fireWith src n s) :=
    .after (modFrame_collectorKept _ _) (.of_fault rfl)
  unfold fireNet
  split
  · split
    · exact hfire _
    · split
      · exact hfire _
      · exact .refl s
  · exact .ite (.refl s) (.of_fault rfl)

theorem cutOpt_collectorKept (wid idx : Nat) (s : State) : CollectorKept s (cutOpt wid idx s) := by
  unfold cutOpt
  split
  · exact .refl s
  · split
    · exact .refl s
    · dsimp only
      split
      · exact .of_fault rfl
      · split
        · exact .after (timingChoice_collectorKept _ _ _ _ _ _) (.of_fault rfl)
        · exact .after (timingChoice_collectorKept _ _ _ _ _ _) (.after (modFrame_collectorKept _ _) (.of_fault rfl))

theorem abortFrameRun_collectorKept (status aux0 : Nat) (s : State) : CollectorKept s (abortFrameRun status aux0 s) := by
  unfold abortFrameRun
  split
  · exact .refl s
  next f _ =>
    split
    · exact .refl s
    · dsimp only
      refine .after (modFrame_collectorKept _ _) ?_
      split
      next w _ =>
        have hdone := finishWork_collectorKept w status 0 aux0 0 (some f.number) s
        generalize finishWork w status 0 aux0 0 (some f.number) s = z at hdone ⊢
        exact hdone.trans (.of_fault rfl)
      · exact .of_fault rfl

theorem netOutcome_collectorKept (n : NetRun) (s : State) : CollectorKept s (netOutcome n s) := by
  unfold netOutcome
  split
  · exact .refl s
  · split
    · split
      · exact .of_fault rfl
      · exact modFrame_collectorKept _ s
      · exact .refl s
    · exact .refl s

theorem stopNets_collectorKept (r : RemUnit) (s : State) : CollectorKept s (stopNets r s) :=
  (CollectorKept.foldl (fun s n => netOutcome_collectorKept n s) _ s).trans (.of_fault rfl)

theorem faultFrame_collectorKept (r : RemUnit) (s : State) : CollectorKept s (faultFrame r s) := by
  have hsolo : CollectorKept s (restartSolo r s) := .of_fault rfl
  unfold faultFrame
  dsimp only
  split
  · exact hsolo.trans (stopNets_collectorKept r _)
  · refine .trans ?_ ((CollectorKept.foldl (fun s (o : Opt) => cutOpt_collectorKept o.wid o.idx s) _ _).trans (stopNets_collectorKept r _))
    refine hsolo.trans ((modFrame_collectorKept _ _).trans (.ite (.of_fault rfl) ?_))
    exact (modFrame_collectorKept _ _).trans (.of_fault rfl)

/-! ### Fences -/

theorem spareBroken_collectorKept (q i syn : Nat) (s : State) : CollectorKept s (spareBroken q i syn s) :=
  .ite (.after (logAction_collectorKept _ _ _ _) (.of_fault rfl)) (.refl s)

theorem fenceCluster_collectorKept (q src : Nat) (s : State) : CollectorKept s (fenceCluster q src s) := by
  refine .ite (.refl s) (.after (faultFrame_collectorKept _ _) (.after (logAction_collectorKept _ _ _ _) ?_))
  split <;> exact .of_fault rfl

theorem fenceCore_collectorKept (q p src : Nat) (s : State) : CollectorKept s (fenceCore q p src s) := by
  refine .ite (.refl s) ?_
  split
  · exact .after (faultFrame_collectorKept _ _) (.after (logAction_collectorKept _ _ _ _) (.of_fault rfl))
  · exact fenceCluster_collectorKept q src s

theorem fenceEngine_collectorKept (q p g src : Nat) (s : State) : CollectorKept s (fenceEngine q p g src s) :=
  .ite (.refl s) (.after (faultFrame_collectorKept _ _) (.after (logAction_collectorKept _ _ _ _) (.of_fault rfl)))

theorem fenceTested_collectorKept (q phys i syn : Nat) (s : State) : CollectorKept s (fenceTested q phys i syn s) := by
  refine .ite (fenceCluster_collectorKept q i s) (.ite (spareBroken_collectorKept q i syn s) ?_)
  split
  · exact fenceCore_collectorKept _ _ _ s
  · exact .refl s

theorem applyFence_collectorKept (i syn : Nat) (s : State) : CollectorKept s (applyFence i syn s) :=
  .ite
    (.ite (.ite (spareBroken_collectorKept _ _ _ s) (fenceCore_collectorKept _ _ _ s))
      (.ite (fenceEngine_collectorKept _ _ _ _ s) (fenceCluster_collectorKept _ _ s)))
    (.ite (.ite (.refl s) (.ite (fenceTested_collectorKept _ _ _ _ s) (fenceCluster_collectorKept _ _ s))) (.refl s))

/-! ### Block resets -/

theorem abortWork_collectorKept (status aux0 : Nat) (s : State) (w : Work) : CollectorKept s (abortWork status aux0 s w) :=
  .after (modFrame_collectorKept _ _) ((finishWork_collectorKept w status 0 aux0 0 w.frameOf s).trans (.of_fault rfl))

theorem abortAll_collectorKept (status aux0 : Nat) (keep : Work → Bool) (s : State) : CollectorKept s (abortAll status aux0 keep s) :=
  .foldl (abortWork_collectorKept status aux0) _ s

theorem abortDiags_collectorKept (gone : Nat → Bool) (status aux0 : Nat) (s : State) :
    CollectorKept s (abortDiags gone status aux0 s) := by
  refine .foldl (fun s w => ?_) _ s
  split
  · exact .ite (finishWork_collectorKept _ _ _ _ _ _ s) (.refl s)
  · exact .refl s

theorem abortForwarded_collectorKept (unit status aux0 : Nat) (s : State) : CollectorKept s (abortForwarded unit status aux0 s) := by
  unfold abortForwarded
  dsimp only
  refine .trans (.after (abortDiags_collectorKept _ _ _ _) ?_) (.of_fault rfl)
  exact .foldl (fun s _ => complete_collectorKept _ _ _ _ _ _ s) _ s

theorem loseBeyond_collectorKept (status src : Nat) (s : State) : CollectorKept s (loseBeyond status src s) :=
  .ite (abortForwarded_collectorKept _ _ _ s)
    (.ite (.after (sendFlit_collectorKept _ _ _) (abortDiags_collectorKept _ _ _ s)) (.refl s))

/-- A block is in reset, and it was the unit's last one (16 R485). -/
abbrev blockInReset (b : Blk) (s : State) : State :=
  { s with fault := { s.fault with blockReset := s.fault.blockReset ++ [b] }, boot := { s.boot with resetCause := 6 } }

theorem blockInReset_collectorKept (b : Blk) (s : State) : CollectorKept s (blockInReset b s) := ⟨rfl, rfl, rfl⟩

theorem beginBlockReset_collectorKept (i : Nat) (s : State) : CollectorKept s (beginBlockReset i s) := by
  unfold beginBlockReset
  split
  · exact .refl s
  next b _ =>
    refine .ite (.refl s) ((blockInReset_collectorKept b s).trans ?_)
    split
    · exact faultFrame_collectorKept _ _
    · exact .of_fault rfl
    · exact loseBeyond_collectorKept _ _ _
    next k _ =>
      have hwork {p : Prop} {_ : Decidable p} {keep : Work → Bool} {u : Units} : CollectorKept (blockInReset (.hub k) s)
          (if p then { abortAll 0x22 0 keep (blockInReset (.hub k) s) with units := u }
           else abortAll 0x22 0 keep (blockInReset (.hub k) s)) :=
        .ite ((abortAll_collectorKept 0x22 0 keep _).trans (.of_fault rfl)) (abortAll_collectorKept 0x22 0 keep _)
      dsimp only
      split
      · exact .ite (.after (abortFrameRun_collectorKept _ _ _) hwork) hwork
      · exact hwork
    · exact .refl _

end Kept

/-! ## A reset of the chip -/

section ChipReset

variable {cause k : Nat} {s : State}

/-- The state of a source, without its configuration (14 R418). -/
structure SameSrcState (x y : Src) : Prop where
  sticky : y.sticky = x.sticky
  severe : y.severe = x.severe
  pin : y.pin = x.pin
  count : y.count = x.count
  total : y.total = x.total
  winStart : y.winStart = x.winStart

theorem SameSrcState.of_eq {x y : Src} (h : y = x) : SameSrcState x y := h ▸ ⟨rfl, rfl, rfl, rfl, rfl, rfl⟩

theorem SameSrcState.trans {x y z : Src} (h : SameSrcState x y) (g : SameSrcState y z) : SameSrcState x z :=
  ⟨g.sticky.trans h.sticky, g.severe.trans h.severe, g.pin.trans h.pin, g.count.trans h.count, g.total.trans h.total,
    g.winStart.trans h.winStart⟩

/-- A reset of the chip loads a source's configuration and keeps its state (14 R431). -/
theorem srcOf_chipReset (hlen : s.fault.srcs.length = 416) (hk : k < 416) : srcOf (chipReset cause s) k =
    { Src.reset k with
      sticky := (srcOf s k).sticky, severe := (srcOf s k).severe, pin := (srcOf s k).pin, count := (srcOf s k).count
      winStart := (srcOf s k).winStart, total := (srcOf s k).total } := by
  have hks : k < s.fault.srcs.length := by omega
  have hget : srcOf s k = s.fault.srcs[k] := List.getD_eq_getElem _ _ hks
  rw [hget]
  change (resetFaultC s.fault).srcs.getD k {} = _
  rw [resetFaultC, List.getD_eq_getElem _ _ (by simpa [hlen] using hk), List.getElem_zipWith, List.getElem_range]

theorem chipReset_sameSrcState (hlen : s.fault.srcs.length = 416) (hk : k < 416) :
    SameSrcState (srcOf s k) (srcOf (chipReset cause s) k) := by
  rw [srcOf_chipReset hlen hk]
  exact ⟨rfl, rfl, rfl, rfl, rfl, rfl⟩

end ChipReset

/-! ## A set of reactions -/

/-- The NMI of a set: source `i` in the trap cause of every pair of FAULT_NMI_PAIRS (14 R427). -/
def writeNmiCause (i : Nat) (s : State) : State :=
  { s with fault := { s.fault with
      nmiCause := (List.range 8).foldl (fun l p => if bitOf s.fault.nmiPairs p then insertKey p i l else l) s.fault.nmiCause } }

/-- The steps of a set before CHIP_RESET, in their order (14 R428). -/
def reactBefore (r i syn : Nat) (severe : Bool) (s : State) : State :=
  let s := if bitOf r 6 then fireNet 2 s else s
  let s := if bitOf r 5 then applyFence i syn s else s
  let s := if bitOf r 1 then writeNmiCause i s else s
  let s := if bitOf r 0 then sendMsix (if severe then s.fault.severeVec else s.fault.minorVec) s else s
  if bitOf r 2 then beginBlockReset i s else s

theorem react_eq (r i syn : Nat) (severe : Bool) (s : State) : react r i syn severe s =
    if bitOf r 3 then chipReset 2 (reactBefore r i syn severe s) else reactBefore r i syn severe s := rfl

theorem writeNmiCause_collectorKept (i : Nat) (s : State) : CollectorKept s (writeNmiCause i s) := ⟨rfl, rfl, rfl⟩

theorem reactBefore_collectorKept (r i syn : Nat) (severe : Bool) (s : State) : CollectorKept s (reactBefore r i syn severe s) := by
  have hif (c : Bool) {a b : State} (h : CollectorKept a b) : CollectorKept a (if c then b else a) := .ite h (.refl a)
  exact (hif _ (fireNet_collectorKept 2 s)).trans <| (hif _ (applyFence_collectorKept i syn _)).trans <|
    (hif _ (writeNmiCause_collectorKept i _)).trans <| (hif _ (sendMsix_collectorKept _ _)).trans (hif _ (beginBlockReset_collectorKept i _))

/-- Whatever the reactions of a set do, the state of every source, the latch and OVERFLOW stand (14 R428, R431). -/
theorem react_kept (r i syn : Nat) (severe : Bool) {s : State} (hlen : s.fault.srcs.length = 416) :
    (∀ k < 416, SameSrcState (srcOf s k) (srcOf (react r i syn severe s) k)) ∧
    (react r i syn severe s).fault.latch = s.fault.latch ∧ (react r i syn severe s).fault.overflow = s.fault.overflow := by
  have hbefore := reactBefore_collectorKept r i syn severe s
  have hsrc (k : Nat) : SameSrcState (srcOf s k) (srcOf (reactBefore r i syn severe s) k) :=
    .of_eq (congrArg (fun l : List Src => l.getD k {}) hbefore.srcs)
  rw [react_eq]
  split
  · exact ⟨fun k hk => (hsrc k).trans (chipReset_sameSrcState (by rw [hbefore.srcs, hlen]) hk), hbefore.latch, hbefore.overflow⟩
  · exact ⟨fun k _ => hsrc k, hbefore.latch, hbefore.overflow⟩

end Sys2Proof.Machine
end

section
/-! SUPPORT. One event of a fault source (14 R421 to R428): when a report is an event, and what it makes of the source, the latch, the log and the
reactions. The statement about events (O26). -/

namespace Sys2Proof.Machine

/-! ## The list of sources -/

section ModifyAt

variable {α : Type} {f : α → α} {d : α} {i k : Nat} {l : List α}

theorem getD_modifyAt_same (h : i < l.length) : (modifyAt f i l).getD i d = f (l.getD i d) := by
  induction l generalizing i with
  | nil => exact absurd h (Nat.not_lt_zero i)
  | cons x l ih =>
    cases i with
    | zero => rfl
    | succ i => exact ih (Nat.lt_of_succ_lt_succ h)

theorem getD_modifyAt_of_ne (h : k ≠ i) : (modifyAt f i l).getD k d = l.getD k d := by
  induction l generalizing i k with
  | nil => cases i <;> rfl
  | cons x l ih =>
    cases i with
    | zero =>
      cases k with
      | zero => exact absurd rfl h
      | succ k => rfl
    | succ i =>
      cases k with
      | zero => rfl
      | succ k => exact ih (fun e => h (congrArg _ e))

theorem srcOf_setSrc_same {x : Src} {s : State} (h : i < s.fault.srcs.length) : srcOf (setSrc i x s) i = x := getD_modifyAt_same h

theorem srcOf_setSrc_of_ne {x : Src} {s : State} (h : k ≠ i) : srcOf (setSrc i x s) k = srcOf s k := getD_modifyAt_of_ne h

end ModifyAt

/-! ## The event that a report is -/

section Event

variable {t i addr syn : Nat} {s : State} {x : Src} {e : FRec}

/-- An event at `now` opens a new window (14 R422). -/
def eventOpens (x : Src) (now : Nat) : Bool := x.count == 0 || decide (x.winStart + 1000 * 2 ^ x.w ≤ now)

/-- The window counter after an event. -/
def eventCount (x : Src) (now : Nat) : Nat := if eventOpens x now then 1 else min (x.count + 1) 255

/-- `severe` after an event; a temperature source is never severe by count (14 R552). -/
def eventSevere (i : Nat) (x : Src) (now : Nat) : Bool :=
  x.severe || (decide (x.n ≤ eventCount x now) && !(decide (58 ≤ i) && decide (i ≤ 66)))

/-- The set of reactions that an event takes (14 R426). -/
def eventSet (i : Nat) (x : Src) (now : Nat) : Nat := if eventSevere i x now then x.sev else x.minor

/-- The source after an event. -/
def eventSrc (i : Nat) (x : Src) (now : Nat) : Src :=
  { x with total := min (x.total + 1) 65535, winStart := if eventOpens x now then now else x.winStart, count := eventCount x now
           severe := eventSevere i x now, sticky := true, pin := x.pin || bitOf (eventSet i x now) 4, lastDt := some now, was := x.sticky }

/-- The record of an event (14 R425). -/
def eventRec (i addr syn : Nat) (x : Src) (s : State) : FRec :=
  { dt := s.dt, addr := addr, syn := syn, src := i, reactions := eventSet i x s.dt, entry := b2n (eventSevere i x s.dt)
    frame := s.frame.number % 2 ^ 32 }

/-- The source and the latch take an event (14 R422, R425). -/
def eventLatched (i addr syn : Nat) (s : State) : State :=
  latchEvent (srcOf s i).latch (eventRec i addr syn (srcOf s i) s) (setSrc i (eventSrc i (srcOf s i) s.dt) s)

/-- The log takes an event whose set is not empty (14 R426). -/
def eventLogged (i addr syn : Nat) (s : State) : State :=
  if eventSet i (srcOf s i) s.dt = 0 then eventLatched i addr syn s
  else logFault (eventRec i addr syn (srcOf s i) s) (eventLatched i addr syn s)

/-- No configuration of the source was written in the hub cycle (notes/assumptions/79.md). -/
abbrev NoWriteNow (i : Nat) (s : State) : Prop := ∀ p, s.fault.prev = some p → p.2.1 = i → hubCycle p.1 ≠ hubCycle s.dt

theorem sameCycle_eq_false (h : ∀ t', x.lastDt = some t' → hubCycle t' ≠ hubCycle t) : sameCycle x t = false := by
  unfold sameCycle
  split
  next l hl => simpa using h l hl
  · rfl

theorem sameCycle_eq_true {t' : Nat} (hl : x.lastDt = some t') (h : hubCycle t' = hubCycle t) : sameCycle x t = true := by
  simp [sameCycle, hl, h]

theorem takeEvent_taken (hsil : silent s i = false) (hen : (srcOf s i).en = true) (hone : sameCycle (srcOf s i) s.dt = false)
    (hcfg : NoWriteNow i s) : takeEvent i addr syn s =
      react (eventSet i (srcOf s i) s.dt) i syn (eventSevere i (srcOf s i) s.dt) (reportFaultN (faultN s) (eventLogged i addr syn s)) := by
  have hopen {α : Type} (a b : α) : (if (srcOf s i).count = 0 ∨ s.dt ≥ (srcOf s i).winStart + 1000 * 2 ^ (srcOf s i).w then a else b) =
      if eventOpens (srcOf s i) s.dt then a else b := if_congr (by simp [eventOpens]) rfl rfl
  unfold takeEvent
  rcases hp : s.fault.prev with _ | ⟨t, j, old⟩ <;> dsimp only
  case' some => rw [if_neg (show ¬ (j = i ∧ hubCycle t = hubCycle s.dt) from fun hj => hcfg _ hp hj.1 hj.2)]
  all_goals
    rw [if_neg (by simp [hsil, hen]), hone]
    simp only [hopen]
    rfl

theorem takeEvent_none (h : silent s i = true ∨ ((srcOf s i).en = false ∧ NoWriteNow i s)) : takeEvent i addr syn s = s := by
  rcases h with h | ⟨hen, hcfg⟩
  · exact if_pos (by simp [h])
  · unfold takeEvent
    rcases hp : s.fault.prev with _ | ⟨t, j, old⟩ <;> dsimp only
    case' some => rw [if_neg (show ¬ (j = i ∧ hubCycle t = hubCycle s.dt) from fun hj => hcfg _ hp hj.1 hj.2)]
    all_goals exact if_pos (by simp [hen])

theorem raise_first (hone : sameCycle (srcOf s i) s.dt = false) : raise i addr syn s = takeEvent i addr syn s := by
  rw [raise, hone]
  rfl

theorem raise_again (h : sameCycle (srcOf s i) s.dt = true) : raise i addr syn s = s := if_pos h

theorem raise_none (h : silent s i = true ∨ ((srcOf s i).en = false ∧ NoWriteNow i s)) : raise i addr syn s = s := by
  unfold raise
  split
  · rfl
  · exact takeEvent_none h

/-! ## The report -/

theorem ringReport_only (i syn : Nat) (s : State) : ∃ c, ringReport i syn s = { s with cores := c } := by
  unfold ringReport
  split
  next l _ =>
    by_cases hring : l < 4 ∨ l > 7 ∨ s.cores.hubRoute.contains l = true
    · exact ⟨s.cores, if_pos hring⟩
    · exact ⟨_, ringFail_eq hring⟩
  · exact ⟨s.cores, rfl⟩

/-- A report is a level in effect or a ring link's failover, before it is an event. -/
theorem reported_only (i syn t : Nat) (s : State) : ∃ c l, reported i syn t s =
    { atDt t s with cores := c, fault := { (atDt t s).fault with levels := l } } := by
  unfold reported
  split
  · exact ⟨(atDt t s).cores, _, rfl⟩
  · obtain ⟨c, hc⟩ := ringReport_only i syn (atDt t s)
    exact ⟨c, (atDt t s).fault.levels, hc⟩

theorem silent_reported : silent (reported i syn t s) = silent (atDt t s) := by
  obtain ⟨c, l, h⟩ := reported_only i syn t s
  rw [h]
  rfl

theorem reported_dt : (reported i syn t s).dt = (atDt t s).dt := by
  obtain ⟨c, l, h⟩ := reported_only i syn t s
  rw [h]

theorem srcs_reported : (reported i syn t s).fault.srcs = s.fault.srcs := by
  obtain ⟨c, l, h⟩ := reported_only i syn t s
  rw [h]
  rfl

theorem srcOf_reported (k : Nat) : srcOf (reported i syn t s) k = srcOf s k := congrArg (fun l : List Src => l.getD k {}) srcs_reported

theorem reported_fault : (reported i syn t s).fault.latch = s.fault.latch ∧ (reported i syn t s).fault.prev = s.fault.prev := by
  obtain ⟨c, l, h⟩ := reported_only i syn t s
  rw [h]
  exact ⟨rfl, rfl⟩

theorem reported_frame : (reported i syn t s).frame = s.frame := by
  obtain ⟨c, l, h⟩ := reported_only i syn t s
  rw [h]
  rfl

theorem exec_faultEvent_lasts (hs : Live s) (hstack : isStackLost i = false) (hl : srcLevel i = true) (hin : i ∈ s.fault.levels) :
    exec (.faultEvent t i addr syn) s = .next (atDt t s) := by
  change execFaultEvent t i addr syn s = _
  rw [execFaultEvent, runAt_live hs, report, hl, hstack, raiseLevel, if_pos (show (atDt t s).fault.levels.contains i = true by simpa using hin)]
  rfl

theorem exec_faultEvent_reported (hs : Live s) (hstack : isStackLost i = false) (hl : srcLevel i = true → i ∉ s.fault.levels) :
    exec (.faultEvent t i addr syn) s = .next (raise i addr syn (reported i syn t s)) := by
  change execFaultEvent t i addr syn s = _
  rw [execFaultEvent, runAt_live hs, report, hstack, reported]
  cases hlev : srcLevel i with
  | false => rfl
  | true =>
    rw [raiseLevel, if_neg (show ¬ (atDt t s).fault.levels.contains i = true by simpa using hl hlev), hstack]
    rfl

end Event

/-! ## What an event leaves -/

section Left

variable {i k addr syn : Nat} {s : State} {e : FRec} {b : Bool}

theorem latchEvent_full {f : FRec} (h : s.fault.latch = some f) :
    (latchEvent b e s).fault.latch = some f ∧ (latchEvent b e s).fault.overflow = true := by
  rw [latchEvent, h]
  exact ⟨h, rfl⟩

theorem latchEvent_empty (h : s.fault.latch = none) : (latchEvent b e s).fault.latch = if b then some e else none := by
  rw [latchEvent, h]
  cases b with
  | true => rfl
  | false => exact h

theorem srcs_latchEvent : (latchEvent b e s).fault.srcs = s.fault.srcs := by
  unfold latchEvent
  split
  · rfl
  · split <;> rfl

theorem reportFaultN_collectorKept (old : Bool) (s : State) : CollectorKept s (reportFaultN old s) := by
  exact .ite (.refl s) (sendFlit_collectorKept _ _ s)

theorem logFault_collectorKept (e : FRec) (s : State) : CollectorKept s (logFault e s) := by
  unfold logFault
  exact ⟨rfl, rfl, rfl⟩

theorem eventLogged_collectorKept (i addr syn : Nat) (s : State) : CollectorKept (eventLatched i addr syn s) (eventLogged i addr syn s) :=
  .ite (.refl _) (logFault_collectorKept _ _)

/-- What is in the collector after an event, whatever its reactions do: the source's new state, every other source's old one, and the latch. -/
theorem event_left (hlen : s.fault.srcs.length = 416) (hi : i < 416) (r : Nat) (severe : Bool) :
    let v := react r i syn severe (reportFaultN b (eventLogged i addr syn s))
    SameSrcState (eventSrc i (srcOf s i) s.dt) (srcOf v i) ∧ (∀ k < 416, k ≠ i → SameSrcState (srcOf s k) (srcOf v k)) ∧
    v.fault.latch = (eventLatched i addr syn s).fault.latch ∧ v.fault.overflow = (eventLatched i addr syn s).fault.overflow := by
  intro v
  have hkept := (eventLogged_collectorKept i addr syn s).trans (reportFaultN_collectorKept b _)
  have hsrcs : (reportFaultN b (eventLogged i addr syn s)).fault.srcs = (setSrc i (eventSrc i (srcOf s i) s.dt) s).fault.srcs :=
    hkept.srcs.trans srcs_latchEvent
  have hsrc (k : Nat) : srcOf (reportFaultN b (eventLogged i addr syn s)) k = srcOf (setSrc i (eventSrc i (srcOf s i) s.dt) s) k :=
    congrArg (fun l : List Src => l.getD k {}) hsrcs
  have hlen' : (reportFaultN b (eventLogged i addr syn s)).fault.srcs.length = 416 := by
    rw [hsrcs, ← hlen]
    exact modifyAt_length _ _ _
  obtain ⟨hsame, hlatch, hover⟩ := react_kept r i syn severe hlen'
  refine ⟨?_, fun k hk hne => ?_, hlatch.trans hkept.latch, hover.trans hkept.overflow⟩
  · have h := hsame i hi
    rwa [hsrc, srcOf_setSrc_same (hlen ▸ hi)] at h
  · have h := hsame k hk
    rwa [hsrc, srcOf_setSrc_of_ne hne] at h

end Left

/-- Settles O26: an event by `takeEvent_taken`, what its reactions leave by `event_left`, and the reports that are none. -/
theorem faultEvents : Obligations.FaultEvents := by
  unfold Obligations.FaultEvents
  have hevent (t i addr syn : Nat) (s : State) (hs : Live s) (hsil : silent (reported i syn t s) i = false) (hen : (srcOf s i).en = true)
      (hone : ∀ t', (srcOf s i).lastDt = some t' → hubCycle t' ≠ hubCycle (reported i syn t s).dt)
      (hcfg : ∀ p, s.fault.prev = some p → p.2.1 = i → hubCycle p.1 ≠ hubCycle (reported i syn t s).dt)
      (hl : srcLevel i = true → i ∉ s.fault.levels) (hstack : isStackLost i = false) :
      exec (.faultEvent t i addr syn) s =
        .next (react (eventSet i (srcOf s i) (reported i syn t s).dt) i syn (eventSevere i (srcOf s i) (reported i syn t s).dt)
          (reportFaultN (faultN (reported i syn t s)) (eventLogged i addr syn (reported i syn t s)))) := by
    have hone' : sameCycle (srcOf (reported i syn t s) i) (reported i syn t s).dt = false := by
      rw [srcOf_reported]
      exact sameCycle_eq_false hone
    rw [exec_faultEvent_reported hs hstack hl, raise_first hone', takeEvent_taken hsil (by rwa [srcOf_reported]) hone'
      (fun p hp => hcfg p (reported_fault.2 ▸ hp)), srcOf_reported]
  refine ⟨fun t i addr syn s hs hlen hi => ?after, fun t i addr syn s hs => ?effect, fun t i addr syn s hs => ?noEvent⟩
  case after =>
    intro u x hsil hen hone hcfg hl hstack opened count severe r
    have hdt : (reported i syn t s).dt = u.dt := reported_dt
    have hexec := hevent t i addr syn s hs (by rw [silent_reported]; exact hsil) hen (by rw [hdt]; exact hone) (by rw [hdt]; exact hcfg)
      hl hstack
    have hsrc (k : Nat) : srcOf (reported i syn t s) k = srcOf s k := srcOf_reported k
    have hlen' : (reported i syn t s).fault.srcs.length = 416 := (congrArg List.length srcs_reported).trans hlen
    have hlatch : (reported i syn t s).fault.latch = s.fault.latch := reported_fault.1
    have hframe : (reported i syn t s).frame = s.frame := reported_frame
    generalize reported i syn t s = w at hdt hexec hsrc hlen' hlatch hframe
    obtain ⟨hi', hothers, hvlatch, hover⟩ := event_left (b := faultN w) (addr := addr) (syn := syn) hlen' hi
      (eventSet i (srcOf s i) w.dt) (eventSevere i (srcOf s i) w.dt)
    have hlatched : eventLatched i addr syn w = latchEvent x.latch
        { dt := u.dt, addr := addr, syn := syn, src := i, reactions := r, entry := b2n severe, frame := s.frame.number % 2 ^ 32 }
        (setSrc i (eventSrc i x u.dt) w) := by
      rw [eventLatched, eventRec, hsrc, hdt, hframe]
      rfl
    have hbefore : (setSrc i (eventSrc i x u.dt) w).fault.latch = s.fault.latch := hlatch
    rw [hlatched] at hvlatch hover
    rw [hsrc, hdt] at hi'
    rw [hdt] at hexec hvlatch hover hothers
    refine ⟨_, hexec, hi'.sticky, hi'.total, hi'.count, hi'.winStart, hi'.severe, hi'.pin, fun k hk hne => ?_, fun f hf => ?_,
      fun hf hx => ?_, fun hf hx => ?_⟩
    · have h := hothers k hk hne
      rw [hsrc] at h
      exact ⟨h.sticky, h.severe, h.pin, h.count, h.total⟩
    · obtain ⟨h1, h2⟩ := latchEvent_full (hbefore.trans hf)
      exact ⟨hvlatch.trans h1, hover.trans h2⟩
    all_goals
      rw [hx, latchEvent_empty (hbefore.trans hf)] at hvlatch
      exact hvlatch
  case effect =>
    intro u x hsil hen hone hcfg hl hstack opened count severe r y e z
    rw [hevent t i addr syn s hs hsil hen hone hcfg hl hstack]
    have hsrc : srcOf u i = x := srcOf_reported i
    have hr : eventSet i x u.dt = r := rfl
    have hsevere : eventSevere i x u.dt = severe := rfl
    have he : eventRec i addr syn x u = e := by
      rw [eventRec, show u.frame = s.frame from reported_frame]
      rfl
    have hz : eventLatched i addr syn u = z := by
      rw [eventLatched, hsrc, he]
      rfl
    have hpins : faultN u = faultN s := congrArg (fun l : List Src => l.any (fun x => x.pin)) srcs_reported
    rw [eventLogged, hz, hsrc, he, hr, hsevere, hpins]
  case noEvent =>
    intro u hstack
    refine ⟨exec_faultEvent_lasts hs hstack, fun hl => ?_⟩
    rw [exec_faultEvent_reported hs hstack hl]
    refine ⟨fun hsil => congrArg _ (raise_none (.inl hsil)), fun hen hcfg => congrArg _ (raise_none (.inr ⟨?_, fun p hp => ?_⟩)),
      fun t' hl h => congrArg _ (raise_again ?_)⟩
    · rwa [srcOf_reported]
    · exact hcfg p (reported_fault.2 ▸ hp)
    · rw [srcOf_reported]
      exact sameCycle_eq_true hl h

end Sys2Proof.Machine
end

section
/-! SUPPORT. Each reaction of a set, the level sources, and the clears and configuration writes of the collector (14 R423 to R428, R436, R441,
17 R524). The statements about them (O27, O28, O29). -/

namespace Sys2Proof.Machine

/-! ## Each reaction -/

theorem lookupO_foldl_insertKey {p i : Nat} {c : Nat → Bool} {l : List (Nat × Nat)} (n : Nat) :
    lookupO p ((List.range n).foldl (fun l q => if c q then insertKey q i l else l) l) =
      if p < n ∧ c p = true then some i else lookupO p l := by
  induction n with
  | zero => simp
  | succ n ih =>
    rw [List.range_succ, List.foldl_append]
    generalize (List.range n).foldl (fun l q => if c q then insertKey q i l else l) l = m at ih
    simp only [List.foldl_cons, List.foldl_nil]
    rcases eq_or_ne p n with rfl | hp
    · cases hc : c p with
      | true => simp [(lookup_insert_same 0 p i m).1]
      | false => simp [ih]
    · have hlt : p < n + 1 ↔ p < n := by omega
      rw [apply_ite (lookupO p), lookupO_insertKey_of_ne hp, ite_self, ih]
      simp only [hlt]

/-- Settles O27: `react` with one bit of the set, then with all of them. -/
theorem reactionSets : Obligations.ReactionSets := by
  unfold Obligations.ReactionSets
  intro i syn severe s
  have hN : react rN i syn severe s = fireNet 2 s := rfl
  have hF (s : State) : react rF i syn severe s = applyFence i syn s := rfl
  have hM (s : State) : react rM i syn severe s = writeNmiCause i s := rfl
  have hI (s : State) : react rI i syn severe s = sendMsix (if severe then s.fault.severeVec else s.fault.minorVec) s := rfl
  have hB (s : State) : react rB i syn severe s = beginBlockReset i s := rfl
  have hC : react rC i syn severe s = chipReset 2 s := rfl
  refine ⟨rfl, rfl, hN, hF s, hI s, hB s, hC, ⟨writeNmiCause i s, hM s, rfl, rfl, fun p hp => ?_⟩, ?_⟩
  · rw [writeNmiCause, lookupO_foldl_insertKey]
    simp only [hp, true_and]
  · have hall : react (rN + rF + rP + rM + rI + rB + rC) i syn severe s =
        chipReset 2 (reactBefore (rN + rF + rP + rM + rI + rB + rC) i syn severe s) := by
      rw [react_eq]
      exact if_pos rfl
    rw [hall, hB, hI, hM, hF, hN]
    exact congrArg (chipReset 2) rfl

/-! ## Level sources -/

section Level

variable {t i addr syn : Nat} {ended : List Nat} {s : State}

theorem foldl_endLevel (ended : List Nat) (s : State) : ended.foldl (fun s i => endLevel i s) s =
    { s with fault := { s.fault with levels := s.fault.levels.filter (fun k => !ended.contains k) } } := by
  induction ended generalizing s with
  | nil => simp
  | cons i l ih =>
    rw [List.foldl_cons, ih, endLevel]
    simp only [List.filter_filter, List.contains_cons, Bool.not_or]
    congr 3
    funext k
    exact Bool.and_comm _ _

theorem exec_levelSourceBegin_live (hs : Live s) (h : ∀ k ∈ ended, k < 112 ∨ 128 ≤ k) :
    exec (.levelSourceBegin t i addr syn ended) s = .next (report i addr syn { atDt t s with
      fault := { s.fault with levels := s.fault.levels.filter (fun k => !ended.contains k) } }) := by
  have hkeep : ended.filter (fun i => !(decide (112 ≤ i) && decide (i < 128))) = ended := by
    refine List.filter_eq_self.2 fun k hk => ?_
    have := h k hk
    simp only [Bool.not_eq_true', Bool.and_eq_false_iff, decide_eq_false_iff_not]
    omega
  change execLevelSourceBegin t i addr syn ended s = _
  rw [execLevelSourceBegin, runAt_live hs, hkeep, foldl_endLevel]
  rfl

theorem exec_levelSourceBegin_nil (hs : Live s) :
    exec (.levelSourceBegin t i addr syn []) s = exec (.faultEvent t i addr syn) s := by
  change execLevelSourceBegin t i addr syn [] s = execFaultEvent t i addr syn s
  rw [execLevelSourceBegin, execFaultEvent, runAt_live hs, runAt_live hs]
  rfl

theorem report_level (hl : srcLevel i = true) (hstack : isStackLost i = false) : report i addr syn s = raiseLevel i addr syn s := by
  rw [report, hl, hstack]
  rfl

theorem raiseLevel_lasts (h : i ∈ s.fault.levels) : raiseLevel i addr syn s = s := if_pos (by simpa using h)

theorem raiseLevel_begins (h : i ∉ s.fault.levels) : raiseLevel i addr syn s = raise i addr syn { s with
    fault := { s.fault with
      levels := s.fault.levels ++ [i]
      stackLost := if isStackLost i then some (s.fault.stackLost.getD i) else s.fault.stackLost } } := if_neg (by simpa using h)

theorem raiseLevel_plain (h : i ∉ s.fault.levels) (hstack : isStackLost i = false) : raiseLevel i addr syn s =
    raise i addr syn { s with fault := { s.fault with levels := s.fault.levels ++ [i] } } := by
  rw [raiseLevel_begins h, hstack]
  rfl

end Level

/-- Settles O28: a report of a level source by whether its condition lasts; a stack-unreachable source aborts what was accepted besides. -/
theorem levelSources : Obligations.LevelSources := by
  unfold Obligations.LevelSources
  refine ⟨fun t i addr syn ended s hs hstack hended => ⟨fun _ => exec_levelSourceBegin_nil hs, fun hl => ?level⟩,
    fun t k addr syn s hs hk hnew => ?stack⟩
  case level =>
    intro u w
    have hw : exec (.levelSourceBegin t i addr syn ended) s = .next (raiseLevel i addr syn w) := by
      rw [exec_levelSourceBegin_live hs hended, report_level hl hstack]
    refine ⟨fun h => ?_, fun h => ?_, (exec_levelSourceBegin_nil hs).symm⟩
    · rw [hw, raiseLevel_lasts h]
    · rw [hw, raiseLevel_plain h hstack]
  case stack =>
    intro i
    refine ⟨(exec_levelSourceBegin_nil hs).symm, ?_⟩
    have hi : srcLevel i = true ∧ isStackLost i = true := (by decide : ∀ k < 4, srcLevel (114 + 4 * k) = true ∧ isStackLost (114 + 4 * k) = true) k hk
    rw [exec_levelSourceBegin_nil hs]
    change execFaultEvent t i addr syn s = _
    rw [execFaultEvent, runAt_live hs, report, hi.1, hi.2, raiseLevel_begins (s := atDt t s) hnew, hi.2]
    rfl

/-! ## The clear of a source -/

section Clear

variable {i k t : Nat} {s : State} {x : Src}

/-- A source after its clear at `now` (14 R441): an event of the clear's own hub cycle is taken after it. -/
def clearedSrc (i : Nat) (x : Src) (now : Nat) : Src :=
  if !x.sticky then x else
  if sameCycle x now then
    let severe := decide (x.n ≤ 1) && !(decide (58 ≤ i) && decide (i ≤ 66))
    { x with severe := severe, pin := bitOf (if severe then x.sev else x.minor) 4, count := 1, winStart := now, was := false }
  else { x with sticky := false, severe := false, pin := false, count := 0 }

theorem clearedSrc_of_not_sticky (h : x.sticky = false) : clearedSrc i x t = x := if_pos (by simp [h])

theorem clearedSrc_of_now (h : x.sticky = true) (hc : sameCycle x t = true) : clearedSrc i x t =
    { x with
      severe := decide (x.n ≤ 1) && !(decide (58 ≤ i) && decide (i ≤ 66)), count := 1, winStart := t, was := false
      pin := bitOf (if decide (x.n ≤ 1) && !(decide (58 ≤ i) && decide (i ≤ 66)) then x.sev else x.minor) 4 } := by
  rw [clearedSrc, h, hc]
  rfl

theorem clearedSrc_of_before (h : x.sticky = true) (hc : sameCycle x t = false) : clearedSrc i x t =
    { x with sticky := false, severe := false, pin := false, count := 0 } := by
  rw [clearedSrc, h, hc]
  rfl

theorem reportFaultN_only (old : Bool) (s : State) : ∃ c, reportFaultN old s = { s with chain := c } := by
  unfold reportFaultN
  split
  · exact ⟨s.chain, rfl⟩
  · exact ⟨_, rfl⟩

/-- From `s` to `v` source `i` is cleared as `clearedSrc` says, and no other source changes. -/
structure Cleared (i : Nat) (s v : State) : Prop where
  src : ∀ k, srcOf v k = if k = i then clearedSrc i (srcOf s i) s.dt else srcOf s k
  length : v.fault.srcs.length = s.fault.srcs.length
  levels : v.fault.levels = s.fault.levels
  dt : v.dt = s.dt

theorem cleared_of_not_sticky (h : (srcOf s i).sticky = false) : Cleared i s s := by
  refine ⟨fun k => ?_, rfl, rfl, rfl⟩
  rw [clearedSrc_of_not_sticky h]
  split
  next hk => rw [hk]
  · rfl

theorem cleared_of_setSrc {v : State} (hi : i < s.fault.srcs.length)
    (hsrcs : v.fault.srcs = (setSrc i (clearedSrc i (srcOf s i) s.dt) s).fault.srcs) (hlevels : v.fault.levels = s.fault.levels)
    (hdt : v.dt = s.dt) : Cleared i s v := by
  refine ⟨fun k => ?_, (congrArg List.length hsrcs).trans (modifyAt_length _ _ _), hlevels, hdt⟩
  refine (congrArg (fun l : List Src => l.getD k {}) hsrcs).trans ?_
  split
  · subst k
    exact srcOf_setSrc_same hi
  next hk => exact srcOf_setSrc_of_ne hk

theorem clearBefore_srcs (h : (srcOf s i).sticky = true) (hc : sameCycle (srcOf s i) s.dt = true) :
    (clearBefore i (srcOf s i) s).fault.srcs = (setSrc i (clearedSrc i (srcOf s i) s.dt) s).fault.srcs ∧
    (clearBefore i (srcOf s i) s).fault.levels = s.fault.levels ∧ (clearBefore i (srcOf s i) s).dt = s.dt := by
  rw [clearedSrc_of_now h hc]
  unfold clearBefore logAction logFault
  dsimp only
  split <;> exact ⟨rfl, rfl, rfl⟩

/-- The clear of a source with a sticky bit from an earlier hub cycle, before a condition that lasts raises it again (14 R441). -/
def clearLogged (i : Nat) (s : State) : State :=
  reportFaultN (faultN s) (logAction 2 i 0 (setSrc i { srcOf s i with sticky := false, severe := false, pin := false, count := 0 } s))

theorem clearSource_now (h : (srcOf s i).sticky = true) (hc : sameCycle (srcOf s i) s.dt = true) :
    clearSource i s = reportFaultN (faultN s) (clearBefore i (srcOf s i) s) := by
  rw [clearSource, h, hc]
  rfl

theorem clearSource_before (h : (srcOf s i).sticky = true) (hc : sameCycle (srcOf s i) s.dt = false) : clearSource i s =
    if (clearLogged i s).fault.levels.contains i then levelAgain i (clearLogged i s) else clearLogged i s := by
  rw [clearSource, h, hc]
  rfl

theorem clearLogged_levels : (clearLogged i s).fault.levels = s.fault.levels := by
  obtain ⟨c, h⟩ := reportFaultN_only (faultN s)
    (logAction 2 i 0 (setSrc i { srcOf s i with sticky := false, severe := false, pin := false, count := 0 } s))
  rw [clearLogged, h]
  rfl

theorem clearLogged_dt : (clearLogged i s).dt = s.dt := by
  obtain ⟨c, h⟩ := reportFaultN_only (faultN s)
    (logAction 2 i 0 (setSrc i { srcOf s i with sticky := false, severe := false, pin := false, count := 0 } s))
  rw [clearLogged, h]
  rfl

theorem clearSource_cleared (hlast : i ∉ s.fault.levels) (hi : i < s.fault.srcs.length) : Cleared i s (clearSource i s) := by
  cases hsticky : (srcOf s i).sticky with
  | false =>
    have hsame : clearSource i s = s := if_pos (by simp [hsticky])
    exact hsame.symm ▸ cleared_of_not_sticky hsticky
  | true =>
    cases hc : sameCycle (srcOf s i) s.dt with
    | true =>
      obtain ⟨c, hr⟩ := reportFaultN_only (faultN s) (clearBefore i (srcOf s i) s)
      obtain ⟨hsrcs, hlevels, hdt⟩ := clearBefore_srcs hsticky hc
      rw [clearSource_now hsticky hc, hr]
      exact cleared_of_setSrc hi hsrcs hlevels hdt
    | false =>
      rw [clearSource_before hsticky hc, if_neg (by rw [clearLogged_levels]; simpa using hlast)]
      refine cleared_of_setSrc hi ?_ clearLogged_levels clearLogged_dt
      rw [clearedSrc_of_before hsticky hc]
      exact (reportFaultN_collectorKept _ _).srcs.trans (logAction_collectorKept _ _ _ _).srcs

/-- The clear of the sources that the ones of a word name, bit by bit: each of them is cleared, and no other source changes. -/
theorem foldl_clearSource {base n : Nat} {c : Nat → Bool} (hlast : ∀ b < n, c b = true → base + b ∉ s.fault.levels)
    (hlen : ∀ b < n, c b = true → base + b < s.fault.srcs.length) :
    let v := (List.range n).foldl (fun s b => if c b then clearSource (base + b) s else s) s
    (∀ k, srcOf v k = if base ≤ k ∧ k < base + n ∧ c (k - base) = true then clearedSrc k (srcOf s k) s.dt else srcOf s k) ∧
    v.fault.srcs.length = s.fault.srcs.length ∧ v.fault.levels = s.fault.levels ∧ v.dt = s.dt := by
  induction n with
  | zero =>
    refine ⟨fun k => (if_neg ?_).symm, rfl, rfl, rfl⟩
    omega
  | succ n ih =>
    obtain ⟨hsrc, hlength, hlevels, hdt⟩ := ih (fun b hb => hlast b (by omega)) (fun b hb => hlen b (by omega))
    rw [List.range_succ, List.foldl_append]
    generalize (List.range n).foldl (fun s b => if c b then clearSource (base + b) s else s) s = w at hsrc hlength hlevels hdt
    simp only [List.foldl_cons, List.foldl_nil]
    cases hc : c n with
    | false =>
      refine ⟨fun k => (hsrc k).trans (if_congr ?_ rfl rfl), hlength, hlevels, hdt⟩
      refine and_congr_right fun hk => ?_
      rcases eq_or_ne k (base + n) with rfl | hne
      · simp [hc]
      · have : k < base + (n + 1) ↔ k < base + n := by omega
        rw [this]
    | true =>
      obtain ⟨hcsrc, hclength, hclevels, hcdt⟩ := clearSource_cleared (i := base + n) (s := w) (hlevels ▸ hlast n (by omega) hc) (hlength ▸ hlen n (by omega) hc)
      refine ⟨fun k => (hcsrc k).trans ?_, hclength.trans hlength, hclevels.trans hlevels, hcdt.trans hdt⟩
      rcases eq_or_ne k (base + n) with rfl | hne
      · have hold : srcOf w (base + n) = srcOf s (base + n) := (hsrc _).trans (if_neg (by omega))
        simp [hc, hold, hdt]
      · have : k < base + (n + 1) ↔ k < base + n := by omega
        rw [if_neg hne, hsrc]
        exact if_congr (by rw [this]) rfl rfl

/-- A fold over a range that acts at one number only. -/
theorem foldl_range_once {α : Type} {f : α → α} {j n : Nat} (h : j < n) (a : α) :
    (List.range n).foldl (fun a b => if b = j then f a else a) a = f a := by
  have hid (m : Nat) (hm : m ≤ j) : (List.range m).foldl (fun a b => if b = j then f a else a) a = a := by
    induction m with
    | zero => rfl
    | succ m ih =>
      rw [List.range_succ, List.foldl_append, ih (by omega)]
      exact if_neg (by omega)
  induction n with
  | zero => exact absurd h (Nat.not_lt_zero j)
  | succ n ih =>
    rw [List.range_succ, List.foldl_append]
    rcases eq_or_ne n j with rfl | hne
    · rw [hid n le_rfl]
      exact if_pos rfl
    · rw [ih (by omega)]
      exact if_neg hne

theorem clearWord_one (hi : i < 416) : clearWord (i / 32) (2 ^ (i % 32)) s = clearSource i s := by
  have hbit (b : Nat) (s : State) : (if bitOf (2 ^ (i % 32)) b && decide (32 * (i / 32) + b < 416) then clearSource (32 * (i / 32) + b) s else s) =
      if b = i % 32 then clearSource i s else s := by
    rw [bitOf, Nat.testBit_two_pow]
    rcases eq_or_ne b (i % 32) with rfl | hne
    · rw [Nat.div_add_mod]
      simp [hi]
    · simp [hne, hne.symm]
  unfold clearWord
  simp only [hbit]
  exact foldl_range_once (Nat.mod_lt _ (by decide)) s

end Clear

/-! ## The write of a configuration -/

section WriteCfg

variable {v : Nat} {s : State} {dn dw dm ds : Nat}

theorem writeSrcCfg_reserved (h : srcDefault s.fault.sel = none) : writeSrcCfg v s =
    { s with fault := { s.fault with cfgErr := true } } := by
  rw [writeSrcCfg, h]

theorem writeSrcCfg_refused (h : srcDefault s.fault.sel = some (dn, dw, dm, ds))
    (hbad : ((s.fault.sel < 58 ∨ 66 < s.fault.sel) ∧ (bitsOf v 2 8 = 0 ∨ 24 < bitsOf v 10 5)) ∨ (dn = 1 ∧ bitsOf v 15 7 ≠ 0)) :
    writeSrcCfg v s = { s with fault := { s.fault with cfgErr := true } } := by
  simp only [writeSrcCfg, h]
  exact if_pos (by simpa using hbad)

theorem writeSrcCfg_written (h : srcDefault s.fault.sel = some (dn, dw, dm, ds))
    (hok : ¬ (((s.fault.sel < 58 ∨ 66 < s.fault.sel) ∧ (bitsOf v 2 8 = 0 ∨ 24 < bitsOf v 10 5)) ∨ (dn = 1 ∧ bitsOf v 15 7 ≠ 0)))
    {y : Src} (hy : y = { srcOf s s.fault.sel with
      en := bitOf v 0, latch := bitOf v 1, minor := bitsOf v 15 7, sev := bitsOf v 22 7
      n := if decide (58 ≤ s.fault.sel) && decide (s.fault.sel ≤ 66) then (srcOf s s.fault.sel).n else bitsOf v 2 8
      w := if decide (58 ≤ s.fault.sel) && decide (s.fault.sel ≤ 66) then (srcOf s s.fault.sel).w else bitsOf v 10 5 }) :
    writeSrcCfg v s = { setSrc s.fault.sel y s with
      fault := { (setSrc s.fault.sel y s).fault with prev := some (s.dt, s.fault.sel, srcOf s s.fault.sel) } } := by
  simp only [writeSrcCfg, h, hy]
  exact if_neg (by simpa using hok)

end WriteCfg

/-- Settles O29: the clear of a word by `foldl_clearSource`, of one source whose condition lasts by `clearSource_before`, and the write of a
configuration by its checks. -/
theorem collectorAccess : Obligations.CollectorAccess := by
  unfold Obligations.CollectorAccess
  refine ⟨⟨fun t word val s hs hlen hword hlast => ?clear, fun t i s hs hi hlevel hsticky hc => ?lasting⟩, fun t v s hs => ?write⟩
  case clear =>
    have hnone (b : Nat) (hb : b < 32) (hbit : (bitOf val b && decide (32 * word + b < 416)) = true) :
        32 * word + b ∉ (atDt t s).fault.levels := fun hin => by
      have hk := hlast _ hin
      rw [show (32 * word + b) / 32 = word by omega, show (32 * word + b) % 32 = b by omega] at hk
      simp_all
    have hin (b : Nat) (hb : b < 32) (hbit : (bitOf val b && decide (32 * word + b < 416)) = true) :
        32 * word + b < (atDt t s).fault.srcs.length := by
      rw [atDt_fault, hlen]
      omega
    obtain ⟨hsrc, -, hlevels, -⟩ := foldl_clearSource hnone hin
    have hnamed (i : Nat) (hi : i < 416) : (32 * word ≤ i ∧ i < 32 * word + 32 ∧
        (bitOf val (i - 32 * word) && decide (32 * word + (i - 32 * word) < 416)) = true) ↔ i / 32 = word ∧ bitOf val (i % 32) = true := by
      constructor
      · rintro ⟨hlo, hhi, hb⟩
        rw [show i % 32 = i - 32 * word by omega]
        exact ⟨by omega, (Bool.and_eq_true _ _ ▸ hb).1⟩
      · rintro ⟨hw, hb⟩
        rw [show i - 32 * word = i % 32 by omega, hb]
        exact ⟨by omega, by omega, by simpa using by omega⟩
    refine ⟨_, runAt_live hs t (clearWord word val), hlevels, fun i hi hw hb hsticky hc => ?_, fun i hi hw hb hsticky hc => ?_,
      fun i hi h => ?_⟩
    · have h := (hsrc i).trans ((if_pos ((hnamed i hi).2 ⟨hw, hb⟩)).trans (clearedSrc_of_before hsticky hc))
      exact ⟨congrArg (·.sticky) h, congrArg (·.severe) h, congrArg (·.pin) h, congrArg (·.count) h, congrArg (·.total) h⟩
    · have h := (hsrc i).trans ((if_pos ((hnamed i hi).2 ⟨hw, hb⟩)).trans (clearedSrc_of_now hsticky hc))
      exact ⟨(congrArg (·.sticky) h).trans hsticky, congrArg (·.severe) h, congrArg (·.count) h, congrArg (·.winStart) h,
        congrArg (·.pin) h, congrArg (·.total) h⟩
    · have h : srcOf (clearWord word val (atDt t s)) i = srcOf s i := by
        refine (hsrc i).trans ?_
        split
        next hn =>
          obtain ⟨hw, hb⟩ := (hnamed i hi).1 hn
          exact clearedSrc_of_not_sticky (h.resolve_left (fun hne => hne hw) |>.resolve_left (by simp [hb]))
        · rfl
      rw [h]
      exact ⟨rfl, rfl, rfl, rfl, rfl⟩
  case lasting =>
    intro u next w z
    have hw : clearLogged i u = w := rfl
    have hwdt : w.dt = u.dt := clearLogged_dt
    have hexec : exec (.faultStickyClear t (i / 32) (2 ^ (i % 32))) s = .next (levelAgain i w) := by
      change execFaultStickyClear t (i / 32) (2 ^ (i % 32)) s = _
      rw [execFaultStickyClear, runAt_live hs, clearWord_one hi, clearSource_before (s := atDt t s) hsticky hc,
        if_pos (by rw [clearLogged_levels]; simpa using hlevel)]
      rfl
    rw [hexec, levelAgain, hwdt]
    exact ⟨fun h => congrArg _ (if_pos h), fun h => congrArg _ (if_neg h)⟩
  case write =>
    intro u i x n w minor temp err wrote
    have hexec : exec (.faultSrcCfgWrite t v) s = .next (writeSrcCfg v u) := runAt_live hs t (writeSrcCfg v)
    refine ⟨runAt_live hs t clearLatch, fun h => hexec.trans (congrArg _ (writeSrcCfg_reserved (s := u) h)), fun dn dw dm ds h => ⟨?_, ?_, ?_, ?_⟩⟩
    · intro ht hbad
      exact hexec.trans (congrArg _ (writeSrcCfg_refused (s := u) h (by change (i < 58 ∨ 66 < i) ∧ _ ∨ _; omega)))
    · intro ht hbad
      exact hexec.trans (congrArg _ (writeSrcCfg_refused (s := u) h (.inr hbad)))
    · intro ht hn hw hd
      refine hexec.trans (congrArg _ (writeSrcCfg_written (s := u) h (by change ¬ ((i < 58 ∨ 66 < i) ∧ _ ∨ _); omega) ?_))
      have htemp : (decide (58 ≤ u.fault.sel) && decide (u.fault.sel ≤ 66)) = false := (Bool.decide_and _ _).symm.trans (decide_eq_false ht)
      rw [htemp]
      rfl
    · intro ht hd
      refine hexec.trans (congrArg _ (writeSrcCfg_written (s := u) h (by change ¬ ((i < 58 ∨ 66 < i) ∧ _ ∨ _); omega) ?_))
      have htemp : (decide (58 ≤ u.fault.sel) && decide (u.fault.sel ≤ 66)) = true := (Bool.decide_and _ _).symm.trans (decide_eq_true ht)
      rw [htemp]
      rfl

end Sys2Proof.Machine
end

section
/-! SUPPORT. Units that leave and come back: block resets and spares, the loss of a pair, the edges of PWR_OK and Carousel (14 R430, 12 R395, 16 R472,
15 R455 to R457, 14 R440). The statements about them (O30, O19, O52). -/

namespace Sys2Proof.Machine

/-! ## Block resets, spares and pairs -/

section Back

variable {t q p : Nat} {b : Blk} {s : State}

/-- A block leaves its reset: a cluster at the next tick, any other at once, a Net channel with its sender (14 R430). -/
def blockBack (s : State) (b : Blk) : State :=
  match b with
  | .cluster q => { s with units := { s.units with changes := s.units.changes ++ [.backFromReset q] } }
  | .netChannel c => { s with
      fault := { s.fault with blockReset := s.fault.blockReset.filter (fun x => x != .netChannel c) }
      net := if c = 0 then { s.net with chA := { s.net.chA with reset := false } } else { s.net with chB := { s.net.chB with reset := false } } }
  | b => { s with fault := { s.fault with blockReset := s.fault.blockReset.filter (fun x => x != b) } }

theorem exec_blockResetDone_live (hs : Live s) (h : b ∈ s.fault.blockReset) :
    exec (.blockResetDone t b) s = .next (blockBack (atDt t s) b) := by
  change execBlockResetDone t b s = _
  rw [execBlockResetDone, runAt_live hs]
  refine congrArg _ ((if_neg (by simpa using h)).trans ?_)
  cases b <;> rfl

theorem exec_blockResetDone_other (hs : Live s) (h : b ∉ s.fault.blockReset) : exec (.blockResetDone t b) s = .next (atDt t s) := by
  change execBlockResetDone t b s = _
  rw [execBlockResetDone, runAt_live hs]
  exact congrArg _ (if_pos (by simpa using h))

/-- Firmware-pairs-lost, when pairs 0 and 1 are both out (12 R395). -/
def pairsLost (p : Nat) (s : State) : State :=
  if p < 2 ∧ s.safety.pairsOut.contains 0 ∧ s.safety.pairsOut.contains 1 then raise 8 0 0 s else s

theorem pairsLost_both (h : p < 2 ∧ 0 ∈ s.safety.pairsOut ∧ 1 ∈ s.safety.pairsOut) : pairsLost p s = raise 8 0 0 s := if_pos (by simpa using h)

theorem pairsLost_none (h : ¬ (p < 2 ∧ 0 ∈ s.safety.pairsOut ∧ 1 ∈ s.safety.pairsOut)) : pairsLost p s = s := if_neg (by simpa using h)

theorem exec_lockstepMismatch_first (hs : Live s) (hp : p < 8) (hnew : p ∉ s.safety.pairsOut) : exec (.lockstepMismatch t p) s =
    .next (pairsLost p (ringEvent (.lost p)
      (raise p 0 0 { atDt t s with safety := { s.safety with pairsOut := s.safety.pairsOut ++ [p] } }))) := by
  change execLockstepMismatch t p s = _
  rw [execLockstepMismatch, runAt_live hs]
  exact congrArg _ (if_neg (by simpa [hp] using hnew))

theorem exec_lockstepMismatch_again (hs : Live s) (h : p ∈ s.safety.pairsOut ∨ 8 ≤ p) : exec (.lockstepMismatch t p) s = .next (atDt t s) := by
  change execLockstepMismatch t p s = _
  rw [execLockstepMismatch, runAt_live hs]
  exact congrArg _ (if_pos (by simpa [or_comm] using h))

end Back

/-- Settles O30: a block reset by its block, a spare by its state, and the loss of a pair by the pairs that are out. -/
theorem unitsOutAndBack : Obligations.UnitsOutAndBack := by
  unfold Obligations.UnitsOutAndBack
  refine ⟨fun t q b s hs => ?units, fun t p s hs => ?pair⟩
  case units =>
    intro u out
    have hspare : exec (.spareLoadDone t q) s = .next (match spareOf s q with
        | .loading pos phys => { setSpare q (.loaded pos phys) u with
            units := { (setSpare q (.loaded pos phys) u).units with changes := u.units.changes ++ [.spare q pos phys] } }
        | _ => u) := by
      change execSpareLoadDone t q s = _
      rw [execSpareLoadDone, runAt_live hs]
      rfl
    refine ⟨exec_blockResetDone_other hs, fun h => ⟨?_, ?_, ?_, ?_⟩, fun pos phys hq => ?_, fun hq => ?_⟩
    · rintro k rfl
      exact exec_blockResetDone_live hs h
    · rintro rfl
      exact exec_blockResetDone_live hs h
    · rintro rfl
      exact exec_blockResetDone_live hs h
    · rintro (⟨k, rfl⟩ | ⟨k, rfl⟩ | ⟨k, rfl⟩ | ⟨k, rfl⟩) <;> exact exec_blockResetDone_live hs h
    · rw [hspare, hq]
      rfl
    · rw [hspare]
      split
      next pos phys h => exact absurd h (hq pos phys)
      · rfl
  case pair =>
    intro u w z
    refine ⟨exec_lockstepMismatch_again hs, fun hp hnew hone => ?_, fun hp hnew h0 h1 => ?_, fun hc => ?_⟩
    · exact (exec_lockstepMismatch_first hs hp hnew).trans (congrArg _ (pairsLost_none hone))
    · exact (exec_lockstepMismatch_first hs (by omega) hnew).trans (congrArg _ (pairsLost_both ⟨hp, h0, h1⟩))
    · exact ringEvent_first hc

/-! ## The edges of PWR_OK -/

/-- Refutes O19: the list of the rise may name a number that is no rail. The unit has rails 0 to 9; with only 10 named no rail of the unit is below
its threshold, so the rise holds no supply reset. -/
theorem not_powerAndChipReset : ¬ Obligations.PowerAndChipReset := by
  unfold Obligations.PowerAndChipReset
  rintro ⟨hedges, -⟩
  obtain ⟨-, -, -, hlow, -⟩ := hedges 0 [10] { pwr := { pwrOk := false } }
  obtain ⟨u, hu, hheld, -⟩ := hlow rfl (by decide) (by decide)
  have hrise : exec (.pwrOkRise 0 [10]) { pwr := { pwrOk := false } } = .next (releasePowerOn
      ((List.range 10).map (fun r => { low := [10].contains r, under := [10].contains r })) { pwr := { pwrOk := false } }) := rfl
  obtain rfl := Host.Outcome.next.inj (hrise.symm.trans hu)
  exact absurd hheld (by decide)

/-! ## Carousel -/

section Carousel

variable {t q slice p n k : Nat} {x : CUnit} {pass : Bool} {s : State}

/-- The slice that runs is over (15 R455). -/
abbrev sliceEnded (x : CUnit) (slice : Nat) (s : State) : State :=
  { s with ringm := { s.ringm with sliceRunning := s.ringm.sliceRunning.filter (fun y => y != (x, slice)) } }

theorem exec_carouselSliceDone_other (hs : Live s) (h : (x, slice) ∉ s.ringm.sliceRunning) :
    exec (.carouselSliceDone t x slice pass) s = .next (atDt t s) := by
  change execCarouselSliceDone t x slice pass s = _
  rw [execCarouselSliceDone, runAt_live hs]
  exact congrArg _ (if_pos (by simpa using h))

theorem exec_carouselSliceDone_live (hs : Live s) (h : (x, slice) ∈ s.ringm.sliceRunning) :
    exec (.carouselSliceDone t x slice pass) s = .next (if !testable (sliceEnded x slice (atDt t s)) x then sliceEnded x slice (atDt t s)
      else if pass then slicePassed x (sliceEnded x slice (atDt t s)) else sliceFailed x slice (sliceEnded x slice (atDt t s))) := by
  change execCarouselSliceDone t x slice pass s = _
  rw [execCarouselSliceDone, runAt_live hs]
  exact congrArg _ (if_neg (by simpa using h))

theorem sliceFailed_alone (h : ∀ k, unitCl x = some k → inRotation s k = false) :
    sliceFailed x slice s = raise 84 0 (carouselSyn x slice) (setProg x 0 s) := by
  have hrot : (unitCl x).filter (inRotation s) = none := by
    cases hx : unitCl x with
    | none => rfl
    | some k => simp [h k hx]
  rw [sliceFailed, hrot]

theorem sliceFailed_inRotation (hx : unitCl x = some k) (hk : inRotation s k = true) :
    let z := raise 84 0 (carouselSyn x slice) (setProg x 0 s)
    let v := { z with safety := { z.safety with failed := z.safety.failed ++ [x] } }
    sliceFailed x slice s = if inRotation v k then clusterThrough k v else endRotations (clearProg k v) := by
  have hrot : (unitCl x).filter (inRotation s) = some k := by simp [hx, hk]
  rw [sliceFailed, hrot]

theorem slicePassed_of_cluster (hx : unitCl x = some k) : slicePassed x s =
    if inRotation s k then clusterThrough k (setProg x (progOf s x + 1) s) else setProg x ((progOf s x + 1) % 40) s := by
  simp only [slicePassed, hx]

/-- One RESTORE of the cluster ends with ABORTED_FAULT. -/
def restoreFailed (q : Nat) (s : State) (w : Work) : State := if w.item = .unitRestore q then finishWork w 0x21 0 84 0 none s else s

/-- What a recovery that failed leaves besides the completions: no new work, and the rest as it was. -/
structure WorkEnded (s v : State) : Prop where
  work : ∀ y ∈ v.work, y ∈ s.work
  units : v.units = s.units
  safety : v.safety = s.safety
  fault : v.fault = s.fault
  net : v.net = s.net
  world : v.world = s.world

theorem restoreFailed_workEnded (q : Nat) (s : State) (w : Work) : WorkEnded s (restoreFailed q s w) := by
  unfold restoreFailed
  split
  · obtain ⟨m, c, p, k, h⟩ := finishWork_only w 0x21 0 84 0 none s
    rw [h]
    exact ⟨fun y hy => (List.mem_filter.1 hy).1, rfl, rfl, rfl, rfl, rfl⟩
  · exact ⟨fun _ hy => hy, rfl, rfl, rfl, rfl, rfl⟩

theorem foldl_restoreFailed_workEnded (q : Nat) (l : List Work) (s : State) : WorkEnded s (l.foldl (restoreFailed q) s) := by
  induction l generalizing s with
  | nil => exact ⟨fun _ hy => hy, rfl, rfl, rfl, rfl, rfl⟩
  | cons w l ih =>
    have h := restoreFailed_workEnded q s w
    have g := ih (restoreFailed q s w)
    exact ⟨fun y hy => h.work y (g.work y hy), g.units.trans h.units, g.safety.trans h.safety, g.fault.trans h.fault, g.net.trans h.net,
      g.world.trans h.world⟩

theorem foldl_restoreFailed_none {l : List Work} (h : ∀ y ∈ l, y.item ≠ .unitRestore q) (s : State) : l.foldl (restoreFailed q) s = s := by
  induction l generalizing s with
  | nil => rfl
  | cons w l ih =>
    rw [List.foldl_cons, restoreFailed, if_neg (h w (List.mem_cons_self ..))]
    exact ih (fun y hy => h y (List.mem_cons_of_mem _ hy)) s

/-- The units that passed their slices of a recovery rotation let the cluster return (14 R440). -/
abbrev RecoveryPassed (q : Nat) (s : State) : Prop :=
  8 ≤ ((List.range 9).filter (fun c => progOf s (.core q c) == 40)).length ∧ progOf s (.mapCache q) = 64 ∧ progOf s (.fabric q) = 8

/-- The recovery rotation of cluster `q` is over, whatever its result. -/
abbrev recoveryOver (q : Nat) (s : State) : State :=
  clearProg q { s with units := { s.units with restoring := s.units.restoring.filter (fun y => y.1 != q) } }

theorem endRecovery_runs (h : (∀ y ∈ s.units.restoring, y.1 ≠ q) ∨ rotationOver s q = false) : endRecovery q s = s := by
  refine if_pos ?_
  rcases h with h | h
  · rw [restoringCl, List.any_eq_false.2 (fun y hy => by simpa using h y hy)]
    rfl
  · simp [h]

theorem endRecovery_over (h : ∃ y ∈ s.units.restoring, y.1 = q) (hover : rotationOver s q = true) : endRecovery q s =
    if RecoveryPassed q s then { recoveryOver q s with units := { (recoveryOver q s).units with
      changes := s.units.changes ++ [.relay q ((List.range 9).filter (fun c => progOf s (.core q c) == 40)), .restore q] } }
    else (recoveryOver q s).work.foldl (restoreFailed q) (recoveryOver q s) := by
  have hrest : restoringCl s q = true := by simpa [restoringCl] using h
  have hfold (w : State) : w.work.foldl (fun s w => match w.item with
      | .unitRestore r => if r = q then finishWork w 0x21 0 84 0 none s else s
      | _ => s) w = w.work.foldl (restoreFailed q) w := by
    refine congrArg (fun f => w.work.foldl f w) (funext fun s => funext fun w => ?_)
    unfold restoreFailed
    split
    next r hr => exact if_congr (by simp [hr]) rfl rfl
    next hno => exact (if_neg fun h => hno q h).symm
  rw [endRecovery, hrest, hover, if_neg (by decide)]
  dsimp only
  rw [← hfold]
  exact if_congr (by simp [and_assoc]) rfl rfl

theorem slicePassed_pair (h : progOf s (.pair p) < 31) : slicePassed (.pair p) s = setProg (.pair p) (progOf s (.pair p) + 1) s :=
  if_pos (by omega)

theorem slicePassed_pair_last (h : progOf s (.pair p) = 31) : slicePassed (.pair p) s =
    setProg (.pair p) 0 { s with safety := { s.safety with pairsOut := s.safety.pairsOut.filter (fun x => x != p) } } := if_neg (by omega)

end Carousel

/-- Settles O52: a slice by whether it runs, its unit is tested and it passed; the recovery by `endRecovery_over`. -/
theorem carousel : Obligations.Carousel := by
  unfold Obligations.Carousel
  intro t q slice x pass s hs u w failed
  have hrun : exec (.carouselRun t) s = .next (carouselRun u) := runAt_live hs t carouselRun
  have hend : exec (.restoreRotationDone t q) s = .next (endRecovery q u) := runAt_live hs t (endRecovery q)
  have htested {pass : Bool} (h : (x, slice) ∈ s.ringm.sliceRunning) (ht : testable w x = true) :
      exec (.carouselSliceDone t x slice pass) s = .next (if pass then slicePassed x w else sliceFailed x slice w) := by
    rw [exec_carouselSliceDone_live hs h]
    exact congrArg _ (if_neg (by simp [show testable (sliceEnded x slice (atDt t s)) x = true from ht]))
  refine ⟨fun h => hrun.trans (congrArg _ (if_pos h)), fun h => hrun.trans (congrArg _ (if_neg ?_)), exec_carouselSliceDone_other hs,
    fun h ht => ?_, htested, fun h ht hno => ?_, fun k h ht hx hk => ?_, fun p => slicePassed_pair (s := w),
    fun p hp => ?_, fun k hx hk => ?_, fun k hx hk => ?_, fun h => ?_, fun h hover => ?_⟩
  · change ¬ (s.net.state = 0 ∨ s.net.state = 3)
    omega
  · rw [exec_carouselSliceDone_live hs h]
    exact congrArg _ (if_pos (by simp [show testable (sliceEnded x slice (atDt t s)) x = false from ht]))
  · exact (htested h ht).trans (congrArg _ (sliceFailed_alone hno))
  · exact (htested h ht).trans (congrArg _ (sliceFailed_inRotation hx hk))
  · rw [slicePassed_pair_last (s := w) hp]
    rfl
  · rw [slicePassed_of_cluster hx, hk]
    rfl
  · rw [slicePassed_of_cluster hx, hk]
    rfl
  · exact hend.trans (congrArg _ (endRecovery_runs (s := u) h))
  · intro r good ok
    rw [hend, endRecovery_over (s := u) h hover]
    refine ⟨fun hok => congrArg _ (if_pos hok), fun hbad hnone => ?_, fun hbad => ?_⟩
    · rw [if_neg (show ¬ RecoveryPassed q u from hbad)]
      exact congrArg _ (foldl_restoreFailed_none hnone r)
    · rw [if_neg (show ¬ RecoveryPassed q u from hbad)]
      have hv := foldl_restoreFailed_workEnded q r.work r
      exact ⟨_, rfl, rfl, hv.work, hv.units, hv.safety, hv.fault, hv.net, hv.world⟩

end Sys2Proof.Machine
end

section
/-! SUPPORT. UNIT_CONTROL by its `op` and target, and the end of a function's drain (14 R437 to R440). The statement about them (O51). -/

namespace Sys2Proof.Machine

/-! ## UNIT_CONTROL -/

section UnitControl

variable {d : Taken} {v : View} {s a : State} {op f q : Nat} {x : Fail}

/-- The rule of a UNIT_CONTROL (09 R317). -/
abbrev unitRule : KindRule := { code := 0x0C, control := true }

/-- A UNIT_CONTROL of this row's `op`; an unknown `op` is DISABLE's. -/
theorem unitControl_accepted (ha : Admits unitRule d s) (hop : fld d 8 1 = op ∨ (op = 1 ∧ (fld d 8 1 = 0 ∨ 3 < fld d 8 1))) (k : State → State) :
    unitControl d v op s k = .next (withChecks d (unitChecks d) (accepted d v s) k) := by
  rw [unitControl, if_neg (fun h => hop.elim h.2.1 h.2.2), acceptDesc_next ha]

theorem unitControl_pass (ha : Admits unitRule d s) (hop : fld d 8 1 = op) (hck : firstFail (unitChecks d) = none) (k : State → State) :
    unitControl d v op s k = .next (k (accepted d v s)) := by
  rw [unitControl_accepted ha (.inl hop), withChecks_pass hck]

theorem unitControl_refused (ha : Admits unitRule d s) (hop : fld d 8 1 = op ∨ (op = 1 ∧ (fld d 8 1 = 0 ∨ 3 < fld d 8 1)))
    (hck : firstFail (unitChecks d) = some x) (k : State → State) : unitControl d v op s k = .next (refuse d x (accepted d v s)) := by
  rw [unitControl_accepted ha hop, withChecks_fail hck]

theorem not_any_key {α : Type} {l : List (Nat × α)} (h : ∀ x ∈ l, x.1 ≠ f) : ¬ l.any (fun x => x.1 == f) = true := fun hany => by
  obtain ⟨x, hx, he⟩ := List.any_eq_true.1 hany
  exact h x hx (beq_iff_eq.1 he)

theorem disableFn_now (h : f ∈ a.units.disabledFn) : disableFn d f a = unitNow d (.unitDisable f) a := if_pos (by simpa using h)

theorem disableFn_joins (h : f ∉ a.units.disabledFn) (hd : ∃ x ∈ a.units.draining, x.1 = f) :
    disableFn d f a = addWork (mkWork d 0 (.unitDisable f) a) a :=
  (if_neg (by simpa using h)).trans (if_pos (by simpa using hd))

theorem disableFn_drains (h : f ∉ a.units.disabledFn) (hd : ∀ x ∈ a.units.draining, x.1 ≠ f) :
    disableFn d f a = logAction 4 0xFFFF f (addWork (mkWork d 0 (.unitDisable f) a)
      { a with units := { a.units with draining := a.units.draining ++ [(f, d.dt + periodNs a)] } }) :=
  (if_neg (by simpa using h)).trans (if_neg (not_any_key hd))

/-- A first RESTORE of a cluster: the recovery rotation begins, and nothing but units, work and safety moves. -/
theorem startRecovery_first (h : ∀ x ∈ a.units.restoring, x.1 ≠ q) :
    let u := startRecovery d q a
    u.units.restoring = a.units.restoring ++ [(q, a.nextWid)] ∧ u.work = a.work ++ [mkWork d 0 (.unitRestore q) a] ∧
    u.units.changes = a.units.changes ++ (if clusterOut a q = true then [] else [.fence q]) ∧
    u.fault = a.fault ∧ u.net = a.net ∧ u.world = a.world ∧ u.hostMem = a.hostMem := by
  intro u
  have hu : u = clearProg q { unitLater d (.unitRestore q) (if clusterOut a q then [] else [.fence q]) a with units :=
      { (unitLater d (.unitRestore q) (if clusterOut a q then [] else [.fence q]) a).units with
        restoring := a.units.restoring ++ [(q, a.nextWid)] } } := if_neg (not_any_key h)
  rw [hu]
  exact ⟨rfl, rfl, rfl, rfl, rfl, rfl, rfl⟩

theorem startRecovery_joins (h : ∃ x ∈ a.units.restoring, x.1 = q) :
    startRecovery d q a = unitLater d (.unitRestore q) (if clusterOut a q then [] else [.fence q]) a :=
  if_pos (by simpa [restoringCl, unitLater, addWork] using h)

/-- A RESTORE of a function: held by its drain, or at once (14 R439). -/
def restoreOfFn (d : Taken) (f : Nat) (a : State) : State :=
  if a.units.draining.any (fun x => x.1 == f) then
    addWork (mkWork d 0 (.unitRestoreFn f) a) { a with units := { a.units with heldRestores := a.units.heldRestores ++ [f] } }
  else unitNow d (.unitRestoreFn f) (restoreFn f a)

/-- A RESTORE of a unit of the map: its recovery when it is out, else at once (14 R440). -/
def restoreOfUnit (d : Taken) (q : Nat) (out : Bool) (a : State) : State :=
  if out then startRecovery d q a else unitNow d (.unitRestore q) a

section Restore

variable (ha : Admits unitRule d s) (hop : fld d 8 1 = 3) (hck : firstFail (unitChecks d) = none)

include ha hop hck

theorem exec_unitRestore_fn (htg : fld d 9 1 = 0) :
    exec (.unitRestore d v) s = .next (restoreOfFn d (fld d 0x0A 2) (accepted d v s)) := by
  change execUnitRestore d v s = _
  rw [execUnitRestore, unitControl_pass ha hop hck, htg]
  rfl

theorem exec_unitRestore_cluster (htg : fld d 9 1 = 1) : exec (.unitRestore d v) s =
    .next (restoreOfUnit d (unitCluster d) (clusterOut (accepted d v s) (unitCluster d)) (accepted d v s)) := by
  change execUnitRestore d v s = _
  rw [execUnitRestore, unitControl_pass ha hop hck, htg]
  rfl

theorem exec_unitRestore_engine (htg : fld d 9 1 = 2) {out : Prop} [Decidable out]
    (hout : out ↔ clusterOut (accepted d v s) (unitCluster d) = true ∨
      (unitCluster d, fld d 0x0E 1, fld d 0x0F 1) ∈ s.units.geoDisabled ∨
      MapChange.geo (unitCluster d) (fld d 0x0E 1) (fld d 0x0F 1) ∈ s.units.changes) : exec (.unitRestore d v) s =
    .next (restoreOfUnit d (unitCluster d) (decide out) (accepted d v s)) := by
  change execUnitRestore d v s = _
  rw [execUnitRestore, unitControl_pass ha hop hck, htg]
  exact congrArg _ (if_congr (by simp [hout, or_assoc]) rfl rfl)

end Restore

end UnitControl

/-! ## The end of a drain -/

section Drain

variable {f e : Nat} {s : State}

/-- The drain of function `f` is over, once its work has left the unit. -/
def drainOver (f : Nat) (s : State) : State :=
  finishDrain f (logAction 4 0xFFFF f { s with units := { s.units with
    draining := s.units.draining.filter (fun x => x.1 != f), disabledFn := s.units.disabledFn ++ [f] } })

theorem endDrain_not_draining (h : ∀ x ∈ s.units.draining, x.1 ≠ f) : endDrain f s = s := by
  have hfind : s.units.draining.find? (fun x => x.1 == f) = none := List.find?_eq_none.2 fun x hx => by simpa using h x hx
  rw [endDrain, hfind]

theorem endDrain_waits (h : s.units.draining.find? (fun x => x.1 == f) = some (f, e)) (he : s.dt < e) (hw : ∃ w ∈ s.work, w.kind = f) :
    endDrain f s = s := by
  have hflying : kindInFlight f s ≠ [] := by simpa [kindInFlight] using hw
  simp only [endDrain, h]
  exact if_pos ⟨he, hflying⟩

theorem kindInFlight_nil (h : ∀ w ∈ s.work, w.kind ≠ f) : kindInFlight f s = [] := by
  simpa [kindInFlight] using h

theorem endDrain_ends (h : s.units.draining.find? (fun x => x.1 == f) = some (f, e)) (he : e ≤ s.dt ∨ ∀ w ∈ s.work, w.kind ≠ f)
    (v : State) (hv : abortRunning f s = v) : endDrain f s =
      drainOver f (if f = 5 then startHeld ((kindInFlight f v).foldl (abortWork 0x20 0) v) else (kindInFlight f v).foldl (abortWork 0x20 0) v) := by
  subst hv
  simp only [endDrain, h]
  refine if_neg fun ⟨hlt, hne⟩ => ?_
  rcases he with he | he
  · exact absurd hlt (Nat.not_lt.2 he)
  · exact hne (kindInFlight_nil he)

theorem abortRunning_of_ne (h : f ≠ 6) : abortRunning f s = s := by
  unfold abortRunning
  split
  · exact if_neg fun hf => h hf.1
  · rfl

theorem abortRunning_none (h : ∀ g i, s.frame.cur = some g → g.fr = some i → findWork s i = none) : abortRunning f s = s := by
  unfold abortRunning
  split
  next i hi =>
    obtain ⟨g, hg, hr⟩ := Option.bind_eq_some_iff.1 hi
    exact if_neg fun hf => by simp [h g i hg hr] at hf
  · rfl

theorem abortRunning_run {g : Frame} {i : Nat} (hg : s.frame.cur = some g) (hr : g.fr = some i) (hw : (findWork s i).isSome = true) :
    abortRunning 6 s = abortFrameRun 0x20 0 s := by
  simp only [abortRunning, hg, Option.bind_some, hr, true_and]
  exact if_pos hw

/-- The frame of an aborted FRAME_RUN runs on as an idle frame with no certification (14 R438). -/
theorem abortFrameRun_cur {g : Frame} {i : Nat} (hg : s.frame.cur = some g) (hr : g.fr = some i) (hw : findWork s i = none) (hk : g.kind = .run) :
    ∃ k, (abortFrameRun 0x20 0 s).frame.cur = some k ∧ k.fr = none ∧ k.kind = .idle ∧ k.cert = none ∧ k.number = g.number := by
  simp only [abortFrameRun, modFrame, hg, hr, hw]
  exact ⟨_, rfl, rfl, if_pos hk, rfl, rfl⟩

end Drain

/-- Settles O51: UNIT_CONTROL by its `op`, target and the units' state; the end of a drain by its time, its work and its function. -/
theorem unitControlOps : Obligations.UnitControl := by
  unfold Obligations.UnitControl
  refine ⟨fun d v s ha => ?control, fun t f s hs => ?drain⟩
  case control =>
    intro a f q g geoOut changed
    have hunits : a.units = s.units := accepted_units d v s
    have hdisable (hck : firstFail (unitChecks d) = none) (hop : fld d 8 1 = 1) (htg : fld d 9 1 = 0) :
        exec (.unitDisable d v) s = .next (disableFn d f a) := by
      change execUnitDisable d v s = _
      rw [execUnitDisable, unitControl_pass ha hop hck]
      exact congrArg _ (if_pos htg)
    refine ⟨fun x hx => ⟨fun h2 h3 => ?_, fun hop => ?_, fun hop => ?_⟩, fun hck => ⟨?_, ?_, ?_, ?_, ?_, ?_, ?_, ?_, ?_, ?_, ?_, ?_⟩⟩
    · exact unitControl_refused ha (by omega) hx _
    · exact unitControl_refused ha (.inl hop) hx _
    · exact unitControl_refused ha (.inl hop) hx _
    · intro hop htg hf
      exact (hdisable hck hop htg).trans (congrArg _ (disableFn_now (by rwa [hunits])))
    · intro hop htg hf hd
      exact (hdisable hck hop htg).trans (congrArg _ (disableFn_joins (by rwa [hunits]) (by rwa [hunits])))
    · intro hop htg hf hd
      exact (hdisable hck hop htg).trans (congrArg _ (disableFn_drains (by rwa [hunits]) (by rwa [hunits])))
    · intro hop htg
      change execUnitDisable d v s = _
      rw [execUnitDisable, unitControl_pass ha hop hck]
      exact congrArg _ (if_neg htg)
    · intro hop
      exact unitControl_pass ha hop hck _
    · intro hop htg hd
      exact (exec_unitRestore_fn ha hop hck htg).trans (congrArg _ (if_neg (not_any_key (by rwa [hunits]))))
    · intro hop htg hd
      exact (exec_unitRestore_fn ha hop hck htg).trans (congrArg _ (if_pos (by simpa [hunits] using hd)))
    · intro hop htg hin
      exact (exec_unitRestore_cluster ha hop hck htg).trans (congrArg _ (if_neg (by simpa using hin)))
    · intro hop htg hout hr
      obtain ⟨hrest, hwork, hch, hkept⟩ := startRecovery_first (d := d) (a := a) (q := q) (by rwa [hunits])
      refine ⟨_, (exec_unitRestore_cluster ha hop hck htg).trans (congrArg _ (if_pos hout)), ?_⟩
      rw [if_pos hout, List.append_nil, hunits] at hch
      rw [hunits] at hrest
      exact ⟨hrest, hwork, hch, hkept⟩
    · intro hop htg hin
      rw [exec_unitRestore_engine ha hop hck htg (out := geoOut) Iff.rfl]
      exact congrArg _ (if_neg (by simpa using hin))
    · intro hop htg hout hr
      obtain ⟨hrest, hwork, hch, hkept⟩ := startRecovery_first (d := d) (a := a) (q := q) (by rwa [hunits])
      refine ⟨_, (exec_unitRestore_engine ha hop hck htg (out := geoOut) Iff.rfl).trans (congrArg _ (if_pos (by simpa using hout))), ?_⟩
      rw [hunits] at hrest hch
      exact ⟨hrest, hwork, hch, hkept⟩
    · intro hop htg hr
      have hjoins : startRecovery d q a = addWork (mkWork d 0 (.unitRestore q) a) (changed (if clusterOut a q = true then [] else [.fence q])) :=
        startRecovery_joins (by rwa [hunits])
      rw [← hjoins]
      rcases htg with ⟨htg, hout⟩ | ⟨htg, hout⟩
      · exact (exec_unitRestore_cluster ha hop hck htg).trans (congrArg _ (if_pos hout))
      · exact (exec_unitRestore_engine ha hop hck htg (out := geoOut) Iff.rfl).trans (congrArg _ (if_pos (by simpa using hout)))
  case drain =>
    intro u
    have hend : exec (.functionDrainEnd t f) s = .next (endDrain f u) := runAt_live hs t (endDrain f)
    refine ⟨fun h => hend.trans (congrArg _ (endDrain_not_draining (s := u) h)), fun e he => ⟨fun hlt hw => ?_, fun h5 h6 hno => ?_, fun hover => ?_⟩,
      fun w v => rfl, fun g i v hg hr hk hw => abortFrameRun_cur hg hr hw hk⟩
    · exact hend.trans (congrArg _ (endDrain_waits (s := u) he hlt hw))
    · rw [hend, endDrain_ends (s := u) he (.inr hno) u (abortRunning_of_ne h6), kindInFlight_nil (s := u) hno, if_neg h5]
      rfl
    · intro flying ended
      have hends (v : State) (hv : abortRunning f u = v) := hend.trans (congrArg _ (endDrain_ends (s := u) he hover v hv))
      refine ⟨fun h5 h6 => ?_, fun h5 => ?_, fun h6 hno => ?_, fun h6 ⟨g, i, hg, hr, hw⟩ => ?_⟩
      · rw [hends u (abortRunning_of_ne h6), if_neg h5]
        rfl
      · rw [hends u (abortRunning_of_ne (by omega)), if_pos h5]
        rfl
      · rw [hends u (abortRunning_none hno), if_neg (by omega)]
        rfl
      · intro v
        rw [hends v (by subst h6; exact abortRunning_run hg hr hw), if_neg (by omega)]
        rfl

end Sys2Proof.Machine
end

section
/-! SUPPORT. The supplies and the monitors: what a rail that falls or recovers does, running and under a hold, and the windows of the clock, scrub and
checker monitors (15 R449, R454, R458 to R460, 18 R538). The statements about them (O20, O23). -/

namespace Sys2Proof.Machine

/-! ## Rails that fall -/

section Supply

variable {t r k : Nat} {x : Rail} {s : State}

theorem railOf_setRail_same (h : r < s.pwr.rails.length) : railOf (setRail r x s) r = x := getD_modifyAt_same h

theorem railOf_setRail_of_ne (h : k ≠ r) : railOf (setRail r x s) k = railOf s k := getD_modifyAt_of_ne h

theorem unwatchedRail_iff : unwatchedRail s r = true ↔ s.pwr.service = 5 ∧ r < 4 := by simp [unwatchedRail, diesOff]

/-- A rail below its reset threshold (15 R459). -/
def railBelow (r : Nat) (s : State) : State :=
  setRail r { railOf s r with low := true, since := if (railOf s r).low then (railOf s r).since else s.dt, under := true } s

theorem supplyReset_unwatched (h : ¬ (r < 10 ∧ ¬ (s.pwr.service = 5 ∧ r < 4))) : supplyReset r s = s := by
  refine if_pos ?_
  rw [unwatchedRail_iff]
  omega

theorem supplyReset_watched (h : r < 10 ∧ ¬ (s.pwr.service = 5 ∧ r < 4)) : supplyReset r s =
    if s.pwr.heldReset then railBelow r s else
    if r = 5 then holdPowerOn true (raiseLevel (48 + r) 0 0 (railBelow r s)) else
    { chipReset 1 (raiseLevel (48 + r) 0 0 (railBelow r s)) with
      pwr := { (chipReset 1 (raiseLevel (48 + r) 0 0 (railBelow r s))).pwr with supplyHeld := true } } := by
  refine if_neg ?_
  rw [unwatchedRail_iff]
  omega

theorem exec_supplyReset_held (h : s.pwr.heldReset = true) : exec (.supplyReset t r) s = .next (supplyReset r s) := if_pos h

theorem exec_supplyReset_free (h : s.pwr.heldReset = false) : exec (.supplyReset t r) s = .next (supplyReset r (atDt t s)) :=
  if_neg (by simp [h])

theorem exec_railRecovered_held (h : s.pwr.heldReset = true) : exec (.railRecovered t r) s = .next (heldRecovered r s) := if_pos h

theorem exec_railRecovered_free (h : s.pwr.heldReset = false) : exec (.railRecovered t r) s = .next (railRecovered r (atDt t s)) :=
  if_neg (by simp [h])

theorem exec_supplyReset_vaon (h : s.pwr.heldReset = false) : exec (.supplyReset t 5) s =
    .next (holdPowerOn true (raiseLevel (48 + 5) 0 0 (railBelow 5 (atDt t s)))) := by
  rw [exec_supplyReset_free h, supplyReset_watched (by omega), if_neg (by simp [h]), if_pos rfl]

theorem exec_supplyReset_rail (h : s.pwr.heldReset = false) (hw : r < 10 ∧ ¬ (s.pwr.service = 5 ∧ r < 4)) (h5 : r ≠ 5) :
    exec (.supplyReset t r) s = .next
      { chipReset 1 (raiseLevel (48 + r) 0 0 (railBelow r (atDt t s))) with
        pwr := { (chipReset 1 (raiseLevel (48 + r) 0 0 (railBelow r (atDt t s)))).pwr with supplyHeld := true } } := by
  rw [exec_supplyReset_free h, supplyReset_watched (by simpa using hw), if_neg (by simp [h]), if_neg h5]

theorem exec_railWarningCrossing_none (hs : Live s) (h : ¬ (r < 10 ∧ ¬ (s.pwr.service = 5 ∧ r < 4)) ∨ (railOf s r).low = true) :
    exec (.railWarningCrossing t r) s = .next (atDt t s) := by
  change execRailWarningCrossing t r s = _
  rw [execRailWarningCrossing, runAt_live hs]
  refine congrArg _ (if_pos ?_)
  rw [unwatchedRail_iff, railOf_atDt, show (atDt t s).pwr.service = s.pwr.service by simp]
  rcases h with h | h
  · omega
  · exact .inr (.inl h)

theorem exec_railWarningCrossing_first (hs : Live s) (hw : r < 10 ∧ ¬ (s.pwr.service = 5 ∧ r < 4)) (h : (railOf s r).low = false) :
    exec (.railWarningCrossing t r) s = .next (raiseLevel (48 + r) 0 0
      { setRail r { railOf s r with low := true, since := (atDt t s).dt, escalated := false } (atDt t s) with
        safety := { s.safety with suspect := true } }) := by
  change execRailWarningCrossing t r s = _
  rw [execRailWarningCrossing, runAt_live hs]
  simp only [railOf_atDt]
  refine congrArg _ (if_neg ?_)
  rw [unwatchedRail_iff, h, show (atDt t s).pwr.service = s.pwr.service by simp]
  simp only [Bool.false_eq_true, false_or]
  omega

theorem exec_supplyEscalation_live (hs : Live s) : exec (.supplyEscalation t r) s =
    .next (if (railOf s r).low = true ∧ (railOf s r).escalated = false ∧ (railOf s r).since + 50000 ≤ (atDt t s).dt then
      escalate (48 + r) 0 (setRail r { railOf s r with escalated := true } (atDt t s)) else atDt t s) := by
  change execSupplyEscalation t r s = _
  rw [execSupplyEscalation, runAt_live hs]
  simp only [railOf_atDt]
  exact congrArg _ (if_congr (by simp [and_assoc]) rfl rfl)

/-! ## Rails that recover -/

/-- A rail after its recovery: a threshold write held meanwhile applies (17 R511). -/
def recoveredRail (x : Rail) : Rail :=
  match x.held with
  | some (w, r) => { x with low := false, under := false, warnPct := w, resetPct := r, held := none }
  | none => { x with low := false, under := false }

theorem recoveredRail_low : (recoveredRail x).low = false := by
  unfold recoveredRail
  split <;> rfl

theorem recoveredRail_under : (recoveredRail x).under = false := by
  unfold recoveredRail
  split <;> rfl

theorem recoveredRail_thresholds :
    (recoveredRail x).warnPct = (match x.held with | some h => h.1 | none => x.warnPct) ∧
    (recoveredRail x).resetPct = (match x.held with | some h => h.2 | none => x.resetPct) := by
  cases h : x.held <;> simp [recoveredRail, h]

/-- The condition of a rail is over. -/
def railEnded (r : Nat) (s : State) : State := endLevel (48 + r) (setRail r (recoveredRail (railOf s r)) s)

/-- The recovery of the last low rail dates the supply-suspect rule (15 R460). -/
def suspectDated (s : State) : State :=
  if s.pwr.rails.any (fun r => r.low) then s else { s with safety := { s.safety with suspectRecovered := s.dt } }

/-- A held supply reset ends with the last rail that was below its reset threshold (18 R538). -/
def supplyReleased (s : State) : State :=
  if s.pwr.supplyHeld && !s.pwr.rails.any (fun r => r.under) then
    { s with pwr := { s.pwr with supplyHeld := false }, boot := { s.boot with releaseDt := s.dt } }
  else s

theorem railRecovered_of_low (h : (railOf s r).low = true) : railRecovered r s = supplyReleased (suspectDated (railEnded r s)) :=
  if_neg (by simp [h])

theorem railRecovered_of_not_low (h : (railOf s r).low = false) : railRecovered r s = s := if_pos (by simp [h])

/-- The recovery of the suspect rule changes the safety block alone. -/
theorem suspectDated_only (s : State) : suspectDated s = { s with safety := { s.safety with
    suspectRecovered := if s.pwr.rails.any (fun r => r.low) then s.safety.suspectRecovered else s.dt } } := by
  unfold suspectDated
  split <;> rfl

theorem railOf_suspectDated : railOf (suspectDated s) k = railOf s k := by
  rw [suspectDated_only]
  rfl

theorem railOf_railEnded_same (h : r < s.pwr.rails.length) : railOf (railEnded r s) r = recoveredRail (railOf s r) := railOf_setRail_same h

theorem railOf_railEnded_of_ne (h : k ≠ r) : railOf (railEnded r s) k = railOf s k := railOf_setRail_of_ne h

theorem supplyReleased_none (h : s.pwr.supplyHeld = false ∨ ∃ y ∈ s.pwr.rails, y.under = true) : supplyReleased s = s := by
  refine if_neg ?_
  rcases h with h | h
  · simp [h]
  · simpa using fun _ => h

theorem supplyReleased_last (hh : s.pwr.supplyHeld = true) (h : ∀ y ∈ s.pwr.rails, y.under = false) : supplyReleased s =
    { s with pwr := { s.pwr with supplyHeld := false }, boot := { s.boot with releaseDt := s.dt } } :=
  if_pos (by simpa [hh] using h)

/-- No rail is below its reset threshold once rail `r` has recovered. -/
theorem railEnded_under (h : ∀ k, k ≠ r → (railOf s k).under = false) : ∀ y ∈ (railEnded r s).pwr.rails, y.under = false := by
  intro y hy
  obtain ⟨k, hk, rfl⟩ := List.getElem_of_mem hy
  rw [← List.getD_eq_getElem _ {} hk]
  have hlen : k < s.pwr.rails.length := by
    rwa [← modifyAt_length (fun _ => recoveredRail (railOf s r)) r s.pwr.rails]
  rcases eq_or_ne k r with rfl | hne
  · exact (congrArg Rail.under (railOf_setRail_same hlen)).trans recoveredRail_under
  · exact (congrArg Rail.under (railOf_setRail_of_ne hne)).trans (h k hne)

/-- A rail that is still below its reset threshold when rail `r` recovers. -/
theorem railEnded_under_of (hk : k < s.pwr.rails.length) (hne : k ≠ r) (hu : (railOf s k).under = true) :
    ∃ y ∈ (railEnded r s).pwr.rails, y.under = true := by
  have hlen : k < (railEnded r s).pwr.rails.length := by
    rwa [railEnded, endLevel, setRail, modifyAt_length]
  refine ⟨_, List.getElem_mem hlen, ?_⟩
  rw [← List.getD_eq_getElem _ {} hlen]
  exact (congrArg Rail.under (railOf_setRail_of_ne hne)).trans hu

/-- What the end of a rail's condition keeps: the holds, DT and the boot block. -/
theorem suspectDated_railEnded (r : Nat) (s : State) :
    let v := suspectDated (railEnded r s)
    v.pwr.heldReset = s.pwr.heldReset ∧ v.pwr.supplyHeld = s.pwr.supplyHeld ∧ v.pwr.rails = (railEnded r s).pwr.rails ∧ v.dt = s.dt ∧
    v.boot = s.boot := by
  rw [suspectDated_only]
  exact ⟨rfl, rfl, rfl, rfl, rfl⟩

/-- The recovery of a rail on a running unit. -/
theorem exec_railRecovered_live (hs : Live s) (h : (railOf s r).low = true) :
    exec (.railRecovered t r) s = .next (suspectDated (railEnded r (atDt t s))) := by
  obtain ⟨-, hheld, -⟩ := suspectDated_railEnded r (atDt t s)
  rw [exec_railRecovered_free hs.1, railRecovered_of_low (by rwa [railOf_atDt]), supplyReleased_none]
  rw [hheld, atDt_pwr, avsDue_supplyHeld]
  exact .inl hs.2

theorem heldRecovered_vaon (h : s.pwr.pwrOk = true) : ∃ l, heldRecovered 5 s =
    releasePowerOn l (setRail 5 { railOf s 5 with low := false, under := false } s) := ⟨_, if_pos ⟨rfl, h⟩⟩

theorem heldRecovered_other (h : r ≠ 5 ∨ s.pwr.pwrOk = false) :
    heldRecovered r s = setRail r { railOf s r with low := false, under := false } s := by
  refine if_neg ?_
  rintro ⟨h5, hok⟩
  rcases h with h | h
  · exact h h5
  · exact absurd (h.symm.trans hok) nofun

/-- The end of the power-on reset: a supply reset when a rail is still below (18 R538). -/
theorem releasePowerOn_eq (l : List Rail) (s : State) :
    let u := releasePowerOn l s
    u.pwr.heldReset = false ∧ u.dt = 0 ∧ u.pwr.supplyHeld = u.pwr.rails.any (fun x => x.under) ∧
    u.boot.resetCause = (if u.pwr.supplyHeld then 1 else 0) ∧ u.net.padA = true ∧ u.net.padB = true ∧ u.hostMem = s.hostMem := by
  unfold releasePowerOn
  cases h : l.any (fun r => r.under) with
  | true => exact ⟨rfl, rfl, h.symm, rfl, rfl, rfl, rfl⟩
  | false => exact ⟨rfl, rfl, h.symm, rfl, rfl, rfl, rfl⟩

end Supply

/-- Settles O20: a running unit by the rail's state, then a unit under a supply reset and one under the power-on reset. -/
theorem supplies : Obligations.Supplies := by
  unfold Obligations.Supplies
  refine ⟨fun t r s hs => ?running, fun t r s => ?held⟩
  case running =>
    intro u x below chip watched
    have hbelow : railBelow r u = below := by rw [railBelow, railOf_atDt]
    refine ⟨fun h => ⟨?_, ?_⟩, ?_, fun hw h5 => ?_, fun hl => ?_, fun hw hl => ?_, fun hl he hd => ?_, fun h => ?_, fun hl => ?_, fun hl hr => ?_⟩
    · rw [exec_supplyReset_free hs.1, supplyReset_unwatched (show ¬ (r < 10 ∧ ¬ ((atDt t s).pwr.service = 5 ∧ r < 4)) by rwa [atDt_pwr, avsDue_service])]
    · exact exec_railWarningCrossing_none hs (.inl h)
    · intro h5
      subst h5
      rw [exec_supplyReset_vaon hs.1, hbelow]
    · rw [exec_supplyReset_rail hs.1 hw h5, hbelow]
    · exact exec_railWarningCrossing_none hs (.inr hl)
    · exact exec_railWarningCrossing_first hs hw hl
    · exact (exec_supplyEscalation_live hs).trans (congrArg _ (if_pos ⟨hl, he, hd⟩))
    · refine (exec_supplyEscalation_live hs).trans (congrArg _ (if_neg fun ⟨hl, he, hd⟩ => ?_))
      rcases h with h | h | h
      · exact absurd (h.symm.trans hl) nofun
      · exact absurd (h.symm.trans he) nofun
      · exact absurd hd (Nat.not_le.2 h)
    · rw [exec_railRecovered_free hs.1, railRecovered_of_not_low (by rwa [railOf_atDt])]
    · refine ⟨_, exec_railRecovered_live hs hl, ?_⟩
      have hsame : railOf (suspectDated (railEnded r u)) r = recoveredRail x := by
        rw [railOf_suspectDated, railOf_railEnded_same (by rwa [atDt_pwr, avsDue_rails]), railOf_atDt]
      have hother (k : Nat) (hk : k ≠ r) : railOf (suspectDated (railEnded r u)) k = railOf s k := by
        rw [railOf_suspectDated, railOf_railEnded_of_ne hk, railOf_atDt]
      obtain ⟨hwarn, hreset⟩ := recoveredRail_thresholds (x := x)
      rw [hsame]
      refine ⟨recoveredRail_low, recoveredRail_under, hwarn, hreset, ?_, hother, ?_⟩
      · rw [suspectDated_only]
        exact fun h => by simpa using (List.mem_filter.1 h).2
      · rw [suspectDated_only]
        exact ⟨rfl, rfl, rfl, rfl, rfl⟩
  case held =>
    refine ⟨fun h hh hl hno => ?_, fun h hh ⟨k, hk, hne, hu⟩ => ?_, ?_, fun h hr hw => ?_, fun h hr => ?_, fun h hok => ?_⟩
    · obtain ⟨hreset, hheld, hrails, hdt, -⟩ := suspectDated_railEnded r (atDt t s)
      rw [atDt_pwr, avsDue_supplyHeld] at hheld
      rw [atDt_pwr, avsDue_heldReset] at hreset
      rw [exec_railRecovered_free h, railRecovered_of_low (by rwa [railOf_atDt]), supplyReleased_last (hheld.trans hh)
        (hrails ▸ railEnded_under fun k hk => by rw [railOf_atDt]; exact hno k hk)]
      exact ⟨_, rfl, ⟨hreset.trans h, rfl⟩, hdt, hdt⟩
    · obtain ⟨-, hheld, hrails, -, hboot⟩ := suspectDated_railEnded r (atDt t s)
      rw [atDt_pwr, avsDue_supplyHeld] at hheld
      rw [exec_railRecovered_free h]
      cases hl : (railOf s r).low with
      | false =>
        rw [railRecovered_of_not_low (by rwa [railOf_atDt])]
        exact ⟨_, rfl, by rwa [atDt_pwr, avsDue_supplyHeld], rfl⟩
      | true =>
        rw [railRecovered_of_low (by rwa [railOf_atDt]), supplyReleased_none]
        · exact ⟨_, rfl, hheld.trans hh, hboot⟩
        · rw [hrails]
          exact .inr (railEnded_under_of (by rwa [atDt_pwr, avsDue_rails]) hne (by rwa [railOf_atDt]))
    · intro u x below chip h hh
      have hbelow : railBelow r u = below := by rw [railBelow, railOf_atDt]
      refine ⟨fun h5 => ?_, fun hr h5 hw => ?_⟩
      · subst h5
        rw [exec_supplyReset_vaon h, hbelow]
      · rw [exec_supplyReset_rail h ⟨hr, hw⟩ h5, hbelow]
    · rw [exec_supplyReset_held h, supplyReset_watched ⟨hr, hw⟩, if_pos h]
      rfl
    · rw [exec_railRecovered_held h, heldRecovered_other hr]
    · obtain ⟨l, hl⟩ := heldRecovered_vaon hok
      rw [exec_railRecovered_held h, hl]
      exact ⟨_, rfl, releasePowerOn_eq l _⟩

/-! ## The monitors -/

section Monitor

variable {t k ppm i pc : Nat} {s : State}

/-- A clock is out of its band of `pc` per cent (15 R458). -/
abbrev ClockOff (pc ppm : Nat) : Prop := ppm < 1000000 - 10000 * pc ∨ 1000000 + 10000 * pc < ppm

/-- The window of a clock monitor: the condition of source `i` begins or lasts, or it is over. -/
def clockLevel (i ppm : Nat) (bad : Bool) (s : State) : State := if bad then raiseLevel i 0 ppm s else endLevel i s

theorem clockOff_eq {b : Bool} (h : ClockOff pc ppm ↔ b = true) :
    (decide (ppm < 1000000 - 10000 * pc) || decide (ppm > 1000000 + 10000 * pc)) = b := by
  rw [Bool.eq_iff_iff, ← h]
  simp

theorem exec_clockMonitorWindow_ref (hs : Live s) {b : Bool} (h : ClockOff 2 ppm ↔ b = true) : exec (.clockMonitorWindow t 0 ppm) s =
    .next (clockLevel 68 ppm b { atDt t s with clk := { s.clk with ref25 := !b } }) := by
  change execClockMonitorWindow t 0 ppm s = _
  rw [execClockMonitorWindow, runAt_live hs, ← clockOff_eq h]
  rfl

theorem exec_clockMonitorWindow_refclk (hs : Live s) {b : Bool} (h : ClockOff 2 ppm ↔ b = true) : exec (.clockMonitorWindow t 1 ppm) s =
    .next (if s.chain.head && s.clk.refclkMon then clockLevel 69 ppm b { atDt t s with clk := { s.clk with refclk := !b } } else atDt t s) := by
  change execClockMonitorWindow t 1 ppm s = _
  rw [execClockMonitorWindow, runAt_live hs, ← clockOff_eq h]
  rfl

theorem exec_clockMonitorWindow_die (hs : Live s) (hk : k < 4) : exec (.clockMonitorWindow t (2 + k) ppm) s =
    .next (if s.boot.stage2 = true ∧ s.pwr.service ≠ 5 then clockLevel (70 + k) ppm (decide (ppm > 1030000) || ppm == 0) (atDt t s)
      else atDt t s) := by
  change execClockMonitorWindow t (2 + k) ppm s = _
  rw [execClockMonitorWindow, runAt_live hs]
  dsimp only
  rw [if_neg (by omega), if_neg (by omega), if_pos (by omega), show 2 + k - 2 = k by omega, ← ite_not]
  exact congrArg _ (if_congr (by simp [diesOff, and_comm]) rfl rfl)

theorem exec_clockMonitorWindow_hub (hs : Live s) {b : Bool} (h : ClockOff 5 ppm ↔ b = true) : exec (.clockMonitorWindow t 6 ppm) s =
    .next (clockLevel 74 ppm b (atDt t s)) := by
  change execClockMonitorWindow t 6 ppm s = _
  rw [execClockMonitorWindow, runAt_live hs, ← clockOff_eq h]
  rfl

theorem exec_scrubPassEnd_live (hs : Live s) (b : Bool) : exec (.scrubPassEnd t k b) s =
    .next (if s.safety.ctrl.scrubEn && !b && decide (k < 4) then raise (115 + 4 * k) 0 0 (atDt t s) else atDt t s) := runAt_live hs t _

theorem injectionFailed_raises {c : InjChecker} {t0 : Nat} (h : injects s c = true) (hi : s.safety.injecting = some t0)
    (ht : t0 + 10000 ≤ s.dt) (hc : c ∉ s.safety.injFailed) : injectionFailed c s =
      raise 81 0 (injNum c + 2 ^ 24 * injKind c) { s with safety := { s.safety with injFailed := s.safety.injFailed ++ [c] } } := by
  simp only [injectionFailed, hi]
  exact if_neg (by simp [h, hc, ht])

theorem injectionFailed_none {c : InjChecker} (h : injects s c = false ∨ s.safety.injecting = none ∨
    (∃ t0, s.safety.injecting = some t0 ∧ s.dt < t0 + 10000) ∨ c ∈ s.safety.injFailed) : injectionFailed c s = s := by
  unfold injectionFailed
  split
  next t0 hi =>
    refine if_pos ?_
    rcases h with h | h | ⟨t1, h, hlt⟩ | h
    · simp [h]
    · exact absurd (h.symm.trans hi) nofun
    · exact .inl (Option.some.inj (h.symm.trans hi) ▸ hlt)
    · simp [h]
  · rfl

end Monitor

/-- Settles O23: each window by its band, the scrub pass, and the injection by its time and checker. -/
theorem monitors : Obligations.Monitors := by
  unfold Obligations.Monitors
  intro t k ppm s hs u power off
  have hyes {pc : Nat} (h : off pc) : ClockOff pc ppm ↔ true = true := ⟨fun _ => rfl, fun _ => h⟩
  have hno {pc : Nat} (h : ¬ off pc) : ClockOff pc ppm ↔ false = true := ⟨fun h' => absurd h' h, nofun⟩
  refine ⟨fun h => exec_clockMonitorWindow_ref hs (hyes h), fun h => exec_clockMonitorWindow_ref hs (hno h), fun hh hm h => ?_,
    fun hh hm h => ?_, fun h => ?_, fun hk hp h => ?_, fun hk hp h h0 => ?_, fun hk hp => ?_,
    fun h => exec_clockMonitorWindow_hub hs (hyes h), fun h => exec_clockMonitorWindow_hub hs (hno h), fun hk h => ?_, fun h b => ?_, ?_,
    fun c t0 h hi ht hc => ?_, fun c h => ?_⟩
  · exact (exec_clockMonitorWindow_refclk hs (hyes h)).trans (congrArg _ (if_pos (by simp [hh, hm])))
  · exact (exec_clockMonitorWindow_refclk hs (hno h)).trans (congrArg _ (if_pos (by simp [hh, hm])))
  · refine (exec_clockMonitorWindow_refclk (b := decide (ClockOff 2 ppm)) hs (by simp)).trans (congrArg _ (if_neg ?_))
    rcases h with h | h <;> simp [h]
  · exact (exec_clockMonitorWindow_die hs hk).trans (congrArg _ ((if_pos hp).trans (if_pos (by simpa using h))))
  · exact (exec_clockMonitorWindow_die hs hk).trans (congrArg _ ((if_pos hp).trans (if_neg (by simp [h, h0]))))
  · exact (exec_clockMonitorWindow_die hs hk).trans (congrArg _ (if_neg hp))
  · exact (exec_scrubPassEnd_live hs false).trans (congrArg _ (if_pos (by simp [hk, h])))
  · exact (exec_scrubPassEnd_live hs b).trans (congrArg _ (if_neg (by simp [h])))
  · exact (exec_scrubPassEnd_live hs true).trans (congrArg _ (if_neg (by simp)))
  · exact (runAt_live hs t (injectionFailed c)).trans (congrArg _ (injectionFailed_raises (s := u) h hi ht hc))
  · exact (runAt_live hs t (injectionFailed c)).trans (congrArg _ (injectionFailed_none (s := u) h))

end Sys2Proof.Machine
end

section
/-! SUPPORT. The power manager, the governor and the temperature sensors (16 R470 to R484). The statements about them (O21, O22). -/

namespace Sys2Proof.Machine

/-! ## What the power manager has done for a die -/

section Avs

variable {t j k w lvl d : Nat} {p q r : Pwr}

/-- The regulation of die `k` stands from `p` to `q`. -/
structure SameDie (k : Nat) (p q : Pwr) : Prop where
  vset : q.vset.getD k 0 = p.vset.getD k 0
  vsetAt : q.vsetAt.getD k 0 = p.vsetAt.getD k 0
  vsetWant : q.vsetWant.getD k none = p.vsetWant.getD k none
  thr : q.thr.getD k 0 = p.thr.getD k 0
  thrNext : q.thrNext.getD k none = p.thrNext.getD k none
  vsetLength : q.vset.length = p.vset.length
  thrLength : q.thr.length = p.thr.length

theorem SameDie.refl (p : Pwr) : SameDie k p p := ⟨rfl, rfl, rfl, rfl, rfl, rfl, rfl⟩

theorem SameDie.trans (h : SameDie k p q) (g : SameDie k q r) : SameDie k p r :=
  ⟨g.vset.trans h.vset, g.vsetAt.trans h.vsetAt, g.vsetWant.trans h.vsetWant, g.thr.trans h.thr, g.thrNext.trans h.thrNext,
    g.vsetLength.trans h.vsetLength, g.thrLength.trans h.thrLength⟩

/-- Raised thresholds of die `k` that come into force by `due` (16 R471). -/
def thresholdsDue (due k : Nat) (p : Pwr) : Pwr :=
  match p.thrNext.getD k none with
  | some (lvl, d) =>
    if d ≤ due then { p with thr := modifyAt (fun _ => lvl) k p.thr, thrNext := modifyAt (fun _ => none) k p.thrNext } else p
  | none => p

/-- The set point of die `k` that waited, once its time has come (16 R470). -/
def vsetDue (t k : Nat) (want : Option Nat) (at_ : Nat) (p : Pwr) : Pwr :=
  match want with
  | some w => if at_ ≤ t then setVset k w at_ p else p
  | none => p

theorem thresholdsDue_of_ne (h : k ≠ j) : SameDie k p (thresholdsDue d j p) := by
  unfold thresholdsDue
  split
  · split
    · exact ⟨rfl, rfl, rfl, getD_modifyAt_of_ne h, getD_modifyAt_of_ne h, rfl, modifyAt_length _ _ _⟩
    · exact .refl p
  · exact .refl p

theorem setVset_of_ne (h : k ≠ j) : SameDie k p (setVset j w d p) :=
  ⟨getD_modifyAt_of_ne h, getD_modifyAt_of_ne h, getD_modifyAt_of_ne h, getD_modifyAt_of_ne h, getD_modifyAt_of_ne h, modifyAt_length _ _ _,
    modifyAt_length _ _ _⟩

theorem thresholdsDue_keeps : (thresholdsDue d k p).vset = p.vset ∧ (thresholdsDue d k p).vsetAt = p.vsetAt ∧
    (thresholdsDue d k p).vsetWant = p.vsetWant := by
  unfold thresholdsDue
  split
  · split <;> exact ⟨rfl, rfl, rfl⟩
  · exact ⟨rfl, rfl, rfl⟩

theorem avsDie_eq (t k : Nat) (p : Pwr) : avsDie t k p = vsetDue t k (p.vsetWant.getD k none) (p.vsetAt.getD k 0 + 100000)
    (thresholdsDue (if (p.vsetWant.getD k none).isSome then min t (p.vsetAt.getD k 0 + 100000) else t) k p) := by
  generalize hdue : (if (p.vsetWant.getD k none).isSome then min t (p.vsetAt.getD k 0 + 100000) else t) = due
  have heq : avsDie t k p = vsetDue t k ((thresholdsDue due k p).vsetWant.getD k none) ((thresholdsDue due k p).vsetAt.getD k 0 + 100000)
      (thresholdsDue due k p) := by
    subst hdue
    rfl
  obtain ⟨-, hat, hwant⟩ := thresholdsDue_keeps (d := due) (k := k) (p := p)
  rw [heq, hat, hwant]

theorem vsetDue_of_ne {o : Option Nat} (h : k ≠ j) : SameDie k p (vsetDue t j o d p) := by
  unfold vsetDue
  split
  · split
    · exact setVset_of_ne h
    · exact .refl p
  · exact .refl p

theorem avsDie_of_ne (h : k ≠ j) : SameDie k p (avsDie t j p) := by
  rw [avsDie_eq]
  exact (thresholdsDue_of_ne h).trans (vsetDue_of_ne h)

theorem foldl_avsDie_of_not_mem {l : List Nat} (h : k ∉ l) (p : Pwr) : SameDie k p (l.foldl (fun p j => avsDie t j p) p) := by
  induction l generalizing p with
  | nil => exact .refl p
  | cons j l ih =>
    obtain ⟨hj, hl⟩ : k ≠ j ∧ k ∉ l := by simpa using h
    exact (avsDie_of_ne hj).trans (ih hl _)

/-- The regulation of one die is its own: what the power manager has done for it, the other dies left aside. -/
theorem avsDue_die (hk : k < 4) (t : Nat) (p : Pwr) : ∃ q, SameDie k p q ∧ (avsDue t p).thr.getD k 0 = (avsDie t k q).thr.getD k 0 ∧
    (avsDue t p).vset.getD k 0 = (avsDie t k q).vset.getD k 0 := by
  obtain ⟨a, b, hab⟩ := List.append_of_mem (List.mem_range.2 hk)
  have hnodup : (a ++ k :: b).Nodup := hab ▸ List.nodup_range
  have ha : k ∉ a := fun h => (List.nodup_append.1 hnodup).2.2 k h k (List.mem_cons_self ..) rfl
  have hb : k ∉ b := (List.nodup_cons.1 (List.nodup_append.1 hnodup).2.1).1
  refine ⟨a.foldl (fun p j => avsDie t j p) p, foldl_avsDie_of_not_mem ha p, ?_⟩
  have hrest := foldl_avsDie_of_not_mem (t := t) hb (avsDie t k (a.foldl (fun p j => avsDie t j p) p))
  unfold avsDue
  rw [hab, List.foldl_append]
  exact ⟨hrest.thr, hrest.vset⟩

theorem avsDie_thr (hk : k < p.thr.length) (hw : p.vsetWant.getD k none = none) (hn : p.thrNext.getD k none = some (lvl, d)) :
    (avsDie t k p).thr.getD k 0 = if d ≤ t then lvl else p.thr.getD k 0 := by
  rw [avsDie_eq, hw]
  change (thresholdsDue t k p).thr.getD k 0 = _
  rw [thresholdsDue, hn]
  dsimp only
  split
  · exact getD_modifyAt_same hk
  · rfl

theorem avsDie_vset (hk : k < p.vset.length) (hw : p.vsetWant.getD k none = some w) :
    (avsDie t k p).vset.getD k 0 = if p.vsetAt.getD k 0 + 100000 ≤ t then w else p.vset.getD k 0 := by
  rw [avsDie_eq, hw]
  generalize hq : thresholdsDue _ k p = q
  have hvset : q.vset = p.vset := hq ▸ thresholdsDue_keeps.1
  rw [vsetDue]
  split
  · exact getD_modifyAt_same (hvset ▸ hk)
  · rw [hvset]

end Avs

/-! ## The governor -/

section Governor

variable {t draw : Nat} {cur : List Nat} {s : State}

/-- A trim records the draw and its peak (16 R477). -/
def drawRecorded (draw : Nat) (s : State) : State := { s with pwr := { s.pwr with draw := draw, peak := max s.pwr.peak draw } }

/-- What a trim does: the record, then one step of the clocks by the draw against the limit (16 R478). -/
def governorTrimmed (draw : Nat) (s : State) : State :=
  let s := drawRecorded draw s
  if s.frame.cur.isNone then s
  else if draw > 10 * s.pwr.limit then
    (if s.pwr.clock ≤ s.pwr.fFrame then { s with pwr := { s.pwr with overLimit := true } }
     else setClock (max s.pwr.fFrame (s.pwr.clock - 25)) s)
  else if draw * 10 ≤ 95 * s.pwr.limit then setClock (max s.pwr.fFrame (min 1400 (s.pwr.clock + 25))) s
  else s

theorem governorTrimmed_idle (h : s.frame.cur = none) : governorTrimmed draw s = drawRecorded draw s :=
  if_pos (Option.isNone_iff_eq_none.2 h)

theorem governorTrimmed_floor (h : s.frame.cur ≠ none) (hd : 10 * s.pwr.limit < draw) (hc : s.pwr.clock ≤ s.pwr.fFrame) :
    governorTrimmed draw s = { drawRecorded draw s with pwr := { (drawRecorded draw s).pwr with overLimit := true } } :=
  (if_neg fun hn => h (Option.isNone_iff_eq_none.1 hn)).trans ((if_pos hd).trans (if_pos hc))

theorem governorTrimmed_lowers (h : s.frame.cur ≠ none) (hd : 10 * s.pwr.limit < draw) (hc : s.pwr.fFrame < s.pwr.clock) :
    governorTrimmed draw s = setClock (max s.pwr.fFrame (s.pwr.clock - 25)) (drawRecorded draw s) :=
  (if_neg fun hn => h (Option.isNone_iff_eq_none.1 hn)).trans ((if_pos hd).trans (if_neg (Nat.not_le.2 hc)))

theorem governorTrimmed_raises (h : s.frame.cur ≠ none) (hd : draw ≤ 10 * s.pwr.limit) (hl : draw * 10 ≤ 95 * s.pwr.limit) :
    governorTrimmed draw s = setClock (max s.pwr.fFrame (min 1400 (s.pwr.clock + 25))) (drawRecorded draw s) :=
  (if_neg fun hn => h (Option.isNone_iff_eq_none.1 hn)).trans ((if_neg (Nat.not_lt.2 hd)).trans (if_pos hl))

theorem governorTrimmed_holds (h : s.frame.cur ≠ none) (hd : draw ≤ 10 * s.pwr.limit) (hl : 95 * s.pwr.limit < draw * 10) :
    governorTrimmed draw s = drawRecorded draw s :=
  (if_neg fun hn => h (Option.isNone_iff_eq_none.1 hn)).trans ((if_neg (Nat.not_lt.2 hd)).trans (if_neg (Nat.not_le.2 hl)))

theorem exec_governorCalibrate_live (hs : Live s) : exec (.governorCalibrate t cur) s =
    .next { atDt t s with pwr := { (atDt t s).pwr with currents := cur } } := by
  change execGovernorCalibrate t cur s = _
  rw [execGovernorCalibrate, runAt_live hs]

end Governor

/-- Settles O21: regulation die by die through `avsDue_die`, the governor by the draw against the limit. -/
theorem voltageAndGovernor : Obligations.VoltageAndGovernor := by
  unfold Obligations.VoltageAndGovernor
  refine ⟨fun t k s hs => ?regulation, fun t draw cur s hs => ?governor⟩
  case regulation =>
    intro u
    have hsettled : exec (.regulatorSettled t k) s = .next (if k < 4 ∧ u.pwr.raised.getD k false = true then
        { u with pwr := { u.pwr with
          thrNext := modifyAt (fun _ => some (u.pwr.vset.getD k 40, u.dt + 20000)) k u.pwr.thrNext
          raised := modifyAt (fun _ => false) k u.pwr.raised } } else u) := by
      change execRegulatorSettled t k s = _
      rw [execRegulatorSettled, runAt_live hs]
    refine ⟨runAt_live hs t _, fun hk hr => hsettled.trans (congrArg _ (if_pos ⟨hk, hr⟩)), fun h => hsettled.trans (congrArg _ (if_neg ?_)),
      fun lvl d hk hlen hw hn => ?_, fun w hk hlen hw => ?_⟩
    · rintro ⟨hk, hr⟩
      rcases h with h | h
      · omega
      · exact absurd (h.symm.trans hr) nofun
    · obtain ⟨q, hq, hthr, -⟩ := avsDue_die hk (max s.dt t) s.pwr
      change (avsDue (max s.dt t) s.pwr).thr.getD k 0 = _
      rw [hthr, avsDie_thr (by rw [hq.thrLength, hlen]; exact hk) (hq.vsetWant.trans hw) (hq.thrNext.trans hn), hq.thr]
      rfl
    · obtain ⟨q, hq, -, hvset⟩ := avsDue_die hk (max s.dt t) s.pwr
      change (avsDue (max s.dt t) s.pwr).vset.getD k 0 = _
      rw [hvset, avsDie_vset (by rw [hq.vsetLength, hlen]; exact hk) (hq.vsetWant.trans hw), hq.vset, hq.vsetAt]
      rfl
  case governor =>
    intro v p u
    have hpeak : v.pwr.peak = s.pwr.peak := by rw [atDt_pwr, avsDue_peak]
    have hlimit : v.pwr.limit = s.pwr.limit := by rw [atDt_pwr, avsDue_limit]
    have hclock : v.pwr.clock = s.pwr.clock := by rw [atDt_pwr, avsDue_clock]
    have hframe : v.pwr.fFrame = s.pwr.fFrame := by rw [atDt_pwr, avsDue_fFrame]
    have hu : drawRecorded draw v = u := by rw [drawRecorded, hpeak]
    have htrim : exec (.governorTrim t draw) s = .next (governorTrimmed draw v) := runAt_live hs t (governorTrimmed draw)
    refine ⟨exec_governorCalibrate_live hs, fun h => ?_, fun h => ⟨fun hd hc => ?_, fun hd hc => ?_, fun hd hl => ?_, fun hd hl => ?_⟩⟩
    · rw [htrim, governorTrimmed_idle (s := v) h, hu]
    · rw [htrim, governorTrimmed_floor (s := v) h (by rwa [hlimit]) (by rwa [hclock, hframe]), hu]
    · rw [htrim, governorTrimmed_lowers (s := v) h (by rwa [hlimit]) (by rwa [hclock, hframe]), hu, hclock, hframe]
    · rw [htrim, governorTrimmed_raises (s := v) h (by rwa [hlimit]) (by rwa [hlimit]), hu, hclock, hframe]
    · rw [htrim, governorTrimmed_holds (s := v) h (by rwa [hlimit]) (by rwa [hlimit]), hu]

/-! ## Temperature -/

section Temp

variable {t die n : Nat} {temp w l tr : Int} {s : State}

/-- The warning of the grade, in sixteenths of a degree (16 R481). -/
def warnLevel (grade : Nat) : Int := if grade = 1 then 1600 else 1440

/-- The junction limit of the grade. -/
def limitLevel (grade : Nat) : Int := if grade = 1 then 1680 else 1520

/-- The trip of the grade. -/
def tripLevel (grade : Nat) : Int := if grade = 1 then 1840 else 1680

theorem levels_ordered (grade : Nat) : warnLevel grade < limitLevel grade ∧ limitLevel grade ≤ tripLevel grade := by
  unfold warnLevel limitLevel tripLevel
  split <;> decide

/-- A sample is recorded, and moves the thermal cap of a compute die (16 R481, R482). -/
def tempRecorded (w l tr : Int) (die : Nat) (temp : Int) (s : State) : State :=
  { s with temp := { s.temp with
    temps := modifyAt (fun _ => temp) die s.temp.temps, warn := modifyAt (fun _ => decide (w ≤ temp)) die s.temp.warn
    lim := modifyAt (fun _ => decide (l ≤ temp)) die s.temp.lim, trip := modifyAt (fun _ => decide (tr ≤ temp)) die s.temp.trip
    fcap := if 1 ≤ die ∧ die ≤ 4 then
        modifyAt (fun _ => if decide (w ≤ temp) then max 16 (s.temp.fcap.getD (die - 1) 56 - 1)
          else if temp ≤ w - 48 then min 56 (s.temp.fcap.getD (die - 1) 56 + 1) else s.temp.fcap.getD (die - 1) 56) (die - 1) s.temp.fcap
      else s.temp.fcap } }

/-- The source of the die after a sample (14 R552). -/
def tempJudged (w l tr : Int) (die : Nat) (temp : Int) (s : State) : State :=
  let x := tempRecorded w l tr die temp s
  let x := if decide (w ≤ temp) then raiseLevel (58 + die) 0 0 x else endLevel (58 + die) x
  if decide (l ≤ temp) then escalate (58 + die) 0 x else x

/-- The unit is halted by THERMAL (16 R484). -/
def thermalHalt (s : State) : Bool := s.pwr.service == 7 && !s.boot.authFail && !s.boot.strapErr

/-- A sample and what it does to the unit: the second in a row at trip halts it, and one with every sensor below warning ends the halt (16 R484). -/
def tempTaken (w l tr : Int) (die : Nat) (temp : Int) (s : State) : State :=
  let v := tempJudged w l tr die temp s
  if decide (tr ≤ temp) && s.temp.trip.getD die false then chipReset 4 v
  else if thermalHalt s && v.temp.temps.all (fun x => decide (x ≠ -32768) && decide (x < w)) then
    setService 0 { v with boot := { v.boot with releaseDt := v.dt } }
  else v

theorem exec_tempSample_off (hs : Live s) (hoff : sensorsOff (atDt t s) = true) (h1 : 1 ≤ die) (h4 : die ≤ 4) :
    exec (.tempSample t die temp) s = .next (atDt t s) := by
  change execTempSample t die temp s = _
  rw [execTempSample, runAt_live hs]
  exact congrArg _ (if_pos (.inr ⟨hoff, h1, h4⟩))

theorem exec_tempSample_on (hs : Live s) (hd : die < 9) (hon : ¬ (sensorsOff (atDt t s) = true ∧ 1 ≤ die ∧ die ≤ 4)) :
    exec (.tempSample t die temp) s =
      .next (tempTaken (warnLevel s.grade) (limitLevel s.grade) (tripLevel s.grade) die temp (atDt t s)) := by
  have hnot : ¬ (die ≥ 9 ∨ (sensorsOff (atDt t s) = true ∧ 1 ≤ die ∧ die ≤ 4)) := fun h => h.elim (by omega) hon
  change execTempSample t die temp s = _
  rw [execTempSample, runAt_live hs]
  refine congrArg _ ((if_neg hnot).trans ?_)
  rcases eq_or_ne s.grade 1 with hg | hg
  · rw [warnLevel, limitLevel, tripLevel, if_pos hg, if_pos hg, if_pos hg, show tempLevels (atDt t s).grade = (100, 105, 115) from if_pos hg]
    rfl
  · rw [warnLevel, limitLevel, tripLevel, if_neg hg, if_neg hg, if_neg hg, show tempLevels (atDt t s).grade = (90, 95, 105) from if_neg hg]
    rfl

theorem tempJudged_below_warning (hwl : w < l) (h : temp < w) :
    tempJudged w l tr die temp s = endLevel (58 + die) (tempRecorded w l tr die temp s) := by
  rw [tempJudged, decide_eq_false (by omega : ¬ w ≤ temp), decide_eq_false (by omega : ¬ l ≤ temp)]
  rfl

theorem tempJudged_below_limit (hw : w ≤ temp) (h : temp < l) :
    tempJudged w l tr die temp s = raiseLevel (58 + die) 0 0 (tempRecorded w l tr die temp s) := by
  rw [tempJudged, decide_eq_true hw, decide_eq_false (by omega : ¬ l ≤ temp)]
  rfl

theorem tempJudged_at_limit (hwl : w < l) (h : l ≤ temp) :
    tempJudged w l tr die temp s = escalate (58 + die) 0 (raiseLevel (58 + die) 0 0 (tempRecorded w l tr die temp s)) := by
  rw [tempJudged, decide_eq_true (by omega : w ≤ temp), decide_eq_true h]
  rfl

theorem tempTaken_running (hh : thermalHalt s = false) (h : temp < tr ∨ s.temp.trip.getD die false = false) :
    tempTaken w l tr die temp s = tempJudged w l tr die temp s := by
  rw [tempTaken, hh, if_neg]
  · rfl
  · rcases h with h | h
    · simp [h]
    · rw [h, Bool.and_false]
      exact Bool.false_ne_true

theorem tempTaken_trip (ht : tr ≤ temp) (h : s.temp.trip.getD die false = true) :
    tempTaken w l tr die temp s = chipReset 4 (tempJudged w l tr die temp s) := if_pos (by simp only [ht, h, decide_true, Bool.and_self])

/-- The service state after a service change (the device event leaves it, 17 R525). -/
theorem setService_only (n : Nat) (s : State) : ∃ p c, setService n s =
    { s with pwr := { s.pwr with service := n }, pcie := p, chain := c } := by
  unfold setService deviceEvent
  split
  next h => exact ⟨s.pcie, s.chain, by rw [← h]⟩
  · split
    · exact sendMsix_only _ _
    · exact ⟨s.pcie, s.chain, rfl⟩

/-- Every sensor reads a temperature, below warning. -/
theorem all_below_iff {a : List Int} (hlen : a.length = 9) (hd : die < 9) (h0 : -32768 < temp) (hw : temp < w) :
    ((modifyAt (fun _ => temp) die a).all (fun x => decide (x ≠ -32768) && decide (x < w))) = true ↔
      ∀ k < 9, k ≠ die → a.getD k 0 ≠ -32768 ∧ a.getD k 0 < w := by
  have hlength : (modifyAt (fun _ => temp) die a).length = 9 := (modifyAt_length _ _ _).trans hlen
  rw [List.all_eq_true]
  constructor
  · intro h k hk hne
    have hget := h _ (List.getElem_mem (hlength.symm ▸ hk))
    rw [← List.getD_eq_getElem _ 0, getD_modifyAt_of_ne hne] at hget
    simpa using hget
  · intro h y hy
    obtain ⟨k, hk, rfl⟩ := List.getElem_of_mem hy
    rw [← List.getD_eq_getElem _ 0 hk]
    rcases eq_or_ne k die with rfl | hne
    · rw [getD_modifyAt_same (by omega)]
      simp only [ne_eq, Bool.and_eq_true, decide_eq_true_eq]
      exact ⟨by omega, hw⟩
    · rw [getD_modifyAt_of_ne hne]
      simpa using h k (by omega) hne

theorem tempTaken_halted (hwl : w < l) (hltr : l ≤ tr) (hw : temp < w) (hh : thermalHalt s = true) : tempTaken w l tr die temp s =
    if (modifyAt (fun _ => temp) die s.temp.temps).all (fun x => decide (x ≠ -32768) && decide (x < w)) then
      setService 0 { endLevel (58 + die) (tempRecorded w l tr die temp s) with boot := { s.boot with releaseDt := s.dt } }
    else endLevel (58 + die) (tempRecorded w l tr die temp s) := by
  rw [tempTaken, hh, tempJudged_below_warning hwl hw, decide_eq_false (by omega : ¬ tr ≤ temp)]
  rfl

end Temp

/-- Settles O22: a sample of a running unit by its level, and one of a halted unit by the other sensors. -/
theorem temperature : Obligations.Temperature := by
  unfold Obligations.Temperature
  refine ⟨fun t die temp s hs hd h7 => ?running, fun t die temp s hs hd h7 htrip hauth hstrap => ?halted⟩
  case running =>
    intro gone w l tr cap cap' x
    obtain ⟨hwl, hltr⟩ : w < l ∧ l ≤ tr := levels_ordered s.grade
    have hx : tempRecorded w l tr die temp (atDt t s) = x := by
      simp only [tempRecorded, decide_eq_true_eq]
      rfl
    have hrun : thermalHalt (atDt t s) = false := by simp [thermalHalt, h7]
    have hoff : sensorsOff (atDt t s) = true ↔ s.pwr.service = 5 ∨ s.boot.stage2 = false := by simp [sensorsOff, h7]
    have hon (h : ¬ gone) : exec (.tempSample t die temp) s = .next (tempTaken w l tr die temp (atDt t s)) :=
      exec_tempSample_on hs hd fun ⟨hoff', hdie⟩ => h ⟨hoff.1 hoff', hdie⟩
    refine ⟨fun ⟨h, h1, h4⟩ => exec_tempSample_off hs (hoff.2 h) h1 h4, fun hg h => ?_, fun hg hw h => ?_, fun hg hl h => ?_, fun hg htr h => ?_⟩
    · rw [hon hg, tempTaken_running hrun (.inl (by omega)), tempJudged_below_warning hwl h, hx]
    · rw [hon hg, tempTaken_running hrun (.inl (by omega)), tempJudged_below_limit hw h, hx]
    · rw [hon hg, tempTaken_running hrun h, tempJudged_at_limit hwl hl, hx]
    · rw [hon hg, tempTaken_trip (s := atDt t s) htr h, tempJudged_at_limit hwl (by omega), hx]
  case halted =>
    intro w hw h0 hlen
    obtain ⟨hwl, hltr⟩ := levels_ordered s.grade
    have hhalt : thermalHalt (atDt t s) = true := by simp [thermalHalt, h7, hauth, hstrap]
    have hon : ¬ sensorsOff (atDt t s) = true := by simp [sensorsOff, h7, htrip]
    have hexec := (exec_tempSample_on (temp := temp) hs hd fun h => hon h.1).trans (congrArg _ (tempTaken_halted (s := atDt t s) hwl hltr hw hhalt))
    refine ⟨fun hall => ?_, fun ⟨k, hk, hne, hbad⟩ => ?_⟩
    · have hbelow := (all_below_iff hlen hd h0 hw).2 fun k hk hne => ⟨(hall k hk hne).1.ne', (hall k hk hne).2⟩
      obtain ⟨p, c, h⟩ := setService_only 0 { endLevel (58 + die) (tempRecorded w (limitLevel s.grade) (tripLevel s.grade) die temp (atDt t s)) with
        boot := { s.boot with releaseDt := (atDt t s).dt } }
      exact ⟨_, hexec.trans (congrArg _ ((if_pos hbelow).trans h)), rfl, rfl⟩
    · refine ⟨_, hexec.trans (congrArg _ (if_neg fun hall => ?_)), h7⟩
      obtain ⟨hne0, hlt⟩ := (all_below_iff hlen hd h0 hw).1 hall k hk hne
      omega

end Sys2Proof.Machine
end

section
/-! SUPPORT. Boot: the straps, GO, the fuses, the reset the host asks for, reduced service, and the images that the ROM starts (16 R487 to R494). The
statement about them (O24). -/

namespace Sys2Proof.Machine

/-! ## Boot commands -/

section BootCommands

variable {t src : Nat} {head full : Bool} {s : State}

/-- The straps are read (16 R489); the hub PLL is locked then. -/
def strapsRead (src : Nat) (head : Bool) (s : State) : State :=
  { s with
    boot := { s.boot with sampled := true, bootSrc := src % 4 }, clk := { s.clk with hubLock := true, ref25 := true }
    chain := { s.chain with head := head, addressed := head } }

theorem exec_strapSample_again (hs : Live s) (h : s.boot.sampled = true) : exec (.strapSample t src head) s = .next (atDt t s) := by
  change execStrapSample t src head s = _
  rw [execStrapSample, runAt_live hs]
  exact congrArg _ (if_pos h)

theorem exec_strapSample_first (hs : Live s) (h : s.boot.sampled = false) : exec (.strapSample t src head) s =
    .next (if src % 4 = 3 then
        setService 7 { strapsRead src head (atDt t s) with boot := { (strapsRead src head (atDt t s)).boot with strapErr := true } }
      else if src % 4 = 1 ∧ head = true then
        deviceEvent { strapsRead src head (atDt t s) with boot := { (strapsRead src head (atDt t s)).boot with hostWaiting := true } }
      else strapsRead src head (atDt t s)) := by
  change execStrapSample t src head s = _
  rw [execStrapSample, runAt_live hs]
  exact congrArg _ (if_neg (by simp [h]))

/-- The ROM boots from the host (16 R489). -/
abbrev FromHost (s : State) : Prop := s.chain.head = true ∧ s.boot.sampled = true ∧
  (s.boot.bootSrc = 1 ∨ (s.boot.bootSrc = 2 ∧ (s.boot.hostWaiting = true ∨ s.boot.hostGo = true)))

theorem hostBoot_iff : hostBoot s = true ↔ FromHost s := by simp [hostBoot, and_assoc]

theorem writeGo_taken (h0 : s.pwr.service = 0) (hh : FromHost s) (ha : s.boot.imgAddr % 8 = 0) (hlo : 512 ≤ s.boot.imgLen)
    (hhi : s.boot.imgLen ≤ 983552) : writeGo s = { s with boot := { s.boot with hostGo := true, hostWaiting := false } } := by
  refine if_neg ?_
  rw [hostBoot_iff.2 hh]
  simp only [Bool.true_eq_false, false_or]
  omega

theorem writeGo_refused (h : s.pwr.service ≠ 0 ∨ ¬ FromHost s ∨ s.boot.imgAddr % 8 ≠ 0 ∨ s.boot.imgLen < 512 ∨ 983552 < s.boot.imgLen) :
    writeGo s = { s with boot := { s.boot with imgErr := true } } := by
  refine if_pos ?_
  rw [← hostBoot_iff, Bool.not_eq_true] at h
  exact h

theorem commitRollback_burns (h2 : s.boot.stage2 = true) (h : s.boot.otpRollback < s.boot.imgRollback) : commitRollback s =
    { s with boot := { s.boot with otpRollback := max s.boot.otpRollback (min s.boot.imgRollback 64) } } := if_pos (by simp [h2, h])

theorem commitRollback_none (h : s.boot.stage2 = false ∨ s.boot.imgRollback ≤ s.boot.otpRollback) : commitRollback s = s := by
  refine if_neg ?_
  rcases h with h | h
  · simp [h]
  · simpa using fun _ => h

/-- Reduced service may begin: the first cluster in service has passed its start-up rotation (16 R493 step 9). -/
abbrev ReducedReady (s : State) : Prop :=
  s.pwr.service = 1 ∧ s.boot.stage2 = true ∧ ∃ q ∈ s.safety.startDone, ∀ x < q, clusterOut s x = true

theorem enterReduced_ready (ht : s.boot.stacksTrained = true) (h : ReducedReady s) : enterReduced s =
    { setService 2 s with net := { (setService 2 s).net with
      vRaised := (setService 2 s).net.vHeld.isSome || decide (((setService 2 s).net.cfg.getD {}).validityUs < 30000) } } :=
  if_pos (by simpa [ht] using h)

theorem enterReduced_not_ready (h : ¬ ReducedReady s) : enterReduced s = s := by
  refine if_neg fun ⟨h1, h2, _, hq⟩ => h ⟨h1, h2, ?_⟩
  simpa using hq

theorem exec_stackTrainingComplete_live (hs : Live s) : exec (.stackTrainingComplete t full) s =
    .next (enterReduced { atDt t s with boot := { s.boot with stacksTrained := true, stacksFull := s.boot.stacksFull || full } }) := by
  change execStackTrainingComplete t full s = _
  rw [execStackTrainingComplete, runAt_live hs]
  rfl

end BootCommands

/-! ## Images -/

section Images

variable {a b : BootImg} {slot : Nat} {ok : BootImg → Bool} {s : State}

theorem bestImage_two (hgo : s.boot.hostGo = false) (ok : BootImg → Bool) (a b : BootImg) : bestImage ok [(0, a), (1, b)] s =
    ([(0, a), (1, b)].filter (fun x => ok x.2)).foldl imgBetter none := by
  rw [bestImage, bootImages, hgo]
  rfl

/-- The better of two slots: the higher version, slot A at equal versions (16 R491). -/
abbrev BestSlot (ok : BootImg → Bool) (a b : BootImg) (slot : Nat) : Prop :=
  (slot = 0 ∧ ok a = true ∧ (ok b = true → imgVersion b ≤ imgVersion a)) ∨ (slot = 1 ∧ ok b = true ∧ (ok a = true → imgVersion a < imgVersion b))

theorem bestImage_best (hgo : s.boot.hostGo = false) (h : BestSlot ok a b slot) :
    bestImage ok [(0, a), (1, b)] s = some (slot, if slot = 0 then a else b) := by
  rw [bestImage_two hgo]
  rcases h with ⟨rfl, ha, hb⟩ | ⟨rfl, hb, ha⟩
  · cases hokb : ok b with
    | false => simp [ha, hokb, imgBetter]
    | true =>
      have := hb hokb
      simp [ha, hokb, imgBetter]
      omega
  · cases hoka : ok a with
    | false => simp [hb, hoka, imgBetter]
    | true =>
      have := ha hoka
      simp [hb, hoka, imgBetter]
      omega

theorem bestImage_none (hgo : s.boot.hostGo = false) (ha : ok a = false) (hb : ok b = false) : bestImage ok [(0, a), (1, b)] s = none := by
  rw [bestImage_two hgo]
  simp [ha, hb]

theorem imgAllowed_of_ok {o : Boot} {i : BootImg} (h : stage1Ok o i = true ∨ imgOk o i = true) :
    sha384 (imgKey i) = o.otpKeyHash ∧ o.otpRollback ≤ imgRollback i := by
  have hallowed : imgAllowed o i = true := by
    rcases h with h | h
    · simp only [stage1Ok, Bool.and_eq_true] at h
      exact h.1.1.1
    · exact (Bool.and_eq_true_iff.1 h).1
  simpa [imgAllowed] using hallowed

end Images

/-! ## Secure boot -/

section SecureBoot

variable {t slot : Nat} {i : BootImg} {images : List (Nat × BootImg)} {s : State}

/-- A set-point change leaves the service state. -/
theorem chooseVset_service (step : Nat) (s : State) : (chooseVset step s).pwr.service = s.pwr.service := by
  have hfold (l : List Nat) (p : Pwr) : (l.foldl (fun p k =>
      if min (Config.vsetFor step) 60 = p.vset.getD k 40 then { p with vsetWant := modifyAt (fun _ => none) k p.vsetWant }
      else if s.dt < p.vsetAt.getD k 0 + 100000 then
        { p with vsetWant := modifyAt (fun _ => some (min (Config.vsetFor step) 60)) k p.vsetWant }
      else setVset k (min (Config.vsetFor step) 60) s.dt p) p).service = p.service := by
    induction l generalizing p with
    | nil => rfl
    | cons k l ih =>
      rw [List.foldl_cons, ih]
      split
      · rfl
      · split <;> rfl
  exact hfold (List.range 4) s.pwr

/-- What stage 1 brings up (16 R493 steps 4 and 5). -/
theorem startStage1_starts (slot : Nat) (i : BootImg) (s : State) :
    let u := startStage1 slot i s
    u.boot = { s.boot with slot := slot, imgRollback := imgRollback i } ∧ u.pwr.service = 1 ∧ u.ringm.running = true ∧ u.clk = s.clk ∧
    u.net = s.net := by
  obtain ⟨p, c, h⟩ := setService_only 1 { runImage slot i s with ringm := { s.ringm with running := true } }
  intro u
  rw [show u = _ from h]
  exact ⟨rfl, rfl, rfl, rfl, rfl⟩

/-- What stage 2 brings up (16 R493 step 7). -/
theorem startStage2_starts (slot : Nat) (i : BootImg) (s : State) :
    let u := startStage2 slot i s
    u.boot = { s.boot with slot := slot, imgRollback := imgRollback i, stage2 := true, fwVersion := imgVersion i, retainedFw := imgVersion i,
                           hostWaiting := false, hostGo := false } ∧
    u.pwr.service = s.pwr.service ∧ u.clk.dieLock = 15 ∧ u.ringm = s.ringm ∧ u.net = s.net :=
  ⟨rfl, chooseVset_service _ _, rfl, rfl, rfl⟩

/-- The ROM may boot from flash now. -/
structure BootsFromFlash (s : State) : Prop where
  sampled : s.boot.sampled = true
  stage2 : s.boot.stage2 = false
  src : s.boot.bootSrc = 0 ∨ s.boot.bootSrc = 2
  hostGo : s.boot.hostGo = false
  hostWaiting : s.boot.hostWaiting = false

/-- The ROM starts the image it has chosen, or has none (16 R491, R492). -/
def bootStarts (start : Nat → BootImg → State → State) (best : Option (Nat × BootImg)) (s : State) : State :=
  match best with
  | some (slot, i) => start slot i s
  | none => bootFails s

theorem exec_secureBoot_flash (hs : Live s) (hf : BootsFromFlash s) : exec (.secureBoot t images) s =
    .next (if s.pwr.service = 0 then bootStarts startStage1 (bestImage (stage1Ok s.boot) images (atDt t s)) (atDt t s)
      else if s.pwr.service = 1 then bootStarts startStage2 (bestImage (imgOk s.boot) images (atDt t s)) (atDt t s)
      else atDt t s) := by
  have hflash : ¬ (!(atDt t s).boot.sampled || (atDt t s).boot.stage2 ||
      ((atDt t s).chain.head && (atDt t s).boot.bootSrc == 1 && !(atDt t s).boot.hostGo) || (atDt t s).boot.hostWaiting) = true := by
    rcases hf.src with h | h <;> simp [hf.sampled, hf.stage2, hf.hostWaiting, h]
  change execSecureBoot t images s = _
  rw [execSecureBoot, runAt_live hs, if_neg hflash, show (atDt t s).pwr.service = s.pwr.service by rw [atDt_pwr, avsDue_service]]
  rfl

/-- A boot that has no image (16 R489, R492). -/
abbrev bootDead (s : State) : State :=
  { s with boot := { s.boot with slot := 3, fwVersion := 0, imgRollback := 0 }, ringm := { s.ringm with running := false } }

theorem bootFails_halts (h : s.boot.bootSrc = 0 ∨ s.chain.head = false) : bootFails s =
    raise 23 0 0 (setService 7 { bootDead s with
      boot := { (bootDead s).boot with authFail := true, hostGo := false, hostWaiting := false } }) := by
  refine if_neg ?_
  rcases h with h | h <;> simp [h]

theorem bootFails_waits (hsrc : s.boot.bootSrc = 2) (hh : s.chain.head = true) (hgo : s.boot.hostGo = false) : bootFails s =
    deviceEvent (setService 0 { bootDead s with boot := { (bootDead s).boot with hostWaiting := true } }) :=
  if_pos (by simp [hsrc, hh, hgo])

end SecureBoot

/-- Settles O24: the boot commands case by case, then the ROM's choice among the two flash slots. -/
theorem bootOps : Obligations.Boot := by
  unfold Obligations.Boot
  refine ⟨fun t src head full s hs => ?commands, fun t a b s hs hsampled hstage2 hsrc hgo hwaiting => ?images⟩
  case commands =>
    intro u sampled fromHost
    have hgo : exec (.go t) s = .next (writeGo u) := runAt_live hs t writeGo
    have hcommit : exec (.commitRollback t) s = .next (commitRollback u) := runAt_live hs t commitRollback
    have hreset : exec (.chipResetRequest t) s = .next (requestChipReset u) := runAt_live hs t requestChipReset
    have hservice : u.pwr.service = s.pwr.service := by rw [atDt_pwr, avsDue_service]
    have hstraps : strapsRead src head u = sampled := rfl
    have hfirst (h : s.boot.sampled = false) : exec (.strapSample t src head) s = .next (
        if src % 4 = 3 then setService 7 { sampled with boot := { sampled.boot with strapErr := true } }
        else if src % 4 = 1 ∧ head = true then deviceEvent { sampled with boot := { sampled.boot with hostWaiting := true } }
        else sampled) := by rw [exec_strapSample_first hs h, hstraps]
    refine ⟨exec_strapSample_again hs, fun h h02 => ?_, fun h h3 => ?_, fun h h1 hhead => ?_, fun h h1 hhead => ?_,
      fun h0 hh ha hlo hhi => hgo.trans (congrArg _ (writeGo_taken (s := u) (hservice.trans h0) hh ha hlo hhi)),
      fun h => hgo.trans (congrArg _ (writeGo_refused (s := u) (by rw [hservice]; exact h))),
      fun h2 h => hcommit.trans (congrArg _ (commitRollback_burns (s := u) h2 h)),
      fun h => hcommit.trans (congrArg _ (commitRollback_none (s := u) h)), fun h => hreset.trans (congrArg _ (if_pos h)),
      fun h0 h3 => hreset.trans (congrArg _ (if_neg fun h => h.elim h0 h3)), ?_⟩
    · exact (hfirst h).trans (congrArg _ ((if_neg (by omega)).trans (if_neg (by omega))))
    · exact (hfirst h).trans (congrArg _ (if_pos h3))
    · exact (hfirst h).trans (congrArg _ ((if_neg (by omega)).trans (if_pos ⟨h1, hhead⟩)))
    · exact (hfirst h).trans (congrArg _ ((if_neg (by omega)).trans (if_neg (by simp [hhead]))))
    · intro v ready w
      have hready : ReducedReady v ↔ ready := and_congr_left' (by rw [show v.pwr.service = s.pwr.service from hservice])
      exact ⟨fun h => (exec_stackTrainingComplete_live hs).trans (congrArg _ (enterReduced_ready (s := v) rfl (hready.2 h))),
        fun h => (exec_stackTrainingComplete_live hs).trans (congrArg _ (enterReduced_not_ready (s := v) (fun hv => h (hready.1 hv))))⟩
  case images =>
    intro ok1 ok2 best img dead
    have hexec := exec_secureBoot_flash (t := t) (images := [(0, a), (1, b)]) hs ⟨hsampled, hstage2, hsrc, hgo, hwaiting⟩
    refine ⟨fun slot h0 hbest => ?_, fun slot h1 hbest => ?_, fun hnone => ?_, fun h2 => ?_, fun i => imgAllowed_of_ok,
      fun i h => (Bool.and_eq_true_iff.1 h).2⟩
    · rw [if_pos h0, bestImage_best (s := atDt t s) hgo hbest] at hexec
      obtain ⟨hboot, hservice, hring, hclk, hnet⟩ := startStage1_starts slot (img slot) (atDt t s)
      exact ⟨_, hexec, congrArg Boot.slot hboot, (congrArg Boot.stage2 hboot).trans hstage2, (congrArg Boot.fwVersion hboot).trans rfl,
        congrArg Boot.imgRollback hboot, hservice, hring, hclk, hnet, (congrArg Boot.otpRollback hboot).trans rfl⟩
    · rw [if_neg (by omega), if_pos h1, bestImage_best (s := atDt t s) hgo hbest] at hexec
      obtain ⟨hboot, hservice, hlock, hring, hnet⟩ := startStage2_starts slot (img slot) (atDt t s)
      exact ⟨_, hexec, congrArg Boot.slot hboot, congrArg Boot.stage2 hboot, congrArg Boot.fwVersion hboot, congrArg Boot.imgRollback hboot,
        congrArg Boot.retainedFw hboot, hservice.trans h1, hlock, hring, hnet, (congrArg Boot.otpRollback hboot).trans rfl⟩
    · have hfails : exec (.secureBoot t [(0, a), (1, b)]) s = .next (bootFails (atDt t s)) := by
        rcases hnone with ⟨h0, ha, hb⟩ | ⟨h1, ha, hb⟩
        · rw [hexec, if_pos h0, bestImage_none (s := atDt t s) hgo (Bool.not_eq_true _ ▸ ha) (Bool.not_eq_true _ ▸ hb)]
          rfl
        · rw [hexec, if_neg (by omega), if_pos h1,
            bestImage_none (s := atDt t s) hgo (Bool.not_eq_true _ ▸ ha) (Bool.not_eq_true _ ▸ hb)]
          rfl
      exact ⟨fun h => hfails.trans (congrArg _ (bootFails_halts (s := atDt t s) h)),
        fun h2 hh => hfails.trans (congrArg _ (bootFails_waits (s := atDt t s) h2 hh hgo))⟩
    · rw [hexec, if_neg (by omega), if_neg (by omega)]

end Sys2Proof.Machine
end

section
/-! SUPPORT. Dormancy, the state right after reset, and the 64-bit register pairs (16 R498 to R502, 17 R504 to R529). The statements about them (O25,
O2, O16). -/

namespace Sys2Proof.Machine

/-! ## Dormancy -/

section Dormant

variable {t : Nat} {rest : Bool} {failed : List (CUnit × Nat)} {s : State}

/-- A request for Dormant is accepted (16 R498). -/
abbrev MayRest (rest : Bool) (s : State) : Prop := s.chain.head = true ∧ (s.net.state = 0 ∨ s.net.state = 3) ∧ rest = true ∧
  (∀ c ∈ s.hostq.ctxs, c.2.state = 0) ∧ carouselBusy s = false ∧ accordLoading s = false

theorem requestDormant_eq (rest : Bool) (s : State) [Decidable (MayRest rest s)] : requestDormant rest s =
    if MayRest rest s then { s with pwr := { s.pwr with dormantWanted := true } } else { s with pwr := { s.pwr with refused := true } } := by
  refine if_congr ?_ rfl rfl
  simp only [isUnit0, Bool.and_eq_true, Bool.or_eq_true, beq_iff_eq, Bool.not_eq_true', List.all_eq_true, and_assoc]

theorem makeReady_only (e reason : Nat) (front : Bool) (s : State) : ∃ r, makeReady e reason front s = { s with ringm := r } := ⟨_, rfl⟩

theorem parkThreads_only (s : State) : ∃ r, parkThreads s = { s with ringm := r } := by
  have hfold (l : List Nat) (s : State) :
      ∃ r, l.foldl (fun s e => makeReady e (threadOf s e).wakeReason true s) s = { s with ringm := r } := by
    induction l generalizing s with
    | nil => exact ⟨s.ringm, rfl⟩
    | cons e l ih =>
      obtain ⟨r, hr⟩ := ih (makeReady e (threadOf s e).wakeReason true s)
      obtain ⟨q, hq⟩ := makeReady_only e (threadOf s e).wakeReason true s
      refine ⟨r, hr.trans ?_⟩
      rw [hq]
  exact hfold _ _

/-- A message in flight changes neither port's state. -/
theorem sendMsix_ports (v : Nat) (s : State) :
    (sendMsix v s).chain.up.state = s.chain.up.state ∧ (sendMsix v s).chain.dn.state = s.chain.dn.state := by
  unfold sendMsix
  (repeat' split) <;> exact ⟨rfl, rfl⟩

theorem setService_ports (n : Nat) (s : State) :
    (setService n s).chain.up.state = s.chain.up.state ∧ (setService n s).chain.dn.state = s.chain.dn.state := by
  unfold setService deviceEvent
  split
  · exact ⟨rfl, rfl⟩
  · split
    · exact sendMsix_ports _ _
    · exact ⟨rfl, rfl⟩

theorem enterDormant_ready (h : dormantReady s = true) : enterDormant s = setService 5 (dormantLoss (parkThreads s)) := if_neg (by simp [h])

theorem enterDormant_not_ready (h : dormantReady s = false) : enterDormant s = s := if_pos (by simp [h])

theorem wakeComplete_done (h : s.pwr.service = 6) (ok : Bool) :
    wakeComplete ok failed s = if !ok then wakeBootAgain s else wakeUp failed s := if_neg (fun hn => hn.1 h)

theorem wakeComplete_none (h : s.pwr.service ≠ 6) (hh : s.chain.head = true) (ok : Bool) : wakeComplete ok failed s = s :=
  if_pos ⟨h, by simp [hh]⟩

theorem rebuildCaches_only (s : State) : ∃ f r, rebuildCaches s =
    { s with fresh := f, world := { s.world with fl := { s.world.fl with resident := r } } } := ⟨_, _, rfl⟩

theorem lockDies_only (s : State) : ∃ p k, lockDies s = { s with pwr := p, clk := { s.clk with dieLock := 15, die := k } } := ⟨_, _, rfl⟩

/-- A wake with no failing unit, before it enters FULL service (16 R501). -/
abbrev woken (s : State) : State :=
  { s with
    safety := { s.safety with startupDone := true, pairsOut := [] }, recurrentZero := true, recurrent := []
    ringm := { s.ringm with running := true }, boot := { s.boot with fwVersion := s.boot.retainedFw }
    frame := { s.frame with wakeTick := some ((s.dt / 1000000 + 1) * 1000000), cur := none } }

/-- What a wake with no failing unit leaves (16 R501): the dies locked, the caches rebuilt, FULL service. -/
theorem wakeUp_nil (s : State) : ∃ (p : Pwr) (k : List Nat) (f : Nat) (r : List (Key × Nat)) (c : Pcie) (d : Chain), wakeUp [] s =
    { woken s with
      pwr := { p with service := 3 }, clk := { s.clk with dieLock := 15, die := k }, fresh := f
      world := { s.world with fl := { s.world.fl with resident := r } }, pcie := c, chain := d } := by
  obtain ⟨p, k, hlock⟩ := lockDies_only (woken s)
  obtain ⟨f, r, hcaches⟩ := rebuildCaches_only (lockDies (woken s))
  obtain ⟨c, d, hset⟩ := setService_only 3 (rebuildCaches (lockDies (woken s)))
  refine ⟨p, k, f, r, c, d, (show wakeUp [] s = _ from hset).trans ?_⟩
  rw [hcaches, hlock]

end Dormant

/-- Settles O25: the requests by the service state, what the entry leaves, and what a wake with no failing unit brings back. -/
theorem dormancy : Obligations.Dormancy := by
  unfold Obligations.Dormancy
  refine ⟨fun t rest failed s hs => ?requests, fun t s hs h6 hevt => ?wake⟩
  case requests =>
    intro u may
    have hservice : u.pwr.service = s.pwr.service := by rw [atDt_pwr, avsDue_service]
    have hready : dormantReady u = dormantReady s := by rw [dormantReady, hservice]; rfl
    have hreq : exec (.dormantReq t rest) s = .next (requestDormant rest u) := runAt_live hs t (requestDormant rest)
    have hentry : exec (.dormantEntry t) s = .next (enterDormant u) := runAt_live hs t enterDormant
    have hwake : exec (.wake t) s = .next (requestWake u) := runAt_live hs t requestWake
    have hi3c : exec (.i3cWake t) s = .next (if u.pwr.service = 5 then beginWake u else u) := runAt_live hs t _
    have hdone (ok : Bool) : exec (.wakeComplete t ok failed) s = .next (wakeComplete ok failed u) := runAt_live hs t (wakeComplete ok failed)
    classical
    rw [requestDormant_eq] at hreq
    refine ⟨fun h => hreq.trans (congrArg _ (if_pos h)), fun h => hreq.trans (congrArg _ (if_neg h)),
      fun h => hentry.trans (congrArg _ (enterDormant_not_ready (hready.trans h))), fun h => ?_, fun hh h5 => ?_, fun hh h5 => ?_, fun hh => ?_,
      fun h5 => hi3c.trans (congrArg _ (if_pos (hservice.trans h5))),
      fun h5 => hi3c.trans (congrArg _ (if_neg (fun h => h5 (hservice.symm.trans h)))),
      fun h6 => (hdone true).trans (congrArg _ (wakeComplete_done (hservice.trans h6) true)), fun h6 => ?_,
      fun h6 hh ok => (hdone ok).trans (congrArg _ (wakeComplete_none (fun h => h6 (hservice.symm.trans h)) hh ok))⟩
    · obtain ⟨r, hr⟩ := parkThreads_only u
      obtain ⟨hup, hdn⟩ := setService_ports 5 (dormantLoss { u with ringm := r })
      obtain ⟨p, c, hset⟩ := setService_only 5 (dormantLoss { u with ringm := r })
      refine ⟨_, hentry.trans (congrArg _ (enterDormant_ready (hready.trans h))), ?_⟩
      rw [hr, hup, hdn, hset]
      exact ⟨rfl, rfl, rfl, rfl, rfl, rfl, rfl, rfl, rfl, rfl, rfl, rfl, rfl, rfl, rfl, rfl, rfl, rfl, rfl, rfl, rfl⟩
    · exact hwake.trans (congrArg _ ((if_neg (by simp [isUnit0, u, hh])).trans (if_neg (fun h => h5 (hservice.symm.trans h)))))
    · exact hwake.trans (congrArg _ ((if_neg (by simp [isUnit0, u, hh])).trans (if_pos (hservice.trans h5))))
    · exact hwake.trans (congrArg _ (if_pos (by simp [isUnit0, u, hh])))
    · exact ⟨_, (hdone false).trans (congrArg _ (wakeComplete_done (hservice.trans h6) false)), rfl, rfl, rfl, rfl, rfl, rfl, rfl, rfl⟩
  case wake =>
    have hservice : (atDt t s).pwr.service = 6 := by rw [atDt_pwr, avsDue_service, h6]
    have hdone : exec (.wakeComplete t true []) s = .next (wakeComplete true [] (atDt t s)) := runAt_live hs t (wakeComplete true [])
    rw [wakeComplete_done hservice] at hdone
    obtain ⟨p, k, f, r, c, d, hwake⟩ := wakeUp_nil (atDt t s)
    exact ⟨_, hdone.trans (congrArg _ hwake), rfl, rfl, rfl, rfl, rfl, rfl, rfl, rfl, rfl, rfl, rfl, rfl, rfl, rfl, rfl, rfl, rfl⟩

/-! ## The state right after reset -/

/-- Settles O2: the four parts of the invariant, then each register through the map. -/
theorem resetState : Obligations.ResetState := by
  unfold Obligations.ResetState
  have hmem : MemoriesOk State.reset := ⟨rfl, rfl⟩
  have hstop : SafeStopOk State.reset := fun _ => ⟨rfl, rfl⟩
  have hlimit : LimitOk State.reset.pwr := by
    unfold LimitOk
    decide
  exact ⟨⟨hmem, hstop, reset_srcsOk, hlimit⟩, rfl, rfl, rfl, rfl, rfl, rfl, rfl, rfl, rfl, rfl, rfl, by decide, rfl, rfl⟩

/-! ## Register pairs -/

section Pairs

variable {t off v a b : Nat} {s : State}

/-- The state after the host has read the low half of a pair: the high half is captured (17 R504). -/
abbrev pairRead (off v : Nat) (s : State) : State :=
  { s with
    hi := insertKey (off + 4) (v / 2 ^ 32 % 2 ^ 32) s.hi
    pcie := { s.pcie with readData := [v % 2 ^ 32], readOk := true, poisoned := false } }

theorem exec_pairLoRead_captures (hs : Live s) (hup : endpointUp s = true) (ha : off % 4 = 0) (hn : lookupO off s.hi = none)
    (hv : pairVal (atDt t s) off = some v) : exec (.pairLoRead t off) s = .next (pairRead off v (atDt t s)) :=
  (exec_pairLoRead_of_pair hs ha hv).trans (exec_registerReadClear_up hs hup ha (regRead_pair hn hv))

theorem exec_registerReadClear_captured (hs : Live s) (hup : endpointUp s = true) (ha : off % 4 = 0) (hc : lookupO off s.hi = some v) :
    ∃ w, exec (.registerReadClear t off) s = .next w ∧ w.pcie.readData = [v] :=
  ⟨_, exec_registerReadClear_up hs hup ha (regRead_captured hc), rfl⟩

theorem live_atDt (hs : Live s) : Live (atDt t s) := by
  rw [Live, atDt_pwr, avsDue_heldReset, avsDue_supplyHeld]
  exact hs

/-- The low halves that software may write (17 R504). -/
theorem pairWritable_offset (h : pairWritable off = true) : off % 4 = 0 ∧ off < 0xF00000 ∧ off ≠ 0x5001C := by
  have hmem : off ∈ [0x10008, 0x40080, 0x40088, 0x40090, 0x40098, 0xC000C, 0xC0014] := List.contains_iff_mem.1 h
  simp only [List.mem_cons, List.not_mem_nil, or_false] at hmem
  omega

theorem exec_registerWrite_low (hs : Live s) (hup : endpointUp s = true) (h : pairWritable off = true) (ha : a < 2 ^ 32) :
    exec (.registerWrite t off a) s = .next { atDt t s with lo := insertKey off a s.lo } := by
  obtain ⟨h4, hlt, hne⟩ := pairWritable_offset h
  have hhead : s.chain.head = true := ((endpointUp_iff s).1 hup).1
  have hreg : regWrite off a (atDt t s) = { atDt t s with lo := insertKey off a s.lo } := by
    rw [regWrite, if_neg (by simp [hhead]), if_neg (by omega), if_pos h, holdLow, Nat.mod_eq_of_lt ha]
    rfl
  change execRegisterWrite t off a s = _
  rw [execRegisterWrite, runAt_live hs]
  dsimp only
  rw [if_neg (by simp [hup]), Nat.mod_eq_of_lt ha, show off / 4 * 4 = off by omega, if_neg hne, hreg]

theorem exec_pairHiWrite_commits (hs : Live s) (hh : s.chain.head = true) (h : pairWritable off = true) :
    exec (.pairHiWrite t (off + 4) b) s = .next (commitPair off b (atDt t s)) := by
  change execPairHiWrite t (off + 4) b s = _
  rw [execPairHiWrite, runAt_live hs, writeHigh, Nat.add_sub_cancel, if_neg]
  simp [h, hh]

theorem commitPair_held (hb : b < 2 ^ 32) (hl : lookupO off s.lo = some a) :
    commitPair off b s = writePair off (a + 2 ^ 32 * b) { s with lo := eraseKey off s.lo } := by
  simp only [commitPair, hl, Nat.mod_eq_of_lt hb]

theorem commitPair_alone (hb : b < 2 ^ 32) (hl : lookupO off s.lo = none) : commitPair off b s =
    writePair off ((pairVal s off).getD 0 % 2 ^ 32 + 2 ^ 32 * b) { s with lo := eraseKey off s.lo } := by
  simp only [commitPair, hl, Nat.mod_eq_of_lt hb, lowHalf]

end Pairs

/-- Settles O16: a read of the low half captures the high one for the next read, and a write of the high half commits with the half held. -/
theorem pairAccess : Obligations.PairAccess := by
  unfold Obligations.PairAccess
  refine ⟨fun t t' off v s hs hh hp h4 hn hv => ?read, fun t off a b s hs hh hp hw ha hb => ?write⟩
  case read =>
    have hup (z : State) (hh : z.chain.head = true) (hp : z.pcie.perst = false) : endpointUp z = true := (endpointUp_iff z).2 ⟨hh, hp⟩
    have hcap : lookupO (off + 4) (pairRead off v (atDt t s)).hi = some (v / 2 ^ 32 % 2 ^ 32) := (lookup_insert_same 0 _ _ _).1
    refine ⟨_, exec_pairLoRead_captures hs (hup s hh hp) h4 hn hv, rfl, ?_, fun z hz hh hp hhi => ?_⟩
    · exact exec_registerReadClear_captured (live_atDt hs) (hup _ hh hp) (by omega) hcap
    · exact exec_registerReadClear_captured hz (hup z hh hp) (by omega) (hhi ▸ hcap)
  case write =>
    intro u
    refine ⟨⟨_, exec_registerWrite_low hs ((endpointUp_iff s).2 ⟨hh, hp⟩) hw ha, rfl, ?_⟩, fun hl => ?_⟩
    · have hcommit := exec_pairHiWrite_commits (t := t) (b := b) (s := { atDt t s with lo := insertKey off a s.lo }) (live_atDt hs) hh hw
      exact hcommit.trans (congrArg _ (commitPair_held hb (lookup_insert_same 0 _ _ _).1))
    · rw [exec_pairHiWrite_commits hs hh hw, commitPair_alone (s := atDt t s) hb hl]
      rfl

end Sys2Proof.Machine
end
